-- ==== Sys2Proof/Word.lean ====
section
/-! DEFINITION. The word types of the device and their plainest arithmetic (R8, R15). -/

namespace Sys2Proof

/-- A general register or a virtual address (R15). -/
abbrev Word := BitVec 64

/-- One byte of memory (R8). -/
abbrev Byte := BitVec 8

/-- One lane of a vector register (R15). -/
abbrev Lane := BitVec 32

/-- The 512 bits of a line (R52). -/
abbrev Line := BitVec 512

/-- Bits [lo+n-1:lo] of a number. -/
def bitsN (x lo n : Nat) : Nat := x / 2 ^ lo % 2 ^ n

/-- Bits [lo+n-1:lo] of a word, as a number. -/
def fieldN {w : Nat} (x : BitVec w) (lo n : Nat) : Nat := bitsN x.toNat lo n

/-- Bit `i` of a word. -/
def bitN {w : Nat} (x : BitVec w) (i : Nat) : Bool := x.toNat / 2 ^ i % 2 == 1

/-- A fault code of R259. -/
inductive FaultCode where
  | illegalOp | illegalField | illegalPair | lineParity | target | entry
  | domainRead | domainWrite | execDenied | notPresent | hostDenied | segment
  | path | overlap | hostAtomicUr | drsOverflow | lendFull | lendExcess
  | timelineRetired | timelineRegress | stateRight | lease | align
  | engineRight | softError
  | trapN (n : BitVec 4)
deriving DecidableEq, Repr

/-- The 8-bit number of a fault code (R259). -/
def FaultCode.num : FaultCode → Nat
  | .illegalOp => 0x01 | .illegalField => 0x02 | .illegalPair => 0x03 | .lineParity => 0x04
  | .target => 0x05 | .entry => 0x06 | .domainRead => 0x07 | .domainWrite => 0x08
  | .execDenied => 0x09 | .notPresent => 0x0A | .hostDenied => 0x0B | .segment => 0x0C
  | .path => 0x0D | .overlap => 0x0E | .hostAtomicUr => 0x0F | .drsOverflow => 0x10
  | .lendFull => 0x11 | .lendExcess => 0x12 | .timelineRetired => 0x13
  | .timelineRegress => 0x14 | .stateRight => 0x15 | .lease => 0x16 | .align => 0x17
  | .engineRight => 0x18 | .softError => 0x19
  | .trapN n => 0xF0 + n.toNat

end Sys2Proof
end

