-- ==== Sys2Proof/Syntax.lean ====
section
/-! DEFINITION. The instructions and events of spec/opcode_table.json: one constructor of Instr per row. -/

namespace Sys2Proof

/-- A general-register source with its SYN bit (R21, R68). -/
structure Src where
  reg : Fin 32
  syn : Bool
deriving DecidableEq, Repr

/-- A vector-register source with its SYN bit (R70). -/
structure VSrc where
  reg : Fin 8
  syn : Bool
deriving DecidableEq, Repr

/-- The destination of a scalar ALU instruction: local, or a register of the spoke whose handle a register holds (R27, R71). -/
inductive Dst where
  | loc (r : Fin 32)
  | remote (r : Fin 32) (handle : Src)
deriving DecidableEq, Repr

/-- The target of a BR-format instruction: signed line offset and slot (R58). -/
structure BrTarget where
  off : BitVec 45
  slot : BitVec 3
deriving DecidableEq, Repr

/-- Access size (R74). -/
inductive Size where
  | b | h | w | d
deriving DecidableEq, Repr

/-- Rounding mode (R74). -/
inductive Rnd where
  | rne | rtz | rdn | rup
deriving DecidableEq, Repr

/-- Element format codes of R74, and the two that only VCVT accepts (R427). -/
inductive Fmt where
  | fp4 | tap6 | tap8 | e4m3 | e5m2 | i8 | bf16 | f16 | f32 | i32 | u8 | i16
deriving DecidableEq, Repr

/-- Quadrant codes (R74, R178). -/
inductive Quad where
  | q0 | q1 | q2 | q3 | h01 | h23 | v02 | v13 | all
deriving DecidableEq, Repr

/-- Fence scopes (R74, R135). -/
inductive Scope where
  | sp | co | ti | dv | sy
deriving DecidableEq, Repr

/-- Conditions of CMP (R341). -/
inductive CmpCond where
  | eq | ne | lt | le | ge | ltu | leu
deriving DecidableEq, Repr

/-- Conditions of SEMWAIT (R250). -/
inductive SemCond where
  | eq | le | ge
deriving DecidableEq, Repr

/-- Conditions of VCMP (R425). -/
inductive VCond where
  | eq | ne | lt | le
deriving DecidableEq, Repr

/-- Operations of COLL (R238). -/
inductive CollOp where
  | rs | ag | ar | bc
deriving DecidableEq, Repr

/-- How a reply of memory ends an access: performed, Unsupported Request (R284), host denial (R267), a lost or refusing peer (R285), an uncorrectable soft error (R259); or one lane of a vector access is performed and the rest stays outstanding (R128, R432). -/
inductive ReplyStatus where
  | ok | unsupported | denied | lost | soft
  | lane (k : Nat)
deriving DecidableEq, Repr

/-- What comes about of an engine command: its end, with nothing wrong or with the error that ends it (R230, R240); or a part of its work (R128, R139): a source byte is read, a unit is done out of turn, a byte written becomes visible. -/
inductive EndStatus where
  | ok | denied | lost | soft | mismatch
  | ahead (va : Word)
  | unit (k : Nat)
  | drain (k : Nat)
deriving DecidableEq, Repr

/-- The host's answer to a page request (R267). -/
inductive PageAnswer where
  | success | invalid | failure
deriving DecidableEq, Repr

/-- Where a packet comes from: the ring of a queue, or a node of a graph instance (R246, R253). -/
inductive PktSrc where
  | queue (vf q : Nat)
  | node (inst j : Nat)
deriving DecidableEq, Repr

/-- The rings of a function (R268). -/
inductive RingSel where
  | retry | terminal | device
deriving DecidableEq, Repr

/-- An access of a host or peer agent to device memory (R145, R283). -/
inductive AgentAcc where
  | read (n : Nat)
  | write (bytes : List Byte)
  | fetchAdd (n : Nat) (v : Nat)
  | swap (n : Nat) (v : Nat)
  | cas (n : Nat) (cmp v : Nat)
deriving DecidableEq, Repr

/-- Who accesses device memory from outside, and at which address (R145, R283, R285): the host through the CXL.mem range, or a peer device over its connection to a VF. -/
inductive Agent where
  | host (addr : Nat)
  | peer (vf dev addr : Nat)
deriving DecidableEq, Repr

/-- The rows of spec/opcode_table.json. The arguments of an event row are the data that the outside, or the order in which things come about, supplies. -/
inductive Instr where
  -- group 000, scalar ALU
  | addRrr (d : Dst) (a b : Src)
  | addRri (d : Dst) (a : Src) (imm : BitVec 48)
  | subRrr (d : Dst) (a b : Src)
  | subRri (d : Dst) (a : Src) (imm : BitVec 48)
  | mulRrr (d : Dst) (a b : Src)
  | mulRri (d : Dst) (a : Src) (imm : BitVec 48)
  | mulhRrr (d : Dst) (a b : Src) (u : Bool)
  | mulhRri (d : Dst) (a : Src) (imm : BitVec 48) (u : Bool)
  | divRrr (d : Dst) (a b : Src) (u : Bool)
  | divRri (d : Dst) (a : Src) (imm : BitVec 48) (u : Bool)
  | remRrr (d : Dst) (a b : Src) (u : Bool)
  | remRri (d : Dst) (a : Src) (imm : BitVec 48) (u : Bool)
  | divideEnd (core sp : Nat)
  | andRrr (d : Dst) (a b : Src)
  | andRri (d : Dst) (a : Src) (imm : BitVec 48)
  | orRrr (d : Dst) (a b : Src)
  | orRri (d : Dst) (a : Src) (imm : BitVec 48)
  | xorRrr (d : Dst) (a b : Src)
  | xorRri (d : Dst) (a : Src) (imm : BitVec 48)
  | andnRrr (d : Dst) (a b : Src)
  | andnRri (d : Dst) (a : Src) (imm : BitVec 48)
  | shlRrr (d : Dst) (a b : Src)
  | shlRri (d : Dst) (a : Src) (imm : BitVec 48)
  | shrRrr (d : Dst) (a b : Src)
  | shrRri (d : Dst) (a : Src) (imm : BitVec 48)
  | sraRrr (d : Dst) (a b : Src)
  | sraRri (d : Dst) (a : Src) (imm : BitVec 48)
  | rotRrr (d : Dst) (a b : Src)
  | rotRri (d : Dst) (a : Src) (imm : BitVec 48)
  | clz (d : Dst) (a : Src)
  | ctz (d : Dst) (a : Src)
  | popc (d : Dst) (a : Src)
  | minRrr (d : Dst) (a b : Src) (u : Bool)
  | minRri (d : Dst) (a : Src) (imm : BitVec 48) (u : Bool)
  | maxRrr (d : Dst) (a b : Src) (u : Bool)
  | maxRri (d : Dst) (a : Src) (imm : BitVec 48) (u : Bool)
  | cmpRrr (d : Dst) (a b : Src) (c : CmpCond)
  | cmpRri (d : Dst) (a : Src) (imm : BitVec 48) (c : CmpCond)
  | sel (d : Fin 32) (a b c : Src)
  | mov (d : Dst) (a : Src)
  | li (d : Dst) (imm : BitVec 48)
  | lih (d : Dst) (a : Src) (imm : BitVec 16)
  | lea (d : Dst) (base : Option Src) (imm : BitVec 48)
  | bfx (d : Dst) (a : Src) (lo : BitVec 6) (w : BitVec 7)
  | bfi (d : Dst) (a b : Src) (lo : BitVec 6) (w : BitVec 7)
  | sext (d : Dst) (a : Src) (w : BitVec 7)
  -- group 001, control
  | br (t : BrTarget)
  | bc (a : Src) (nz : Bool) (t : BrTarget)
  | bri (a : Src)
  | call (link : Fin 32) (t : BrTarget)
  | ret (a : Src)
  | loop (c : Fin 32) (t : BrTarget)
  | dcallLabel (link : Fin 32) (t : BrTarget)
  | dcallReg (link : Fin 32) (a : Src)
  | dret
  | spend
  -- group 010, memory and atomics
  | ld (rlx : Bool) (d : Fin 32) (a : Src) (sz : Size) (sx : Bool) (disp : BitVec 48)
  | ldF (d : Fin 32) (a : Src) (disp : BitVec 48)
  | ldS (d : Fin 32) (a : Src) (disp : BitVec 48)
  | st (rlx : Bool) (a b : Src) (sz : Size) (disp : BitVec 48)
  | stF (a b : Src) (disp : BitVec 48)
  | empty (a : Src) (disp : BitVec 48)
  | fence (sc : Scope)
  | pgrp (n : BitVec 4)
  | publ
  | roinv (a n : Src)
  | aadd (rlx : Bool) (d : Fin 32) (a b : Src) (sz : Size) (disp : BitVec 48)
  | aand (rlx : Bool) (d : Fin 32) (a b : Src) (sz : Size) (disp : BitVec 48)
  | aor (rlx : Bool) (d : Fin 32) (a b : Src) (sz : Size) (disp : BitVec 48)
  | axor (rlx : Bool) (d : Fin 32) (a b : Src) (sz : Size) (disp : BitVec 48)
  | amin (rlx u : Bool) (d : Fin 32) (a b : Src) (sz : Size) (disp : BitVec 48)
  | amax (rlx u : Bool) (d : Fin 32) (a b : Src) (sz : Size) (disp : BitVec 48)
  | aswp (rlx : Bool) (d : Fin 32) (a b : Src) (sz : Size) (disp : BitVec 48)
  | acas (rlx : Bool) (d : Fin 32) (a b c : Src) (sz : Size) (disp : BitVec 48)
  -- group 011, synchronisation, messaging, spoke control, domains
  | wake (a : Src)
  | ibpop (h v : Fin 32)
  | ibreplay (a b : Src)
  | spstart (a b c : Src)
  | spstop (a : Src)
  | spresume (a : Src)
  | spkill (a : Src)
  | spreap (d : Fin 32) (a : Src)
  | spspill (a b : Src)
  | spfill (a b : Src)
  | gbar (g : BitVec 8)
  | garrive (g : BitVec 8)
  | barinit (b a n : Src)
  | bararr (b n : Src)
  | barwait (b p : Src)
  | semsig (a b : Src)
  | semwait (c : SemCond) (d : Fin 32) (a b : Src)
  | tlsig (a b : Src)
  | tlwait (d : Fin 32) (a b : Src)
  | ptest (d : Fin 32) (v : Bool) (r : Fin 32)
  | cancel (d r : Fin 32)
  | lend (d : Fin 32) (a b : Src) (mode : BitVec 2)
  | unlend (a : Src)
  | domq (d : Fin 32) (a : Src)
  -- group 100, tile engines
  | mldw (fmt : Fmt) (sc sp2 t : Bool) (d : Fin 32) (q : Quad) (a b : Src) (n k : BitVec 10)
  | mmul (fmt : Fmt) (sc ovw sat : Bool) (d : Fin 32) (q : Quad) (a b c : Src)
  | mdrain (fmt : Fmt) (rnd : Rnd) (sat : Bool) (d : Fin 32) (q : Quad) (a b c : Src) (n : BitVec 10) (adj : BitVec 8)
  | mzero (d : Fin 32) (q : Quad) (a b : Src) (n : BitVec 10)
  | spcmp (fmt : Fmt) (sc : Bool) (d : Fin 32) (a b c : Src) (n k : BitVec 10)
  | lyt (d : Fin 32) (a b : Src) (l : Fin 32)
  | lytq (d : Fin 32) (l : Fin 32)
  | cpsetReg (r : BitVec 3) (a : Src)
  | cpsetImm (r : BitVec 3) (imm : BitVec 48)
  | cpgo (d : Fin 32)
  | cpgath (d : Fin 32) (v : VSrc)
  | cpscat (d : Fin 32) (v : VSrc)
  | cpcancel (d : Fin 32) (a : Src)
  | waitany (d : Fin 32) (a : Src)
  | waitall (a : Src)
  | tagff (d : Fin 32) (a : Src)
  | tagclr (a : Src)
  | coll (op : CollOp) (d : Fin 32) (a : Src)
  | lease (d : Fin 32) (a : Src)
  | unlease (a : Src)
  | trload (a b : Src)
  | trseal
  -- groups 101 and 110, vectors and masks
  | vadd (rnd : Rnd) (sat : Bool) (km : Fin 4) (d : Fin 8) (a b : VSrc)
  | vsub (rnd : Rnd) (sat : Bool) (km : Fin 4) (d : Fin 8) (a b : VSrc)
  | vmul (rnd : Rnd) (sat : Bool) (km : Fin 4) (d : Fin 8) (a b : VSrc)
  | vfma (rnd : Rnd) (sat : Bool) (km : Fin 4) (d : Fin 8) (a b c : VSrc)
  | vmin (km : Fin 4) (d : Fin 8) (a b : VSrc)
  | vmax (km : Fin 4) (d : Fin 8) (a b : VSrc)
  | vabs (km : Fin 4) (d : Fin 8) (a : VSrc)
  | vneg (km : Fin 4) (d : Fin 8) (a : VSrc)
  | viadd (sat : Bool) (km : Fin 4) (d : Fin 8) (a b : VSrc)
  | vimul (sat : Bool) (km : Fin 4) (d : Fin 8) (a b : VSrc)
  | vand (km : Fin 4) (d : Fin 8) (a b : VSrc)
  | vor (km : Fin 4) (d : Fin 8) (a b : VSrc)
  | vxor (km : Fin 4) (d : Fin 8) (a b : VSrc)
  | vshl (km : Fin 4) (d : Fin 8) (a b : VSrc)
  | vshr (km : Fin 4) (d : Fin 8) (a b : VSrc)
  | vcmp (c : VCond) (km : Fin 4) (d : Fin 4) (a b : VSrc)
  | vsel (d : Fin 8) (a b : VSrc) (k : Fin 4)
  | vexp2 (km : Fin 4) (d : Fin 8) (a : VSrc)
  | vrcp (km : Fin 4) (d : Fin 8) (a : VSrc)
  | vrsq (km : Fin 4) (d : Fin 8) (a : VSrc)
  | vredadd (km : Fin 4) (d : Fin 32) (a : VSrc)
  | vredmax (km : Fin 4) (d : Fin 32) (a : VSrc)
  | vperm (km : Fin 4) (d : Fin 8) (a b : VSrc)
  | vrng (w : BitVec 2) (km : Fin 4) (d : Fin 8) (a b : Src)
  | vld (rlx : Bool) (km : Fin 4) (d : Fin 8) (a : Src) (disp : BitVec 48)
  | vst (rlx : Bool) (km : Fin 4) (a : Src) (s : VSrc) (disp : BitVec 48)
  | vgath (rlx : Bool) (km : Fin 4) (d : Fin 8) (a : Src) (i : VSrc) (disp : BitVec 48)
  | vscat (rlx : Bool) (km : Fin 4) (a : Src) (i s : VSrc) (disp : BitVec 48)
  | vbcast (km : Fin 4) (d : Fin 8) (a : Src)
  | vext (d : Fin 32) (a : VSrc) (lane : BitVec 5)
  | vins (d : Fin 8) (a : VSrc) (b : Src) (lane : BitVec 5)
  | vcvt (dfmt sfmt : Fmt) (rnd : Rnd) (sat : Bool) (km : Fin 4) (d : Fin 8) (a : VSrc)
  | vqnt (fmt : Fmt) (km : Fin 4) (d : Fin 8) (a : VSrc)
  | kand (d a b : Fin 4)
  | kor (d a b : Fin 4)
  | knot (d a : Fin 4)
  | kpop (d : Fin 32) (a : Fin 4)
  -- group 111, system
  | nop
  | trap (n : BitVec 4)
  | tret
  | rds (d : Fin 32) (n : BitVec 4)
  | wrs (a : Src) (n : BitVec 4)
  | tinv (a b : Src)
  | bkpt
  | ill
  -- events
  | memoryReply (core sp idx : Nat) (st : ReplyStatus)
  | lineArrival (core sp : Nat) (err1 err2 : Line)
  | inboxMessageArrival (idx : Nat)
  | inboxHeldDelivery (core vf idx : Nat)
  | meshMessageAccept (core vf idx : Nat)
  | wakeDelivery (core vf idx : Nat)
  | hubLoadExchange (core : Nat)
  | paneGrant (idx : Nat)
  | copySlotGrant (core vf : Nat)
  | matrixCommandStart (id : Nat)
  | matrixCommandComplete (id : Nat) (st : EndStatus)
  | layoutCommandStart (id : Nat)
  | layoutCommandComplete (id : Nat) (st : EndStatus)
  | engineTranslationFault (id : Nat)
  | transferCompletion (id : Nat) (st : EndStatus)
  | copyBarrierArrival (idx : Nat)
  | collComplete (id : Nat) (st : EndStatus) (peers : List (Nat × List Byte))
  | leaseAnswer
  | leaseExpiry (eng : Nat)
  | invalidationAck (idx : Nat)
  | kickWrite (fn off width : Nat) (w : Word)
  | dispatchPacket (src : PktSrc)
  | barrierAndPacket (src : PktSrc)
  | barrierOrPacket (src : PktSrc)
  | graphPacket (src : PktSrc)
  | signalPacket (src : PktSrc)
  | packetCompletion (id : Nat)
  | memberPlacement (vf tag : Nat)
  | sliceEnd (half vf : Nat)
  | ringRecordWrite (fn : Nat) (ring : RingSel)
  | pageRequestResponse (token : Word) (ans : PageAnswer)
  | hostMemoryAccess (agent : Agent) (acc : AgentAcc)
  | wakeRegisterWrite (fn : Nat) (w : Word)
  | invgoWrite (fn : Nat) (w : Word)
  | ringCidxWrite (fn : Nat) (ring : RingSel) (w : Word)
  | featdrvWrite (fn : Nat) (w : Word)
  | registerWrite (fn bar off width : Nat) (w : Word)
  | portset
  | svcmask
  | peerbind
  | quote
  | counters
  | fwload
  | ident
  | mailboxReply
  | functionLevelReset (vf : Nat)
  | warmRestart (scrub : Bool)
  | deviceReset
  | powerOn
  | orderlyPowerDown
  | lifetimeCounterUpdate (temp volt : List (Nat × Nat))
  | bucketRefill (core : Nat) (idle : List Nat)
  | flitCrcFailure (link : Nat)
  | peerResetNotice (dev : Nat)
  | clockThrottle (mhz : Nat)
  | d3hotRequest
  | cxlCacheSnoop (line : Nat) (keep : Bool)
  | atsInvalidationRequest (fn : Nat) (addr len : Nat)
  | clockRestore (mhz : Nat)
deriving DecidableEq, Repr

end Sys2Proof
end

