-- ==== Sys2Proof/WellFormed.lean ====
section
/-! DEFINITION. The checks of an instruction that depend only on its word (R73 checks 5 and 6, R321): Instr.wf. -/

namespace Sys2Proof

/-- Bits of an element (R160 to R166). -/
def Fmt.width : Fmt → Nat
  | .fp4 => 4 | .tap6 => 6 | .tap8 => 8 | .e4m3 => 8 | .e5m2 => 8 | .i8 => 8
  | .bf16 => 16 | .f16 => 16 | .f32 => 32 | .i32 => 32 | .u8 => 8 | .i16 => 16

/-- Elements of a block along K (R172). -/
def Fmt.blk (f : Fmt) : Nat := if f.width = 16 then 8 else 16

/-- K elements of one quadrant row (R177). -/
def Fmt.rowK (f : Fmt) : Nat :=
  if f.width = 4 then 96 else if f.width = 6 then 64 else if f.width = 8 then 48 else 24

/-- Formats of MLDW and MMUL (R186). -/
def Fmt.matrix : Fmt → Bool
  | .fp4 | .tap6 | .tap8 | .e4m3 | .e5m2 | .i8 | .bf16 | .f16 => true
  | _ => false

/-- Formats with which R171 ever allows .SC. -/
def Fmt.scOk : Fmt → Bool
  | .fp4 | .e4m3 | .e5m2 => true
  | _ => false

/-- Formats of the element code of R74. -/
def Fmt.r74 : Fmt → Bool
  | .u8 | .i16 => false
  | _ => true

/-- Formats of SPCMP (R186). -/
def Fmt.sparse : Fmt → Bool
  | .fp4 | .tap8 | .e4m3 | .e5m2 | .i8 => true
  | _ => false

/-- N capacity of a quadrant code (R178). -/
def Quad.capN : Quad → Nat
  | .h01 | .h23 | .all => 512
  | _ => 256

/-- K capacity of a quadrant code, in quadrant rows (R178). -/
def Quad.rows : Quad → Nat
  | .v02 | .v13 | .all => 2
  | _ => 1

/-- R186 check 2. -/
def okN (n : BitVec 10) (cap : Nat) : Bool := n.toNat % 16 == 0 && n.toNat != 0 && decide (n.toNat ≤ cap)

/-- R186 check 3. -/
def okK (k : BitVec 10) (blk cap : Nat) : Bool := k.toNat % blk == 0 && k.toNat != 0 && decide (k.toNat ≤ cap)

/-- R334: the field lies in the register. -/
def okField (lo : BitVec 6) (w : BitVec 7) : Bool :=
  w.toNat != 0 && decide (w.toNat ≤ 64) && decide (lo.toNat + w.toNat ≤ 64)

/-- R58: the slot of a BR-format target. -/
def BrTarget.ok (t : BrTarget) : Bool := decide (t.slot.toNat ≤ 4)

/-- The operand limits that depend only on the instruction word (R73 checks 5 and 6, R321). Event rows have none. -/
def Instr.wf : Instr → Bool
  | .bfx _ _ lo w => okField lo w
  | .bfi _ _ _ lo w => okField lo w
  | .sext _ _ w => w.toNat != 0 && decide (w.toNat ≤ 64)
  | .br t | .bc _ _ t | .call _ t | .loop _ t | .dcallLabel _ t => t.ok
  | .ld _ _ _ sz sx _ => !(sx && sz == .d)
  | .pgrp n => n.toNat != 0 && decide (n.toNat ≤ 8)
  | .ibpop h v => h != 0 && v != 0 && h != v
  | .ptest _ v r => !v || decide (r.val < 8)
  | .cancel d r => r != 0 && r != d
  | .lend _ _ _ m => m == 1 || m == 2
  | .mldw f sc sp2 t _ q _ _ n k =>
    f.matrix && (!sc || f.scOk) && (!sp2 || (!t && (f.width == 4 || f.width == 8)))
      && okN n q.capN && okK k f.blk (q.rows * f.rowK * (if sp2 then 2 else 1))
  | .mmul f sc _ _ _ _ _ _ _ => f.matrix && (!sc || f.scOk)
  | .mdrain f _ _ _ q _ _ _ n _ => f.r74 && okN n q.capN
  | .mzero _ q _ _ n => okN n q.capN
  | .spcmp f sc _ _ _ _ n k => f.sparse && (!sc || f.scOk) && okN n 512 && okK k f.blk (4 * f.rowK)
  | .lyt _ _ _ l => l != 31
  | .trload a b => !a.syn && !b.syn
  | .lytq _ l => l != 31
  | .cpgo d | .cpgath d _ | .cpscat d _ => d != 0
  | .vcvt df sf _ _ _ _ _ => df != sf
  | .vqnt f _ _ _ => f == .fp4 || f == .e4m3 || f == .e5m2
  | _ => true

end Sys2Proof
end

