-- ==== Sys2Proof/Decode.lean ====
section
/-! DEFINITION. Decoding of the 96-bit instruction word (R68 to R77) and, after it, the encoder. -/

namespace Sys2Proof

/-- The fields of R68. -/
structure Raw where
  op : BitVec 10
  fmt : BitVec 3
  rlx : Bool
  b81 : Bool
  dk : Bool
  dst : BitVec 5
  syna : Bool
  sa : BitVec 5
  synb : Bool
  sb : BitVec 5
  sync : Bool
  sc : BitVec 5
  mod : BitVec 9
  imm : BitVec 48
deriving DecidableEq, Repr

/-- The fields of a word, at their bits (R68). -/
def unpack (w : BitVec 96) : Raw :=
  let n := w.toNat
  { op := BitVec.ofNat 10 (n / 2 ^ 86), fmt := BitVec.ofNat 3 (n / 2 ^ 83)
    rlx := n / 2 ^ 82 % 2 == 1, b81 := n / 2 ^ 81 % 2 == 1, dk := n / 2 ^ 80 % 2 == 1
    dst := BitVec.ofNat 5 (n / 2 ^ 75)
    syna := n / 2 ^ 74 % 2 == 1, sa := BitVec.ofNat 5 (n / 2 ^ 69)
    synb := n / 2 ^ 68 % 2 == 1, sb := BitVec.ofNat 5 (n / 2 ^ 63)
    sync := n / 2 ^ 62 % 2 == 1, sc := BitVec.ofNat 5 (n / 2 ^ 57)
    mod := BitVec.ofNat 9 (n / 2 ^ 48), imm := BitVec.ofNat 48 n }

/-- The word that holds the fields (R68). -/
def pack (r : Raw) : BitVec 96 :=
  BitVec.ofNat 96 (r.op.toNat * 2 ^ 86 + r.fmt.toNat * 2 ^ 83 + r.rlx.toNat * 2 ^ 82 + r.b81.toNat * 2 ^ 81
    + r.dk.toNat * 2 ^ 80 + r.dst.toNat * 2 ^ 75 + r.syna.toNat * 2 ^ 74 + r.sa.toNat * 2 ^ 69
    + r.synb.toNat * 2 ^ 68 + r.sb.toNat * 2 ^ 63 + r.sync.toNat * 2 ^ 62 + r.sc.toNat * 2 ^ 57
    + r.mod.toNat * 2 ^ 48 + r.imm.toNat)

/-- What decoding gives: the instruction, or the fault of R73 checks 1 to 6. -/
inductive DecRes where
  | ok (i : Instr)
  | bad (f : FaultCode)
deriving DecidableEq, Repr

/-- A 5-bit register field as a general register. -/
def gOf (x : BitVec 5) : Fin 32 := x.toFin

/-- A 5-bit field as a v register; the range is checked apart (R70). -/
def vOf (x : BitVec 5) : Fin 8 := ⟨x.toNat % 8, by omega⟩

/-- A 5-bit field as a k register; the range is checked apart (R70). -/
def kOf (x : BitVec 5) : Fin 4 := ⟨x.toNat % 4, by omega⟩

/-- R70: the field names a v register. -/
def isV (x : BitVec 5) : Bool := decide (x.toNat < 8)

/-- R70: the field names a k register. -/
def isK (x : BitVec 5) : Bool := decide (x.toNat < 4)

namespace Raw

/-- Source A as a general register. -/
def ga (r : Raw) : Src := ⟨gOf r.sa, r.syna⟩

/-- Source B as a general register. -/
def gb (r : Raw) : Src := ⟨gOf r.sb, r.synb⟩

/-- Source C as a general register. -/
def gc (r : Raw) : Src := ⟨gOf r.sc, r.sync⟩

/-- Source A as a vector register. -/
def va (r : Raw) : VSrc := ⟨vOf r.sa, r.syna⟩

/-- Source B as a vector register. -/
def vb (r : Raw) : VSrc := ⟨vOf r.sb, r.synb⟩

/-- Source C as a vector register. -/
def vc (r : Raw) : VSrc := ⟨vOf r.sc, r.sync⟩

/-- DST as a general register. -/
def gd (r : Raw) : Fin 32 := gOf r.dst

/-- DST as a vector register. -/
def vd (r : Raw) : Fin 8 := vOf r.dst

/-- The destination of a group 000 instruction (R71). -/
def dest (r : Raw) : Dst := if r.dk then .remote (gOf r.dst) r.gc else .loc (gOf r.dst)

/-- SA unused (R69). -/
def noA (r : Raw) : Bool := r.sa == 0 && !r.syna

/-- SB unused (R69). -/
def noB (r : Raw) : Bool := r.sb == 0 && !r.synb

/-- SC unused (R69). -/
def noC (r : Raw) : Bool := r.sc == 0 && !r.sync

/-- DST unused (R69). -/
def noD (r : Raw) : Bool := r.dst == 0

/-- Bit 81, RLX and DK zero (R73 check 5). -/
def plain (r : Raw) : Bool := !r.b81 && !r.rlx && !r.dk

/-- Bit 81 and RLX zero, and SC unused unless DK is set (R71). -/
def alu (r : Raw) : Bool := !r.b81 && !r.rlx && (r.dk || r.noC)

/-- Bit 81 and DK zero; RLX permitted (R72). -/
def mem (r : Raw) : Bool := !r.b81 && !r.dk

/-- MOD zero. -/
def m0 (r : Raw) : Bool := r.mod == 0

/-- IMM48 zero. -/
def i0 (r : Raw) : Bool := r.imm == 0

/-- The governing mask KM, MOD[4:3] (R418). -/
def km (r : Raw) : Fin 4 := ⟨r.mod.toNat / 8 % 4, by omega⟩

/-- MOD with only KM set (R418, R420). -/
def kmOnly (r : Raw) : Bool := r.mod.toNat % 8 == 0 && r.mod.toNat / 32 == 0

/-- MOD with only KM and SAT set (R418, R420). -/
def kmSat (r : Raw) : Bool := r.mod.toNat % 4 == 0 && r.mod.toNat / 32 == 0

/-- MOD with FAM zero (R418, R420). -/
def noFam (r : Raw) : Bool := r.mod.toNat / 32 == 0

/-- A bit of MOD. -/
def mb (r : Raw) (i : Nat) : Bool := r.mod.toNat / 2 ^ i % 2 == 1

/-- The target of a BR format (R58). -/
def tgt (r : Raw) : BrTarget := ⟨BitVec.ofNat 45 (r.imm.toNat / 8), BitVec.ofNat 3 r.imm.toNat⟩
end Raw

/-- Access size code (R74). -/
def sizeOf2 (x : Nat) : Size := if x % 4 = 0 then .b else if x % 4 = 1 then .h else if x % 4 = 2 then .w else .d

/-- The code of an access size (R74). -/
def Size.code : Size → Nat | .b => 0 | .h => 1 | .w => 2 | .d => 3

/-- Rounding code (R74). -/
def rndOf (x : Nat) : Rnd := if x % 4 = 0 then .rne else if x % 4 = 1 then .rtz else if x % 4 = 2 then .rdn else .rup

/-- The code of a rounding mode (R74). -/
def Rnd.code : Rnd → Nat | .rne => 0 | .rtz => 1 | .rdn => 2 | .rup => 3

/-- Element format code (R74), with the two codes of VCVT (R427). -/
def fmtOf : Nat → Option Fmt
  | 0 => some .fp4 | 1 => some .tap6 | 2 => some .tap8 | 3 => some .e4m3 | 4 => some .e5m2
  | 5 => some .i8 | 6 => some .bf16 | 7 => some .f16 | 8 => some .f32 | 9 => some .i32
  | 10 => some .u8 | 11 => some .i16 | _ => none

/-- The code of a format (R74, R427). -/
def Fmt.code : Fmt → Nat
  | .fp4 => 0 | .tap6 => 1 | .tap8 => 2 | .e4m3 => 3 | .e5m2 => 4 | .i8 => 5 | .bf16 => 6
  | .f16 => 7 | .f32 => 8 | .i32 => 9 | .u8 => 10 | .i16 => 11

/-- Quadrant code (R74). -/
def quadOf : Nat → Option Quad
  | 0 => some .q0 | 1 => some .q1 | 2 => some .q2 | 3 => some .q3 | 4 => some .h01
  | 5 => some .h23 | 6 => some .v02 | 7 => some .v13 | 8 => some .all | _ => none

/-- The code of a quadrant name (R74). -/
def Quad.code : Quad → Nat
  | .q0 => 0 | .q1 => 1 | .q2 => 2 | .q3 => 3 | .h01 => 4 | .h23 => 5 | .v02 => 6 | .v13 => 7 | .all => 8

/-- Fence scope code (R74). -/
def scopeOf : Nat → Option Scope
  | 0 => some .sp | 1 => some .co | 2 => some .ti | 3 => some .dv | 4 => some .sy | _ => none

/-- The code of a fence scope. -/
def Scope.code : Scope → Nat | .sp => 0 | .co => 1 | .ti => 2 | .dv => 3 | .sy => 4

/-- Condition code of CMP (R341). -/
def cmpOf : Nat → Option CmpCond
  | 0 => some .eq | 1 => some .ne | 2 => some .lt | 3 => some .le | 4 => some .ge
  | 5 => some .ltu | 6 => some .leu | _ => none

/-- The code of a condition of CMP. -/
def CmpCond.code : CmpCond → Nat | .eq => 0 | .ne => 1 | .lt => 2 | .le => 3 | .ge => 4 | .ltu => 5 | .leu => 6

/-- Condition code of SEMWAIT (R250). -/
def semOf : Nat → Option SemCond
  | 0 => some .eq | 1 => some .le | 2 => some .ge | _ => none

/-- The code of a condition of SEMWAIT. -/
def SemCond.code : SemCond → Nat | .eq => 0 | .le => 1 | .ge => 2

/-- Condition code of VCMP (R425). -/
def vcondOf : Nat → Option VCond
  | 0 => some .eq | 1 => some .ne | 2 => some .lt | 3 => some .le | _ => none

/-- The code of a condition of VCMP. -/
def VCond.code : VCond → Nat | .eq => 0 | .ne => 1 | .lt => 2 | .le => 3

/-- Operation code of COLL (R238). -/
def collOf (x : Nat) : CollOp := if x % 4 = 0 then .rs else if x % 4 = 1 then .ag else if x % 4 = 2 then .ar else .bc

/-- The code of a COLL operation. -/
def CollOp.code : CollOp → Nat | .rs => 0 | .ag => 1 | .ar => 2 | .bc => 3

/-- R73 checks 5 and 6: the fields and the operand limits hold, or ILLEGAL_FIELD. -/
def fieldsOk (c : Bool) (i : Instr) : DecRes := if c && i.wf then .ok i else .bad .illegalField

/-- R73 check 5 for a code that may be reserved. -/
def coded {α : Type} (x : Option α) (k : α → DecRes) : DecRes :=
  match x with
  | some a => k a
  | none => .bad .illegalField

/-- R73 check 4 for an opcode of one format. -/
def only (r : Raw) (f : BitVec 3) (d : DecRes) : DecRes := if r.fmt = f then d else .bad .illegalOp

/-- R73 check 4 for an opcode of two formats. -/
def either (r : Raw) (f : BitVec 3) (d : DecRes) (f' : BitVec 3) (d' : DecRes) : DecRes :=
  if r.fmt = f then d else if r.fmt = f' then d' else .bad .illegalOp

/-- An ALU instruction of formats RRR and RRI (R329 and like). `m` says that MOD is admitted. -/
def aluRR (r : Raw) (m : Bool) (k : Dst → Src → Src → Instr) (k' : Dst → Src → BitVec 48 → Instr) : DecRes :=
  either r 0 (fieldsOk (r.alu && m && r.i0) (k r.dest r.ga r.gb))
    1 (fieldsOk (r.alu && m && r.noB) (k' r.dest r.ga r.imm))

/-- An ALU instruction of format RRR with one source (R340). -/
def aluR (r : Raw) (k : Dst → Src → Instr) : DecRes :=
  only r 0 (fieldsOk (r.alu && r.m0 && r.i0 && r.noB) (k r.dest r.ga))

/-- Fields of an RRR instruction outside group 000. -/
def rrr (r : Raw) (d a b c m : Bool) (i : Instr) : DecRes :=
  only r 0 (fieldsOk (r.plain && r.i0 && (d || r.noD) && (a || r.noA) && (b || r.noB) && (c || r.noC) && m) i)

/-- Fields of a SYS instruction. -/
def sys (r : Raw) (d a b : Bool) (immOk : Bool) (m : Bool) (i : Instr) : DecRes :=
  only r 6 (fieldsOk (r.plain && immOk && (d || r.noD) && (a || r.noA) && (b || r.noB) && r.noC && m) i)

/-- Fields of a TILE instruction. -/
def tile (r : Raw) (d a b c : Bool) (immOk : Bool) (m : Bool) (i : Instr) : DecRes :=
  only r 5 (fieldsOk (r.plain && immOk && (d || r.noD) && (a || r.noA) && (b || r.noB) && (c || r.noC) && m) i)

/-- Fields of a VEC instruction that admits no RLX. -/
def vec (r : Raw) (d a b c m : Bool) (immOk : Bool) (i : Instr) : DecRes :=
  only r 4 (fieldsOk (r.plain && d && a && b && c && m && immOk) i)

/-- Fields of a vector memory instruction (R430). -/
def vecMem (r : Raw) (ok : Bool) (i : Instr) : DecRes :=
  only r 4 (fieldsOk (r.mem && r.kmOnly && ok) i)

/-- Fields of an atomic (R325). -/
def atomic (r : Raw) (m : Bool) (c : Bool) (i : Instr) : DecRes :=
  only r 2 (fieldsOk (r.mem && m && (c || r.noC)) i)

/-- MOD of an atomic other than AMIN and AMAX (R325, R328). -/
def Raw.szOnly (r : Raw) : Bool := r.mod.toNat / 4 == 0

/-- Group 000 (R76). -/
def decodeAlu (r : Raw) (op : Nat) : DecRes :=
  match op with
  | 0x001 => aluRR r r.m0 .addRrr .addRri
  | 0x002 => aluRR r r.m0 .subRrr .subRri
  | 0x003 => aluRR r r.m0 .mulRrr .mulRri
  | 0x004 => aluRR r (r.mod.toNat / 2 == 0) (fun d a b => .mulhRrr d a b (r.mb 0)) (fun d a i => .mulhRri d a i (r.mb 0))
  | 0x005 => aluRR r (r.mod.toNat / 2 == 0) (fun d a b => .divRrr d a b (r.mb 0)) (fun d a i => .divRri d a i (r.mb 0))
  | 0x006 => aluRR r (r.mod.toNat / 2 == 0) (fun d a b => .remRrr d a b (r.mb 0)) (fun d a i => .remRri d a i (r.mb 0))
  | 0x007 => aluRR r r.m0 .andRrr .andRri
  | 0x008 => aluRR r r.m0 .orRrr .orRri
  | 0x009 => aluRR r r.m0 .xorRrr .xorRri
  | 0x00A => aluRR r r.m0 .andnRrr .andnRri
  | 0x00B => aluRR r r.m0 .shlRrr .shlRri
  | 0x00C => aluRR r r.m0 .shrRrr .shrRri
  | 0x00D => aluRR r r.m0 .sraRrr .sraRri
  | 0x00E => aluRR r r.m0 .rotRrr .rotRri
  | 0x00F => aluR r .clz
  | 0x010 => aluR r .ctz
  | 0x011 => aluR r .popc
  | 0x012 => aluRR r (r.mod.toNat / 2 == 0) (fun d a b => .minRrr d a b (r.mb 0)) (fun d a i => .minRri d a i (r.mb 0))
  | 0x013 => aluRR r (r.mod.toNat / 2 == 0) (fun d a b => .maxRrr d a b (r.mb 0)) (fun d a i => .maxRri d a i (r.mb 0))
  | 0x014 => either r 0 (coded (cmpOf r.mod.toNat) fun c => fieldsOk (r.alu && r.i0) (.cmpRrr r.dest r.ga r.gb c))
      1 (coded (cmpOf r.mod.toNat) fun c => fieldsOk (r.alu && r.noB) (.cmpRri r.dest r.ga r.imm c))
  | 0x015 => rrr r true true true true r.m0 (.sel r.gd r.ga r.gb r.gc)
  | 0x016 => aluR r .mov
  | 0x017 => only r 1 (fieldsOk (r.alu && r.m0 && r.noA && r.noB) (.li r.dest r.imm))
  | 0x018 => only r 1 (fieldsOk (r.alu && r.m0 && r.noB && r.imm.toNat / 2 ^ 16 == 0)
      (.lih r.dest r.ga (BitVec.ofNat 16 r.imm.toNat)))
  | 0x019 => only r 1 (fieldsOk (r.alu && r.mod.toNat / 2 == 0 && r.noB && (!r.mb 0 || r.noA))
      (.lea r.dest (if r.mb 0 then none else some r.ga) r.imm))
  | 0x01A => only r 1 (fieldsOk (r.alu && r.m0 && r.noB && r.imm.toNat / 2 ^ 13 == 0)
      (.bfx r.dest r.ga (BitVec.ofNat 6 r.imm.toNat) (BitVec.ofNat 7 (r.imm.toNat / 64))))
  | 0x01B => only r 1 (fieldsOk (r.alu && r.m0 && r.imm.toNat / 2 ^ 13 == 0)
      (.bfi r.dest r.ga r.gb (BitVec.ofNat 6 r.imm.toNat) (BitVec.ofNat 7 (r.imm.toNat / 64))))
  | 0x01C => only r 1 (fieldsOk (r.alu && r.m0 && r.noB && r.imm.toNat / 2 ^ 7 == 0)
      (.sext r.dest r.ga (BitVec.ofNat 7 r.imm.toNat)))
  | _ => .bad .illegalOp

/-- Group 001 (R76, R333, R336, R349, R353, R368, R390, R398). -/
def decodeCtl (r : Raw) (op : Nat) : DecRes :=
  match op with
  | 0x080 => only r 3 (fieldsOk (r.plain && r.m0 && r.noD && r.noA && r.noB && r.noC) (.br r.tgt))
  | 0x081 => only r 3 (fieldsOk (r.plain && r.mod.toNat / 2 == 0 && r.noD && r.noB && r.noC) (.bc r.ga (r.mb 0) r.tgt))
  | 0x082 => rrr r false true false false r.m0 (.bri r.ga)
  | 0x083 => only r 3 (fieldsOk (r.plain && r.m0 && r.noA && r.noB && r.noC) (.call r.gd r.tgt))
  | 0x084 => rrr r false true false false r.m0 (.ret r.ga)
  | 0x085 => only r 3 (fieldsOk (r.plain && r.m0 && r.noD && !r.syna && r.noB && r.noC) (.loop (gOf r.sa) r.tgt))
  | 0x086 => either r 3 (fieldsOk (r.plain && r.m0 && r.noA && r.noB && r.noC) (.dcallLabel r.gd r.tgt))
      0 (rrr r true true false false r.m0 (.dcallReg r.gd r.ga))
  | 0x087 => rrr r false false false false r.m0 .dret
  | 0x088 => rrr r false false false false r.m0 .spend
  | _ => .bad .illegalOp

/-- LD (R75, R361). -/
def decodeLd (r : Raw) : DecRes :=
  let pres := r.mod.toNat / 8 % 4
  let ok := r.mem && r.mod.toNat / 32 == 0 && r.noB && r.noC
  if pres = 0 then fieldsOk ok (.ld r.rlx r.gd r.ga (sizeOf2 r.mod.toNat) (r.mb 2) r.imm)
  else if pres = 1 then fieldsOk (ok && !r.rlx && r.mod.toNat % 8 == 3) (.ldF r.gd r.ga r.imm)
  else if pres = 2 then fieldsOk (ok && !r.rlx && r.mod.toNat % 8 == 3) (.ldS r.gd r.ga r.imm)
  else .bad .illegalField

/-- ST (R75, R403). -/
def decodeSt (r : Raw) : DecRes :=
  let pres := r.mod.toNat / 8 % 4
  let ok := r.mem && r.mod.toNat / 32 == 0 && r.noD && r.noC
  if pres = 0 then fieldsOk (ok && !r.mb 2) (.st r.rlx r.ga r.gb (sizeOf2 r.mod.toNat) r.imm)
  else if pres = 1 then fieldsOk (ok && !r.rlx && r.mod.toNat % 8 == 3) (.stF r.ga r.gb r.imm)
  else .bad .illegalField

/-- Group 010 (R76, R136, R119, R325). -/
def decodeMem (r : Raw) (op : Nat) : DecRes :=
  match op with
  | 0x100 => only r 2 (decodeLd r)
  | 0x101 => only r 2 (decodeSt r)
  | 0x102 => only r 2 (fieldsOk (r.plain && r.mod == 3 && r.noD && r.noB && r.noC) (.empty r.ga r.imm))
  | 0x103 => only r 6 (coded (scopeOf r.mod.toNat) fun c =>
      fieldsOk (r.plain && r.i0 && r.noD && r.noA && r.noB && r.noC) (.fence c))
  | 0x104 => sys r false false false (r.imm.toNat / 16 == 0) r.m0 (.pgrp (BitVec.ofNat 4 r.imm.toNat))
  | 0x105 => sys r false false false r.i0 r.m0 .publ
  | 0x106 => rrr r false true true false r.m0 (.roinv r.ga r.gb)
  | 0x108 => atomic r r.szOnly false (.aadd r.rlx r.gd r.ga r.gb (sizeOf2 r.mod.toNat) r.imm)
  | 0x109 => atomic r r.szOnly false (.aand r.rlx r.gd r.ga r.gb (sizeOf2 r.mod.toNat) r.imm)
  | 0x10A => atomic r r.szOnly false (.aor r.rlx r.gd r.ga r.gb (sizeOf2 r.mod.toNat) r.imm)
  | 0x10B => atomic r r.szOnly false (.axor r.rlx r.gd r.ga r.gb (sizeOf2 r.mod.toNat) r.imm)
  | 0x10C => atomic r (r.mod.toNat / 8 == 0) false (.amin r.rlx (r.mb 2) r.gd r.ga r.gb (sizeOf2 r.mod.toNat) r.imm)
  | 0x10D => atomic r (r.mod.toNat / 8 == 0) false (.amax r.rlx (r.mb 2) r.gd r.ga r.gb (sizeOf2 r.mod.toNat) r.imm)
  | 0x10E => atomic r r.szOnly false (.aswp r.rlx r.gd r.ga r.gb (sizeOf2 r.mod.toNat) r.imm)
  | 0x10F => atomic r r.szOnly true (.acas r.rlx r.gd r.ga r.gb r.gc (sizeOf2 r.mod.toNat) r.imm)
  | _ => .bad .illegalOp

/-- Group 011 (R76, R102, R252, R331, R337, R356, R358, R386, R399, R437). -/
def decodeSync (r : Raw) (op : Nat) : DecRes :=
  match op with
  | 0x180 => rrr r false true false false r.m0 (.wake r.ga)
  | 0x181 => rrr r true false true false (r.m0 && !r.synb) (.ibpop r.gd (gOf r.sb))
  | 0x182 => rrr r false true true false r.m0 (.ibreplay r.ga r.gb)
  | 0x188 => rrr r false true true true r.m0 (.spstart r.ga r.gb r.gc)
  | 0x189 => rrr r false true false false r.m0 (.spstop r.ga)
  | 0x18A => rrr r false true false false r.m0 (.spresume r.ga)
  | 0x18B => rrr r false true false false r.m0 (.spkill r.ga)
  | 0x18C => rrr r true true false false r.m0 (.spreap r.gd r.ga)
  | 0x18D => rrr r false true true false r.m0 (.spspill r.ga r.gb)
  | 0x18E => rrr r false true true false r.m0 (.spfill r.ga r.gb)
  | 0x190 => only r 1 (fieldsOk (r.plain && r.m0 && r.noD && r.noA && r.noB && r.noC && r.imm.toNat / 256 == 0)
      (.gbar (BitVec.ofNat 8 r.imm.toNat)))
  | 0x191 => only r 1 (fieldsOk (r.plain && r.m0 && r.noD && r.noA && r.noB && r.noC && r.imm.toNat / 256 == 0)
      (.garrive (BitVec.ofNat 8 r.imm.toNat)))
  | 0x192 => rrr r false true true true r.m0 (.barinit r.ga r.gb r.gc)
  | 0x193 => rrr r false true true false r.m0 (.bararr r.ga r.gb)
  | 0x194 => rrr r false true true false r.m0 (.barwait r.ga r.gb)
  | 0x198 => rrr r false true true false r.m0 (.semsig r.ga r.gb)
  | 0x199 => only r 0 (coded (semOf r.mod.toNat) fun c => rrr r true true true false true (.semwait c r.gd r.ga r.gb))
  | 0x19A => rrr r false true true false r.m0 (.tlsig r.ga r.gb)
  | 0x19B => rrr r true true true false r.m0 (.tlwait r.gd r.ga r.gb)
  | 0x19C => rrr r true true false false (r.mod.toNat / 2 == 0 && !r.syna) (.ptest r.gd (r.mb 0) (gOf r.sa))
  | 0x19D => rrr r true true false false (r.m0 && !r.syna) (.cancel r.gd (gOf r.sa))
  | 0x1A0 => only r 1 (fieldsOk (r.plain && r.m0 && r.noC && r.imm.toNat / 4 == 0)
      (.lend r.gd r.ga r.gb (BitVec.ofNat 2 r.imm.toNat)))
  | 0x1A1 => rrr r false true false false r.m0 (.unlend r.ga)
  | 0x1A2 => rrr r true true false false r.m0 (.domq r.gd r.ga)
  | _ => .bad .illegalOp

/-- Group 100 (R76, R185, R215, R241). -/
def decodeTile (r : Raw) (op : Nat) : DecRes :=
  match op with
  | 0x200 => only r 5 (coded (fmtOf (r.mod.toNat % 16)) fun f => coded (quadOf (r.imm.toNat % 16)) fun q =>
      tile r true true true false (r.imm.toNat / 2 ^ 24 == 0) (r.mod.toNat / 2 ^ 7 == 0)
        (.mldw f (r.mb 4) (r.mb 5) (r.mb 6) r.gd q r.ga r.gb (BitVec.ofNat 10 (r.imm.toNat / 16))
          (BitVec.ofNat 10 (r.imm.toNat / 2 ^ 14))))
  | 0x201 => only r 5 (coded (fmtOf (r.mod.toNat % 16)) fun f => coded (quadOf (r.imm.toNat % 16)) fun q =>
      tile r true true true true (r.imm.toNat / 16 == 0) (r.mod.toNat / 2 ^ 7 == 0)
        (.mmul f (r.mb 4) (r.mb 5) (r.mb 6) r.gd q r.ga r.gb r.gc))
  | 0x202 => only r 5 (coded (fmtOf (r.mod.toNat % 16)) fun f => coded (quadOf (r.imm.toNat % 16)) fun q =>
      tile r true true true true (r.imm.toNat / 2 ^ 22 == 0) (r.mod.toNat / 2 ^ 7 == 0)
        (.mdrain f (rndOf (r.mod.toNat / 16)) (r.mb 6) r.gd q r.ga r.gb r.gc (BitVec.ofNat 10 (r.imm.toNat / 16))
          (BitVec.ofNat 8 (r.imm.toNat / 2 ^ 14))))
  | 0x203 => only r 5 (coded (quadOf (r.imm.toNat % 16)) fun q =>
      tile r true true true false (r.imm.toNat / 2 ^ 14 == 0) r.m0
        (.mzero r.gd q r.ga r.gb (BitVec.ofNat 10 (r.imm.toNat / 16))))
  | 0x204 => only r 5 (coded (fmtOf (r.mod.toNat % 16)) fun f =>
      tile r true true true true (r.imm.toNat % 16 == 0 && r.imm.toNat / 2 ^ 24 == 0) (r.mod.toNat / 2 ^ 5 == 0)
        (.spcmp f (r.mb 4) r.gd r.ga r.gb r.gc (BitVec.ofNat 10 (r.imm.toNat / 16))
          (BitVec.ofNat 10 (r.imm.toNat / 2 ^ 14))))
  | 0x208 => tile r true true true true r.i0 (r.m0 && !r.sync) (.lyt r.gd r.ga r.gb (gOf r.sc))
  | 0x209 => tile r true true false false r.i0 (r.m0 && !r.syna) (.lytq r.gd (gOf r.sa))
  | 0x210 => either r 0 (rrr r false true false false (r.mod.toNat / 8 == 0) (.cpsetReg (BitVec.ofNat 3 r.mod.toNat) r.ga))
      1 (fieldsOk (r.plain && r.noD && r.noA && r.noB && r.noC && r.mod.toNat / 8 == 0)
        (.cpsetImm (BitVec.ofNat 3 r.mod.toNat) r.imm))
  | 0x211 => tile r true false false false r.i0 r.m0 (.cpgo r.gd)
  | 0x212 => tile r true false true false r.i0 (r.m0 && isV r.sb) (.cpgath r.gd r.vb)
  | 0x213 => tile r true false true false r.i0 (r.m0 && isV r.sb) (.cpscat r.gd r.vb)
  | 0x214 => tile r true true false false r.i0 r.m0 (.cpcancel r.gd r.ga)
  | 0x218 => rrr r true true false false r.m0 (.waitany r.gd r.ga)
  | 0x219 => rrr r false true false false r.m0 (.waitall r.ga)
  | 0x21A => rrr r true true false false r.m0 (.tagff r.gd r.ga)
  | 0x21B => rrr r false true false false r.m0 (.tagclr r.ga)
  | 0x220 => tile r true true false false r.i0 (r.mod.toNat / 4 == 0) (.coll (collOf r.mod.toNat) r.gd r.ga)
  | 0x221 => rrr r true true false false r.m0 (.lease r.gd r.ga)
  | 0x222 => rrr r false true false false r.m0 (.unlease r.ga)
  | 0x228 => rrr r false true true false r.m0 (.trload r.ga r.gb)
  | 0x229 => rrr r false false false false r.m0 .trseal
  | _ => .bad .illegalOp

/-- Group 101 (R76, R418, R420). -/
def decodeVecA (r : Raw) (op : Nat) : DecRes :=
  let v1 := isV r.dst && isV r.sa && r.noB && r.noC
  let v2 := isV r.dst && isV r.sa && isV r.sb && r.noC
  let rnd := rndOf r.mod.toNat
  match op with
  | 0x280 => vec r v2 true true true r.noFam r.i0 (.vadd rnd (r.mb 2) r.km r.vd r.va r.vb)
  | 0x281 => vec r v2 true true true r.noFam r.i0 (.vsub rnd (r.mb 2) r.km r.vd r.va r.vb)
  | 0x282 => vec r v2 true true true r.noFam r.i0 (.vmul rnd (r.mb 2) r.km r.vd r.va r.vb)
  | 0x283 => vec r (isV r.dst) (isV r.sa) (isV r.sb) (isV r.sc) r.noFam r.i0
      (.vfma rnd (r.mb 2) r.km r.vd r.va r.vb r.vc)
  | 0x284 => vec r v2 true true true r.kmOnly r.i0 (.vmin r.km r.vd r.va r.vb)
  | 0x285 => vec r v2 true true true r.kmOnly r.i0 (.vmax r.km r.vd r.va r.vb)
  | 0x286 => vec r v1 true true true r.kmOnly r.i0 (.vabs r.km r.vd r.va)
  | 0x287 => vec r v1 true true true r.kmOnly r.i0 (.vneg r.km r.vd r.va)
  | 0x288 => vec r v2 true true true r.kmSat r.i0 (.viadd (r.mb 2) r.km r.vd r.va r.vb)
  | 0x289 => vec r v2 true true true r.kmSat r.i0 (.vimul (r.mb 2) r.km r.vd r.va r.vb)
  | 0x28A => vec r v2 true true true r.kmOnly r.i0 (.vand r.km r.vd r.va r.vb)
  | 0x28B => vec r v2 true true true r.kmOnly r.i0 (.vor r.km r.vd r.va r.vb)
  | 0x28C => vec r v2 true true true r.kmOnly r.i0 (.vxor r.km r.vd r.va r.vb)
  | 0x28D => vec r v2 true true true r.kmOnly r.i0 (.vshl r.km r.vd r.va r.vb)
  | 0x28E => vec r v2 true true true r.kmOnly r.i0 (.vshr r.km r.vd r.va r.vb)
  | 0x290 => only r 4 (coded (vcondOf (r.mod.toNat / 32)) fun c =>
      vec r (isK r.dst) (isV r.sa) (isV r.sb) r.noC (r.mod.toNat % 8 == 0) r.i0
        (.vcmp c r.km (kOf r.dst) r.va r.vb))
  | 0x291 => vec r (isV r.dst) (isV r.sa) (isV r.sb) (isK r.sc && !r.sync) r.m0 r.i0
      (.vsel r.vd r.va r.vb (kOf r.sc))
  | 0x298 => vec r v1 true true true r.kmOnly r.i0 (.vexp2 r.km r.vd r.va)
  | 0x299 => vec r v1 true true true r.kmOnly r.i0 (.vrcp r.km r.vd r.va)
  | 0x29A => vec r v1 true true true r.kmOnly r.i0 (.vrsq r.km r.vd r.va)
  | 0x2A0 => vec r true (isV r.sa) r.noB r.noC r.kmOnly r.i0 (.vredadd r.km r.gd r.va)
  | 0x2A1 => vec r true (isV r.sa) r.noB r.noC r.kmOnly r.i0 (.vredmax r.km r.gd r.va)
  | 0x2A8 => vec r v2 true true true r.kmOnly r.i0 (.vperm r.km r.vd r.va r.vb)
  | 0x2B0 => vec r (isV r.dst) true true r.noC (r.mod.toNat % 8 == 0 && r.mod.toNat / 128 == 0) r.i0
      (.vrng (BitVec.ofNat 2 (r.mod.toNat / 32)) r.km r.vd r.ga r.gb)
  | _ => .bad .illegalOp

/-- Group 110 (R76, R360, R418, R420). -/
def decodeVecM (r : Raw) (op : Nat) : DecRes :=
  match op with
  | 0x300 => vecMem r (isV r.dst && r.noB && r.noC) (.vld r.rlx r.km r.vd r.ga r.imm)
  | 0x301 => vecMem r (r.noD && isV r.sb && r.noC) (.vst r.rlx r.km r.ga r.vb r.imm)
  | 0x302 => vecMem r (isV r.dst && isV r.sb && r.noC) (.vgath r.rlx r.km r.vd r.ga r.vb r.imm)
  | 0x303 => vecMem r (r.noD && isV r.sb && isV r.sc) (.vscat r.rlx r.km r.ga r.vb r.vc r.imm)
  | 0x308 => vec r (isV r.dst) true r.noB r.noC r.kmOnly r.i0 (.vbcast r.km r.vd r.ga)
  | 0x309 => vec r true (isV r.sa) r.noB r.noC r.m0 (r.imm.toNat / 32 == 0)
      (.vext r.gd r.va (BitVec.ofNat 5 r.imm.toNat))
  | 0x30A => vec r (isV r.dst) (isV r.sa) true r.noC r.m0 (r.imm.toNat / 32 == 0)
      (.vins r.vd r.va r.gb (BitVec.ofNat 5 r.imm.toNat))
  | 0x310 => only r 4 (coded (fmtOf (r.imm.toNat % 16)) fun df => coded (fmtOf (r.imm.toNat / 16 % 16)) fun sf =>
      vec r (isV r.dst) (isV r.sa) r.noB r.noC r.noFam (r.imm.toNat / 256 == 0)
        (.vcvt df sf (rndOf r.mod.toNat) (r.mb 2) r.km r.vd r.va))
  | 0x311 => only r 4 (coded (fmtOf (r.mod.toNat / 32)) fun f =>
      vec r (isV r.dst) (isV r.sa) r.noB r.noC (r.mod.toNat % 8 == 0) r.i0 (.vqnt f r.km r.vd r.va))
  | 0x318 => vec r (isK r.dst) (isK r.sa && !r.syna) (isK r.sb && !r.synb) r.noC r.m0 r.i0
      (.kand (kOf r.dst) (kOf r.sa) (kOf r.sb))
  | 0x319 => vec r (isK r.dst) (isK r.sa && !r.syna) (isK r.sb && !r.synb) r.noC r.m0 r.i0
      (.kor (kOf r.dst) (kOf r.sa) (kOf r.sb))
  | 0x31A => vec r (isK r.dst) (isK r.sa && !r.syna) r.noB r.noC r.m0 r.i0 (.knot (kOf r.dst) (kOf r.sa))
  | 0x31B => vec r true (isK r.sa && !r.syna) r.noB r.noC r.m0 r.i0 (.kpop r.gd (kOf r.sa))
  | _ => .bad .illegalOp

/-- Group 111 (R76, R272, R335, R382, R387, R438). -/
def decodeSys (r : Raw) (op : Nat) : DecRes :=
  match op with
  | 0x380 => sys r false false false r.i0 r.m0 .nop
  | 0x381 => sys r false false false (r.imm.toNat / 16 == 0) r.m0 (.trap (BitVec.ofNat 4 r.imm.toNat))
  | 0x382 => sys r false false false r.i0 r.m0 .tret
  | 0x383 => sys r true false false (r.imm.toNat / 16 == 0) r.m0 (.rds r.gd (BitVec.ofNat 4 r.imm.toNat))
  | 0x384 => sys r false true false (r.imm.toNat / 16 == 0) r.m0 (.wrs r.ga (BitVec.ofNat 4 r.imm.toNat))
  | 0x385 => sys r false true true r.i0 r.m0 (.tinv r.ga r.gb)
  | 0x386 => sys r false false false r.i0 r.m0 .bkpt
  | _ => .bad .illegalOp

/-- Decoding of the fields in the order of R73, checks 1 to 6. -/
def decodeRaw (r : Raw) : DecRes :=
  if r.op = 0x3FF then .ok .ill
  else if r.fmt = 7 then .bad .illegalOp
  else
    let op := r.op.toNat
    let g := op / 128
    if g = 0 then decodeAlu r op
    else if g = 1 then decodeCtl r op
    else if g = 2 then decodeMem r op
    else if g = 3 then decodeSync r op
    else if g = 4 then decodeTile r op
    else if g = 5 then decodeVecA r op
    else if g = 6 then decodeVecM r op
    else decodeSys r op

/-- Decoding of an instruction word (R68 to R77). -/
def decodeWord (w : BitVec 96) : DecRes := decodeRaw (unpack w)

/-- The 96-bit word of twelve bytes, little-endian (R52). -/
def wordOfBytes (bs : List Byte) : Nat := bs.foldr (fun b acc => b.toNat + 256 * acc) 0

/-- Decoding of the bytes at an instruction's place in its line (R52). -/
def decodeBytes (bs : List Byte) : DecRes := decodeWord (BitVec.ofNat 96 (wordOfBytes (bs.take 12)))

/-- The `n` bytes of a number, little-endian (R8). -/
def bytesOf (n x : Nat) : List Byte :=
  match n with
  | 0 => []
  | n + 1 => BitVec.ofNat 8 x :: bytesOf n (x / 256)

/-- The instruction the decoder reads from an instruction whose bits are `w`; an instruction has 96 bits, those above `nbits` are 0. -/
def decodeTableWord (nbits w : Nat) : Option Instr :=
  match decodeBytes (bytesOf 12 (w % 2 ^ nbits)) with
  | .ok i => some i
  | .bad _ => none

/-! The encoder, from the same tables. -/

/-- Every field zero. -/
def Raw.zero : Raw := ⟨0, 0, false, false, false, 0, false, 0, false, 0, false, 0, 0, 0⟩

/-- A register number as a field. -/
def f5 (r : Fin 32) : BitVec 5 := ⟨r⟩

/-- A v register number as a field. -/
def fv (r : Fin 8) : BitVec 5 := BitVec.ofNat 5 r.val

/-- A k register number as a field. -/
def fk (r : Fin 4) : BitVec 5 := BitVec.ofNat 5 r.val

namespace Raw

/-- Writes source A. -/
def setA (r : Raw) (a : Src) : Raw := { r with sa := f5 a.reg, syna := a.syn }

/-- Writes source B. -/
def setB (r : Raw) (a : Src) : Raw := { r with sb := f5 a.reg, synb := a.syn }

/-- Writes source C. -/
def setC (r : Raw) (a : Src) : Raw := { r with sc := f5 a.reg, sync := a.syn }

/-- Writes source A, a v register. -/
def setVA (r : Raw) (a : VSrc) : Raw := { r with sa := fv a.reg, syna := a.syn }

/-- Writes source B, a v register. -/
def setVB (r : Raw) (a : VSrc) : Raw := { r with sb := fv a.reg, synb := a.syn }

/-- Writes source C, a v register. -/
def setVC (r : Raw) (a : VSrc) : Raw := { r with sc := fv a.reg, sync := a.syn }

/-- Writes the destination of a group 000 instruction. -/
def setDst (r : Raw) (d : Dst) : Raw :=
  match d with
  | .loc x => { r with dst := f5 x }
  | .remote x h => { r with dst := f5 x, dk := true, sc := f5 h.reg, sync := h.syn }
end Raw

/-- IMM48 of a target (R58). -/
def BrTarget.imm (t : BrTarget) : BitVec 48 := BitVec.ofNat 48 (t.off.toNat * 8 + t.slot.toNat)

/-- An opcode and format, every other field zero. -/
def rawOf (op : BitVec 10) (fmt : BitVec 3) : Raw := { Raw.zero with op := op, fmt := fmt }

/-- RRR of group 000. -/
def eRRR (op : BitVec 10) (mod : Nat) (d : Dst) (a b : Src) : Raw :=
  { (((rawOf op 0).setDst d).setA a).setB b with mod := BitVec.ofNat 9 mod }

/-- RRI of group 000. -/
def eRRI (op : BitVec 10) (mod : Nat) (d : Dst) (a : Src) (imm : BitVec 48) : Raw :=
  { ((rawOf op 1).setDst d).setA a with mod := BitVec.ofNat 9 mod, imm := imm }

/-- MEM. -/
def eMEM (op : BitVec 10) (rlx : Bool) (mod : Nat) (d : Fin 32) (a : Src) (imm : BitVec 48) : Raw :=
  { (rawOf op 2).setA a with rlx := rlx, dst := f5 d, mod := BitVec.ofNat 9 mod, imm := imm }

/-- RRR outside group 000, with destination and first source. -/
def eDA (op : BitVec 10) (fmt : BitVec 3) (d : Fin 32) (a : Src) : Raw := { (rawOf op fmt).setA a with dst := f5 d }

/-- VEC with v destination. -/
def eVEC (op : BitVec 10) (mod : Nat) (d : BitVec 5) : Raw :=
  { rawOf op 4 with mod := BitVec.ofNat 9 mod, dst := d }

/-- The fields of an instruction's word; none for an event row, which has no word. -/
def encodeRaw : Instr → Option Raw
  | .addRrr d a b => some (eRRR 0x001 0 d a b) | .addRri d a i => some (eRRI 0x001 0 d a i)
  | .subRrr d a b => some (eRRR 0x002 0 d a b) | .subRri d a i => some (eRRI 0x002 0 d a i)
  | .mulRrr d a b => some (eRRR 0x003 0 d a b) | .mulRri d a i => some (eRRI 0x003 0 d a i)
  | .mulhRrr d a b u => some (eRRR 0x004 u.toNat d a b) | .mulhRri d a i u => some (eRRI 0x004 u.toNat d a i)
  | .divRrr d a b u => some (eRRR 0x005 u.toNat d a b) | .divRri d a i u => some (eRRI 0x005 u.toNat d a i)
  | .remRrr d a b u => some (eRRR 0x006 u.toNat d a b) | .remRri d a i u => some (eRRI 0x006 u.toNat d a i)
  | .andRrr d a b => some (eRRR 0x007 0 d a b) | .andRri d a i => some (eRRI 0x007 0 d a i)
  | .orRrr d a b => some (eRRR 0x008 0 d a b) | .orRri d a i => some (eRRI 0x008 0 d a i)
  | .xorRrr d a b => some (eRRR 0x009 0 d a b) | .xorRri d a i => some (eRRI 0x009 0 d a i)
  | .andnRrr d a b => some (eRRR 0x00A 0 d a b) | .andnRri d a i => some (eRRI 0x00A 0 d a i)
  | .shlRrr d a b => some (eRRR 0x00B 0 d a b) | .shlRri d a i => some (eRRI 0x00B 0 d a i)
  | .shrRrr d a b => some (eRRR 0x00C 0 d a b) | .shrRri d a i => some (eRRI 0x00C 0 d a i)
  | .sraRrr d a b => some (eRRR 0x00D 0 d a b) | .sraRri d a i => some (eRRI 0x00D 0 d a i)
  | .rotRrr d a b => some (eRRR 0x00E 0 d a b) | .rotRri d a i => some (eRRI 0x00E 0 d a i)
  | .clz d a => some (((rawOf 0x00F 0).setDst d).setA a)
  | .ctz d a => some (((rawOf 0x010 0).setDst d).setA a)
  | .popc d a => some (((rawOf 0x011 0).setDst d).setA a)
  | .minRrr d a b u => some (eRRR 0x012 u.toNat d a b) | .minRri d a i u => some (eRRI 0x012 u.toNat d a i)
  | .maxRrr d a b u => some (eRRR 0x013 u.toNat d a b) | .maxRri d a i u => some (eRRI 0x013 u.toNat d a i)
  | .cmpRrr d a b c => some (eRRR 0x014 c.code d a b) | .cmpRri d a i c => some (eRRI 0x014 c.code d a i)
  | .sel d a b c => some ((((rawOf 0x015 0).setDst (.loc d)).setA a).setB b |>.setC c)
  | .mov d a => some (((rawOf 0x016 0).setDst d).setA a)
  | .li d i => some { (rawOf 0x017 1).setDst d with imm := i }
  | .lih d a i => some (eRRI 0x018 0 d a (BitVec.ofNat 48 i.toNat))
  | .lea d (some a) i => some (eRRI 0x019 0 d a i)
  | .lea d none i => some { (rawOf 0x019 1).setDst d with mod := 1, imm := i }
  | .bfx d a lo w => some (eRRI 0x01A 0 d a (BitVec.ofNat 48 (lo.toNat + w.toNat * 64)))
  | .bfi d a b lo w => some ((eRRI 0x01B 0 d a (BitVec.ofNat 48 (lo.toNat + w.toNat * 64))).setB b)
  | .sext d a w => some (eRRI 0x01C 0 d a (BitVec.ofNat 48 w.toNat))
  | .br t => some { rawOf 0x080 3 with imm := t.imm }
  | .bc a nz t => some { (rawOf 0x081 3).setA a with mod := BitVec.ofNat 9 nz.toNat, imm := t.imm }
  | .bri a => some ((rawOf 0x082 0).setA a)
  | .call l t => some { rawOf 0x083 3 with dst := f5 l, imm := t.imm }
  | .ret a => some ((rawOf 0x084 0).setA a)
  | .loop c t => some { rawOf 0x085 3 with sa := f5 c, imm := t.imm }
  | .dcallLabel l t => some { rawOf 0x086 3 with dst := f5 l, imm := t.imm }
  | .dcallReg l a => some (eDA 0x086 0 l a)
  | .dret => some (rawOf 0x087 0)
  | .spend => some (rawOf 0x088 0)
  | .ld rlx d a sz sx i => some (eMEM 0x100 rlx (sz.code + 4 * sx.toNat) d a i)
  | .ldF d a i => some (eMEM 0x100 false 11 d a i)
  | .ldS d a i => some (eMEM 0x100 false 19 d a i)
  | .st rlx a b sz i => some ((eMEM 0x101 rlx sz.code 0 a i).setB b)
  | .stF a b i => some ((eMEM 0x101 false 11 0 a i).setB b)
  | .empty a i => some (eMEM 0x102 false 3 0 a i)
  | .fence c => some { rawOf 0x103 6 with mod := BitVec.ofNat 9 c.code }
  | .pgrp n => some { rawOf 0x104 6 with imm := BitVec.ofNat 48 n.toNat }
  | .publ => some (rawOf 0x105 6)
  | .roinv a n => some (((rawOf 0x106 0).setA a).setB n)
  | .aadd rlx d a b sz i => some ((eMEM 0x108 rlx sz.code d a i).setB b)
  | .aand rlx d a b sz i => some ((eMEM 0x109 rlx sz.code d a i).setB b)
  | .aor rlx d a b sz i => some ((eMEM 0x10A rlx sz.code d a i).setB b)
  | .axor rlx d a b sz i => some ((eMEM 0x10B rlx sz.code d a i).setB b)
  | .amin rlx u d a b sz i => some ((eMEM 0x10C rlx (sz.code + 4 * u.toNat) d a i).setB b)
  | .amax rlx u d a b sz i => some ((eMEM 0x10D rlx (sz.code + 4 * u.toNat) d a i).setB b)
  | .aswp rlx d a b sz i => some ((eMEM 0x10E rlx sz.code d a i).setB b)
  | .acas rlx d a b c sz i => some (((eMEM 0x10F rlx sz.code d a i).setB b).setC c)
  | .wake a => some ((rawOf 0x180 0).setA a)
  | .ibpop h v => some { rawOf 0x181 0 with dst := f5 h, sb := f5 v }
  | .ibreplay a b => some (((rawOf 0x182 0).setA a).setB b)
  | .spstart a b c => some ((((rawOf 0x188 0).setA a).setB b).setC c)
  | .spstop a => some ((rawOf 0x189 0).setA a)
  | .spresume a => some ((rawOf 0x18A 0).setA a)
  | .spkill a => some ((rawOf 0x18B 0).setA a)
  | .spreap d a => some (eDA 0x18C 0 d a)
  | .spspill a b => some (((rawOf 0x18D 0).setA a).setB b)
  | .spfill a b => some (((rawOf 0x18E 0).setA a).setB b)
  | .gbar g => some { rawOf 0x190 1 with imm := BitVec.ofNat 48 g.toNat }
  | .garrive g => some { rawOf 0x191 1 with imm := BitVec.ofNat 48 g.toNat }
  | .barinit b a n => some ((((rawOf 0x192 0).setA b).setB a).setC n)
  | .bararr b n => some (((rawOf 0x193 0).setA b).setB n)
  | .barwait b p => some (((rawOf 0x194 0).setA b).setB p)
  | .semsig a b => some (((rawOf 0x198 0).setA a).setB b)
  | .semwait c d a b => some { (eDA 0x199 0 d a).setB b with mod := BitVec.ofNat 9 c.code }
  | .tlsig a b => some (((rawOf 0x19A 0).setA a).setB b)
  | .tlwait d a b => some ((eDA 0x19B 0 d a).setB b)
  | .ptest d v r => some { rawOf 0x19C 0 with dst := f5 d, sa := f5 r, mod := BitVec.ofNat 9 v.toNat }
  | .cancel d r => some { rawOf 0x19D 0 with dst := f5 d, sa := f5 r }
  | .lend d a b m => some { ((rawOf 0x1A0 1).setA a).setB b with dst := f5 d, imm := BitVec.ofNat 48 m.toNat }
  | .unlend a => some ((rawOf 0x1A1 0).setA a)
  | .domq d a => some (eDA 0x1A2 0 d a)
  | .mldw f sc sp2 t d q a b n k => some { (eDA 0x200 5 d a).setB b with
      mod := BitVec.ofNat 9 (f.code + 16 * sc.toNat + 32 * sp2.toNat + 64 * t.toNat)
      imm := BitVec.ofNat 48 (q.code + 16 * n.toNat + 2 ^ 14 * k.toNat) }
  | .mmul f sc ovw sat d q a b c => some { ((eDA 0x201 5 d a).setB b).setC c with
      mod := BitVec.ofNat 9 (f.code + 16 * sc.toNat + 32 * ovw.toNat + 64 * sat.toNat)
      imm := BitVec.ofNat 48 q.code }
  | .mdrain f rnd sat d q a b c n adj => some { ((eDA 0x202 5 d a).setB b).setC c with
      mod := BitVec.ofNat 9 (f.code + 16 * rnd.code + 64 * sat.toNat)
      imm := BitVec.ofNat 48 (q.code + 16 * n.toNat + 2 ^ 14 * adj.toNat) }
  | .mzero d q a b n => some { (eDA 0x203 5 d a).setB b with imm := BitVec.ofNat 48 (q.code + 16 * n.toNat) }
  | .spcmp f sc d a b c n k => some { ((eDA 0x204 5 d a).setB b).setC c with
      mod := BitVec.ofNat 9 (f.code + 16 * sc.toNat), imm := BitVec.ofNat 48 (16 * n.toNat + 2 ^ 14 * k.toNat) }
  | .lyt d a b l => some { (eDA 0x208 5 d a).setB b with sc := f5 l }
  | .lytq d l => some { rawOf 0x209 5 with dst := f5 d, sa := f5 l }
  | .cpsetReg r a => some { (rawOf 0x210 0).setA a with mod := BitVec.ofNat 9 r.toNat }
  | .cpsetImm r i => some { rawOf 0x210 1 with mod := BitVec.ofNat 9 r.toNat, imm := i }
  | .cpgo d => some { rawOf 0x211 5 with dst := f5 d }
  | .cpgath d v => some { (rawOf 0x212 5).setVB v with dst := f5 d }
  | .cpscat d v => some { (rawOf 0x213 5).setVB v with dst := f5 d }
  | .cpcancel d a => some (eDA 0x214 5 d a)
  | .waitany d a => some (eDA 0x218 0 d a)
  | .waitall a => some ((rawOf 0x219 0).setA a)
  | .tagff d a => some (eDA 0x21A 0 d a)
  | .tagclr a => some ((rawOf 0x21B 0).setA a)
  | .coll op d a => some { eDA 0x220 5 d a with mod := BitVec.ofNat 9 op.code }
  | .lease d a => some (eDA 0x221 0 d a)
  | .unlease a => some ((rawOf 0x222 0).setA a)
  | .trload a b => some (((rawOf 0x228 0).setA a).setB b)
  | .trseal => some (rawOf 0x229 0)
  | .vadd rnd sat km d a b => some (((eVEC 0x280 (rnd.code + 4 * sat.toNat + 8 * km.val) (fv d)).setVA a).setVB b)
  | .vsub rnd sat km d a b => some (((eVEC 0x281 (rnd.code + 4 * sat.toNat + 8 * km.val) (fv d)).setVA a).setVB b)
  | .vmul rnd sat km d a b => some (((eVEC 0x282 (rnd.code + 4 * sat.toNat + 8 * km.val) (fv d)).setVA a).setVB b)
  | .vfma rnd sat km d a b c =>
    some ((((eVEC 0x283 (rnd.code + 4 * sat.toNat + 8 * km.val) (fv d)).setVA a).setVB b).setVC c)
  | .vmin km d a b => some (((eVEC 0x284 (8 * km.val) (fv d)).setVA a).setVB b)
  | .vmax km d a b => some (((eVEC 0x285 (8 * km.val) (fv d)).setVA a).setVB b)
  | .vabs km d a => some ((eVEC 0x286 (8 * km.val) (fv d)).setVA a)
  | .vneg km d a => some ((eVEC 0x287 (8 * km.val) (fv d)).setVA a)
  | .viadd sat km d a b => some (((eVEC 0x288 (4 * sat.toNat + 8 * km.val) (fv d)).setVA a).setVB b)
  | .vimul sat km d a b => some (((eVEC 0x289 (4 * sat.toNat + 8 * km.val) (fv d)).setVA a).setVB b)
  | .vand km d a b => some (((eVEC 0x28A (8 * km.val) (fv d)).setVA a).setVB b)
  | .vor km d a b => some (((eVEC 0x28B (8 * km.val) (fv d)).setVA a).setVB b)
  | .vxor km d a b => some (((eVEC 0x28C (8 * km.val) (fv d)).setVA a).setVB b)
  | .vshl km d a b => some (((eVEC 0x28D (8 * km.val) (fv d)).setVA a).setVB b)
  | .vshr km d a b => some (((eVEC 0x28E (8 * km.val) (fv d)).setVA a).setVB b)
  | .vcmp c km d a b => some (((eVEC 0x290 (8 * km.val + 32 * c.code) (fk d)).setVA a).setVB b)
  | .vsel d a b k => some { ((eVEC 0x291 0 (fv d)).setVA a).setVB b with sc := fk k }
  | .vexp2 km d a => some ((eVEC 0x298 (8 * km.val) (fv d)).setVA a)
  | .vrcp km d a => some ((eVEC 0x299 (8 * km.val) (fv d)).setVA a)
  | .vrsq km d a => some ((eVEC 0x29A (8 * km.val) (fv d)).setVA a)
  | .vredadd km d a => some ((eVEC 0x2A0 (8 * km.val) (f5 d)).setVA a)
  | .vredmax km d a => some ((eVEC 0x2A1 (8 * km.val) (f5 d)).setVA a)
  | .vperm km d a b => some (((eVEC 0x2A8 (8 * km.val) (fv d)).setVA a).setVB b)
  | .vrng w km d a b => some (((eVEC 0x2B0 (8 * km.val + 32 * w.toNat) (fv d)).setA a).setB b)
  | .vld rlx km d a i => some { (eVEC 0x300 (8 * km.val) (fv d)).setA a with rlx := rlx, imm := i }
  | .vst rlx km a s i => some { ((eVEC 0x301 (8 * km.val) 0).setA a).setVB s with rlx := rlx, imm := i }
  | .vgath rlx km d a x i => some { ((eVEC 0x302 (8 * km.val) (fv d)).setA a).setVB x with rlx := rlx, imm := i }
  | .vscat rlx km a x s i =>
    some { (((eVEC 0x303 (8 * km.val) 0).setA a).setVB x).setVC s with rlx := rlx, imm := i }
  | .vbcast km d a => some ((eVEC 0x308 (8 * km.val) (fv d)).setA a)
  | .vext d a l => some { (eVEC 0x309 0 (f5 d)).setVA a with imm := BitVec.ofNat 48 l.toNat }
  | .vins d a b l => some { ((eVEC 0x30A 0 (fv d)).setVA a).setB b with imm := BitVec.ofNat 48 l.toNat }
  | .vcvt df sf rnd sat km d a => some { (eVEC 0x310 (rnd.code + 4 * sat.toNat + 8 * km.val) (fv d)).setVA a with
      imm := BitVec.ofNat 48 (df.code + 16 * sf.code) }
  | .vqnt f km d a => some ((eVEC 0x311 (8 * km.val + 32 * f.code) (fv d)).setVA a)
  | .kand d a b => some { eVEC 0x318 0 (fk d) with sa := fk a, sb := fk b }
  | .kor d a b => some { eVEC 0x319 0 (fk d) with sa := fk a, sb := fk b }
  | .knot d a => some { eVEC 0x31A 0 (fk d) with sa := fk a }
  | .kpop d a => some { eVEC 0x31B 0 (f5 d) with sa := fk a }
  | .nop => some (rawOf 0x380 6)
  | .trap n => some { rawOf 0x381 6 with imm := BitVec.ofNat 48 n.toNat }
  | .tret => some (rawOf 0x382 6)
  | .rds d n => some { rawOf 0x383 6 with dst := f5 d, imm := BitVec.ofNat 48 n.toNat }
  | .wrs a n => some { (rawOf 0x384 6).setA a with imm := BitVec.ofNat 48 n.toNat }
  | .tinv a b => some (((rawOf 0x385 6).setA a).setB b)
  | .bkpt => some (rawOf 0x386 6)
  | .ill => some (rawOf 0x3FF 6)
  | _ => none

/-- The word of an instruction; none for an event row. -/
def encode (i : Instr) : Option (BitVec 96) := (encodeRaw i).map pack

/-- Whether the row is an instruction form, with a word of its own. -/
def Instr.isWord (i : Instr) : Bool := (encodeRaw i).isSome

end Sys2Proof
end

