-- ==== Sys2Proof/Config.lean ====
section
/-! DEFINITION. What one device fixes (R3, R4, R9) and the free values: constants with no body, of which nothing can be proved. -/

namespace Sys2Proof.Config

/-- Tiles of the device (R3). -/
def numTiles : Nat := 384

/-- Barrel cores of the device (R3). -/
def numCores : Nat := 6144

/-- HBM capacity in bytes, 576 GB decimal (R3, R9). PRESUMED exact multiple, log 17; safe only for addresses below it. -/
def hbmSize : Nat := 576000000000

/-- Bytes of one state image (R48). -/
def imageSize : Nat := 2560

/-- Free value: the choice between an old and a new translation or table entry (R85), by step and by check: two checks of one step choose each for itself. -/
opaque useCached : Nat → Nat → Bool

/-- Free value: whether the read cache evicts a line before the access of a step (R112). -/
opaque evict : Nat → Nat → Bool

/-- Free value: which line of a full read cache gives way to a new one (R112). -/
opaque victim : Nat → Nat → Nat

/-- Free value: a byte of a tile image in a save area, by the save and the offset (R280). -/
opaque saveByte : Nat → Nat → Byte

/-- Free value: an increment of CYCLE (R388). -/
opaque freeCycle : Nat → Nat

/-- Free value: a byte of a state image, by its stamp and the offset (R48): a completion into the image gives it a new stamp (R49). -/
opaque imageByte : Nat → Nat → Byte

/-- Free value: whether two accesses of one cc or an alternative of "one of:" resolves the first way (R7). -/
opaque oneOf : Nat → Bool

/-- Free value: whether the Ed448 signature of a firmware image verifies (R287). -/
opaque ed448Verifies : List Byte → Bool

/-- Free value: the 114-byte Ed448 signature of a SHAKE256 digest under the device's key (R287). -/
opaque ed448Sign : BitVec 512 → BitVec 912

/-- Free value: the power rails that have a lifetime counter (R288); the spec does not say how many. -/
opaque numRails : Nat

/-- Free value: the temperature band of each die since the last update of the lifetime counters (R288), as die and band, by step. -/
opaque tempBands : Nat → List (Nat × Nat)

/-- Free value: the voltage band of each rail since the last update of the lifetime counters (R288), as rail and band, by step. -/
opaque voltBands : Nat → List (Nat × Nat)

/-- Free value: the 57-byte Ed448 identity public key and the certificate chain (R289). -/
opaque identity : List Byte

/-- Free value: a 64-bit value the spec leaves open, by step. -/
opaque freeWord : Nat → Word

/-- Free value: the function whose kick page (BAR2) stands at a 4 KiB page of host addresses (R243, R245); the host assigns the BARs. -/
opaque kickFn : Nat → Option Nat

/-- Free value: the tiles that the bridges between dies join to a tile (R34); the spec does not place the dies. -/
opaque bridges : Nat → List Nat

/-- Free value: the scale-up link that carries the connections to a peer device (R285). -/
opaque linkOf : Nat → Nat

/-- Free value: the device number that the switch fabric assigns to this device (R285). -/
opaque ownDevice : Nat

end Sys2Proof.Config
end

