-- ==== Sys2Proof/Machine/FMap.lean ====
section
/-! DEFINITION. Finite maps as lists of (key, value), and memory as such a list in one canonical form. -/

namespace Sys2Proof.Machine

/-- The value at a key, `d` where the key is not listed. -/
def mget {α : Type} (d : α) : List (Nat × α) → Nat → α
  | [], _ => d
  | p :: r, k => if p.1 = k then p.2 else mget d r k

/-- Whether a key is listed. -/
def mhas {α : Type} (m : List (Nat × α)) (k : Nat) : Bool := m.any (fun p => p.1 == k)

/-- Removes a key. -/
def mdel {α : Type} (m : List (Nat × α)) (k : Nat) : List (Nat × α) := m.filter (fun p => p.1 != k)

/-- Inserts a key before the first greater one. -/
def mins {α : Type} : List (Nat × α) → Nat → α → List (Nat × α)
  | [], k, v => [(k, v)]
  | p :: r, k, v => if k < p.1 then (k, v) :: p :: r else p :: mins r k v

/-- Sets the value at a key. -/
def mset {α : Type} (m : List (Nat × α)) (k : Nat) (v : α) : List (Nat × α) := mins (mdel m k) k v

/-- Sets the value at a key; the value `d` removes the key. -/
def mput {α : Type} [DecidableEq α] (d : α) (m : List (Nat × α)) (k : Nat) (v : α) : List (Nat × α) :=
  if v = d then mdel m k else mset m k v

/-- A memory: the bytes that differ from the unwritten value 0 (DESIGN CHOICE, log 2; unsafe), addresses strictly rising. -/
abbrev Mem := List Host.Cell

/-- What an address that is not listed reads as (DESIGN CHOICE, log 2; unsafe). -/
def unwritten : Byte := 0

/-- The byte at an address. -/
def rd (m : Mem) (a : Nat) : Byte := mget unwritten m a

/-- Writes the byte at an address, keeping the canonical form. -/
def wr (m : Mem) (a : Nat) (b : Byte) : Mem := mput unwritten m a b

/-- The first key of a list is above `k`. -/
def above (k : Nat) (m : Mem) : Bool :=
  match m with
  | [] => true
  | p :: _ => decide (k < p.1)

/-- The canonical form: addresses strictly rising, no entry equal to the unwritten value. -/
def memWf : Mem → Bool
  | [] => true
  | p :: r => p.2 != unwritten && above p.1 r && memWf r

/-- The `n` bytes from an address, in ascending order. -/
def rdBytes (m : Mem) (a : Nat) : Nat → List Byte
  | 0 => []
  | n + 1 => rd m a :: rdBytes m (a + 1) n

/-- Writes bytes from an address, in ascending order. -/
def wrBytes (m : Mem) (a : Nat) : List Byte → Mem
  | [] => m
  | b :: bs => wrBytes (wr m a b) (a + 1) bs

/-- Fills the `n` bytes from an address with bytes of a function, in one pass. -/
def fillMem (m : Mem) (a n : Nat) (f : Nat → Byte) : Mem :=
  m.filter (fun p => decide (p.1 < a)) ++ ((List.range n).filterMap fun i => if f i = unwritten then none else some (a + i, f i))
    ++ m.filter (fun p => decide (a + n ≤ p.1))

/-- The number of bytes, little-endian (R8). -/
def natOfBytes (bs : List Byte) : Nat := bs.foldr (fun b acc => b.toNat + 256 * acc) 0

/-- The `n` bytes of a number, little-endian (R8). -/
def bytesLE : Nat → Nat → List Byte
  | 0, _ => []
  | n + 1, x => BitVec.ofNat 8 x :: bytesLE n (x / 256)

/-- Reads `n` bytes as a number. -/
def rdNat (m : Mem) (a n : Nat) : Nat := natOfBytes (rdBytes m a n)

/-- Writes a number as `n` bytes. -/
def wrNat (m : Mem) (a n x : Nat) : Mem := wrBytes m a (bytesLE n x)

end Sys2Proof.Machine
end

