-- ==== Sys2Proof/Machine/State.lean ====
section
/-! DEFINITION. The state of the machine as plain data, its reset value, and the reasons a step can stop. -/

namespace Sys2Proof.Machine

/-- A fault that stops the machine. The device has none: every fault of R259 is a next state (a trap, a park, a kill). The one constructor is raised by nothing. Safe. -/
inductive Fault where
  /-- Raised by nothing; safe. -/
  | none
deriving DecidableEq, Repr

/-- Why an instruction has no meaning here. -/
inductive Refusal where
  /-- Raised by an arm of exec for an instruction not reached yet; safe. -/
  | notModelled (mnemonic : String)
deriving DecidableEq, Repr

/-- The memories a physical address may lie in: TT of R123. -/
inductive Space where
  | hbm | host | scr | tb | stw | peer
deriving DecidableEq, Repr

/-- A byte of a memory. Scratchpad: core × 65536 + offset; tile buffer: tile × 2^21 + offset; peer: device × 2^40 + address. -/
structure Loc where
  sp : Space
  a : Nat
deriving DecidableEq, Repr

/-- The states of a context (R400). -/
inductive Ctx where
  | free | live | stopped | ended
deriving DecidableEq, Repr

/-- What a register waits for (R23, R134, R365): nothing, a command's completion or identifier, a relaxed load, a lease answer. -/
inductive Pend where
  | no
  | cmd (id : Nat)
  | load (id : Nat)
  | lease (id : Nat)
deriving DecidableEq, Repr

/-- A register of either file that has presence bits (R15). -/
inductive Reg where
  | g (r : Fin 32)
  | v (r : Fin 8)
deriving DecidableEq, Repr

/-- A general register with its presence (R15, R23). -/
structure GReg where
  val : Word
  full : Bool
  pend : Pend
deriving DecidableEq, Repr

/-- A vector register with its presence (R15, R23). -/
structure VReg where
  val : Vector Lane 32
  full : Bool
  pend : Pend
deriving DecidableEq, Repr

/-- The states of a lend entry (R90). -/
inductive LendSt where
  | free | pending | opened | closed
deriving DecidableEq, Repr

/-- A lend table entry (R89 to R99). -/
structure Lend where
  base : Word
  len : Nat
  rw : Bool
  lender : BitVec 8
  lendee : BitVec 8
  st : LendSt
  count : Nat
deriving DecidableEq, Repr

/-- A record of the domain return stack (R88). -/
structure DRec where
  caller : BitVec 8
  ret : Word
  lends : BitVec 8
  trap : Bool
deriving DecidableEq, Repr

/-- A group slot (R38). -/
structure GSlot where
  valid : Bool
  grp : BitVec 8
  arrived : Bool
  phase : Bool
deriving DecidableEq, Repr

/-- A trap owed at the next boundary (R67, R202, R264): code, fault PC, resumption PC, VA, MORE, and the ACC of a terminal record. -/
structure Owed where
  code : FaultCode
  fpc : Word
  rpc : Word
  va : Word
  more : Nat
  acc : Nat
deriving DecidableEq, Repr

/-- The kinds of entry into a line (R56). A vector entry carries the fault being delivered (R264). -/
inductive EntryKind where
  | seq | branch | dcall | dret | launch | start | tret
  | vector (t : Owed)
deriving DecidableEq, Repr

/-- The line buffer of a spoke (R59, R60): the line, the page it came from and the place it was read from. -/
structure LineBuf where
  addr : Word
  line : Line
  present : Bool
  stale : Bool
  pageLo : Nat
  pageLen : Nat
  pa : Nat
deriving DecidableEq, Repr

/-- A failed check: the code, the address, the access kind of R262, and the marks of the record. `host` says that the host is asked (R267). -/
structure FErr where
  code : FaultCode
  va : Word
  acc : Nat
  mal : Bool
  perm : Bool
  host : Bool
deriving DecidableEq, Repr

/-- A line that a spoke has asked for ahead of its need (R60): the PC it is entered at, the leaf and the place that its translation gave, the line once it has been read, whether an invalidation has overtaken it, and the fault that the translation met. -/
structure Ahead where
  pc : Word
  leaf : Word
  bits : Nat
  loc : Loc
  line : Option Line
  stale : Bool
  err : Option FErr
deriving DecidableEq, Repr

/-- What a FENCE and the other waits after issue wait for (R17, R36, R98, R118, R119, R135, R358, R400, R415). -/
inductive Wait where
  | fence (sc : Scope)
  | unlend (i : Fin 8)
  | publ
  | spend
  | unlease (eng : Nat) (gen : BitVec 32)
  | spstop (sp : Nat)
  | spreap (d : Fin 32) (sp : Nat)
  | loopback (hdr val : Word)
  | pgrpHold (n : Nat)
deriving DecidableEq, Repr

/-- Why a spoke is out of the rotation (R17, R19, R22). Plain accesses and divisions are held in `outst` and `divs`. -/
inductive Park where
  | none
  | gsrc (r : Fin 32)
  | vsrc (r : Fin 8)
  | line
  | fetch (target : Word)
  | fault (slot : Nat)
  | slots
  | group (i : Fin 4) (arrive : Bool)
  | bank
  | cmd (id : Nat)
  | wait (w : Wait)
  | tinv (id : Nat)
  | tagAny (d : Fin 32) (mask : Word)
  | tagAll (mask : Word)
  | panes
  | room                      -- a hub at SPSTART or SPFILL while its VF holds MAXRES resident spokes (R256, log 88)
deriving DecidableEq, Repr

/-- Operations of the atomics (R325). -/
inductive AtOp where
  | add | band | bor | bxor | min (u : Bool) | max (u : Bool) | swp | cas
deriving DecidableEq, Repr

/-- What an outstanding access does (R326, R361, R403, R430). -/
inductive ReqKind where
  | load (d : Fin 32) (sx : Bool)
  | store
  | atomic (op : AtOp) (d : Fin 32) (b c : Nat)
  | vload (d : Fin 8)
  | vstore
deriving DecidableEq, Repr

/-- One element of an access: a lane, its place, its data, its path. -/
structure LaneAcc where
  lane : Nat
  loc : Loc
  data : Nat
  ro : Bool               -- through the read cache
deriving DecidableEq, Repr

/-- An access that has issued and whose reply has not come (R134, R143). The lanes of a vector access are performed one by one (R128, R432). -/
structure Req where
  id : Nat
  kind : ReqKind
  n : Nat
  accs : List LaneAcc     -- elements not yet performed
  got : List (Nat × Nat)  -- lanes a vector load has read, with their values
  plain : Bool
  posted : Bool
  eaten : List Reg        -- registers that were full before the access issued and that it has emptied (R22, R264)
  pc : Word
  rpc : Word
  va : Word
deriving DecidableEq, Repr

/-- A store or atomic whose spoke has ended (R143, R320): the VF, the core, the context it came from, the request. -/
structure Orphan where
  vf : Nat
  core : Nat
  sp : Nat
  ltag : Nat
  req : Req
deriving DecidableEq, Repr

/-- A message of the synchronisation class (R27, R32): header fields, value, VF, and the launch tag of its sender (R254). -/
structure Msg where
  id : Nat
  core : Nat
  sp : Nat
  reg : Nat
  wake : Bool
  src : Nat
  ssp : Nat
  vf : Nat
  val : Word
  ltag : Nat
deriving DecidableEq, Repr

/-- A division that has issued (R351, R389): the destination, the remote handle's target if any, the value, and whether it is the second of a pair, whose message waits for the first (R137). -/
structure DivPend where
  reg : Fin 32
  remote : Option (Nat × Nat × Nat)
  val : Word
  late : Bool
deriving DecidableEq, Repr

/-- Who a command, a request or a fault slot belongs to: a spoke of a VF on a core, a state image, or nobody (killed). -/
inductive Owner where
  | spoke (core sp vf : Nat)
  | image (id : Nat)
  | gone
deriving DecidableEq, Repr

/-- The engine commands (R197). -/
inductive EngOp where
  | mldw | mmul | mdrain | mzero | spcmp | lyt | cpgo | cpgath | cpscat | coll
deriving DecidableEq, Repr

/-- Where a command stands. -/
inductive CmdSt where
  | window        -- issued, not dispatched (R197)
  | pageWait      -- parked at dispatch on a tile-buffer page or a COLL descriptor (R441, R342)
  | slotWait      -- waiting for a copy slot (R227)
  | behind        -- held back behind an entry of its spoke (R227, R441)
  | queued        -- in its engine's queue
  | aside         -- waiting aside for panes (R116)
  | running       -- started
  | parked        -- parked on a retryable fault (R195, R228)
  | done          -- completed; kept until its group commits (R208)
deriving DecidableEq, Repr

/-- A lend of a command's snapshot (R94). -/
structure Snap where
  entry : Fin 8
  base : Word
  len : Nat
  rw : Bool
deriving DecidableEq, Repr

/-- The description of latched weights (R181). -/
structure LDesc where
  fmt : Fmt
  sc : Bool
  sp2 : Bool
  q : Quad
  k : Nat
  n : Nat
deriving DecidableEq, Repr

/-- A weight latch (R181, R187): the description, the element codes row by row of K, the scales block by block. -/
structure Latch where
  desc : LDesc
  codes : List (List Nat)
  scales : List (List Nat)
deriving DecidableEq, Repr

/-- An engine command (R197, R198): what was recorded at issue and its progress. -/
structure Cmd where
  id : Nat
  owner : Owner
  vf : Nat
  core : Nat
  reg : Fin 32
  pc : Word
  rpc : Word
  op : EngOp
  mods : Nat
  imm : Nat
  a : Word
  b : Word
  c : Word
  c2 : Word
  cps : List Word
  idx : List Lane
  dom : BitVec 8
  snap : List Snap
  st : CmdSt
  done : Nat
  flags : BitVec 5
  errVa : Word
  errAcc : Nat               -- ACC of the access that met the fault (R262)
  cancel : Bool
  tbR : List (Nat × Nat)     -- tile-buffer bytes of the read envelopes, (start, length)
  tbW : List (Nat × Nat)     -- tile-buffer bytes of the write envelopes
  panes : List Nat           -- regions (tile × 32 + region) whose panes it holds
  ovl : Mem                 -- bytes written in its panes, by tile-buffer place
  lat : Option Latch         -- what an MLDW has read, latched as it completes (R181, R187)
  pub : Option Nat           -- publish group
  grp : Option Nat           -- group of the Trowel
  xid : Nat                  -- transfer identifier, 0 when none
  rep : Nat                  -- GEN + 1 of a replacement (R205); 0 for a command as written
  wno : Nat                  -- the sealed window it belongs to
  perm : BitVec 3            -- at the seal: RANGE, ROUND (R206), and whether a publish group was open (R204)
  desc : List Word           -- the descriptor of a COLL as read
  wdesc : Option LDesc       -- the weights that an MMUL was checked against (R181)
  okP : List (Int × Nat × Bool × Nat) -- operands, as first byte, length and whether written, with a page whose rights have passed (R95, R97)
  got : List (Nat × Byte)    -- operand bytes read ahead of their unit, by address (R139)
  wrote : List Nat           -- units done out of turn (R139)
  out : List (Loc × Byte)    -- general-path bytes written and not yet visible, oldest first (R128, R139)
  po : Nat                   -- accesses numbered below it are before the command in program order (R138, R209)
  ltag : Nat                 -- the launch tag of its spoke (R254)
  again : Nat                -- the abandoned group whose replay it belongs to (R210); 0 for none
  keep : List Snap           -- lends of the other originals, relied on until the end of the replay (R208)
  tab : List (Nat × BitVec 256) -- the trowel table at the seal of its window, while it waits for its dispatch (R203)
  after : List Nat           -- accesses of a killed owner that go before it (R138)
  atEnd : Bool               -- a copy whose last byte has been written or that has failed, and that waits for its barrier's page (R236)
  fail : Option (FaultCode × Word × Nat) -- the failure that it ends with, already met: of such a copy, or of a connection that has ended (R285): code, address, ACC
deriving DecidableEq, Repr

/-- A publish group of a spoke (R118). -/
structure PubGrp where
  id : Nat
  n : Nat
  regions : List Nat
  ovl : Mem
  owner : Owner
  tile : Nat
  vf : Nat
  held : Bool
deriving DecidableEq, Repr

/-- A group that the Trowel rewrote (R208). -/
structure TrGrp where
  id : Nat
  owner : Owner
  core : Nat
  vf : Nat
  rule : Nat
  origs : List Cmd
  cmds : List Nat
  regions : List Nat
  ovl : Mem
  pub : Option Nat
  flags : BitVec 5
  held : Bool
  latches : List (Nat × Latch) -- by tile × 4 + quadrant: what the commit latches
deriving DecidableEq, Repr

/-- A thread context (R15, R48). -/
structure Spoke where
  ctx : Ctx
  endCode : Nat
  endKilled : Bool
  endFault : Bool
  stopReq : Bool
  park : Park
  pc : Word
  dom : BitVec 8
  line : LineBuf
  want : Option EntryKind
  g : Vector GReg 32
  v : Vector VReg 8
  k : Vector Lane 4
  lends : Vector Lend 8
  drs : List DRec
  gslots : Vector GSlot 4
  cps : Vector Word 8
  mprog : Word
  flags : BitVec 5
  tperm : BitVec 2
  ftok : Word
  fva : Word              -- the address at which a spoke on a fault waiter faulted (R264, R267)
  trlog : List (List Word)
  trseq : BitVec 32
  win : List Cmd
  wcount : Nat
  pub : Option Nat
  ltag : Nat
  popIdx : Nat
  outst : List Req
  divs : List DivPend
  sends : List Msg        -- register writes of seconds of pairs, held until the first is performed (R137)
  ahead : Option Ahead    -- the line asked for ahead of its need (R60)
  owed : List Owed
  second : Bool           -- the second of a pair is to be issued alone (R67)
  lastIssue : Option Nat
deriving DecidableEq, Repr

/-- A state image in memory (R48, R49): the contents, the VF and core, its first HBM address and the VA of its page, its pieces in memory, and the stamp of the bytes that stand there. -/
structure Image where
  sp : Spoke
  vf : Nat
  at' : Nat
  core : Nat
  va : Word
  places : List (Loc × Nat)
  stamp : Nat
  cyc : Nat               -- above every CYCLE that the spoke has read (R388)
deriving DecidableEq, Repr

/-- A ring record (R262). -/
structure RingRec where
  token : Word
  va : Word
  pc : Word
  code : Nat
  acc : Nat
  mal : Bool
  perm : Bool
  dom : BitVec 8
  merge : Nat
  more : Nat
  xfer : Bool
deriving DecidableEq, Repr

/-- A fault waiter (R261, R267). -/
structure Waiter where
  vf : Nat
  page : Nat
  path : Nat
  acc : Nat
  owners : List Owner
  cmds : List Nat
  host : Bool
  written : Bool
  info : RingRec
deriving DecidableEq, Repr

/-- A slot of a core's fault waiters (R260). -/
structure WSlot where
  gen : BitVec 32
  w : Option Waiter
deriving DecidableEq, Repr

/-- The part of a core that belongs to the VF resident on it (R273, R280). -/
structure CoreCtx where
  spokes : List (Nat × Spoke)    -- spokes 1 to 15
  inbox : List Msg
  port : List Msg
  tags : Word
  tagerr : Word
  tagCnt : List (Nat × Nat)
  nextXid : Nat
  xids : List Nat
  hubq : List (Nat × Nat)        -- (population index, launch tag)
  slice : List Nat               -- spokes that a slice end has stopped
deriving DecidableEq, Repr

/-- A barrel core (R15, R29, R256, R260, R281). -/
structure Core where
  hub : Spoke
  ctx : CoreCtx
  waiters : List (Nat × WSlot)
  drop : Nat
  stale : Nat
  last : Nat
  lastCc : Option Nat
  buckets : List (Nat × Nat)
deriving DecidableEq, Repr

/-- A half tile (R203, R255, R279). `next` is the VF of a slice change under way; `since` is the reference time at which the slice began, `due` what the VFs that had work as the window began are still to be resident in it, `vac` whether it is being vacated: no block names it any more (R279). -/
structure Half where
  vf : Nat
  trowel : List (Nat × BitVec 256)
  next : Option Nat
  since : Nat
  due : List (Nat × Nat)
  vac : Bool
deriving DecidableEq, Repr

/-- A request for panes (R116, R118). -/
structure PaneReq where
  tile : Nat
  vf : Nat
  n : Nat
  owner : Owner
  cmd : Option Nat
  grp : Option Nat
  pub : Option Nat
deriving DecidableEq, Repr

/-- What a waiter parked at a bank wants (R26, R42, R250, R251). -/
inductive BankWait where
  | ldF (d : Fin 32)
  | ldS (d : Fin 32)
  | bar
  | sem (c : SemCond) (d : Fin 32) (v : Word)
  | tl (d : Fin 32) (v : Word)
deriving DecidableEq, Repr

/-- A waiter parked at a bank, in arrival order. -/
structure BankWaiter where
  loc : Loc
  owner : Owner
  want : BankWait
deriving DecidableEq, Repr

/-- A group of a launch (R39). -/
structure Grp where
  exp : Nat
  arr : Nat
  phase : Bool
deriving DecidableEq, Repr

/-- A population (R35, R247, R256). -/
structure Pop where
  vf : Nat
  tag : Nat
  src : PktSrc
  pkt : Nat
  size : Nat
  quota : Nat
  entry : Word
  arg : Word
  seeds : List Word
  tperm : BitVec 2
  aff : Nat
  stkoff : Nat
  stksz : Nat
  groups : List (Nat × List Nat)
  nextIdx : Nat
  lastCore : Nat                 -- the core that the last member was dealt to; past the cores before the first (R256)
  reaped : Nat
  killed : Bool
deriving DecidableEq, Repr

/-- A packet that has started and not completed (R254). -/
structure Pkt where
  id : Nat
  src : PktSrc
  csig : Word
  done : Bool
deriving DecidableEq, Repr

/-- The dispatcher's knowledge of a queue beside its descriptor in HBM (R242, R243, R248): `waits` holds the signals of a head barrier that was evaluated and did not hold. -/
structure QueueSt where
  enabled : Bool
  active : Bool
  waits : List Loc
deriving DecidableEq, Repr

/-- A graph instance (R253). -/
structure GInst where
  id : Nat
  vf : Nat
  q : Nat
  base : Word
  serial : Bool
  nodes : List (List Byte)
  preds : List (List Nat)
  started : List Nat
  completed : List Nat
  waits : List (Nat × List Loc)   -- barrier nodes evaluated that did not hold, and their signals
  pkt : Nat
deriving DecidableEq, Repr

/-- A collective engine (R237, R282): the generation, the lease, as VF and expiry, and whether an UNLEASE is giving it back, so that no handle of it is current (R415). -/
structure Engine where
  gen : BitVec 32
  lease : Option (Nat × Nat)
  back : Bool
deriving DecidableEq, Repr

/-- A lease request on its way (R282). -/
structure LeaseReq where
  id : Nat
  owner : Owner
  reg : Fin 32
  vf : Nat
  time : Nat
deriving DecidableEq, Repr

/-- A scale-up link (R285). -/
structure Link where
  up : Bool
  seq : BitVec 12
  fails : Nat
deriving DecidableEq, Repr

/-- An invalidation under way (R270): the VF, the range, and who waits. -/
structure Inval where
  id : Nat
  vf : Nat
  lo : Nat
  len : Nat
  owner : Owner
  host : Option Nat
deriving DecidableEq, Repr

/-- A cached page of a VF (R85, R270): the page and the leaf. -/
structure TlbEnt where
  lo : Nat
  bits : Nat
  leaf : Word
deriving DecidableEq, Repr

/-- A ring of a function (R268). -/
structure Ring where
  base : Word
  ctl : Word
  pidx : Word
  cidx : Word
  held : List (RingRec × Option (Nat × Nat))
deriving DecidableEq, Repr

/-- A control block (R278). -/
structure Ctl where
  segbase : Word
  segsize : Word
  sched : Word
  saveoff : Word
  halves : BitVec 768
deriving DecidableEq, Repr

/-- A function (R277, R278). -/
structure Fn where
  featdrv : Word
  quiesced : Bool
  ptroot : Word
  dombase : Word
  qtbase : Word
  spmap : Word
  invva : Word
  invlen : Word
  regerr : Word
  dropkick : Word
  rring : Ring
  tring : Ring
  dring : Ring
  ctlNew : Ctl
  ctlAct : Ctl
  tlb : List TlbEnt
  seen : List TlbEnt            -- every leaf used since it was last invalidated (R112, R270)
  descs : List (Nat × Nat)      -- cached words of the descriptor table and rights matrix, by offset
deriving DecidableEq, Repr

/-- A line of a tile's read cache (R112): TT, physical line address, contents. -/
structure RLine where
  sp : Space
  a : Nat
  line : Line
deriving DecidableEq, Repr

/-- The tile image of a VF for a half tile (R280); the SAVEOFF of the save, and, for each slot of the save area that holds the half's state, the stamp of the bytes written there and their place. -/
structure TileImg where
  scr : Mem
  full : List (Nat × Bool)
  tb : Mem
  off : Word
  slots : List (Nat × (Nat × Nat))   -- 0 the tile image, 1 + 16 × core + n the state of a core (n = 0) or of its spoke n
deriving DecidableEq, Repr

/-- No tile image: zeros, every presence bit clear (R280). -/
def TileImg.none : TileImg := ⟨[], [], [], 0, []⟩

/-- The Ndoeri controller (R287 to R290). -/
structure Ctrl where
  svcMask : List Nat              -- service cores
  svcNext : Option (List Nat)
  svcBuf : List (Nat × List Byte)
  port : BitVec 2
  portNext : BitVec 2
  fw : List (BitVec 512)
  live : List (Nat × Nat)         -- counters since the last store, by code × 2^32 + index × 2^16 + bin
  nv : List (Nat × Nat)           -- counters stored
  hour0 : Nat                     -- hours of operation before this run, each run begun by a new one (R288)
  lifeAt : Nat                    -- the reference time up to which the time of the bands has been stored (R288)
  mcmd : Word
  mstat : Word
  mdata : List Byte
  reply : Option (Nat × List Byte × Nat) -- RESULT, the chunk prepared, NCHUNK
  quote : Option (List Byte × List Byte) -- nonce and reply of the quote that is being returned
  busy : Bool
deriving DecidableEq, Repr

/-- An MSI-X message sent (R268, R269, R289): function and vector. -/
structure MsixMsg where
  fn : Nat
  vec : Nat
deriving DecidableEq, Repr

/-- An arrival of a completed copy on its way to its barrier (R236), with the VF and the launch tag of the copy (R254). -/
structure BarArr where
  loc : Loc
  bytes : Nat
  vf : Nat
  ltag : Nat
deriving DecidableEq, Repr

/-- One act of the schedule (log 4): a core issues, an event row comes about, an outside agent writes its own memory, a soft error strikes what the next trap delivery reads or stores (R264), or one is corrected that nothing else shows (R288). -/
inductive Act where
  | issue (core : Nat)
  | event (i : Instr)
  | hostMem (addr : Nat) (bytes : List Byte)
  | peerMem (addr : Nat) (bytes : List Byte)
  | soft (at' : Nat)
  | fixed
deriving DecidableEq, Repr

/-- The spoke and word that are issuing, inside one step (log 4): `stop` ends the unit, `idle` says that it has not issued (R16, R19), `reseal` that its pair is to be issued again behind a seal, `sealed` that it is (R199). -/
structure Cur where
  core : Nat
  sp : Nat
  vf : Nat
  pc : Word
  succ : Word
  paired : Bool
  first : Bool
  checked : Bool
  stop : Bool
  idle : Bool
  reseal : Bool
  sealed : Bool
deriving DecidableEq, Repr

/-- The state of the device. -/
structure State where
  cc : Nat
  refTimer : Nat
  refWas : Nat                        -- the reference time before it last advanced (R255)
  refRem : Nat                        -- part of a count of the reference timer, in units of 1 / clk (R290)
  clk : Nat
  d3hot : Bool
  power : Bool                        -- false after an orderly power-down (R288)
  tick : Nat
  agenda : List Act
  cur : Cur
  lastCore : Nat
  nextId : Nat
  cores : List (Nat × Core)
  saved : List (Nat × CoreCtx)        -- by VF × 65536 + core
  savedImg : List (Nat × TileImg)     -- by VF × 65536 + half
  images : List (Nat × Image)         -- spilled spokes by image
  orphans : List Orphan               -- stores and atomics of ended spokes
  cycles : List (Nat × Nat)           -- above every CYCLE that a spoke has read, by 16 × core + spoke (R388)
  soft : Option Nat                   -- a soft error that the next trap delivery meets: 0 its descriptor read, 1 + j its store j (R264)
  halves : List (Nat × Half)
  rcache : List (Nat × List RLine)
  latches : List (Nat × Latch)        -- by tile × 4 + quadrant
  recs : List (Nat × (LDesc × Nat))   -- latch records: description and the MLDW that set it
  cmds : List Cmd                     -- commands past the window, in the order of their queues
  pubs : List (Nat × PubGrp)
  tgrps : List (Nat × TrGrp)
  paneReqs : List PaneReq
  barArrs : List BarArr
  mesh : List Msg
  waiters : List BankWaiter
  grps : List (Nat × Grp)             -- by (VF × 65536 + launch tag) × 256 + group
  pops : List (Nat × Pop)             -- by VF × 65536 + launch tag
  queues : List (Nat × QueueSt)       -- by VF × 256 + queue
  pkts : List Pkt
  graphs : List (Nat × GInst)
  lastQ : List (Nat × Nat)            -- queue served last, by VF × 8 + PRIO
  engines : List (Nat × Engine)
  leaseReqs : List LeaseReq
  links : List (Nat × Link)
  binds : List (Nat × Nat)            -- by VF × 1024 + device
  ended : List (Nat × Nat)            -- by the same: accesses numbered below it were made over a connection that has ended (R285)
  fns : List (Nat × Fn)
  ringTurn : Nat × Nat                -- ring served last in the round (R269), as function × 2 + kind, and records written in its turn
  invals : List Inval
  ats : List (Nat × Nat)              -- cached host pages, by function × 2^52 + page
  cxl : List Nat                      -- host lines held under CXL.cache
  ctrl : Ctrl
  msix : List MsixMsg
  notices : List Nat                  -- reset notices sent to peer devices (R275)
  hbm : Mem
  host : Mem
  peer : Mem
  scr : Mem
  full : List (Nat × Bool)            -- presence of scratchpad words, by place / 8
  tb : Mem
deriving DecidableEq, Repr

/-! Reset values. -/

/-- A general register at its reset value (DESIGN CHOICE, log 1: the spec gives none): full, and pending on nothing. -/
def GReg.zero : GReg := ⟨0, true, .no⟩

/-- A vector register at reset (DESIGN CHOICE, log 1). -/
def VReg.zero : VReg := ⟨Vector.replicate 32 0, true, .no⟩

/-- A free lend entry (R90). -/
def Lend.none : Lend := ⟨0, 0, false, 0, 0, .free, 0⟩

/-- An empty group slot (R38). -/
def GSlot.none : GSlot := ⟨false, 0, false, false⟩

/-- An empty line buffer (DESIGN CHOICE, log 1). -/
def LineBuf.none : LineBuf := ⟨0, 0, false, false, 0, 0, 0⟩

/-- The copy setup registers at launch and SPSTART (R223). -/
def cpsReset : Vector Word 8 := #v[0, 0, 0, 1, 0, 0, 0x40, 0]

/-- A free context (R400; register values DESIGN CHOICE, log 1). -/
def Spoke.reset : Spoke :=
  { ctx := .free, endCode := 0, endKilled := false, endFault := false, stopReq := false, park := .none
    pc := 0, dom := 0, line := .none, want := none
    g := Vector.replicate 32 GReg.zero, v := Vector.replicate 8 VReg.zero, k := Vector.replicate 4 0
    lends := Vector.replicate 8 Lend.none, drs := [], gslots := Vector.replicate 4 GSlot.none
    cps := cpsReset, mprog := 0, flags := 0, tperm := 0, ftok := 0, fva := 0, trlog := [], trseq := 0
    win := [], wcount := 0, pub := none, ltag := 0, popIdx := 0, outst := [], divs := [], sends := [], ahead := none, owed := []
    second := false, lastIssue := none }

/-- The per-VF part of a core at reset (R29, R227, R232, R235). -/
def CoreCtx.reset : CoreCtx :=
  { spokes := [], inbox := [], port := [], tags := 0, tagerr := 0, tagCnt := [], nextXid := 1, xids := [], hubq := [], slice := [] }

/-- A hub spoke at reset: it runs the micro-kernel in the kernel domain 0x01 (R5), from PC 0 and with every register 0, in a line that it has still to enter with no TGT or ENT check (DESIGN CHOICE, log 10). -/
def Core.resetHub : Spoke := { Spoke.reset with ctx := .live, dom := 1, want := some .tret }

/-- A core at reset (R5). -/
def Core.reset : Core :=
  { hub := Core.resetHub, ctx := CoreCtx.reset, waiters := [], drop := 0, stale := 0, last := 15, lastCc := none, buckets := [] }

/-- The default trowel table (R203, R213): rules 0 to 5 with the headers of R213; bits above the headers DESIGN CHOICE, log 14. -/
def defaultTrowel : List (Nat × BitVec 256) :=
  let pos (p v m vm mm : Nat) : Nat := (v + m * 128 + vm * 2 ^ 14 + mm * 2 ^ 23) * 2 ^ (16 + 32 * p)
  let rep (r tpl op modx sa sb sc l2 gen : Nat) : Nat :=
    (tpl + op * 4 + modx * 2 ^ 9 + (sa + sb * 16 + sc * 256 + l2 * 4096) * 2 ^ 19 + gen * 2 ^ 35) * 2 ^ (180 + 38 * r)
  -- operand selectors of position p: operand + 4 × position
  let o (k p : Nat) : Nat := k + 4 * p
  [ (0, BitVec.ofNat 256 (0x4411 + pos 0 0x08 0x7F 0 0 + pos 1 0x08 0x7F 0 0
        + rep 0 0 0x08 0 (o 0 0) (o 1 0) (o 2 0) (o 3 0) 0)),
    (1, BitVec.ofNat 256 (0x0841 + pos 0 0x08 0x7F 0 0 + pos 1 0x00 0x7F 0 0x70
        + rep 0 1 0x00 0x40 (o 0 0) (o 1 1) (o 2 1) (o 3 1) 5)),
    (2, BitVec.ofNat 256 (0x0CC3 + pos 0 0x08 0x7F 0 0 + pos 1 0x08 0x7F 0 0 + pos 2 0x00 0x7F 0x10 0x70
        + rep 0 2 0x00 0x40 (o 0 0) (o 1 2) (o 2 2) (o 3 2) 5)),
    (3, BitVec.ofNat 256 (0x1041 + pos 0 0x08 0x7F 0 0 + pos 1 0x08 0x7F 0 0
        + rep 0 1 0x08 0 (o 0 0) (o 1 1) (o 2 1) (o 3 1) 1)),
    (4, BitVec.ofNat 256 (0x552B + pos 0 0x01 0x7F 0x30 0x30 + pos 1 0x02 0x7F 0 0 + pos 2 0x03 0x7F 0 0
        + rep 0 0 0x01 0 (o 0 0) (o 1 0) (o 2 0) (o 3 0) 2
        + rep 1 1 0x02 0 (o 0 1) (o 1 1) (o 2 1) (o 3 1) 3)),
    (5, BitVec.ofNat 256 (0x1831 + pos 0 0x01 0x7F 0 0x30 + pos 1 0x01 0x7F 0 0x30
        + rep 0 1 0x01 0 (o 0 1) (o 1 1) (o 2 1) (o 3 1) 4)) ]

/-- A half tile at reset: no VF resident (DESIGN CHOICE, log 1), the default table (R203). -/
def Half.reset : Half := ⟨0, defaultTrowel, none, 0, [], false⟩

/-- A ring at reset (R268): WEIGHT 1. -/
def Ring.reset : Ring := ⟨0, BitVec.ofNat 64 (2 ^ 32), 0, 0, []⟩

/-- A control block at reset (R278). -/
def Ctl.reset : Ctl := ⟨0, 0, 0, 0, 0⟩

/-- A function at reset (R277). -/
def Fn.reset : Fn :=
  { featdrv := 0, quiesced := true, ptroot := 0, dombase := 0, qtbase := 0, spmap := 0, invva := 0, invlen := 0
    regerr := 0, dropkick := 0, rring := .reset, tring := .reset, dring := .reset
    ctlNew := .reset, ctlAct := .reset, tlb := [], seen := [], descs := [] }

/-- A collective engine at reset: generation 0, not leased (DESIGN CHOICE, log 1). -/
def Engine.reset : Engine := ⟨0, .none, false⟩

/-- A link at reset (DESIGN CHOICE, log 1). -/
def Link.reset : Link := ⟨true, 0, 0⟩

/-- The default service mask (R258): core 15 of every tile whose number is a multiple of 6. -/
def defaultSvc : List Nat := (List.range 64).map (fun i => 96 * i + 15)

/-- The controller at reset (R258, R283, R288; the rest DESIGN CHOICE, log 1). -/
def Ctrl.reset : Ctrl :=
  { svcMask := defaultSvc, svcNext := none, svcBuf := [], port := 0, portNext := 0, fw := [], live := [], nv := [], hour0 := 0, lifeAt := 0
    mcmd := 0, mstat := 0, mdata := List.replicate 224 0, reply := none, quote := none, busy := false }

/-- The device right after reset: QUIESCED, every context free but those of the hubs, nothing listed in memory (R5, R258, R275, R277, R290). -/
def State.reset : State :=
  { cc := 0, refTimer := 0, refWas := 0, refRem := 0, clk := 1800, d3hot := false, power := true, tick := 0, agenda := []
    cur := ⟨0, 0, 0, 0, 0, false, false, false, false, false, false, false⟩, lastCore := 6143, nextId := 1
    cores := [], saved := [], savedImg := [], images := [], orphans := [], cycles := [], soft := none, halves := [], rcache := [], latches := [], recs := []
    cmds := [], pubs := [], tgrps := [], paneReqs := [], barArrs := [], mesh := [], waiters := []
    grps := [], pops := [], queues := [], pkts := [], graphs := [], lastQ := [], engines := [], leaseReqs := []
    links := [], binds := [], ended := [], fns := [], ringTurn := (0, 0), invals := [], ats := [], cxl := [], ctrl := .reset, msix := [], notices := []
    hbm := [], host := [], peer := [], scr := [], full := [], tb := [] }

end Sys2Proof.Machine
end

