-- ==== Sys2Proof/Machine/Base.lean ====
section
/-! DEFINITION. Geometry of the module and the accessors of State: cores, spokes, registers, functions, bytes of every memory. -/

namespace Sys2Proof.Machine

/-! Geometry (R3, R279, R388). -/

/-- The tile of a core. -/
def tileOf (c : Nat) : Nat := c / 16

/-- The half tile of a core, as 2t + h (R279). -/
def halfOf (c : Nat) : Nat := 2 * (c / 16) + c % 16 / 8

/-- Whether a core is a service core (R5, R258). -/
def isSvc (s : State) (c : Nat) : Bool := s.ctrl.svcMask.contains c

/-- A half tile. -/
def getHalf (s : State) (h : Nat) : Half := mget Half.reset s.halves h

/-- Writes a half tile. -/
def setHalf (s : State) (h : Nat) (x : Half) : State := { s with halves := mset s.halves h x }

/-- The VF resident on a core; 0 on a service core and where no VF is resident (log 9). -/
def vfOf (s : State) (c : Nat) : Nat := if isSvc s c then 0 else (getHalf s (halfOf c)).vf

/-! Cores and spokes. -/

/-- A core. -/
def getCore (s : State) (c : Nat) : Core := mget Core.reset s.cores c

/-- Writes a core. -/
def setCore (s : State) (c : Nat) (x : Core) : State := { s with cores := mset s.cores c x }

/-- The part of a core that belongs to a VF: live when the VF is resident, saved otherwise (R273). -/
def getCtx (s : State) (c v : Nat) : CoreCtx :=
  if vfOf s c = v then (getCore s c).ctx else mget CoreCtx.reset s.saved (v * 65536 + c)

/-- Writes the part of a core that belongs to a VF. -/
def setCtx (s : State) (c v : Nat) (x : CoreCtx) : State :=
  if vfOf s c = v then setCore s c { getCore s c with ctx := x } else { s with saved := mset s.saved (v * 65536 + c) x }

/-- A spoke; spoke 0 is the hub spoke of the core, whatever VF is resident. -/
def getSp (s : State) (c n v : Nat) : Spoke :=
  if n = 0 then (getCore s c).hub else mget Spoke.reset (getCtx s c v).spokes n

/-- Writes a spoke. -/
def setSp (s : State) (c n v : Nat) (x : Spoke) : State :=
  if n = 0 then setCore s c { getCore s c with hub := x }
  else setCtx s c v { getCtx s c v with spokes := mset (getCtx s c v).spokes n x }

/-- Updates a spoke. -/
def modSp (s : State) (c n v : Nat) (f : Spoke → Spoke) : State := setSp s c n v (f (getSp s c n v))

/-- Updates the part of a core that belongs to a VF. -/
def modCtx (s : State) (c v : Nat) (f : CoreCtx → CoreCtx) : State := setCtx s c v (f (getCtx s c v))

/-- Updates a core. -/
def modCore (s : State) (c : Nat) (f : Core → Core) : State := setCore s c (f (getCore s c))

/-- The issuing spoke. -/
def curSp (s : State) : Spoke := getSp s s.cur.core s.cur.sp s.cur.vf

/-- Writes the issuing spoke. -/
def setCur (s : State) (x : Spoke) : State := setSp s s.cur.core s.cur.sp s.cur.vf x

/-- Updates the issuing spoke. -/
def modCur (s : State) (f : Spoke → Spoke) : State := setCur s (f (curSp s))

/-- The issuing spoke as an owner. -/
def curOwner (s : State) : Owner := .spoke s.cur.core s.cur.sp s.cur.vf

/-- A fresh number. -/
def fresh (s : State) : Nat := s.nextId

/-- Counts a fresh number as used. -/
def bump (s : State) : State := { s with nextId := s.nextId + 1 }

/-! Registers (R15, R19 to R23). -/

/-- The value of a general register; g0 reads zero (R15). -/
def Spoke.rdG (p : Spoke) (r : Fin 32) : Word := if r = 0 then 0 else p.g[r].val

/-- The presence of a general register; g0 is always present (R15). -/
def Spoke.fullG (p : Spoke) (r : Fin 32) : Bool := r == 0 || p.g[r].full

/-- What a general register waits for. -/
def Spoke.pendG (p : Spoke) (r : Fin 32) : Pend := if r = 0 then .no else p.g[r].pend

/-- Writes and fills a general register; a write to g0 is discarded (R15, R22). -/
def Spoke.wrG (p : Spoke) (r : Fin 32) (x : Word) : Spoke :=
  if r = 0 then p else { p with g := p.g.set r ⟨x, true, .no⟩ }

/-- Consumes a general register; a sync read of g0 clears nothing (R15, R21). -/
def Spoke.clrG (p : Spoke) (r : Fin 32) : Spoke :=
  if r = 0 then p else { p with g := p.g.set r { p.g[r] with full := false } }

/-- Marks a general register empty and pending (R23); g0 is marked never (R363). -/
def Spoke.owe (p : Spoke) (r : Fin 32) (w : Pend) : Spoke :=
  if r = 0 then p else { p with g := p.g.set r { p.g[r] with full := false, pend := w } }

/-- The presence of a vector register. -/
def Spoke.fullV (p : Spoke) (r : Fin 8) : Bool := p.v[r].full

/-- Writes and fills a vector register. -/
def Spoke.wrV (p : Spoke) (r : Fin 8) (x : Vector Lane 32) : Spoke := { p with v := p.v.set r ⟨x, true, .no⟩ }

/-- Consumes a vector register. -/
def Spoke.clrV (p : Spoke) (r : Fin 8) : Spoke := { p with v := p.v.set r { p.v[r] with full := false } }

/-- Marks a vector register empty and pending. -/
def Spoke.oweV (p : Spoke) (r : Fin 8) (w : Pend) : Spoke :=
  { p with v := p.v.set r { p.v[r] with full := false, pend := w } }

/-- Merges flags; the hardware only ever sets flags (R170). -/
def Spoke.orFlags (p : Spoke) (f : BitVec 5) : Spoke := { p with flags := p.flags ||| f }

/-- A register number from a Nat. -/
def regN (n : Nat) : Fin 32 := ⟨n % 32, by omega⟩

/-! Functions (R277). -/

/-- A function. -/
def getFn (s : State) (f : Nat) : Fn := mget Fn.reset s.fns f

/-- Writes a function. -/
def setFn (s : State) (f : Nat) (x : Fn) : State := { s with fns := mset s.fns f x }

/-- Updates a function. -/
def modFn (s : State) (f : Nat) (g : Fn → Fn) : State := setFn s f (g (getFn s f))

/-- Whether a function has acknowledged a feature (R286). -/
def feature (s : State) (f bit : Nat) : Bool := bitN (getFn s f).featdrv bit

/-- Whether the half tile 2t + h is in a VF's HALVES (R278). -/
def inHalves (s : State) (v h : Nat) : Bool := bitN (getFn s v).ctlAct.halves h

/-- Whether a half tile is being vacated: a slice ends in it and no block names it any more, whichever VF is to come in (R279). -/
def vacating (s : State) (h : Nat) : Bool := (getHalf s h).vac

/-- Whether a core lies in a VF's partition (R27, R279). -/
def inPart (s : State) (v c : Nat) : Bool := !isSvc s c && inHalves s v (halfOf c)

/-- Whether a half tile is a VF's and the VF runs on it (R279); one that has left its HALVES is still its own while it is vacated. -/
def ownsHalf (s : State) (v h : Nat) : Bool := (inHalves s v h || vacating s h) && (getHalf s h).vf == v

/-- A collective engine. -/
def getEngine (s : State) (e : Nat) : Engine := mget Engine.reset s.engines e

/-! Bytes of every memory. -/

/-- Reads one byte. -/
def rdLoc (s : State) (l : Loc) : Byte :=
  match l.sp with
  | .hbm => rd s.hbm l.a | .host => rd s.host l.a | .peer => rd s.peer l.a
  | .scr => rd s.scr l.a | .tb => rd s.tb l.a | .stw => 0

/-- Writes one byte. A host line that is held under CXL.cache stays coherent: the write takes it out of the read caches (R283). -/
def wrLoc (s : State) (l : Loc) (b : Byte) : State :=
  match l.sp with
  | .hbm => { s with hbm := wr s.hbm l.a b }
  | .host =>
    { s with
      host := wr s.host l.a b
      rcache := if s.cxl.contains (l.a / 64) then
          s.rcache.map fun p => (p.1, p.2.filter fun r => !(r.sp == .host && r.a == l.a / 64))
        else s.rcache
      cxl := s.cxl.filter (· != l.a / 64) }
  | .peer => { s with peer := wr s.peer l.a b } | .scr => { s with scr := wr s.scr l.a b }
  | .tb => { s with tb := wr s.tb l.a b } | .stw => s

/-- The place `i` bytes further. -/
def Loc.plus (l : Loc) (i : Nat) : Loc := ⟨l.sp, l.a + i⟩

/-- Reads `n` bytes as a number (R8). -/
def rdN (s : State) (l : Loc) : Nat → Nat
  | 0 => 0
  | n + 1 => (rdLoc s l).toNat + 256 * rdN s (l.plus 1) n

/-- Writes `n` bytes of a number (R8). -/
def wrN (s : State) (l : Loc) : Nat → Nat → State
  | 0, _ => s
  | n + 1, x => wrN (wrLoc s l (BitVec.ofNat 8 x)) (l.plus 1) n (x / 256)

/-- Writes bytes from a place, in ascending order. -/
def wrList (s : State) (l : Loc) : List Byte → State
  | [] => s
  | b :: bs => wrList (wrLoc s l b) (l.plus 1) bs

/-- Reads `n` bytes of HBM as a number. -/
def hbmN (s : State) (a n : Nat) : Nat := rdN s ⟨.hbm, a⟩ n

/-! Owners and state images: where a fill of a command, request or lease lands (R49). -/

/-- Writes the bytes of an image, which the spec leaves open (log 11): `off` bytes of it stand on earlier pages. -/
def imageWrite (s : State) (stamp off : Nat) : List (Loc × Nat) → State
  | [] => s
  | (l, n) :: r =>
    imageWrite ((List.range n).foldl (fun s i => wrLoc s (l.plus i) (Config.imageByte stamp (off + i))) s) stamp (off + n) r

/-- Whether the bytes of an image stand as they were written. -/
def imageSame (s : State) (stamp off : Nat) : List (Loc × Nat) → Bool
  | [] => true
  | (l, n) :: r => (List.range n).all (fun i => rdLoc s (l.plus i) == Config.imageByte stamp (off + i)) && imageSame s stamp (off + n) r

/-- An image that does not exist. -/
def Image.none : Image := ⟨Spoke.reset, 0, 0, 0, 0, [], 0, 0⟩

/-- The contents of image `i` become `p`, in memory too (R49): where they change, its bytes are written anew; one whose bytes software has altered stays altered. -/
def setImage (s : State) (i : Nat) (x : Image) (p : Spoke) : State :=
  if p = x.sp then s
  else if imageSame s x.stamp 0 x.places then
    imageWrite { s with images := mset s.images i { x with sp := p, stamp := s.nextId }, nextId := s.nextId + 1 } s.nextId 0 x.places
  else { s with images := mset s.images i { x with sp := p } }

/-- The spoke an owner stands for; the state image's contents for a spilled one. -/
def ownerSp (s : State) : Owner → Spoke
  | .spoke c n v => getSp s c n v
  | .image i => (mget Image.none s.images i).sp
  | .gone => Spoke.reset

/-- Updates the spoke an owner stands for; nothing for a killed one. -/
def modOwner (s : State) (o : Owner) (f : Spoke → Spoke) : State :=
  match o with
  | .spoke c n v => modSp s c n v f
  | .image i =>
    if mhas s.images i then let x := mget Image.none s.images i; setImage s i x (f x.sp) else s
  | .gone => s

/-- Fills a register pending on `w`, wherever the spoke stands (R22, R49); a register that no longer waits for it is left. -/
def fillPend (s : State) (o : Owner) (r : Fin 32) (w : Pend) (x : Word) : State :=
  modOwner s o fun p => if r ≠ 0 ∧ p.pendG r = w then p.wrG r x else p

/-- Presence of the scratchpad word of a place (R25). -/
def present (s : State) (a : Nat) : Bool := mget false s.full (a / 8)

/-- Sets or clears the presence of the scratchpad word of a place. -/
def setPresent (s : State) (a : Nat) (b : Bool) : State := { s with full := mput false s.full (a / 8) b }

/-! Widths. -/

/-- Bytes of an access size (R74). -/
def sizeBytes : Size → Nat | .b => 1 | .h => 2 | .w => 4 | .d => 8

/-- Sign extension of the low `n` bits to 64 bits (R322). -/
def sext64 (n x : Nat) : Word :=
  if x % 2 ^ n < 2 ^ (n - 1) then BitVec.ofNat 64 (x % 2 ^ n) else BitVec.ofInt 64 ((x % 2 ^ n : Nat) - (2 ^ n : Nat) : Int)

/-- IMM48 sign-extended to 64 bits (R322). -/
def imm64 (i : BitVec 48) : Word := i.signExtend 64

/-! The program counter (R54). -/

/-- The line address of a PC. -/
def lineOf (pc : Word) : Word := pc &&& ~~~(63#64)

/-- The slot of a PC. -/
def slotOf (pc : Word) : Nat := pc.toNat % 8

/-- The sequential successor of a PC (R54). -/
def nextPc (pc : Word) : Word := if slotOf pc < 4 then pc + 1 else lineOf pc + 64

/-- A PC as R57 admits it: bits [5:3] zero, slot at most 4. -/
def pcOk (pc : Word) : Bool := pc.toNat / 8 % 8 == 0 && decide (pc.toNat % 8 ≤ 4)

/-- The target of a BR-format instruction (R58). -/
def brTarget (pc : Word) (t : BrTarget) : Word :=
  lineOf pc + (t.off.signExtend 64) * 64 + t.slot.zeroExtend 64

/-- The path of an address: VA[63:61] (R105). -/
def pathOf (va : Word) : Nat := va.toNat / 2 ^ 61

end Sys2Proof.Machine
end

