-- ==== Sys2Proof/Machine/Layout.lean ====
section
/-! DEFINITION. The layout word (R216 to R219) and LYTQ's answer (R222). -/

namespace Sys2Proof.Machine

/-- A layout word as its 128 bits. -/
def lword (lo hi : Word) : Nat := 2 ^ 64 * hi.toNat + lo.toNat

/-- ESZ. -/
def lEsz (l : Nat) : Nat := bitsN l 0 3

/-- RANK. -/
def lRank (l : Nat) : Nat := bitsN l 3 3

/-- PERMj. -/
def lPerm (l j : Nat) : Nat := bitsN l (6 + 3 * j) 3

/-- REVi. -/
def lRev (l i : Nat) : Bool := bitsN l (24 + i) 1 == 1

/-- SNB. -/
def lSnb (l : Nat) : Bool := bitsN l 30 1 == 1

/-- DNB. -/
def lDnb (l : Nat) : Bool := bitsN l 31 1 == 1

/-- The size of source dimension i. -/
def lSize (l i : Nat) : Nat := bitsN l (32 + 16 * i) 16 + 1

/-- Bits of an element (R216). -/
def lWidth (l : Nat) : Nat :=
  match lEsz l with | 0 => 4 | 1 => 6 | 2 => 8 | 3 => 16 | 4 => 32 | _ => 64

/-- The element count E (R217). -/
def lCount (l : Nat) : Nat := ((List.range (lRank l)).map (lSize l)).prod

/-- The byte count (R217). -/
def lBytes (l : Nat) : Nat := lCount l * lWidth l / 8

/-- The first check of R217 that fails, by its reason code; none for a valid word. -/
def lReason (l : Nat) : Option Nat :=
  let r := lRank l
  let ps := (List.range r).map (lPerm l)
  if lEsz l ≥ 6 then some 1
  else if r = 0 ∨ r = 7 then some 2
  else if !(ps.all (· < r)) || ps.dedup.length != r || (List.range 6).any (fun j => decide (r ≤ j) && lPerm l j != 0) then some 3
  else if (List.range 6).any (fun i => decide (r ≤ i) && lRev l i) then some 4
  else if ((lSnb l || lDnb l) && lEsz l != 0) then some 5
  else if (List.range 6).any (fun i => decide (r ≤ i) && lSize l i != 1) then some 6
  else if (lEsz l = 0 ∧ lCount l % 2 = 1) ∨ (lEsz l = 1 ∧ lCount l % 4 ≠ 0) then some 7
  else if lBytes l > 2 ^ 32 then some 8
  else none

/-- The answer of LYTQ (R222). -/
def lytqWord (l : Nat) : Word :=
  match lReason l with
  | none => BitVec.ofNat 64 (lBytes l)
  | some k => BitVec.ofNat 64 (2 ^ 63 + k * 256 + 2)

/-- The sizes of the source dimensions (R218). -/
def lSizes (l : Nat) : List Nat := (List.range (lRank l)).map (lSize l)

/-- The sizes of the destination dimensions (R218). -/
def lDSizes (l : Nat) : List Nat := (List.range (lRank l)).map fun j => lSize l (lPerm l j)

/-- Lin(x, s) of R218. -/
def lin : List Nat → List Nat → Nat
  | x :: xs, s :: ss => x + s * lin xs ss
  | _, _ => 0

/-- The index that a linear position has: the inverse of Lin. -/
def unlin : Nat → List Nat → List Nat
  | _, [] => []
  | n, s :: ss => (n % s) :: unlin (n / s) ss

/-- The source element that a destination element takes (R218). -/
def lSource (l n : Nat) : Nat :=
  let o := unlin n (lDSizes l)
  let x := (List.range (lRank l)).map fun i =>
    let j := ((List.range (lRank l)).find? fun j => lPerm l j == i).getD 0
    let oj := o.getD j 0
    if lRev l i then lSize l i - 1 - oj else oj
  lin x (lSizes l)

/-- Whether two layout words compose (R219). -/
def lComposes (l1 l2 : Nat) : Bool :=
  lEsz l1 == lEsz l2 && lRank l1 == lRank l2 && lSizes l2 == lDSizes l1

/-- The composition of two layout words (R219). -/
def lCompose (l1 l2 : Nat) : Nat :=
  let r := lRank l1
  let perm := (List.range r).map fun j => lPerm l1 (lPerm l2 j) * 2 ^ (6 + 3 * j)
  let rev := (List.range r).map fun k =>
    let i := lPerm l1 k
    (xor (lRev l1 i) (lRev l2 k)).toNat * 2 ^ (24 + i)
  lEsz l1 + r * 8 + perm.sum + rev.sum + (lSnb l1).toNat * 2 ^ 30 + (lDnb l2).toNat * 2 ^ 31
    + ((List.range 6).map fun i => bitsN l1 (32 + 16 * i) 16 * 2 ^ (32 + 16 * i)).sum

/-- Whether a layout word is the identity (R219). -/
def lIdentity (l : Nat) : Bool :=
  (List.range (lRank l)).all (fun j => lPerm l j == j && !lRev l j) && lSnb l == lDnb l

/-- Whether a layout word exchanges its two dimensions (predicates 2 and 3 of R204). -/
def lExchange (l : Nat) : Bool :=
  lRank l == 2 && lPerm l 0 == 1 && lPerm l 1 == 0 && bitsN l 24 8 == 0

end Sys2Proof.Machine
end

