-- ==== Sys2Proof/Machine/Access.lean ====
section
/-! DEFINITION. Translation (R121 to R125), domain rights (R80 to R86), and the order of checks of an access (R126). -/

namespace Sys2Proof.Machine

/-- A plain fault at an address. -/
def errAt (code : FaultCode) (va : Word) (acc : Nat) : FErr := ⟨code, va, acc, false, false, false⟩

/-- Stage 2: the HBM address of a VF-relative one (R125). Function 0 has no segment (log 9). -/
def stage2 (s : State) (v p : Nat) : Option Nat :=
  if v = 0 then if p < Config.hbmSize then some p else none
  else
    let c := (getFn s v).ctlAct
    if p < c.segsize.toNat then some (c.segbase.toNat + p) else none

/-- Stage 2 over a range of `n` bytes. -/
def stage2N (s : State) (v p n : Nat) : Option Nat :=
  match stage2 s v p, stage2 s v (p + n - 1) with
  | some a, some _ => some a
  | _, _ => none

/-- Bits of a page-table entry or leaf (R122). -/
def pteV (e : Word) : Bool := bitN e 0

/-- LEAF. -/
def pteLeaf (e : Word) : Bool := bitN e 1

/-- R. -/
def pteR (e : Word) : Bool := bitN e 2

/-- W. -/
def pteW (e : Word) : Bool := bitN e 3

/-- X. -/
def pteX (e : Word) : Bool := bitN e 4

/-- E. -/
def pteE (e : Word) : Bool := bitN e 5

/-- FRAME, as an address. -/
def pteFrame (e : Word) : Nat := fieldN e 12 40 * 4096

/-- DT. -/
def pteDT (e : Word) : BitVec 8 := BitVec.ofNat 8 (fieldN e 52 8)

/-- TT. -/
def pteTT (e : Word) : Nat := fieldN e 60 3

/-- R122, R123: a physical-address bit that the leaf's TT requires to be zero is set. -/
def frameHigh (tt frame : Nat) : Bool :=
  if tt = 0 then decide (frame ≥ 2 ^ 40) else if tt = 2 then decide (frame ≥ 2 ^ 29)
  else if tt = 3 then decide (frame ≥ 2 ^ 30) else if tt = 5 then decide (frame ≥ 2 ^ 50) else false

/-- A malformed entry (R122): `lvl` 0 to 3, `bits` the leaf offset bits at that level, `tbits` the alignment of the next table. -/
def malformed (lvl bits tbits : Nat) (e : Word) : Bool :=
  fieldN e 6 6 != 0 || bitN e 63 ||
  (if pteLeaf e then
    lvl == 0 || pteFrame e % 2 ^ bits != 0
      || (lvl != 3 && (pteTT e == 2 || pteTT e == 3 || pteTT e == 4)) || frameHigh (pteTT e) (pteFrame e)
   else lvl == 3 || pteFrame e % 2 ^ tbits != 0)

/-- The end of a walk: a leaf with its offset bits, a page not present (or malformed), or a stage-2 failure of a walk read. -/
inductive Walk where
  | leaf (e : Word) (bits : Nat)
  | absent (mal : Bool)
  | seg
deriving DecidableEq, Repr

/-- The levels of the walk: level, index shift, index bits, leaf offset bits, alignment of the next table (R121). -/
def levels : List (Nat × Nat × Nat × Nat × Nat) :=
  [(0, 46, 11, 46, 14), (1, 35, 11, 35, 14), (2, 24, 11, 24, 12), (3, 15, 9, 15, 12)]

/-- The walk from a table (R121, R122). -/
def walkFrom (s : State) (v va : Nat) : List (Nat × Nat × Nat × Nat × Nat) → Nat → Walk
  | [], _ => .absent true
  | (lvl, sh, ib, bits, tbits) :: r, table =>
    match stage2N s v (table + 8 * bitsN va sh ib) 8 with
    | none => .seg
    | some a =>
      let e := BitVec.ofNat 64 (hbmN s a 8)
      if !pteV e then .absent false
      else if malformed lvl bits tbits e then .absent true
      else if pteLeaf e then .leaf e bits
      else walkFrom s v va r (pteFrame e)

/-- The walk of VA[56:0] through a VF's tables (R121). -/
def walk (s : State) (v va : Nat) : Walk := walkFrom s v va levels (getFn s v).ptroot.toNat

/-- The cached leaf of an address, if one is held. -/
def tlbFind (l : List TlbEnt) (va : Nat) : Option TlbEnt := l.find? (fun e => e.lo ≤ va && va < e.lo + 2 ^ e.bits)

/-- Translation of VA[56:0]: through the VF's cache, which may serve the old entry until it is invalidated (R85, R270; log 7). The choice is free for each address. -/
def transl (s : State) (v va : Nat) : Walk :=
  let now := walk s v va
  match tlbFind (getFn s v).tlb va with
  | some e =>
    let old := Walk.leaf e.leaf e.bits
    if now = old then now else if Config.useCached s.tick (2 * va) then old else now
  | none => now

/-- Holds a leaf in the VF's translation cache, where the first one of an address stays, and in the record of the leaves used, which keeps every one (R112, R270). -/
def noteTlb (s : State) (v va : Nat) (e : Word) (bits : Nat) : State :=
  let x : TlbEnt := ⟨va / 2 ^ bits * 2 ^ bits, bits, e⟩
  if (tlbFind (getFn s v).tlb va).isSome ∧ (getFn s v).seen.contains x then s
  else modFn s v fun f =>
    { f with tlb := if (tlbFind f.tlb va).isSome then f.tlb else x :: f.tlb
             seen := if f.seen.contains x then f.seen else x :: f.seen }

/-- An 8-byte word of the domain descriptor table and rights matrix, by its offset from DOMBASE: through the cache (R85; log 7), none when stage 2 fails (R125). `key` tells the checks of one step apart: each takes the old or the new value. -/
def domWord (s : State) (v off key : Nat) : Option Word :=
  let mem : Option Word := (stage2N s v ((getFn s v).dombase.toNat + off) 8).map fun a => BitVec.ofNat 64 (hbmN s a 8)
  match (getFn s v).descs.find? (fun p => p.1 == off) with
  | some p =>
    let old := some (BitVec.ofNat 64 p.2)
    if mem = old then mem else if Config.useCached s.tick (2 * (off + 65536 * key) + 1) then old else mem
  | none => mem

/-- Holds a word of the tables in the cache. -/
def noteDom (s : State) (v off : Nat) : State :=
  match domWord s v off 0 with
  | none => s
  | some w =>
    if (getFn s v).descs.any (fun p => p.1 == off) then s
    else modFn s v fun f => { f with descs := (off, w.toNat) :: f.descs }

/-- Word `i` of the descriptor of a domain (R81), as the check numbered `key` reads it. -/
def descWord (s : State) (v : Nat) (d : BitVec 8) (i key : Nat) : Option Word := domWord s v (32 * d.toNat + 8 * i) key

/-- A check of bit [64 × i + b] of a domain's descriptor (R81 to R84): `code` where it is 0, SEGMENT where its read does not pass stage 2 (R125). -/
def descNeeds (s : State) (v : Nat) (d : BitVec 8) (i b : Nat) (code : FaultCode) : Option FaultCode :=
  match descWord s v d i b with
  | none => some .segment
  | some w => if bitN w b then none else some code

/-- VALID of a domain (R81, R83). -/
def domInvalid (s : State) (v : Nat) (d : BitVec 8) : Option FaultCode := descNeeds s v d 1 0 .execDenied

/-- Whether bit [64 + i] of a domain's descriptor reads as 1 (R81). -/
def domBit (s : State) (v : Nat) (d : BitVec 8) (i : Nat) : Bool := (descNeeds s v d 1 i .engineRight).isNone

/-- An engine right, bit [64 + i] (R81, R83). -/
def engDenied (s : State) (v : Nat) (d : BitVec 8) (i : Nat) : Option FaultCode := descNeeds s v d 1 i .engineRight

/-- SRRD bit n (R81, R82). -/
def srrdDenied (s : State) (v : Nat) (d : BitVec 8) (n : Nat) : Option FaultCode := descNeeds s v d 2 n .stateRight

/-- SRWR bit n (R81, R82). -/
def srwrDenied (s : State) (v : Nat) (d : BitVec 8) (n : Nat) : Option FaultCode := descNeeds s v d 2 (16 + n) .stateRight

/-- TRAPV of a domain; a read that fails counts as 0 (R264). -/
def trapVec (s : State) (v : Nat) (d : BitVec 8) : Word := (descWord s v d 0 0).getD 0

/-- The kernel domain (R79). -/
def kernelDom : BitVec 8 := 0x01

/-- Right(d, o) of R80 as the check of address `va` reads it; none when the matrix does not pass stage 2 (R125). -/
def right (s : State) (v : Nat) (d o : BitVec 8) (va : Nat) : Option Nat :=
  if o = 0 then some (if d = kernelDom then 3 else 0)
  else if o = d then some 3
  else if d = 0 then some 0
  else (domWord s v (0x2000 + 64 * d.toNat + (2 * o.toNat / 64) * 8) va).map fun w => fieldN w (2 * o.toNat % 64) 2

/-- Whether an open lend to the domain covers a range (R86, R93). -/
def lendCovers (d : BitVec 8) (a : Word) (n : Nat) (needWrite : Bool) (l : Lend) : Bool :=
  l.st == .opened && l.lendee == d && decide (l.base.toNat ≤ a.toNat)
    && decide (a.toNat + n ≤ l.base.toNat + l.len) && (!needWrite || l.rw)

/-- Whether a lend of a snapshot covers a range (R94, R95). -/
def snapCovers (a n : Nat) (needWrite : Bool) (l : Snap) : Bool :=
  decide (l.base.toNat ≤ a) && decide (a + n ≤ l.base.toNat + l.len) && (!needWrite || l.rw)

/-- The half of a tile that owns a window offset (R108, R280). -/
def tbHalf (off : Nat) : Nat :=
  if off < 0x080000 then off / 0x040000
  else if off < 0x180000 then (off - 0x080000) / 0x080000
  else (off - 0x180000) / 0x040000

/-- Which buffer a window offset lies in (R108): 0 WB, 1 XB, 2 AB. -/
def tbBuf (off : Nat) : Nat := if off < 0x080000 then 0 else if off < 0x180000 then 1 else 2

/-- TT 0, 1, 5 (R106, paths 0b000 and 0b001). -/
def ttGeneral (tt : Nat) : Bool := tt == 0 || tt == 1 || tt == 5

/-- The TT that a path admits (R106). -/
def pathTT (path tt : Nat) : Bool :=
  if path = 0 ∨ path = 1 then ttGeneral tt
  else if path = 2 ∨ path = 4 then tt == 3
  else if path = 3 then tt == 2
  else if path = 5 then tt == 4 else false

/-- A resolved byte: its place, the leaf, the offset bits of its page. -/
structure Res where
  loc : Loc
  leaf : Word
  bits : Nat
deriving DecidableEq, Repr

/-- R105, check 1 of R126. -/
def pathBad (va : Word) : Bool := decide (pathOf va ≥ 6) || fieldN va 57 4 != 0

/-- The place a leaf gives an address, for a spoke or engine of a core (R123, R110, R111). -/
def placeOf (core : Nat) (va e : Word) (bits : Nat) : Loc :=
  let pa := pteFrame e + va.toNat % 2 ^ bits
  let tt := pteTT e
  if tt = 0 then ⟨.hbm, pa⟩ else if tt = 1 then ⟨.host, pa⟩ else if tt = 2 then ⟨.scr, pa⟩
  else if tt = 3 then ⟨.tb, if pathOf va = 2 then tileOf core * 2 ^ 21 + pa % 2 ^ 21 else pa⟩
  else if tt = 4 then ⟨.stw, pa⟩ else ⟨.peer, pa⟩

/-- Check 4 of R126: the target type against the path and the instruction (`ttOk`), reserved TT, core and tile numbers, the state window's end, PEER not acknowledged (R286). -/
def placeBad (s : State) (v : Nat) (va e : Word) (l : Loc) (ttOk : Nat → Bool) : Bool :=
  let tt := pteTT e
  !pathTT (pathOf va) tt || !ttOk tt || (tt == 2 && decide (l.a / 65536 > 6143))
    || (tt == 3 && decide (l.a / 2 ^ 21 > 383)) || (tt == 4 && decide (l.a ≥ 0x80)) || (tt == 5 && !feature s v 4)

/-- Check 6 of R126: stage 2, the partition and the peer binding (R110, R123, R125, R280, R285); gives the final place. -/
def partition (s : State) (v : Nat) (e : Word) (l : Loc) : Option Loc :=
  let tt := pteTT e
  if tt = 0 then (stage2 s v l.a).map fun a => ⟨.hbm, a⟩
  else if tt = 2 then
    let c := l.a / 65536
    if isSvc s c || ownsHalf s v (halfOf c) then some l else none
  else if tt = 3 then
    if ownsHalf s v (2 * (l.a / 2 ^ 21) + tbHalf (l.a % 2 ^ 21)) then some l else none
  else if tt = 5 then if mhas s.binds (v * 1024 + l.a / 2 ^ 40) then some l else none
  else some l

/-- Checks 3 to 6 of R126 for one byte of a page. `rights` says whether check 5 is made: none, read or write. -/
def resolve (s : State) (core v : Nat) (va : Word) (need : Option Bool) (acc : Nat) (ttOk : Nat → Bool) : Except FErr Res :=
  match transl s v (va.toNat % 2 ^ 57) with
  | .absent m => .error ⟨.notPresent, va, acc, m, false, false⟩
  | .seg => .error (errAt .segment va acc)
  | .leaf e bits =>
    let l := placeOf core va e bits
    if placeBad s v va e l ttOk then .error (errAt .path va acc)
    else if (need == some false && !pteR e) || (need == some true && !pteW e) then
      .error ⟨.notPresent, va, acc, false, true, false⟩
    else
      match partition s v e l with
      | none => .error (errAt .segment va acc)
      | some l' => .ok ⟨l', e, bits⟩

/-- Check 7 of R126 for a spoke access that lies on one page (R86). -/
def rightsOk (s : State) (v : Nat) (d : BitVec 8) (lends : List Lend) (va : Word) (n : Nat) (w : Bool) (owner : BitVec 8) :
    Except FaultCode Unit :=
  if lends.any (lendCovers d va n w) then .ok ()
  else
    match right s v d owner va.toNat with
    | none => .error .segment
    | some r =>
      if w then if r < 2 then .error .domainWrite else .ok ()
      else if r < 1 then .error .domainRead else .ok ()

/-- A host page's key in the ATS cache (R267); host pages of 4 KiB. -/
def atsKey (v a : Nat) : Nat := v * 2 ^ 52 + a / 4096

/-- R267, R286: a TT 1 access that misses in the ATS cache asks the host, or is denied when ATSPRI is not acknowledged. -/
def atsCheck (s : State) (v : Nat) (va : Word) (acc : Nat) (l : Loc) : Except FErr Unit :=
  if l.sp = .host ∧ ¬ mhas s.ats (atsKey v l.a) then
    if feature s v 1 then .error ⟨.notPresent, va, acc, false, false, true⟩ else .error (errAt .hostDenied va acc)
  else .ok ()

/-- Checks 3 to 7 of R126, for a spoke access of `n` bytes on one page. -/
def mapped (s : State) (core v : Nat) (d : BitVec 8) (lends : List Lend) (va : Word) (n : Nat) (w : Bool) (acc : Nat)
    (ttOk : Nat → Bool) : Except FErr Res :=
  match resolve s core v va (some w) acc ttOk with
  | .error e => .error e
  | .ok r =>
    match rightsOk s v d lends va n w (pteDT r.leaf) with
    | .error c => .error (errAt c va acc)
    | .ok _ => .ok r

/-- Checks 3 to 7 of R126 and the host's page request after them (R267). -/
def checked (s : State) (core v : Nat) (d : BitVec 8) (lends : List Lend) (va : Word) (n : Nat) (w : Bool) (acc : Nat)
    (ttOk : Nat → Bool) : Except FErr Res :=
  match mapped s core v d lends va n w acc ttOk with
  | .error e => .error e
  | .ok r =>
    match atsCheck s v va acc r.loc with
    | .error e => .error e
    | .ok _ => .ok r

/-- Holds what an access used in the caches of its VF. -/
def noteRes (s : State) (v : Nat) (d : BitVec 8) (va : Word) (r : Res) : State :=
  let s := noteTlb s v (va.toNat % 2 ^ 57) r.leaf r.bits
  let o := pteDT r.leaf
  if o = 0 ∨ o = d then s else noteDom s v (0x2000 + 64 * d.toNat + (2 * o.toNat / 64) * 8)

/-- What a check of a page that was denied, or that an engine makes, has used stays in the caches of the VF (R85). -/
def noteVa (s : State) (v : Nat) (d : BitVec 8) (va : Word) : State :=
  match transl s v (va.toNat % 2 ^ 57) with
  | .leaf e bits => noteRes s v d va ⟨⟨.hbm, 0⟩, e, bits⟩
  | _ => s

/-- The words of a domain's descriptor that checks use are held in the cache: TRAPV, the engine rights, the state rights (R81, R85). -/
def noteDescs (s : State) (v : Nat) (d : BitVec 8) : State :=
  noteDom (noteDom (noteDom s v (32 * d.toNat)) v (32 * d.toNat + 8)) v (32 * d.toNat + 16)

/-- The checks of a domain over the parts of a range, each within a page, have used what the tables say of them (R85). -/
def notePages (s : State) (v : Nat) (d : BitVec 8) (ps : List (Nat × Nat)) : State :=
  ps.foldl (fun s p => noteVa s v d (BitVec.ofNat 64 p.1)) s

/-- Access of the dispatcher and the start-record reader: the walk and stage 2, with no domain rights (R244). -/
def resolveVf (s : State) (v : Nat) (va : Word) (need : Option Bool) (ttOk : Nat → Bool) : Except FErr Res :=
  if pathBad va then .error (errAt .path va 1) else resolve s 0 v va need 1 ttOk

end Sys2Proof.Machine
end

