-- ==== Sys2Proof/Machine/Rings.lean ====
section
/-! DEFINITION. Fault rings (R262, R268, R269), fault waiters and tokens (R260, R261), MSI-X. -/

namespace Sys2Proof.Machine

/-! Rings. -/

/-- LOG2N of a ring. -/
def Ring.log2n (r : Ring) : Nat := fieldN r.ctl 0 5

/-- VEC of a ring. -/
def Ring.vec (r : Ring) : Nat := fieldN r.ctl 16 11

/-- EN of a ring. -/
def Ring.en (r : Ring) : Bool := bitN r.ctl 40

/-- LOC of a ring. -/
def Ring.loc (r : Ring) : Bool := bitN r.ctl 41

/-- Sets OVF of a ring (R268). -/
def Ring.setOvf (r : Ring) : Ring := { r with ctl := r.ctl ||| BitVec.ofNat 64 (2 ^ 42) }

/-- Records in the ring that the driver has not consumed. -/
def Ring.used (r : Ring) : Nat := (r.pidx - r.cidx).toNat

/-- Whether the ring can take a record now (R269). -/
def Ring.room (r : Ring) : Bool := r.en && decide (r.used < 2 ^ r.log2n)

/-- The INFO word of a record (R262). -/
def RingRec.word (r : RingRec) : Word :=
  BitVec.ofNat 64 (r.code + r.acc * 2 ^ 8 + r.mal.toNat * 2 ^ 12 + r.perm.toNat * 2 ^ 13 + r.dom.toNat * 2 ^ 14
    + (min r.merge 255) * 2 ^ 22 + (min r.more 255) * 2 ^ 30 + r.xfer.toNat * 2 ^ 38)

/-- The 32 bytes of a record as a number (R262). -/
def RingRec.num (r : RingRec) : Nat :=
  r.token.toNat + r.va.toNat * 2 ^ 64 + r.pc.toNat * 2 ^ 128 + r.word.toNat * 2 ^ 192

/-- A terminal record with no waiter (R262). -/
def termRec (code : Nat) (va pc : Word) (acc : Nat) (dom : BitVec 8) (more : Nat) : RingRec :=
  ⟨0, va, pc, code, acc, false, false, dom, 0, more, false⟩

/-- A ring of a function. -/
def Fn.ring (f : Fn) : RingSel → Ring
  | .retry => f.rring | .terminal => f.tring | .device => f.dring

/-- Writes a ring of a function. -/
def Fn.setRing (f : Fn) (k : RingSel) (r : Ring) : Fn :=
  match k with
  | .retry => { f with rring := r } | .terminal => { f with tring := r } | .device => { f with dring := r }

/-- A record reaches a terminal or device ring: kept to be written, or dropped with OVF where the ring is full or disabled (R269). -/
def postDrop (s : State) (fn : Nat) (k : RingSel) (r : RingRec) : State :=
  modFn s fn fun f =>
    let g := f.ring k
    if g.room then f.setRing k { g with held := g.held ++ [(r, none)] } else f.setRing k g.setOvf

/-- A terminal record to a VF's terminal ring (R266, R231). -/
def postTerm (s : State) (v : Nat) (r : RingRec) : State := postDrop s v .terminal r

/-- A record to the PF device ring. -/
def postDev (s : State) (r : RingRec) : State := postDrop s 0 .device r

/-- A lifetime counter counts one more (R288): code, index, bin. -/
def countLife (s : State) (code idx bin : Nat) : State :=
  let k := code * 2 ^ 32 + idx * 2 ^ 16 + bin
  { s with ctrl := { s.ctrl with live := mset s.ctrl.live k (mget 0 s.ctrl.live k + 1) } }

/-- The hour of operation: a run after a reset begins a new one (R288, log 59). -/
def hourNow (s : State) : Nat := s.ctrl.hour0 + s.refTimer / 6480000000000

/-- A message-signalled interrupt. -/
def sendMsix (s : State) (fn vec : Nat) : State := { s with msix := s.msix ++ [⟨fn, vec⟩] }

/-- Where record number `pidx` of a ring stands, and whether it lies where the ring may write (R268, R269). -/
def Ring.slotLoc (s : State) (fn : Nat) (r : Ring) : Option Loc :=
  let a := r.base.toNat + 32 * (r.pidx.toNat % 2 ^ r.log2n)
  if r.loc then (stage2N s fn a 32).map fun p => ⟨.hbm, p⟩ else some ⟨.host, a⟩

/-- The I/O die writes the first held record of a ring (R269). -/
def ringWrite (s : State) (fn : Nat) (k : RingSel) : State :=
  let f := getFn s fn
  let r := f.ring k
  match r.held with
  | [] => s
  | (x, slot) :: rest =>
    if !r.room then s
    else
      match r.slotLoc s fn with
      | none =>
        if k = .retry then s else setFn s fn (f.setRing k { r with held := rest }.setOvf)
      | some l =>
        let s1 := setFn s fn (f.setRing k { r with held := rest, pidx := r.pidx + 1 })
        let s2 := wrN s1 l 32 x.num
        let s3 := match slot with
          | none => s2
          | some (c, i) => modCore s2 c fun co =>
              let ws := mget (⟨0, none⟩ : WSlot) co.waiters i
              { co with waiters := mset co.waiters i { ws with w := ws.w.map fun w => { w with written := true } } }
        let s4 := if k = .device then s3 else countLife s3 5 0 (hourNow s3)
        if r.used = 0 then sendMsix s4 fn r.vec else s4

/-! Fault waiters. -/

/-- A slot of a core. -/
def getSlot (s : State) (c i : Nat) : WSlot := mget (⟨0, none⟩ : WSlot) (getCore s c).waiters i

/-- Writes a slot of a core. -/
def setSlot (s : State) (c i : Nat) (w : WSlot) : State :=
  modCore s c fun co => { co with waiters := mset co.waiters i w }

/-- The token of a slot (R260). -/
def tokenOf (c i : Nat) (gen : BitVec 32) : Word := BitVec.ofNat 64 (c + i * 2 ^ 16 + gen.toNat * 2 ^ 22)

/-- Who faults: a spoke or an engine command (R261). -/
inductive Faulter where
  | owner (o : Owner)
  | cmd (id : Nat)
deriving DecidableEq, Repr

/-- Adds a faulter to a waiter. -/
def Waiter.join (w : Waiter) : Faulter → Waiter
  | .owner o => { w with owners := w.owners ++ [o] }
  | .cmd i => { w with cmds := w.cmds ++ [i] }

/-- The slot of a core that holds a merge key (R261), if any. -/
def slotWith (s : State) (c : Nat) (p : Waiter → Bool) : Option Nat :=
  (List.range 64).find? fun i => match (getSlot s c i).w with | some w => p w | none => false

/-- The lowest free slot of a core (R261), if any. -/
def slotFree (s : State) (c : Nat) : Option Nat := (List.range 64).find? fun i => (getSlot s c i).w.isNone

/-- Joins or takes a fault waiter of the core (R261, R267): the state, and the slot taken; none when all 64 are taken. The merge key is the page, the path and the access kind, whether or not the host is asked. A record goes to the VF's retryable ring unless the host is asked. -/
def takeWaiter (s : State) (c v : Nat) (who : Faulter) (e : FErr) (pc : Word) (dom : BitVec 8) : Option (State × Nat) :=
  let page := bitsN e.va.toNat 15 42
  let path := pathOf e.va
  match slotWith s c (fun w => w.vf == v && w.page == page && w.path == path && w.acc == e.acc) with
  | some i =>
    let ws := getSlot s c i
    let s1 := setSlot s c i { ws with w := ws.w.map fun w => w.join who }
    let s2 := modFn s1 v fun f => { f with rring := { f.rring with
      held := f.rring.held.map fun p => if p.2 = some (c, i) then ({ p.1 with merge := p.1.merge + 1 }, p.2) else p } }
    some (s2, i)
  | none =>
    match slotFree s c with
    | none => none
    | some i =>
      let gen := (getSlot s c i).gen
      let r : RingRec := ⟨tokenOf c i gen, e.va, pc, FaultCode.notPresent.num, e.acc, e.mal, e.perm, dom, 1, 0, false⟩
      let w : Waiter := { vf := v, page := page, path := path, acc := e.acc, owners := [], cmds := [], host := e.host
                          written := false, info := r }
      let s1 := setSlot s c i ⟨gen, some (w.join who)⟩
      if e.host then some (s1, i)
      else some (modFn s1 v fun f => { f with rring := { f.rring with held := f.rring.held ++ [(r, some (c, i))] } }, i)

/-- Frees a slot: GEN rises (R260, R263). A record that it still held, not written yet, is gone with it (DESIGN CHOICE, log 104: the spec does not say). -/
def freeSlot (s : State) (c i : Nat) : State :=
  let ws := getSlot s c i
  let s1 := setSlot s c i ⟨ws.gen + 1, none⟩
  match ws.w with
  | none => s1
  | some w => modFn s1 w.vf fun f => { f with rring := { f.rring with
      held := f.rring.held.filter fun p => p.2 != some (c, i) } }

/-- Takes a faulter out of every slot of a core; a slot left with nobody is freed (R267, R338). -/
def leaveSlots (s : State) (c : Nat) (drop : Waiter → Waiter) : State :=
  (List.range 64).foldl (fun s i =>
    match (getSlot s c i).w with
    | none => s
    | some w =>
      let w' := drop w
      if w' = w then s
      else if w'.owners.isEmpty && w'.cmds.isEmpty then freeSlot s c i
      else setSlot s c i ⟨(getSlot s c i).gen, some w'⟩) s

/-- A killed spoke leaves its slot, on whatever core it took it (R267, R400). -/
def leaveOwner (s : State) (o : Owner) : State :=
  (s.cores.map (·.1)).foldl (fun s c => leaveSlots s c fun w => { w with owners := w.owners.filter (· != o) }) s

/-- A cancelled command leaves its slot (R338). -/
def leaveCmd (s : State) (c id : Nat) : State :=
  leaveSlots s c fun w => { w with cmds := w.cmds.filter (· != id) }

end Sys2Proof.Machine
end

