-- ==== Sys2Proof/Machine/Banks.lean ====
section
/-! DEFINITION. Operations at the banks: presence (R25, R26), outstanding accesses, the read cache (R112), signals (R250, R251), barriers (R41), groups (R39), messages and inboxes (R27 to R32), kicks (R242 to R244). -/

namespace Sys2Proof.Machine

/-! Presence words. -/

/-- The VF of an owner. -/
def ownerVf (s : State) : Owner → Nat
  | .spoke _ _ v => v
  | .image i => (mget Image.none s.images i).vf
  | .gone => 0

/-- Whether an owner is a hub spoke, which serves every VF of its core (R33). -/
def Owner.isHub : Owner → Bool
  | .spoke _ n _ => n == 0
  | _ => false

/-- Whether a waiter waits at the scratchpad that stands there now: that of the VF on the half tile (R280). -/
def hereNow (s : State) (w : BankWaiter) : Bool :=
  w.loc.sp != .scr || Owner.isHub w.owner || isSvc s (w.loc.a / 65536) || ownerVf s w.owner == (getHalf s (halfOf (w.loc.a / 65536))).vf

/-- Splits the waiters at a scratchpad word into those a fill serves and the rest; the flag says that an LD.S consumed it (R26). -/
def splitServe (here : BankWaiter → Bool) (a : Nat) : List BankWaiter → List BankWaiter × List BankWaiter × Bool
  | [] => ([], [], false)
  | w :: r =>
    if w.loc = ⟨.scr, a⟩ ∧ here w then
      match w.want with
      | .ldS _ => ([w], r, true)
      | .ldF _ => let x := splitServe here a r; (w :: x.1, x.2.1, x.2.2)
      | _ => let x := splitServe here a r; (x.1, w :: x.2.1, x.2.2)
    else let x := splitServe here a r; (x.1, w :: x.2.1, x.2.2)

/-- Releases a bank waiter with a value for its register. -/
def releaseBank (s : State) (w : BankWaiter) (x : Word) : State :=
  modOwner s w.owner fun p =>
    let q := { p with park := .none }
    match w.want with
    | .ldF d | .ldS d | .sem _ d _ | .tl d _ => q.wrG d x
    | .bar => q

/-- A fill of a scratchpad word that holds its data: sets presence and serves the waiters (R26). -/
def fillWord (s : State) (a : Nat) : State :=
  let x := splitServe (hereNow s) a s.waiters
  let v := BitVec.ofNat 64 (rdN s ⟨.scr, a⟩ 8)
  let s1 := { setPresent s a (!x.2.2) with waiters := x.2.1 }
  x.1.foldl (fun s w => releaseBank s w v) s1

/-- ST.F at the bank (R25, R26). -/
def storeF (s : State) (a x : Nat) : State := fillWord (wrN s ⟨.scr, a⟩ 8 x) a

/-! Kicks. -/

/-- A field of a queue descriptor (R242): address of the descriptor in HBM. -/
def queueDesc (s : State) (v q : Nat) : Option Nat := stage2N s v ((getFn s v).qtbase.toNat + 64 * q) 64

/-- The dispatcher's knowledge of a queue. -/
def getQ (s : State) (v q : Nat) : QueueSt := mget ⟨false, false, []⟩ s.queues (v * 256 + q)

/-- Writes it. -/
def setQ (s : State) (v q : Nat) (x : QueueSt) : State := { s with queues := mset s.queues (v * 256 + q) x }

/-- Word `i` of a descriptor: as it stands in memory at each read, also where software has changed it while EN = 1, of which R242 lets the old or the new one be used (DESIGN CHOICE, log 87). -/
def qWord (s : State) (a i : Nat) : Word := BitVec.ofNat 64 (hbmN s (a + 8 * i) 8)

/-- Writes word `i` of a descriptor. -/
def setQWord (s : State) (a i : Nat) (x : Word) : State := wrN s ⟨.hbm, a + 8 * i⟩ 8 x.toNat

/-- RING. -/
def qRing (s : State) (a : Nat) : Word := qWord s a 0

/-- LOG2N. -/
def qLog (s : State) (a : Nat) : Nat := fieldN (qWord s a 1) 0 5

/-- PRIO. -/
def qPrio (s : State) (a : Nat) : Nat := fieldN (qWord s a 1) 5 3

/-- EN. -/
def qEn (s : State) (a : Nat) : Bool := bitN (qWord s a 1) 8

/-- HALT. -/
def qHalt (s : State) (a : Nat) : Bool := bitN (qWord s a 1) 9

/-- WIDX. -/
def qWidx (s : State) (a : Nat) : Nat := (qWord s a 2).toNat

/-- RIDX. -/
def qRidx (s : State) (a : Nat) : Nat := (qWord s a 3).toNat

/-- Records an error in a queue's error word (R244): ECODE keeps the first, ECOUNT saturates, `stops` sets HALT. -/
def queueErr (s : State) (v q code : Nat) (stops : Bool) : State :=
  match queueDesc s v q with
  | none => s
  | some a =>
    let w := qWord s a 4
    let ecode := fieldN w 0 8
    let ecount := fieldN w 8 32
    let rest := fieldN w 40 24
    let w' := BitVec.ofNat 64 ((if ecode = 0 then code else ecode) + (min (ecount + 1) (2 ^ 32 - 1)) * 2 ^ 8 + rest * 2 ^ 40)
    let s1 := setQWord s a 4 w'
    if stops then setQWord s1 a 1 (qWord s1 a 1 ||| BitVec.ofNat 64 (2 ^ 9)) else s1

/-- Whether a descriptor breaks R242: LOG2N, RING, reserved bits. -/
def descBad (s : State) (a : Nat) : Bool :=
  let l := qLog s a
  decide (l < 4) || decide (l > 16) || (qRing s a).toNat % 64 != 0 || fieldN (qWord s a 1) 10 54 != 0
    || fieldN (qWord s a 4) 40 24 != 0 || (qWord s a 5) != 0 || (qWord s a 6) != 0 || (qWord s a 7) != 0

/-- Counts a dropped kick. -/
def dropKick (s : State) (fn : Nat) : State := modFn s fn fun f => { f with dropkick := f.dropkick + 1 }

/-- Counts a discarded register write (R12). -/
def regErr (s : State) (fn : Nat) : State := modFn s fn fun f => { f with regerr := f.regerr + 1 }

/-- Active queues of the device (R243). -/
def activeCount (s : State) : Nat := (s.queues.filter fun p => p.2.active).length

/-- A kick finds the descriptor with EN = 1: where the queue was held as disabled, EN rises here (R242). The flag says that the queue may take the kick. -/
def kickRise (s : State) (v q a : Nat) : State × Bool :=
  if (getQ s v q).enabled then (s, !qHalt s a)
  else
    let s1 := setQWord s a 1 (qWord s a 1 &&& ~~~(BitVec.ofNat 64 (2 ^ 9)))
    let s2 := setQWord (setQWord s1 a 2 0) a 3 0
    let s3 := setQ s2 v q ⟨true, false, []⟩
    if descBad s3 a then (queueErr s3 v q 0x21 true, false) else (s3, true)

/-- A queue that waits to be active becomes so once there is room: the lowest by VF and number (R243; DESIGN CHOICE, log 103: the spec gives no order among several). -/
def wakeQueue (s : State) : State :=
  if activeCount s ≥ 1024 then s
  else match s.queues.find? (fun p => p.2.enabled && !p.2.active && match queueDesc s (p.1 / 256) (p.1 % 256) with
      | some a => qEn s a && !qHalt s a && decide (qRidx s a < qWidx s a)
      | none => false) with
    | some p => setQ s (p.1 / 256) (p.1 % 256) { p.2 with active := true }
    | none => s

/-- A write to a kick register (R242, R243, R286). -/
def kick (s : State) (fn off width : Nat) (w : Word) : State :=
  if width ≠ 8 ∨ off ≥ 0x800 ∨ off % 8 ≠ 0 then regErr s fn
  else if (getFn s fn).quiesced then dropKick s fn
  else
    let q := off / 8
    match queueDesc s fn q with
    | none => dropKick s fn
    | some a =>
      if !qEn s a then dropKick (wakeQueue (setQ s fn q ⟨false, false, []⟩)) fn
      else
        let (s1, ok) := kickRise s fn q a
        if !ok then dropKick s1 fn
        else if w.toNat ≤ qWidx s1 a then s1
        else if w.toNat > qRidx s1 a + 2 ^ qLog s1 a then queueErr s1 fn q 0x24 false
        else
          let s2 := setQWord s1 a 2 w
          if (getQ s2 fn q).active || decide (activeCount s2 < 1024) then setQ s2 fn q { getQ s2 fn q with active := true } else s2

/-- A read of a kick register returns WIDX (R243). -/
def readKick (s : State) (fn q : Nat) : Word := match queueDesc s fn q with | some a => qWord s a 2 | none => 0

/-- A load from a kick page: `n` bytes of WIDX, zero at the reserved offsets (R11, R243). -/
def kickLoad (s : State) (fn off n : Nat) : Nat :=
  if off ≥ 0x800 then 0 else bitsN (readKick s fn (off / 8)).toNat (8 * (off % 8)) (8 * n)

/-! The read cache (R112). -/

/-- The lines of a tile's read cache. -/
def rlines (s : State) (t : Nat) : List RLine := mget [] s.rcache t

/-- The line of memory that holds a place. -/
def memLine (s : State) (l : Loc) : Line := BitVec.ofNat 512 (rdN s ⟨l.sp, l.a / 64 * 64⟩ 64)

/-- The cached line of a place. -/
def rfind (s : State) (t : Nat) (l : Loc) : Option RLine :=
  (rlines s t).find? fun r => r.sp == l.sp && r.a == l.a / 64

/-- Drops the lines of a tile's read cache that a test names. -/
def rdrop (s : State) (t : Nat) (p : RLine → Bool) : State :=
  { s with rcache := mset s.rcache t ((rlines s t).filter fun r => !p r) }

/-- Lines of a read cache: 128 KiB of 64 bytes (R112). -/
def cacheLines : Nat := 2048

/-- Whether a host line read for a VF is held coherently with the host: the VF has acknowledged CXLCACHE and a port has trained as CXL (R283, R286). -/
def cxlHolds (s : State) (v : Nat) (sp : Space) : Bool := sp == .host && feature s v 3 && s.ctrl.port != 0

/-- Holds the line of a place in a tile's read cache, for a VF; in a full one some line gives way (free, log 8). -/
def rhold (s : State) (t v : Nat) (l : Loc) (x : Line) : State :=
  let ls := rlines s t
  let kept := if ls.length < cacheLines then ls else ls.eraseIdx (Config.victim s.tick l.a % ls.length)
  { s with rcache := mset s.rcache t (⟨l.sp, l.a / 64, x⟩ :: kept)
           cxl := if cxlHolds s v l.sp then (l.a / 64) :: s.cxl else s.cxl }

/-- The line of a place through a tile's read cache: a held line, unless it is evicted first (free, log 8), or the line of memory, which is then held. -/
def rcLine (s : State) (t v : Nat) (l : Loc) : State × Line :=
  match rfind s t l with
  | some r =>
    if Config.evict s.tick l.a then
      let s1 := rdrop s t fun r => r.sp == l.sp && r.a == l.a / 64
      (rhold s1 t v l (memLine s1 l), memLine s1 l)
    else (s, r.line)
  | none => (rhold s t v l (memLine s l), memLine s l)

/-! Outstanding accesses. -/

/-- The operation of an atomic on the old value and the operands, `n` bytes (R325); none writes nothing. -/
def atOp (op : AtOp) (n o b c : Nat) : Option Nat :=
  let m := 2 ^ (8 * n)
  let sg (x : Nat) : Int := if x < m / 2 then (x : Int) else (x : Int) - m
  match op with
  | .add => some ((o + b) % m)
  | .band => some (o &&& b)
  | .bor => some (o ||| b)
  | .bxor => some (o ^^^ b)
  | .min true => some (if b < o then b else o)
  | .min false => some (if sg b < sg o then b else o)
  | .max true => some (if o < b then b else o)
  | .max false => some (if sg o < sg b then b else o)
  | .swp => some b
  | .cas => if o = c then some b else none

/-- Writes an element of an access: to a kick page of the device the dispatcher takes it (R245), else to memory. -/
def putElem (s : State) (n : Nat) (x : LaneAcc) : State :=
  match x.loc.sp with
  | .host =>
    match Config.kickFn (x.loc.a / 4096) with
    | some fn => kick s fn (x.loc.a % 4096) n (BitVec.ofNat 64 x.data)
    | none => wrN s x.loc n x.data
  | _ => wrN s x.loc n x.data

/-- Reads an element of an access: through the read cache on the read-only path, from the dispatcher at a kick page of the device (R243). -/
def getElem1 (s : State) (tile v n : Nat) (ro : Bool) (l : Loc) : State × Nat :=
  if ro then
    let (s1, ln) := rcLine s tile v l
    (s1, bitsN ln.toNat (8 * (l.a % 64)) (8 * n))
  else match l.sp with
    | .host =>
      match Config.kickFn (l.a / 4096) with
      | some fn => (s, kickLoad s fn (l.a % 4096) n)
      | none => (s, rdN s l n)
    | _ => (s, rdN s l n)

/-- The lanes a vector load reads, in order. -/
def getLanes (tile vf : Nat) : State → List LaneAcc → State × List (Nat × Nat)
  | s, [] => (s, [])
  | s, x :: r =>
    let (s1, v) := getElem1 s tile vf 4 x.ro x.loc
    let y := getLanes tile vf s1 r
    (y.1, (x.lane, v) :: y.2)

/-- A vector register with some lanes replaced. -/
def putLanes (v : Vector Lane 32) (l : List (Nat × Nat)) : Vector Lane 32 :=
  Vector.ofFn fun i : Fin 32 => match l.find? (fun p => p.1 == i.val) with
    | some p => BitVec.ofNat 32 p.2
    | none => v[i]

/-- Takes a request out of its spoke. -/
def dropReq (p : Spoke) (id : Nat) : Spoke := { p with outst := p.outst.filter fun r => r.id != id }

/-- Fills the register of a load or atomic: a plain one directly, a relaxed one when it is still owed. -/
def fillReq (s : State) (o : Owner) (r : Req) (d : Fin 32) (x : Word) : State :=
  modOwner s o fun p => if r.plain then p.wrG d x else if d ≠ 0 ∧ p.pendG d = .load r.id then p.wrG d x else p

/-- The core of an owner, for its tile and read cache. -/
def ownerCore : Owner → Nat
  | .spoke c _ _ => c
  | _ => 0

/-- A request is performed at its bank, all that is left of it, and answered (R22, R134, R326, R432). -/
def perform (s : State) (o : Owner) (r : Req) : State :=
  let tile := tileOf (ownerCore o)
  let vf := ownerVf s o
  let s0 := modOwner s o fun p => dropReq p r.id
  match r.kind with
  | .load d sx =>
    match r.accs with
    | [] => s0
    | x :: _ =>
      let (s1, v) := getElem1 s0 tile vf r.n x.ro x.loc
      fillReq s1 o r d (if sx then sext64 (8 * r.n) v else BitVec.ofNat 64 v)
  | .store => r.accs.foldl (fun s x => putElem s r.n x) s0
  | .atomic op d b c =>
    match r.accs with
    | [] => s0
    | x :: _ =>
      let old := rdN s0 x.loc r.n
      let s1 := match atOp op r.n old b c with | some y => wrN s0 x.loc r.n y | none => s0
      fillReq s1 o r d (BitVec.ofNat 64 old)
  | .vload d =>
    let (s1, l) := getLanes tile vf s0 r.accs
    modOwner s1 o fun p =>
      if r.plain ∨ p.v[d].pend = .load r.id then p.wrV d (putLanes p.v[d].val (r.got ++ l)) else p
  | .vstore => r.accs.foldl (fun s x => putElem s r.n x) s0

/-- Whether a request touches one of the bytes of a place. -/
def reqMeets (l : Loc) (n : Nat) (r : Req) : Bool :=
  r.accs.any fun x => x.loc.sp == l.sp && decide (x.loc.a < l.a + n) && decide (l.a < x.loc.a + r.n)

/-- The places that order a request behind earlier ones: a read on the read-only path waits for none (R130 item 2). -/
def Req.places (r : Req) : List (Loc × Nat) := (r.accs.filter fun x => !x.ro).map fun x => (x.loc, r.n)

/-- Of earlier requests in program order, those that go before accesses to some places, in program order: the ones that touch a byte of them, and the ones that go before these in turn (R130 item 2). -/
def goFirst (rs : List Req) (ps : List (Loc × Nat)) : List Req :=
  (rs.foldr (fun r x => if x.2.any fun p => reqMeets p.1 p.2 r then (r :: x.1, Req.places r ++ x.2) else x) ([], ps)).1

/-- Whether a place is a peer's whose binding to a VF has ended (R285). -/
def locCut (s : State) (v : Nat) (l : Loc) : Bool := l.sp == .peer && !mhas s.binds (v * 1024 + l.a / 2 ^ 40)

/-- Whether an access is to a peer whose binding has ended since it was made, be the pair bound again: it is not performed any more (R285). -/
def reqCut (s : State) (v : Nat) (r : Req) : Bool :=
  r.accs.any fun x => locCut s v x.loc || (x.loc.sp == .peer && decide (r.id < mget 0 s.ended (v * 1024 + x.loc.a / 2 ^ 40)))

/-- Performs requests of a spoke, in their order. -/
def performAll (s : State) (o : Owner) (rs : List Req) : State :=
  rs.foldl (fun s r => if reqCut s (ownerVf s o) r then s else perform s o r) s

/-- Performs, in program order, the earlier requests of a spoke that go before an access to the bytes (R130 item 2). -/
def flushMeets (s : State) (o : Owner) (before : Req → Bool) (l : Loc) (n : Nat) : State :=
  performAll s o (goFirst ((ownerSp s o).outst.filter before) [(l, n)])

/-- Performs what goes before a request or before some of its lanes. -/
def flushBefore (s : State) (o : Owner) (r : Req) (ps : List (Loc × Nat)) : State :=
  performAll s o (goFirst ((ownerSp s o).outst.filter fun q => decide (q.id < r.id)) ps)

/-- Performs a request after the earlier ones of its spoke that go before it. -/
def performInOrder (s : State) (o : Owner) (r : Req) : State := perform (flushBefore s o r (Req.places r)) o r

/-- A lane of a vector access may be performed by itself: it has not been; of a store, no lower lane that touches its bytes is left (R431), while the lanes of a load have no order (R128, R432). -/
def laneFree (r : Req) (k : Nat) : Option LaneAcc :=
  match r.accs.find? (·.lane == k), r.kind with
  | some x, .vload _ => some x
  | some x, .vstore =>
    let low := r.accs.takeWhile (·.lane != k)
    if low.all fun y => !(y.loc.sp == x.loc.sp && decide (y.loc.a < x.loc.a + r.n) && decide (x.loc.a < y.loc.a + r.n)) then some x
    else none
  | _, _ => none

/-- Performs one lane of a vector access, after the earlier accesses of its spoke that go before it; the rest of the request stays outstanding (R128, R140, R432). -/
def performLane (s : State) (o : Owner) (r : Req) (k : Nat) : State :=
  match laneFree r k with
  | none => s
  | some x =>
    let s0 := flushBefore s o r (if x.ro then [] else [(x.loc, r.n)])
    let rest := r.accs.filter (·.lane != k)
    let put (s : State) (q : Req) : State :=
      modOwner s o fun p => { p with outst := p.outst.map fun y => if y.id = r.id then q else y }
    match r.kind with
    | .vload _ =>
      let y := getElem1 s0 (tileOf (ownerCore o)) (ownerVf s o) r.n x.ro x.loc
      let q := { r with accs := rest, got := (k, y.2) :: r.got }
      if rest.isEmpty then perform y.1 o q else put y.1 q
    | _ =>
      let s1 := putElem s0 r.n x
      let q := { r with accs := rest }
      if rest.isEmpty then perform s1 o q else put s1 q

/-- Performs everything outstanding of a spoke, in program order. -/
def flushAll (s : State) (o : Owner) : State := performAll s o (ownerSp s o).outst

/-- Whether a request only reads. -/
def Req.isLoad (r : Req) : Bool :=
  match r.kind with
  | .load .. | .vload _ => true
  | _ => false

/-- As a spoke ends: its loads have nobody left to answer, its stores and atomics go on by themselves (R128, R143, R320). -/
def flushEnd (s : State) (o : Owner) : State :=
  let mine := (ownerSp s o).outst.filter fun r => !Req.isLoad r
  match o with
  | .spoke c n v =>
    { modOwner s o fun p => { p with outst := [] } with orphans := s.orphans ++ mine.map fun r => ⟨v, c, n, (getSp s c n v).ltag, r⟩ }
  | _ => performAll s o mine

/-- A store or atomic of an ended spoke is performed, after the earlier ones of that spoke that go before it (R130 item 2, R143). -/
def performOrphan (s : State) (i : Nat) : State :=
  match s.orphans[i]? with
  | none => s
  | some x =>
    let mine := (s.orphans.take i).filter fun y => y.vf == x.vf && y.core == x.core && y.sp == x.sp
    let rs := goFirst (mine.map (·.req)) (Req.places x.req) ++ [x.req]
    let s1 := { s with orphans := s.orphans.filter fun y => !(rs.any (·.id == y.req.id)) }
    (rs.filter fun r => !reqCut s x.vf r).foldl (fun s r => perform s .gone r) s1

/-- Performs, in their order, the accesses of ended spokes that a test names. -/
def flushOrphans (s : State) (p : Orphan → Bool) : State :=
  let go := s.orphans.filter fun x => p x && !reqCut s x.vf x.req
  go.foldl (fun s x => perform s .gone x.req) { s with orphans := s.orphans.filter fun x => !p x }

/-! Signals and timelines. -/

/-- Whether a condition of SEMWAIT holds (R250). -/
def semHolds (c : SemCond) (v x : Word) : Bool :=
  match c with
  | .eq => v == x
  | .le => decide (v.toInt ≤ x.toInt)
  | .ge => decide (v.toInt ≥ x.toInt)

/-- Releases the waiters at a place whose want a test admits, in arrival order. -/
def releaseAt (s : State) (l : Loc) (x : Word) (p : BankWait → Bool) : State :=
  let go := s.waiters.filter fun w => w.loc == l && hereNow s w && p w.want
  let s1 := { s with waiters := s.waiters.filter fun w => !(w.loc == l && hereNow s w && p w.want) }
  go.foldl (fun s w => releaseBank s w x) s1

/-- A signal has been written by SEMSIG, TLSIG or the dispatcher: the barriers that wait on it are evaluated again (R248). -/
def signalled (s : State) (l : Loc) : State :=
  { s with
    queues := s.queues.map fun p => if p.2.waits.contains l then (p.1, { p.2 with waits := [] }) else p
    graphs := s.graphs.map fun p => (p.1, { p.2 with waits := p.2.waits.filter fun w => !w.2.contains l }) }

/-- Adds to a signal as one bank operation (R250): the state, whether it underflowed, whether it was clamped. -/
def semAdd (s : State) (l : Loc) (d : Int) : State × Bool × Bool :=
  let old := (BitVec.ofNat 64 (rdN s l 8)).toInt
  let sum := old + d
  let lo : Int := -(2 ^ 63)
  let hi : Int := 2 ^ 63 - 1
  let c := if sum < lo then lo else if sum > hi then hi else sum
  let v := BitVec.ofInt 64 c
  let s1 := signalled (wrN s l 8 v.toNat) l
  let s2 := releaseAt s1 l v fun w => match w with | .sem k _ x => semHolds k v x | _ => false
  (s2, decide (d < 0) && decide (c < 0), decide (c ≠ sum))

/-- Sets a timeline as one bank operation (R251). -/
def tlSet (s : State) (l : Loc) (x : Word) : Except FaultCode State :=
  let old := rdN s l 8
  if old = 2 ^ 64 - 1 then .error .timelineRetired
  else if x.toNat ≤ old then .error .timelineRegress
  else .ok (releaseAt (signalled (wrN s l 8 x.toNat) l) l x fun w => match w with | .tl _ v => decide (v.toNat ≤ x.toNat) | _ => false)

/-! Arrival barriers (R41, R331). -/

/-- One arrival with a byte count at a barrier object. -/
def barArrive (s : State) (l : Loc) (bytes : Nat) : State :=
  let expArr := rdN s l 4
  let expB := rdN s (l.plus 4) 4
  let w := rdN s (l.plus 8) 4
  let ph := w / 2 ^ 31
  let arr := min (w % 2 ^ 31 + 1) 0x7FFFFFFF
  let b := min (rdN s (l.plus 12) 4 + bytes % 2 ^ 32) 0xFFFFFFFF
  if arr ≥ expArr ∧ b ≥ expB then
    releaseAt (wrN (wrN s (l.plus 8) 4 ((1 - ph) * 2 ^ 31)) (l.plus 12) 4 0) l 0 fun w => w == .bar
  else wrN (wrN s (l.plus 8) 4 (arr + ph * 2 ^ 31)) (l.plus 12) 4 b

/-! Groups (R38 to R40). -/

/-- Applies a function to every spoke of a VF, wherever it stands (live, saved, in an image). -/
def mapSpokes (s0 : State) (v : Nat) (f : Spoke → Spoke) : State :=
  let onCtx (x : CoreCtx) : CoreCtx := { x with spokes := x.spokes.map fun p => (p.1, f p.2) }
  let s := s0.images.foldl (fun s p => if p.2.vf = v then setImage s p.1 p.2 (f p.2.sp) else s) s0
  { s with
    cores := s.cores.map fun p => if vfOf s p.1 = v then (p.1, { p.2 with ctx := onCtx p.2.ctx }) else p
    saved := s.saved.map fun p => if p.1 / 65536 = v then (p.1, onCtx p.2) else p }

/-- The key of a group of a launch. -/
def grpKey (v tag g : Nat) : Nat := (v * 65536 + tag) * 256 + g

/-- A spoke's slot of a group, if it is a member. -/
def slotOfGrp (p : Spoke) (tag g : Nat) : Option (Fin 4) :=
  if p.ltag ≠ tag then none
  else (List.finRange 4).find? fun i => p.gslots[i].valid && p.gslots[i].grp.toNat == g

/-- What a phase flip does to a member (R39): PHASE toggles, ARRIVED clears, a parked member returns; one parked in GARRIVE arrives in the new phase, at the flip itself even where it is stopped (DESIGN CHOICE, log 101: R357 has it continue at resume and does not say when it arrives). -/
def flipSpoke (tag g : Nat) (p : Spoke) : Spoke :=
  match slotOfGrp p tag g with
  | none => p
  | some i =>
    let sl := p.gslots[i]
    let waits := p.park == .group i true
    { p with gslots := p.gslots.set i { sl with phase := !sl.phase, arrived := waits }
             park := if waits || p.park == .group i false then .none else p.park }

/-- Members that would arrive anew at a flip. -/
def rearrivals (s : State) (v tag g : Nat) : Nat :=
  let n (p : Spoke) : Nat := match slotOfGrp p tag g with
    | some i => if p.park == .group i true then 1 else 0
    | none => 0
  let onCtx (x : CoreCtx) : Nat := (x.spokes.map fun p => n p.2).sum
  ((s.cores.map fun p => if vfOf s p.1 = v then onCtx p.2.ctx else 0).sum
    + (s.saved.map fun p => if p.1 / 65536 = v then onCtx p.2 else 0).sum)
    + (s.images.map fun p => if p.2.vf = v then n p.2.sp else 0).sum

/-- Flips the phase when the arrivals have reached the expected count (R39). -/
def tryFlip (s : State) (v tag g : Nat) : State :=
  let k := grpKey v tag g
  let x := mget (⟨0, 0, false⟩ : Grp) s.grps k
  if x.exp ≠ 0 ∧ x.arr ≥ x.exp then
    let n := rearrivals s v tag g
    let s1 := mapSpokes s v (flipSpoke tag g)
    { s1 with grps := mset s1.grps k { x with arr := n, phase := !x.phase } }
  else s

/-- Flips as often as the arrivals ask: a second flip finds nobody parked. -/
def flips (s : State) (v tag g : Nat) : State := tryFlip (tryFlip s v tag g) v tag g

/-- One arrival in a group (R39). -/
def grpArrive (s : State) (v tag g : Nat) : State :=
  let k := grpKey v tag g
  let x := mget (⟨0, 0, false⟩ : Grp) s.grps k
  flips { s with grps := mset s.grps k { x with arr := x.arr + 1 } } v tag g

/-- A member leaves a group (R40). -/
def grpLeave (s : State) (v tag g : Nat) (arrived : Bool) : State :=
  let k := grpKey v tag g
  let x := mget (⟨0, 0, false⟩ : Grp) s.grps k
  flips { s with grps := mset s.grps k { x with exp := x.exp - 1, arr := x.arr - arrived.toNat } } v tag g

/-! Messages and inboxes (R27 to R32, R280). -/

/-- Sends a message into the mesh. -/
def sendMsg (s : State) (m : Msg) : State := bump { s with mesh := s.mesh ++ [{ m with id := s.nextId }] }

/-- The slot of a token (R260). -/
def tokSlot (t : Word) : Nat := fieldN t 16 6

/-- The VF context of a core that a message is for (R263, R280): a service core has one context; a WAKE from a service core goes to the VF whose faulters hold the slot, or else the resident one. -/
def msgCtx (s : State) (m : Msg) : Nat :=
  if isSvc s m.core then 0
  else if m.wake && m.vf == 0 then match (getSlot s m.core (tokSlot m.val)).w with | some w => w.vf | none => vfOf s m.core
  else m.vf

/-- The header of a held message (R32). -/
def Msg.header (m : Msg) : Word :=
  if m.wake then BitVec.ofNat 64 (2 ^ 9 + m.src * 2 ^ 10 + m.ssp * 2 ^ 26)
  else BitVec.ofNat 64 (m.sp + m.reg * 2 ^ 4 + m.src * 2 ^ 10 + m.ssp * 2 ^ 26)

/-- Whether a message is addressed to spoke 0; a WAKE counts so (R32). -/
def Msg.forHub (m : Msg) : Bool := m.wake || m.sp == 0

/-- Whether the inbox has an entry for a message (R29): messages for spoke 0 take any, the others the 60 unreserved ones. Messages for spoke 0 stand in the reserved entries first (DEDUCED, log 21). -/
def inboxRoom (x : CoreCtx) (m : Msg) : Bool :=
  let hub := (x.inbox.filter Msg.forHub).length
  let user := x.inbox.length - hub
  if m.forHub then decide (x.inbox.length < 64) else decide (user + (hub - 4) < 60)

/-- Counts discarded messages at a core (R30). -/
def dropMsgs (s : State) (c n : Nat) : State := modCore s c fun co => { co with drop := co.drop + n }

/-- Whether the target register of a message can take it now: its VF resident on the core (R280), a live spoke, the register empty and not pending (R29, R47). -/
def canDeliver (s : State) (v : Nat) (m : Msg) : Bool :=
  let p := getSp s m.core m.sp v
  !m.wake && vfOf s m.core == v && p.ctx == .live && !p.fullG (regN m.reg) && p.pendG (regN m.reg) == .no

/-- Fills the target register of a message (R22, R29). -/
def deliver (s : State) (v : Nat) (m : Msg) : State := modSp s m.core m.sp v fun p => p.wrG (regN m.reg) m.val

/-- The inbox alarm word of a core takes the occupancy (R31). The word of a saved VF lies in its tile image, where it is set and serves no waiter that is saved with it (DESIGN CHOICE, log 107: the spec is silent on a saved inbox). -/
def alarm (s : State) (c v occ : Nat) : State :=
  if occ < 48 then s
  else if vfOf s c = v then storeF s (c * 65536 + 0xFFF8) occ
  else
    let k := v * 65536 + halfOf c
    let im := mget TileImg.none s.savedImg k
    { s with savedImg := mset s.savedImg k { im with
        scr := wrNat im.scr (c * 65536 + 0xFFF8) 8 occ
        full := mput false im.full ((c * 65536 + 0xFFF8) / 8) true } }

/-! The save area (R48, R273, R280). Its slots for a half tile are the tile image, and for each core its own state and the images of its spokes (DESIGN CHOICE, log 12: the spec gives the tile images 2 MiB each, and no place to the core state). -/

/-- The slot of a core's own state (n = 0), or of its spoke n. -/
def coreSlot (c n : Nat) : Nat := 1 + 16 * (c % 8) + n

/-- The bytes that a slot holds: a tile image, a core's own state, the image of a spoke (R48, R280). -/
def saveLen (k : Nat) : Nat := if k = 0 then 2 ^ 21 else if k % 16 = 1 then 4096 else 2560

/-- Where a VF's save area has a slot of a half tile, in HBM: tile images in ascending order from SAVEOFF, and after them 512 KiB of core state for each half. -/
def slotPlace (s : State) (v h k : Nat) : Option Nat :=
  let c := (getFn s v).ctlAct
  let mine := (List.range 768).filter fun i => bitN c.halves i
  let rank := (mine.filter (· < h)).length
  if !bitN c.halves h then none
  else stage2N s v (c.saveoff.toNat + (if k = 0 then 2 ^ 21 * rank else 2 ^ 21 * mine.length + 2 ^ 19 * rank + 4096 * (k - 1))) (saveLen k)

/-- The spill engine writes a slot: bytes that the spec leaves open (R280, log 12). -/
def savePut (s : State) (stamp a k : Nat) : State := { s with hbm := fillMem s.hbm a (saveLen k) fun i => Config.saveByte stamp i }

/-- Whether a slot's bytes stand as they were written. -/
def saveHas (s : State) (stamp a k : Nat) : Bool := (List.range (saveLen k)).all fun i => rd s.hbm (a + i) == Config.saveByte stamp i

/-- Writes a slot of a VF's save area at a place, under a new stamp. -/
def saveAt (s : State) (v h k a : Nat) : State :=
  let x := v * 65536 + h
  let im := mget TileImg.none s.savedImg x
  savePut (bump { s with savedImg := mset s.savedImg x { im with slots := mset im.slots k (s.nextId, a) } }) s.nextId a k

/-- Writes a slot where the save area has it. -/
def saveSlot (s : State) (v h k : Nat) : State :=
  match slotPlace s v h k with | some a => saveAt s v h k a | none => s

/-- What a slot was last written with: the stamp and the place. -/
def savedAs (s : State) (v h k : Nat) : Option (Nat × Nat) :=
  ((mget TileImg.none s.savedImg (v * 65536 + h)).slots.find? (·.1 == k)).map (·.2)

/-- Whether a slot holds what was written to it, or never held anything: where SAVEOFF now has it, or, under the SAVEOFF of the save, where it was written (log 12). -/
def slotGood (s : State) (v h k : Nat) : Bool :=
  match savedAs s v h k with
  | none => true
  | some (st, a) =>
    (match slotPlace s v h k with | some b => saveHas s st b k | none => true)
      || ((mget TileImg.none s.savedImg (v * 65536 + h)).off == (getFn s v).ctlAct.saveoff && saveHas s st a k)

/-- A saved core's own state has changed, and its bytes in the save area with it, unless software has altered them (R280). -/
def touchSave (s : State) (c v : Nat) : State :=
  match savedAs s v (halfOf c) (coreSlot c 0) with
  | none => s
  | some (st, a) => if vfOf s c = v ∨ ¬ saveHas s st a (coreSlot c 0) then s else saveAt s v (halfOf c) (coreSlot c 0) a

/-- A context of a core is needed by the VF resident there: the spoke of another VF that has stayed in it is written to that VF's save area, once (R48, R273). -/
def makeRoom (s : State) (c n v : Nat) : State :=
  (s.saved.filter fun p => p.1 % 65536 == c && p.1 / 65536 != v).foldl (fun s p =>
    if (getSp s c n (p.1 / 65536)).ctx == .free || (savedAs s (p.1 / 65536) (halfOf c) (coreSlot c n)).isSome then s
    else saveSlot s (p.1 / 65536) (halfOf c) (coreSlot c n)) s

/-- A spoke takes a context of its core. -/
def occupy (s : State) (c n v : Nat) (p : Spoke) : State := setSp (makeRoom s c n v) c n v p

/-- Whether an earlier message for the same register is held in the inbox (R29). -/
def heldFor (x : CoreCtx) (m : Msg) : Bool := x.inbox.any fun k => !k.wake && k.sp == m.sp && k.reg == m.reg

/-- The core takes a message: left waiting at the port while every entry that it could take is occupied, even where its register is empty (R31); else delivered, or held (R29). A WAKE always takes an entry, and counts for the alarm, until its delivery (DESIGN CHOICE, log 106: the spec does not say whether one that could act at once does). -/
def inboxTake (s : State) (c v : Nat) (m : Msg) : State :=
  let x := getCtx s c v
  if inboxRoom x m && canDeliver s v m && !heldFor x m then deliver s v m
  else if inboxRoom x m then touchSave (alarm (setCtx s c v { x with inbox := x.inbox ++ [m] }) c v (x.inbox.length + 1)) c v
  else setCtx s c v { x with port := x.port ++ [m] }

/-- Whether a message is discarded at its core: the core is not in the partition, no spoke takes it, or it names register 0 (R30, R280). -/
def msgLost (s : State) (m : Msg) : Bool :=
  let c := m.core
  let v := msgCtx s m
  let p := getSp s c m.sp v
  (!isSvc s c && v != 0 && !inPart s v c) || (!m.wake && (p.ctx == .free || p.ctx == .ended || m.reg == 0))

/-- A message reaches its core, from the mesh or the loop-back port; behind a waiting message of its own lane it waits too (R28 to R31). -/
def inboxArrive (s : State) (m : Msg) : State :=
  let c := m.core
  let v := msgCtx s m
  if msgLost s m then dropMsgs s c 1
  else
    let x := getCtx s c v
    let behind := x.port.any fun k => k.src == m.src && k.ssp == m.ssp && k.sp == m.sp && k.wake == m.wake
    if behind then setCtx s c v { x with port := x.port ++ [m] }
    else inboxTake s c v m

/-- Discards the messages held for a spoke that ends (R30). -/
def dropHeld (s : State) (c n v : Nat) : State :=
  let x := getCtx s c v
  let mine (m : Msg) : Bool := !m.wake && m.sp == n
  dropMsgs (setCtx s c v { x with inbox := x.inbox.filter fun m => !mine m }) c (x.inbox.filter mine).length

end Sys2Proof.Machine
end

