-- ==== Sys2Proof/Machine/Panes.lean ====
section
/-! DEFINITION. The undercoat (R114 to R118), tags and the watermark (R231 to R236), and what the completion of an engine command does (R94, R96, R116, R141, R170, R193, R208, R231). -/

namespace Sys2Proof.Machine

/-! Panes. -/

/-- The pool share of a VF on a tile (R115). -/
def paneShare (s : State) (t v : Nat) : Nat :=
  4 * (ownsHalf s v (2 * t)).toNat + 4 * (ownsHalf s v (2 * t + 1)).toNat

/-- The panes that a list of regions has on a tile; a region is tile × 32 + its number (R109). -/
def onTile (t : Nat) (rs : List Nat) : Nat := (rs.filter fun r => r / 32 == t).length

/-- Whether a command holds panes of its own (R116). -/
def Cmd.holds (c : Cmd) : Bool := c.pub.isNone && c.grp.isNone && (c.st == .running || c.st == .parked)

/-- Panes of a tile in use by a VF. -/
def paneUsed (s : State) (t v : Nat) : Nat :=
  ((s.cmds.filter fun c => c.vf == v && c.holds).map fun c => onTile t c.panes).sum
    + ((s.pubs.filter fun p => p.2.vf == v && p.2.tile == t && p.2.held).map fun p => p.2.n).sum
    + ((s.tgrps.filter fun p => p.2.vf == v && p.2.held).map fun p => onTile t p.2.regions).sum

/-- The regions a list of byte ranges reaches (R109, R114), in order, once each. -/
def regionsOf (rs : List (Nat × Nat)) : List Nat :=
  (rs.flatMap fun r => if r.2 = 0 then [] else
    (List.range (((r.1 + r.2 - 1) / 65536) - r.1 / 65536 + 1)).map fun i => r.1 / 65536 + i).dedup

/-- The tiles of a list of regions. -/
def tilesOf (rs : List Nat) : List Nat := (rs.map (· / 32)).dedup

/-- Whether the panes for regions are free, on every tile of the regions. -/
def panesFree (s : State) (v : Nat) (rs : List Nat) : Bool :=
  (tilesOf rs).all fun t => decide (paneUsed s t v + onTile t rs ≤ paneShare s t v)

/-- Whether two lists of byte ranges meet. -/
def rangesMeet (xs ys : List (Nat × Nat)) : Bool :=
  xs.any fun x => ys.any fun y => decide (x.1 < y.1 + y.2) && decide (y.1 < x.1 + x.2)

/-- Makes the bytes of panes live, in one step (R114, R140). -/
def publish (s : State) (o : Mem) : State := o.foldl (fun s p => wrLoc s ⟨.tb, p.1⟩ p.2) s

/-! Commands. -/

/-- A command by its number. -/
def getCmd (s : State) (id : Nat) : Option Cmd := s.cmds.find? (·.id == id)

/-- Replaces a command in its place. -/
def setCmd (s : State) (c : Cmd) : State := { s with cmds := s.cmds.map fun x => if x.id = c.id then c else x }

/-- Whether a command is held back at dispatch. -/
def Cmd.held (c : Cmd) : Bool := c.st == .pageWait || c.st == .slotWait || c.st == .behind

/-- Whether it holds back the later entries of its spoke: a COLL that waits for a page does not, its window has been dispatched (R227, R342, R441). -/
def Cmd.holdsBack (c : Cmd) : Bool := c.held && !(c.op == .coll && c.st == .pageWait)

/-- Whether a command has entered its queue: one that waits for its page, or behind another, has not (R180, R220, R227, R441). -/
def Cmd.entered (c : Cmd) : Bool := !(c.st == .pageWait || c.st == .behind)

/-- Takes a command out of the queues. -/
def delCmd (s : State) (id : Nat) : State := { s with cmds := s.cmds.filter (·.id != id) }

/-- A publish group. -/
def getPub (s : State) (i : Nat) : Option PubGrp := (s.pubs.find? (·.1 == i)).map (·.2)

/-- A group of the Trowel. -/
def getTg (s : State) (i : Nat) : Option TrGrp := (s.tgrps.find? (·.1 == i)).map (·.2)

/-- The bytes a publish group has written at a place. -/
def pubByte (s : State) (p : Option Nat) (a : Nat) : Option Byte :=
  (p.bind (getPub s ·)).bind fun t => (t.ovl.find? (·.1 == a)).map (·.2)

/-- The publish group that is open where a command was issued (R117, R118): its own, or for one that writes no tile buffer the group its spoke opened before it. -/
def openPub (s : State) (c : Cmd) : Option Nat :=
  c.pub.or ((s.pubs.find? fun p => p.2.owner == c.owner && decide (p.1 < c.id)).map (·.1))

/-- The pane bytes a command reads before the live ones: its own, its rewritten group's, its publish group's (R114, R117, R208). -/
def paneByte (s : State) (c : Cmd) (a : Nat) : Option Byte :=
  let look (m : Mem) : Option Byte := (m.find? (·.1 == a)).map (·.2)
  (look c.ovl).or
    (match c.grp.bind (getTg s ·) with
     | some t => (look t.ovl).or (pubByte s (t.pub.or (openPub s c)) a)
     | none => pubByte s (openPub s c) a)

/-- A tile-buffer byte as a command reads it. -/
def tbByte (s : State) (c : Cmd) (a : Nat) : Byte := (paneByte s c a).getD (rd s.tb a)

/-- The bytes a command has written go where they belong: to its rewritten group's panes, its publish group's panes, or stay its own (R118, R208). -/
def settlePanes (s : State) (c : Cmd) : State × Cmd :=
  let mix (m : Mem) : Mem := c.ovl.foldl (fun m p => mset m p.1 p.2) m
  match c.grp, c.pub with
  | some g, _ =>
    match getTg s g with
    | some t => ({ s with tgrps := mset s.tgrps g { t with ovl := mix t.ovl } }, { c with ovl := [] })
    | none => (s, c)
  | none, some p =>
    match getPub s p with
    | some t => ({ s with pubs := mset s.pubs p { t with ovl := mix t.ovl } }, { c with ovl := [] })
    | none => (s, { c with ovl := [] })
  | none, none => (s, c)

/-- Whether an operation belongs to the matrix engine. -/
def EngOp.isMatrix : EngOp → Bool
  | .mldw | .mmul | .mdrain | .mzero | .spcmp => true
  | _ => false

/-- Whether an operation is a copy. -/
def EngOp.isCopy : EngOp → Bool
  | .cpgo | .cpgath | .cpscat => true
  | _ => false

/-- CMD of MPROG (R194). -/
def EngOp.prog : EngOp → Nat
  | .mldw => 0 | .mmul => 1 | .mdrain => 2 | .mzero => 3 | .spcmp => 4 | _ => 0

/-- The format of a matrix command. -/
def Cmd.fmt (c : Cmd) : Fmt := (match c.mods % 16 with
  | 0 => Fmt.fp4 | 1 => .tap6 | 2 => .tap8 | 3 => .e4m3 | 4 => .e5m2 | 5 => .i8 | 6 => .bf16 | 7 => .f16 | 8 => .f32 | _ => .i32)

/-- The quadrant code of a matrix command. -/
def Cmd.quad (c : Cmd) : Quad := (match c.imm % 16 with
  | 0 => Quad.q0 | 1 => .q1 | 2 => .q2 | 3 => .q3 | 4 => .h01 | 5 => .h23 | 6 => .v02 | 7 => .v13 | _ => .all)

/-- N of a matrix command. -/
def Cmd.n (c : Cmd) : Nat := c.imm / 16 % 1024

/-- K of a matrix command. -/
def Cmd.k (c : Cmd) : Nat := c.imm / 2 ^ 14 % 1024

/-- The descriptor register gD of a matrix command: SC, or SB for MZERO and MLDW (R185). -/
def Cmd.gD (c : Cmd) : Word := match c.op with | .mzero | .mldw => c.b | _ => c.c

/-- M of a matrix command (R186). -/
def Cmd.m (c : Cmd) : Nat := fieldN c.gD 0 16

/-- Rows that a matrix command has to complete (R193). -/
def Cmd.rows (c : Cmd) : Nat := match c.op with | .mldw | .spcmp => c.k | _ => c.m

/-- The accumulator status word (R193). -/
def statusWord (f : BitVec 5) (rows : Nat) : Word := BitVec.ofNat 64 (f.toNat + rows % 2 ^ 16 * 2 ^ 16)

/-- The refusal or error word (R96). -/
def refuseWord (code : FaultCode) : Word := BitVec.ofNat 64 (2 ^ 63 + code.num)

/-- The word of a cancelled command (R338). -/
def cancelWord (rows : Nat) : Word := BitVec.ofNat 64 (2 ^ 63 + rows % 2 ^ 16 * 2 ^ 16)

/-- The word of a command that completed normally (R193, R221, R343). -/
def Cmd.okWord (c : Cmd) (f : BitVec 5) : Word := if c.op.isMatrix then statusWord f c.rows else 0

/-- MPROG of a command (R194). -/
def progWord (c : Cmd) (run park : Bool) : Word :=
  BitVec.ofNat 64 (c.done % 2 ^ 16 + run.toNat * 2 ^ 16 + park.toNat * 2 ^ 17 + c.op.prog * 2 ^ 18)

/-- Releases the lends that a snapshot relied on (R90, R94). -/
def dropSnap (p : Spoke) (snap : List Snap) : Spoke :=
  { p with lends := snap.foldl (fun ls x =>
      let l := ls[x.entry]
      let l' := { l with count := l.count - 1 }
      ls.set x.entry (if l'.count = 0 ∧ l'.st = .closed then Lend.none else l')) p.lends }

/-- Counts a command as relying on the lends of its snapshot (R94). -/
def holdSnap (p : Spoke) (snap : List Snap) : Spoke :=
  { p with lends := snap.foldl (fun ls x => ls.set x.entry { ls[x.entry] with count := ls[x.entry].count + 1 }) p.lends }

/-! Tags and the watermark. -/

/-- Bit `t` of a 64-bit register. -/
def bitW (t : Nat) : Word := BitVec.ofNat 64 (2 ^ t)

/-- Arms a tag (R232). -/
def armTag (x : CoreCtx) (t : Nat) : CoreCtx :=
  { x with tagCnt := mset x.tagCnt t (mget 0 x.tagCnt t + 1), tags := x.tags &&& ~~~(bitW t) }

/-- Releases a tag (R232). -/
def relTag (x : CoreCtx) (t : Nat) (bad : Bool) : CoreCtx :=
  let n := mget 0 x.tagCnt t - 1
  { x with tagCnt := mset x.tagCnt t n, tags := if n = 0 then x.tags ||| bitW t else x.tags
           tagerr := if bad then x.tagerr ||| bitW t else x.tagerr }

/-- The watermark (R235). -/
def watermark (x : CoreCtx) : Nat := x.xids.foldl min x.nextXid

/-- The lowest set bit of a word, 64 when there is none. -/
def lowBit (w : Word) : Nat := ((List.range 64).find? (bitN w ·)).getD 64

/-- Consumes a bit for WAITANY (R233): the value, TAGS and TAGERR after. -/
def takeTag (x : CoreCtx) (m : Word) : Word × CoreCtx :=
  let t := lowBit (x.tags &&& m)
  (BitVec.ofNat 64 (t + (bitN x.tagerr t).toNat * 64),
   { x with tags := x.tags &&& ~~~(bitW t), tagerr := x.tagerr &&& ~~~(bitW t) })

/-- Serves one spoke parked on tags (R233, R407). -/
def serveTag (s : State) (c v n : Nat) : State :=
  let p := getSp s c n v
  let x := getCtx s c v
  if p.ctx ≠ .live then s
  else match p.park with
    | .tagAny d m =>
      if x.tags &&& m = 0 then s
      else
        let y := takeTag x m
        modSp (setCtx s c v y.2) c n v fun p => { p.wrG d y.1 with park := .none }
    | .tagAll m =>
      if x.tags &&& m = m then
        modSp (setCtx s c v { x with tags := x.tags &&& ~~~m }) c n v fun p => { p with park := .none }
      else s
    | _ => s

/-- Serves the spokes of a core parked on tags, in ascending spoke number (R233). -/
def serveTags (s : State) (c v : Nat) : State := (List.range 16).foldl (fun s n => serveTag s c v n) s

/-! Completion. -/

/-- The issuing core and VF of a command's channel. -/
def chanDone (s : State) (c : Cmd) (bad : Bool) : State :=
  let tag := (c.cps.getD 6 0).toNat
  let s1 := modCtx s c.core c.vf fun x =>
    let y := { x with xids := x.xids.filter (· != c.xid) }
    if tag / 64 % 2 = 0 then relTag y (tag % 64) bad else y
  serveTags s1 c.core c.vf

/-- The record of a transfer that ends without a tag (R231). -/
def chanRecord (s : State) (c : Cmd) (code : Nat) (va : Word) (acc : Nat) : State :=
  postTerm s c.vf ⟨BitVec.ofNat 64 c.xid, va, c.pc, code, acc, false, false, c.dom, 0, 0, true⟩

/-- ACC of a failure that a command reports by its code alone (R262): the read or the write that its rights refuse, 0 where no access met it. -/
def codeAcc (code : FaultCode) : Nat := match code with | .domainRead => 4 | .domainWrite | .overlap => 5 | _ => 0

/-- The fill of a command's register, or the release of its synchronous park; a failure of a synchronous command is a trap owed (R96, R193). -/
def report (s : State) (c : Cmd) (w : Word) (bad : Option FaultCode) : State :=
  if c.reg ≠ 0 then fillPend s c.owner c.reg (.cmd c.id) w
  else modOwner s c.owner fun p =>
    let q := if p.park = .cmd c.id then { p with park := .none } else p
    match bad with
    | some f => { q with owed := q.owed ++ [⟨f, c.pc, c.rpc, c.errVa, 0, c.errAcc⟩] }
    | none => q

/-- An engine's byte reaches memory; at a kick page of the device the dispatcher takes it, as a write that is not 8 bytes wide (R128, R243, R245). -/
def engStore (s : State) (l : Loc) (b : Byte) : State :=
  match l.sp with
  | .host => match Config.kickFn (l.a / 4096) with
    | some fn => kick s fn (l.a % 4096) 1 (b.zeroExtend 64)
    | none => wrLoc s l b
  | _ => wrLoc s l b

/-- Every general-path byte that a command has written becomes visible (R139, R141), but for those to a peer whose binding has ended (R285). -/
def drainOut (s : State) (c : Cmd) : State :=
  (c.out.filter fun x => !locCut s c.vf x.1).foldl (fun s x => engStore s x.1 x.2) s

/-- Byte `k` of those a command has written becomes visible by itself, unless an earlier one for the same place is not visible yet (R128, R139). -/
def drainOne (s : State) (c : Cmd) (k : Nat) : State :=
  match c.out[k]? with
  | none => s
  | some x =>
    if locCut s c.vf x.1 || (c.out.take k).any (·.1 == x.1) then s
    else setCmd (engStore s x.1 x.2) { c with out := c.out.eraseIdx k }

/-- The lends that the originals of an abandoned group share go on to one of them that has not completed; behind the last they are released (R208). -/
def giveKeep (s : State) (o : Owner) (g : Nat) (ks : List Snap) : State :=
  if ks.isEmpty then s
  else match s.cmds.find? (·.again == g) with
    | some d => setCmd s { d with keep := d.keep ++ ks }
    | none => modOwner s o fun p => dropSnap p ks

/-- A command leaves its engine: what it has written is visible, its panes publish unless a publish group holds them, its flags merge, its lends are released, MPROG shows it, then its report (R94, R116, R141, R170, R193). -/
def finish (s0 : State) (c : Cmd) (w : Word) (bad : Option FaultCode) : State :=
  let s := drainOut s0 c
  let (s1, c1) := settlePanes s c
  let s2 := delCmd (if c1.pub.isNone && c1.grp.isNone then publish s1 c1.ovl else s1) c.id
  let s3 := modOwner s2 c.owner fun p =>
    let q := dropSnap (p.orFlags c.flags) c.snap
    if c.op.isMatrix then { q with mprog := progWord c false false } else q
  report (giveKeep s3 c.owner c.again c.keep) c w bad

/-- A copy leaves its channel (R228 to R231, R236): publication, then tag and watermark in one step, then the barrier arrival. -/
def finishCopy (s0 : State) (c : Cmd) (bad : Option FaultCode) (bytes : Nat) (barLoc : Option Loc) : State :=
  let s := drainOut s0 c
  let (s1, c1) := settlePanes s c
  let s2 := delCmd (if c1.pub.isNone && c1.grp.isNone then publish s1 c1.ovl else s1) c.id
  let s3 := modOwner s2 c.owner fun p => dropSnap p c.snap
  let isBad := bad.isSome || c.cancel
  let s4 := chanDone s3 c isBad
  let noTag := bitN (c.cps.getD 6 0) 6
  let s5 := if isBad && noTag then
      chanRecord s4 c (match bad with | some f => f.num | none => 0) (if bad.isSome then c.errVa else 0) (if bad.isSome then c.errAcc else 5)
    else s4
  match barLoc with
  | some l => { s5 with barArrs := s5.barArrs ++ [⟨l, min bytes 0xFFFFFFFF, c.vf, c.ltag⟩] }
  | none => s5

end Sys2Proof.Machine
end

