-- ==== Sys2Proof/Machine/EngDispatch.lean ====
section
/-! DEFINITION. The checks of engine commands at dispatch (R95, R186, R221, R226, R238, R342, R378, R441) and their entry into the queues (R180, R181, R220, R227). -/

namespace Sys2Proof.Machine

/-- The outcome of the dispatch checks: passed (with the tile-buffer bytes reached), refused, a terminal fault, or a page to wait for. -/
inductive Disp where
  | ok (c : Cmd)
  | refuse (code : FaultCode)
  | fault (code : FaultCode) (va : Word) (acc : Nat)
  | page (e : FErr)

/-- An operand envelope (R95): where it starts, its bytes, whether it is written, and what R106 and R108 admit for it: paths, target types, buffers by window offset. -/
structure Opnd where
  lo : Int
  len : Nat
  wr : Bool
  paths : List Nat
  tts : List Nat
  bufs : List Nat       -- 0 WB, 1 XB, 2 AB
  half : Option Nat     -- an AB half the operand must lie in (R186 check 6)
  tile : Option Nat     -- a tile in whose scratchpads the operand must lie (R226 item 2)
deriving DecidableEq, Repr

/-- The first address of an envelope. -/
def Opnd.va (o : Opnd) : Word := BitVec.ofInt 64 o.lo

/-- The envelope of rows: from the lowest to the highest byte (R95, R346). -/
def rowsEnv (base : Word) (n : Nat) (stride : Int) (len : Nat) : Int × Nat :=
  let span := ((n : Int) - 1) * stride
  let lo := (base.toNat : Int) + min 0 span
  (lo, (max 0 span - min 0 span).toNat + len)

/-- R95: an envelope lies within one path, or PATH. -/
def envBad (o : Opnd) : Bool :=
  let hi := o.lo + o.len - 1
  decide (o.lo < 0) || decide (hi ≥ 2 ^ 64) || decide (o.lo.toNat / 2 ^ 57 ≠ hi.toNat / 2 ^ 57)
    || pathBad o.va || !o.paths.contains (pathOf o.va)

/-- Whether an envelope lies on a tile-buffer path. -/
def Opnd.isTb (o : Opnd) : Bool := pathOf o.va == 2 || pathOf o.va == 4

/-- The parts of a byte range on each 32 KiB page, in ascending order. -/
def pageParts (lo len : Nat) : List (Nat × Nat) :=
  if len = 0 then []
  else (List.range ((lo + len - 1) / 2 ^ 15 - lo / 2 ^ 15 + 1)).map fun i =>
    let p := (lo / 2 ^ 15 + i) * 2 ^ 15
    let a := max lo p
    (a, min (lo + len) (p + 2 ^ 15) - a)

/-- What one page of an envelope gives at dispatch (R95 pass 1, R441). -/
inductive PageRes where
  | tb (a n : Nat)
  | other (leaf : Word)
  | skip
  | bad (d : Disp)

/-- ACC of an engine access (R262). -/
def engAcc (w : Bool) : Nat := if w then 5 else 4

/-- Whether a place lies outside the tile that an operand is bound to. -/
def Opnd.offTile (o : Opnd) (l : Loc) : Bool := match o.tile with | some t => tileOf (l.a / 65536) != t | none => false

/-- One page of an envelope at dispatch: a page that is not present, or whose leaf denies the access, is passed over unless it is a tile buffer's (R95, R441). -/
def pageAt (s : State) (c : Cmd) (o : Opnd) (part : Nat × Nat) : PageRes :=
  let va := BitVec.ofNat 64 part.1
  match transl s c.vf (part.1 % 2 ^ 57) with
  | .absent m => if o.isTb then .bad (.page ⟨.notPresent, va, engAcc o.wr, m, false, false⟩) else .skip
  | .seg => .bad (.fault .segment va (engAcc o.wr))
  | .leaf e bits =>
    let l := placeOf c.core va e bits
    if (o.wr && !pteW e) || (!o.wr && !pteR e) then
      if o.isTb then .bad (.page ⟨.notPresent, va, engAcc o.wr, false, true, false⟩) else .skip
    else if placeBad s c.vf va e l (o.tts.contains ·) || o.offTile l then .bad (.fault .path va (engAcc o.wr))
    else if l.sp = .tb then
      if !o.bufs.contains (tbBuf (l.a % 2 ^ 21)) || !o.bufs.contains (tbBuf ((l.a + part.2 - 1) % 2 ^ 21))
          || (match o.half with
              | some h => !(tbBuf (l.a % 2 ^ 21) == 2 && (tbHalf (l.a % 2 ^ 21) == h || h == 2)) | none => false) then
        .bad (.fault .path va (engAcc o.wr))
      else if (partition s c.vf e l).isNone then .bad (.fault .segment va (engAcc o.wr))
      else .tb l.a part.2
    else if (partition s c.vf e l).isNone then .bad (.fault .segment va (engAcc o.wr))
    else .other e

/-- The pages of an envelope at dispatch, in ascending order: the tile-buffer bytes reached, or the first failure. A PATH or SEGMENT failure of an earlier page or operand is met before a later page that is not present (DESIGN CHOICE, log 92: R441 gives no order over several pages). -/
def pagesAt (s : State) (c : Cmd) (o : Opnd) : List (Nat × Nat) → Except Disp (List (Nat × Nat))
  | [] => .ok []
  | p :: r =>
    match pageAt s c o p with
    | .bad d => .error d
    | .tb a n => (pagesAt s c o r).map ((a, n) :: ·)
    | _ => pagesAt s c o r

/-- Pass 1 of R95 for one operand. -/
def opndAt (s : State) (c : Cmd) (o : Opnd) : Except Disp (List (Nat × Nat)) :=
  if envBad o then .error (.fault .path o.va (engAcc o.wr)) else pagesAt s c o (pageParts o.lo.toNat o.len)

/-- Pass 2 of R95 for one operand: the lend clause over the whole envelope, the per-byte clause over the pages present. -/
def opndRights (s : State) (c : Cmd) (o : Opnd) : Option Disp :=
  if c.snap.any (snapCovers o.lo.toNat o.len o.wr) then none
  else (pageParts o.lo.toNat o.len).findSome? fun part =>
    match transl s c.vf (part.1 % 2 ^ 57) with
    | .leaf e _ =>
      if (o.wr && !pteW e) || (!o.wr && !pteR e) then none
      else match right s c.vf c.dom (pteDT e) part.1 with
        | none => some (.fault .segment (BitVec.ofNat 64 part.1) (engAcc o.wr))
        | some r =>
          if o.wr then if r < 2 then some (.refuse .domainWrite) else none
          else if r < 1 then some (.refuse .domainRead) else none
    | _ => none

/-- A page of an operand (R97). -/
def Opnd.page (o : Opnd) (va : Nat) : Int × Nat × Bool × Nat := (o.lo, o.len, o.wr, va / 2 ^ 15)

/-- The pages of operands that are present at dispatch and allow their access: their rights are checked there and not again (R95, R97). -/
def presentPages (s : State) (c : Cmd) (os : List Opnd) : List (Int × Nat × Bool × Nat) :=
  os.flatMap fun o => (pageParts o.lo.toNat o.len).filterMap fun part =>
    match transl s c.vf (part.1 % 2 ^ 57) with
    | .leaf e _ => if (o.wr && !pteW e) || (!o.wr && !pteR e) then none else some (o.page part.1)
    | _ => none

/-- The first failure of a list of checks. -/
def firstOf : List (Option Disp) → Option Disp
  | [] => none
  | some d :: _ => some d
  | none :: r => firstOf r

/-- A check that fails with a terminal fault. -/
def needs (b : Bool) (code : FaultCode) (va : Word) : Option Disp := if b then none else some (.fault code va 0)

/-- Pass 1 over several operands, in order: the tile-buffer bytes read and written. -/
def opndsAt (s : State) (c : Cmd) : List Opnd → Except Disp (List (Nat × Nat) × List (Nat × Nat))
  | [] => .ok ([], [])
  | o :: r =>
    match opndAt s c o with
    | .error d => .error d
    | .ok x =>
      match opndsAt s c r with
      | .error d => .error d
      | .ok y => .ok (if o.wr then (y.1, x ++ y.2) else (x ++ y.1, y.2))

/-- The pane checks of a command that writes tile buffers (R115, R118): the share, or inside a publish group the reservation and the own tile. -/
def paneCheck (s : State) (c : Cmd) (regs : List Nat) : Bool :=
  match c.pub with
  | none => (tilesOf regs).all fun t => decide (onTile t regs ≤ paneShare s t c.vf)
  | some g =>
    match getPub s g with
    | none => true
    | some p => (tilesOf regs).all (· == tileOf c.core) && decide ((p.regions ++ regs).dedup.length ≤ p.n)

/-- Whether two operands' envelopes meet, as addresses or as bytes of a tile buffer. -/
def envMeet (s : State) (c : Cmd) (o p : Opnd) : Bool :=
  (decide (o.lo < p.lo + p.len) && decide (p.lo < o.lo + o.len))
    || (match opndAt s c o, opndAt s c p with
        | .ok x, .ok y => rangesMeet x y
        | _, _ => false)

/-- The common end of the dispatch checks: static checks, pages, quadrants, panes, rights, overlap (R95, R186, R221, R226). -/
def dispatchWith (s : State) (c : Cmd) (early : List (Option Disp)) (order : List Opnd) (late : List (Option Disp))
    (rights : List Opnd) (overlap : Bool) : Disp :=
  match firstOf early with
  | some d => d
  | none =>
    match opndsAt s c order with
    | .error d => d
    | .ok (rs, ws) =>
      match firstOf late with
      | some d => d
      | none =>
        let regs := regionsOf ws
        if !paneCheck s c regs then .fault .illegalField 0 0
        else match firstOf (rights.map (opndRights s c)) with
          | some d => d
          | none => if overlap then .refuse .overlap else .ok { c with tbR := rs, tbW := ws, panes := regs, okP := presentPages s c rights }

/-! Matrix commands (R186). -/

/-- Quadrants of a code, K half by K half (R178). -/
def quadsOf : Quad → List Nat
  | .q0 => [0] | .q1 => [1] | .q2 => [2] | .q3 => [3] | .h01 => [0, 1] | .h23 => [2, 3]
  | .v02 => [0, 2] | .v13 => [1, 3] | .all => [0, 1, 2, 3]

/-- The AB half a code writes (R178). -/
def quadHalf : Quad → Nat
  | .q2 | .q3 | .h23 => 1
  | _ => 0

/-- R179: the half tiles of the quadrants belong to the VF. -/
def quadsOwned (s : State) (c : Cmd) (q : Quad) : Bool :=
  (quadsOf q).all fun i => ownsHalf s c.vf (2 * tileOf c.core + i / 2)

/-- The half an accumulator operand must lie in (R186 check 6): 2 admits both. -/
def accHalf (s : State) (c : Cmd) (q : Quad) : Nat :=
  if (q == .q2 || q == .q3) && ownsHalf s c.vf (2 * tileOf c.core) && ownsHalf s c.vf (2 * tileOf c.core + 1) then 2 else quadHalf q

/-- The paths and target types of a matrix operand other than an accumulator. -/
def matOpnd (env : Int × Nat) (wr : Bool) (bufs : List Nat) : Opnd := ⟨env.1, env.2, wr, [0, 2, 4], [0, 1, 5, 3], bufs, none, none⟩

/-- An accumulator operand (R186 check 6). -/
def accOpnd (s : State) (c : Cmd) (q : Quad) (env : Int × Nat) (wr : Bool) : Opnd :=
  ⟨env.1, env.2, wr, [2], [3], [2], some (accHalf s c q), none⟩

/-- Bytes of a row of e elements (R182). -/
def rowBytes (f : Fmt) (e : Nat) : Nat := e * f.width / 8

/-- Bytes of the destination element for alignment (R186 check 5). -/
def elemBytes (f : Fmt) : Nat := if f.width ≤ 8 then 1 else f.width / 8

/-- Flags of MLDW's MOD. -/
def Cmd.sc (c : Cmd) : Bool := bitsN c.mods 4 1 == 1

/-- .SP2 of MLDW, .OVW of MMUL. -/
def Cmd.mod5 (c : Cmd) : Bool := bitsN c.mods 5 1 == 1

/-- .T of MLDW, .SAT of MMUL and MDRAIN. -/
def Cmd.mod6 (c : Cmd) : Bool := bitsN c.mods 6 1 == 1

/-- Bytes of a weight image (R183). -/
def imageLen (f : Fmt) (sc sp2 t : Bool) (rs n k : Nat) : Nat :=
  if t then if sc then n * rs + n * (k / f.blk) else (n - 1) * rs + rowBytes f k
  else if sp2 then k / 2 * rs + k / 4 * (n / 2) + (if sc then k / f.blk * n else 0)
  else if sc then k * rs + k / f.blk * n else (k - 1) * rs + rowBytes f n

/-- A latch record: the last MLDW that entered the queue naming the quadrant (R181). -/
def getRec (s : State) (t q : Nat) : Option (LDesc × Nat) := (s.recs.find? (·.1 == 4 * t + q)).map (·.2)

/-- The descriptions an MMUL multiplies with, by the latch records of its quadrants; `fused` treats single-quadrant records as holding the fused code (R181, R205). -/
def mmulDesc (s : State) (c : Cmd) : Option LDesc :=
  let t := tileOf c.core
  let ds := (quadsOf c.quad).map fun q => (getRec s t q).map (·.1)
  match ds with
  | some d :: _ =>
    if ds.all fun x => x == some d then
      if d.q = c.quad then some d else none
    else if c.rep = 5 then
      -- a replacement of GEN 4: single-quadrant records of equal format, N and K, dense or sparse
      if ds.all fun x => match x with | some y => y.fmt == d.fmt && y.n == d.n && y.k == d.k && y.sc == d.sc | none => false then
        some { d with q := c.quad, k := 2 * d.k } else none
    else none
  | _ => none

/-- R171: whether an activation format pairs with a weight format. -/
def paired (w a : Fmt) : Bool :=
  match w with
  | .fp4 => a == .fp4 | .tap6 => a == .tap6 | .i8 => a == .i8
  | .e4m3 | .e5m2 | .tap8 => a == .e4m3 || a == .e5m2 || a == .tap8
  | .bf16 | .f16 => a == .bf16 || a == .f16
  | _ => false

/-- R171: whether .SC is allowed with the two formats. -/
def scPair (w a : Fmt) : Bool := w.scOk && a.scOk

/-- Length of an activation row (R184). -/
def actLen (f : Fmt) (k : Nat) (sc : Bool) : Nat := k * f.width / 8 + (if sc then k / f.blk else 0)

/-- MLDW (R376). -/
def dispMldw (s : State) (c : Cmd) : Disp :=
  let f := c.fmt
  let rs := fieldN c.b 0 20
  let row := if c.mod6 then rowBytes f c.k else rowBytes f c.n
  let o := matOpnd ((c.a.toNat : Int), imageLen f c.sc c.mod5 c.mod6 rs c.n c.k) false [0, 1]
  dispatchWith s c [needs (fieldN c.b 20 44 == 0 && decide (row ≤ rs)) .illegalField 0] [o]
    [needs (quadsOwned s c c.quad) .segment 0] [o] false

/-- MMUL (R378). -/
def dispMmul (s : State) (c : Cmd) : Disp :=
  match mmulDesc s c with
  | none => .fault .illegalField 0 0
  | some d =>
    if !(paired d.fmt c.fmt && d.sc == c.sc && (!c.sc || scPair d.fmt c.fmt)) then .fault .illegalField 0 0
    else
      let as := fieldN c.c 16 20
      let cs := fieldN c.c 36 20
      let m := c.m
      let la := actLen c.fmt d.k c.sc
      let oa := matOpnd (rowsEnv c.a m as la) false [0, 1, 2]
      let oc := accOpnd s c c.quad (rowsEnv c.b m cs (4 * d.n)) true
      let inPlace := c.a == c.b && as == cs && decide (la ≤ as)
      let pendW := s.cmds.any fun x => x.op == .mldw && x.st != .done && !x.held && tileOf x.core == tileOf c.core && x.id != c.id
        && (quadsOf x.quad).any ((quadsOf c.quad).contains ·)
        && (let rs := fieldN x.b 0 20
            envMeet s c oc (matOpnd ((x.a.toNat : Int), imageLen x.fmt x.sc x.mod5 x.mod6 rs x.n x.k) false [0, 1]))
      dispatchWith s { c with wdesc := some d }
        [needs (decide (m ≠ 0) && fieldN c.c 56 8 == 0 && decide (la ≤ as) && decide (4 * d.n ≤ cs)) .illegalField 0,
         needs (c.b.toNat % 4 == 0 && cs % 4 == 0) .align 0]
        [oc, oa] [needs (quadsOwned s c c.quad) .segment 0] [oa, oc]
        ((envMeet s c oc oa && !inPlace) || pendW)

/-- MDRAIN (R374). -/
def dispMdrain (s : State) (c : Cmd) : Disp :=
  let cs := fieldN c.c 16 20
  let xs := fieldN c.c 36 20
  let m := c.m
  let f := c.fmt
  let row := rowBytes f c.n
  let oc := accOpnd s c c.quad (rowsEnv c.a m cs (4 * c.n)) false
  let ox := matOpnd (rowsEnv c.b m xs row) true [1, 2]
  dispatchWith s c
    [needs (decide (m ≠ 0) && fieldN c.c 56 8 == 0 && decide (4 * c.n ≤ cs) && decide (row ≤ xs)) .illegalField 0,
     needs (c.a.toNat % 4 == 0 && cs % 4 == 0 && c.b.toNat % elemBytes f == 0 && xs % elemBytes f == 0) .align 0]
    [oc, ox] [needs (quadsOwned s c c.quad) .segment 0] [oc, ox] (envMeet s c oc ox)

/-- MZERO (R381). -/
def dispMzero (s : State) (c : Cmd) : Disp :=
  let cs := fieldN c.b 16 20
  let m := c.m
  let oc := accOpnd s c c.quad (rowsEnv c.a m cs (4 * c.n)) true
  dispatchWith s c
    [needs (decide (m ≠ 0) && fieldN c.b 36 28 == 0 && decide (4 * c.n ≤ cs)) .illegalField 0,
     needs (c.a.toNat % 4 == 0 && cs % 4 == 0) .align 0]
    [oc] [needs (quadsOwned s c c.quad) .segment 0] [oc] false

/-- Bytes of a dense source of SPCMP with its scale plane (R183, R191). -/
def spSrcLen (c : Cmd) (rs : Nat) : Nat := imageLen c.fmt c.sc false false rs c.n c.k

/-- SPCMP (R397). -/
def dispSpcmp (s : State) (c : Cmd) : Disp :=
  let rs := fieldN c.c 0 20
  let ds := fieldN c.c 20 20
  let row := rowBytes c.fmt c.n
  let oa := matOpnd ((c.a.toNat : Int), spSrcLen c rs) false [0, 1, 2]
  let ob : Opnd := ⟨(c.b.toNat : Int), imageLen c.fmt c.sc true false ds c.n c.k, true, [0], [0, 1, 5], [], none, none⟩
  dispatchWith s c [needs (fieldN c.c 40 24 == 0 && decide (row ≤ rs) && decide (row ≤ ds)) .illegalField 0]
    [oa, ob] [] [oa, ob] (envMeet s c oa ob)

/-! LYT (R221). -/

/-- LYT. -/
def dispLyt (s : State) (c : Cmd) : Disp :=
  let l := lword c.c c.c2
  let b := lBytes l
  let es := if lWidth l ≤ 8 then 1 else lWidth l / 8
  let oa : Opnd := ⟨(c.a.toNat : Int), b, false, [0, 2, 4], [0, 1, 5, 3], [0, 1], none, none⟩
  let ob : Opnd := ⟨(c.b.toNat : Int), b, true, [0, 2, 4], [0, 1, 5, 3], [0, 1], none, none⟩
  dispatchWith s c [needs (lReason l).isNone .illegalField 0, needs (c.a.toNat % es == 0 && c.b.toNat % es == 0) .align 0]
    [oa, ob] [] [oa, ob] (envMeet s c oa ob)

/-! Copies (R226). -/

/-- A copy setup register of a command. -/
def Cmd.cp (c : Cmd) (i : Nat) : Word := c.cps.getD i 0

/-- Whether a command writes a tile buffer, by its operation and destination path (R118). -/
def Cmd.writesTb (c : Cmd) : Bool :=
  let tb (va : Word) : Bool := pathOf va == 2 || pathOf va == 4
  match c.op with
  | .mmul | .mzero => true
  | .mdrain | .lyt => tb c.b
  | .cpgo | .cpgath | .cpscat => tb (c.cp 1)
  | .mldw | .spcmp | .coll => false

/-- Rows of a copy; 0 is taken as 1 (R223). -/
def Cmd.crows (c : Cmd) : Nat := if fieldN (c.cp 3) 0 24 = 0 then 1 else fieldN (c.cp 3) 0 24

/-- Bytes of a row of a copy. -/
def Cmd.clen (c : Cmd) : Nat := fieldN (c.cp 2) 0 32

/-- A stride of a copy, as a signed number. -/
def Cmd.cstr (c : Cmd) (i : Nat) : Int := (c.cp i).toInt

/-- Idx(i), signed (R225). -/
def Cmd.cidx (c : Cmd) (i : Nat) : Int := (c.idx.getD i 0).toInt

/-- The envelope of the rows that an index vector names, their addresses formed modulo 2^64 (R95, R346). -/
def idxEnv (c : Cmd) (base : Word) (stride : Int) : Int × Nat :=
  let xs := (List.range c.crows).map fun i => (base + BitVec.ofInt 64 (c.cidx i * stride)).toNat
  let lo := xs.foldl min (xs.headD 0)
  let hi := xs.foldl max (xs.headD 0)
  (lo, hi - lo + c.clen)

/-- The source envelope of a copy. -/
def copySrc (c : Cmd) : Int × Nat :=
  if c.op = .cpgath then idxEnv c (c.cp 0) (c.cstr 4) else rowsEnv (c.cp 0) c.crows (c.cstr 4) c.clen

/-- The destination envelope of a copy. -/
def copyDst (c : Cmd) : Int × Nat :=
  if c.op = .cpscat then idxEnv c (c.cp 1) (c.cstr 5) else rowsEnv (c.cp 1) c.crows (c.cstr 5) c.clen

/-- An operand of the copy channel (R106, R108, R226 item 2). -/
def copyOpnd (e : Int × Nat) (wr : Bool) : Opnd := ⟨e.1, e.2, wr, [0, 2, 3, 4], [0, 1, 5, 2, 3], [0, 1, 2], none, none⟩

/-- The 16 bytes at BAR of a copy as an operand, none where BAR is 0: a barrier in a scratchpad of the issuing tile (R226 items 2, 3 and 5). -/
def barOpnd (c : Cmd) : List Opnd :=
  if c.cp 7 = 0 then [] else [⟨((c.cp 7).toNat : Int), 16, true, [3], [2], [], none, some (tileOf c.core)⟩]

/-- The operands of a copy: its source, its destination and its barrier. -/
def copyOpnds (c : Cmd) : List Opnd := [copyOpnd (copySrc c) false, copyOpnd (copyDst c) true] ++ barOpnd c

/-- CPGO, CPGATH and CPSCAT (R226): a BAR page that is not present is left to first translation (R95, R97). -/
def dispCopy (s : State) (c : Cmd) : Disp :=
  let n := c.crows
  let sgnOk (x : Word) : Bool := x.toNat / 2 ^ 47 == 0 || x.toNat / 2 ^ 47 == 2 ^ 17 - 1
  let oa := copyOpnd (copySrc c) false
  let ob := copyOpnd (copyDst c) true
  let fields := decide (c.clen ≠ 0) && fieldN (c.cp 2) 32 32 == 0 && fieldN (c.cp 3) 24 40 == 0 && sgnOk (c.cp 4)
    && sgnOk (c.cp 5) && fieldN (c.cp 6) 7 57 == 0 && decide (c.clen * n ≤ 2 ^ 40) && (c.op == .cpgo || decide (n ≤ 32))
  if !fields then .fault .illegalField 0 0
  else dispatchWith s c [] (copyOpnds c) [needs ((c.cp 7).toNat % 16 == 0) .align (c.cp 7)] (copyOpnds c) (envMeet s c oa ob)

/-! COLL (R238, R342). -/

/-- Bytes of an element of a collective. -/
def collEsz (f : Nat) : Nat := if f = 8 ∨ f = 9 then 4 else 2

/-- A field of a COLL descriptor: word `i`, bits [lo + n - 1 : lo]. -/
def Cmd.cd (c : Cmd) (i lo n : Nat) : Nat := fieldN (c.desc.getD i 0) lo n

/-- NRANK. -/
def Cmd.nrank (c : Cmd) : Nat := c.cd 2 0 16

/-- RANK. -/
def Cmd.rank (c : Cmd) : Nat := c.cd 2 16 16

/-- ROOT. -/
def Cmd.root (c : Cmd) : Nat := c.cd 2 32 10

/-- FMT of a collective, as its code. -/
def Cmd.cfmt (c : Cmd) : Nat := c.cd 2 42 4

/-- RED. -/
def Cmd.red (c : Cmd) : Nat := c.cd 2 46 2

/-- COUNT. -/
def Cmd.count (c : Cmd) : Nat := c.cd 5 0 40

/-- The op of a COLL. -/
def Cmd.cop (c : Cmd) : Nat := c.mods % 4

/-- Bytes of a block. -/
def Cmd.blkBytes (c : Cmd) : Nat := c.count * collEsz c.cfmt

/-- Bytes of the source of a collective; 0 when it is not read (R238). -/
def collSrcLen (c : Cmd) : Nat :=
  if c.cop = 0 ∨ c.cop = 2 then c.nrank * c.blkBytes
  else if c.cop = 1 then c.blkBytes else if c.rank = c.root then c.blkBytes else 0

/-- Bytes of the destination of a collective (R238). -/
def collDstLen (c : Cmd) : Nat := if c.cop = 1 ∨ c.cop = 2 then c.nrank * c.blkBytes else c.blkBytes

/-- A general-path operand of a collective: TT 0 or 1 (R238). -/
def collOpnd (va : Word) (len : Nat) (wr : Bool) : Opnd := ⟨(va.toNat : Int), len, wr, [0], [0, 1], [], none, none⟩

/-- Reads bytes for the dispatch of a COLL, each page translated; a page not present parks the command (R342 step 3). -/
def collBytes (s : State) (c : Cmd) (va : Word) : Nat → Except Disp (List Byte)
  | 0 => .ok []
  | n + 1 =>
    match resolve s c.core c.vf va (some false) 4 (fun t => t == 0 || t == 1) with
    | .error e => .error (if e.code = .notPresent then .page e else .fault e.code va 4)
    | .ok r => match atsCheck s c.vf va 4 r.loc with
      | .error e => .error (if e.code = .notPresent then .page e else .fault e.code va 4)
      | .ok _ => (collBytes s c (va + 1) n).map (rdLoc s r.loc :: ·)

/-- Splits bytes into little-endian words of `n` bytes. -/
def splitWords (n : Nat) : Nat → List Byte → List Nat
  | 0, _ => []
  | k + 1, bs => natOfBytes (bs.take n) :: splitWords n k (bs.drop n)

/-- Whether an engine is leased to a VF under a generation, and the lease has not run out (R237, R282). -/
def leaseIs (s : State) (v eng : Nat) (gen : BitVec 32) : Bool :=
  let e := getEngine s eng
  e.gen == gen && (match e.lease with | some (w, t) => w == v && decide (s.refTimer < t) | none => false)

/-- An engine is marked as being given back by an UNLEASE, or no more (R415). -/
def setBack (s : State) (eng : Nat) (b : Bool) : State := { s with engines := mset s.engines eng { getEngine s eng with back := b } }

/-- Whether a lease handle is current for a VF (R237, R282). A handle with a reserved bit set names no lease: the command is refused with LEASE (DESIGN CHOICE, log 76: R238 also lists reserved fields under ILLEGAL_FIELD). -/
def leaseCurrent (s : State) (v : Nat) (h : Word) : Bool :=
  fieldN h 4 12 == 0 && fieldN h 48 16 == 0 && leaseIs s v (fieldN h 0 4) (BitVec.ofNat 32 (fieldN h 16 32))

/-- The source operand of a collective: none where its source is not read (R238). -/
def collSrcs1 (c : Cmd) : List Opnd := if collSrcLen c = 0 then [] else [collOpnd (c.desc.getD 3 0) (collSrcLen c) false]

/-- The operands of a COLL: descriptor, peer list, source, destination (R238, R342). -/
def collOpnds (c : Cmd) : List Opnd :=
  [collOpnd c.a 64 false, collOpnd (c.desc.getD 1 0) (4 * c.nrank) false] ++ collSrcs1 c
    ++ [collOpnd (c.desc.getD 4 0) (collDstLen c) true]

/-- COLL (R238, R342). No alignment is asked of SRCA, DSTA and PEERS: R238 lists none (DESIGN CHOICE, log 76). A page of the peer list that is not present parks it like one of the descriptor, and what fails later fails as after that park (DESIGN CHOICE, log 115: step 3 names a descriptor page only). -/
def dispColl (s : State) (c0 : Cmd) : Disp :=
  if c0.a.toNat % 8 ≠ 0 then .fault .align c0.a 4
  else if envBad (collOpnd c0.a 64 false) then .fault .path c0.a 4
  else match collBytes s c0 c0.a 64 with
    | .error d => d
    | .ok bs =>
      let c := { c0 with desc := (splitWords 8 8 bs).map (BitVec.ofNat 64 ·) }
      let peersVa := c.desc.getD 1 0
      let fields := decide (2 ≤ c.nrank) && decide (c.nrank ≤ 1024) && decide (c.rank < c.nrank) && decide (c.root < c.nrank)
        && (c.cfmt == 8 || c.cfmt == 6 || c.cfmt == 7 || c.cfmt == 9) && (c.cop == 1 || c.cop == 3 || c.red != 3)
        && c.cd 2 48 16 == 0 && decide (1 ≤ c.count) && c.cd 5 40 24 == 0 && c.cd 6 0 64 == 0 && c.cd 7 0 64 == 0
      if !fields then .fault .illegalField 0 0
      else if envBad (collOpnd peersVa (4 * c.nrank) false) then .fault .path peersVa 4
      else match collBytes s c peersVa (4 * c.nrank) with
        | .error d => d
        | .ok ps =>
          let peers := splitWords 4 c.nrank ps
          if peers.any (fun p => p / 1024 != 0) || peers.getD c.rank 0 != Config.ownDevice then .fault .illegalField 0 0
          else match opndsAt s c ((collOpnds c).drop 2) with
            | .error d => d
            | .ok _ =>
              if !leaseCurrent s c.vf (c.desc.getD 0 0) || (getEngine s (c.cd 0 0 4)).back then .refuse .lease
              else match firstOf ((collOpnds c).map (opndRights s c)) with
                | some d => d
                | none => .ok { c with idx := (peers.map (BitVec.ofNat 32 ·)), okP := presentPages s c (collOpnds c) }

/-- The dispatch checks of an engine command. -/
def dispCheck (s : State) (c : Cmd) : Disp :=
  match c.op with
  | .mldw => dispMldw s c | .mmul => dispMmul s c | .mdrain => dispMdrain s c | .mzero => dispMzero s c
  | .spcmp => dispSpcmp s c | .lyt => dispLyt s c | .cpgo | .cpgath | .cpscat => dispCopy s c | .coll => dispColl s c

/-! Entry into the queues. -/

/-- The description an MLDW latches (R181). -/
def Cmd.ldesc (c : Cmd) : LDesc := ⟨c.fmt, c.sc, c.mod5, c.quad, c.k, c.n⟩

/-- The latch records after an MLDW has entered the queue (R181). -/
def noteRec (s : State) (c : Cmd) : State :=
  if c.op = .mldw then
    { s with recs := (quadsOf c.quad).foldl (fun m q => mset m (4 * tileOf c.core + q) (c.ldesc, c.id)) s.recs }
  else s

/-- A failed or cancelled MLDW sets back the records it still holds (R181). -/
def resetRec (s : State) (c : Cmd) : State :=
  if c.op ≠ .mldw then s
  else (quadsOf c.quad).foldl (fun s q =>
    let k := 4 * tileOf c.core + q
    match (s.recs.find? (·.1 == k)).map (·.2) with
    | some (_, id) =>
      if id = c.id then
        match (s.latches.find? (·.1 == k)).map (·.2) with
        | some l => { s with recs := mset s.recs k (l.desc, 0) }
        | none => { s with recs := mdel s.recs k }
      else s
    | none => s) s

/-- The lends of a snapshot that meet an operand of the command (R94). -/
def snapOf (c : Cmd) (ops : List Opnd) : List Snap :=
  c.snap.filter fun l => ops.any fun o => decide (o.lo < (l.base.toNat : Int) + l.len) && decide ((l.base.toNat : Int) < o.lo + o.len)

/-- The operand envelopes of a command that has passed its checks. -/
def Cmd.opnds (s : State) (c : Cmd) : List Opnd :=
  match c.op with
  | .mldw => [matOpnd ((c.a.toNat : Int), imageLen c.fmt c.sc c.mod5 c.mod6 (fieldN c.b 0 20) c.n c.k) false [0, 1]]
  | .mmul =>
    match c.wdesc.or (mmulDesc s c) with
    | some d => [matOpnd (rowsEnv c.a c.m (fieldN c.c 16 20) (actLen c.fmt d.k c.sc)) false [0, 1, 2],
                 accOpnd s c c.quad (rowsEnv c.b c.m (fieldN c.c 36 20) (4 * d.n)) true]
    | none => []
  | .mdrain => [accOpnd s c c.quad (rowsEnv c.a c.m (fieldN c.c 16 20) (4 * c.n)) false,
                matOpnd (rowsEnv c.b c.m (fieldN c.c 36 20) (rowBytes c.fmt c.n)) true [1, 2]]
  | .mzero => [accOpnd s c c.quad (rowsEnv c.a c.m (fieldN c.b 16 20) (4 * c.n)) true]
  | .spcmp => [matOpnd ((c.a.toNat : Int), spSrcLen c (fieldN c.c 0 20)) false [0, 1, 2],
               matOpnd ((c.b.toNat : Int), imageLen c.fmt c.sc true false (fieldN c.c 20 20) c.n c.k) true []]
  | .lyt => [matOpnd ((c.a.toNat : Int), lBytes (lword c.c c.c2)) false [0, 1],
             matOpnd ((c.b.toNat : Int), lBytes (lword c.c c.c2)) true [0, 1]]
  | .cpgo | .cpgath | .cpscat => copyOpnds c
  | .coll => collOpnds c

/-- What the checks of a command's operands have used stays in the caches of its VF (R85). -/
def noteOpnds (s : State) (c : Cmd) : State :=
  notePages (noteDescs s c.vf c.dom) c.vf c.dom ((c.opnds s).flatMap fun o => pageParts o.lo.toNat o.len)

/-- Copies of a core that wait for a slot of its channel, of whatever VF (R227). -/
def slotWaiters (s : State) (core : Nat) : List Cmd := s.cmds.filter fun c => c.core == core && c.st == .slotWait

/-- Transfers in flight on the channel of a core, those of VFs that have left it among them (R3, R227, R273). -/
def inFlight (s : State) (core : Nat) : Nat :=
  (getCore s core).ctx.xids.length
    + ((s.saved.filter fun p => p.1 % 65536 == core && p.1 / 65536 != vfOf s core).map fun p => p.2.xids.length).sum

/-- A copy takes a slot: it receives the next identifier, gId fills, its tag is armed (R227, R232). -/
def takeSlot (s : State) (c : Cmd) : State :=
  let x := getCtx s c.core c.vf
  let id := x.nextXid
  let tag := (c.cp 6).toNat
  let y := { x with nextXid := id + 1, xids := x.xids ++ [id] }
  let y' := if tag / 64 % 2 = 0 then armTag y (tag % 64) else y
  fillPend (setCmd (setCtx s c.core c.vf y') { c with xid := id, st := .queued }) c.owner c.reg (.cmd c.id) (BitVec.ofNat 64 id)

/-- Whether a spoke has an entry that holds back the later ones (R227, R441). -/
def heldBack (s : State) (o : Owner) : Bool :=
  s.cmds.any fun c => c.owner == o && c.holdsBack

/-- The lends that a command relies on from its issue: those that meet its ranges (R94). An MMUL that has not passed its checks, whose weights are not known, and a COLL whose descriptor has not been read rely on all the lends open to their domain (DEDUCED, log 80). -/
def heldSnap (s : State) (c : Cmd) : List Snap :=
  if (c.op = .mmul ∧ c.wdesc.isNone) ∨ (c.op = .coll ∧ c.desc.isEmpty) then c.snap else snapOf c (c.opnds s)

/-- Releases the lends that a command that ends at dispatch relied on (R94, R95). -/
def unhold (s : State) (c : Cmd) : State := modOwner s c.owner fun p => dropSnap p c.snap

/-- A command that has passed its checks enters its queue (R180, R220, R227); the publish group's regions grow with it. Of the lends it held since its issue it keeps those that meet its operands (R94). -/
def enter (s : State) (c : Cmd) : State :=
  let snap := snapOf c (c.opnds s)
  let c1 := { c with snap := snap, st := if c.op.isCopy then .slotWait else .queued, tab := [] }
  let s1 := if c.grp.isSome then s else modOwner s c.owner fun p => dropSnap (holdSnap p snap) c.snap
  let s2 := match c1.pub, c1.grp with
    | some g, none => (match getPub s1 g with
      | some p => { s1 with pubs := mset s1.pubs g { p with regions := (p.regions ++ c1.panes).dedup } }
      | none => s1)
    | _, _ => s1
  let s3 := noteRec { s2 with cmds := s2.cmds ++ [c1] } c1
  if c.op.isCopy then
    if inFlight s3 c.core < 512 ∧ (slotWaiters s3 c.core).length ≤ 1 then takeSlot s3 c1 else s3
  else s3

/-- An entry that is refused or fails relies on no lend; it fills its register, or releases its spoke (R95, R96, R202). -/
def failReg (s : State) (c : Cmd) (code : FaultCode) : State :=
  let s1 := unhold s c
  if c.reg ≠ 0 then fillPend s1 c.owner c.reg (.cmd c.id) (refuseWord code)
  else modOwner s1 c.owner fun p => if p.park = .cmd c.id then { p with park := .none } else p

/-- A command waits at dispatch; the lends it relies on stay held. -/
def waitAt (s : State) (c : Cmd) (st : CmdSt) : State := { s with cmds := s.cmds ++ [{ c with st := st }] }

/-- A command parks at dispatch on a page (R441, R342), on a fault waiter of the core when one is free; with none it is held back, but for a COLL, which holds back nothing. -/
def pageWait (s : State) (c0 : Cmd) (e : FErr) : State :=
  let c := { c0 with errVa := e.va, errAcc := e.acc }
  match takeWaiter (waitAt s c .pageWait) c.core c.vf (.cmd c.id) e c.pc c.dom with
  | some (s2, _) => s2
  | none => waitAt s c (if c.op = .coll then .pageWait else .behind)

/-- A command whose failure comes after its window has been dispatched ends in error, with no trap of the window (R210, R342). -/
def failLate (s : State) (c : Cmd) (code : FaultCode) (va : Word) (acc : Nat) : State :=
  report (unhold s c) { c with errVa := va, errAcc := acc } (refuseWord code) (some code)

end Sys2Proof.Machine
end

