-- ==== Sys2Proof/Machine/Trowel.lean ====
section
/-! DEFINITION. The Trowel: windows and their seal (R197 to R202), rules (R203 to R207), rewritten groups (R208 to R211), TRLOG (R212). -/

namespace Sys2Proof.Machine

/-! Fields of a rule (R203, R205). -/

/-- Bits [lo + n - 1 : lo] of a rule. -/
def ruleF (r : BitVec 256) (lo n : Nat) : Nat := fieldN r lo n

/-- V. -/
def ruleV (r : BitVec 256) : Bool := bitN r 0

/-- Pattern length. -/
def ruleLen (r : BitVec 256) : Nat := ruleF r 1 2 + 2

/-- Number of replacements. -/
def ruleReps (r : BitVec 256) : Nat := ruleF r 3 1 + 1

/-- CLASS. -/
def ruleClass (r : BitVec 256) : Nat := ruleF r 4 2

/-- KEEP of position p. -/
def ruleKeep (r : BitVec 256) (p : Nat) : Bool := bitN r (6 + p)

/-- PRED. -/
def rulePred (r : BitVec 256) : Nat := ruleF r 10 4

/-- INGRP. -/
def ruleInGrp (r : BitVec 256) : Bool := bitN r 14

/-- A field of position p. -/
def rulePos (r : BitVec 256) (p lo n : Nat) : Nat := ruleF r (16 + 32 * p + lo) n

/-- A field of constraint c. -/
def ruleCon (r : BitVec 256) (c lo n : Nat) : Nat := ruleF r (144 + 12 * c + lo) n

/-- A field of replacement k. -/
def ruleRep (r : BitVec 256) (k lo n : Nat) : Nat := ruleF r (180 + 38 * k + lo) n

/-- OP[6:0] of an engine command. -/
def EngOp.code : EngOp → Nat
  | .mldw => 0 | .mmul => 1 | .mdrain => 2 | .mzero => 3 | .spcmp => 4 | .lyt => 8
  | .cpgo => 0x11 | .cpgath => 0x12 | .cpscat => 0x13 | .coll => 0x20

/-- The engine command of an OP[6:0]. -/
def engOfCode (k : Nat) : Option EngOp :=
  [EngOp.mldw, .mmul, .mdrain, .mzero, .spcmp, .lyt, .cpgo, .cpgath, .cpscat, .coll].find? fun o => o.code == k

/-- Whether position p admits an opcode (R204). -/
def opAdmits (r : BitVec 256) (p k : Nat) : Bool := (k ^^^ rulePos r p 0 7) &&& rulePos r p 7 7 == 0

/-- Whether position p matches a command by opcode and MOD (R204). -/
def posMatches (r : BitVec 256) (p : Nat) (c : Cmd) : Bool :=
  opAdmits r p c.op.code && (c.mods ^^^ rulePos r p 14 9) &&& rulePos r p 23 9 == 0

/-- The trowel table of a core's half tile (R203), as rules 0 to 63. -/
def trRule (s : State) (core k : Nat) : BitVec 256 := mget 0 (getHalf s (halfOf core)).trowel k

/-- Whether position 0 of some valid rule admits an opcode (R197). -/
def trAdmits (s : State) (core k : Nat) : Bool :=
  (List.range 64).any fun i => let r := trRule s core i; ruleV r && opAdmits r 0 k

/-- Opcodes of group 100 that R76 assigns and that no position may admit (R214). -/
def trForbidden : List Nat := [9, 0x10, 0x11, 0x12, 0x13, 0x14, 0x18, 0x19, 0x1A, 0x1B, 0x20, 0x21, 0x22, 0x28, 0x29]

/-- A rule of an image is well formed (R214). Every constraint and both replacements are held to it, in use or not; the fields of a position beyond the pattern are no position's (DEDUCED, log 22). -/
def ruleOk (r : BitVec 256) : Bool :=
  let l := ruleLen r
  bitsN r.toNat 15 1 == 0 && ruleF r 1 2 != 3 && decide (rulePred r ≤ 6)
    && (List.range 2).all (fun k => ruleRep r k 18 1 == 0)
    && (List.range l).all (fun p => trForbidden.all fun k => !opAdmits r p k)
    && (List.range 3).all (fun c => ruleCon r c 0 2 != 3
        && decide (ruleCon r c 2 2 < l) && decide (ruleCon r c 7 2 < l) && decide (ruleCon r c 4 3 ≤ 4) && decide (ruleCon r c 9 3 ≤ 4))
    && (List.range 2).all (fun k => decide (ruleRep r k 0 2 < l) && decide (ruleRep r k 35 3 ≤ 5)
        && (List.range 4).all fun m => decide (ruleRep r k (19 + 4 * m + 2) 2 < l))
    && (List.range 4).all (fun p => decide (p < l) || !ruleKeep r p)
    && !(List.range l).all (ruleKeep r ·)
    && !(ruleClass r == 1 && !ruleInGrp r)

/-! Matching (R204). -/

/-- An operand value of a command: 0 SA, 1 SB, 2 SC, 3 gL + 1, 4 IMM48. -/
def Cmd.operand (c : Cmd) (k : Nat) : Word :=
  match k with
  | 0 => c.a | 1 => c.b | 2 => c.c | 3 => if c.op = .lyt then c.c2 else 0 | _ => BitVec.ofNat 64 c.imm

/-- The tile-buffer byte that an address reaches, if it reaches one. -/
def tbPlace (s : State) (c : Cmd) (va : Word) : Option Nat :=
  if pathBad va then none
  else match transl s c.vf (va.toNat % 2 ^ 57) with
    | .leaf e bits =>
      let l := placeOf c.core va e bits
      if placeBad s c.vf va e l (· == 3) then none else some l.a
    | _ => none

/-- One constraint of a rule. -/
def conHolds (s : State) (r : BitVec 256) (k : Nat) (w : List Cmd) : Bool :=
  if ruleCon r k 0 2 = 0 then true
  else match w[ruleCon r k 2 2]?, w[ruleCon r k 7 2]? with
    | some x, some y =>
      let a := x.operand (ruleCon r k 4 3)
      let b := y.operand (ruleCon r k 9 3)
      if ruleCon r k 0 2 = 1 then a == b
      else match tbPlace s x a, tbPlace s y b with
        | some p, some q => p == q
        | _, _ => false
    | _, _ => false

/-- The layout word of a LYT. -/
def Cmd.lw (c : Cmd) : Nat := lword c.c c.c2

/-- A LYT that exchanges dimensions of N rows by K elements of a width. -/
def lytExch (c : Cmd) (width n k : Nat) : Bool :=
  c.op == .lyt && lExchange c.lw && lWidth c.lw == width && lSize c.lw 0 == k && lSize c.lw 1 == n

/-- Predicate LYTMLDW over a LYT and an MLDW, with or without .SC. -/
def lytMldw (x m : Cmd) (sc : Bool) : Bool :=
  m.op == .mldw && lytExch x m.fmt.width m.n m.k && x.b == m.a && fieldN m.b 0 20 == m.n * m.fmt.width / 8
    && m.sc == sc && !m.mod5 && !m.mod6

/-- Predicate DRAINFOLD. -/
def drainFold (s : State) (x y z : Cmd) : Bool :=
  match mmulDesc s x, tbPlace s y y.b with
  | some d, some t =>
    x.op == .mmul && x.mod5 && x.sc && y.op == .mdrain && z.op == .mzero
      && bitsN y.imm 14 8 != 0 && y.quad == x.quad && y.a == x.b && fieldN y.c 16 20 == fieldN x.c 36 20
      && y.m == x.m && y.n == d.n && tbBuf (t % 2 ^ 21) != 0
      && z.a == x.b && fieldN z.b 16 20 == fieldN x.c 36 20 && z.m == x.m && z.n == d.n
  | _, _ => false

/-- Predicate SPLITK. -/
def splitK (s : State) (x y : Cmd) : Bool :=
  let cols := (x.quad == .q2 && y.quad == .q0) || (x.quad == .q3 && y.quad == .q1)
  match mmulDesc s x, mmulDesc s y, tbPlace s x x.b with
  | some d, some e, some t =>
    x.op == .mmul && y.op == .mmul && cols && !x.mod5 && !y.mod5 && !x.sc && !y.sc
      && x.b == y.b && fieldN x.c 36 20 == fieldN y.c 36 20 && x.m == y.m && x.fmt == y.fmt
      && tbBuf (t % 2 ^ 21) == 2 && tbHalf (t % 2 ^ 21) == 0
      && x.a == y.a + BitVec.ofNat 64 (d.k * x.fmt.width / 8) && fieldN x.c 16 20 == fieldN y.c 16 20
      && decide (fieldN x.c 16 20 ≥ 2 * d.k * x.fmt.width / 8)
      && d.fmt == e.fmt && d.n == e.n && d.k == e.k && d.k == d.fmt.rowK
      && ownsHalf s x.vf (2 * tileOf x.core) && ownsHalf s x.vf (2 * tileOf x.core + 1)
  | _, _, _ => false

/-- A predicate of R204. -/
def predHolds (s : State) (k : Nat) (w : List Cmd) : Bool :=
  match k, w with
  | 0, _ => true
  | 1, x :: y :: _ =>
    x.op == .lyt && y.op == .lyt && y.a == x.b && lBytes y.lw == lBytes x.lw && y.b == x.a
      && lComposes x.lw y.lw && lIdentity (lCompose x.lw y.lw)
  | 2, x :: y :: _ => lytMldw x y false
  | 3, x :: y :: z :: _ =>
    let nk := BitVec.ofNat 64 (z.n * z.k * z.fmt.width / 8)
    lytMldw x z true && lytExch y 8 z.n (z.k / z.fmt.blk) && y.a == x.a + nk && y.b == z.a + nk
  | 4, x :: y :: _ =>
    x.op == .lyt && y.op == .lyt && y.a == x.b && lBytes y.lw == lBytes x.lw && lComposes x.lw y.lw
      && (lReason (lCompose x.lw y.lw)).isNone
  | 5, x :: y :: z :: _ => drainFold s x y z
  | 6, x :: y :: _ => splitK s x y
  | _, _ => false

/-- Whether a rule matches commands that have passed their checks (R204). -/
def ruleMatches (s : State) (r : BitVec 256) (w : List Cmd) : Bool :=
  ruleV r && w.length == ruleLen r && (w.zipIdx.all fun p => posMatches r p.2 p.1)
    && (List.range 3).all (conHolds s r · w) && predHolds s (rulePred r) w
    && (!ruleInGrp r || w.all (bitN ·.perm 2))

/-! Permission and resources (R206, R207). -/

/-- Whether the class of a rule is allowed. -/
def classAllowed (r : BitVec 256) (w : List Cmd) : Bool :=
  match ruleClass r with
  | 0 => true
  | 1 => w.all fun c => bitN c.perm 2
  | 2 => w.all fun c => bitN c.perm 0
  | _ => w.all fun c => bitN c.perm 1

/-- The destination address of a matrix or layout command. -/
def Cmd.dstVa (c : Cmd) : Word := match c.op with | .mzero => c.a | _ => c.b

/-- A destination is shadowed (R207). -/
def shadowed (c : Cmd) : Bool :=
  c.op == .mldw || ((pathOf c.dstVa == 2 || pathOf c.dstVa == 4) && (tilesOf c.panes).all (· == tileOf c.core))

/-- The computed field of a replacement `c` made from template `t` (R205). GEN 4 makes V13 of every quadrant code but Q0 (DESIGN CHOICE, log 110: R205 gives a value for Q0 and Q1 only). -/
def applyGen (gen : Nat) (w : List Cmd) (t c : Cmd) : Cmd :=
  let adj := match w[1]? with | some y => bitsN y.imm 14 8 | none => 0
  let bare := c.imm - bitsN c.imm 14 8 * 2 ^ 14
  match gen with
  | 1 =>
    match w with
    | x :: y :: _ => let l := lCompose x.lw y.lw; { c with c := BitVec.ofNat 64 l, c2 := BitVec.ofNat 64 (l / 2 ^ 64) }
    | _ => c
  | 2 => { c with imm := bare + adj * 2 ^ 14 }
  | 3 => { c with imm := bare }
  | 4 => { c with imm := c.imm / 16 * 16 + (if c.imm % 16 = 0 then 6 else 7) }
  | 5 => { c with b := BitVec.ofNat 64 (t.k * t.fmt.width / 8) }
  | _ => c

/-- A selector of MOVE. -/
def moved (w : List Cmd) (sel : Nat) : Word :=
  match w[sel / 4]? with | some x => x.operand (sel % 4) | none => 0

/-- A replacement (R205); none when its OP is no engine command. Its rights are checked with the lends that its template relied on, and no other original's (DESIGN CHOICE, log 93: R94 and R208 do not say). -/
def replacement (r : BitVec 256) (k : Nat) (w : List Cmd) : Option (Nat × Cmd) :=
  let p := ruleRep r k 0 2
  match w[p]?, engOfCode (ruleRep r k 2 7) with
  | some t, some op =>
    let m (i : Nat) : Word := moved w (ruleRep r k (19 + 4 * i) 4)
    let c := { t with op := op, mods := t.mods ^^^ ruleRep r k 9 9, a := m 0, b := m 1, c := m 2, c2 := m 3
                      rep := ruleRep r k 35 3 + 1 }
    some (p, applyGen (ruleRep r k 35 3) w t c)
  | _, _ => none

/-- The commands of the group that a rule makes of its originals, in the order in which they enter their queues; none when a replacement cannot be built. The spec gives no order among them: they go by position, a kept position before the replacements of that template (DESIGN CHOICE, log 79). -/
def rewrite (r : BitVec 256) (w : List Cmd) : Option (List Cmd) :=
  match (List.range (ruleReps r)).mapM (replacement r · w) with
  | none => none
  | some reps =>
    some ((w.zipIdx).flatMap fun p =>
      (if ruleKeep r p.2 then [p.1] else []) ++ (reps.filter (·.1 == p.2)).map (·.2))

/-- The regions that a command's writes reach. -/
def cmdRegions (s : State) (c : Cmd) : List Nat :=
  match opndsAt s c ((c.opnds s).filter (·.wr)) with
  | .ok (_, ws) => regionsOf ws
  | .error _ => []

/-- R207: the destinations are shadowed and the group's panes fit. -/
def resources (s : State) (r : BitVec 256) (w : List Cmd) : Bool :=
  w.all shadowed &&
    match w, rewrite r w with
    | x :: _, some cs =>
      let regs := (cs.flatMap (cmdRegions s)).dedup
      let resv := match ((w.findSome? (·.pub)).or (openPub s x)).bind (getPub s ·) with | some p => p.n | none => 0
      decide (regs.length + resv ≤ paneShare s (tileOf x.core) x.vf)
    | _, _ => true

/-- The checks of a replacement that an issued command passes by its word alone (R186 checks 1 to 3, R321). -/
def shapeOk (c : Cmd) : Bool :=
  let f := c.fmt
  let code := c.mods % 16
  match c.op with
  | .mldw => decide (c.mods < 128) && decide (code ≤ 7) && f.matrix && (!c.sc || f.scOk)
      && (!c.mod5 || (!c.mod6 && (f.width == 4 || f.width == 8)))
      && decide (c.imm % 16 ≤ 8) && okN (BitVec.ofNat 10 c.n) c.quad.capN
      && okK (BitVec.ofNat 10 c.k) f.blk (c.quad.rows * f.rowK * (if c.mod5 then 2 else 1)) && c.imm / 2 ^ 24 == 0
  | .mmul => decide (c.mods < 128) && decide (code ≤ 7) && f.matrix && (!c.sc || f.scOk) && decide (c.imm % 16 ≤ 8)
      && (c.imm / 16 % 2 ^ 10 == 0) && c.imm / 2 ^ 22 == 0 && (c.rep == 3 || c.imm / 2 ^ 14 == 0)
  | .mdrain => decide (c.mods < 128) && decide (code ≤ 9) && f.r74 && decide (c.imm % 16 ≤ 8)
      && okN (BitVec.ofNat 10 c.n) c.quad.capN && c.imm / 2 ^ 22 == 0
  | .mzero => c.mods == 0 && decide (c.imm % 16 ≤ 8) && okN (BitVec.ofNat 10 c.n) c.quad.capN && c.imm / 2 ^ 14 == 0
  | .spcmp => decide (c.mods < 32) && decide (code ≤ 7) && f.sparse && (!c.sc || f.scOk)
      && okN (BitVec.ofNat 10 c.n) 512 && okK (BitVec.ofNat 10 c.k) f.blk (4 * f.rowK) && c.imm % 16 == 0 && c.imm / 2 ^ 24 == 0
  | .lyt => c.mods == 0 && c.imm == 0
  | _ => false

/-! TRLOG (R212). -/

/-- Appends a record; a ninth removes the oldest. -/
def trLog (p : Spoke) (rule out : Nat) (pcs : List Word) : Spoke :=
  let hdr := BitVec.ofNat 64 (rule % 64 + out * 64 + pcs.length * 256 + p.trseq.toNat * 2 ^ 16 + 2 ^ 63)
  let l := p.trlog ++ [hdr :: pcs]
  { p with trlog := l.drop (l.length - 8), trseq := p.trseq + 1 }

/-- The oldest unread word of TRLOG, and the queue without it (R212). -/
def trPop (p : Spoke) : Word × Spoke :=
  match p.trlog with
  | [] => (0, p)
  | [] :: r => (0, { p with trlog := r })
  | [w] :: r => (w, { p with trlog := r })
  | (w :: ws) :: r => (w, { p with trlog := ws :: r })

/-! Groups (R208, R210). -/

/-- Takes a command out of its queue and its fault waiter. -/
def stopCmd (s : State) (id : Nat) : State :=
  match getCmd s id with
  | some c => leaveCmd (delCmd s id) c.core id
  | none => s

/-- Dispatches commands whose window has been dispatched before, in order: the originals of an abandoned group, a COLL that has waited for a page. The first that waits for a page holds back the rest, and none is matched again or owes a trap (R210, R342, R441). -/
def replay (s : State) : List Cmd → State
  | [] => s
  | c :: r =>
    match dispCheck s c with
    | .ok c' => replay (enter s c') r
    | .refuse code => replay (failLate s c code 0 (codeAcc code)) r
    | .fault code va acc => replay (failLate s c code va acc) r
    | .page e => r.foldl (fun s c => waitAt s c .behind) (pageWait s c e)

/-- The same in the middle of the queues: behind `pre` and ahead of `post`, whose latch records stay (R181, R210). -/
def replayAt (s : State) (pre post cs : List Cmd) : State :=
  let s1 := replay { s with cmds := pre } cs
  let keep := s.recs.filter fun p => post.any (·.id == p.2.2)
  { s1 with cmds := s1.cmds ++ post, recs := keep.foldl (fun m p => mset m p.1 p.2) s1.recs }

/-- A latch record that a command of an abandoned group has set goes back to what it was: what the last MLDW that is still queued before the group has set, or else the description of the latch (R181, R210). -/
def unRec (s : State) (pre : List Cmd) (t : TrGrp) : State :=
  { s with recs := s.recs.filterMap fun p =>
      if !t.cmds.contains p.2.2 then some p
      else match (pre.filter fun c => c.op == .mldw && c.entered && (quadsOf c.quad).any fun q => 4 * tileOf c.core + q == p.1).getLast? with
        | some c => some (p.1, (c.ldesc, c.id))
        | none => (s.latches.find? (·.1 == p.1)).map fun l => (p.1, (l.2.desc, 0)) }

/-- Abandons a group (R210, R211): its commands stop, its panes and latch changes are dropped; the originals run in its place when `again` holds. -/
def abandon (s : State) (g : Nat) (again : Bool) : State :=
  match getTg s g with
  | none => s
  | some t =>
    let mine (c : Cmd) : Bool := c.grp == some g
    let pre := s.cmds.takeWhile fun c => !mine c
    let post := (s.cmds.dropWhile fun c => !mine c).filter fun c => !mine c
    let s0 := (s.cmds.filter mine).foldl (fun s c => leaveCmd s c.core c.id) (unRec s pre t)
    let s1 := { s0 with cmds := pre ++ post, tgrps := s0.tgrps.filter (·.1 != g), paneReqs := s0.paneReqs.filter (·.grp != some g) }
    let s2 := modOwner s1 t.owner fun p => trLog p t.rule 2 (t.origs.map (·.pc))
    if again then
      let all := t.origs.flatMap (·.snap)
      giveKeep (replayAt (modOwner s2 t.owner fun p => holdSnap p all) pre post (t.origs.map fun c => { c with again := g })) t.owner g all
    else t.origs.foldl unhold s2

/-- Enters the commands of a group, checked in order; a failure abandons the group (R210). -/
def enterGroup (s : State) (g : Nat) : List Cmd → State
  | [] => s
  | c :: r =>
    match (if shapeOk c then dispCheck s c else .refuse .illegalField) with
    | .ok c' => enterGroup (enter s c') g r
    | _ => abandon s g true

/-- Gives fresh numbers to the commands of a group; `po` is their place in program order, that of the last original (R209). -/
def numberCmds (s : State) (g po : Nat) : List Cmd → State × List Cmd
  | [] => (s, [])
  | c :: r =>
    let x := numberCmds (bump s) g po r
    (x.1, { c with id := s.nextId, reg := 0, grp := some g, pub := none, po := po } :: x.2)

/-- Dispatches a rewritten group in place of its originals (R208). -/
def dispatchGroup (s : State) (k : Nat) (w cs : List Cmd) : State :=
  match w with
  | [] => s
  | x :: _ =>
    let g := s.nextId
    let origs := w.map fun c => { c with snap := snapOf c (c.opnds s) }
    let s1 := (w.zip origs).foldl (fun s c => modOwner s c.1.owner fun p => dropSnap (holdSnap p c.2.snap) c.1.snap) (bump s)
    let s2 := match (w.findSome? (·.pub)).bind (getPub s1 ·) with
      | some p => { s1 with pubs := mset s1.pubs p.id { p with regions := (p.regions ++ w.flatMap (·.panes)).dedup } }
      | none => s1
    let (s3, ds) := numberCmds s2 g ((w.map (·.po)).foldl max 0) cs
    let t : TrGrp := { id := g, owner := x.owner, core := x.core, vf := x.vf, rule := k, origs := origs, cmds := ds.map (·.id)
                       regions := (cs.flatMap (cmdRegions s)).dedup, ovl := [], pub := w.findSome? (·.pub), flags := 0, held := false, latches := [] }
    enterGroup { s3 with tgrps := mset s3.tgrps g t } g ds

/-- Tries the rules of a table from the lowest number on the front of a window (R201): the state, and how many entries were dispatched. -/
def tryRules (s : State) (tab : List (Nat × BitVec 256)) (ws : List (Option Cmd)) : List Nat → State × Nat
  | [] => (s, 0)
  | k :: ks =>
    let r := mget 0 tab k
    match (ws.take (ruleLen r)).mapM id with
    | none => tryRules s tab ws ks
    | some w =>
      let log (out : Nat) : State := match w with
        | [] => s
        | x :: _ => modOwner s x.owner fun p => trLog p k out (w.map (·.pc))
      if !ruleMatches s r w then tryRules s tab ws ks
      else if !classAllowed r w then tryRules (log 1) tab ws ks
      else if !resources s r w then tryRules (log 3) tab ws ks
      else match rewrite r w with
        | some cs => (dispatchGroup (log 0) k w cs, w.length)
        | none =>
          -- a replacement fails its dispatch check: the originals dispatch as written (R210)
          let s1 := match w with
            | [] => s
            | x :: _ => modOwner (log 0) x.owner fun p => trLog p k 2 (w.map (·.pc))
          (w.foldl enter s1, w.length)

/-- The second step of a seal: matches the entries that passed with the table of the seal, and dispatches them (R201, R203). -/
def matchDispatch : Nat → State → List (Option Cmd) → State
  | 0, s, _ => s
  | _ + 1, s, [] => s
  | fuel + 1, s, none :: r => matchDispatch fuel s r
  | fuel + 1, s, some c :: r =>
    let x := tryRules s c.tab (some c :: r) (List.range 64)
    if x.2 = 0 then matchDispatch fuel (enter x.1 c) r else matchDispatch fuel x.1 ((some c :: r).drop x.2)

/-- The first step of a seal (R201): each entry checked in order over what the earlier ones will have done; stops behind an entry that waits for a page or a copy slot, unless it is a COLL (R342). The entries before it are matched and dispatched without it, and the others are checked and matched among themselves once it has its page (DESIGN CHOICE, log 102: R201 and R441 do not say). -/
def checkWin (sx : State) : List Cmd → List (Cmd × Disp) × List Cmd
  | [] => ([], [])
  | c :: r =>
    match dispCheck sx c with
    | .page e => if c.op = .coll then (let x := checkWin sx r; ((c, .page e) :: x.1, x.2)) else ([(c, .page e)], r)
    | .ok c' =>
      let sy := enter sx c'
      if c.op.isCopy && sy.cmds.any (fun x => x.id == c.id && x.st == .slotWait) then ([(c', .ok c')], r)
      else let x := checkWin sy r; ((c', .ok c') :: x.1, x.2)
    | d => let x := checkWin sx r; ((c, d) :: x.1, x.2)

/-- The failures of a window so far: the first terminal one and the number of later ones (R202). -/
structure WinFail where
  first : Option (FaultCode × Word × Word × Nat)   -- code, PC, VA, ACC
  more : Nat
deriving DecidableEq, Repr

/-- One more terminal failure. -/
def WinFail.add (f : WinFail) (code : FaultCode) (pc va : Word) (acc : Nat) : WinFail :=
  match f.first with
  | none => ⟨some (code, pc, va, acc), 0⟩
  | some _ => { f with more := f.more + 1 }

/-- Reports a failed entry (R202). A refused synchronous entry is a terminal failure (R96). -/
def winReport (x : State × WinFail) (p : Cmd × Disp) : State × WinFail :=
  let c := p.1
  match p.2 with
  | .refuse code => (failReg x.1 c code, if c.reg = 0 then x.2.add code c.pc 0 (codeAcc code) else x.2)
  | .fault code va acc => (failReg x.1 c code, x.2.add code c.pc va acc)
  | _ => x

/-- The earlier accesses of a COLL's spoke are performed before its descriptor and peer list are read; posted writes aside (R138). -/
def issFlush (s : State) (c : Cmd) : State :=
  if c.op = .coll then performAll s c.owner ((ownerSp s c.owner).outst.filter fun r => !r.posted && decide (r.id < c.id)) else s

/-- The checks of an entry have used what its operands' pages say (R85). -/
def noteDisp (s : State) (p : Cmd × Disp) : State :=
  match p.2 with
  | .ok _ | .page _ | .refuse .domainRead | .refuse .domainWrite => noteOpnds s p.1
  | _ => s

/-- Dispatches a window (R201, R202, R227, R441). -/
def dispatchWin (s0 : State) (w : List Cmd) : State × WinFail :=
  let s' := w.foldl issFlush s0
  let x := checkWin s' w
  let s := x.1.foldl noteDisp s'
  let (s1, f) := x.1.foldl winReport (s, ⟨none, 0⟩)
  let oks := x.1.map fun p => match p.2 with | .ok c => some c | _ => none
  let s2 := matchDispatch (oks.length + 1) s1 oks
  let s3 := x.1.foldl (fun s p => match p.2 with | .page e => pageWait s p.1 e | _ => s) s2
  (x.2.foldl (fun s c => waitAt s c .behind) s3, f)

/-- The trap of a window that has been dispatched is owed, with the resumption PC given, before what the spoke owes already (R202). -/
def oweWin (s : State) (o : Owner) (f : WinFail) (rpc : Word) : State :=
  match f.first with
  | none => s
  | some (code, pc, va, acc) => modOwner s o fun q => { q with owed := ⟨code, pc, rpc, va, f.more, acc⟩ :: q.owed }

/-- The mark of a trap whose resumption PC is that of the unit its spoke issues next: no PC names slot 7 (R54). -/
def nextMark : Word := 7

/-- The originals of an abandoned group that have waited for a page dispatch in their place in the queues (R210); the lends they share go on to one that still waits or has entered (R208). -/
def replayHeld (s : State) (o : Owner) (g : Nat) (ws : List Cmd) : State :=
  let mine (c : Cmd) : Bool := ws.any (·.id == c.id)
  let pre := s.cmds.takeWhile fun c => !mine c
  let post := (s.cmds.dropWhile fun c => !mine c).filter fun c => !mine c
  giveKeep (replayAt s pre post (ws.map fun c => { c with keep := [] })) o g (ws.flatMap (·.keep))

/-- Dispatches again, window by window, what is held back behind an entry of a spoke that no longer waits (R227, R441). A terminal failure found now is a trap owed at the spoke's next boundary, where it resumes (DEDUCED, log 75). -/
def redispatch (o : Owner) : Nat → State → State
  | 0, s => s
  | fuel + 1, s =>
    let back := s.cmds.filter fun c => c.owner == o && c.holdsBack
    match back with
    | [] => s
    | c :: _ =>
      let w := back.takeWhile fun x => x.st == .behind && x.wno == c.wno && x.again == c.again
      if w.isEmpty then s
      else if c.again ≠ 0 then redispatch o fuel (replayHeld s o c.again w)
      else
        let x := dispatchWin { s with cmds := s.cmds.filter fun x => !back.any (·.id == x.id) } w
        redispatch o fuel (oweWin { x.1 with cmds := x.1.cmds ++ back.drop w.length } o x.2 nextMark)

/-- A COLL that waited for a page is dispatched again by itself (R342). -/
def collAgain (s : State) (c : Cmd) : State := replay (issFlush (delCmd s c.id) c) [c]

/-- Lets what a spoke holds back dispatch. -/
def release (s : State) (o : Owner) : State := redispatch o (s.cmds.length + 1) s

/-- The permissions of a spoke now: RANGE, ROUND, and an open publish group (R204, R206). -/
def permNow (s : State) (v : Nat) (p : Spoke) : BitVec 3 :=
  BitVec.ofNat 3 ((domBit s v p.dom 1 && bitN p.tperm 0).toNat + 2 * (domBit s v p.dom 2 && bitN p.tperm 1).toNat + 4 * p.pub.isSome.toNat)

/-- Seals the window of a spoke (R199 to R202). A terminal failure is a trap owed, with the resumption PC given. -/
def sealWin (s : State) (c n v : Nat) (rpc : Word) : State :=
  let p := getSp s c n v
  match p.win with
  | [] => s
  | x :: _ =>
    let wno := s.nextId
    let perm := permNow s v p
    let w := p.win.map fun e => { e with wno := wno, perm := perm, tab := (getHalf s (halfOf c)).trowel }
    let s1 := bump (setSp s c n v { p with win := [], wcount := 0 })
    if heldBack s1 x.owner then w.foldl (fun s e => waitAt s e .behind) s1
    else
      let y := dispatchWin s1 w
      oweWin y.1 (.spoke c n v) y.2 rpc

/-- An engine command enters the window, or bypasses it (R197, R198, R199). `sx` is the count of instructions since the window opened. -/
def enterWin (s : State) (c n v : Nat) (cmd : Cmd) (rpc : Word) : State :=
  let p := getSp s c n v
  if p.win.isEmpty && !trAdmits s c cmd.op.code then
    sealWin (setSp s c n v { p with win := [cmd], wcount := 1 }) c n v rpc
  else
    let cnt := if p.win.isEmpty then 1 else p.wcount
    let s1 := setSp s c n v { p with win := p.win ++ [cmd], wcount := cnt }
    if p.win.length + 1 ≥ 12 ∨ cmd.reg = 0 ∨ cnt ≥ 64 then sealWin s1 c n v rpc else s1

end Sys2Proof.Machine
end

