-- ==== Sys2Proof/Machine/Operands.lean ====
section
/-! DEFINITION. What an instruction form reads, consumes and writes (R19 to R23, R65, R69), its pairing class (R66), and whether it seals the Trowel window (R199). -/

namespace Sys2Proof.Machine

/-- A source field: the register and its SYN bit. -/
structure Use where
  reg : Reg
  syn : Bool
deriving DecidableEq, Repr

/-- A g source. -/
def gu (a : Src) : Use := ⟨.g a.reg, a.syn⟩

/-- A v source. -/
def vu (a : VSrc) : Use := ⟨.v a.reg, a.syn⟩

/-- The handle of a remote destination, which SC names (R71). -/
def du : Dst → List Use
  | .loc _ => []
  | .remote _ h => [gu h]

/-- A plain g source with no SYN bit. -/
def gr (r : Fin 32) : Use := ⟨.g r, false⟩

/-- The source fields of an instruction, in the order SA, SB, SC (R19, R67). Event rows have none. -/
def Instr.uses : Instr → List Use
  | .addRrr d a b | .subRrr d a b | .mulRrr d a b | .mulhRrr d a b _ | .divRrr d a b _ | .remRrr d a b _
  | .andRrr d a b | .orRrr d a b | .xorRrr d a b | .andnRrr d a b | .shlRrr d a b | .shrRrr d a b
  | .sraRrr d a b | .rotRrr d a b | .minRrr d a b _ | .maxRrr d a b _ | .cmpRrr d a b _ => [gu a, gu b] ++ du d
  | .addRri d a _ | .subRri d a _ | .mulRri d a _ | .mulhRri d a _ _ | .divRri d a _ _ | .remRri d a _ _
  | .andRri d a _ | .orRri d a _ | .xorRri d a _ | .andnRri d a _ | .shlRri d a _ | .shrRri d a _
  | .sraRri d a _ | .rotRri d a _ | .minRri d a _ _ | .maxRri d a _ _ | .cmpRri d a _ _
  | .clz d a | .ctz d a | .popc d a | .mov d a | .lih d a _ | .bfx d a _ _ | .sext d a _ => gu a :: du d
  | .sel _ a b c => [gu a, gu b, gu c]
  | .li d _ => du d
  | .lea d base _ => (match base with | some a => [gu a] | none => []) ++ du d
  | .bfi d a b _ _ => [gu a, gu b] ++ du d
  | .br _ | .call _ _ | .dcallLabel _ _ | .dret | .spend => []
  | .bc a _ _ | .bri a | .ret a | .dcallReg _ a => [gu a]
  | .loop c _ => [gr c]
  | .ld _ _ a _ _ _ | .ldF _ a _ | .ldS _ a _ | .empty a _ => [gu a]
  | .st _ a b _ _ | .stF a b _ => [gu a, gu b]
  | .fence _ | .pgrp _ | .publ => []
  | .roinv a n => [gu a, gu n]
  | .aadd _ _ a b _ _ | .aand _ _ a b _ _ | .aor _ _ a b _ _ | .axor _ _ a b _ _
  | .amin _ _ _ a b _ _ | .amax _ _ _ a b _ _ | .aswp _ _ a b _ _ => [gu a, gu b]
  | .acas _ _ a b c _ _ => [gu a, gu b, gu c]
  | .wake a => [gu a]
  | .ibpop _ _ => []
  | .ibreplay a b => [gu a, gu b]
  | .spstart a b c => [gu a, gu b, gu c]
  | .spstop a | .spresume a | .spkill a | .spreap _ a => [gu a]
  | .spspill a b | .spfill a b => [gu a, gu b]
  | .gbar _ | .garrive _ => []
  | .barinit b a n => [gu b, gu a, gu n]
  | .bararr b n => [gu b, gu n]
  | .barwait b p => [gu b, gu p]
  | .semsig a b | .semwait _ _ a b | .tlsig a b | .tlwait _ a b => [gu a, gu b]
  | .ptest _ _ _ | .cancel _ _ => []
  | .lend _ a b _ => [gu a, gu b]
  | .unlend a | .domq _ a => [gu a]
  | .mldw _ _ _ _ _ _ a b _ _ => [gu a, gu b]
  | .mmul _ _ _ _ _ _ a b c | .mdrain _ _ _ _ _ a b c _ _ | .spcmp _ _ _ a b c _ _ => [gu a, gu b, gu c]
  | .mzero _ _ a b _ => [gu a, gu b]
  | .lyt _ a b l => [gu a, gu b, gr l, gr (l + 1)]
  | .lytq _ l => [gr l, gr (l + 1)]
  | .cpsetReg _ a => [gu a]
  | .cpsetImm _ _ | .cpgo _ => []
  | .cpgath _ x | .cpscat _ x => [vu x]
  | .cpcancel _ a | .waitany _ a | .waitall a | .tagff _ a | .tagclr a | .coll _ _ a | .lease _ a | .unlease a => [gu a]
  | .trload a b => [gu a, gu b]
  | .trseal => []
  | .vadd _ _ _ _ a b | .vsub _ _ _ _ a b | .vmul _ _ _ _ a b | .vmin _ _ a b | .vmax _ _ a b
  | .viadd _ _ _ a b | .vimul _ _ _ a b | .vand _ _ a b | .vor _ _ a b | .vxor _ _ a b | .vshl _ _ a b
  | .vshr _ _ a b | .vcmp _ _ _ a b | .vsel _ a b _ | .vperm _ _ a b => [vu a, vu b]
  | .vfma _ _ _ _ a b c => [vu a, vu b, vu c]
  | .vabs _ _ a | .vneg _ _ a | .vexp2 _ _ a | .vrcp _ _ a | .vrsq _ _ a | .vredadd _ _ a | .vredmax _ _ a
  | .vext _ a _ | .vcvt _ _ _ _ _ _ a | .vqnt _ _ _ a => [vu a]
  | .vrng _ _ _ a b => [gu a, gu b]
  | .vld _ _ _ a _ => [gu a]
  | .vst _ _ a x _ => [gu a, vu x]
  | .vgath _ _ _ a x _ => [gu a, vu x]
  | .vscat _ _ a x y _ => [gu a, vu x, vu y]
  | .vbcast _ _ a => [gu a]
  | .vins _ a b _ => [vu a, gu b]
  | .wrs a _ => [gu a]
  | .tinv a b => [gu a, gu b]
  | _ => []

/-- A local destination of a scalar ALU instruction. -/
def dd : Dst → List Reg
  | .loc r => [.g r]
  | .remote _ _ => []

/-- The local destinations of an instruction (R65, R323). -/
def Instr.dests : Instr → List Reg
  | .addRrr d _ _ | .subRrr d _ _ | .mulRrr d _ _ | .mulhRrr d _ _ _ | .divRrr d _ _ _ | .remRrr d _ _ _
  | .andRrr d _ _ | .orRrr d _ _ | .xorRrr d _ _ | .andnRrr d _ _ | .shlRrr d _ _ | .shrRrr d _ _
  | .sraRrr d _ _ | .rotRrr d _ _ | .minRrr d _ _ _ | .maxRrr d _ _ _ | .cmpRrr d _ _ _
  | .addRri d _ _ | .subRri d _ _ | .mulRri d _ _ | .mulhRri d _ _ _ | .divRri d _ _ _ | .remRri d _ _ _
  | .andRri d _ _ | .orRri d _ _ | .xorRri d _ _ | .andnRri d _ _ | .shlRri d _ _ | .shrRri d _ _
  | .sraRri d _ _ | .rotRri d _ _ | .minRri d _ _ _ | .maxRri d _ _ _ | .cmpRri d _ _ _
  | .clz d _ | .ctz d _ | .popc d _ | .mov d _ | .lih d _ _ | .bfx d _ _ _ | .sext d _ _ | .li d _ | .lea d _ _
  | .bfi d _ _ _ _ => dd d
  | .sel d _ _ _ | .call d _ | .dcallLabel d _ | .dcallReg d _ => [.g d]
  | .loop c _ => [.g c]
  | .ld _ d _ _ _ _ | .ldF d _ _ | .ldS d _ _ | .aadd _ d _ _ _ _ | .aand _ d _ _ _ _ | .aor _ d _ _ _ _
  | .axor _ d _ _ _ _ | .amin _ _ d _ _ _ _ | .amax _ _ d _ _ _ _ | .aswp _ d _ _ _ _ | .acas _ d _ _ _ _ _ => [.g d]
  | .ibpop h x => [.g h, .g x]
  | .spreap d _ | .semwait _ d _ _ | .tlwait d _ _ | .ptest d _ _ | .cancel d _ | .lend d _ _ _ | .domq d _ => [.g d]
  | .mldw _ _ _ _ d _ _ _ _ _ | .mmul _ _ _ _ d _ _ _ _ | .mdrain _ _ _ d _ _ _ _ _ _ | .mzero d _ _ _ _
  | .spcmp _ _ d _ _ _ _ _ | .lyt d _ _ _ | .lytq d _ | .cpgo d | .cpgath d _ | .cpscat d _ | .cpcancel d _
  | .waitany d _ | .tagff d _ | .coll _ d _ | .lease d _ => [.g d]
  | .vadd _ _ _ d _ _ | .vsub _ _ _ d _ _ | .vmul _ _ _ d _ _ | .vmin _ d _ _ | .vmax _ d _ _ | .viadd _ _ d _ _
  | .vimul _ _ d _ _ | .vand _ d _ _ | .vor _ d _ _ | .vxor _ d _ _ | .vshl _ d _ _ | .vshr _ d _ _ | .vsel d _ _ _
  | .vperm _ d _ _ | .vfma _ _ _ d _ _ _ | .vabs _ d _ | .vneg _ d _ | .vexp2 _ d _ | .vrcp _ d _ | .vrsq _ d _
  | .vrng _ _ d _ _ | .vld _ _ d _ _ | .vgath _ _ d _ _ _ | .vbcast _ d _ | .vins d _ _ _ | .vcvt _ _ _ _ _ d _
  | .vqnt _ _ d _ => [.v d]
  | .vredadd _ d _ | .vredmax _ d _ | .vext d _ _ | .kpop d _ | .rds d _ => [.g d]
  | _ => []

/-- The presence of a register. -/
def Spoke.fullR (p : Spoke) : Reg → Bool
  | .g r => p.fullG r
  | .v r => p.fullV r

/-- What a register waits for. -/
def Spoke.pendR (p : Spoke) : Reg → Pend
  | .g r => p.pendG r
  | .v r => p.v[r].pend

/-- Consumes a register (R21). -/
def Spoke.clrR (p : Spoke) : Reg → Spoke
  | .g r => p.clrG r
  | .v r => p.clrV r

/-- Consumes every source whose SYN bit is set (R21). -/
def Spoke.consume (p : Spoke) (us : List Use) : Spoke :=
  us.foldl (fun p u => if u.syn then p.clrR u.reg else p) p

/-- The park on an empty register. -/
def parkOn : Reg → Park
  | .g r => .gsrc r
  | .v r => .vsrc r

/-- The engine commands of R197. -/
def Instr.isEngine : Instr → Bool
  | .mldw .. | .mmul .. | .mdrain .. | .mzero .. | .spcmp .. | .lyt .. | .cpgo .. | .cpgath .. | .cpscat .. | .coll .. => true
  | _ => false

/-- State registers whose RDS seals the window (R199): TAGS, TAGERR, CPWM, MPROG, TRLOG. -/
def rdsSeals (n : Nat) : Bool := decide (4 ≤ n) && decide (n ≤ 8)

/-- Whether an instruction that is no engine command seals the window by what it is, or by the park that follows its issue (R199). -/
def Instr.sealsKind : Instr → Bool
  | .fence _ | .pgrp _ | .publ | .bkpt => true
  | .br _ | .bc .. | .bri _ | .call .. | .ret _ | .loop .. | .dcallLabel .. | .dcallReg .. | .dret | .spend => true
  | .lytq .. | .cpcancel .. | .waitany .. | .waitall _ | .tagff .. | .tagclr _ | .lease .. | .unlease _ | .trload .. | .trseal => true
  | .rds _ n => rdsSeals n.toNat
  | .wrs _ n => n.toNat == 9
  -- parks of R17: plain accesses, bank operations, divisions, acknowledgements
  | .ld rlx .. | .st rlx .. | .aadd rlx .. | .aand rlx .. | .aor rlx .. | .axor rlx .. | .amin rlx .. | .amax rlx ..
  | .aswp rlx .. | .acas rlx .. | .vld rlx .. | .vst rlx .. | .vgath rlx .. | .vscat rlx .. => !rlx
  | .ldF .. | .ldS .. | .stF .. | .empty .. | .roinv .. | .tinv .. | .divRrr .. | .divRri .. | .remRrr .. | .remRri ..
  | .lend .. | .domq .. | .barinit .. | .bararr .. | .semsig .. | .tlsig .. | .spstart .. | .spspill .. | .spfill .. => true
  | _ => false

/-- The base register and displacement of an access (R111, R199). -/
def Instr.accBase : Instr → Option (Fin 32 × BitVec 48)
  | .ld _ _ a _ _ i | .st _ a _ _ i | .vld _ _ _ a i | .vst _ _ a _ i | .vgath _ _ _ a _ i | .vscat _ _ a _ _ i
  | .aadd _ _ a _ _ i | .aand _ _ a _ _ i | .aor _ _ a _ _ i | .axor _ _ a _ _ i | .amin _ _ _ a _ _ i
  | .amax _ _ _ a _ _ i | .aswp _ _ a _ _ i | .acas _ _ a _ _ _ i => some (a.reg, i)
  | _ => none

/-- Whether a lane is active under a mask register (R419). -/
def active (p : Spoke) (km : Fin 4) (i : Nat) : Bool := bitN p.k[km] i

/-- The address of lane i of a contiguous access. -/
def rowAddr (base : Word) (i : Fin 32) : Word := base + BitVec.ofNat 64 (4 * i.val)

/-- The address of lane i of an indexed access. -/
def idxAddr (base : Word) (x : Vector Lane 32) (i : Fin 32) : Word := base + x[i].signExtend 64

/-- The addresses of an access, one for each active lane of a vector access. -/
def Instr.accVas (p : Spoke) (i : Instr) : List Word :=
  match Instr.accBase i with
  | none => []
  | some (r, d) =>
    let base := p.rdG r + imm64 d
    let lanes (m : Fin 4) (f : Fin 32 → Word) : List Word := ((List.finRange 32).filter fun k => active p m k.val).map f
    match i with
    | .vld _ m _ _ _ | .vst _ m _ _ _ => lanes m (rowAddr base)
    | .vgath _ m _ _ x _ | .vscat _ m _ x _ _ => lanes m (idxAddr base p.v[x.reg].val)
    | _ => [base]

/-- Whether an access names a path on which a window is sealed before it (R199). -/
def sealPath (va : Word) : Bool := pathOf va == 2 || pathOf va == 4

/-- The registers an instruction counts as reading for the seal: its sources, and the register that PTEST or CANCEL names (R337, R386). -/
def Instr.sealRegs (i : Instr) : List Reg :=
  (Instr.uses i).map (·.reg) ++ (match i with
    | .ptest _ isV r => [if isV then .v ⟨r.val % 8, by omega⟩ else .g r]
    | .cancel _ r => [.g r]
    | _ => [])

/-- Whether a register is pending on an entry of the window. -/
def winOwes (p : Spoke) (r : Reg) : Bool :=
  match r with
  | .g r => p.win.any fun c => c.reg == r && c.reg != 0
  | .v _ => false

/-- Whether an instruction, about to issue, seals the window first (R199). `cnt` is the number of instructions issued since the window opened. -/
def Instr.seals (p : Spoke) (cnt : Nat) (i : Instr) : Bool :=
  !p.win.isEmpty && !Instr.isEngine i &&
    (Instr.sealsKind i || (Instr.sealRegs i).any (winOwes p) || decide (cnt + 1 ≥ 64)
      || (Instr.accVas p i).any sealPath)

/-! Pairing (R65, R66). -/

/-- The group of a raw word: OP[9:7] (R76). -/
def wordGroup (w : BitVec 96) : Nat := fieldN w 93 3

/-- Opcodes that pair with no second instruction of groups 001 to 111: PGRP, PUBL, TRLOAD, TRSEAL, TRAP, TRET, TINV (R119, R215, R272, R408, R411 to R413). -/
def soloOps : List Nat := [0x104, 0x105, 0x228, 0x229, 0x381, 0x382, 0x385]

/-- The registers that an instruction empties as it issues: its consuming sources, each full before (R21). -/
def eatenBy (us : List Use) : List Reg := (us.filter (·.syn)).map (·.reg)

/-- The template and class limits over one pair of words; a word that does not decode names no register (DEDUCED, log 20). -/
def pairOk (w1 w2 : BitVec 96) : Bool :=
  let g1 := wordGroup w1
  let g2 := wordGroup w2
  let vec (g : Nat) : Bool := g == 5 || g == 6
  let oth (g : Nat) : Bool := g == 1 || g == 2 || g == 3 || g == 4 || g == 6 || g == 7
  let cls := !(vec g1 && vec g2) && !(oth g1 && oth g2) && g1 != 1 && (g2 == 0 || !soloOps.contains (fieldN w1 86 10))
  let regs := match decodeWord w1, decodeWord w2 with
    | .ok i, .ok j =>
      let ds := (Instr.dests i).filter (· != .g 0)
      ds.all (fun d => !((Instr.uses j).any (·.reg == d)) && !(Instr.dests j).contains d)
    | _, _ => true
  cls && regs

/-! The line (R52, R53). -/

/-- Instruction word of slot k (R52). -/
def lineSlot (l : Line) (k : Nat) : BitVec 96 := BitVec.ofNat 96 (l.toNat / 2 ^ (32 + 96 * k))

/-- TGT bit of slot k. -/
def lineTgt (l : Line) (k : Nat) : Bool := bitN l k

/-- ENT bit of slot k. -/
def lineEnt (l : Line) (k : Nat) : Bool := bitN l (5 + k)

/-- PAIR bit j. -/
def linePair (l : Line) (j : Nat) : Bool := bitN l (10 + j)

/-- The exclusive OR of the low `n` bits of a number. -/
def xorBits : Nat → Nat → Bool
  | 0, _ => false
  | n + 1, x => xor (x % 2 == 1) (xorBits n (x / 2))

/-- The parity of every chunk agrees with its PARITY bit (R53). -/
def parityOk (l : Line) : Bool :=
  (List.range 16).all fun c => xorBits 30 (fieldN l (32 + 30 * c) 30) == bitN l (16 + c)

/-- The pairing template of a line (R65, R66). -/
def templateOk (l : Line) : Bool :=
  (List.range 4).all fun j => !linePair l j ||
    (!(j < 3 && linePair l (j + 1)) && !lineTgt l (j + 1) && !lineEnt l (j + 1) && pairOk (lineSlot l j) (lineSlot l (j + 1)))

end Sys2Proof.Machine
end

