-- ==== Sys2Proof/Machine/Ops.lean ====
section
/-! DEFINITION. The shared operations of a step: state registers (R82, R387 to R439), killing (R100, R120, R196, R266), taking a trap (R264), returning from one (R265), retryable faults (R261), entering a line (R55 to R63), issue and settlement (R17 to R23, R67, R73, R199). -/

namespace Sys2Proof.Machine

/-! State registers. -/

/-- The code of a lend state (R90). -/
def LendSt.num : LendSt → Nat
  | .free => 0 | .pending => 1 | .opened => 2 | .closed => 3

/-- LENDST (R90). -/
def lendst (p : Spoke) : Word :=
  BitVec.ofNat 64 (((List.finRange 8).map fun i =>
    ((p.lends[i]).st.num + 4 * (decide ((p.lends[i]).count > 0)).toNat) * 2 ^ (4 * i.val)).sum + p.drs.length * 2 ^ 32)

/-- GSLOT (R38). -/
def gslot (p : Spoke) : Word :=
  BitVec.ofNat 64 ((List.finRange 4).map fun i =>
    let g := p.gslots[i]
    g.grp.toNat * 2 ^ (8 * i.val) + g.valid.toNat * 2 ^ (32 + i.val) + g.arrived.toNat * 2 ^ (36 + i.val)
      + g.phase.toNat * 2 ^ (40 + i.val)).sum

/-- MPROG (R194): the oldest incomplete matrix command, else the last to complete. A command of a rewritten group shows no row before the commit, since the group may be abandoned and ROWS never falls (R210). -/
def mprogWord (s : State) (c n v : Nat) : Word :=
  let p := getSp s c n v
  match (s.cmds ++ p.win).find? fun x => x.owner == .spoke c n v && x.op.isMatrix with
  | some x => progWord (if x.grp.isSome then { x with done := 0 } else x) true (x.st == .parked || x.st == .pageWait)
  | none => p.mprog

/-- The value of a state register for a spoke, and what the read leaves (R388). CYCLE is free above every value that the spoke has read, and stays at its last value once it has reached it (DESIGN CHOICE, log 90: the spec says nothing of its end). -/
def rdsValue (s : State) (c n v k : Nat) : Word × State :=
  let p := getSp s c n v
  let x := getCtx s c v
  match k with
  | 0 => (p.dom.zeroExtend 64, s)
  | 1 => (BitVec.ofNat 64 (16 * c + n), s)
  | 2 => (BitVec.ofNat 64 c, s)
  | 3 => (BitVec.ofNat 64 (tileOf c), s)
  | 4 => (x.tags, s)
  | 5 => (x.tagerr, s)
  | 6 => (BitVec.ofNat 64 (watermark x), s)
  | 7 => (mprogWord s c n v, s)
  | 8 => ((trPop p).1, setSp s c n v (trPop p).2)
  | 9 => (p.tperm.zeroExtend 64, s)
  | 10 => (lendst p, s)
  | 11 => (p.ftok, s)
  | 12 =>
    let m := mget 0 s.cycles (16 * c + n)
    let y := m + Config.freeCycle s.tick % (2 ^ 64 - m)
    (BitVec.ofNat 64 y, { s with cycles := mset s.cycles (16 * c + n) (min (y + 1) (2 ^ 64 - 1)) })
  | 13 => (p.flags.zeroExtend 64, s)
  | 14 => (gslot p, s)
  | _ => (trapVec s v kernelDom, s)

/-- The checks of RDS, in their order (R387); SEGMENT where the descriptor's read does not pass stage 2 (R125). -/
def rdsDenied (s : State) (v k : Nat) (d : BitVec 8) : Option FaultCode :=
  if k = 15 ∧ d ≠ kernelDom then some .stateRight else srrdDenied s v d k

/-- Registers that no WRS may name (R82). -/
def wrsNever (k : Nat) : Bool := k ≤ 3 || k == 8 || k == 10 || k == 12 || k == 14

/-- WRS of a state register (R438, R439). The store of TRAPV comes after the spoke's earlier accesses to its bytes (R130). -/
def wrsState (s : State) (c n v k : Nat) (w : Word) : Except FaultCode State :=
  let p := getSp s c n v
  if k = 15 ∧ p.dom ≠ kernelDom then .error .stateRight
  else if wrsNever k then .error .stateRight
  else match srwrDenied s v p.dom k with
  | some f => .error f
  | none =>
    if k = 4 then .ok (modCtx s c v fun x => { x with tags := x.tags &&& ~~~w })
    else if k = 5 then .ok (modCtx s c v fun x => { x with tagerr := x.tagerr &&& ~~~w })
    else if k = 9 then if w.toNat ≥ 4 then .error .illegalField else .ok (setSp s c n v { p with tperm := BitVec.ofNat 2 w.toNat })
    else if k = 13 then if w.toNat ≥ 32 then .error .illegalField else .ok (setSp s c n v { p with flags := BitVec.ofNat 5 w.toNat })
    else if k = 15 then
      if w ≠ 0 ∧ ¬ pcOk w then .error .illegalField
      else match stage2N s v ((getFn s v).dombase.toNat + 32 * kernelDom.toNat) 8 with
        | none => .error .segment
        | some a => .ok (wrN (flushMeets s (.spoke c n v) (fun _ => true) ⟨.hbm, a⟩ 8) ⟨.hbm, a⟩ 8 w.toNat)
    else .ok s

/-! Stops (R45). -/

/-- A spoke that waits for something after the issue of its last instruction. -/
def blocked (p : Spoke) : Bool := p.park != .none || !p.divs.isEmpty || p.outst.any (·.plain)

/-- A live spoke with a stop requested stops when it stands at a boundary: no plain reply or division outstanding, no trap owed, the window empty, no translation or acknowledgement awaited (R45, R200, R273, R366, R408). -/
def tryStop (s : State) (c n v : Nat) : State :=
  let p := getSp s c n v
  let busy := !p.divs.isEmpty || p.outst.any (fun r => r.plain && !r.posted) || !p.owed.isEmpty || !p.win.isEmpty
    || (match p.park with | .tinv _ => true | _ => false)
  if p.ctx = .live ∧ p.stopReq ∧ ¬ busy then setSp s c n v { p with ctx := .stopped, stopReq := false } else s

/-- Requests the stop of a live spoke; one that a slice end has stopped stays stopped at the next slice. -/
def requestStop (s : State) (c n v : Nat) : State :=
  let s1 := if n = 0 then s else modCtx s c v fun x => { x with slice := x.slice.filter (· != n) }
  if (getSp s1 c n v).ctx = .live then tryStop (modSp s1 c n v fun p => { p with stopReq := true }) c n v else s1

/-! Killing. -/

/-- What the kill of an owner does to one of its commands (R100, R120, R196, R228): those not dispatched are discarded, a parked matrix or layout command completes by cancellation, the others run on for nobody. A copy that has passed its checks and waits for a slot counts as dispatched: it takes one and runs on (DESIGN CHOICE, log 111: R227 has it wait at dispatch, and no rule says what a kill does to it). -/
def killCmd (s : State) (c : Cmd) : State :=
  match c.st with
  | .window | .pageWait | .behind => delCmd (leaveCmd s c.core c.id) c.id
  | .parked =>
    if c.op.isMatrix ∨ c.op = .lyt then
      let d := { c with owner := .gone }
      finish (resetRec (leaveCmd (setCmd s d) c.core c.id) d) d (cancelWord c.done) none
    else setCmd s { c with owner := .gone }
  | _ => setCmd s { c with owner := .gone }

/-- The stores and atomics of a spoke that a command issued after them waits for (R138). -/
def ownFirst (s : State) (o : Owner) : List Nat := ((ownerSp s o).outst.filter fun r => !r.posted).map (·.id)

/-- The commands of an owner that is killed still go after its accesses before them (R138). -/
def keepOrder (s : State) (o : Owner) (ids : List Nat) : State :=
  { s with cmds := s.cmds.map fun c => if c.owner = o then { c with after := ids.filter (· < c.po) } else c }

/-- An UNLEASE that is killed while it waits leaves the lease as it was: its handle is current again (DESIGN CHOICE, log 95: the spec does not say). -/
def takeBack (s : State) : Park → State
  | .wait (.unlease eng _) => setBack s eng false
  | _ => s

/-- Drops all that an owner holds in the machine: rewritten groups, publish group, commands, waiters, fault slots (R30, R100, R120, R211, R267). Its accesses under way and its commands in flight go on for nobody, with their requests for panes, in their order. -/
def killOwner (s : State) (o : Owner) : State :=
  let s1 := flushEnd (keepOrder s o (ownFirst s o)) o
  let s2 := (s1.tgrps.filter (·.2.owner == o)).foldl (fun s g => abandon s g.1 false) s1
  let s3 := { s2 with
    pubs := s2.pubs.filter (·.2.owner != o)
    paneReqs := (s2.paneReqs.filter fun (r : PaneReq) => !(r.owner == o && r.pub.isSome)).map fun (r : PaneReq) =>
      if r.owner = o then { r with owner := .gone } else r }
  let s4 := (s3.cmds.filter (·.owner == o)).foldl killCmd s3
  let s5 := { s4 with waiters := s4.waiters.filter (·.owner != o)
                      leaseReqs := s4.leaseReqs.map fun r => if r.owner = o then { r with owner := .gone } else r
                      invals := s4.invals.map fun r => if r.owner = o then { r with owner := .gone } else r }
  leaveOwner (takeBack s5 (ownerSp s o).park) o

/-- The register writes that a spoke holds behind the first of a pair are sent once it no longer waits (R137). -/
def sendHeld (s : State) (c n v : Nat) : State :=
  let p := getSp s c n v
  if p.sends.isEmpty || blocked p then s
  else p.sends.foldl sendMsg (setSp s c n v { p with sends := [] })

/-- The same for every spoke of a core. -/
def heldOut (s : State) (c : Nat) : State := (List.range 16).foldl (fun s n => sendHeld s c n (vfOf s c)) s

/-- Ends a spoke: its state is discarded, with the register writes that it still holds behind the first of a pair (DESIGN CHOICE, log 91: the spec does not say), `f` sets what SPREAP reports (R51, R100, R402). -/
def endSpoke (s0 : State) (c n v : Nat) (f : Spoke → Spoke) : State :=
  let s := sendHeld s0 c n v
  let s1 := dropHeld (killOwner s (.spoke c n v)) c n v
  let p := getSp s1 c n v
  setSp s1 c n v (f { Spoke.reset with ctx := .ended, ltag := p.ltag, popIdx := p.popIdx })

/-- SPKILL of one spoke (R400, R402). -/
def killSpoke (s : State) (c n v : Nat) : State := endSpoke s c n v fun p => { p with endKilled := true }

/-- The cores on which a VF has contexts, resident or saved. -/
def coresOf (s : State) (v : Nat) : List Nat :=
  ((s.cores.filter fun p => vfOf s p.1 = v).map (·.1)) ++ ((s.saved.filter fun p => p.1 / 65536 == v).map (·.1 % 65536))

/-- The key of a population. -/
def popKey (v tag : Nat) : Nat := v * 65536 + tag

/-- A population. -/
def getPop (s : State) (v tag : Nat) : Option Pop := (s.pops.find? (·.1 == popKey v tag)).map (·.2)

/-- Writes a population. -/
def setPop (s : State) (p : Pop) : State := { s with pops := mset s.pops (popKey p.vf p.tag) p }

/-- The queue that a packet belongs to (R246, R253). -/
def srcQueue (s : State) : PktSrc → Nat × Nat
  | .queue v q => (v, q)
  | .node i _ => match (s.graphs.find? (·.1 == i)).map (·.2) with | some g => (g.vf, g.q) | none => (0, 0)

/-- Kills the members of a population that run, wait in a hub queue, are spilled or are not yet dealt (R266); those with no context count as reaped. -/
def killMembers (s : State) (v tag : Nat) : State :=
  let s1 := (coresOf s v).foldl (fun s c => (List.range 16).foldl (fun s n =>
    let p := getSp s c n v
    if n ≠ 0 ∧ p.ltag = tag ∧ (p.ctx = .live ∨ p.ctx = .stopped) then killSpoke s c n v else s) s) s
  let gone := s1.images.filter fun p => p.2.vf == v && p.2.sp.ltag == tag
  let s2 := gone.foldl (fun s p => killOwner s (.image p.1)) s1
  let s3 := { s2 with images := s2.images.filter fun p => !(p.2.vf == v && p.2.sp.ltag == tag) }
  let waiting := ((coresOf s3 v).map fun c => ((getCtx s3 c v).hubq.filter (·.2 == tag)).length).sum
  let s4 := (coresOf s3 v).foldl (fun s c => modCtx s c v fun x => { x with hubq := x.hubq.filter (·.2 != tag) }) s3
  match getPop s4 v tag with
  | none => s4
  | some p =>
    setPop s4 { p with killed := true, nextIdx := p.size, reaped := p.reaped + gone.length + waiting + (p.size - p.nextIdx) }

/-- KillPopulation (R266) for the population, the lone spoke or the hub spoke that a spoke is: a hub spoke whose kernel domain has no vector stops its core, any other spoke that belongs to no population ends alone. `ecode` is what the queue's error word records; `noVec` says that the delivery has read the kernel domain's vector as 0 (R264). -/
def killPop (s : State) (c n v : Nat) (t : Owed) (ecode : Nat) (noVec : Bool := false) : State :=
  let p := getSp s c n v
  let r := termRec t.code.num t.va t.fpc t.acc p.dom t.more
  if n = 0 ∧ (noVec ∨ trapVec s v kernelDom = 0) then
    let s1 := (List.range 15).foldl (fun s i => requestStop s c (i + 1) v) (postDev s r)
    modSp s1 c 0 v fun p => { p with ctx := .stopped, stopReq := false }
  else match (if n = 0 ∨ p.ltag = 0 then none else getPop s v p.ltag) with
    | some q =>
      let s1 := killMembers (postTerm s v r) v p.ltag
      let (qv, qq) := srcQueue s1 q.src
      queueErr s1 qv qq ecode false
    | none =>
      let s1 := if isSvc s c then postDev s r else postTerm s v r
      endSpoke s1 c n v fun p => { p with endFault := true, endCode := t.code.num }

/-- POP_KILLED (R244). -/
def popKilled : Nat := 0x26

/-! Taking a trap and returning from one. -/

/-- TT of a store on a path that admits ST.D (R106, R404). -/
def stTT (path tt : Nat) : Bool :=
  if path = 0 then ttGeneral tt else if path = 3 then tt == 2 else if path = 5 then tt == 4 else false

/-- A plain ST.D of a spoke performed at once, as trap delivery makes it (R264). -/
def frameStore (s : State) (c n v : Nat) (va x : Word) : Except FErr State :=
  let p := getSp s c n v
  let path := pathOf va
  if pathBad va ∨ path = 1 ∨ path = 2 ∨ path = 4 then .error (errAt .path va 2)
  else if va.toNat % 8 ≠ 0 then .error (errAt .align va 2)
  else match checked s c v p.dom p.lends.toList va 8 true 2 (stTT path) with
    | .error e => .error e
    | .ok r =>
      let s1 := flushMeets (noteRes s v p.dom va r) (.spoke c n v) (fun _ => true) r.loc 8
      match r.loc.sp with
      | .stw => match wrsState s1 c n v (r.loc.a / 8) x with
        | .error f => .error (errAt f va 2)
        | .ok s2 => .ok s2
      | .host | .peer =>
        .ok (modSp (bump s1) c n v fun p => { p with outst := p.outst ++
          [⟨s1.nextId, .store, 8, [⟨0, r.loc, x.toNat, false⟩], [], false, true, [], p.pc, p.pc, va⟩] })
      | _ => .ok (wrN s1 r.loc 8 x.toNat)

/-- The stores of a trap frame, in ascending address order; the flag says that all were made. `bad` counts down to the store that a soft error strikes. -/
def storeFrame (s : State) (c n v : Nat) (a : Word) (bad : Option Nat) : List Word → State × Bool
  | [] => (s, true)
  | x :: r =>
    if bad = some 0 then (s, false)
    else match frameStore s c n v a x with
      | .error _ => (s, false)
      | .ok s1 => storeFrame s1 c n v (a + 8) (bad.map (· - 1)) r

/-- Points a spoke at a line to be entered (R54, R60, R62): the held line serves again, in sequence even when it is stale. -/
def pointAt (p : Spoke) (pc : Word) (k : EntryKind) : Spoke :=
  if p.line.present ∧ (k = .seq ∨ ¬ p.line.stale) ∧ lineOf pc = p.line.addr then { p with pc := pc, want := none, ahead := none, second := false }
  else { p with pc := pc, want := some k, ahead := none, second := false, line := { p.line with present := false } }

/-- A soft error that was to strike a trap delivery has been met, and is counted (R264, R288). -/
def meetSoft (s : State) : State := if s.soft.isSome then countLife { s with soft := none } 3 0 0 else s

/-- The vector that a trap delivery reads: 0 where its read fails, by stage 2 or by a soft error (R264). -/
def vecRead (s : State) (v : Nat) (d : BitVec 8) : Word := if s.soft = some 0 then 0 else trapVec s v d

/-- DeliverTrap (R264), with no seal. -/
def takeTrap (s0 : State) (c n v : Nat) (t : Owed) : State :=
  let s := meetSoft s0
  let p := getSp s c n v
  let vec := vecRead s0 v p.dom
  if vec = 0 ∨ p.drs.length ≥ 16 ∨ ¬ p.fullG 30 then killPop s c n v t popKilled (decide (vec = 0) && p.dom == kernelDom)
  else
    let a := p.rdG 30 - 32
    let head := BitVec.ofNat 64 (t.code.num + (min t.more 255) * 2 ^ 8 + p.dom.toNat * 2 ^ 16)
    let x := storeFrame s c n v a (s0.soft.bind fun k => if k = 0 then none else some (k - 1)) [head, t.fpc, t.rpc, t.va]
    if !x.2 ∨ ¬ pcOk vec then killPop x.1 c n v t popKilled
    else modSp x.1 c n v fun q =>
      pointAt { q.wrG 30 a with drs := q.drs ++ [⟨p.dom, t.rpc, 0, true⟩], park := .none } vec (.vector t)

/-- Delivers a trap behind a seal of the window (R199, R202, R264): a trap that the seal owes, with the resumption PC given, goes before it, and `later` is then owed. -/
def trapSealed (s : State) (c n v : Nat) (rpc : Word) (t : Owed) (later : List Owed) : State :=
  let s1 := sealWin s c n v rpc
  match (getSp s1 c n v).owed with
  | o :: r =>
    if (getSp s c n v).owed.length ≤ r.length then takeTrap (modSp s1 c n v fun p => { p with owed := later ++ r }) c n v o
    else takeTrap s1 c n v t
  | [] => takeTrap s1 c n v t

/-- Delivers the trap of an instruction that has not issued, or of an entry: it is made again after the trap that a seal owes (R202). -/
def deliverTrap (s : State) (c n v : Nat) (t : Owed) : State := trapSealed s c n v t.fpc t []

/-- Delivers the trap of an instruction that has issued: the unit to be issued next is what a seal resumes at, and the trap stays owed behind that of the window (R202). -/
def deliverLate (s : State) (c n v : Nat) (t : Owed) : State := trapSealed s c n v (getSp s c n v).pc t [t]

/-- Delivers the first trap owed, if there is one; one that a window held back at dispatch has met resumes at the unit that is to issue (log 75). -/
def deliverOwed (s : State) (c n v : Nat) : State :=
  match (getSp s c n v).owed with
  | [] => s
  | o :: r =>
    let t := if o.rpc = nextMark then { o with rpc := (getSp s c n v).pc } else o
    deliverLate (modSp s c n v fun p => { p with owed := r }) c n v t

/-- A trap is delivered now, or owed while the spoke still waits for an instruction that has issued (R67). -/
def trapOrOwe (s : State) (c n v : Nat) (t : Owed) : State :=
  if blocked (getSp s c n v) then modSp s c n v fun p => { p with owed := p.owed ++ [t] } else deliverLate s c n v t

/-! Retryable faults (R261, R267). -/

/-- A spoke meets NOT_PRESENT: it joins or takes a fault waiter and leaves the rotation, or parks until a slot is free. -/
def retryFault (s : State) (c n v : Nat) (e : FErr) (pc : Word) : State :=
  let p := getSp s c n v
  match takeWaiter s c v (.owner (.spoke c n v)) e pc p.dom with
  | some (s1, i) =>
    modSp s1 c n v fun p => { p with park := .fault i, ftok := tokenOf c i (getSlot s1 c i).gen, fva := e.va }
  | none => modSp s c n v fun p => { p with park := .slots }

/-! Entering a line. -/

/-- Translation and attributes of a line (R55, R83). -/
def fetchLine (s : State) (c v : Nat) (pc : Word) : Except FErr Res :=
  if pc.toNat / 2 ^ 57 ≠ 0 then .error (errAt .path pc 0)
  else match transl s v (lineOf pc).toNat with
    | .absent m => .error ⟨.notPresent, pc, 0, m, false, false⟩
    | .seg => .error (errAt .segment pc 0)
    | .leaf e bits =>
      let l := placeOf c (lineOf pc) e bits
      if pteTT e ≠ 0 then .error (errAt .path pc 0)
      else if !pteX e ∨ pteDT e = 0 then .error (errAt .execDenied pc 0)
      else match partition s v e l with
        | none => .error (errAt .segment pc 0)
        | some l' => match domInvalid s v (pteDT e) with
          | some f => .error (errAt f pc 0)
          | none => .ok ⟨l', e, bits⟩

/-- Whether the read cache of a core's tile serves a line (R59, R112). -/
def lineHit (s : State) (c : Nat) (r : Res) : Bool :=
  (rfind s (tileOf c) r.loc).isSome && !Config.evict s.tick r.loc.a

/-- The line of a place for fetch, through the read cache, with the transient errors of the two copies (R59, R63): the retry is counted, and none is the end in LINE_PARITY. -/
def getLine (s : State) (c v : Nat) (l : Loc) (err1 err2 : Line) : State × Option Line :=
  let t := tileOf c
  let x := rcLine s t v l
  let l1 := x.2 ^^^ err1
  let drop (s : State) : State := rdrop s t fun r => r.sp == l.sp && r.a == l.a / 64
  if parityOk l1 then (rhold (drop x.1) t v l l1, some l1)
  else
    let s1 := countLife (drop x.1) 2 0 0
    let l2 := memLine s1 l ^^^ err2
    if parityOk l2 then (rhold s1 t v l l2, some l2) else (s1, none)

/-- Whether the fetch of a page is a domain crossing (R55). -/
def crossing (p : Spoke) (pc : Word) (e : Word) : Bool :=
  pteDT e != p.dom && !(decide (p.line.pageLo ≤ (lineOf pc).toNat) && decide ((lineOf pc).toNat < p.line.pageLo + p.line.pageLen))

/-- The entry checks of a slot (R56). -/
def entryCode (k : EntryKind) (l : Line) (slot : Nat) (cross pageE : Bool) : Option FaultCode :=
  let tgt := lineTgt l slot
  let gate := !cross || (lineEnt l slot && pageE)
  match k with
  | .branch | .dcall => if !tgt then some .target else if !gate then some .entry else none
  | .dret | .launch | .start => if !tgt then some .target else none
  | .seq => if !gate then some .entry else none
  | .tret | .vector _ => none

/-- Checks 2 to 5 of R62 over a line that has arrived. -/
def lineCode (k : EntryKind) (l : Line) (slot : Nat) (cross pageE : Bool) : Option FaultCode :=
  if fieldN l 14 2 ≠ 0 then some .illegalField
  else if !templateOk l then some .illegalPair
  else entryCode k l slot cross pageE

/-- The leaf and the descriptor words that a fetch used are held in the caches of its VF (R85). -/
def noteFetch (s : State) (v : Nat) (pc : Word) (r : Res) : State :=
  noteDescs (noteTlb s v (lineOf pc).toNat r.leaf r.bits) v (pteDT r.leaf)

/-- A fetch that was denied has used the leaf and the descriptor words too (R85). -/
def noteTried (s : State) (v : Nat) (pc : Word) : State :=
  if pc.toNat / 2 ^ 57 ≠ 0 then s
  else match transl s v (lineOf pc).toNat with
    | .leaf e bits => noteFetch s v pc ⟨⟨.hbm, 0⟩, e, bits⟩
    | _ => s

/-- A target that no transfer may name: a launch or SPSTART entry is checked as a branch target (R35, R57). -/
def badEntry (k : EntryKind) (pc : Word) : Bool := match k with | .launch | .start => !pcOk pc | _ => false

/-- What a spoke has asked for ahead at a PC (R60). -/
def aheadAt (p : Spoke) (pc : Word) : Option Ahead := p.ahead.filter fun a => a.pc == pc

/-- The place and the leaf that the translation of a line has given. -/
def Ahead.res (a : Ahead) : Res := ⟨a.loc, a.leaf, a.bits⟩

/-- The translation of a line: the one made ahead, or one that is made now (R55, R60). -/
def lineRes (s : State) (c n v : Nat) (pc : Word) : Except FErr Res :=
  match aheadAt (getSp s c n v) pc with
  | some a => match a.err with | some e => .error e | none => .ok a.res
  | none => fetchLine s c v pc

/-- The line buffer that a line read ahead would make. -/
def Ahead.buf (a : Ahead) (l : Line) : LineBuf :=
  ⟨lineOf a.pc, l, true, a.stale, (lineOf a.pc).toNat / 2 ^ a.bits * 2 ^ a.bits, 2 ^ a.bits, a.loc.a⟩

/-- A line that an owner has asked for ahead is read through the cache of a core's tile, with the transient errors of its two copies (R59, R63). -/
def readFor (s : State) (o : Owner) (c v : Nat) (a : Ahead) (err1 err2 : Line) : State :=
  match getLine s c v a.loc err1 err2 with
  | (s1, some l) => modOwner s1 o fun q => { q with ahead := some { a with line := some l } }
  | (s1, none) => modOwner s1 o fun q => { q with ahead := some { a with err := some (errAt .lineParity a.pc 0) } }

/-- The same for a spoke. -/
def readAhead (s : State) (c n v : Nat) (a : Ahead) (err1 err2 : Line) : State := readFor s (.spoke c n v) c v a err1 err2

/-- A spoke asks for the line at its PC: it is translated now, and read when the read cache serves it (R59, R60). -/
def askLine (s : State) (c n v : Nat) : State :=
  let pc := (getSp s c n v).pc
  match fetchLine s c v pc with
  | .error e => modSp (noteTried s v pc) c n v fun q => { q with ahead := some ⟨pc, 0, 0, ⟨.hbm, 0⟩, none, false, some e⟩ }
  | .ok r =>
    let a : Ahead := ⟨pc, r.leaf, r.bits, r.loc, none, false, none⟩
    let s1 := modSp (noteFetch s v pc r) c n v fun q => { q with ahead := some a }
    if lineHit s c r then readAhead s1 c n v a 0 0 else s1

/-- The line that a spoke enters: as it was read ahead, or read now from the place that its translation gave (R59, R60). -/
def readWanted (s : State) (c n v : Nat) (pc : Word) (r : Res) (err1 err2 : Line) : State × Option Line :=
  match aheadAt (getSp s c n v) pc with
  | some a => match a.line with
    | some l => (s, some l)
    | none => getLine s c v r.loc err1 err2
  | none => getLine (noteFetch s v pc r) c v r.loc err1 err2

/-- Enters a line (R62): the checks in their order, then the line buffer, the domain and the PC. A line asked for ahead is entered as it was read, stale where an invalidation has overtaken it (R60). A failure leaves what the read of the line did to the read cache and the counters (R63). -/
def enterLine (s : State) (c n v : Nat) (pc : Word) (k : EntryKind) (err1 err2 : Line) : Except (FErr × State) State :=
  let p := getSp s c n v
  if badEntry k pc then .error (errAt .target pc 0, s)
  else match lineRes s c n v pc with
  | .error e => .error (e, s)
  | .ok r =>
    let d := pteDT r.leaf
    match readWanted s c n v pc r err1 err2 with
    | (s1, none) => .error (errAt .lineParity pc 0, s1)
    | (s1, some l) =>
      match lineCode k l (slotOf pc) (crossing p pc r.leaf) (pteE r.leaf) with
      | some f => .error (errAt f pc 0, s1)
      | none =>
        let lo := (lineOf pc).toNat / 2 ^ r.bits * 2 ^ r.bits
        .ok (modSp s1 c n v fun q => { q with pc := pc, dom := d, want := none, ahead := none, second := false
                                              line := ⟨lineOf pc, l, true, (aheadAt p pc).any (·.stale), lo, 2 ^ r.bits, r.loc.a⟩ })

/-- A line wanted by a spoke is entered now, with the faults of R62, R264 and R266. -/
def enterWanted (s : State) (c n v : Nat) (k : EntryKind) (err1 err2 : Line) : State :=
  let p := getSp s c n v
  let other := match lineRes s c n v p.pc with | .ok r => pteDT r.leaf != p.dom | .error _ => false
  let s0 := modSp s c n v fun p => { p with park := .none }
  let s1 := if other then sealWin s0 c n v p.pc else s0
  if !(getSp s1 c n v).owed.isEmpty then s1
  else match enterLine s1 c n v p.pc k err1 err2 with
    | .ok s2 => s2
    | .error (e, s3) =>
      let s2 := modSp s3 c n v fun p => { p with ahead := none }
      if e.code = .notPresent then retryFault s2 c n v e p.pc
      else
        let t : Owed := ⟨e.code, p.pc, p.pc, e.va, 0, 0⟩
        match k with
        | .vector t0 => killPop s2 c n v t0 popKilled
        | .launch => killPop s2 c n v t e.code.num
        | .start =>
          if p.ltag = 0 then endSpoke s2 c n v fun q => { q with endFault := true, endCode := e.code.num }
          else killPop s2 c n v t e.code.num
        | _ => deliverTrap s2 c n v t

/-- A spoke that wants a line asks for it, unless it has, and enters it when it is there; otherwise it parks on the line buffer, which seals the window; a trap that the seal owes goes before the park (R59, R199, R202). -/
def needLine (s0 : State) (c n v : Nat) : State :=
  let p := getSp s0 c n v
  match p.want with
  | none => s0
  | some k =>
    let s := if (aheadAt p p.pc).isSome then s0 else askLine s0 c n v
    if (aheadAt (getSp s c n v) p.pc).any fun a => a.line.isSome || a.err.isSome then enterWanted s c n v k 0 0
    else
      let s1 := sealWin s c n v p.pc
      if (getSp s1 c n v).owed.isEmpty then modSp s1 c n v fun p => { p with park := .line } else deliverOwed s1 c n v

/-! Issue and settlement. -/

/-- The end of an instruction's meaning: completed; a transfer made; not issued, with what it parks on; a terminal fault; a retryable one; one that leaves the instruction unissued (R349); a failure whose checks have left something: the read of a line in the cache and the counters (R63), the earlier checks of an access in the caches of translations (R85). -/
inductive Ending where
  | done (s : State)
  | went (s : State)
  | held (k : Park)
  | err (code : FaultCode) (va : Word) (acc : Nat)
  | retry (e : FErr)
  | unissued (e : FErr)
  | leftErr (s : State) (e : FErr)

/-- A fault of R126 as the end of an instruction. -/
def Ending.ofErr (e : FErr) : Ending := if e.code = .notPresent then .retry e else .err e.code e.va e.acc

/-- A terminal fault with no address. -/
def Ending.fail (code : FaultCode) : Ending := .err code 0 0

/-- The PC moves to the successor of the unit (R54, R60). -/
def advance (s : State) : State := modCur s fun p => pointAt p s.cur.succ .seq

/-- Ends the unit that is issuing. -/
def halt (s : State) : State := { s with cur := { s.cur with stop := true } }

/-- Ends the unit that was to issue, which has not issued (R16, R19). -/
def haltIdle (s : State) : State := { s with cur := { s.cur with stop := true, idle := true } }

/-- Whether the issuing instruction is the second of a pair. -/
def Cur.late (k : Cur) : Bool := k.paired && !k.first

/-- A denied check has used entries of the tables, which stay cached (R85): those of the page that it was made for, or the descriptor of the executing domain. -/
def noteDenied (s : State) (code : FaultCode) (va : Word) : State :=
  let v := s.cur.vf
  let d := (curSp s).dom
  match code with
  | .domainRead | .domainWrite | .lendExcess => noteVa s v d va
  | .execDenied => noteTried s v va
  | .stateRight | .engineRight => noteDescs s v d
  | _ => s

/-- The trap of an instruction that fails: its delivery seals a window first, in a pair before the pair (R199), and a trap that the seal owes goes before it (R202); behind the first of its pair it is owed while that one waits (R67, R264). -/
def settleErr (s0 : State) (code : FaultCode) (va : Word) (acc : Nat) : State :=
  let k := s0.cur
  let t : Owed := ⟨code, k.pc, k.succ, va, 0, acc⟩
  let s := noteDenied s0 code va
  if k.paired && !k.sealed && !(curSp s0).win.isEmpty then { s0 with cur := { k with stop := true, reseal := true } }
  else if k.late then halt (trapOrOwe (advance s) k.core k.sp k.vf t)
  else
    let s1 := sealWin s k.core k.sp k.vf k.pc
    if !(curSp s1).owed.isEmpty then haltIdle (deliverOwed s1 k.core k.sp k.vf) else halt (deliverTrap s1 k.core k.sp k.vf t)

/-- A retryable fault of an instruction, which issues again after the WAKE (R67, R261). -/
def faultPark (s0 : State) (e : FErr) : State :=
  let k := s0.cur
  retryFault (modCur s0 fun p => { p with pc := k.pc, second := k.late || p.second }) k.core k.sp k.vf e k.pc

/-- The end of a unit that has met a retryable fault: with no fault slot free it has not issued (R261). -/
def settleRetry (s0 : State) (e : FErr) : State :=
  let s := faultPark s0 e
  if (curSp s).park = .slots then haltIdle s else halt s

/-- What the checks of a failed instruction leave: the read cache, what is held coherently, the counters, the caches of translations (R63, R85). -/
def keepLeft (s0 s : State) : State := { s0 with rcache := s.rcache, cxl := s.cxl, ctrl := s.ctrl, fns := s.fns }

/-- Writes the state after one instruction: `s0` is the state before it, with nothing consumed (R67, R264). -/
def settle (s0 : State) (r : Ending) : State :=
  let k := s0.cur
  match r with
  | .done s => if k.paired && k.first then s else advance s
  | .went s => s
  | .held pk => haltIdle (modCur s0 fun p => { p with park := pk, pc := k.pc, second := k.late || p.second })
  | .err code va acc => settleErr s0 code va acc
  | .retry e => settleRetry s0 e
  | .unissued e => haltIdle (faultPark s0 e)
  | .leftErr s e => if e.code = .notPresent then settleRetry (keepLeft s0 s) e else settleErr (keepLeft s0 s) e.code e.va e.acc

/-- Whether the end of a meaning leaves the spoke parked or waiting. -/
def Ending.parks : Ending → Bool
  | .done s | .went s => blocked (curSp s)
  | .held _ | .retry _ | .unissued _ => true
  | .err .. => false
  | .leftErr _ e => e.code = .notPresent

/-- A relaxed access to the state window that has the effect of an RDS or WRS that seals (R111, R199). -/
def windowReg (s : State) (i : Instr) : Bool :=
  match Instr.accBase i with
  | none => false
  | some (r, d) =>
    let va := (curSp s).rdG r + imm64 d
    pathOf va == 5 && (match transl s s.cur.vf (va.toNat % 2 ^ 57) with
      | .leaf e bits =>
        let k := (placeOf s.cur.core va e bits).a / 8
        (match i with | .ld .. => rdsSeals k | .st .. => k == 9 | _ => false)
      | _ => false)

/-- Whether one of the instructions of a unit seals the window before the unit issues (R199). -/
def unitSeals (s : State) (is : List Instr) : Bool :=
  let p := curSp s
  is.zipIdx.any fun x => Instr.seals p (p.wcount + x.2) x.1 || (!p.win.isEmpty && windowReg s x.1)

/-- The first empty source of a unit (R67). -/
def firstEmpty (p : Spoke) (is : List Instr) : Option Reg :=
  ((is.flatMap Instr.uses).find? fun u => !p.fullR u.reg).map (·.reg)

/-- A trap that a seal owes goes before the unit (R202); an empty source parks the spoke (R19, R67). An error is the state in which the unit has not issued. -/
def presence (s : State) (is : List Instr) : Except State State :=
  let k := s.cur
  if !(curSp s).owed.isEmpty then .error (haltIdle (deliverOwed s k.core k.sp k.vf))
  else match firstEmpty (curSp s) is with
    | some r => .error (haltIdle (modCur s fun p => { p with park := parkOn r }))
    | none => .ok s

/-- The seal and the presence check before a unit issues: an empty source seals the window before it is checked again, since the seal may fill it (R19, R20, R67, R73 check 7, R199). -/
def precheck (s : State) (is : List Instr) : Except State State :=
  let k := s.cur
  presence (if unitSeals s is || (firstEmpty (curSp s) is).isSome then sealWin s k.core k.sp k.vf k.pc else s) is

/-- The fault that depends on the word alone, checks 5 and 6 of R73: a WRS that names a register which is never writable raises STATE_RIGHT (R82, R438). The fault of LOOP for a pending count stands here too, since LOOP lists it before the presence check (R368). -/
def wordFault (s : State) (i : Instr) : Option FaultCode :=
  if !i.wf then some .illegalField
  else match i with
    | .loop c _ => if (curSp s).pendG c = .no then none else some .illegalField
    | .wrs _ n => if wrsNever n.toNat then some .stateRight else none
    | _ => none

/-- Whether an instruction fails one of the checks 1 to 6 of R73, ILL being check 1. -/
def failsWord (s : State) (i : Instr) : Bool := (wordFault s i).isSome || i == .ill

/-- One more instruction since the window opened (R199). -/
def countIssue (s : State) : State :=
  if (curSp s).win.isEmpty then s else modCur s fun p => { p with wcount := p.wcount + 1 }

/-- The meaning of an instruction once its sources are present: the destination check of R323, the consuming reads, then the body. -/
def runBody (i : Instr) (s : State) (body : State → Ending) : Ending :=
  if (Instr.dests i).any fun r => (curSp s).pendR r != .no then .fail .illegalField
  else body (modCur s fun p => p.consume (Instr.uses i))

/-- Issues one instruction (R73, R321): the word checks, the seal and presence unless the unit has made them, then its meaning; an instruction that would park seals a window first, which in a pair falls before the pair issues (R199). -/
def issue (i : Instr) (s : State) (body : State → Ending) : State :=
  match wordFault s i with
  | some f => settle s (.fail f)
  | none => match (if s.cur.checked then .ok s else precheck s [i]) with
    | .error s1 => s1
    | .ok s1 =>
      let s2 := countIssue s1
      let r := runBody i s2 body
      if r.parks && !(curSp s2).win.isEmpty && !Instr.isEngine i && !s.cur.sealed then
        let k := s.cur
        if k.paired then { s2 with cur := { k with stop := true, reseal := true } }
        else
          let s3 := sealWin s2 k.core k.sp k.vf k.pc
          if !(curSp s3).owed.isEmpty then haltIdle (deliverOwed s3 k.core k.sp k.vf)
          else settle s3 (runBody i s3 body)
      else settle s2 r

/-- The value of a source (R322). -/
def src (s : State) (a : Src) : Word := (curSp s).rdG a.reg

/-- Completes an instruction with a new state of its spoke. -/
def doneP (s : State) (f : Spoke → Spoke) : Ending := .done (modCur s f)

/-- Completes an instruction that writes one local register. -/
def doneG (s : State) (d : Fin 32) (x : Word) : Ending := doneP s fun p => p.wrG d x

/-- A taken transfer (R57, R60, R62): into the held line, or into a line fetched and checked before the instruction completes. -/
def goTo (s : State) (k : EntryKind) (target : Word) (f : State → State) : Ending :=
  let p := curSp s
  let c := s.cur
  if p.line.present ∧ ¬ p.line.stale ∧ lineOf target = p.line.addr then
    match entryCode k p.line.line (slotOf target) false true with
    | some x => .err x target 0
    | none => .went (f (modCur s fun p => { p with pc := target, want := none, ahead := none, second := false }))
  else match fetchLine s c.core c.vf target with
    | .error e => if k = .dcall ∧ e.code = .notPresent then .unissued e else Ending.ofErr e
    | .ok r =>
      if !lineHit s c.core r then .held (.fetch target)
      else match enterLine s c.core c.sp c.vf target k 0 0 with
        | .error x => .leftErr x.2 x.1
        | .ok s1 => .went (f s1)

end Sys2Proof.Machine
end

