-- ==== Sys2Proof/Machine/Alu.lean ====
section
/-! DEFINITION. Group 000, the scalar ALU (R324, R329, R330, R334, R340, R341, R351, R364, R367, R372, R379, R380, R385, R389, R392, R393, R395, R405), remote destinations (R27, R71) and the end of a division. -/

namespace Sys2Proof.Machine

/-- The outcome of an instruction whose meaning always answers a state. -/
abbrev Out := Host.Outcome State Fault Refusal

/-! Remote destinations. -/

/-- The checks of a handle in the order of R27: the core, spoke and VF it names. -/
def remoteTarget (s : State) (h : Word) : Except FaultCode (Nat × Nat × Nat) :=
  let k := s.cur
  let svc := isSvc s k.core
  let core := fieldN h 0 16
  let sp := fieldN h 16 4
  let hv := fieldN h 20 6
  let v := if svc then hv else k.vf
  if fieldN h 26 38 ≠ 0 ∨ (hv ≠ 0 ∧ ¬ svc) ∨ (hv = 0 ∧ svc) ∨ core > 6143 then .error .illegalField
  else if sp = 0 ∧ (curSp s).dom ≠ kernelDom then .error .domainWrite
  else if ¬ inPart s v core ∧ ¬ isSvc s core then .error .domainWrite
  else .ok (core, sp, v)

/-- Sends a register message (R27, R32). One of the second of a pair goes after the first: while its spoke, of VF `fromVf`, still waits for that one, the message is held (R67, R129, R137). -/
def sendReg (s : State) (core sp v : Nat) (r : Fin 32) (x : Word) (fromCore fromSp fromVf : Nat) (late : Bool) : State :=
  let m : Msg := ⟨0, core, sp, r.val, false, fromCore, fromSp, v, x, (getSp s fromCore fromSp fromVf).ltag⟩
  if late && blocked (getSp s fromCore fromSp fromVf) then modSp s fromCore fromSp fromVf fun p => { p with sends := p.sends ++ [m] }
  else sendMsg s m

/-- Ends a scalar ALU instruction with its result (R27, R71, R323). -/
def aluEnd (s : State) (d : Dst) (x : Word) : Ending :=
  match d with
  | .loc r => doneG s r x
  | .remote r h =>
    match remoteTarget s (src s h) with
    | .error f => .fail f
    | .ok (c, n, v) => .done (sendReg s c n v r x s.cur.core s.cur.sp s.cur.vf s.cur.late)

/-- A scalar ALU instruction with a value of its sources (R324). -/
def alu (i : Instr) (d : Dst) (f : State → Word) (s : State) : Out := .next (issue i s fun t => aluEnd t d (f t))

/-- Ends the issue of a division: the handle is checked, the spoke parks until the end (R351, R389). -/
def divStart (s : State) (d : Dst) (x : Word) : Ending :=
  match d with
  | .loc r => doneP s fun p => { p with divs := p.divs ++ [⟨r, none, x, s.cur.late⟩] }
  | .remote r h =>
    match remoteTarget s (src s h) with
    | .error f => .fail f
    | .ok t => doneP s fun p => { p with divs := p.divs ++ [⟨r, some t, x, s.cur.late⟩] }

/-- A division with its value. -/
def divide (i : Instr) (d : Dst) (f : State → Word) (s : State) : Out := .next (issue i s fun t => divStart t d (f t))

/-! Values. -/

/-- MULH (R380). -/
def mulhVal (u : Bool) (a x : Word) : Word :=
  if u then BitVec.ofNat 64 (a.toNat * x.toNat / 2 ^ 64) else BitVec.ofInt 64 (a.toInt * x.toInt / 2 ^ 64)

/-- DIV (R351). -/
def divVal (u : Bool) (a x : Word) : Word :=
  if x = 0 then BitVec.allOnes 64
  else if u then BitVec.ofNat 64 (a.toNat / x.toNat) else BitVec.ofInt 64 (Int.tdiv a.toInt x.toInt)

/-- REM (R389). -/
def remVal (u : Bool) (a x : Word) : Word :=
  if x = 0 then a
  else if u then BitVec.ofNat 64 (a.toNat % x.toNat) else BitVec.ofInt 64 (Int.tmod a.toInt x.toInt)

/-- CLZ (R340). -/
def clzVal (a : Word) : Word := BitVec.ofNat 64 (if a.toNat = 0 then 64 else 63 - Nat.log2 a.toNat)

/-- CTZ (R340). -/
def ctzVal (a : Word) : Word := BitVec.ofNat 64 (((List.range 64).find? (bitN a ·)).getD 64)

/-- The set bits of a number, over its low `n` bits. -/
def popCount : Nat → Nat → Nat
  | 0, _ => 0
  | n + 1, x => x % 2 + popCount n (x / 2)

/-- POPC (R385). -/
def popcVal (a : Word) : Word := BitVec.ofNat 64 (popCount 64 a.toNat)

/-- MIN (R372). -/
def minVal (u : Bool) (a x : Word) : Word := if (if u then x.ult a else x.slt a) then x else a

/-- MAX (R372). -/
def maxVal (u : Bool) (a x : Word) : Word := if (if u then a.ult x else a.slt x) then x else a

/-- Whether a condition of CMP holds (R341). -/
def cmpHolds (c : CmpCond) (a x : Word) : Bool :=
  match c with
  | .eq => a == x | .ne => a != x | .lt => a.slt x | .le => a.sle x | .ge => x.sle a
  | .ltu => a.ult x | .leu => a.ule x

/-- CMP (R341). -/
def cmpVal (c : CmpCond) (a x : Word) : Word := if cmpHolds c a x then 1 else 0

/-- The amount of a shift: bits [5:0] (R392). -/
def shAmt (x : Word) : Nat := x.toNat % 64

/-- SHL (R392). -/
def shlVal (a x : Word) : Word := a <<< shAmt x

/-- SHR (R392). -/
def shrVal (a x : Word) : Word := a >>> shAmt x

/-- SRA (R392). -/
def sraVal (a x : Word) : Word := a.sshiftRight (shAmt x)

/-- ROT (R392). -/
def rotVal (a x : Word) : Word := a.rotateLeft (shAmt x)

/-- LIH (R367). -/
def lihVal (a : Word) (i : BitVec 16) : Word := BitVec.ofNat 64 (a.toNat % 2 ^ 48 + i.toNat * 2 ^ 48)

/-- BFX (R334). -/
def bfxVal (a : Word) (lo : BitVec 6) (w : BitVec 7) : Word := BitVec.ofNat 64 (fieldN a lo.toNat w.toNat)

/-- BFI (R334). -/
def bfiVal (a b : Word) (lo : BitVec 6) (w : BitVec 7) : Word :=
  BitVec.ofNat 64 (b.toNat - fieldN b lo.toNat w.toNat * 2 ^ lo.toNat + fieldN a 0 w.toNat * 2 ^ lo.toNat)

/-- SEXT (R395). -/
def sextVal (a : Word) (w : BitVec 7) : Word := sext64 w.toNat a.toNat

/-- LEA (R364). -/
def leaVal (s : State) (base : Option Src) (i : BitVec 48) : Word :=
  (match base with | some a => src s a | none => lineOf s.cur.pc) + imm64 i

/-! The meanings. -/

/-- ADD on registers (R329). -/
def execAddRrr (d : Dst) (a b : Src) (s : State) : Out :=
  alu (.addRrr d a b) d (fun t => (src t a) + (src t b)) s

/-- ADD with an immediate (R329). -/
def execAddRri (d : Dst) (a : Src) (imm : BitVec 48) (s : State) : Out :=
  alu (.addRri d a imm) d (fun t => (src t a) + (imm64 imm)) s

/-- SUB on registers (R405). -/
def execSubRrr (d : Dst) (a b : Src) (s : State) : Out :=
  alu (.subRrr d a b) d (fun t => (src t a) - (src t b)) s

/-- SUB with an immediate (R405). -/
def execSubRri (d : Dst) (a : Src) (imm : BitVec 48) (s : State) : Out :=
  alu (.subRri d a imm) d (fun t => (src t a) - (imm64 imm)) s

/-- MUL on registers (R380). -/
def execMulRrr (d : Dst) (a b : Src) (s : State) : Out :=
  alu (.mulRrr d a b) d (fun t => (src t a) * (src t b)) s

/-- MUL with an immediate (R380). -/
def execMulRri (d : Dst) (a : Src) (imm : BitVec 48) (s : State) : Out :=
  alu (.mulRri d a imm) d (fun t => (src t a) * (imm64 imm)) s

/-- MULH on registers (R380). -/
def execMulhRrr (d : Dst) (a b : Src) (u : Bool) (s : State) : Out :=
  alu (.mulhRrr d a b u) d (fun t => mulhVal u (src t a) (src t b)) s

/-- MULH with an immediate (R380). -/
def execMulhRri (d : Dst) (a : Src) (imm : BitVec 48) (u : Bool) (s : State) : Out :=
  alu (.mulhRri d a imm u) d (fun t => mulhVal u (src t a) (imm64 imm)) s

/-- DIV on registers (R351). -/
def execDivRrr (d : Dst) (a b : Src) (u : Bool) (s : State) : Out :=
  divide (.divRrr d a b u) d (fun t => divVal u (src t a) (src t b)) s

/-- DIV with an immediate (R351). -/
def execDivRri (d : Dst) (a : Src) (imm : BitVec 48) (u : Bool) (s : State) : Out :=
  divide (.divRri d a imm u) d (fun t => divVal u (src t a) (imm64 imm)) s

/-- REM on registers (R389). -/
def execRemRrr (d : Dst) (a b : Src) (u : Bool) (s : State) : Out :=
  divide (.remRrr d a b u) d (fun t => remVal u (src t a) (src t b)) s

/-- REM with an immediate (R389). -/
def execRemRri (d : Dst) (a : Src) (imm : BitVec 48) (u : Bool) (s : State) : Out :=
  divide (.remRri d a imm u) d (fun t => remVal u (src t a) (imm64 imm)) s

/-- AND on registers (R330). -/
def execAndRrr (d : Dst) (a b : Src) (s : State) : Out :=
  alu (.andRrr d a b) d (fun t => (src t a) &&& (src t b)) s

/-- AND with an immediate (R330). -/
def execAndRri (d : Dst) (a : Src) (imm : BitVec 48) (s : State) : Out :=
  alu (.andRri d a imm) d (fun t => (src t a) &&& (imm64 imm)) s

/-- OR on registers (R330). -/
def execOrRrr (d : Dst) (a b : Src) (s : State) : Out :=
  alu (.orRrr d a b) d (fun t => (src t a) ||| (src t b)) s

/-- OR with an immediate (R330). -/
def execOrRri (d : Dst) (a : Src) (imm : BitVec 48) (s : State) : Out :=
  alu (.orRri d a imm) d (fun t => (src t a) ||| (imm64 imm)) s

/-- XOR on registers (R330). -/
def execXorRrr (d : Dst) (a b : Src) (s : State) : Out :=
  alu (.xorRrr d a b) d (fun t => (src t a) ^^^ (src t b)) s

/-- XOR with an immediate (R330). -/
def execXorRri (d : Dst) (a : Src) (imm : BitVec 48) (s : State) : Out :=
  alu (.xorRri d a imm) d (fun t => (src t a) ^^^ (imm64 imm)) s

/-- ANDN on registers (R330). -/
def execAndnRrr (d : Dst) (a b : Src) (s : State) : Out :=
  alu (.andnRrr d a b) d (fun t => (src t a) &&& ~~~(src t b)) s

/-- ANDN with an immediate (R330). -/
def execAndnRri (d : Dst) (a : Src) (imm : BitVec 48) (s : State) : Out :=
  alu (.andnRri d a imm) d (fun t => (src t a) &&& ~~~(imm64 imm)) s

/-- SHL on registers (R392). -/
def execShlRrr (d : Dst) (a b : Src) (s : State) : Out :=
  alu (.shlRrr d a b) d (fun t => shlVal (src t a) (src t b)) s

/-- SHL with an immediate (R392). -/
def execShlRri (d : Dst) (a : Src) (imm : BitVec 48) (s : State) : Out :=
  alu (.shlRri d a imm) d (fun t => shlVal (src t a) (imm64 imm)) s

/-- SHR on registers (R392). -/
def execShrRrr (d : Dst) (a b : Src) (s : State) : Out :=
  alu (.shrRrr d a b) d (fun t => shrVal (src t a) (src t b)) s

/-- SHR with an immediate (R392). -/
def execShrRri (d : Dst) (a : Src) (imm : BitVec 48) (s : State) : Out :=
  alu (.shrRri d a imm) d (fun t => shrVal (src t a) (imm64 imm)) s

/-- SRA on registers (R392). -/
def execSraRrr (d : Dst) (a b : Src) (s : State) : Out :=
  alu (.sraRrr d a b) d (fun t => sraVal (src t a) (src t b)) s

/-- SRA with an immediate (R392). -/
def execSraRri (d : Dst) (a : Src) (imm : BitVec 48) (s : State) : Out :=
  alu (.sraRri d a imm) d (fun t => sraVal (src t a) (imm64 imm)) s

/-- ROT on registers (R392). -/
def execRotRrr (d : Dst) (a b : Src) (s : State) : Out :=
  alu (.rotRrr d a b) d (fun t => rotVal (src t a) (src t b)) s

/-- ROT with an immediate (R392). -/
def execRotRri (d : Dst) (a : Src) (imm : BitVec 48) (s : State) : Out :=
  alu (.rotRri d a imm) d (fun t => rotVal (src t a) (imm64 imm)) s

/-- MIN on registers (R372). -/
def execMinRrr (d : Dst) (a b : Src) (u : Bool) (s : State) : Out :=
  alu (.minRrr d a b u) d (fun t => minVal u (src t a) (src t b)) s

/-- MIN with an immediate (R372). -/
def execMinRri (d : Dst) (a : Src) (imm : BitVec 48) (u : Bool) (s : State) : Out :=
  alu (.minRri d a imm u) d (fun t => minVal u (src t a) (imm64 imm)) s

/-- MAX on registers (R372). -/
def execMaxRrr (d : Dst) (a b : Src) (u : Bool) (s : State) : Out :=
  alu (.maxRrr d a b u) d (fun t => maxVal u (src t a) (src t b)) s

/-- MAX with an immediate (R372). -/
def execMaxRri (d : Dst) (a : Src) (imm : BitVec 48) (u : Bool) (s : State) : Out :=
  alu (.maxRri d a imm u) d (fun t => maxVal u (src t a) (imm64 imm)) s

/-- CMP on registers (R341). -/
def execCmpRrr (d : Dst) (a b : Src) (c : CmpCond) (s : State) : Out :=
  alu (.cmpRrr d a b c) d (fun t => cmpVal c (src t a) (src t b)) s

/-- CMP with an immediate (R341). -/
def execCmpRri (d : Dst) (a : Src) (imm : BitVec 48) (c : CmpCond) (s : State) : Out :=
  alu (.cmpRri d a imm c) d (fun t => cmpVal c (src t a) (imm64 imm)) s

/-- CLZ (R340). -/
def execClz (d : Dst) (a : Src) (s : State) : Out := alu (.clz d a) d (fun t => clzVal (src t a)) s

/-- CTZ (R340). -/
def execCtz (d : Dst) (a : Src) (s : State) : Out := alu (.ctz d a) d (fun t => ctzVal (src t a)) s

/-- POPC (R385). -/
def execPopc (d : Dst) (a : Src) (s : State) : Out := alu (.popc d a) d (fun t => popcVal (src t a)) s

/-- SEL (R393). -/
def execSel (d : Fin 32) (a b c : Src) (s : State) : Out :=
  .next (issue (.sel d a b c) s fun t => doneG t d (if src t a ≠ 0 then src t b else src t c))

/-- MOV (R379). -/
def execMov (d : Dst) (a : Src) (s : State) : Out := alu (.mov d a) d (fun t => src t a) s

/-- LI (R367). -/
def execLi (d : Dst) (imm : BitVec 48) (s : State) : Out := alu (.li d imm) d (fun _ => imm64 imm) s

/-- LIH (R367). -/
def execLih (d : Dst) (a : Src) (imm : BitVec 16) (s : State) : Out := alu (.lih d a imm) d (fun t => lihVal (src t a) imm) s

/-- LEA (R364). -/
def execLea (d : Dst) (base : Option Src) (imm : BitVec 48) (s : State) : Out :=
  alu (.lea d base imm) d (fun t => leaVal t base imm) s

/-- BFX (R334). -/
def execBfx (d : Dst) (a : Src) (lo : BitVec 6) (w : BitVec 7) (s : State) : Out :=
  alu (.bfx d a lo w) d (fun t => bfxVal (src t a) lo w) s

/-- BFI (R334). -/
def execBfi (d : Dst) (a b : Src) (lo : BitVec 6) (w : BitVec 7) (s : State) : Out :=
  alu (.bfi d a b lo w) d (fun t => bfiVal (src t a) (src t b) lo w) s

/-- SEXT (R395). -/
def execSext (d : Dst) (a : Src) (w : BitVec 7) (s : State) : Out := alu (.sext d a w) d (fun t => sextVal (src t a) w) s

/-- Writes what a division owes (R351, R389): a local register, or the message of a remote one. -/
def divWrite (s : State) (c n v : Nat) (x : DivPend) : State :=
  match x.remote with
  | none => modSp s c n v fun p => p.wrG x.reg x.val
  | some (rc, rn, rv) => sendReg s rc rn rv x.reg x.val c n v x.late

/-- DIVIDE_END: a division of a spoke ends, its result is written, and a stop that waited for it takes effect (R17, R45, R351, R389). -/
def execDivideEnd (core sp : Nat) (s : State) : Out :=
  let v := vfOf s core
  match (getSp s core sp v).divs with
  | [] => .next s
  | x :: r => .next (tryStop (divWrite (modSp s core sp v fun p => { p with divs := r }) core sp v x) core sp v)

end Sys2Proof.Machine
end

