-- ==== Sys2Proof/Machine/Flags.lean ====
section
/-! DEFINITION. Number formats (R160 to R166), rounding and its flags (R168 to R170), exact arithmetic on their values, and the functions of R175, R176 and R429. -/

namespace Sys2Proof.Machine

/-- A value of a number format: a NaN (signalling or quiet), an infinity, or ± m × 2^e. -/
inductive Num where
  | nan (sig : Bool)
  | inf (neg : Bool)
  | fin (neg : Bool) (m : Nat) (e : Int)
deriving DecidableEq, Repr

/-! Flags (R170). -/

/-- OVF. -/
def fOvf : BitVec 5 := 1

/-- UNF. -/
def fUnf : BitVec 5 := 2

/-- INX. -/
def fInx : BitVec 5 := 4

/-- INV. -/
def fInv : BitVec 5 := 8

/-- SAT. -/
def fSat : BitVec 5 := 16

/-- A flag where a condition holds. -/
def fIf (b : Bool) (f : BitVec 5) : BitVec 5 := if b then f else 0

/-! Formats. -/

/-- The columns of R168: IEEE-style, E4M3, FP4. -/
inductive Style where
  | ieee | e4m3 | fp4
deriving DecidableEq, Repr

/-- A binary floating format (R161, R162): fraction bits, exponent bits, bias, style. -/
structure BinFmt where
  f : Nat
  eb : Nat
  bias : Nat
  style : Style
deriving DecidableEq, Repr

/-- The binary floating formats. -/
def Fmt.bin : Fmt → Option BinFmt
  | .fp4 => some ⟨1, 2, 1, .fp4⟩
  | .e4m3 => some ⟨3, 4, 7, .e4m3⟩
  | .e5m2 => some ⟨2, 5, 15, .ieee⟩
  | .bf16 => some ⟨7, 8, 127, .ieee⟩
  | .f16 => some ⟨10, 5, 15, .ieee⟩
  | .f32 => some ⟨23, 8, 127, .ieee⟩
  | _ => none

/-- The integer formats (R160): whether signed. -/
def Fmt.int : Fmt → Option Bool
  | .i8 | .i16 | .i32 => some true
  | .u8 => some false
  | _ => none

/-- The sign bit of a code of a binary format. -/
def BinFmt.signBit (b : BinFmt) : Nat := 2 ^ (b.f + b.eb)

/-- The code of the largest finite magnitude (R161, R162). -/
def BinFmt.maxCode (b : BinFmt) : Nat :=
  match b.style with
  | .ieee => (2 ^ b.eb - 1) * 2 ^ b.f - 1
  | .e4m3 => 0x7E
  | .fp4 => 7

/-- The code of +Inf of an IEEE-style format. -/
def BinFmt.infCode (b : BinFmt) : Nat := (2 ^ b.eb - 1) * 2 ^ b.f

/-- The NaN that the device computes (R161, R168). -/
def BinFmt.nanCode (b : BinFmt) : Nat :=
  match b.style with
  | .ieee => b.infCode + 2 ^ (b.f - 1)
  | .e4m3 => 0x7F
  | .fp4 => 0

/-- The least normal exponent. -/
def BinFmt.emin (b : BinFmt) : Int := 1 - (b.bias : Int)

/-- Decodes a binary floating code (R161, R162). -/
def BinFmt.dec (b : BinFmt) (c : Nat) : Num :=
  let neg := c / b.signBit % 2 == 1
  let e := c / 2 ^ b.f % 2 ^ b.eb
  let f := c % 2 ^ b.f
  if b.style = .ieee ∧ e = 2 ^ b.eb - 1 then
    if f = 0 then .inf neg else .nan (f < 2 ^ (b.f - 1))
  else if b.style = .e4m3 ∧ e = 15 ∧ f = 7 then .nan false
  else if e = 0 then .fin neg f (b.emin - b.f)
  else .fin neg (2 ^ b.f + f) ((e : Int) - b.bias - b.f)

/-- The number of leading bits of an n-bit number equal to `b`. -/
def leadRun (b : Bool) (m : Nat) : Nat → Nat
  | 0 => 0
  | n + 1 => if (m / 2 ^ n % 2 == 1) = b then leadRun b m n + 1 else 0

/-- The magnitude of a nonzero tapered magnitude code of w bits (R164). -/
def tapMag (m w : Nat) : Nat × Int :=
  let b := m / 2 ^ (w - 1) % 2 == 1
  let run := leadRun b m w
  let k : Int := if b then (run : Int) - 1 else -(run : Int)
  let tl := if run < w then w - run - 1 else 0
  let e : Int := if tl ≥ 1 then ((m / 2 ^ (tl - 1) % 2 : Nat) : Int) else 0
  let fb := if tl ≥ 2 then tl - 1 else 0
  (2 ^ fb + m % 2 ^ fb, 2 * k + e - fb)

/-- Decodes a tapered code of n bits (R164); NaR behaves as a quiet NaN. -/
def decTap (c n : Nat) : Num :=
  let neg := c / 2 ^ (n - 1) % 2 == 1
  let m := c % 2 ^ (n - 1)
  if m = 0 then if neg then .nan false else .fin false 0 0
  else .fin neg (tapMag m (n - 1)).1 (tapMag m (n - 1)).2

/-- A whole number as a value. -/
def Num.ofInt (x : Int) : Num := .fin (decide (x < 0)) x.natAbs 0

/-- A code read as an integer of n bits. -/
def intOf (signed : Bool) (n c : Nat) : Int :=
  let x := c % 2 ^ n
  if signed && decide (x ≥ 2 ^ (n - 1)) then (x : Int) - (2 ^ n : Nat) else x

/-- Decodes an element of a format. -/
def Fmt.dec (f : Fmt) (c : Nat) : Num :=
  match f with
  | .tap6 => decTap (c % 64) 6
  | .tap8 => decTap (c % 256) 8
  | .i8 | .i16 | .i32 => Num.ofInt (intOf true f.width c)
  | .u8 => Num.ofInt (intOf false f.width c)
  | .fp4 | .e4m3 | .e5m2 | .bf16 | .f16 | .f32 =>
    match Fmt.bin f with | some b => b.dec (c % 2 ^ f.width) | none => .nan false

/-! Rounding. -/

/-- ± m × 2^e as a multiple of 2^u, rounded (R74, R168); the flag says inexact. -/
def roundAt (rnd : Rnd) (neg : Bool) (m : Nat) (e u : Int) : Nat × Bool :=
  if e ≥ u then (m * 2 ^ (e - u).toNat, false)
  else
    let s := 2 ^ (u - e).toNat
    let q := m / s
    let r := m % s
    if r = 0 then (q, false)
    else
      let up := match rnd with
        | .rne => decide (2 * r > s) || (decide (2 * r = s) && q % 2 == 1)
        | .rtz => false
        | .rdn => neg
        | .rup => !neg
      (if up then q + 1 else q, true)

/-- The exponent of the leading bit of m × 2^e, for m > 0. -/
def expOf (m : Nat) (e : Int) : Int := (Nat.log2 m : Int) + e

/-- A finite nonzero value below the smallest normal after rounding with the exponent range unbounded (R168). -/
def tinyAfter (b : BinFmt) (rnd : Rnd) (neg : Bool) (m : Nat) (e : Int) : Bool :=
  let q := expOf m e
  decide (q < b.emin) && !(decide (q = b.emin - 1) && (roundAt rnd neg m e (q - b.f)).1 == 2 ^ (b.f + 1))

/-- What an overflow gives (R168). -/
def overflow (b : BinFmt) (rnd : Rnd) (sat neg : Bool) : Nat × BitVec 5 :=
  let toInf := b.style == .ieee && (match rnd with | .rne => true | .rtz => false | .rdn => neg | .rup => !neg)
  if toInf && !sat then (b.infCode, fOvf ||| fInx)
  else (b.maxCode, fOvf ||| fInx ||| fIf toInf fSat)

/-- Round to a binary floating format: the code and the flags (R168). -/
def BinFmt.round (b : BinFmt) (rnd : Rnd) (sat : Bool) (x : Num) : Nat × BitVec 5 :=
  match x with
  | .nan sig => (b.nanCode, fIf (sig || b.style == .fp4) fInv)
  | .inf neg => (b.signBit * neg.toNat + (if b.style = .ieee then b.infCode else b.maxCode), fIf (b.style != .ieee) fOvf)
  | .fin neg m e =>
    let sg := b.signBit * neg.toNat
    if m = 0 then (sg, 0)
    else
      let q := max (expOf m e) b.emin
      let r := roundAt rnd neg m e (q - b.f)
      let code := (q - b.emin).toNat * 2 ^ b.f + r.1
      if code > b.maxCode then let o := overflow b rnd sat neg; (sg + o.1, o.2)
      else (sg + code, fIf r.2 fInx ||| fIf (r.2 && tinyAfter b rnd neg m e) fUnf)

/-- Compares m × 2^e with m' × 2^e'. -/
def magCmp (m : Nat) (e : Int) (m' : Nat) (e' : Int) : Ordering :=
  let lo := min e e'
  compare (m * 2 ^ (e - lo).toNat) (m' * 2 ^ (e' - lo).toNat)

/-- The smallest magnitude code from `c` on whose value is at least m × 2^e. -/
def tapFind (w m : Nat) (e : Int) : Nat → Nat → Nat
  | 0, c => c
  | n + 1, c => if magCmp (tapMag c w).1 (tapMag c w).2 m e = .lt then tapFind w m e n (c + 1) else c

/-- Rounds a finite nonzero magnitude to a tapered magnitude code of w bits: nearest, ties to the even code, never zero (R168). -/
def tapRound (w m : Nat) (e : Int) : Nat × BitVec 5 :=
  let top := 2 ^ w - 1
  if magCmp (tapMag top w).1 (tapMag top w).2 m e = .lt then (top, fOvf ||| fInx)
  else if magCmp m e (tapMag 1 w).1 (tapMag 1 w).2 = .lt then (1, fUnf ||| fInx)
  else
    let c := tapFind w m e (2 ^ w) 1
    let hi := tapMag c w
    if magCmp hi.1 hi.2 m e = .eq then (c, 0)
    else
      let lo := tapMag (c - 1) w
      let k := min lo.2 hi.2
      let mid := lo.1 * 2 ^ (lo.2 - k).toNat + hi.1 * 2 ^ (hi.2 - k).toNat
      (match magCmp m (e + 1) mid k with
        | .lt => c - 1
        | .gt => c
        | .eq => if c % 2 = 0 then c else c - 1, fInx)

/-- Round to a tapered format of n bits (R168). -/
def roundTap (n : Nat) (x : Num) : Nat × BitVec 5 :=
  let nar := 2 ^ (n - 1)
  match x with
  | .nan _ => (nar, fInv)
  | .inf neg => (nar * neg.toNat + (nar - 1), fOvf)
  | .fin neg m e =>
    if m = 0 then (0, 0)
    else let r := tapRound (n - 1) m e; (nar * neg.toNat + r.1, r.2)

/-- Conversion to an integer format of n bits (R169). -/
def roundInt (signed : Bool) (n : Nat) (rnd : Rnd) (x : Num) : Nat × BitVec 5 :=
  let lo : Int := if signed then -(2 ^ (n - 1) : Nat) else 0
  let hi : Int := if signed then (2 ^ (n - 1) : Nat) - 1 else (2 ^ n : Nat) - 1
  let code (v : Int) : Nat := (v % (2 ^ n : Nat)).toNat
  match x with
  | .nan _ => (0, fInv)
  | .inf neg => (code (if neg then lo else hi), fInv)
  | .fin neg m e =>
    let r := roundAt rnd neg m e 0
    let v : Int := if neg then -(r.1 : Int) else r.1
    if v < lo then (code lo, fInv ||| fInx) else if v > hi then (code hi, fInv ||| fInx) else (code v, fIf r.2 fInx)

/-- Round of R168 and R169 to any format. -/
def Fmt.round (f : Fmt) (rnd : Rnd) (sat : Bool) (x : Num) : Nat × BitVec 5 :=
  match f with
  | .tap6 => roundTap 6 x
  | .tap8 => roundTap 8 x
  | .i8 | .i16 | .i32 => roundInt true f.width rnd x
  | .u8 => roundInt false f.width rnd x
  | .fp4 | .e4m3 | .e5m2 | .bf16 | .f16 | .f32 =>
    match Fmt.bin f with | some b => b.round rnd sat x | none => (0, 0)

/-! Exact arithmetic (R421). -/

/-- Whether a value is a signalling NaN. -/
def Num.sig : Num → Bool | .nan x => x | _ => false

/-- Whether a value is a NaN. -/
def Num.isNan : Num → Bool | .nan _ => true | _ => false

/-- A value with its sign inverted. -/
def Num.negate : Num → Num | .nan x => .nan x | .inf n => .inf (!n) | .fin n m e => .fin (!n) m e

/-- The signed sum of two finite values; an exact zero sum of unlike signs is +0, or −0 under RDN (R421). -/
def finAdd (rnd : Rnd) (n : Bool) (m : Nat) (e : Int) (n' : Bool) (m' : Nat) (e' : Int) : Num :=
  let k := min e e'
  let sg (n : Bool) (x : Nat) : Int := if n then -(x : Int) else x
  let v := sg n (m * 2 ^ (e - k).toNat) + sg n' (m' * 2 ^ (e' - k).toNat)
  if v = 0 then if n = n' ∧ m = 0 ∧ m' = 0 then .fin n 0 0 else .fin (rnd == .rdn) 0 0
  else .fin (decide (v < 0)) v.natAbs k

/-- The exact sum with its flags. -/
def numAdd (rnd : Rnd) (a b : Num) : Num × BitVec 5 :=
  if a.isNan || b.isNan then (.nan false, fIf (a.sig || b.sig) fInv)
  else match a, b with
    | .inf n, .inf n' => if n = n' then (.inf n, 0) else (.nan false, fInv)
    | .inf n, _ => (.inf n, 0)
    | _, .inf n => (.inf n, 0)
    | .fin n m e, .fin n' m' e' => (finAdd rnd n m e n' m' e', 0)
    | _, _ => (.nan false, 0)

/-- The exact product with its flags. -/
def numMul (a b : Num) : Num × BitVec 5 :=
  if a.isNan || b.isNan then (.nan false, fIf (a.sig || b.sig) fInv)
  else match a, b with
    | .inf n, .inf n' => (.inf (xor n n'), 0)
    | .inf n, .fin n' m _ => if m = 0 then (.nan false, fInv) else (.inf (xor n n'), 0)
    | .fin n m _, .inf n' => if m = 0 then (.nan false, fInv) else (.inf (xor n n'), 0)
    | .fin n m e, .fin n' m' e' => (.fin (xor n n') (m * m') (e + e'), 0)
    | _, _ => (.nan false, 0)

/-- A value times a power of two. -/
def Num.scale (k : Int) : Num → Num
  | .fin n m e => .fin n m (e + k)
  | x => x

/-! FP32 lanes. -/

/-- An FP32 lane as a value. -/
def f32 (x : Lane) : Num := Fmt.dec .f32 x.toNat

/-- Rounds to an FP32 lane. -/
def toF32 (rnd : Rnd) (sat : Bool) (x : Num) : Lane × BitVec 5 :=
  let r := Fmt.round .f32 rnd sat x
  (BitVec.ofNat 32 r.1, r.2)

/-- An exact value with flags, rounded to an FP32 lane. -/
def toF32With (rnd : Rnd) (sat : Bool) (x : Num × BitVec 5) : Lane × BitVec 5 :=
  let r := toF32 rnd sat x.1
  (r.1, x.2 ||| r.2)

/-- The NaN of FP32 (R161). -/
def nan32 : Lane := 0x7FC00000

/-- Round(a + b, F32, rnd) (R421). -/
def addF32 (rnd : Rnd) (sat : Bool) (a b : Lane) : Lane × BitVec 5 := toF32With rnd sat (numAdd rnd (f32 a) (f32 b))

/-- Round(a − b, F32, rnd) (R421). -/
def subF32 (rnd : Rnd) (sat : Bool) (a b : Lane) : Lane × BitVec 5 := toF32With rnd sat (numAdd rnd (f32 a) (f32 b).negate)

/-- Round(a × b, F32, rnd) (R421). -/
def mulF32 (rnd : Rnd) (sat : Bool) (a b : Lane) : Lane × BitVec 5 := toF32With rnd sat (numMul (f32 a) (f32 b))

/-- Round(a × b + c, F32, rnd), with one rounding (R421). -/
def fmaF32 (rnd : Rnd) (sat : Bool) (a b c : Lane) : Lane × BitVec 5 :=
  let p := numMul (f32 a) (f32 b)
  let q := numAdd rnd p.1 (f32 c)
  toF32With rnd sat (q.1, p.2 ||| q.2)

/-- The order of FP32 values with −0 below +0, for operands that are no NaN. -/
def keyF32 (a : Lane) : Int := if bitN a 31 then -(a.toNat % 2 ^ 31 : Nat) - 1 else a.toNat % 2 ^ 31

/-- The lesser of two FP32 values (R421, R422). -/
def minF32 (a b : Lane) : Lane × BitVec 5 :=
  if (f32 a).isNan || (f32 b).isNan then (nan32, fIf ((f32 a).sig || (f32 b).sig) fInv)
  else (if keyF32 b < keyF32 a then b else a, 0)

/-- The greater of two FP32 values (R421, R422, R174). -/
def maxF32 (a b : Lane) : Lane × BitVec 5 :=
  if (f32 a).isNan || (f32 b).isNan then (nan32, fIf ((f32 a).sig || (f32 b).sig) fInv)
  else (if keyF32 a < keyF32 b then b else a, 0)

/-- The magnitude order of FP32 values with the zeros equal. -/
def ordF32 (a : Lane) : Int := if bitN a 31 then -(a.toNat % 2 ^ 31 : Nat) else a.toNat % 2 ^ 31

/-- A condition of VCMP (R425). -/
def cmpF32 (c : VCond) (a b : Lane) : Bool × BitVec 5 :=
  let nan := (f32 a).isNan || (f32 b).isNan
  (match c with
    | .eq => !nan && ordF32 a == ordF32 b
    | .ne => nan || ordF32 a != ordF32 b
    | .lt => !nan && decide (ordF32 a < ordF32 b)
    | .le => !nan && decide (ordF32 a ≤ ordF32 b), fIf ((f32 a).sig || (f32 b).sig) fInv)

/-- VCVT of one lane (R427, R428). -/
def cvtLane (df sf : Fmt) (rnd : Rnd) (sat : Bool) (x : Lane) : Lane × BitVec 5 :=
  match Fmt.int sf, Fmt.int df with
  | some sg, some dg =>
    let v := intOf sg sf.width x.toNat
    let n := df.width
    let lo : Int := if dg then -(2 ^ (n - 1) : Nat) else 0
    let hi : Int := if dg then (2 ^ (n - 1) : Nat) - 1 else (2 ^ n : Nat) - 1
    let w : Int := if sat then min (max v lo) hi else v
    (BitVec.ofNat 32 (w % (2 ^ n : Nat)).toNat, fIf (w != v) fSat)
  | _, _ =>
    let r := Fmt.round df rnd sat (Fmt.dec sf x.toNat)
    (BitVec.ofNat 32 r.1, r.2)

/-! Functions (R429). Each is rounded once from a value exact but for a last bit that stands for the rest. -/

/-- floor(ln 2 × 2^240). -/
def ln2Fix : Nat := 1224685061431752149387114016819916847747660333428801675508466606222838698

/-- The sum of the Taylor series of e^x, x / 2^240 = X, from term k. -/
def expSum (x : Nat) : Nat → Nat → Nat → Nat
  | 0, _, _ => 0
  | n + 1, k, term => term + expSum x n (k + 1) (term * x / 2 ^ 240 / (k + 1))

/-- 2^(f / 2^240) × 2^240 for 0 < f < 2^240, as a floor (the precision is DESIGN CHOICE, log 15). -/
def exp2Fix (f : Nat) : Nat := expSum (f * ln2Fix / 2 ^ 240) 64 0 (2 ^ 240)

/-- 2 to a finite power (R429). -/
def exp2Num (neg : Bool) (m : Nat) (e : Int) : Num :=
  if m = 0 then .fin false 1 0
  else if expOf m e ≥ 8 then .fin false 1 (if neg then -400 else 400)
  else
    -- the power as a multiple of 2^-240
    let one : Nat := 2 ^ 240
    let a : Nat := m * 2 ^ (e + 240).toNat
    let p : Int := if neg then -(a : Int) else a
    let n : Int := p / (one : Int)
    let f := (p % (one : Int)).toNat
    if f = 0 then .fin false 1 n else .fin false (exp2Fix f * 2 + 1) (n - 241)

/-- The whole square root of a number below 4^n, bit by bit. -/
def isqrt (x : Nat) : Nat → Nat → Nat
  | 0, r => r
  | n + 1, r => let t := r + 2 ^ n; if t * t ≤ x then isqrt x n t else isqrt x n r

/-- 1 / (m × 2^e) for m > 0. -/
def rcpNum (neg : Bool) (m : Nat) (e : Int) : Num :=
  let k : Nat := Nat.log2 m + 64
  .fin neg (2 ^ k / m * 2 + (decide (2 ^ k % m ≠ 0)).toNat) (-e - k - 1)

/-- 1 / sqrt(m × 2^e) for m > 0. -/
def rsqNum (m : Nat) (e : Int) : Num :=
  let m1 := if e % 2 = 0 then m else 2 * m
  let e1 := if e % 2 = 0 then e else e - 1
  let k : Nat := 64
  let q := 2 ^ (2 * k) / m1
  let r := isqrt q 66 0
  .fin false (r * 2 + (decide (r * r * m1 ≠ 2 ^ (2 * k))).toNat) (-(e1 / 2) - k - 1)

/-- VEXP2 of one lane (R429). -/
def exp2F32 (x : Lane) : Lane × BitVec 5 :=
  match f32 x with
  | .nan g => (nan32, fIf g fInv)
  | .inf n => toF32 .rne false (if n then .fin false 0 0 else .inf false)
  | .fin n m e => toF32 .rne false (exp2Num n m e)

/-- VRCP of one lane (R429). -/
def rcpF32 (x : Lane) : Lane × BitVec 5 :=
  match f32 x with
  | .nan g => (nan32, fIf g fInv)
  | .inf n => toF32 .rne false (.fin n 0 0)
  | .fin n m e => toF32 .rne false (if m = 0 then .inf n else rcpNum n m e)

/-- VRSQ of one lane (R429). -/
def rsqF32 (x : Lane) : Lane × BitVec 5 :=
  match f32 x with
  | .nan g => (nan32, fIf g fInv)
  | .inf n => if n then (nan32, fInv) else (0, 0)
  | .fin n m e =>
    if m = 0 then toF32 .rne false (.inf n) else if n then (nan32, fInv) else toF32 .rne false (rsqNum m e)

/-! Reductions (R174), quantisation (R175) and random streams (R176). -/

/-- One level of the pairwise tree. -/
def treeLevel (node : Lane → Lane → Lane × BitVec 5) : List Lane → List Lane × BitVec 5
  | a :: b :: r => let x := node a b; let y := treeLevel node r; (x.1 :: y.1, x.2 ||| y.2)
  | r => (r, 0)

/-- The pairwise tree over n levels. -/
def treeSum (node : Lane → Lane → Lane × BitVec 5) : Nat → List Lane → List Lane × BitVec 5
  | 0, l => (l, 0)
  | n + 1, l => let x := treeLevel node l; let y := treeSum node n x.1; (y.1, x.2 ||| y.2)

/-- Emax of R175. -/
def qEmax : Fmt → Int | .fp4 => 2 | .e4m3 => 8 | _ => 15

/-- floor(log2 |x|) of a finite nonzero value; none for zero. -/
def numExp : Num → Option Int
  | .fin _ m e => if m = 0 then none else some (expOf m e)
  | _ => none

/-- The greatest of a list of exponents. -/
def maxExp : List Num → Option Int
  | [] => none
  | x :: r => match numExp x, maxExp r with
    | some a, some b => some (max a b)
    | some a, none => some a
    | none, y => y

/-- Element i of a block under its scale: the code and its flags; a clamp sets SAT and not OVF, as the example of R434 shows (R175; DEDUCED, log 23). -/
def quantElem (f : Fmt) (scale : Nat) (x : Num) : Nat × BitVec 5 :=
  let y := x.scale (127 - (scale : Int))
  let r := Fmt.round f .rne false y
  let max := match Fmt.bin f with | some b => b.maxCode | none => 0
  let big := match y, Fmt.dec f max with
    | .fin _ m e, .fin _ m' e' => magCmp m e m' e' == .gt
    | _, _ => false
  let code := match Fmt.bin f with
    | some b => if b.style = .ieee ∧ r.1 % b.signBit = b.infCode then r.1 - 1 else r.1
    | none => r.1
  (code, (r.2 &&& ~~~fOvf) ||| fIf big fSat)

/-- QuantiseBlock of R175: scale, element codes, flags. -/
def quantBlock (f : Fmt) (xs : List Num) : Nat × List Nat × BitVec 5 :=
  if xs.any fun x => match x with | .fin .. => false | _ => true then (0xFF, xs.map fun _ => 0, fInv)
  else match maxExp xs with
    | none => (0x7F, xs.map fun x => (Fmt.round f .rne false x).1, 0)
    | some e =>
      let scale := (min (max (127 + e - qEmax f) 0) 254).toNat
      let qs := xs.map (quantElem f scale)
      (scale, qs.map (·.1), qs.foldl (fun a q => a ||| q.2) 0)

/-- A product of 32-bit words, high word and low word. -/
def mul32 (a b : Lane) : Lane × Lane :=
  let p := a.zeroExtend 64 * b.zeroExtend 64
  (p.extractLsb' 32 32, p.extractLsb' 0 32)

/-- One round of Philox4x32 on the counters, with its keys (R176). -/
def philoxRound (c : Lane × Lane × Lane × Lane) (k0 k1 : Lane) : Lane × Lane × Lane × Lane :=
  let p := mul32 0xD2511F53 c.1
  let q := mul32 0xCD9E8D57 c.2.2.1
  (q.1 ^^^ c.2.1 ^^^ k0, q.2, p.1 ^^^ c.2.2.2 ^^^ k1, p.2)

/-- Philox4x32-10 (R176): the rounds left, the counters and the keys. -/
def philoxRounds : Nat → Lane × Lane × Lane × Lane → Lane → Lane → Lane × Lane × Lane × Lane
  | 0, c, _, _ => c
  | n + 1, c, k0, k1 => philoxRounds n (philoxRound c k0 k1) (0x9E3779B9 + k0) (0xBB67AE85 + k1)

/-- A word of Philox4x32-10 for a lane (R176, R436). -/
def philox (key ctr : Word) (lane : Nat) (w : BitVec 2) : Lane :=
  let r := philoxRounds 10 (ctr.truncate 32, BitVec.ofNat 32 (ctr.toNat / 2 ^ 32), BitVec.ofNat 32 lane, 0)
    (key.truncate 32) (BitVec.ofNat 32 (key.toNat / 2 ^ 32))
  match w.toNat with | 0 => r.1 | 1 => r.2.1 | 2 => r.2.2.1 | _ => r.2.2.2

end Sys2Proof.Machine
end

