-- ==== Sys2Proof/Machine/EngineRun.lean ====
section
/-! DEFINITION. What the tile engines do once a command has started: their accesses (R97, R114), the arithmetic of the matrix engine (R172, R173, R188 to R191), the elements of LYT (R218), the bytes of a copy (R225). -/

namespace Sys2Proof.Machine

/-! Accesses. -/

/-- The per-byte clause of Allowed for a byte of an operand: asked at the first translation of a page of this operand that was absent at dispatch, not of one that has passed, nor where one lend covers the envelope (R95, R97). An MMUL.ACC reads the operand that it writes. -/
def engRight (s : State) (c : Cmd) (o : Opnd) (va : Word) (owner : BitVec 8) : Option FaultCode :=
  if c.okP.contains (o.page va.toNat) || (c.op == .mmul && c.okP.contains ({ o with wr := true : Opnd }.page va.toNat)) || c.snap.any (snapCovers o.lo.toNat o.len o.wr) then none
  else match right s c.vf c.dom owner va.toNat with
    | none => some .segment
    | some k => if o.wr then if k < 2 then some .domainWrite else none else if k < 1 then some .domainRead else none

/-- One byte of an operand as an engine translates it (R97): steps 3 to 6 of R126, the rights of a page that was not present at dispatch, and the host's page request. -/
def engLoc (s : State) (c : Cmd) (o : Opnd) (x : Int) : Except FErr Loc :=
  let va := BitVec.ofInt 64 x
  match resolve s c.core c.vf va (some o.wr) (engAcc o.wr) (o.tts.contains ·) with
  | .error e => .error e
  | .ok r =>
    if o.offTile r.loc then .error (errAt .path va (engAcc o.wr))
    else match engRight s c o va (pteDT r.leaf) with
      | some f => .error (errAt f va (engAcc o.wr))
      | none => (atsCheck s c.vf va (engAcc o.wr) r.loc).map fun _ => r.loc

/-- The places of `n` bytes of an operand. -/
def engLocs (s : State) (c : Cmd) (o : Opnd) (x : Int) : Nat → Except FErr (List Loc)
  | 0 => .ok []
  | n + 1 =>
    match engLoc s c o x with
    | .error e => .error e
    | .ok l => (engLocs s c o (x + 1) n).map (l :: ·)

/-- A byte as a command reads it now: its panes first (R114), the dispatcher at a kick page of the device (R243). -/
def engByte (s : State) (c : Cmd) (l : Loc) : Byte :=
  match l.sp with
  | .tb => tbByte s c l.a
  | .host => match Config.kickFn (l.a / 4096) with
    | some fn => BitVec.ofNat 8 (kickLoad s fn (l.a % 4096) 1)
    | none => rdLoc s l
  | _ => rdLoc s l

/-- The byte at an address as a command has read it ahead of its unit, or as it reads it now (R139). -/
def engGot (s : State) (c : Cmd) (x : Int) (l : Loc) : Byte :=
  match c.got.find? (·.1 == (BitVec.ofInt 64 x).toNat) with
  | some p => p.2
  | none => engByte s c l

/-- Reads `n` bytes of an operand. -/
def engRead (s : State) (c : Cmd) (o : Opnd) (x : Int) (n : Nat) : Except FErr (List Byte) :=
  (engLocs s c o x n).map fun ls => ls.zipIdx.map fun p => engGot s c (x + p.2) p.1

/-- Writes bytes: to a pane where the place is a tile buffer, else to those that are not visible yet (R114, R128, R139). -/
def engPut : State × Cmd → List Loc → List Byte → State × Cmd
  | x, l :: ls, b :: bs =>
    engPut (x.1, if l.sp = .tb then { x.2 with ovl := mset x.2.ovl l.a b } else { x.2 with out := x.2.out ++ [(l, b)] }) ls bs
  | x, _, _ => x

/-- Writes bytes of an operand, none before all are translated. -/
def engWrite (s : State) (c : Cmd) (o : Opnd) (x : Int) (bs : List Byte) : Except FErr (State × Cmd) :=
  (engLocs s c o x bs.length).map fun ls => engPut (s, c) ls bs

/-- Several pieces to write, none before all are translated: an SPCMP that ends at a page of its destination has written nothing (DESIGN CHOICE, log 81: R97 and R191 do not say how much). -/
def engWriteAll (s : State) (c : Cmd) (o : Opnd) : List (Int × List Byte) → Except FErr (State × Cmd)
  | [] => .ok (s, c)
  | p :: r =>
    match engLocs s c o p.1 p.2.length with
    | .error e => .error e
    | .ok ls => (engWriteAll s c o r).map fun x => engPut x ls p.2

/-- The elements of a packed row (R182). -/
def elems (w n : Nat) (bs : List Byte) : List Nat :=
  let x := natOfBytes bs
  (List.range n).map fun i => bitsN x (w * i) w

/-- A row of elements packed into bytes (R182). -/
def packRow (w : Nat) (xs : List Nat) : List Byte :=
  bytesLE (xs.length * w / 8) (xs.foldr (fun x acc => x % 2 ^ w + 2 ^ w * acc) 0)

/-- Rows read from an operand: row `i` at base + i × stride. -/
def engRows (s : State) (c : Cmd) (o : Opnd) (base stride : Int) (len : Nat) : List Nat → Except FErr (List (List Byte))
  | [] => .ok []
  | i :: r =>
    match engRead s c o (base + i * stride) len with
    | .error e => .error e
    | .ok b => (engRows s c o base stride len r).map (b :: ·)

/-- Element (i, j) of a list of rows. -/
def at2 (xs : List (List Nat)) (i j : Nat) : Nat := (xs.getD i []).getD j 0

/-- A table of `k` rows of `n` numbers. -/
def table (k n : Nat) (f : Nat → Nat → Nat) : List (List Nat) := (List.range k).map fun i => (List.range n).map fun j => f i j

/-! The latch (R181, R183, R187). -/

/-- The error of a malformed sparse nibble and of a latch that differs from the record (R181, R183). -/
def badLatch : FErr := errAt .illegalField 0 0

/-- The dense K-major image of a weight image, with its scales (R183, R187): rows of K, columns of N. -/
def readImage (s : State) (c : Cmd) (o : Opnd) : Except FErr (List (List Nat) × List (List Nat)) :=
  let f := c.fmt
  let rs := fieldN c.b 0 20
  let base : Int := c.a.toNat
  let nb := c.k / f.blk
  let rows (b stride : Int) (len n : Nat) : Except FErr (List (List Byte)) := engRows s c o b stride len (List.range n)
  if c.mod6 then
    match rows base rs (rowBytes f c.k) c.n, (if c.sc then rows (base + c.n * rs) nb nb c.n else .ok []) with
    | .ok w, .ok z =>
      let x := w.map (elems f.width c.k)
      let y := z.map (elems 8 nb)
      .ok (table c.k c.n fun k n => at2 x n k, if c.sc then table nb c.n fun b n => at2 y n b else [])
    | .error e, _ => .error e
    | _, .error e => .error e
  else if c.mod5 then
    let mbase := base + c.k / 2 * rs
    match rows base rs (rowBytes f c.n) (c.k / 2), rows mbase (c.n / 2 : Nat) (c.n / 2) (c.k / 4),
        (if c.sc then rows (mbase + (c.k / 4 * (c.n / 2) : Nat)) c.n c.n nb else .ok []) with
    | .ok w, .ok m, .ok z =>
      let x := w.map (elems f.width c.n)
      let y := m.map (elems 4 c.n)
      if y.any (·.any fun v => decide (v % 4 ≥ v / 4)) then .error badLatch
      else .ok (table c.k c.n fun k n =>
          let v := at2 y (k / 4) n
          if k % 4 = v % 4 then at2 x (2 * (k / 4)) n else if k % 4 = v / 4 then at2 x (2 * (k / 4) + 1) n else 0,
        z.map (elems 8 c.n))
    | .error e, _, _ => .error e
    | _, .error e, _ => .error e
    | _, _, .error e => .error e
  else
    match rows base rs (rowBytes f c.n) c.k, (if c.sc then rows (base + c.k * rs) c.n c.n nb else .ok []) with
    | .ok w, .ok z => .ok (w.map (elems f.width c.n), z.map (elems 8 c.n))
    | .error e, _ => .error e
    | _, .error e => .error e

/-- The latch of a quadrant of a command's tile, as the command's group will leave it (R208). -/
def latchOf (s : State) (c : Cmd) (q : Nat) : Option Latch :=
  let k := 4 * tileOf c.core + q
  (((c.grp.bind (getTg s ·)).bind fun t => t.latches.find? (·.1 == k)).map (·.2)).or ((s.latches.find? (·.1 == k)).map (·.2))

/-- Latches weights in the quadrants that an MLDW names; in a rewritten group they wait for the commit (R187, R208). -/
def setLatch (s : State) (c : Cmd) (l : Latch) : State :=
  let put (m : List (Nat × Latch)) : List (Nat × Latch) := (quadsOf c.quad).foldl (fun m q => mset m (4 * tileOf c.core + q) l) m
  match c.grp.bind (getTg s ·) with
  | some t => { s with tgrps := mset s.tgrps t.id { t with latches := put t.latches } }
  | none => { s with latches := put s.latches }

/-- The single-quadrant code of a quadrant. -/
def quadOne (q : Nat) : Quad := match q with | 0 => .q0 | 1 => .q1 | 2 => .q2 | _ => .q3

/-- The weights and scales that an MMUL multiplies; none when a latch differs from what the command was checked against (R181, R205). -/
def weights (s : State) (c : Cmd) (d : LDesc) : Option (List (List Nat) × List (List Nat)) :=
  let ls := (quadsOf c.quad).map fun q => (q, latchOf s c q)
  if ls.all fun p => (p.2.map (·.desc)) == some d then
    (ls.head?.bind (·.2)).map fun l => (l.codes, l.scales)
  else if c.rep = 5 ∧ (ls.all fun p => (p.2.map fun l => { l.desc with sp2 := d.sp2 }) == some { d with q := quadOne p.1, k := d.k / 2 }) then
    some (ls.flatMap (fun p => (p.2.map (·.codes)).getD []), ls.flatMap (fun p => (p.2.map (·.scales)).getD []))
  else none

/-! Sums (R172, R173). -/

/-- The exact sum of finite values. -/
def finSum (xs : List Num) : Num :=
  let parts := xs.filterMap fun x => match x with | .fin n m e => some (n, m, e) | _ => none
  let lo : Int := parts.foldl (fun k p => min k p.2.2) 0
  let v : Int := (parts.map fun p => (if p.1 then -1 else 1) * ((p.2.1 * 2 ^ (p.2.2 - lo).toNat : Nat) : Int)).sum
  if v = 0 then .fin (parts.all (·.1)) 0 0 else .fin (decide (v < 0)) v.natAbs lo

/-- ExactSum over one block (R172): the value and the flags of its products. -/
def blockSum (fa fw : Fmt) (as ws : List Nat) : Num × BitVec 5 :=
  let ps := (as.zip ws).map fun p => numMul (Fmt.dec fa p.1) (Fmt.dec fw p.2)
  let fl := ps.foldl (fun f p => f ||| p.2) 0
  let pos := ps.any fun p => p.1 == .inf false
  let neg := ps.any fun p => p.1 == .inf true
  if pos && neg then (.nan false, fl ||| fInv)
  else if ps.any (·.1.isNan) then (.nan false, fl)
  else if pos then (.inf false, fl)
  else if neg then (.inf true, fl)
  else (finSum (ps.map (·.1)), fl)

/-- One block added to a floating accumulator (R172); `sc` holds the exponent of the block's scales, or none for a NaN scale. -/
def blockAdd (sat : Bool) (sum : Num × BitVec 5) (sc : Option Int) (acc : Lane) : Lane × BitVec 5 :=
  let r := match sc with
    | some k => toF32With .rne sat (sum.1.scale k, sum.2)
    | none => (nan32, sum.2 ||| fInv)
  let x := addF32 .rne sat acc r.1
  (x.1, r.2 ||| x.2)

/-- One block added to an INT32 accumulator (R172, R173). -/
def blockAddInt (sat : Bool) (as ws : List Nat) (acc : Lane) : Lane × BitVec 5 :=
  let s : Int := ((as.zip ws).map fun p => intOf true 8 p.1 * intOf true 8 p.2).sum
  let x := acc.toInt + s
  let lo : Int := -(2 ^ 31)
  let hi : Int := 2 ^ 31 - 1
  if sat then
    let y := if x < lo then lo else if x > hi then hi else x
    (BitVec.ofInt 32 y, fIf (decide (y ≠ x)) fSat)
  else (BitVec.ofInt 32 x, 0)

/-- The exponent of the scales of a block, none when one is NaN (R163, R172, R205). -/
def scaleExp (sa sb : Nat) (bias : Int) : Option Int := if sa = 0xFF ∨ sb = 0xFF then none else some ((sa : Int) + bias + sb - 254)

/-- Entries [lo, lo + n) of a list. -/
def slice (xs : List Nat) (lo n : Nat) : List Nat := (xs.drop lo).take n

/-- MatrixAccumulate for one column (R172): activations and their scales, a column of weights and its scales. -/
def matAcc (c : Cmd) (fw : Fmt) (as sas ws sws : List Nat) (acc : Lane) : Lane × BitVec 5 :=
  let b := fw.blk
  (List.range (ws.length / b)).foldl (fun x i =>
    let y := if c.fmt = .i8 then blockAddInt c.mod6 (slice as (b * i) b) (slice ws (b * i) b) x.1
      else blockAdd c.mod6 (blockSum c.fmt fw (slice as (b * i) b) (slice ws (b * i) b))
        (if c.sc then scaleExp (sas.getD i 0) (sws.getD i 0) ((BitVec.ofNat 8 (bitsN c.imm 14 8)).toInt) else some 0) x.1
    (y.1, x.2 ||| y.2)) (acc, 0)

/-- Operand `i` of a command. -/
def Cmd.opnd (s : State) (c : Cmd) (i : Nat) : Opnd := (c.opnds s).getD i ⟨0, 0, false, [], [], [], none, none⟩

/-- Row c.done of an MMUL (R188). -/
def mmulRow (s : State) (c : Cmd) (d : LDesc) : Except FErr (State × Cmd) :=
  match weights s c d with
  | none => .error badLatch
  | some (ws, sws) =>
    let f := c.fmt
    let kb := d.k * f.width / 8
    let nb := d.k / f.blk
    let accVa : Int := (c.b.toNat : Int) + c.done * fieldN c.c 36 20
    match engRead s c (c.opnd s 0) ((c.a.toNat : Int) + c.done * fieldN c.c 16 20) (actLen f d.k c.sc),
        (if c.mod5 then .ok (List.replicate (4 * d.n) 0) else engRead s c { c.opnd s 1 with wr := false } accVa (4 * d.n)) with
    | .ok a, .ok z =>
      let as := elems f.width d.k (a.take kb)
      let sas := elems 8 nb (a.drop kb)
      let acc := elems 32 d.n z
      let ys := (List.range d.n).map fun n =>
        matAcc c d.fmt as sas (ws.map fun r => r.getD n 0) (sws.map fun r => r.getD n 0) (BitVec.ofNat 32 (acc.getD n 0))
      (engWrite s c (c.opnd s 1) accVa (packRow 32 (ys.map (·.1.toNat)))).map fun x =>
        (x.1, { x.2 with done := c.done + 1, flags := ys.foldl (fun g y => g ||| y.2) x.2.flags })
    | .error e, _ => .error e
    | _, .error e => .error e

/-- An element of MDRAIN (R189). In the integer branch a result that differs from the exact value sets INX, whether it was rounded, clamped or wrapped. -/
def drainElem (f : Fmt) (rnd : Rnd) (sat : Bool) (adj : Int) (a : Lane) : Nat × BitVec 5 :=
  if f = .i8 ∨ f = .i32 then
    let x := a.toInt
    let r := roundAt rnd (decide (x < 0)) x.natAbs adj 0
    let y : Int := if x < 0 then -(r.1 : Int) else r.1
    let h : Int := (2 ^ (f.width - 1) : Nat)
    let off := decide (y < -h) || decide (y > h - 1)
    let z := if sat && off then (if y < 0 then -h else h - 1) else y
    ((z % (2 ^ f.width : Nat)).toNat, fIf (r.2 || off) fInx ||| fIf (sat && off) fSat)
  else Fmt.round f rnd sat ((f32 a).scale adj)

/-- The rounding of MDRAIN. -/
def Cmd.rnd (c : Cmd) : Rnd := match bitsN c.mods 4 2 with | 0 => .rne | 1 => .rtz | 2 => .rdn | _ => .rup

/-- Row c.done of an MDRAIN (R189). -/
def mdrainRow (s : State) (c : Cmd) : Except FErr (State × Cmd) :=
  match engRead s c (c.opnd s 0) ((c.a.toNat : Int) + c.done * fieldN c.c 16 20) (4 * c.n) with
  | .error e => .error e
  | .ok z =>
    let ys := (elems 32 c.n z).map fun x => drainElem c.fmt c.rnd c.mod6 ((BitVec.ofNat 8 (bitsN c.imm 14 8)).toInt) (BitVec.ofNat 32 x)
    (engWrite s c (c.opnd s 1) ((c.b.toNat : Int) + c.done * fieldN c.c 36 20) (packRow c.fmt.width (ys.map (·.1)))).map fun x =>
      (x.1, { x.2 with done := c.done + 1, flags := ys.foldl (fun g y => g ||| y.2) x.2.flags })

/-- Row c.done of an MZERO (R190). -/
def mzeroRow (s : State) (c : Cmd) : Except FErr (State × Cmd) :=
  (engWrite s c (c.opnd s 0) ((c.a.toNat : Int) + c.done * fieldN c.b 16 20) (List.replicate (4 * c.n) 0)).map fun x =>
    (x.1, { x.2 with done := c.done + 1 })

/-- An MLDW reads its image; it latches it as it completes (R181, R187). ROWS shows 0 until the whole image is read and then K, here and for SPCMP (DESIGN CHOICE, log 82: R194 gives no rows for them). -/
def mldwRun (s : State) (c : Cmd) : Except FErr (State × Cmd) :=
  (readImage s c (c.opnd s 0)).map fun x => (s, { c with done := c.k, lat := some ⟨c.ldesc, x.1, x.2⟩ })

/-! SPCMP (R191). -/

/-- Whether an element ranks strictly below another by magnitude (R191). -/
def ranksBelow (a b : Num) : Bool :=
  match a, b with
  | .nan _, _ => false
  | _, .nan _ => true
  | .inf _, _ => false
  | _, .inf _ => true
  | .fin _ m e, .fin _ m' e' => magCmp m e m' e' == .lt

/-- The indices of the two elements kept of a group, ascending (R191). -/
def kept (xs : List Num) : Nat × Nat :=
  let above (i : Nat) : Nat := ((List.range xs.length).filter fun j =>
    let a := xs.getD i (.nan false)
    let b := xs.getD j (.nan false)
    ranksBelow a b || (decide (j < i) && !ranksBelow b a)).length
  let ks := (List.range xs.length).filter fun i => decide (above i < 2)
  (ks.getD 0 0, ks.getD 1 0)

/-- An SPCMP compresses its source (R191). -/
def spcmpRun (s : State) (c : Cmd) : Except FErr (State × Cmd) :=
  let f := c.fmt
  let rs := fieldN c.c 0 20
  let ds := fieldN c.c 20 20
  let src : Int := c.a.toNat
  let dst : Int := c.b.toNat
  let nb := c.k / f.blk
  match engRows s c (c.opnd s 0) src rs (rowBytes f c.n) (List.range c.k),
      (if c.sc then engRows s c (c.opnd s 0) (src + c.k * rs) c.n c.n (List.range nb) else .ok []) with
  | .ok w, .ok z =>
    let x := w.map (elems f.width c.n)
    let pick := table (c.k / 4) c.n fun g n =>
      let p := kept ((List.range 4).map fun i => Fmt.dec f (at2 x (4 * g + i) n))
      p.1 + 4 * p.2
    let meta' : Int := dst + c.k / 2 * ds
    let rows := (List.range (c.k / 2)).map fun (r : Nat) =>
      (dst + (r * ds : Nat), packRow f.width ((List.range c.n).map fun n =>
        let v := at2 pick (r / 2) n
        at2 x (4 * (r / 2) + (if r % 2 = 0 then v % 4 else v / 4)) n))
    let nibs := (List.range (c.k / 4)).map fun (g : Nat) => (meta' + (g * (c.n / 2) : Nat), packRow 4 (pick.getD g []))
    let scales := (z.zipIdx).map fun p => (meta' + (c.k / 4 * (c.n / 2) + p.2 * c.n : Nat), p.1)
    (engWriteAll s c (c.opnd s 1) (rows ++ nibs ++ scales)).map fun y => (y.1, { y.2 with done := c.k })
  | .error e, _ => .error e
  | _, .error e => .error e

/-! LYT (R218). -/

/-- Elements that one unit of a layout's progress holds: whole bytes of the destination. -/
def lUnit (l : Nat) : Nat := if lEsz l = 0 then 2 else if lEsz l = 1 then 4 else 1

/-- Element `n` of the source of a LYT, and the bytes that hold it. -/
def lytElem (s : State) (c : Cmd) (l n : Nat) : Except FErr Nat :=
  let base : Int := c.a.toNat
  if lEsz l = 0 then
    (engRead s c (c.opnd s 0) (base + (n / 2 : Nat)) 1).map fun b => bitsN (natOfBytes b) (4 * (if lSnb l then 1 - n % 2 else n % 2)) 4
  else if lEsz l = 1 then
    (engRead s c (c.opnd s 0) (base + (n / 4 * 3 : Nat)) 3).map fun b => bitsN (natOfBytes b) (6 * (n % 4)) 6
  else
    let k := lWidth l / 8
    (engRead s c (c.opnd s 0) (base + (n * k : Nat)) k).map natOfBytes

/-- The elements of one unit of the destination, in place. -/
def lytBits (s : State) (c : Cmd) (l first : Nat) : List Nat → Except FErr Nat
  | [] => .ok 0
  | i :: r =>
    match lytElem s c l (lSource l (first + i)) with
    | .error e => .error e
    | .ok x =>
      let p := if lEsz l = 0 ∧ lDnb l then 1 - i else i
      (lytBits s c l first r).map (x * 2 ^ (lWidth l * p) + ·)

/-- Unit `i` of a LYT. -/
def lytUnit (s : State) (c : Cmd) (i : Nat) : Except FErr (State × Cmd) :=
  let l := c.lw
  let u := lUnit l
  let k := u * lWidth l / 8
  match lytBits s c l (i * u) (List.range u) with
  | .error e => .error e
  | .ok x => engWrite s c (c.opnd s 1) ((c.b.toNat : Int) + (i * k : Nat)) (bytesLE k x)

/-! Copies (R225). -/

/-- Where row `i` of a copy is read and written, modulo 2^64 (R225, R346). -/
def copyRow (c : Cmd) (i : Nat) : Nat × Nat :=
  let si : Int := if c.op = .cpgath then c.cidx i else i
  let di : Int := if c.op = .cpscat then c.cidx i else i
  ((c.cp 0 + BitVec.ofInt 64 (si * c.cstr 4)).toNat, (c.cp 1 + BitVec.ofInt 64 (di * c.cstr 5)).toNat)

/-- Where byte `i` of a copy is read and written. -/
def copyAt (c : Cmd) (i : Nat) : Nat × Nat :=
  let p := copyRow c (i / c.clen)
  (p.1 + i % c.clen, p.2 + i % c.clen)

/-- Byte `i` of a copy. -/
def copyUnit (s : State) (c : Cmd) (i : Nat) : Except FErr (State × Cmd) :=
  match engRead s c (c.opnd s 0) (copyAt c i).1 1 with
  | .error e => .error e
  | .ok x => engWrite s c (c.opnd s 1) (copyAt c i).2 x

/-- Unit `i` of a LYT or a copy. -/
def unitOf (s : State) (c : Cmd) (i : Nat) : Except FErr (State × Cmd) := if c.op = .lyt then lytUnit s c i else copyUnit s c i

/-- The next unit of a LYT or a copy, unless it was done out of turn. -/
def unitStep (s : State) (c : Cmd) : Except FErr (State × Cmd) :=
  if c.wrote.contains c.done then .ok (s, { c with done := c.done + 1, wrote := c.wrote.filter (· != c.done) })
  else (unitOf s c c.done).map fun y => (y.1, { y.2 with done := c.done + 1 })

/-! Progress. -/

/-- The bytes that unit `i` of a command reaches, in the order of their translation: the operand, an address, a length. -/
def unitSpans (s : State) (c : Cmd) (i : Nat) : List (Opnd × Int × Nat) :=
  let row (va st : Nat) : Int := (va : Int) + (i * st : Nat)
  let o (k : Nat) : Opnd := c.opnd s k
  match c.op with
  | .mmul => match c.wdesc with
    | some d => [(o 0, row c.a.toNat (fieldN c.c 16 20), actLen c.fmt d.k c.sc), (o 1, row c.b.toNat (fieldN c.c 36 20), 4 * d.n)]
    | none => []
  | .mdrain => [(o 0, row c.a.toNat (fieldN c.c 16 20), 4 * c.n), (o 1, row c.b.toNat (fieldN c.c 36 20), rowBytes c.fmt c.n)]
  | .mzero => [(o 0, row c.a.toNat (fieldN c.b 16 20), 4 * c.n)]
  | .lyt =>
    let l := c.lw
    let u := lUnit l
    let at' (n : Nat) : Opnd × Int × Nat :=
      if lEsz l = 0 then (o 0, (c.a.toNat + n / 2 : Nat), 1)
      else if lEsz l = 1 then (o 0, (c.a.toNat + n / 4 * 3 : Nat), 3)
      else (o 0, (c.a.toNat + n * (lWidth l / 8) : Nat), lWidth l / 8)
    ((List.range u).map fun j => at' (lSource l (i * u + j))) ++ [(o 1, row c.b.toNat (u * lWidth l / 8), u * lWidth l / 8)]
  | .cpgo | .cpgath | .cpscat => [(o 0, (copyAt c i).1, 1), (o 1, (copyAt c i).2, 1)]
  | .mldw | .spcmp => (c.opnds s).map fun o => (o, o.lo, o.len)
  | .coll => ((c.opnds s).drop 2).map fun o => (o, o.lo, o.len)

/-- The pages of some bytes have been translated, and their rights have passed (R97). -/
def passPages (c : Cmd) (spans : List (Opnd × Int × Nat)) : Cmd :=
  { c with okP := spans.foldl (fun m x =>
      (pageParts (BitVec.ofInt 64 x.2.1).toNat x.2.2).foldl (fun m p =>
        let k := x.1.page p.1
        if m.contains k then m else k :: m) m) c.okP }

/-- Where an address lies in a span: its distance from the start. -/
def spanAt (va : Word) (x : Opnd × Int × Nat) : Option Nat :=
  let d := (va - BitVec.ofInt 64 x.2.1).toNat
  if d < x.2.2 then some d else none

/-- What comes before an address in the order of translation; nothing where it lies in no span. -/
def spansTo (va : Word) : List (Opnd × Int × Nat) → List (Opnd × Int × Nat)
  | [] => []
  | x :: r =>
    match spanAt va x with
    | some d => [(x.1, x.2.1, d)]
    | none => if r.any fun y => (spanAt va y).isSome then x :: spansTo va r else []

/-- The bytes that a transfer has written. -/
def Cmd.bytes (c : Cmd) : Nat := c.done + c.wrote.length

/-- The address of a byte for a peer whose binding has ended, among those that a command has written and that are not visible (R285). -/
def outCut (s : State) (c : Cmd) : Option Word :=
  (c.out.find? fun x => locCut s c.vf x.1).map fun x =>
    let parts := ((c.opnds s).filter (·.wr)).flatMap fun o => pageParts o.lo.toNat o.len
    (parts.findSome? fun p =>
      match transl s c.vf (p.1 % 2 ^ 57) with
      | .leaf e bits =>
        let l := placeOf c.core (BitVec.ofNat 64 p.1) e bits
        if l.sp = x.1.sp ∧ l.a ≤ x.1.a ∧ x.1.a < l.a + p.2 then some (BitVec.ofNat 64 (p.1 + (x.1.a - l.a))) else none
      | _ => none).getD 0

/-- The units of progress of a command: rows, elements or bytes. -/
def Cmd.total (c : Cmd) : Nat :=
  match c.op with
  | .mldw | .spcmp => c.k
  | .mmul | .mdrain | .mzero => c.m
  | .lyt => lCount c.lw / lUnit c.lw
  | .cpgo | .cpgath | .cpscat => c.clen * c.crows
  | .coll => 0

/-- One unit of progress. -/
def runOne (s : State) (c : Cmd) : Except FErr (State × Cmd) :=
  match c.op with
  | .mldw => mldwRun s c
  | .mmul => match c.wdesc with | some d => mmulRow s c d | none => .error badLatch
  | .mdrain => mdrainRow s c
  | .mzero => mzeroRow s c
  | .spcmp => spcmpRun s c
  | .lyt | .cpgo | .cpgath | .cpscat => unitStep s c
  | .coll => .ok (s, c)

/-- A unit of a LYT or a copy may be done out of turn: it is not done, and no lower unit that is not done writes its bytes (R139, R225). -/
def unitFree (c : Cmd) (k : Nat) : Bool :=
  (c.op == .lyt || c.op.isCopy) && decide (c.done ≤ k) && decide (k < c.total) && !c.wrote.contains k
    && (c.op == .lyt || (List.range (k - c.done)).all fun j =>
      c.wrote.contains (c.done + j) || (copyAt c (c.done + j)).2 != (copyAt c k).2)

/-- A unit of a LYT or a copy done out of turn; nothing where it cannot be (R139). -/
def runUnit (s : State) (c : Cmd) (k : Nat) : State × Cmd :=
  if !unitFree c k then (s, c)
  else match unitOf s c k with
    | .error _ => (s, c)
    | .ok y => (y.1, passPages { y.2 with wrote := k :: c.wrote } (unitSpans s c k))

/-- The operands that a command reads: its sources, and the accumulator rows of an MMUL.ACC. -/
def Cmd.reads (s : State) (c : Cmd) : List Opnd :=
  (c.opnds s).filterMap fun o => if !o.wr then some o else if c.op = .mmul ∧ ¬ c.mod5 then some { o with wr := false } else none

/-- A byte of a source is read ahead of its unit; nothing where it is no byte of a source, or does not translate (R128, R139). -/
def runAhead (s : State) (c : Cmd) (va : Word) : Cmd :=
  if c.got.any (·.1 == va.toNat) then c
  else match (c.reads s).find? fun o => decide (o.lo ≤ (va.toNat : Int)) && decide ((va.toNat : Int) < o.lo + o.len) with
    | none => c
    | some o => match engLoc s c o (va.toNat : Int) with
      | .error _ => c
      | .ok l => passPages { c with got := (va.toNat, engByte s c l) :: c.got } [(o, (va.toNat : Int), 1)]

/-- Up to `n` units of progress, to the first fault. -/
def runFor : Nat → State × Cmd → (State × Cmd) × Option FErr
  | 0, x => (x, none)
  | n + 1, x =>
    if x.2.done ≥ x.2.total then (x, none)
    else match runOne x.1 x.2 with
      | .error e => (x, some e)
      | .ok y => runFor n (y.1, passPages y.2 (unitSpans x.1 x.2 x.2.done))

/-- The rest of a command, to the first fault. -/
def runAll (s : State) (c : Cmd) : (State × Cmd) × Option FErr := runFor (c.total - c.done) (s, c)

/-- How far a command has come when something stops it: free between where it stands and its end (R338, R229, R230). -/
def runCut (s : State) (c : Cmd) : State × Cmd := (runFor ((Config.freeWord s.tick).toNat % (c.total - c.done + 1)) (s, c)).1

end Sys2Proof.Machine
end

