-- ==== Sys2Proof/Machine/Engines.lean ====
section
/-! DEFINITION. The events of the matrix engine, the Scrim and the copy channels: starts, panes, completions, faults in mid-stream (R116, R117, R180, R195, R208, R210, R220, R228 to R236). -/

namespace Sys2Proof.Machine

/-! When a command may start. -/

/-- The commands ahead of a command in the queues; one that is held back at dispatch has not entered (R180, R220, R227, R441). -/
def ahead (s : State) (c : Cmd) : List Cmd := (s.cmds.takeWhile fun x => x.id != c.id).filter (·.entered)

/-- Whether an earlier command is done for a later one: gone from the queues, or complete in the later one's own rewritten group (R117, R180, R208). -/
def doneFor (x c : Cmd) : Bool := x.st == .done && x.grp == c.grp

/-- R117: an earlier command of the spoke writes tile-buffer bytes that the command reaches. -/
def tbWaits (s : State) (c : Cmd) : Bool :=
  (ahead s c).any fun x => x.owner == c.owner && !doneFor x c && (rangesMeet x.tbW c.tbR || rangesMeet x.tbW c.tbW)

/-- R138: an earlier access of the spoke has not been performed, be the spoke killed since; posted writes aside. -/
def issWaits (s : State) (c : Cmd) : Bool :=
  ((ownerSp s c.owner).outst.any fun r => !r.posted && decide (r.id < c.po)) || s.orphans.any fun x => c.after.contains x.req.id

/-- R180, R208: an earlier command on one of the quadrants holds the command back. A command of a group counts as done when it completes, but an MLDW of another rewritten group only when it is gone. -/
def quadWaits (s : State) (c : Cmd) : Bool :=
  (ahead s c).any fun x => x.op.isMatrix && tileOf x.core == tileOf c.core &&
    (if c.op = .spcmp then x.op == .spcmp && x.st != .done
     else x.op != .spcmp && (quadsOf x.quad).any ((quadsOf c.quad).contains ·) &&
      !(x.st == .done && (x.grp == c.grp || x.op != .mldw)))

/-- R220: the Scrim runs one command at a time, in queue order. -/
def scrimWaits (s : State) (c : Cmd) : Bool := (ahead s c).any fun x => x.op == .lyt && tileOf x.core == tileOf c.core && x.st != .done

/-- Whether a queued command may start, panes aside. -/
def mayStart (s : State) (c : Cmd) : Bool :=
  c.st == .queued && !tbWaits s c && !issWaits s c && !(c.op.isMatrix && quadWaits s c) && !(c.op == .lyt && scrimWaits s c)

/-! Panes (R116, R118). -/

/-- Whether the panes of a request are free. -/
def reqFree (s : State) (r : PaneReq) : Bool :=
  match r.cmd.bind (getCmd s ·), r.grp.bind (getTg s ·), r.pub with
  | some c, _, _ => panesFree s c.vf c.panes
  | none, some g, _ => panesFree s g.vf g.regions
  | none, none, some n => decide (paneUsed s r.tile r.vf + n ≤ paneShare s r.tile r.vf)
  | none, none, none => true

/-- Whether a request comes from an owner: one of an owner that was killed comes from nobody (R116, R196). -/
def PaneReq.by (r : PaneReq) (o : Owner) : Bool := r.owner == o && o != .gone

/-- Whether request `i` can be granted: its panes are free, and no earlier request of its owner waits (R116). -/
def grantable (s : State) (i : Nat) : Bool :=
  match s.paneReqs[i]? with
  | none => false
  | some r => reqFree s r && !((s.paneReqs.take i).any (·.by r.owner))

/-- Whether a request that could be granted still stands: it goes first (R116). -/
def someGrantable (s : State) : Bool := (List.range s.paneReqs.length).any (grantable s ·)

/-- Whether an owner waits for panes. -/
def askedFor (s : State) (o : Owner) : Bool := s.paneReqs.any (·.by o)

/-- The regions for which a command must hold panes as it starts, and whether it does: its own, its rewritten group's, or none inside a publish group. -/
def needPanes (s : State) (c : Cmd) : Option (List Nat) :=
  match c.grp.bind (getTg s ·) with
  | some g => if g.held ∨ g.regions = [] then none else some g.regions
  | none => if c.pub.isSome ∨ c.panes = [] then none else some c.panes

/-- A command starts: it runs, and its rewritten group holds its panes. -/
def setRunning (s0 : State) (c : Cmd) : State :=
  let s := noteOpnds s0 c
  let s1 := match c.grp.bind (getTg s ·) with
    | some g => { s with tgrps := mset s.tgrps g.id { g with held := true } }
    | none => s
  setCmd s1 { c with st := .running }

/-- A command that may start does so, or waits aside for its panes (R116). -/
def startCmd (s : State) (c : Cmd) : State :=
  match needPanes s c with
  | none => setRunning s c
  | some rs =>
    if panesFree s c.vf rs ∧ ¬ someGrantable s ∧ ¬ askedFor s c.owner then setRunning s c
    else
      let r : PaneReq := ⟨tileOf c.core, c.vf, rs.length, c.owner, if c.grp.isSome then none else some c.id, c.grp, none⟩
      setCmd { s with paneReqs := s.paneReqs ++ [r] } { c with st := .aside }

/-- PANE_GRANT: request `idx` gets its panes: a command starts, a rewritten group's commands may start, a PGRP opens its group (R116, R118). -/
def execPaneGrant (idx : Nat) (s : State) : Out :=
  match s.paneReqs[idx]? with
  | none => .next s
  | some r =>
    if !grantable s idx || (List.range idx).any (grantable s ·) then .next s
    else
      let s1 := { s with paneReqs := s.paneReqs.take idx ++ s.paneReqs.drop (idx + 1) }
      match r.cmd.bind (getCmd s1 ·), r.grp.bind (getTg s1 ·), r.pub with
      | some c, _, _ => .next (setRunning s1 c)
      | none, some g, _ =>
        .next { s1 with
          tgrps := mset s1.tgrps g.id { g with held := true }
          cmds := s1.cmds.map fun c => if c.grp = some g.id ∧ c.st = .aside then { c with st := .running } else c }
      | none, none, some n =>
        let p : PubGrp := { id := s1.nextId, n := n, regions := [], ovl := [], owner := r.owner, tile := r.tile, vf := r.vf, held := true }
        .next (modOwner (bump { s1 with pubs := mset s1.pubs p.id p }) r.owner fun q =>
          { q with park := if q.park = .panes then .none else q.park, pub := some p.id })
      | none, none, none => .next s1

/-! Rewritten groups (R208). -/

/-- An original reports at the commit what its own command would have produced (R208). -/
def reportOrig (flags : BitVec 5) (s : State) (c : Cmd) : State :=
  let s1 := modOwner s c.owner fun p =>
    let q := dropSnap p c.snap
    if c.op.isMatrix then { q with mprog := progWord { c with done := c.rows } false false } else q
  report s1 c (c.okWord flags) none

/-- The commit of a group: latches change and the panes publish in one step, or merge into the reservation (R208). -/
def commit (s : State) (t : TrGrp) : State :=
  let s1 := { s with cmds := s.cmds.filter (·.grp != some t.id), tgrps := s.tgrps.filter (·.1 != t.id)
                     latches := t.latches.foldl (fun m p => mset m p.1 p.2) s.latches }
  let s2 := match t.pub.bind (getPub s1 ·) with
    | some p => { s1 with pubs := mset s1.pubs p.id { p with ovl := t.ovl.foldl (fun m x => mset m x.1 x.2) p.ovl } }
    | none => if t.pub.isSome then s1 else publish s1 t.ovl
  t.origs.foldl (reportOrig t.flags) (modOwner s2 t.owner fun p => p.orFlags t.flags)

/-- A command of a group has completed: its writes and flags are the group's, and the last one commits it. -/
def groupDone (s : State) (c : Cmd) (g : Nat) : State :=
  let x := settlePanes s c
  let s1 := setCmd x.1 { x.2 with st := .done }
  match getTg s1 g with
  | none => s1
  | some t =>
    let t' := { t with flags := t.flags ||| c.flags }
    let s2 := { s1 with tgrps := mset s1.tgrps g t' }
    if (s2.cmds.filter (·.grp == some g)).all (·.st == .done) then commit s2 t' else s2

/-! Ends. -/

/-- A matrix or layout command, or a command of a group, meets a failure: it completes in error, or its group is abandoned (R97, R181, R193, R210). -/
def engFail (s : State) (c : Cmd) (code : FaultCode) (va : Word) (acc : Nat) : State :=
  match c.grp with
  | some g => abandon s g true
  | none =>
    let d := { c with errVa := va, errAcc := acc }
    finish (resetRec s d) d (refuseWord code) (some code)

/-- The failure that a command ends with although its work is done: one that has written to a peer whose connection has ended since (R285). -/
def lateFail (s : State) (c : Cmd) : Option (FaultCode × Word × Nat) := c.fail.or ((outCut s c).map fun va => (.segment, va, 5))

/-- A command completes normally; an MLDW latches what it has read (R187). One that has lost a peer completes with SEGMENT (R285). -/
def engDone (s : State) (c : Cmd) : State :=
  match lateFail s c with
  | some (code, va, acc) => engFail s c code va acc
  | none =>
    let s1 := match c.lat with | some l => setLatch s c l | none => s
    match c.grp with
    | some g => groupDone s1 c g
    | none => finish s1 c (c.okWord c.flags) none

/-- Whether an address of a command lies in one of some memories. -/
def siteIn (s : State) (c : Cmd) (va : Nat) (hit : Space → Bool) : Bool :=
  match transl s c.vf (va % 2 ^ 57) with
  | .leaf e bits => hit (placeOf c.core (BitVec.ofNat 64 va) e bits).sp
  | _ => false

/-- The accesses of a command that an error from outside can meet, as address and ACC (R231, R262): those of the next byte of a copy; of another command one byte, which is free, of each page of its operands. -/
def errSites (s : State) (c : Cmd) (hit : Space → Bool) : List (Nat × Nat) :=
  let all : List (Nat × Nat) :=
    if c.op.isCopy then if c.done < c.total then [((copyAt c c.done).1, 4), ((copyAt c c.done).2, 5)] else []
    else (c.opnds s).flatMap fun o => (pageParts o.lo.toNat o.len).map fun p =>
      (p.1 + (Config.freeWord s.tick).toNat % p.2, engAcc o.wr)
  all.filter fun p => siteIn s c p.1 hit

/-- The error that the outside ends a command with, and the memories where it can meet it (R230, R259, R267, R285). -/
def endHit : EndStatus → Option (FaultCode × (Space → Bool))
  | .denied => some (.hostDenied, fun p => p == .host)
  | .lost => some (.segment, fun p => p == .peer)
  | .soft => some (.softError, fun _ => true)
  | _ => none

/-- The error from outside that ends a command, with the access that met it, which is free among those that can (R231, R262); none where no access of the command can meet it. -/
def endError (s : State) (c : Cmd) (st : EndStatus) : Option (FaultCode × Word × Nat) :=
  match endHit st with
  | none => none
  | some (code, hit) =>
    let l := errSites s c hit
    (l[(Config.freeWord s.tick).toNat % l.length]?).map fun p => (code, BitVec.ofNat 64 p.1, p.2)

/-- A part of the work of a running command: a byte read ahead, a unit out of turn, a byte that becomes visible; none for the other statuses (R128, R139). -/
def engPart (s : State) (c : Cmd) : EndStatus → Option State
  | .ahead va => some (setCmd s (runAhead s c va))
  | .unit k => let x := runUnit s c k; some (setCmd x.1 x.2)
  | .drain k => some (drainOne s c k)
  | _ => none

/-- An uncorrectable soft error is counted (R288). -/
def noteSoft (s : State) (code : FaultCode) : State := if code = .softError then countLife s 3 0 0 else s

/-- The end of a running matrix or layout command: it runs to its end, or as far as the error that ends it; or a part of its work. -/
def engComplete (s : State) (c : Cmd) (st : EndStatus) : State :=
  match engPart s c st with
  | some t => t
  | none =>
    if st = .ok then
      match runAll s c with
      | (x, none) => engDone (setCmd x.1 x.2) x.2
      | (x, some e) => if e = badLatch then engFail (setCmd x.1 x.2) x.2 e.code 0 0 else s
    else
      let x := runCut s c
      match endError x.1 x.2 st with
      | none => s
      | some (code, va, acc) => engFail (noteSoft (setCmd x.1 x.2) code) x.2 code va acc

/-- A matrix command, by number. -/
def matCmd (s : State) (id : Nat) : Option Cmd := (getCmd s id).filter (·.op.isMatrix)

/-- A layout command, by number. -/
def lytCmd (s : State) (id : Nat) : Option Cmd := (getCmd s id).filter (·.op == .lyt)

/-- A queued command starts; one that runs completes one more row or unit (R180, R188, R194, R221). -/
def engStart (s : State) (c : Cmd) : State :=
  if mayStart s c then startCmd s c
  else if c.st = .running ∧ c.done + 1 < c.total then
    let x := runFor 1 (noteOpnds s c, c)
    setCmd x.1.1 x.1.2
  else s

/-- MATRIX_COMMAND_START: a queued matrix command starts, or a running one completes one more row (R180, R188, R194). -/
def execMatrixCommandStart (id : Nat) (s : State) : Out :=
  match matCmd s id with
  | none => .next s
  | some c => .next (engStart s c)

/-- MATRIX_COMMAND_COMPLETE: a running matrix command completes (R188 to R193, R208). -/
def execMatrixCommandComplete (id : Nat) (st : EndStatus) (s : State) : Out :=
  match matCmd s id with
  | none => .next s
  | some c => if c.st = .running then .next (engComplete s c st) else .next s

/-- LAYOUT_COMMAND_START: the next LYT of a tile starts, or the running one moves one more unit (R220, R221). -/
def execLayoutCommandStart (id : Nat) (s : State) : Out :=
  match lytCmd s id with
  | none => .next s
  | some c => .next (engStart s c)

/-- LAYOUT_COMMAND_COMPLETE: the running LYT completes (R221, R208). -/
def execLayoutCommandComplete (id : Nat) (st : EndStatus) (s : State) : Out :=
  match lytCmd s id with
  | none => .next s
  | some c => if c.st = .running then .next (engComplete s c st) else .next s

/-! Copies. -/

/-- COPY_SLOT_GRANT: the first waiting copy of a channel, whose VF the event names, takes a free slot, and what it held back dispatches (R227). -/
def execCopySlotGrant (core vf : Nat) (s : State) : Out :=
  match slotWaiters s core with
  | [] => .next s
  | c :: _ =>
    if c.vf = vf ∧ inFlight s core < 512 then .next (release (takeSlot s c) c.owner) else .next s

/-- The barrier of a transfer as the channel translates it at the end: nothing where BAR is 0 (R97, R236). -/
def barAt (s : State) (c : Cmd) : Except FErr (Option Loc) :=
  match barOpnd c with
  | [] => .ok none
  | o :: _ => (engLocs s c o o.lo 16).map (·.head?)

/-- A retryable fault parks a command on a fault waiter of its core; the progress made stays, what it has read ahead is read again, and the pages that have passed their check are not checked again (R97, R195, R228). With no slot free it waits for one. -/
def engPark (s : State) (c0 : Cmd) (e : FErr) : State :=
  let c := { passPages c0 (if c0.atEnd then [] else spansTo e.va (unitSpans s c0 c0.done)) with errVa := e.va, errAcc := e.acc, got := [] }
  match takeWaiter (setCmd s c) c.core c.vf (.cmd c.id) e c.pc c.dom with
  | some (s1, _) => setCmd s1 { c with st := .parked }
  | none => setCmd s c

/-- A transfer leaves its channel: with the failure that it has met, or normally or by cancellation (R228 to R231, R236). -/
def copyClose (s : State) (c : Cmd) (bar : Option Loc) : State :=
  match c.fail with
  | some (code, va, acc) => finishCopy s { c with errVa := va, errAcc := acc } (some code) c.bytes bar
  | none => finishCopy s c none c.bytes bar

/-- A transfer has met a failure: its first one counts, and none does behind a cancellation; with none met since, bytes for a peer whose binding has ended are one (R285). -/
def cutFail (s : State) (c : Cmd) : Cmd :=
  match outCut s c with
  | some va => if c.fail.isSome || c.cancel then c else { c with fail := some (.segment, va, 5) }
  | none => c

/-- A transfer has made its last write, has failed or is cancelled: its arrival waits for the page of its barrier, on which it parks (R97, R228, R236); a barrier that fails terminally gives no arrival (DESIGN CHOICE, log 83: R236 does not say), and is the failure of a transfer that has met none. -/
def copyEnd (s : State) (c0 : Cmd) : State :=
  let c := cutFail s c0
  match barAt s c with
  | .ok l => copyClose s c l
  | .error e =>
    if e.code = .notPresent then
      engPark (drainOut s c) { c with st := .running, atEnd := true, panes := if c.st = .running ∨ c.st = .parked then c.panes else []
                                      out := c.out.filter fun x => locCut s c.vf x.1 } e
    else copyClose s (if c.fail.isSome || c.cancel then c else { c with fail := some (e.code, e.va, e.acc) }) none

/-- A transfer ends in error (R97, R230, R231). -/
def copyFail (s : State) (c : Cmd) (code : FaultCode) (va : Word) (acc : Nat) : State :=
  copyEnd s (if c.fail.isSome then c else { c with fail := some (code, va, acc) })

/-- A transfer runs to its end, is cancelled, or ends in error (R228 to R231); or it does a part of its work. A barrier that does not translate holds back its end. -/
def copyComplete (s : State) (c : Cmd) (st : EndStatus) : State :=
  if c.atEnd then (if c.st = .running then copyEnd s c else s)
  else if c.cancel then
    let x := if c.st = .running then runCut s c else (s, c)
    copyEnd x.1 x.2
  else if c.st ≠ .running then s
  else match engPart s c st with
  | some t => t
  | none =>
    if st = .ok then
      match runAll s c with
      | (x, none) => match barAt x.1 x.2 with
        | .ok l => copyClose x.1 (cutFail x.1 x.2) l
        | .error _ => s
      | (_, some _) => s
    else
      let x := runCut s c
      match endError x.1 x.2 st with
      | none => s
      | some (code, va, acc) => copyFail (noteSoft x.1 code) x.2 code va acc

/-- TRANSFER_COMPLETION: a transfer that holds its slot starts when it may (R116, R117, R138), and completes (R230, R231). -/
def execTransferCompletion (id : Nat) (st : EndStatus) (s : State) : Out :=
  match (getCmd s id).filter (·.op.isCopy) with
  | none => .next s
  | some c =>
    if c.cancel ∧ c.st = .queued then .next (copyComplete s c st)
    else
      let s1 := if mayStart s c then startCmd s c else s
      match getCmd s1 id with
      | some d => .next (copyComplete s1 d st)
      | none => .next s1

/-- COPY_BARRIER_ARRIVAL: the arrival of a completed copy lands on its barrier (R41, R236). -/
def execCopyBarrierArrival (idx : Nat) (s : State) : Out :=
  match s.barArrs[idx]? with
  | none => .next s
  | some a => .next (barArrive { s with barArrs := s.barArrs.take idx ++ s.barArrs.drop (idx + 1) } a.loc a.bytes)

/-! Faults in mid-stream (R97, R195, R228). -/

/-- The fault that a running command meets at translation, with how far it has come: in its operands, or at the end of a copy in its barrier (R97). -/
def engNext (s : State) (c : Cmd) : (State × Cmd) × Option FErr :=
  match runAll s c with
  | (x, some e) => (x, some e)
  | (x, none) => (x, if c.op.isCopy then (match barAt x.1 x.2 with | .error e => some e | .ok _ => none) else none)

/-- A running command meets a fault at translation; a transfer that is to be cancelled does not, one that is at its end meets that of its barrier. -/
def engFault (s : State) (c : Cmd) : State :=
  if c.atEnd then (match barAt s c with | .error _ => copyEnd s c | .ok _ => s)
  else match engNext s c with
  | (_, none) => s
  | (x, some e) =>
    if e = badLatch ∨ c.cancel then s
    else if e.code = .notPresent then
      match c.grp with
      | some g => abandon x.1 g true
      | none => engPark x.1 x.2 e
    else if c.op.isCopy then copyFail x.1 x.2 e.code e.va e.acc
    else engFail (setCmd x.1 x.2) x.2 e.code e.va e.acc
end Sys2Proof.Machine
end

