-- ==== Sys2Proof/Machine/Collective.lean ====
section
/-! DEFINITION. Collectives and leases (R237 to R240, R282): COLL_COMPLETE, LEASE_ANSWER, LEASE_EXPIRY; and ENGINE_TRANSLATION_FAULT for every engine (R97, R195, R210, R228). -/

namespace Sys2Proof.Machine

/-! Reduction (R239). -/

/-- The order of two codes of a binary format, with +0 above −0. -/
def keyOf (w c : Nat) : Int := if bitsN c (w - 1) 1 = 1 then -(c % 2 ^ (w - 1) : Nat) - 1 else (c % 2 ^ (w - 1) : Nat)

/-- Op of a reduction on two elements (R239): the result and its flags. -/
def redOp (f : Fmt) (red a b : Nat) : Nat × BitVec 5 :=
  let w := f.width
  if f = .i32 then
    let x := intOf true 32 a
    let y := intOf true 32 b
    (if red = 0 then (a + b) % 2 ^ 32 else if red = 1 then if x < y then b else a else if y < x then b else a, 0)
  else
    let x := Fmt.dec f a
    let y := Fmt.dec f b
    if red = 0 then
      let z := numAdd .rne x y
      let r := Fmt.round f .rne false z.1
      (r.1, z.2 ||| r.2)
    else if x.isNan || y.isNan then ((Fmt.round f .rne false (.nan false)).1, fIf (x.sig || y.sig) fInv)
    else (if red = 1 then if keyOf w a < keyOf w b then b else a else if keyOf w b < keyOf w a then b else a, 0)

/-- One element reduced in ascending rank order (R239). -/
def redAll (f : Fmt) (red : Nat) : List Nat → Nat × BitVec 5
  | [] => (0, 0)
  | x :: xs => xs.foldl (fun a y => let r := redOp f red a.1 y; (r.1, a.2 ||| r.2)) (x, 0)

/-- Block `b` of the reduction of the ranks' sources, `n` elements. -/
def redBlock (f : Fmt) (red b n : Nat) (srcs : List (List Byte)) : List Byte × BitVec 5 :=
  let k := f.width / 8
  let rows := srcs.map fun s => elems f.width n ((s.drop (b * n * k)).take (n * k))
  let ys := (List.range n).map fun e => redAll f red (rows.map fun r => r.getD e 0)
  (packRow f.width (ys.map (·.1)), ys.foldl (fun g y => g ||| y.2) 0)

/-! COLL (R238, R240). -/

/-- The format of a collective's elements. -/
def Cmd.collFmt (c : Cmd) : Fmt := (fmtOf c.cfmt).getD .f32

/-- The bytes that each rank brings, in rank order: the command's own source, and the peers' as the links carried them; none while one is missing or has another length. -/
def collSrcs (c : Cmd) (own : List Byte) (peers : List (Nat × List Byte)) : Option (List (List Byte)) :=
  let need := if c.cop = 0 ∨ c.cop = 2 then c.nrank * c.blkBytes else c.blkBytes
  (List.range c.nrank).mapM fun i =>
    if i = c.rank then some own
    else if c.cop = 3 ∧ i ≠ c.root then some []
    else match peers.find? (·.1 == i) with
      | some p => if p.2.length = need then some p.2 else none
      | none => none

/-- What a collective writes to its destination, with its flags (R238, R239). -/
def collResult (c : Cmd) (srcs : List (List Byte)) : List Byte × BitVec 5 :=
  if c.cop = 0 then redBlock c.collFmt c.red c.rank c.count srcs
  else if c.cop = 1 then (srcs.flatten, 0)
  else if c.cop = 2 then
    let bs := (List.range c.nrank).map fun b => redBlock c.collFmt c.red b c.count srcs
    (bs.flatMap (·.1), bs.foldl (fun g x => g ||| x.2) 0)
  else (srcs.getD c.root [], 0)

/-- The source and destination operands of a collective. -/
def collSrc (c : Cmd) : Opnd := collOpnd (c.desc.getD 3 0) (collSrcLen c) false

/-- The destination operand of a collective. -/
def collDst (c : Cmd) : Opnd := collOpnd (c.desc.getD 4 0) (collDstLen c) true

/-- The first fault that a collective's operands meet at translation. -/
def collFault (s : State) (c : Cmd) : Option FErr :=
  match engLocs s c (collSrc c) (collSrc c).lo (collSrc c).len with
  | .error e => some e
  | .ok _ => match engLocs s c (collDst c) (collDst c).lo (collDst c).len with
    | .error e => some e
    | .ok _ => none

/-- A dispatched COLL that is next on its lease, with nothing of R138 or R117 before it (R240). -/
def collNext (s : State) (c : Cmd) : Bool :=
  c.op == .coll && (c.st == .running || mayStart s c)
    && !((ahead s c).any fun x => x.op == .coll && x.desc.getD 0 0 == c.desc.getD 0 0 && !x.held)

/-- A COLL completes in error (R240, R343). -/
def collFail (s : State) (c : Cmd) (code : FaultCode) (va : Word) (acc : Nat) : State :=
  finish s { c with errVa := va, errAcc := acc } (refuseWord code) (some code)

/-- The error that ends a collective, with the access that met it: a mismatch and a lost peer name none (R240, R285). -/
def collEndError (s : State) (c : Cmd) : EndStatus → Option (FaultCode × Word × Nat)
  | .mismatch => some (.illegalField, 0, 0)
  | .lost => some (.segment, 0, 0)
  | st => endError s c st

/-- Whether a peer of a collective has no binding to its VF: the collective ends in error with SEGMENT (R285). -/
def collCut (s : State) (c : Cmd) : Bool :=
  c.idx.zipIdx.any fun p => p.2 != c.rank && !mhas s.binds (c.vf * 1024 + p.1.toNat)

/-- The reduction of a collective on this rank, with what its peers brought: what it writes is not visible yet (R239, R240); none while something is missing or does not translate. -/
def collRun (s : State) (c : Cmd) (peers : List (Nat × List Byte)) : Option (State × Cmd) :=
  match engRead s c (collSrc c) (collSrc c).lo (collSrc c).len with
  | .error _ => none
  | .ok own => match collSrcs c own peers with
    | none => none
    | some srcs =>
      let r := collResult c srcs
      match engWrite s c (collDst c) (collDst c).lo r.1 with
      | .error _ => none
      | .ok x => some (x.1, { x.2 with flags := r.2, done := 1, st := .running })

/-- A collective completes; one that has written to a peer whose connection has ended since completes with SEGMENT (R285). -/
def collDone (s : State) (c : Cmd) : State :=
  match lateFail s c with
  | some (code, va, acc) => collFail s c code va acc
  | none => finish s c 0 none

/-- A collective that goes on: a source byte is read ahead, the result is formed, a byte of it becomes visible, or it completes (R128, R240). -/
def collGo (s : State) (c : Cmd) (st : EndStatus) (peers : List (Nat × List Byte)) : State :=
  match st with
  | .ahead va => setCmd s (runAhead s { c with st := .running } va)
  | .drain k => drainOne s c k
  | .unit _ => if c.done = 1 then s else match collRun s c peers with
    | none => s
    | some x => setCmd x.1 x.2
  | _ =>
    if c.done = 1 then collDone s c
    else match collRun s c peers with
      | none => s
      | some x => collDone x.1 x.2

/-- COLL_COMPLETE: a collective completes on this rank, with what its peers brought, or in error; or it does a part of its work (R238 to R240, R285, R343). One whose lease is no longer current ends with LEASE (R237). -/
def execCollComplete (id : Nat) (st : EndStatus) (peers : List (Nat × List Byte)) (s : State) : Out :=
  match (getCmd s id).filter (collNext s ·) with
  | none => .next s
  | some c =>
    if !leaseCurrent s c.vf (c.desc.getD 0 0) then .next (collFail s c .lease 0 0)
    else if c.fail.isSome ∨ (c.done = 0 ∧ collCut s c) then .next (collFail s c .segment ((c.fail.map (·.2.1)).getD 0) ((c.fail.map (·.2.2)).getD 0))
    else match collEndError s c st with
      | some (code, va, acc) => .next (collFail (noteSoft s code) c code va acc)
      | none => match st with
        | .ok | .ahead _ | .unit _ | .drain _ => .next (collGo s c st peers)
        | .denied | .lost | .soft | .mismatch => .next s

/-! Leases (R282). -/

/-- LEASEMAX of a VF (R278, R282). -/
def leaseMax (s : State) (v : Nat) : Nat := fieldN (getFn s v).ctlAct.sched 49 5

/-- Engines that a VF holds. -/
def leasesOf (s : State) (v : Nat) : Nat :=
  ((List.range 16).filter fun e => match (getEngine s e).lease with | some (w, _) => w == v | none => false).length

/-- The handle of an engine's lease (R237). -/
def handleOf (e : Nat) (gen : BitVec 32) : Word := BitVec.ofNat 64 (e + gen.toNat * 2 ^ 16)

/-- LEASE_ANSWER: the oldest request receives the lowest free engine, or is refused (R237, R282). -/
def execLeaseAnswer (s : State) : Out :=
  match s.leaseReqs with
  | [] => .next s
  | r :: rest =>
    let s1 := { s with leaseReqs := rest }
    let ans (s : State) (x : Word) : State := fillPend s r.owner r.reg (.lease r.id) x
    if leasesOf s r.vf ≥ leaseMax s r.vf then .next (ans s1 0x8000000000000016)
    else match (List.range 16).find? fun e => (getEngine s e).lease.isNone with
      | none => .next (ans s1 0x8000000000000016)
      | some e =>
        let gen := (getEngine s e).gen + 1
        .next (ans { s1 with engines := mset s1.engines e ⟨gen, some (r.vf, s.refTimer + r.time), false⟩ } (handleOf e gen))

/-- An engine's lease ends: its collectives complete in error with LEASE, and it returns to the pool (R237). -/
def endLease (s : State) (e : Nat) : State :=
  match (getEngine s e).lease with
  | none => s
  | some (v, _) =>
    let h := handleOf e (getEngine s e).gen
    let mine := s.cmds.filter fun c => c.op == .coll && c.vf == v && !c.held && c.desc.getD 0 0 == h
    let s1 := mine.foldl (fun s c => collFail (leaveCmd s c.core c.id) c .lease 0 0) s
    { s1 with engines := mset s1.engines e { Engine.reset with gen := (getEngine s e).gen } }

/-- LEASE_EXPIRY: the reference timer reaches the end of a lease (R237, R282). -/
def execLeaseExpiry (eng : Nat) (s : State) : Out :=
  match (getEngine s eng).lease with
  | none => .next s
  | some (_, t) => .next (endLease { s with refTimer := max s.refTimer t } eng)

/-! ENGINE_TRANSLATION_FAULT. -/

/-- A collective meets a fault at translation: it parks, or completes in error (R97, R195). -/
def collMid (s : State) (c : Cmd) : State :=
  if !collNext s c then s
  else match collFault s c with
    | none => s
    | some e => if e.code = .notPresent then engPark s { c with st := .running } e else collFail s c e.code e.va e.acc

/-- ENGINE_TRANSLATION_FAULT: a running command meets a fault at translation and parks, completes in error, or abandons its group (R97, R195, R210, R228); a command held at dispatch with no fault waiter is checked again (R261, R441). -/
def execEngineTranslationFault (id : Nat) (s : State) : Out :=
  match getCmd s id with
  | none => .next s
  | some c =>
    if c.op = .coll ∧ c.st = .pageWait then
      .next (if (slotWith s c.core fun w => w.cmds.contains id).isSome then s else collAgain s c)
    else if c.op = .coll ∧ c.st ≠ .behind then .next (collMid s c)
    else if c.st = .running then .next (engFault s c)
    else if c.st = .behind then .next (release s c.owner)
    else .next s

end Sys2Proof.Machine
end

