-- ==== Sys2Proof/Machine/Waits.lean ====
section
/-! DEFINITION. The waits after issue: when each ends and what its end does (R17, R36, R98, R118, R119, R135, R358, R400, R402, R415). -/

namespace Sys2Proof.Machine

/-! FENCE (R135). -/

/-- Whether a place lies within the reach of a fence scope: the scratchpad of the core, the tile's scratchpads and buffers, the device. -/
def scopeHas (sc : Scope) (core : Nat) (l : Loc) : Bool :=
  let co := l.sp == .scr && l.a / 65536 == core
  let ti := (l.sp == .scr && tileOf (l.a / 65536) == tileOf core) || (l.sp == .tb && l.a / 2 ^ 21 == tileOf core)
  let dv := l.sp == .hbm || l.sp == .scr || l.sp == .tb
  match sc with
  | .sp => false | .co => co | .ti => co || ti | .dv | .sy => dv

/-- Whether a fence waits for a request of its spoke (R135). -/
def fenceWaits (sc : Scope) (core : Nat) (r : Req) : Bool :=
  !r.plain && (Req.isLoad r || r.accs.any (fun x => scopeHas sc core x.loc)
    || (sc == .sy && r.accs.any fun x => x.loc.sp == .host || x.loc.sp == .peer))

/-- Whether every access of a fence's set has been performed. -/
def fenceClear (s : State) (c n v : Nat) (sc : Scope) : Bool := (getSp s c n v).outst.all fun r => !fenceWaits sc c r

/-! Publish groups (R118, R119). -/

/-- Whether every command of a publish group has completed. -/
def pubDone (s : State) (g : Nat) : Bool :=
  !(s.cmds.any (·.pub == some g)) && !(s.tgrps.any (·.2.pub == some g))

/-- Publishes a group and returns its reservation (R119). -/
def pubClose (s : State) (c n v : Nat) : State :=
  match (getSp s c n v).pub with
  | none => s
  | some g =>
    let s1 := match getPub s g with | some p => publish s p.ovl | none => s
    modSp { s1 with pubs := s1.pubs.filter (·.1 != g) } c n v fun p => { p with pub := none }

/-- Whether every earlier command of a spoke that writes a tile buffer holds its panes (R118); one that still waits at dispatch does not. -/
def panesHeld (s : State) (o : Owner) : Bool :=
  s.cmds.all fun c => c.owner != o || match c.grp.bind (getTg s ·) with
    | some t => t.held || t.regions.isEmpty
    | none => !Cmd.writesTb c || c.st == .running || c.st == .parked || c.st == .done

/-- PGRP asks the pool for its panes and parks until they are granted (R118). -/
def pgrpAsk (s : State) (c n v k : Nat) : State :=
  modSp { s with paneReqs := s.paneReqs ++ [⟨tileOf c, v, k, .spoke c n v, none, none, some k⟩] } c n v fun p => { p with park := .panes }

/-! The end of a spoke (R36, R40, R100, R398). -/

/-- A spoke leaves each of its groups (R40). -/
def leaveGroups (s : State) (c n v : Nat) : State :=
  let p := getSp s c n v
  let s1 := setSp s c n v { p with gslots := Vector.replicate 4 GSlot.none }
  p.gslots.toList.foldl (fun s g => if g.valid then grpLeave s v p.ltag g.grp.toNat g.arrived else s) s1

/-- A lend entry at SPEND: pending becomes free, open becomes closed, and free when nothing relies on it (R90, R100). -/
def endLend (l : Lend) : Lend :=
  match l.st with
  | .pending => Lend.none
  | .opened | .closed => if l.count = 0 then Lend.none else { l with st := .closed }
  | .free => l

/-- Steps 2 to 4 of SPEND (R398). -/
def spendClose (s : State) (c n v : Nat) : State :=
  modSp (leaveGroups (pubClose s c n v) c n v) c n v fun p => { p with lends := p.lends.map endLend, drs := [] }

/-- Whether step 5 of SPEND ends. -/
def spendReady (s : State) (c n v : Nat) : Bool :=
  let o := Owner.spoke c n v
  !(s.cmds.any (·.owner == o)) && !(s.tgrps.any (·.2.owner == o)) && (getSp s c n v).lends.toList.all (·.st == .free)

/-- Step 6 of SPEND: the spoke is marked ended, its registers stand as they are until it is reaped (R398, R400); messages held for it are discarded (R30). -/
def spendEnd (s : State) (c n v : Nat) : State :=
  modSp (dropHeld (killOwner s (.spoke c n v)) c n v) c n v fun p =>
    { p with ctx := .ended, endKilled := false, endFault := false, stopReq := false, park := .none, owed := [] }

/-- The word SPREAP writes (R402). -/
def reapWord (p : Spoke) : Word :=
  BitVec.ofNat 64 ((if p.endFault then p.endCode else 0) + p.endKilled.toNat * 2 ^ 62 + p.endFault.toNat * 2 ^ 63)

/-- Forgets a population whose members are all reaped and whose packet is gone (R274): its launch tag is free again. -/
def dropPop (s : State) (v tag : Nat) : State :=
  match getPop s v tag with
  | none => s
  | some q =>
    if q.reaped ≥ q.size ∧ ¬ s.pkts.any (·.id == q.pkt) then
      { s with pops := mdel s.pops (popKey v tag), grps := s.grps.filter fun g => g.1 / 256 != popKey v tag }
    else s

/-- Frees an ended context and counts the member as reaped (R36, R400). -/
def reap (s : State) (c n v : Nat) : State :=
  let p := getSp s c n v
  let s1 := setSp s c n v Spoke.reset
  if p.ltag = 0 then s1
  else match getPop s1 v p.ltag with
    | some q => dropPop (setPop s1 { q with reaped := q.reaped + 1 }) v p.ltag
    | none => s1

/-! Leases (R237, R282, R415). -/

/-- Whether a COLL dispatched on a lease has not completed. -/
def collOn (s : State) (v eng : Nat) (gen : BitVec 32) : Bool :=
  s.cmds.any fun c => c.op == .coll && c.vf == v && !c.held
    && fieldN (c.desc.getD 0 0) 0 4 == eng && fieldN (c.desc.getD 0 0) 16 32 == gen.toNat

/-- An engine returns to the pool; its generation rises at the next grant (R237, R282). -/
def returnEngine (s : State) (eng : Nat) : State :=
  { s with engines := mset s.engines eng { Engine.reset with gen := (getEngine s eng).gen } }

/-! The inbox loop-back (R32, R358). -/

/-- The message that a header and value stand for. -/
def replayMsg (c v : Nat) (hdr val : Word) : Msg :=
  { id := 0, core := c, sp := fieldN hdr 0 4, reg := fieldN hdr 4 5, wake := bitN hdr 9, src := fieldN hdr 10 16
    ssp := fieldN hdr 26 4, vf := v, val := val, ltag := 0 }

/-- The loop-back port has a free inbox entry: one of the 60 that are not reserved (R29, R358). -/
def loopRoom (x : CoreCtx) : Bool := inboxRoom x ⟨0, 0, 1, 1, false, 0, 0, 0, 0, 0⟩

/-! Readiness and ends. -/

/-- Whether a wait after issue has come to its end. -/
def waitReady (s : State) (c n v : Nat) : Wait → Bool
  | .fence sc => fenceClear s c n v sc
  | .unlend i => (getSp s c n v).lends[i].st == .free
  | .publ => match (getSp s c n v).pub with | some g => pubDone s g | none => true
  | .spend => match (getSp s c n v).pub with | some g => pubDone s g | none => spendReady s c n v
  | .unlease eng gen => !leaseIs s v eng gen || !collOn s v eng gen
  | .spstop t => (getSp s c t v).ctx != .live
  | .spreap _ t => (getSp s c t v).ctx == .ended
  | .loopback _ _ => loopRoom (getCtx s c v)
  | .pgrpHold _ => panesHeld s (.spoke c n v)

/-- What the end of a wait does; the spoke returns to the rotation, or parks on the next thing it waits for. A message that a hub replays enters the inbox of the VF resident as the wait ends, be it another than as it began (DESIGN CHOICE, log 108: the spec is silent). -/
def waitDone (s : State) (c n v : Nat) (w : Wait) : State :=
  let s0 := modSp s c n v fun p => { p with park := .none }
  match w with
  | .fence _ | .unlend _ | .spstop _ => s0
  | .publ => pubClose s0 c n v
  | .spend =>
    let open' := (getSp s0 c n v).pub.isSome
    let s1 := if open' then spendClose s0 c n v else s0
    if spendReady s1 c n v then spendEnd s1 c n v else modSp s1 c n v fun p => { p with park := .wait .spend }
  | .unlease eng gen => if leaseIs s0 v eng gen then returnEngine s0 eng else s0
  | .spreap d t => modSp (reap s0 c t v) c n v fun p => p.wrG d (reapWord (getSp s0 c t v))
  | .loopback hdr val => inboxArrive s0 (replayMsg c v hdr val)
  | .pgrpHold k => pgrpAsk s0 c n v k

/-- Parks the issuing spoke on a wait, or ends the wait at once when it is already over (R20). -/
def waitOn (s : State) (w : Wait) : State :=
  let k := s.cur
  if waitReady s k.core k.sp k.vf w then waitDone s k.core k.sp k.vf w
  else modCur s fun p => { p with park := .wait w }

end Sys2Proof.Machine
end

