-- ==== Sys2Proof/Machine/Control.lean ====
section
/-! DEFINITION. Group 001, control (R333, R336, R349, R353, R368, R390, R398). -/

namespace Sys2Proof.Machine

/-- The sequential successor of the issuing instruction (R54): what a link register receives. -/
def linkPc (s : State) : Word := nextPc s.cur.pc

/-- A transfer to a register target: TARGET for a malformed PC (R57). -/
def goReg (s : State) (k : EntryKind) (target : Word) (f : State → State) : Ending :=
  if pcOk target then goTo s k target f else .err .target target 0

/-- BR (R333). -/
def execBr (t : BrTarget) (s : State) : Out := .next (issue (.br t) s fun u => goTo u .branch (brTarget u.cur.pc t) id)

/-- BC (R333). -/
def execBc (a : Src) (nz : Bool) (t : BrTarget) (s : State) : Out :=
  .next (issue (.bc a nz t) s fun u =>
    if (src u a != 0) == nz then goTo u .branch (brTarget u.cur.pc t) id else .done u)

/-- BRI (R333). -/
def execBri (a : Src) (s : State) : Out := .next (issue (.bri a) s fun u => goReg u .branch (src u a) id)

/-- CALL (R336). -/
def execCall (link : Fin 32) (t : BrTarget) (s : State) : Out :=
  .next (issue (.call link t) s fun u =>
    goTo u .branch (brTarget u.cur.pc t) fun x => modCur x fun p => p.wrG link (linkPc u))

/-- RET (R390). -/
def execRet (a : Src) (s : State) : Out := .next (issue (.ret a) s fun u => goReg u .branch (src u a) id)

/-- LOOP (R368). -/
def execLoop (c : Fin 32) (t : BrTarget) (s : State) : Out :=
  .next (issue (.loop c t) s fun u =>
    let x := (curSp u).rdG c
    if x = 0 then .done u
    else if x - 1 ≠ 0 then goTo u .branch (brTarget u.cur.pc t) fun y => modCur y fun p => p.wrG c (x - 1)
    else doneG u c (x - 1))

/-- What a DCALL does to a lend entry (R87, R349): a pending one of the caller opens to the callee, another pending one is freed. -/
def callLend (caller callee : BitVec 8) (l : Lend) : Lend :=
  if l.st ≠ .pending then l
  else if l.lender = caller then { l with st := .opened, lendee := callee } else Lend.none

/-- The entries that a DCALL opens, as the record's mask (R88, R349). -/
def callMask (caller : BitVec 8) (p : Spoke) : BitVec 8 :=
  BitVec.ofNat 8 ((List.finRange 8).map fun i =>
    ((p.lends[i]).st == .pending && (p.lends[i]).lender == caller).toNat * 2 ^ i.val).sum

/-- The end of a DCALL once its transfer has been made (R349). -/
def dcallEnd (caller : BitVec 8) (ret : Word) (link : Fin 32) (p : Spoke) : Spoke :=
  (p.wrG link ret |> fun q =>
    { q with lends := q.lends.map (callLend caller q.dom), drs := q.drs ++ [⟨caller, ret, callMask caller q, false⟩] })

/-- DCALL to a target (R349). -/
def dcallTo (u : State) (link : Fin 32) (target : Word) (chk : Bool) : Ending :=
  if (curSp u).drs.length ≥ 16 then .fail .drsOverflow
  else if chk ∧ ¬ pcOk target then .err .target target 0
  else goTo u .dcall target fun x => modCur x (dcallEnd (curSp u).dom (linkPc u) link)

/-- DCALL to a label (R349). -/
def execDcallLabel (link : Fin 32) (t : BrTarget) (s : State) : Out :=
  .next (issue (.dcallLabel link t) s fun u => dcallTo u link (brTarget u.cur.pc t) false)

/-- DCALL to a register's PC (R349). -/
def execDcallReg (link : Fin 32) (a : Src) (s : State) : Out :=
  .next (issue (.dcallReg link a) s fun u => dcallTo u link (src u a) true)

/-- What a DRET does to lend entry `i` (R89, R353). -/
def retLend (e : DRec) (dom : BitVec 8) (i : Fin 8) (l : Lend) : Lend :=
  if bitN e.lends i.val then if l.count > 0 then { l with st := .closed } else Lend.none
  else if l.st = .pending ∧ l.lender = dom then Lend.none else l

/-- The end of a DRET once its transfer has been made (R353). -/
def dretEnd (e : DRec) (dom : BitVec 8) (p : Spoke) : Spoke :=
  { p with drs := p.drs.dropLast, lends := Vector.ofFn fun i : Fin 8 => retLend e dom i p.lends[i] }

/-- DRET (R353). -/
def execDret (s : State) : Out :=
  .next (issue .dret s fun u =>
    let p := curSp u
    match p.drs.getLast? with
    | none => .fail .drsOverflow
    | some e =>
      if e.trap then .fail .illegalField
      else goTo u .dret e.ret fun x => modCur x (dretEnd e p.dom))

/-- SPEND (R398): the window is sealed before it (R199); the rest follows when an open publish group has published. -/
def execSpend (s : State) : Out :=
  .next (issue .spend s fun u =>
    let k := u.cur
    if k.sp = 0 then .fail .illegalField
    else
      let s1 := if (curSp u).pub.isNone then spendClose u k.core k.sp k.vf else u
      .went (waitOn s1 .spend))

end Sys2Proof.Machine
end

