-- ==== Sys2Proof/Machine/Mem.lean ====
section
/-! DEFINITION. Group 010, scalar memory (R25, R26, R361 to R363, R403, R404, R354), atomics (R325 to R328), fences and publish groups (R118, R119, R135), ROINV (R113), and the arrival of replies and lines (R22, R59). -/

namespace Sys2Proof.Machine

/-! Checks of a scalar access. -/

/-- Checks 1 and 2 of R126 for a scalar access of `n` bytes: the path field, the paths the form admits, the size on the state window, alignment. -/
def scalarPre (va : Word) (n acc : Nat) (paths : List Nat) : Option FErr :=
  if pathBad va ∨ ¬ paths.contains (pathOf va) then some (errAt .path va acc)
  else if pathOf va = 5 ∧ n ≠ 8 then some (errAt .illegalField va acc)
  else if va.toNat % n ≠ 0 then some (errAt .align va acc)
  else none

/-- Checks 1 to 7 of R126 for a scalar access of the issuing spoke. -/
def scalar (t : State) (va : Word) (n : Nat) (w : Bool) (acc : Nat) (paths : List Nat) : Except FErr Res :=
  match scalarPre va n acc paths with
  | some e => .error e
  | none => mapped t t.cur.core t.cur.vf (curSp t).dom (curSp t).lends.toList va n w acc fun _ => true

/-- A scalar access with the host's page request after its checks (R267). -/
def scalarAts (t : State) (va : Word) (n : Nat) (w : Bool) (acc : Nat) (paths : List Nat) : Except FErr Res :=
  match scalar t va n w acc paths with
  | .error e => .error e
  | .ok r => match atsCheck t t.cur.vf va acc r.loc with | .error e => .error e | .ok _ => .ok r

/-- Holds what an access used in the caches of the issuing spoke's VF. -/
def noteAcc (t : State) (va : Word) (r : Res) : State := noteRes t t.cur.vf (curSp t).dom va r

/-- Whether a place is host or peer memory, whose writes are posted and whose loads and atomics park (R143, R144). -/
def Loc.far (l : Loc) : Bool := l.sp == .host || l.sp == .peer

/-- The registers that an access with a destination empties: its consuming sources, and the destination if it is full as the access issues. -/
def eatenWith (t : State) (us : List Use) (d : Reg) : List Reg :=
  if (curSp t).fullR d then d :: eatenBy us else eatenBy us

/-- Issues a request of the issuing spoke. -/
def addReq (t : State) (kind : ReqKind) (n : Nat) (accs : List LaneAcc) (plain posted : Bool) (eaten : List Reg) (va : Word) : State :=
  let r : Req := { id := t.nextId, kind := kind, n := n, accs := accs, got := [], plain := plain, posted := posted
                   eaten := eaten, pc := t.cur.pc, rpc := t.cur.succ, va := va }
  modCur (bump t) fun p => { p with outst := p.outst ++ [r] }

/-- The earlier relaxed accesses of the issuing spoke to the bytes of a bank operation are performed before it (R130 item 2). -/
def flushAt (t : State) (l : Loc) (n : Nat) : State := flushMeets t (curOwner t) (fun _ => true) l n

/-- Parks the issuing spoke at a bank. -/
def bankPark (t : State) (l : Loc) (w : BankWait) : State :=
  let s1 := { t with waiters := t.waiters ++ [⟨l, curOwner t, w⟩] }
  modCur s1 fun p => { p with park := .bank }

/-! Loads. -/

/-- Read of a state register through the state window (R111). -/
def windowRead (t : State) (k : Nat) (d : Fin 32) (va : Word) : Ending :=
  let c := t.cur
  match rdsDenied t c.vf k (curSp t).dom with
  | some f => .err f va 1
  | none => let x := rdsValue t c.core c.sp c.vf k; doneG x.2 d x.1

/-- A plain or relaxed load (R361 to R363). -/
def loadEnd (t : State) (rlx : Bool) (us : List Use) (d : Fin 32) (va : Word) (n : Nat) (sx : Bool) : Ending :=
  match scalarAts t va n false 1 [0, 1, 3, 5] with
  | .error e => Ending.ofErr e
  | .ok r =>
    let t1 := noteAcc t va r
    if r.loc.sp = .stw then windowRead t1 (r.loc.a / 8) d va
    else
      let plain := !rlx || r.loc.far
      let t2 := addReq t1 (.load d sx) n [⟨0, r.loc, 0, pathOf va == 1⟩] plain false (eatenWith t us (.g d)) va
      if plain then .done t2 else doneP t2 fun p => p.owe d (.load t1.nextId)

/-- LD and RLX LD (R361). -/
def execLd (rlx : Bool) (d : Fin 32) (a : Src) (sz : Size) (sx : Bool) (disp : BitVec 48) (s : State) : Out :=
  .next (issue (.ld rlx d a sz sx disp) s fun t => loadEnd t rlx [gu a] d (src t a + imm64 disp) (sizeBytes sz) sx)

/-- LD.F and LD.S at the bank (R25, R26): the data, or a park until a fill. -/
def presenceLoad (t : State) (d : Fin 32) (va : Word) (takes : Bool) : Ending :=
  match scalarAts t va 8 false 1 [3] with
  | .error e => Ending.ofErr e
  | .ok r =>
    let t1 := flushAt (noteAcc t va r) r.loc 8
    if present t1 r.loc.a then
      doneG (if takes then setPresent t1 r.loc.a false else t1) d (BitVec.ofNat 64 (rdN t1 r.loc 8))
    else .done (bankPark t1 r.loc (if takes then .ldS d else .ldF d))

/-- LD.F (R25). -/
def execLdF (d : Fin 32) (a : Src) (disp : BitVec 48) (s : State) : Out :=
  .next (issue (.ldF d a disp) s fun t => presenceLoad t d (src t a + imm64 disp) false)

/-- LD.S (R25). -/
def execLdS (d : Fin 32) (a : Src) (disp : BitVec 48) (s : State) : Out :=
  .next (issue (.ldS d a disp) s fun t => presenceLoad t d (src t a + imm64 disp) true)

/-! Stores. -/

/-- A plain or relaxed store (R403, R404). -/
def storeEnd (t : State) (rlx : Bool) (us : List Use) (va x : Word) (n : Nat) : Ending :=
  match scalarAts t va n true 2 [0, 3, 5] with
  | .error e => Ending.ofErr e
  | .ok r =>
    let t1 := noteAcc t va r
    if r.loc.sp = .stw then
      match wrsState t1 t.cur.core t.cur.sp t.cur.vf (r.loc.a / 8) x with
      | .error f => .err f va 2
      | .ok t2 => .done t2
    else .done (addReq t1 .store n [⟨0, r.loc, x.toNat % 2 ^ (8 * n), false⟩] (!rlx && !r.loc.far) r.loc.far (eatenBy us) va)

/-- ST and RLX ST (R403). -/
def execSt (rlx : Bool) (a b : Src) (sz : Size) (disp : BitVec 48) (s : State) : Out :=
  .next (issue (.st rlx a b sz disp) s fun t => storeEnd t rlx [gu a, gu b] (src t a + imm64 disp) (src t b) (sizeBytes sz))

/-- ST.F (R25, R26). -/
def execStF (a b : Src) (disp : BitVec 48) (s : State) : Out :=
  .next (issue (.stF a b disp) s fun t =>
    let va := src t a + imm64 disp
    match scalarAts t va 8 true 2 [3] with
    | .error e => Ending.ofErr e
    | .ok r => .done (storeF (flushAt (noteAcc t va r) r.loc 8) r.loc.a (src t b).toNat))

/-- EMPTY (R354). -/
def execEmpty (a : Src) (disp : BitVec 48) (s : State) : Out :=
  .next (issue (.empty a disp) s fun t =>
    let va := src t a + imm64 disp
    match scalarAts t va 8 true 2 [3] with
    | .error e => Ending.ofErr e
    | .ok r => .done (setPresent (flushAt (noteAcc t va r) r.loc 8) r.loc.a false))

/-! Atomics. -/

/-- Whether an atomic is one that PCIe offers (R284). -/
def hostAtomic (op : AtOp) (n : Nat) : Bool :=
  (op == .add || op == .swp || op == .cas) && (n == 4 || n == 8)

/-- An atomic up to its issue, in the order of R328. -/
def atomicEnd (t : State) (rlx : Bool) (us : List Use) (op : AtOp) (d : Fin 32) (va : Word) (n : Nat) (b c : Word) : Ending :=
  match scalar t va n true 3 [0, 3] with
  | .error e => Ending.ofErr e
  | .ok r =>
    if r.loc.sp = .host ∧ ¬ (feature t t.cur.vf 0 ∧ hostAtomic op n) then .err .hostAtomicUr va 3
    else match atsCheck t t.cur.vf va 3 r.loc with
      | .error e => Ending.ofErr e
      | .ok _ =>
        let t1 := noteAcc t va r
        let plain := !rlx || r.loc.far
        let m := 2 ^ (8 * n)
        let t2 := addReq t1 (.atomic op d (b.toNat % m) (c.toNat % m)) n [⟨0, r.loc, 0, false⟩] plain false (eatenWith t us (.g d)) va
        if plain then .done t2 else doneP t2 fun p => p.owe d (.load t1.nextId)

/-- AADD (R325). -/
def execAadd (rlx : Bool) (d : Fin 32) (a b : Src) (sz : Size) (disp : BitVec 48) (s : State) : Out :=
  .next (issue (.aadd rlx d a b sz disp) s fun t => atomicEnd t rlx [gu a, gu b] .add d (src t a + imm64 disp) (sizeBytes sz) (src t b) 0)

/-- AAND (R325). -/
def execAand (rlx : Bool) (d : Fin 32) (a b : Src) (sz : Size) (disp : BitVec 48) (s : State) : Out :=
  .next (issue (.aand rlx d a b sz disp) s fun t => atomicEnd t rlx [gu a, gu b] .band d (src t a + imm64 disp) (sizeBytes sz) (src t b) 0)

/-- AOR (R325). -/
def execAor (rlx : Bool) (d : Fin 32) (a b : Src) (sz : Size) (disp : BitVec 48) (s : State) : Out :=
  .next (issue (.aor rlx d a b sz disp) s fun t => atomicEnd t rlx [gu a, gu b] .bor d (src t a + imm64 disp) (sizeBytes sz) (src t b) 0)

/-- AXOR (R325). -/
def execAxor (rlx : Bool) (d : Fin 32) (a b : Src) (sz : Size) (disp : BitVec 48) (s : State) : Out :=
  .next (issue (.axor rlx d a b sz disp) s fun t => atomicEnd t rlx [gu a, gu b] .bxor d (src t a + imm64 disp) (sizeBytes sz) (src t b) 0)

/-- AMIN (R325). -/
def execAmin (rlx u : Bool) (d : Fin 32) (a b : Src) (sz : Size) (disp : BitVec 48) (s : State) : Out :=
  .next (issue (.amin rlx u d a b sz disp) s fun t => atomicEnd t rlx [gu a, gu b] (.min u) d (src t a + imm64 disp) (sizeBytes sz) (src t b) 0)

/-- AMAX (R325). -/
def execAmax (rlx u : Bool) (d : Fin 32) (a b : Src) (sz : Size) (disp : BitVec 48) (s : State) : Out :=
  .next (issue (.amax rlx u d a b sz disp) s fun t => atomicEnd t rlx [gu a, gu b] (.max u) d (src t a + imm64 disp) (sizeBytes sz) (src t b) 0)

/-- ASWP (R325). -/
def execAswp (rlx : Bool) (d : Fin 32) (a b : Src) (sz : Size) (disp : BitVec 48) (s : State) : Out :=
  .next (issue (.aswp rlx d a b sz disp) s fun t => atomicEnd t rlx [gu a, gu b] .swp d (src t a + imm64 disp) (sizeBytes sz) (src t b) 0)

/-- ACAS (R325). -/
def execAcas (rlx : Bool) (d : Fin 32) (a b c : Src) (sz : Size) (disp : BitVec 48) (s : State) : Out :=
  .next (issue (.acas rlx d a b c sz disp) s fun t =>
    atomicEnd t rlx [gu a, gu b, gu c] .cas d (src t a + imm64 disp) (sizeBytes sz) (src t b) (src t c))

/-! Fences, publish groups, invalidation. -/

/-- FENCE (R135, R355). -/
def execFence (sc : Scope) (s : State) : Out := .next (issue (.fence sc) s fun t => .done (waitOn t (.fence sc)))

/-- PGRP (R118). -/
def execPgrp (n : BitVec 4) (s : State) : Out :=
  .next (issue (.pgrp n) s fun t =>
    if n.toNat > paneShare t (tileOf t.cur.core) t.cur.vf ∨ (curSp t).pub.isSome then .fail .illegalField
    else .done (waitOn t (.pgrpHold n.toNat)))

/-- PUBL (R119). -/
def execPubl (s : State) : Out :=
  .next (issue .publ s fun t => if (curSp t).pub.isNone then .fail .illegalField else .done (waitOn t .publ))

/-- Applies a function to every spoke of a core, of whatever VF. -/
def mapCore (s : State) (c : Nat) (f : Spoke → Spoke) : State :=
  let onCtx (x : CoreCtx) : CoreCtx := { x with spokes := x.spokes.map fun p => (p.1, f p.2) }
  { s with
    cores := s.cores.map fun p => if p.1 = c then (p.1, { p.2 with hub := f p.2.hub, ctx := onCtx p.2.ctx }) else p
    saved := s.saved.map fun p => if p.1 % 65536 = c then (p.1, onCtx p.2) else p }

/-- Marks a line buffer that a test names stale (R60). -/
def staleLine (p : LineBuf → Bool) (q : Spoke) : Spoke := if p q.line then { q with line := { q.line with stale := true } } else q

/-- The same of a line that has been read ahead (R60). -/
def staleAhead (p : LineBuf → Bool) (q : Spoke) : Spoke :=
  { q with ahead := q.ahead.map fun a => { a with stale := a.stale || (match a.line with | some l => p (a.buf l) | none => false) } }

/-- Marks stale the line buffers of a tile that a test on their place names (R60). -/
def staleTile (s : State) (t : Nat) (p : LineBuf → Bool) : State :=
  (List.range 16).foldl (fun s i => mapCore s (16 * t + i) fun q => staleLine p (staleAhead p q)) s

/-- The bytes of the general-path memories that a VA range reaches, page by page, as places and lengths; pages that do not translate are skipped (R113). -/
def rangePlaces (s : State) (v core : Nat) (lo n : Nat) : List (Loc × Nat) :=
  (pageParts lo n).filterMap fun part =>
    let va := BitVec.ofNat 64 part.1
    match transl s v (part.1 % 2 ^ 57) with
    | .leaf e bits => if ttGeneral (pteTT e) then (partition s v e (placeOf core va e bits)).map fun l => (l, part.2) else none
    | _ => none

/-- Whether the 64-byte line numbered `a` of a memory holds a byte of one of the places. -/
def lineIn (ps : List (Loc × Nat)) (sp : Space) (a : Nat) : Bool :=
  ps.any fun p => p.1.sp == sp && decide (a * 64 < p.1.a + p.2) && decide (p.1.a < a * 64 + 64)

/-- What ROINV removes (R113): lines of the tile's read cache, and the freshness of line buffers. -/
def roDrop (s : State) (t : Nat) (all : Bool) (ps : List (Loc × Nat)) : State :=
  staleTile (rdrop s t fun r => all || lineIn ps r.sp r.a) t fun b => all || lineIn ps .hbm (b.pa / 64)

/-- ROINV (R113, R391). -/
def execRoinv (a n : Src) (s : State) : Out :=
  .next (issue (.roinv a n) s fun t =>
    let va := src t a
    let k := (src t n).toNat
    let t0 := tileOf t.cur.core
    if k = 0 then .done (roDrop t t0 true [])
    else if k > 2 ^ 32 then .fail .illegalField
    else if pathOf va > 1 ∨ fieldN va 57 4 ≠ 0 ∨ va.toNat + k - 1 ≥ 2 ^ 64 ∨ (va.toNat + k - 1) / 2 ^ 57 ≠ va.toNat / 2 ^ 57 then
      .err .path va 0
    else .done (roDrop t t0 false (rangePlaces t t.cur.vf t.cur.core va.toNat k)))

/-! Replies and lines. -/

/-- The destination of a failed access waits for nothing any more. -/
def unPend (p : Spoke) (r : Req) : Spoke :=
  match r.kind with
  | .load d _ | .atomic _ d _ _ => if d ≠ 0 ∧ p.pendG d = .load r.id then { p with g := p.g.set d { p.g[d] with pend := .no } } else p
  | .vload d => if p.v[d].pend = .load r.id then { p with v := p.v.set d { p.v[d] with pend := .no } } else p
  | _ => p

/-- A register that an access had emptied is full again with its value, unless it has been filled or made pending since. -/
def refill (p : Spoke) : Reg → Spoke
  | .g d => if !p.fullG d && p.pendG d == .no then { p with g := p.g.set d { p.g[d] with full := true } } else p
  | .v d => if !p.v[d].full && p.v[d].pend == .no then { p with v := p.v.set d { p.v[d] with full := true } } else p

/-- The registers of a failed access are as they were before it issued (R264, log 43). -/
def unOwe (p : Spoke) (r : Req) : Spoke := r.eaten.foldl refill (unPend p r)

/-- ACC of a request (R262). -/
def Req.acc (r : Req) : Nat := match r.kind with | .atomic .. => 3 | .store | .vstore => 2 | _ => 1

/-- The fault of a reply, where it can be one for the request (R259, R267, R284, R285). -/
def replyFault (r : Req) : ReplyStatus → Option FaultCode
  | .ok => none
  | .unsupported => match r.kind with
    | .atomic .. => if r.accs.any (·.loc.sp == .host) then some .hostAtomicUr else none
    | _ => none
  | .denied => if r.accs.any (·.loc.sp == .host) then some .hostDenied else none
  | .lost => if r.accs.any (·.loc.sp == .peer) then some .segment else none
  | .soft => some .softError
  | .lane _ => none

/-- What a reply that reports no fault does: the request is performed, or one lane of it (R128, R432). -/
def replyDone (s : State) (o : Owner) (r : Req) : ReplyStatus → State
  | .ok => performInOrder s o r
  | .lane k => performLane s o r k
  | _ => s

/-- MEMORY_REPLY: request `idx` of a spoke is performed and answered, after the earlier ones that touch its bytes, or one lane of it is performed; a reply that reports a fault, or that of a peer whose binding has ended, has no effect but its trap (R22, R128, R130, R134, R143, R264, R284, R285). Spoke numbers from 16 on name the stores and atomics of ended spokes (R143, R320). -/
def execMemoryReply (core sp idx : Nat) (st : ReplyStatus) (s : State) : Out :=
  let v := vfOf s core
  if sp ≥ 16 then .next (performOrphan s idx)
  else match (getSp s core sp v).outst[idx]? with
  | none => .next s
  | some r =>
    match (if reqCut s v r then some .segment else replyFault r st) with
    | none => .next (tryStop (replyDone s (.spoke core sp v) r st) core sp v)
    | some f =>
      let s1 := modSp s core sp v fun p => unOwe (dropReq p r.id) r
      let s2 := if f = .softError then countLife s1 3 0 0 else s1
      .next (tryStop (trapOrOwe s2 core sp v ⟨f, r.pc, r.rpc, r.va, 0, Req.acc r⟩) core sp v)

/-- LINE_ARRIVAL: the line that a spoke waits for arrives, with the transient errors of the two copies read; it is entered, kept for the spoke that has asked for it ahead, or serves the transfer that issues again (R57, R59, R60, R62, R63). A transfer whose line fails with LINE_PARITY faults; as the second of a pair it does so behind the first (R67). -/
def execLineArrival (core sp : Nat) (err1 err2 : Line) (s : State) : Out :=
  let v := vfOf s core
  let p := getSp s core sp v
  match p.park with
  | .line =>
    match p.want with
    | some k => .next (tryStop (enterWanted s core sp v k err1 err2) core sp v)
    | none => .next (modSp s core sp v fun q => { q with park := .none })
  | .fetch target =>
    let s0 := modSp s core sp v fun q => { q with park := .none }
    match fetchLine s core v target with
    | .error _ => .next (tryStop s0 core sp v)
    | .ok r =>
      match getLine (noteFetch s0 v target r) core v r.loc err1 err2 with
      | (s1, some _) => .next (tryStop s1 core sp v)
      | (s1, none) =>
        let t : Owed := ⟨.lineParity, p.pc, nextPc p.pc, target, 0, 0⟩
        .next (tryStop (if p.second then trapOrOwe (modSp s1 core sp v fun q => pointAt q (nextPc p.pc) .seq) core sp v t
          else deliverTrap s1 core sp v t) core sp v)
  | _ => match p.ahead with
    | some a => if a.line.isNone && a.err.isNone then .next (readAhead s core sp v a err1 err2) else .next s
    | none => .next s
end Sys2Proof.Machine
end

