-- ==== Sys2Proof/Machine/Mesh.lean ====
section
/-! DEFINITION. Messages and inboxes (R27 to R34, R263, R280): WAKE, IBPOP, IBREPLAY and the events of the mesh. -/

namespace Sys2Proof.Machine

/-! WAKE (R263, R437). -/

/-- The core of a token (R260). -/
def tokCore (t : Word) : Nat := fieldN t 0 16

/-- The generation of a token (R260). -/
def tokGen (t : Word) : BitVec 32 := BitVec.ofNat 32 (fieldN t 22 32)

/-- Whether a token is malformed (R263 check 1). -/
def tokBad (t : Word) : Bool := fieldN t 54 10 != 0 || decide (tokCore t > 6143)

/-- A wake message (R32, R263). -/
def wakeMsg (tok : Word) (src ssp vf : Nat) : Msg := ⟨0, tokCore tok, 0, 0, true, src, ssp, vf, tok, 0⟩

/-- WAKE (R263, R437). -/
def execWake (a : Src) (s : State) : Out :=
  .next (issue (.wake a) s fun t =>
    let k := t.cur
    let tok := src t a
    let p := curSp t
    if tokBad tok then .fail .illegalField
    else match (if p.dom = kernelDom then none else srwrDenied t k.vf p.dom 11) with
      | some f => .fail f
      | none =>
        if ¬ isSvc t k.core ∧ ¬ inPart t k.vf (tokCore tok) ∧ ¬ isSvc t (tokCore tok) then .fail .domainWrite
        else .done (sendMsg t (wakeMsg tok k.core k.sp (if isSvc t k.core then 0 else k.vf))))

/-- Releases a spoke from its fault waiter: it issues its instruction again (R43, R263). -/
def wakeOwner (i : Nat) (s : State) (o : Owner) : State :=
  modOwner s o fun p => if p.park = .fault i then { p with park := .none } else p

/-- Resumes a command from its fault waiter (R195, R228, R441): one that has started runs on, one held at dispatch is checked again from the start. -/
def wakeCmd (s : State) (id : Nat) : State :=
  match getCmd s id with
  | none => s
  | some c =>
    match c.st with
    | .parked => setCmd (noteOpnds s c) { c with st := .running }
    | .pageWait => if c.op = .coll then collAgain s c else release (setCmd s { c with st := .behind }) c.owner
    | _ => s

/-- Releases all that a slot holds and frees it (R263). -/
def wakeSlot (s : State) (core i : Nat) : State :=
  match (getSlot s core i).w with
  | none => s
  | some w => w.cmds.foldl wakeCmd (w.owners.foldl (wakeOwner i) (freeSlot s core i))

/-- Counts a stale wake at a core (R263). -/
def countStale (s : State) (core : Nat) : State := modCore s core fun co => { co with stale := co.stale + 1 }

/-- Whether a waiter of a spilled spoke holds a slot: its WAKE is delivered after the fill (R402). -/
def hasImage (w : Waiter) : Bool := w.owners.any fun o => match o with | .image _ => true | _ => false

/-- Whether a WAKE names a fault waiter that stands: its generation, and the VF that it is for (R263). -/
def wakeIs (s : State) (core : Nat) (tok : Word) (vf : Nat) : Bool :=
  let ws := getSlot s core (tokSlot tok)
  ws.gen == tokGen tok && ws.w.any fun w => vf == 0 || w.vf == vf % 64

/-- Acts on a delivered WAKE: `vf` 0 comes from a service core and serves any VF, 64 from the PF's wake register (R263). -/
def wakeAct (s : State) (core : Nat) (tok : Word) (vf : Nat) : State :=
  if wakeIs s core tok vf then wakeSlot s core (tokSlot tok) else countStale s core

/-! IBPOP and IBREPLAY (R32, R358). -/

/-- The check that both instructions share: the hub spoke in the kernel domain (R33). -/
def hubOnly (t : State) : Bool := t.cur.sp == 0 && (curSp t).dom == kernelDom

/-- Every held message whose register is empty and not pending reaches it, in arrival order (R29). -/
def deliverHeld (s : State) (c v : Nat) : State :=
  (getCtx s c v).inbox.foldl (fun s m =>
    if canDeliver s v m then deliver (modCtx s c v fun x => { x with inbox := x.inbox.erase m }) v m else s) s

/-- IBPOP (R32, R358): a message that can be delivered is delivered and not popped. -/
def execIbpop (h v : Fin 32) (s : State) : Out :=
  .next (issue (.ibpop h v) s fun t =>
    if !hubOnly t then .fail .stateRight
    else
      let t1 := deliverHeld t t.cur.core t.cur.vf
      let x := getCtx t1 t.cur.core t.cur.vf
      match x.inbox with
      | [] => doneP t1 fun p => (p.wrG h (BitVec.allOnes 64)).wrG v 0
      | m :: r => doneP (setCtx t1 t.cur.core t.cur.vf { x with inbox := r }) fun p => (p.wrG h m.header).wrG v m.val)

/-- IBREPLAY (R32, R358). -/
def execIbreplay (a b : Src) (s : State) : Out :=
  .next (issue (.ibreplay a b) s fun t =>
    let h := src t a
    if !hubOnly t then .fail .stateRight
    else if fieldN h 30 34 ≠ 0 ∨ (fieldN h 0 4 = 0 ∧ bitN h 9) then .fail .illegalField
    else .done (waitOn t (.loopback h (src t b))))

/-! Events of the mesh. -/

/-- Whether two messages go from one spoke to one target spoke (R28). -/
def sameLane (x m : Msg) : Bool := x.src == m.src && x.ssp == m.ssp && x.core == m.core && x.sp == m.sp && x.wake == m.wake

/-- A list without its entry `i`. -/
def dropAt {α : Type} (l : List α) (i : Nat) : List α := l.take i ++ l.drop (i + 1)

/-- INBOX_MESSAGE_ARRIVAL: a message in the mesh reaches its core, after the earlier ones of its sender to its target (R28 to R30). -/
def execInboxMessageArrival (idx : Nat) (s : State) : Out :=
  match s.mesh[idx]? with
  | none => .next s
  | some m =>
    if (s.mesh.take idx).any (sameLane m) then .next s
    else .next (inboxArrive { s with mesh := dropAt s.mesh idx } m)

/-- INBOX_HELD_DELIVERY: a held message is delivered once its register is empty and not pending, the oldest for that register first (R29). -/
def execInboxHeldDelivery (core vf idx : Nat) (s : State) : Out :=
  let x := getCtx s core vf
  match x.inbox[idx]? with
  | none => .next s
  | some m =>
    if canDeliver s vf m && !(x.inbox.take idx).any (fun k => !k.wake && k.sp == m.sp && k.reg == m.reg) then
      .next (deliver (setCtx s core vf { x with inbox := dropAt x.inbox idx }) vf m)
    else .next s

/-- MESH_MESSAGE_ACCEPT: the port of a core accepts a message that waited for an inbox entry (R31, R43). -/
def execMeshMessageAccept (core vf idx : Nat) (s : State) : Out :=
  let x := getCtx s core vf
  match x.port[idx]? with
  | none => .next s
  | some m =>
    let s1 := setCtx s core vf { x with port := dropAt x.port idx }
    if (x.port.take idx).any (sameLane m) then .next s
    else if msgLost s m then .next (dropMsgs s1 core 1)
    else if inboxRoom x m then .next (inboxTake s1 core vf m)
    else .next s

/-- WAKE_DELIVERY: a held wake message acts on its slot or is counted as stale (R263, R273). -/
def execWakeDelivery (core vf idx : Nat) (s : State) : Out :=
  let x := getCtx s core vf
  match x.inbox[idx]? with
  | none => .next s
  | some m =>
    let waits := wakeIs s core m.val m.vf && (match (getSlot s core (tokSlot m.val)).w with | some w => hasImage w | none => false)
    if !m.wake || waits then .next s
    else .next (wakeAct (setCtx s core vf { x with inbox := dropAt x.inbox idx }) core m.val m.vf)

/-! Load exchange (R34). -/

/-- The tiles adjacent to a tile in the mesh of its die. -/
def dieNeighbours (t : Nat) : List Nat :=
  let r := t % 64 / 8
  let c := t % 8
  (if r = 0 then [] else [t - 8]) ++ (if c = 0 then [] else [t - 1]) ++ (if c = 7 then [] else [t + 1])
    ++ (if r = 7 then [] else [t + 8])

/-- The neighbours of a hub in ascending tile order: the cores of the same index on the adjacent tiles that belong to the same VF, service cores left out (R34, R256). -/
def hubNeighbours (s : State) (core : Nat) : List Nat :=
  let t := tileOf core
  let ts := (dieNeighbours t ++ (Config.bridges t).filter (· < Config.numTiles)).dedup.mergeSort (· ≤ ·)
  (ts.map fun u => 16 * u + core % 16).filter fun c => inPart s (vfOf s core) c && c != core

/-- The `n` members with the highest population indices of a hub queue; of members with the same index and different launch tags, the one that stands earlier in the queue goes first (DESIGN CHOICE, log 85: R34 orders by the index alone). -/
def topOf (q : List (Nat × Nat)) (n : Nat) : List (Nat × Nat) := (q.mergeSort fun a b => a.1 ≥ b.1).take n

/-- One transfer of an exchange: only members whose AFF holds the receiving tile move (R34, R256). -/
def hubMove (core : Nat) (s : State) (nb : Nat) : State :=
  let v := vfOf s core
  let q := (getCtx s core v).hubq
  let m := (getCtx s nb v).hubq
  let may (x : Nat × Nat) : Bool := match getPop s v x.2 with | some p => bitsN p.aff (tileOf nb) 1 == 1 | none => false
  if q.length > m.length + 2 then
    let x := topOf (q.filter may) ((q.length - m.length) / 2)
    modCtx (modCtx s core v fun y => { y with hubq := y.hubq.filter fun e => !x.contains e }) nb v fun y =>
      { y with hubq := y.hubq ++ x }
  else s

/-- HUB_LOAD_EXCHANGE: a hub moves queued members to its neighbours (R34). -/
def execHubLoadExchange (core : Nat) (s : State) : Out :=
  if isSvc s core then .next s else .next ((hubNeighbours s core).foldl (hubMove core) s)

end Sys2Proof.Machine
end

