-- ==== Sys2Proof/Machine/SpokeControl.lean ====
section
/-! DEFINITION. Spoke control (R33, R48 to R50, R399 to R402): SPSTART, SPSTOP, SPRESUME, SPKILL, SPREAP, SPSPILL, SPFILL. -/

namespace Sys2Proof.Machine

/-- The checks that the seven share, in their order; `ok` says which states of the target are permitted (R399, R400). -/
def ctlTarget (t : State) (h : Word) (ok : Ctx → Bool) : Except FaultCode Nat :=
  let n := fieldN h 16 4
  if !hubOnly t then .error .stateRight
  else if fieldN h 20 44 ≠ 0 ∨ fieldN h 0 16 ≠ t.cur.core ∨ n = 0 then .error .illegalField
  else if ok (getSp t t.cur.core n t.cur.vf).ctx then .ok n else .error .illegalField

/-- Every state but free. -/
def notFree (c : Ctx) : Bool := c != .free

/-! The resident spokes of a VF (R255, R256, R278). -/

/-- MAXRES of a VF (R255, R278). -/
def maxRes (s : State) (v : Nat) : Nat := fieldN (getFn s v).ctlAct.sched 16 17

/-- The spokes of a VF that are resident on a core. -/
def heldOn (s : State) (c v : Nat) (f : Spoke → Bool) : Nat :=
  ((List.range 15).filter fun i => let p := getSp s c (i + 1) v; p.ctx != .free && f p).length

/-- Resident spokes of a VF. -/
def resident (s : State) (v : Nat) : Nat := ((coresOf s v).map fun c => heldOn s c v fun _ => true).sum

/-- Members that wait in the hub queues of a VF's cores. -/
def waiting (s : State) (v : Nat) : Nat := ((coresOf s v).map fun c => (getCtx s c v).hubq.length).sum

/-- Whether a VF may hold one more resident spoke (R256); the limit is a VF's, so function 0 has none. -/
def roomFor (s : State) (v : Nat) : Bool := v == 0 || decide (resident s v < maxRes s v)

/-- What makes a context of the issuing hub's VF resident: a hub whose VF holds MAXRES spokes waits for one to free (R256; DESIGN CHOICE, log 88). -/
def withRoom (t : State) (e : Ending) : Ending := if roomFor t t.cur.vf then e else .held .room

/-! SPSTART (R401). -/

/-- The start record of a spoke: seeds, stack pointer, group slots, launch tag. -/
structure StartRec where
  seeds : List Word
  sp : Word
  grp : Nat
  valid : Nat
  tperm : BitVec 2
  tag : Nat
deriving DecidableEq, Repr

/-- The record of a spoke started with no record. -/
def StartRec.none : StartRec := ⟨[], 0, 0, 0, 0, 0⟩

/-- The 64 bytes of a start record as a number. -/
def StartRec.ofNat (x : Nat) : StartRec :=
  ⟨(List.range 6).map fun i => BitVec.ofNat 64 (x / 2 ^ (64 * i)), BitVec.ofNat 64 (x / 2 ^ 384), bitsN x 448 32, bitsN x 480 4,
   BitVec.ofNat 2 (x / 2 ^ 484), bitsN x 488 16⟩

/-- The group slots that a record gives, with the present phase of each group (R38, R401). -/
def slotsOf (s : State) (v : Nat) (r : StartRec) : Vector GSlot 4 :=
  Vector.ofFn fun i : Fin 4 =>
    let g := bitsN r.grp (8 * i.val) 8
    let ok := bitsN r.valid i.val 1 == 1
    ⟨ok, BitVec.ofNat 8 g, false, ok && (mget (⟨0, 0, false⟩ : Grp) s.grps (grpKey v r.tag g)).phase⟩

/-- The registers of a started spoke (R35, R401). -/
def startRegs (seeds : List Word) (sp : Word) : Vector GReg 32 :=
  Vector.ofFn fun i : Fin 32 =>
    ⟨if 1 ≤ i.val ∧ i.val ≤ 6 then seeds.getD (i.val - 1) 0 else if i.val = 30 then sp else 0, true, .no⟩

/-- A spoke as it starts (R35, R401). -/
def startSpoke (s : State) (v : Nat) (pc : Word) (k : EntryKind) (r : StartRec) : Spoke :=
  { Spoke.reset with
    ctx := .live, pc := pc, want := some k, g := startRegs r.seeds r.sp, k := #v[0xFFFFFFFF, 0, 0, 0]
    gslots := slotsOf s v r, tperm := r.tperm, ltag := r.tag, popIdx := (r.seeds.headD 0).toNat }

/-- The start record at an address, with its checks (R401). A nonzero bit of [7:6] of byte VT raises ILLEGAL_FIELD too (DESIGN CHOICE, log 77: R401 only says that they are zero). -/
def readStart (t : State) (va : Word) : Except FErr (State × StartRec) :=
  match scalarPre va 64 1 [0, 3] with
  | some e => .error e
  | none =>
    match mapped t t.cur.core t.cur.vf (curSp t).dom (curSp t).lends.toList va 64 false 1 fun tt => tt == 0 || tt == 2 with
    | .error e => .error e
    | .ok r =>
      let t1 := flushAt (noteAcc t va r) r.loc 64
      let x := rdN t1 r.loc 64
      let rec' := StartRec.ofNat x
      let live : Bool := match getPop t1 t.cur.vf rec'.tag with | some p => !p.killed | none => false
      if bitsN x 486 2 ≠ 0 ∨ bitsN x 504 8 ≠ 0 ∨ (rec'.tag != 0 && !live) = true then .error (errAt .illegalField va 1)
      else .ok (t1, rec')

/-- Starts a spoke; a member leaves the hub queue of the core (R256, R401). -/
def startAt (t : State) (n : Nat) (pc : Word) (r : StartRec) : State :=
  let k := t.cur
  let t1 := if r.tag = 0 then t
    else modCtx t k.core k.vf fun x => { x with hubq := x.hubq.erase ((r.seeds.headD 0).toNat, r.tag) }
  occupy t1 k.core n k.vf (startSpoke t1 k.vf pc .start r)

/-- SPSTART (R400, R401). -/
def execSpstart (a b c : Src) (s : State) : Out :=
  .next (issue (.spstart a b c) s fun t =>
    match ctlTarget t (src t a) (· == .free) with
    | .error f => .fail f
    | .ok n =>
      let pc := src t b
      if !pcOk pc then .err .target pc 0
      else if c.reg = 0 then withRoom t (.done (startAt t n pc .none))
      else match readStart t (src t c) with
        | .error e => Ending.ofErr e
        | .ok (t1, r) => withRoom t (.done (startAt t1 n pc r)))

/-! SPSTOP, SPRESUME, SPKILL, SPREAP. -/

/-- SPSTOP (R45, R400). -/
def execSpstop (a : Src) (s : State) : Out :=
  .next (issue (.spstop a) s fun t =>
    match ctlTarget t (src t a) notFree with
    | .error f => .fail f
    | .ok n => .done (waitOn (requestStop t t.cur.core n t.cur.vf) (.spstop n)))

/-- A stopped spoke is live again (R50). -/
def resumed (p : Spoke) : Spoke := if p.ctx = .stopped then { p with ctx := .live, stopReq := false } else p

/-- SPRESUME (R50, R400): a spoke that waits on tags checks again (R407). -/
def execSpresume (a : Src) (s : State) : Out :=
  .next (issue (.spresume a) s fun t =>
    match ctlTarget t (src t a) notFree with
    | .error f => .fail f
    | .ok n => .done (serveTag (modSp t t.cur.core n t.cur.vf resumed) t.cur.core t.cur.vf n))

/-- SPKILL (R400). -/
def execSpkill (a : Src) (s : State) : Out :=
  .next (issue (.spkill a) s fun t =>
    match ctlTarget t (src t a) notFree with
    | .error f => .fail f
    | .ok n => .done (killSpoke t t.cur.core n t.cur.vf))

/-- SPREAP (R36, R402). -/
def execSpreap (d : Fin 32) (a : Src) (s : State) : Out :=
  .next (issue (.spreap d a) s fun t =>
    match ctlTarget t (src t a) notFree with
    | .error f => .fail f
    | .ok n => .done (waitOn t (.spreap d n)))

/-! SPSPILL and SPFILL (R48, R49, R400). -/

/-- The places of the pages of an image, in ascending order, or the first failed check (R86, R126, R400). -/
def imagePages (t : State) (w : Bool) : List (Nat × Nat) → Except FErr (List (Loc × Nat))
  | [] => .ok []
  | p :: r =>
    match mapped t t.cur.core t.cur.vf (curSp t).dom (curSp t).lends.toList (BitVec.ofNat 64 p.1) p.2 w (if w then 2 else 1)
        (· == 0) with
    | .error e => .error e
    | .ok x => (imagePages t w r).map ((x.loc, p.2) :: ·)

/-- The checks of an image address. -/
def imageAt (t : State) (va : Word) (w : Bool) : Except FErr (List (Loc × Nat)) :=
  match scalarPre va 64 (if w then 2 else 1) [0] with
  | some e => .error e
  | none => imagePages t w (pageParts va.toNat Config.imageSize)

/-- Moves all that an owner holds in the machine to another owner (R49). -/
def reown (s : State) (o o' : Owner) : State :=
  let f (x : Owner) : Owner := if x = o then o' else x
  { s with
    cmds := s.cmds.map fun c => { c with owner := f c.owner }
    pubs := s.pubs.map fun p => (p.1, { p.2 with owner := f p.2.owner })
    tgrps := s.tgrps.map fun p => (p.1, { p.2 with owner := f p.2.owner, origs := p.2.origs.map fun c => { c with owner := f c.owner } })
    paneReqs := s.paneReqs.map fun r => { r with owner := f r.owner }
    waiters := s.waiters.map fun w => { w with owner := f w.owner }
    leaseReqs := s.leaseReqs.map fun r => { r with owner := f r.owner }
    invals := s.invals.map fun r => { r with owner := f r.owner }
    cores := s.cores.map fun p => (p.1, { p.2 with waiters := p.2.waiters.map fun w =>
      (w.1, { w.2 with w := w.2.w.map fun x => { x with owners := x.owners.map f } }) }) }

/-- The contents of an image: the line buffer is no part of it, and the line of the PC is entered again (R48). -/
def imageOf (p : Spoke) : Spoke :=
  { p with ctx := .stopped, win := [], ahead := none, line := { p.line with present := false }
           want := match p.want with | some k => some k | none => some .seq }

/-- SPSPILL (R48, R49, R400). The messages held in the inbox for the spoke stay held, since R30 discards them only as a spoke ends or is killed: they reach whatever spoke next lives in the context (DESIGN CHOICE, log 86). The faults of the image's address come before that of an open publish group (DESIGN CHOICE, log 89: R399 and R400 give no order between them). -/
def execSpspill (a b : Src) (s : State) : Out :=
  .next (issue (.spspill a b) s fun t =>
    match ctlTarget t (src t a) (· == .stopped) with
    | .error f => .fail f
    | .ok n =>
      match imageAt t (src t b) true with
      | .error e => Ending.ofErr e
      | .ok ls =>
        let k := t.cur
        let o := Owner.spoke k.core n k.vf
        if (getSp t k.core n k.vf).pub.isSome then .fail .illegalField
        else
          let t0 := sendHeld (flushAll t o) k.core n k.vf
          let id := t0.nextId
          let t1 := imageWrite (bump t0) id 0 ls
          let at' := match ls with | (l, _) :: _ => l.a | [] => 0
          let others := t1.images.filter fun p => p.2.at' != at'
          let t2 := { t1 with images := mset others id ⟨imageOf (getSp t1 k.core n k.vf), k.vf, at', k.core, src t b, ls, id, mget 0 t1.cycles (16 * k.core + n)⟩ }
          .done (setSp (reown t2 o (.image id)) k.core n k.vf Spoke.reset))

/-- SPFILL (R48, R49, R400): of the image that SPSPILL wrote there, or of one whose bytes have been copied there. -/
def execSpfill (a b : Src) (s : State) : Out :=
  .next (issue (.spfill a b) s fun t =>
    match ctlTarget t (src t a) (· == .free) with
    | .error f => .fail f
    | .ok n =>
      match imageAt t (src t b) false with
      | .error e => Ending.ofErr e
      | .ok ls =>
        let k := t.cur
        let at' := match ls with | (l, _) :: _ => l.a | [] => 0
        let same (p : Nat × Image) : Bool := p.2.vf == k.vf && imageSame t p.2.stamp 0 ls
        match (t.images.find? fun p => p.2.at' == at' && same p).or (t.images.find? same) with
        | none => .err .softError (src t b) 1
        | some p =>
          let t1 := reown { t with images := mdel t.images p.1 } (.image p.1) (.spoke k.core n k.vf)
          let key := 16 * k.core + n
          let t2 := { t1 with cycles := mset t1.cycles key (max (mget 0 t1.cycles key) p.2.cyc) }
          withRoom t (.done (occupy t2 k.core n k.vf p.2.sp)))

end Sys2Proof.Machine
end

