-- ==== Sys2Proof/Machine/Queues.lean ====
section
/-! DEFINITION. The queue dispatcher (R242 to R257): kicks, packets, graphs, completion, placement of members. -/

namespace Sys2Proof.Machine

/-- KICK_WRITE: a write reaches a kick page (R243). -/
def execKickWrite (fn off width : Nat) (w : Word) (s : State) : Out := .next (kick s fn off width w)

/-! Reads of the dispatcher (R244): with the rights of the VF as a whole. -/

/-- BAD_PACKET (R244). -/
def badPacket : Nat := 0x21

/-- GROUP_TABLE (R244). -/
def groupTable : Nat := 0x22

/-- RING_FAULT (R244). -/
def ringFault : Nat := 0x23

/-- Reads bytes for the dispatcher; none where a page does not translate or breaks its path or rights check (R244). -/
def dispRead (s : State) (v : Nat) : List (Nat × Nat) → Option (List Byte)
  | [] => some []
  | p :: r =>
    let va := BitVec.ofNat 64 p.1
    if pathOf va ≠ 0 then none
    else match resolveVf s v va (some false) ttGeneral with
      | .error _ => none
      | .ok x => (dispRead s v r).map (((List.range p.2).map fun i => rdLoc s (x.loc.plus i)) ++ ·)

/-- The 64-bit word `i` of bytes. -/
def wordAt (b : List Byte) (i : Nat) : Word := BitVec.ofNat 64 (natOfBytes ((b.drop (8 * i)).take 8))

/-- TT of a signal on its path (R249, R250). -/
def sigTT (path tt : Nat) : Bool := if path = 0 then tt == 0 else tt == 2

/-- The place of a signal for the dispatcher (R250); none where it breaks a check, with RING_FAULT for whoever asks. One that is not 8-byte aligned does so too (DESIGN CHOICE, log 112: R244 names translation, path and rights, and R249 follows SEMSIG, which raises ALIGN). -/
def sigLoc (s : State) (v : Nat) (va : Word) (w : Bool) : Option Loc :=
  let path := pathOf va
  if va.toNat % 8 ≠ 0 ∨ (path ≠ 0 ∧ path ≠ 3) then none
  else match resolveVf s v va (some w) (sigTT path) with
    | .error _ => none
    | .ok r => some r.loc

/-! Packets (R246 to R249). -/

/-- TYPE. -/
def pktType (b : List Byte) : Nat := fieldN (wordAt b 0) 0 4

/-- FENCE. -/
def pktFence (b : List Byte) : Bool := bitN (wordAt b 0) 4

/-- SERIAL. -/
def pktSerial (b : List Byte) : Bool := bitN (wordAt b 0) 5

/-- CSIG. -/
def pktCsig (b : List Byte) : Word := wordAt b 7

/-- Whether bytes `lo` to `hi` - 1 of a packet are zero. -/
def zeroBytes (b : List Byte) (lo hi : Nat) : Bool := ((b.drop lo).take (hi - lo)).all (· == 0)

/-- A packet that breaks R246 to R249 or R253 in a field of its own. -/
def pktBad (b : List Byte) : Bool :=
  let h := wordAt b 0
  fieldN h 6 10 != 0 || (pktSerial b && pktType b != 4) ||
  match pktType b with
  | 1 => fieldN h 16 4 == 0 || fieldN h 22 10 != 0 || fieldN h 32 32 == 0 || decide (fieldN h 32 32 > 2 ^ 24)
      || (wordAt b 6).toNat % 64 != 0
  | 2 | 3 => fieldN h 16 3 == 0 || fieldN h 22 42 != 0
  | 4 => fieldN h 16 48 != 0 || fieldN (wordAt b 2) 0 16 == 0 || decide (fieldN (wordAt b 2) 0 16 > 4096) || !zeroBytes b 18 56
  | 5 => fieldN h 17 47 != 0 || !zeroBytes b 24 56
  | _ => true

/-! The heads of queues (R242, R243, R254, R255). -/

/-- A packet of a queue or a graph node, ready to be looked at. -/
inductive Head where
  | none                    -- nothing can be taken
  | fault                   -- the ring does not translate
  | pkt (b : List Byte)
deriving DecidableEq, Repr

/-- Whether a register write of a member of a population is on its way: in the mesh, or at the port of a core (R31, R254). One that an inbox holds has arrived (DESIGN CHOICE, log 105: R254 does not say when a register write counts as made). -/
def msgOn (s : State) (v tag : Nat) : Bool :=
  let mine (l : List Msg) : Bool := l.any fun m => m.vf == v && m.ltag == tag
  mine s.mesh || s.cores.any (fun c => mine c.2.ctx.port) || s.saved.any fun c => mine c.2.port

/-- Whether what the members of a packet's population have issued has come to its end, their spokes killed or not: engine commands, stores and atomics, arrivals of copies, register writes (R254, R266). Posted writes are ordered by FENCE.SY alone (R143, R320). -/
def pktQuiet (s : State) (p : Pkt) : Bool :=
  s.pops.all fun x => x.2.pkt != p.id ||
    !(s.cmds.any (fun c => c.vf == x.2.vf && c.ltag == x.2.tag) || s.orphans.any (fun o => o.vf == x.2.vf && o.ltag == x.2.tag && !o.req.posted)
      || s.barArrs.any (fun a => a.vf == x.2.vf && a.ltag == x.2.tag) || msgOn s x.2.vf x.2.tag)

/-- Whether a packet that has started has completed (R254): a DISPATCH when every member is reaped, a GRAPH when every node has completed. -/
def pktComplete (s : State) (p : Pkt) : Bool :=
  p.done || s.pops.any (fun x => x.2.pkt == p.id && decide (x.2.reaped ≥ x.2.size))
    || s.graphs.any (fun g => g.2.pkt == p.id && decide (g.2.completed.length ≥ g.2.nodes.length))

/-- The head packet of a queue: the queue is enabled, not halted, active or able to become so, and has an eligible packet (R243, R254). -/
def qHead (s : State) (v q : Nat) : Head :=
  match queueDesc s v q with
  | none => .none
  | some a =>
    let x := getQ s v q
    if !x.enabled || qHalt s a || !qEn s a || decide (qRidx s a ≥ qWidx s a) || !(x.active || decide (activeCount s < 1024)) then .none
    else match dispRead s v [((qRing s a).toNat + 64 * (qRidx s a % 2 ^ qLog s a), 64)] with
      | none => .fault
      | some b => .pkt b

/-- A node of a graph instance that may start: its predecessors have completed, and the first node of a SERIAL instance waits for the earlier ones (R253). -/
def nHead (s : State) (i j : Nat) : Head :=
  match (s.graphs.find? (·.1 == i)).map (·.2) with
  | none => .none
  | some g =>
    let free := !g.serial || !g.started.isEmpty
      || !s.graphs.any fun h => h.1 < i && h.2.serial && h.2.vf == g.vf && h.2.base == g.base && decide (h.2.completed.length < h.2.nodes.length)
    match g.nodes[j]? with
    | none => .none
    | some b => if g.started.contains j || !free || !(g.preds.getD j []).all g.completed.contains then .none else .pkt b

/-- The head that a source offers. -/
def srcHead (s : State) : PktSrc → Head
  | .queue v q => qHead s v q
  | .node i j => nHead s i j

/-- FENCE of a head (R254); a node's FENCE is ignored (R253). -/
def fenceOk (s : State) (src : PktSrc) (b : List Byte) : Bool :=
  match src with
  | .queue .. => !pktFence b || (s.pkts.filter (·.src == src)).all (pktComplete s)
  | .node .. => true

/-- The dependences of a barrier (R248): used ones, as address, kind and operand. -/
def barDeps (b : List Byte) : List (Word × Bool × Word) :=
  let h := wordAt b 0
  (((List.range 3).filter fun i => bitN h (16 + i)).map fun i => (wordAt b (1 + 2 * i), bitN h (19 + i), wordAt b (2 + 2 * i)))

/-- Whether a dependence holds (R248). -/
def depHolds (s : State) (timeline : Bool) (l : Loc) (x : Word) : Bool :=
  let v := BitVec.ofNat 64 (rdN s l 8)
  if timeline then decide (v.toNat ≥ x.toNat) || v == BitVec.allOnes 64 else decide (v.toInt ≤ x.toInt)

/-- The evaluation of a barrier: the places of its signals, and whether it holds; none where an address breaks a check. -/
def barEval (s : State) (v : Nat) (b : List Byte) : Option (List Loc × Bool) :=
  let ds := barDeps b
  let ls := ds.filterMap fun d => sigLoc s v d.1 false
  if ls.length ≠ ds.length then none
  else
    let hs := (ds.zip ls).map fun x => depHolds s x.1.2.1 x.2 x.1.2.2
    some (ls, if pktType b = 2 then hs.all id else hs.any id)

/-- The signals that a barrier was evaluated against without holding; it is evaluated again after a write to one of them (R248). -/
def barWaits (s : State) : PktSrc → List Loc
  | .queue v q => (getQ s v q).waits
  | .node i j => match (s.graphs.find? (·.1 == i)).map (·.2) with
    | some g => ((g.waits.find? (·.1 == j)).map (·.2)).getD []
    | none => []

/-- Nodes that the live graph instances hold in the node store (R253). -/
def nodesUsed (s : State) : Nat := (s.graphs.map fun g => g.2.nodes.length).sum

/-- Whether a packet that passes FENCE can be served now: started, or refused. -/
def servable (s : State) (src : PktSrc) (v : Nat) (b : List Byte) : Bool :=
  pktBad b ||
  match pktType b with
  | 2 | 3 => (barWaits s src).isEmpty && (match barEval s v b with | some (_, h) => h | none => true)
  | 4 => decide (nodesUsed s + fieldN (wordAt b 2) 0 16 ≤ 16384)
  | _ => true

/-- Whether the head of a queue can be served now. -/
def qReady (s : State) (v q : Nat) : Bool :=
  match qHead s v q with
  | .none => false
  | .fault => true
  | .pkt b => fenceOk s (.queue v q) b && servable s (.queue v q) v b

/-- PRIO of a queue. -/
def prioOf (s : State) (v q : Nat) : Nat := match queueDesc s v q with | some a => qPrio s a | none => 0

/-- Turns until a queue is served in the round robin of its PRIO (R255). -/
def turns (s : State) (v q : Nat) : Nat := (q + 255 - mget 255 s.lastQ (v * 8 + prioOf s v q)) % 256

/-- Whether it is a queue's turn among the active queues of its VF (R255): no queue of higher PRIO and none earlier in the round robin can be served. -/
def myTurn (s : State) (v q : Nat) : Bool :=
  s.queues.all fun p =>
    let o := p.1 % 256
    p.1 / 256 != v || o == q || !p.2.active || !qReady s v o || decide (prioOf s v o < prioOf s v q)
      || (prioOf s v o == prioOf s v q && decide (turns s v q < turns s v o))

/-! Errors and starts. -/

/-- An error that stops the queue (R244); a node that fails starts no more. -/
def stopSrc (s : State) (src : PktSrc) (code : Nat) : State :=
  let x := srcQueue s src
  let s1 := queueErr s x.1 x.2 code true
  match src with
  | .queue .. => s1
  | .node i j => match (s1.graphs.find? (·.1 == i)).map (·.2) with
    | some g => { s1 with graphs := mset s1.graphs i { g with started := g.started ++ [j] } }
    | none => s1

/-- An error that does not stop the queue (R244). -/
def noteSrc (s : State) (src : PktSrc) (code : Nat) : State :=
  let x := srcQueue s src
  queueErr s x.1 x.2 code false

/-- A packet leaves its queue: RIDX advances, the queue is inactive when RIDX reaches WIDX and one that waits takes its place (R243, R254); a node is started (R253). -/
def leave (s : State) : PktSrc → State
  | .queue v q =>
    match queueDesc s v q with
    | none => s
    | some a =>
      let r := qRidx s a + 1
      let s1 := setQWord s a 3 (BitVec.ofNat 64 r)
      let s2 := setQ s1 v q ⟨true, decide (r < qWidx s1 a), []⟩
      wakeQueue { s2 with lastQ := mset s2.lastQ (v * 8 + qPrio s2 a) q }
  | .node i j =>
    match (s.graphs.find? (·.1 == i)).map (·.2) with
    | some g => { s with graphs := mset s.graphs i { g with started := g.started ++ [j], waits := g.waits.filter (·.1 != j) } }
    | none => s

/-- Records a started packet; `done` when it completes as it starts (R254). -/
def addPkt (s : State) (src : PktSrc) (csig : Word) (done : Bool) : State :=
  { bump s with pkts := s.pkts ++ [⟨s.nextId, src, csig, done⟩] }

/-- The dispatcher reads a descriptor as it takes a packet, and finds EN = 0: the queue is held as disabled (R242). -/
def seeEn (s : State) : PktSrc → State
  | .queue v q => match queueDesc s v q with
    | some a => if (getQ s v q).enabled && !qEn s a && decide (qRidx s a < qWidx s a) then wakeQueue (setQ s v q ⟨false, false, []⟩) else s
    | none => s
  | .node .. => s

/-- What an event of the dispatcher does: a head of another type, a head that is not ready or not in turn leaves the state as it is; a bad head stops its queue; else `f` starts it. -/
def serve (s : State) (src : PktSrc) (types : List Nat) (f : Nat → List Byte → State) : State :=
  let v := (srcQueue s src).1
  let s0 := seeEn s src
  let turn := match src with | .queue v q => myTurn s v q | .node .. => true
  if !turn then s
  else match srcHead s src with
    | .none => s0
    | .fault => if types.contains 0 then stopSrc s src ringFault else s
    | .pkt b =>
      if !fenceOk s src b then s
      else if pktType b = 0 ∨ pktType b > 5 then if types.contains 0 then stopSrc s src badPacket else s
      else if !types.contains (pktType b) then s
      else if pktBad b then stopSrc s src badPacket
      else f v b

/-! SIGNAL (R249). -/

/-- SIGNAL_PACKET: adds to a semaphore or sets a timeline; failures are recorded (R244, R249). One whose timeline write fails has no other effect, and completes, with its CSIG decremented (DESIGN CHOICE, log 96: R244 and R249 do not say). -/
def execSignalPacket (src : PktSrc) (s : State) : Out :=
  .next (serve s src [5] fun v b =>
    match sigLoc s v (wordAt b 1) true with
    | none => stopSrc s src ringFault
    | some l =>
      let s0 := addPkt (leave s src) src (pktCsig b) true
      if bitN (wordAt b 0) 16 then
        match tlSet s0 l (wordAt b 2) with
        | .ok s1 => s1
        | .error f => noteSrc s0 src f.num
      else
        let x := semAdd s0 l (wordAt b 2).toInt
        let s1 := if x.2.1 then noteSrc x.1 src 0x20 else x.1
        if x.2.2 then noteSrc s1 src 0x25 else s1)

/-! Barriers (R248). -/

/-- The evaluation of a barrier packet at the head: it starts and completes, or waits for a write to one of its signals. -/
def barrierPacket (src : PktSrc) (type : Nat) (s : State) : State :=
  serve s src [type] fun v b =>
    if !(barWaits s src).isEmpty then s
    else match barEval s v b with
      | none => stopSrc s src ringFault
      | some (_, true) => addPkt (leave s src) src (pktCsig b) true
      | some (ls, false) =>
        match src with
        | .queue v q => setQ s v q { getQ s v q with waits := ls }
        | .node i j => match (s.graphs.find? (·.1 == i)).map (·.2) with
          | some g => { s with graphs := mset s.graphs i { g with waits := (j, ls) :: g.waits } }
          | none => s

/-- BARRIER_AND_PACKET (R248). -/
def execBarrierAndPacket (src : PktSrc) (s : State) : Out := .next (barrierPacket src 2 s)

/-- BARRIER_OR_PACKET (R248). -/
def execBarrierOrPacket (src : PktSrc) (s : State) : Out := .next (barrierPacket src 3 s)

/-! Graphs (R253). -/

/-- The 16-bit indices of a predecessor list. -/
def halfWords (b : List Byte) (n : Nat) : List Nat := (List.range n).map fun i => natOfBytes ((b.drop (2 * i)).take 2)

/-- The predecessors of the nodes from their edge words: none where an address does not translate. -/
def readPreds (s : State) (v base : Nat) : List Word → Option (List (List Nat))
  | [] => some []
  | e :: r =>
    match dispRead s v (pageParts (base + fieldN e 16 32) (2 * fieldN e 0 16)) with
    | none => none
    | some b => (readPreds s v base r).map (halfWords b (fieldN e 0 16) :: ·)

/-- A nested GRAPH, a malformed node, a predecessor that is not below its node (R253), or a nonzero bit of [63:48] of an edge word (DESIGN CHOICE, log 97: R253 gives these bits no meaning). -/
def graphBad (nodes : List (List Byte)) (edges : List Word) (preds : List (List Nat)) : Bool :=
  nodes.any (fun b => pktType b == 4 || pktBad b) || edges.any (fun e => fieldN e 48 16 != 0)
    || preds.zipIdx.any fun p => p.1.any fun i => decide (i ≥ p.2)

/-- GRAPH_PACKET: snapshots a graph image into the node store (R253). -/
def execGraphPacket (src : PktSrc) (s : State) : Out :=
  .next (serve s src [4] fun v b =>
    let n := fieldN (wordAt b 2) 0 16
    let base := (wordAt b 1).toNat
    if nodesUsed s + n > 16384 then s
    else match dispRead s v (pageParts base (72 * n)) with
      | none => stopSrc s src ringFault
      | some im =>
        let nodes := (List.range n).map fun j => (im.drop (64 * j)).take 64
        let edges := (List.range n).map fun j => wordAt (im.drop (64 * n)) j
        match readPreds s v base edges with
        | none => stopSrc s src ringFault
        | some preds =>
          if graphBad nodes edges preds then stopSrc s src badPacket
          else
            let q := (srcQueue s src).2
            let s1 := addPkt (leave s src) src (pktCsig b) false
            let id := s1.nextId
            let g : GInst :=
              { id := id, vf := v, q := q, base := wordAt b 1, serial := pktSerial b, nodes := nodes, preds := preds
                started := [], completed := [], waits := [], pkt := s.nextId }
            { bump s1 with graphs := mset s1.graphs id g })

/-! DISPATCH (R247, R256). -/

/-- A launch record (R247). -/
structure LaunchRec where
  aff : Nat
  gtab : Word
  stkoff : Nat
  stksz : Nat
deriving DecidableEq, Repr

/-- The tiles of a VF as a mask. -/
def tilesMask (s : State) (v : Nat) : Nat :=
  ((List.range Config.numTiles).map fun t => if inHalves s v (2 * t) || inHalves s v (2 * t + 1) then 2 ^ t else 0).sum

/-- The 64 bytes of a launch record; the flag says that a reserved field is zero and the stack fields hold (R247). -/
def LaunchRec.ofBytes (b : List Byte) : LaunchRec × Bool :=
  let r : LaunchRec := ⟨natOfBytes (b.take 48), wordAt b 6, fieldN (wordAt b 7) 0 16, fieldN (wordAt b 7) 16 16⟩
  (r, fieldN (wordAt b 7) 32 32 == 0 && decide (r.stkoff + 16 * r.stksz ≤ 65536) && r.stksz % 16 == 0)

/-- The launch record of a packet, or the error (R247). -/
def launchRec (s : State) (v : Nat) (b : List Byte) : Except Nat LaunchRec :=
  let a := wordAt b 6
  if a = 0 then
    if tilesMask s v = 0 then .error badPacket else .ok ⟨tilesMask s v, 0, 0, 0⟩
  else match dispRead s v [(a.toNat, 64)] with
    | none => .error ringFault
    | some x =>
      let r := LaunchRec.ofBytes x
      if !r.2 ∨ r.1.aff &&& tilesMask s v = 0 then .error badPacket else .ok r.1

/-- The 32-bit indices of a member list. -/
def fullWords (b : List Byte) (n : Nat) : List Nat := (List.range n).map fun i => natOfBytes ((b.drop (4 * i)).take 4)

/-- Reads the member lists of a group table's entries. -/
def readLists (s : State) (v base : Nat) : List (Nat × Word) → Option (List (Nat × List Nat))
  | [] => some []
  | e :: r =>
    let n := fieldN e.2 0 20
    if n = 0 then readLists s v base r
    else match dispRead s v (pageParts (base + fieldN e.2 20 32) (4 * n)) with
      | none => none
      | some b => (readLists s v base r).map ((e.1, fullWords b n) :: ·)

/-- Strictly ascending. -/
def ascending : List Nat → Bool
  | x :: y :: r => decide (x < y) && ascending (y :: r)
  | _ => true

/-- Whether a group table breaks R37. -/
def groupsBad (size : Nat) (entries : List Word) (gs : List (Nat × List Nat)) : Bool :=
  entries.any (fun e => fieldN e 52 12 != 0 || (fieldN e 0 20 != 0 && fieldN e 20 32 % 4 != 0))
    || gs.any (fun g => !ascending g.2 || g.2.any fun i => decide (i ≥ size))
    || gs.any (fun g => g.2.any fun i => decide ((gs.filter fun h => h.2.contains i).length > 4))

/-- The groups of a launch, or the error (R37, R247). -/
def launchGroups (s : State) (v size : Nat) (gtab : Word) : Except Nat (List (Nat × List Nat)) :=
  if gtab = 0 then .ok []
  else match dispRead s v (pageParts gtab.toNat 2048) with
    | none => .error ringFault
    | some b =>
      let es := (List.range 256).map (wordAt b)
      match readLists s v gtab.toNat (es.zipIdx.map fun e => (e.2, e.1)) with
      | none => .error ringFault
      | some gs => if groupsBad size es gs then .error groupTable else .ok gs

/-- A launch tag that no live population of the VF carries, searched upwards from a free start (R256). -/
def freeTag (s : State) (v : Nat) : Option Nat :=
  let start := (Config.freeWord s.tick).toNat % 65535
  ((List.range (s.pops.length + 1)).map fun i => (start + i) % 65535 + 1).find? fun t => (getPop s v t).isNone

/-! Placement (R256). -/

/-- The cores that take the members of a population, in ascending number: those of its AFF tiles that belong to the VF, no service core (R5, R256). -/
def popCores (s : State) (p : Pop) : List Nat :=
  (List.range Config.numCores).filter fun c => bitsN p.aff (tileOf c) 1 == 1 && inPart s p.vf c

/-- The lowest free context of a core, of spokes 1 to 15. -/
def freeCtx (s : State) (c v : Nat) : Option Nat := ((List.range 15).map (· + 1)).find? fun n => (getSp s c n v).ctx == .free

/-- Packs group numbers into bytes (R38). -/
def packGroups : List Nat → Nat
  | [] => 0
  | g :: r => g + 256 * packGroups r

/-- What a member starts with (R35, R38). -/
def memberRec (s : State) (p : Pop) (i c n : Nat) : StartRec :=
  let gs := ((p.groups.filter fun g => g.2.contains i).map (·.1)).take 4
  let sp := (getFn s p.vf).spmap + BitVec.ofNat 64 (65536 * c + p.stkoff + n * p.stksz)
  ⟨[BitVec.ofNat 64 i, BitVec.ofNat 64 p.size, p.arg] ++ p.seeds, sp, packGroups gs, 2 ^ gs.length - 1, p.tperm, p.tag⟩

/-- Whether a core takes a member of a population now: its VF runs on it, and a context is free or the core already runs QUOTA members (R256). -/
def dealable (s : State) (p : Pop) (c : Nat) : Bool :=
  vfOf s c == p.vf && (getHalf s (halfOf c)).next.isNone
    && (decide (heldOn s c p.vf (fun x => x.ltag == p.tag) ≥ p.quota) || (freeCtx s c p.vf).isSome)

/-- The core that the next member is dealt to: the next in ascending number after the last one, from the lowest again after the highest; cores with no free spoke are passed over (R256, R316). -/
def dealCore (s : State) (p : Pop) : Option Nat :=
  let cs := popCores s p
  ((cs.filter fun c => decide (c > p.lastCore)) ++ cs.filter fun c => decide (c ≤ p.lastCore)).find? (dealable s p)

/-- Deals the next member of a population (R256): to a free context of its core, or to the core's hub queue beyond QUOTA; none while it must wait: the VF holds MAXRES resident spokes, those that wait in hub queues not counted, and MAXRES is less than every spoke of the device. -/
def dealOne (s : State) (v tag : Nat) : Option State :=
  match getPop s v tag with
  | none => none
  | some p =>
    match dealCore s p with
    | none => none
    | some c =>
      if p.killed || decide (p.nextIdx ≥ p.size) || (decide (maxRes s v < 92160) && decide (resident s v ≥ maxRes s v)) then none
      else
        let s1 := setPop s { p with nextIdx := p.nextIdx + 1, lastCore := c }
        if heldOn s c v (fun x => x.ltag == tag) ≥ p.quota then
          some (modCtx s1 c v fun x => { x with hubq := x.hubq ++ [(p.nextIdx, tag)] })
        else match freeCtx s c v with
          | none => none
          | some n => some (occupy s1 c n v (startSpoke s1 v p.entry .launch (memberRec s p p.nextIdx c n)))

/-- Deals members until one must wait. -/
def dealAll (v tag : Nat) : Nat → State → State
  | 0, s => s
  | n + 1, s => match dealOne s v tag with
    | none => s
    | some s1 => dealAll v tag n s1

/-- MEMBER_PLACEMENT: the dispatcher deals a waiting member (R256). -/
def execMemberPlacement (vf tag : Nat) (s : State) : Out := .next ((dealOne s vf tag).getD s)

/-- A population starts: its groups, its tag, its first members (R35, R37 to R39, R256). -/
def launch (s : State) (src : PktSrc) (v tag : Nat) (b : List Byte) (r : LaunchRec) (gs : List (Nat × List Nat)) : State :=
  let h := wordAt b 0
  let size := fieldN h 32 32
  let p : Pop := { vf := v, tag := tag, src := src, pkt := s.nextId, size := size, quota := fieldN h 16 4
                   entry := wordAt b 1, arg := wordAt b 2, seeds := [wordAt b 3, wordAt b 4, wordAt b 5]
                   tperm := BitVec.ofNat 2 (fieldN h 20 2), aff := r.aff, stkoff := r.stkoff, stksz := r.stksz
                   groups := gs, nextIdx := 0, lastCore := Config.numCores, reaped := 0, killed := false }
  let s1 := setPop (addPkt (leave s src) src (pktCsig b) false) p
  let s2 := { s1 with grps := gs.foldl (fun m g => mset m (grpKey v tag g.1) ⟨g.2.length, 0, false⟩) s1.grps }
  dealAll v tag size s2

/-- DISPATCH_PACKET: starts a DISPATCH packet and launches its population; a reserved TYPE or a ring that does not translate stops the queue (R244, R246, R247). -/
def execDispatchPacket (src : PktSrc) (s : State) : Out :=
  .next (serve s src [0, 1] fun v b =>
    match launchRec s v b with
    | .error e => stopSrc s src e
    | .ok r =>
      match launchGroups s v (fieldN (wordAt b 0) 32 32) r.gtab with
      | .error e => stopSrc s src e
      | .ok gs =>
        match freeTag s v with
        | none => s
        | some tag => launch s src v tag b r gs)

/-! Completion (R254). -/

/-- The CSIG decrement of a completed packet, with its records (R246, R250). -/
def csigDown (s : State) (src : PktSrc) (csig : Word) : State :=
  if csig = 0 then s
  else
    let x := srcQueue s src
    match sigLoc s x.1 csig true with
    | none => queueErr s x.1 x.2 ringFault true
    | some l =>
      let y := semAdd s l (-1)
      let s1 := if y.2.1 then queueErr y.1 x.1 x.2 0x20 false else y.1
      if y.2.2 then queueErr s1 x.1 x.2 0x25 false else s1

/-- What the dispatcher forgets of a completed packet: its population and groups, its graph instance; a node counts as completed. -/
def forgetPkt (s : State) (p : Pkt) : State :=
  let gone := s.pops.filter fun x => x.2.pkt == p.id
  let tags := gone.map fun x => x.1
  let s1 := { s with
    pkts := s.pkts.filter (·.id != p.id)
    pops := s.pops.filter fun x => x.2.pkt != p.id
    grps := s.grps.filter fun g => !tags.contains (g.1 / 256)
    graphs := s.graphs.filter fun g => g.2.pkt != p.id }
  match p.src with
  | .queue .. => s1
  | .node i j => match (s1.graphs.find? (·.1 == i)).map (·.2) with
    | some g => { s1 with graphs := mset s1.graphs i { g with completed := g.completed ++ [j] } }
    | none => s1

/-- PACKET_COMPLETION: a packet that has completed decrements its CSIG, after every effect of its work (R246, R253, R254). -/
def execPacketCompletion (id : Nat) (s : State) : Out :=
  match s.pkts.find? (·.id == id) with
  | none => .next s
  | some p => if pktComplete s p && pktQuiet s p then .next (forgetPkt (csigDown s p.src p.csig) p) else .next s

end Sys2Proof.Machine
end

