-- ==== Sys2Proof/Machine/System.lean ====
section
/-! DEFINITION. Group 111, system (R335, R359, R382, R387, R408, R411, R412, R438), and the acknowledgement of an invalidation (R270). -/

namespace Sys2Proof.Machine

/-- NOP (R77, R382). -/
def execNop (s : State) : Out := .next (issue .nop s fun t => .done t)

/-- TRAP (R411). -/
def execTrap (n : BitVec 4) (s : State) : Out := .next (issue (.trap n) s fun _ => .fail (.trapN n))

/-- TRET (R265, R412): the record is popped, the return line is entered with no TGT or ENT check. -/
def execTret (s : State) : Out :=
  .next (issue .tret s fun t =>
    match (curSp t).drs.getLast? with
    | none => .fail .drsOverflow
    | some e =>
      if !e.trap then .fail .illegalField
      else .went (modCur t fun p => pointAt { p with drs := p.drs.dropLast } e.ret .tret))

/-- RDS (R387, R388). -/
def execRds (d : Fin 32) (n : BitVec 4) (s : State) : Out :=
  .next (issue (.rds d n) s fun t =>
    let k := t.cur
    match rdsDenied t k.vf n.toNat (curSp t).dom with
    | some f => .fail f
    | none => let x := rdsValue t k.core k.sp k.vf n.toNat; doneG x.2 d x.1)

/-- WRS (R438, R439). -/
def execWrs (a : Src) (n : BitVec 4) (s : State) : Out :=
  .next (issue (.wrs a n) s fun t =>
    let k := t.cur
    match wrsState t k.core k.sp k.vf n.toNat (src t a) with
    | .error f => .fail f
    | .ok t1 => .done t1)

/-- TINV (R270, R408): the invalidation starts, and the spoke parks until it is acknowledged. -/
def execTinv (a b : Src) (s : State) : Out :=
  .next (issue (.tinv a b) s fun t =>
    let n := (src t b).toNat
    if n > 2 ^ 40 then .fail .illegalField
    else if (curSp t).dom ≠ kernelDom then .fail .stateRight
    else
      let r : Inval := ⟨t.nextId, t.cur.vf, (src t a).toNat % 2 ^ 57, n, curOwner t, none⟩
      .done (modCur { bump t with invals := t.invals ++ [r] } fun p => { p with park := .tinv r.id }))

/-- Stops the issuing spoke at the boundary after the instruction (R45, R335); behind it as the first of a pair, the second issues alone later. -/
def stopHere (t : State) : Ending :=
  let k := t.cur
  if k.paired ∧ k.first then
    let t1 := modCur t fun p => { p with pc := nextPc k.pc, second := true }
    .went { requestStop t1 k.core k.sp k.vf with cur := { k with stop := true } }
  else .done (requestStop t k.core k.sp k.vf)

/-- BKPT (R335). -/
def execBkpt (s : State) : Out :=
  .next (issue .bkpt s fun t =>
    let k := t.cur
    if k.sp = 0 then .fail .illegalField
    else stopHere (sendReg t k.core 0 k.vf 28 (BitVec.ofNat 64 (k.core + k.sp * 2 ^ 16)) k.core k.sp k.vf k.late))

/-- ILL (R359). -/
def execIll (s : State) : Out := .next (issue .ill s fun _ => .fail .illegalOp)

/-! INVALIDATION_ACK (R270). -/

/-- Whether two ranges of the 2^57-byte address space meet; the first may wrap, and length 0 names everything (R270, R408). -/
def invalMeets (lo len a n : Nat) : Bool :=
  len == 0 || decide (lo < a + n ∧ a < lo + len) || decide (a + 2 ^ 57 < lo + len)

/-- The spokes of a VF, wherever they stand. -/
def spokesOf (s : State) (v : Nat) : List Owner :=
  let live := (s.cores.map (·.1)).flatMap fun c =>
    if vfOf s c = v then (List.range 16).map fun n => Owner.spoke c n v else []
  let away := (s.saved.filter fun p => p.1 / 65536 == v).flatMap fun p => p.2.spokes.map fun q => Owner.spoke (p.1 % 65536) q.1 v
  live ++ away ++ (s.images.filter fun p => p.2.vf == v).map fun p => Owner.image p.1

/-- Those bytes that a VF's engine commands have written and that a test on their place names, and the arrivals of its completed copies there, come to their place (R270, R408). -/
def drainCmds (s : State) (v : Nat) (hit : Loc → Bool) : State :=
  let s1 := (s.cmds.filter (·.vf == v)).foldl (fun s c =>
    let go (x : Loc × Byte) : Bool := hit x.1 && !locCut s v x.1
    setCmd (drainOut s { c with out := c.out.filter go }) { c with out := c.out.filter fun x => !go x }) s
  let mine (a : BarArr) : Bool := a.vf == v && hit a.loc
  (s1.barArrs.filter mine).foldl (fun s a => barArrive s a.loc a.bytes) { s1 with barArrs := s1.barArrs.filter fun a => !mine a }

/-- Performs a part of what a VF has under way: of the requests of each spoke, wherever it stands, and of the spokes that have ended, those that `pick` names, and what its commands have written where `hit` says. -/
def drainPart (s : State) (v : Nat) (pick : List Req → List Req) (hit : Loc → Bool) : State :=
  let s1 := (spokesOf s v).foldl (fun s o => performAll s o (pick (ownerSp s o).outst)) s
  let ids := (pick ((s1.orphans.filter (·.vf == v)).map (·.req))).map (·.id)
  drainCmds (flushOrphans s1 fun x => x.vf == v && ids.contains x.req.id) v hit

/-- Everything that a VF has under way has reached its bank. -/
def drainVf (s : State) (v : Nat) : State := drainPart s v id fun _ => true

/-- What a VF has under way at some places has reached its bank, and what goes before it (R130, R270, R408). -/
def drainAt (s : State) (v : Nat) (ps : List (Loc × Nat)) : State :=
  drainPart s v (fun rs => goFirst rs ps) fun l => ps.any fun p => p.1.sp == l.sp && decide (p.1.a ≤ l.a) && decide (l.a < p.1.a + p.2)

/-- The lines of a range that a VF's spokes have asked for ahead are read, as they are at an arrival, before the range is invalidated (R59, R60, R63, R142). -/
def readAsked (s : State) (v lo len : Nat) : State :=
  (spokesOf s v).foldl (fun s o =>
    match (ownerSp s o).ahead with
    | none => s
    | some a =>
      if a.line.isNone && a.err.isNone && invalMeets lo len (lineOf a.pc).toNat 64 then
        readFor s o (match o with | .spoke c _ _ => c | .image i => (mget Image.none s.images i).core | .gone => 0) v a 0 0
      else s) s

/-- Marks stale the line buffers of a VF's spokes, and the lines that they have read ahead (R60). -/
def staleVf (s : State) (v : Nat) : State :=
  let f (q : Spoke) : Spoke := staleLine (·.present) (staleAhead (fun _ => true) q)
  let s1 := mapSpokes s v f
  { s1 with cores := s1.cores.map fun p => if vfOf s p.1 = v then (p.1, { p.2 with hub := f p.2.hub }) else p }

/-- The tiles on which a VF has a half. -/
def vfTiles (s : State) (v : Nat) : List Nat := (List.range Config.numTiles).filter fun t => inHalves s v (2 * t) || inHalves s v (2 * t + 1)

/-- The pages that a leaf names, as first byte and length: a page of the tile buffers stands on path 0b010 for one of each tile (R110, R123). -/
def leafPlaces (s : State) (v : Nat) (e : TlbEnt) : List (Loc × Nat) :=
  let f := pteFrame e.leaf
  let n := 2 ^ e.bits
  match pteTT e.leaf with
  | 0 => (stage2 s v f).toList.map fun a => (⟨.hbm, a⟩, n)
  | 1 => [(⟨.host, f⟩, n)]
  | 2 => [(⟨.scr, f⟩, n)]
  | 3 => (⟨.tb, f⟩, n) :: (vfTiles s v).map fun t => (⟨.tb, t * 2 ^ 21 + f % 2 ^ 21⟩, n)
  | 5 => [(⟨.peer, f⟩, n)]
  | _ => []

/-- The pages of the memories that the leaves used for a range of a VF's addresses name, the old ones among them. -/
def invalPlaces (s : State) (v lo len : Nat) : List (Loc × Nat) :=
  ((getFn s v).seen.filter fun e => invalMeets lo len e.lo (2 ^ e.bits)).flatMap (leafPlaces s v)

/-- What an acknowledged invalidation has removed: cached translations and table words, read-cache lines, the freshness of line buffers (R60, R85, R112, R270). -/
def invalidate (s : State) (v lo len : Nat) : State :=
  let ps := invalPlaces s v lo len
  let s0 := readAsked s v lo len
  let s1 := if len = 0 then drainVf s0 v else drainAt s0 v ps
  let ts := (s1.rcache.map (·.1)).filter fun t => v = 0 ∨ (vfTiles s v).contains t
  let s2 := ts.foldl (fun s t => rdrop s t fun r => len == 0 || lineIn ps r.sp r.a) s1
  let s3 := modFn s2 v fun f =>
    { f with tlb := f.tlb.filter fun e => !invalMeets lo len e.lo (2 ^ e.bits)
             seen := f.seen.filter fun e => !invalMeets lo len e.lo (2 ^ e.bits), descs := [] }
  staleVf s3 v

/-- Who waited for an invalidation learns of it: the spoke leaves its park, the host's completion word is written (R270, R277). -/
def ackInval (s : State) (r : Inval) : State :=
  let s1 := modOwner s r.owner fun p => if p.park = .tinv r.id then { p with park := .none } else p
  let s2 := match r.owner with
    | .spoke c n v => tryStop s1 c n v
    | _ => s1
  match r.host with
  | some a => wrN s2 ⟨.host, a⟩ 8 1
  | none => s2

/-- INVALIDATION_ACK: invalidation `idx` is acknowledged (R270, R408). -/
def execInvalidationAck (idx : Nat) (s : State) : Out :=
  match s.invals[idx]? with
  | none => .next s
  | some r => .next (ackInval { invalidate s r.vf r.lo r.len with invals := (s.invals.take idx) ++ s.invals.drop (idx + 1) } r)

end Sys2Proof.Machine
end

