-- ==== Sys2Proof/Machine/Host.lean ====
section
/-! DEFINITION. The host interface (R267 to R270, R276 to R286): register pages, fault rings, page requests, agents, links, bandwidth buckets. -/

namespace Sys2Proof.Machine

/-! Fault rings (R269). -/

/-- A ring by its number in the round: function × 2, retryable before terminal. -/
def ringSel (i : Nat) : RingSel := if i % 2 = 0 then .retry else .terminal

/-- WEIGHT of a ring. -/
def Ring.weight (r : Ring) : Nat := fieldN r.ctl 32 8

/-- Whether a ring has a record that can be written now: held, with room, and where LOC = 1 a slot that passes stage 2 (R269). -/
def ringDue (s : State) (fn : Nat) (k : RingSel) : Bool :=
  let r := (getFn s fn).ring k
  !r.held.isEmpty && r.room && (r.slotLoc s fn).isSome

/-- Rings of the round from one after another up to a third, both ends left out, wrapping at the last function. -/
def ringsBetween (a b : Nat) : List Nat := ((List.range 127).map fun i => (a + 1 + i) % 128).takeWhile (· != b)

/-- Whether it is a ring's turn (R269): the device ring first; else the ring whose turn it is up to its WEIGHT, or the next in the round that can be written. -/
def ringTurnOk (s : State) (i : Nat) : Bool :=
  let p := s.ringTurn.1
  let due (j : Nat) : Bool := ringDue s (j / 2) (ringSel j)
  let more := due p && decide (s.ringTurn.2 < ((getFn s (p / 2)).ring (ringSel p)).weight)
  !ringDue s 0 .device && (if i = p then more || !(ringsBetween p p).any due else !more && !(ringsBetween p i).any due)

/-- Counts a record in the turn of a ring. -/
def takeTurn (s : State) (i : Nat) : State :=
  let p := s.ringTurn
  let w := ((getFn s (i / 2)).ring (ringSel i)).weight
  { s with ringTurn := if p.1 = i ∧ p.2 < w then (i, p.2 + 1) else (i, 1) }

/-- A terminal or device ring that is full or disabled drops the records it held, with OVF (R269). -/
def ringDrop (s : State) (fn : Nat) (k : RingSel) : State :=
  let f := getFn s fn
  setFn s fn (f.setRing k { f.ring k with held := [] }.setOvf)

/-- RING_RECORD_WRITE: the I/O die writes a held record in the order of the rounds (R269). -/
def execRingRecordWrite (fn : Nat) (ring : RingSel) (s : State) : Out :=
  let r := (getFn s fn).ring ring
  let i := 2 * fn + (if ring = .retry then 0 else 1)
  if r.held.isEmpty ∨ (ring = .device ∧ fn ≠ 0) ∨ fn > 63 then .next s
  else if ring ≠ .retry ∧ (!r.room ∨ (r.slotLoc s fn).isNone) then .next (ringDrop s fn ring)
  else if ring = .device then .next (ringWrite s fn ring)
  else if ringDue s fn ring ∧ ringTurnOk s i then .next (ringWrite (takeTurn s i) fn ring)
  else .next s

/-! Page requests (R267). -/

/-- The resumption PC of a spoke parked on a fault: the successor of its instruction, or of its pair (R264). -/
def parkedRpc (p : Spoke) : Word :=
  if slotOf p.pc < 4 ∧ linePair p.line.line (slotOf p.pc) ∧ ¬ p.second then nextPc (nextPc p.pc) else nextPc p.pc

/-- A spoke that waits in slot `i` takes HOST_DENIED, with the address at which it faulted itself (R264, R267). -/
def denyOwner (i : Nat) (w : Waiter) (s : State) (o : Owner) : State :=
  modOwner s o fun p =>
    if p.park = .fault i then
      { p with park := .none, pc := parkedRpc p, second := false
               owed := p.owed ++ [⟨.hostDenied, p.pc, parkedRpc p, p.fva, 0, w.acc⟩] }
    else p

/-- A command that waits on the page takes HOST_DENIED, for the access that met it (R97, R230, R240, R262, R267). -/
def denyCmd (s : State) (id : Nat) : State :=
  match getCmd s id with
  | none => s
  | some c =>
    if c.st = .pageWait then release (failLate (delCmd s id) c .hostDenied c.errVa c.errAcc) c.owner
    else if c.st ≠ .parked then s
    else if c.op.isCopy then copyFail s c .hostDenied c.errVa c.errAcc
    else if c.op = .coll then collFail s c .hostDenied c.errVa c.errAcc
    else engFail s c .hostDenied c.errVa c.errAcc

/-- The page of a granted request is held in the ATS cache (R267). -/
def holdAts (s : State) (w : Waiter) (core : Nat) : State :=
  match transl s w.vf (w.info.va.toNat % 2 ^ 57) with
  | .leaf e bits =>
    let l := placeOf core w.info.va e bits
    if l.sp = .host then { s with ats := mset s.ats (atsKey w.vf l.a) 0 } else s
  | _ => s

/-- PAGE_REQUEST_RESPONSE: the host's answer acts as a WAKE, denies the faulters, or is stale (R267). -/
def execPageRequestResponse (token : Word) (ans : PageAnswer) (s : State) : Out :=
  let core := tokCore token
  let i := tokSlot token
  let ws := getSlot s core i
  match ws.w with
  | none => .next (countStale s core)
  | some w =>
    if ws.gen ≠ tokGen token ∨ ¬ w.host then .next (countStale s core)
    else if ans = .success then .next (wakeSlot (holdAts s w core) core i)
    else .next (w.cmds.foldl denyCmd (w.owners.foldl (denyOwner i w) (freeSlot s core i)))

/-- ATS_INVALIDATION_REQUEST: the host takes translations back; accesses made under them reach their banks first, and the next access asks again (R267, R283). -/
def execAtsInvalidationRequest (fn : Nat) (addr len : Nat) (s : State) : Out :=
  .next { drainAt s fn [(⟨.host, addr⟩, len)] with ats := s.ats.filter fun p =>
    !(p.1 / 2 ^ 52 == fn && decide (p.1 % 2 ^ 52 * 4096 < addr + len) && decide (addr < p.1 % 2 ^ 52 * 4096 + 4096)) }

/-! Registers of a function (R277, R278, R286). -/

/-- The bits that FEATDEV offers (R286). -/
def featDev : Word := 0x800000000000003F

/-- Wakes that came to nothing, of the cores of a function (R263, R267, R277). -/
def staleCount (s : State) (fn : Nat) : Nat :=
  ((s.cores.filter fun p => if fn = 0 then isSvc s p.1 else inPart s fn p.1).map fun p => p.2.stale).sum

/-- Messages discarded at the cores of a function's partition (R277). -/
def dropCount (s : State) (fn : Nat) : Nat :=
  ((s.cores.filter fun p => if fn = 0 then isSvc s p.1 else inPart s fn p.1).map fun p => p.2.drop).sum

/-- The ring of an offset of the register page, if there is one: RRING, TRING, and in the PF DRING (R277). -/
def ringAt (fn off : Nat) : Option RingSel :=
  if off / 32 = 4 then some .retry else if off / 32 = 5 then some .terminal
  else if off / 32 = 6 ∧ fn = 0 then some .device else none

/-- Word `i` of a ring's control block. -/
def Ring.word (r : Ring) (i : Nat) : Word :=
  match i with | 0 => r.base | 1 => r.ctl | 2 => r.pidx | _ => r.cidx

/-- Word `i` of the mailbox data. -/
def mdataWord (s : State) (i : Nat) : Word := wordAt s.ctrl.mdata i

/-- A read of a register page word (R277): WO and reserved words read zero. -/
def readReg (s : State) (fn off : Nat) : Word :=
  let f := getFn s fn
  match ringAt fn off with
  | some k => (f.ring k).word (off % 32 / 8)
  | none =>
    match off / 8 with
    | 0 => featDev | 1 => f.featdrv | 2 => if f.quiesced then 1 else 0 | 3 => f.ptroot | 4 => f.dombase | 5 => f.qtbase
    | 6 => f.spmap | 8 => f.invva | 9 => f.invlen | 11 => f.regerr | 12 => f.dropkick
    | 13 => BitVec.ofNat 64 (staleCount s fn) | 14 => BitVec.ofNat 64 (dropCount s fn)
    | k =>
      if fn ≠ 0 then 0 else if k = 32 then s.ctrl.mcmd else if k = 33 then s.ctrl.mstat
      else if 36 ≤ k ∧ k < 64 then mdataWord s (k - 36) else 0

/-- Word `i` of a control block. -/
def Ctl.word (c : Ctl) (i : Nat) : Word :=
  match i with
  | 0 => c.segbase | 1 => c.segsize | 2 => c.sched | 3 => c.saveoff
  | k => if k < 16 then BitVec.ofNat 64 (fieldN c.halves (64 * (k - 4)) 64) else 0

/-- A read of the PF's control space (R278). -/
def readCtl (s : State) (off : Nat) : Word := if off / 256 = 0 then 0 else (getFn s (off / 256)).ctlNew.word (off % 256 / 8)

/-- Functions whose GO is written leave QUIESCED: the PF at once, a VF once the PF runs (R286). -/
def leaveQuiesced (s : State) : State :=
  let pf := getFn s 0
  let s1 := if bitN pf.featdrv 63 then setFn s 0 { pf with quiesced := false } else s
  if (getFn s1 0).quiesced then s1
  else { s1 with fns := s1.fns.map fun p => if bitN p.2.featdrv 63 then (p.1, { p.2 with quiesced := false }) else p }

/-- A write of FEATDRV (R286). -/
def writeFeat (s : State) (fn : Nat) (w : Word) : State :=
  if w &&& ~~~featDev ≠ 0 then regErr s fn
  else if !(getFn s fn).quiesced then s
  else leaveQuiesced (modFn s fn fun f => { f with featdrv := w })

/-- FEATDRV_WRITE (R286). -/
def execFeatdrvWrite (fn : Nat) (w : Word) (s : State) : Out := .next (writeFeat s fn w)

/-- A write of the WAKE register (R263): the wake of the PF's own register is told from a service core's by VF 64. -/
def writeWake (s : State) (fn : Nat) (w : Word) : State :=
  if tokBad w then regErr s fn else sendMsg s (wakeMsg w 0 0 (if fn = 0 then 64 else fn))

/-- WAKE_REGISTER_WRITE (R263). -/
def execWakeRegisterWrite (fn : Nat) (w : Word) (s : State) : Out := .next (writeWake s fn w)

/-- A write of INVGO starts the invalidation of INVVA and INVLEN (R270, R277). -/
def writeInvgo (s : State) (fn : Nat) (w : Word) : State :=
  let f := getFn s fn
  { bump s with invals := s.invals ++ [⟨s.nextId, fn, f.invva.toNat % 2 ^ 57, f.invlen.toNat, .gone, some w.toNat⟩] }

/-- INVGO_WRITE (R270). -/
def execInvgoWrite (fn : Nat) (w : Word) (s : State) : Out := .next (writeInvgo s fn w)

/-- A write of CIDX: an MSI-X is sent again when records stay unconsumed (R269), in a ring with EN = 0 too (DESIGN CHOICE, log 98: R268 says that its fields are not used then). -/
def writeCidx (s : State) (fn : Nat) (k : RingSel) (w : Word) : State :=
  let f := getFn s fn
  let r := { f.ring k with cidx := w }
  let s1 := setFn s fn (f.setRing k r)
  if r.used ≠ 0 then sendMsix s1 fn r.vec else s1

/-- RING_CIDX_WRITE (R268, R269); a VF has no device ring (R277). -/
def execRingCidxWrite (fn : Nat) (ring : RingSel) (w : Word) (s : State) : Out :=
  if ring = .device ∧ fn ≠ 0 then .next (if w = 0 then s else regErr s fn) else .next (writeCidx s fn ring w)

/-- A write of a word of a ring's control block (R12, R268). -/
def writeRing (s : State) (fn : Nat) (k : RingSel) (i : Nat) (w : Word) : State :=
  let f := getFn s fn
  let r := f.ring k
  if i = 0 then if w.toNat % 32 ≠ 0 then regErr s fn else setFn s fn (f.setRing k { r with base := w })
  else if i = 1 then
    let n := fieldN w 0 5
    let bad := fieldN w 5 11 != 0 || fieldN w 27 5 != 0 || fieldN w 43 21 != 0
      || (bitN w 40 && (decide (n < 4) || decide (n > 16))) || (bitN w 40 && fieldN w 32 8 == 0 && k != .device)
    let ovf : Word := BitVec.ofNat 64 (2 ^ 42)
    if bad then regErr s fn else setFn s fn (f.setRing k { r with ctl := (w &&& ~~~ovf) ||| (r.ctl &&& ovf &&& ~~~w) })
  else if i = 2 then regErr s fn
  else writeCidx s fn k w

/-- Replaces bytes of the mailbox data from offset `o`. -/
def putData (d : List Byte) (o : Nat) (bs : List Byte) : List Byte := d.take o ++ bs ++ d.drop (o + bs.length)

/-- A write of a mailbox word (R289): while the controller works, writes are discarded; GO starts it. Bits [7:2] of MSTAT, which R289 does not name, are reserved like [63:40]: a write that sets one is discarded (DESIGN CHOICE, log 114). -/
def writeMbox (s : State) (i : Nat) (w : Word) : State :=
  let c := s.ctrl
  if i = 0 then
    if c.busy ∨ fieldN w 40 24 ≠ 0 then regErr s 0 else { s with ctrl := { c with mcmd := w } }
  else if i = 1 then
    if c.busy ∨ fieldN w 2 6 ≠ 0 ∨ fieldN w 40 24 ≠ 0 then regErr s 0
    else
      let done := bitN c.mstat 1 && !bitN w 1
      let m := (w &&& ~~~(2#64)) ||| (if done then 2#64 else 0)
      { s with ctrl := { c with mstat := m, busy := bitN w 0, reply := none } }
  else if i < 4 then if w = 0 then s else regErr s 0
  else if c.busy then regErr s 0
  else { s with ctrl := { c with mdata := putData c.mdata (8 * (i - 4)) (bytesLE 8 w.toNat) } }

/-- A write of an aligned base address register. -/
def writeBase (s : State) (fn : Nat) (w : Word) (al : Nat) (f : Fn → Fn) : State :=
  if w.toNat % al ≠ 0 then regErr s fn else modFn s fn f

/-- A write of a word of a register page (R12, R277). -/
def writeReg (s : State) (fn off : Nat) (w : Word) : State :=
  match ringAt fn off with
  | some k => writeRing s fn k (off % 32 / 8) w
  | none =>
    match off / 8 with
    | 1 => writeFeat s fn w
    | 3 => writeBase s fn w 16384 fun f => { f with ptroot := w }
    | 4 => writeBase s fn w 8192 fun f => { f with dombase := w }
    | 5 => writeBase s fn w 16384 fun f => { f with qtbase := w }
    | 6 => modFn s fn fun f => { f with spmap := w }
    | 7 => writeWake s fn w
    | 8 => modFn s fn fun f => { f with invva := w }
    | 9 => modFn s fn fun f => { f with invlen := w }
    | 10 => writeInvgo s fn w
    | 0 | 2 | 11 | 12 | 13 | 14 => regErr s fn
    | k => if fn = 0 ∧ 32 ≤ k ∧ k < 64 then writeMbox s (k - 32) w else if w = 0 then s else regErr s fn

/-! Control blocks (R278). -/

/-- SHARE of a block. -/
def Ctl.share (c : Ctl) : Nat := fieldN c.sched 0 9

/-- BWSHARE of a block. -/
def Ctl.bw (c : Ctl) : Nat := fieldN c.sched 40 9

/-- Whether two segments meet. -/
def segsMeet (a b : Ctl) : Bool :=
  decide (a.segbase.toNat < b.segbase.toNat + b.segsize.toNat) && decide (b.segbase.toNat < a.segbase.toNat + a.segsize.toNat)
    && a.segsize != 0 && b.segsize != 0

/-- Control block writes that R278 forbids; `other` gives the blocks of the other VFs, as written and in force. -/
def ctlBad (s : State) (v : Nat) (c : Ctl) : Bool :=
  let others := (List.range 64).filter fun u => u != 0 && u != v
  c.segbase.toNat % 2 ^ 24 != 0 || c.segsize.toNat % 2 ^ 24 != 0 || c.saveoff.toNat % 2 ^ 21 != 0
    || decide (c.segbase.toNat + c.segsize.toNat > Config.hbmSize)
    || decide (c.share > 256) || decide (c.bw > 256) || decide (fieldN c.sched 49 5 > 16)
    || fieldN c.sched 9 7 != 0 || fieldN c.sched 33 7 != 0 || fieldN c.sched 54 10 != 0
    || others.any (fun u => segsMeet c (getFn s u).ctlNew || segsMeet c (getFn s u).ctlAct)
    || (List.range 768).any (fun h => bitN c.halves h &&
        decide (c.share + ((others.filter fun u => bitN (getFn s u).ctlNew.halves h).map fun u => (getFn s u).ctlNew.share).sum > 256))
    || decide (c.bw + (others.map fun u => (getFn s u).ctlNew.bw).sum > 256)

/-- A control block with one word replaced. -/
def Ctl.put (c : Ctl) (i : Nat) (w : Word) : Ctl :=
  match i with
  | 0 => { c with segbase := w } | 1 => { c with segsize := w } | 2 => { c with sched := w } | 3 => { c with saveoff := w }
  | k =>
    let sh := 64 * (k - 4)
    { c with halves := (c.halves &&& ~~~((BitVec.allOnes 64).zeroExtend 768 <<< sh)) ||| (w.zeroExtend 768 <<< sh) }

/-- Half tiles that have left a VF's HALVES lose the VF's tile image, and their transfer identifiers start again (R227, R280). -/
def forgetHalves (s : State) (v : Nat) (gone : Nat → Bool) : State :=
  { s with
    savedImg := s.savedImg.filter fun p => !(p.1 / 65536 == v && gone (p.1 % 65536))
    saved := s.saved.map fun p =>
      if p.1 / 65536 = v ∧ gone (halfOf (p.1 % 65536)) then (p.1, { p.2 with nextXid := 1 }) else p }

/-- A VF whose HALVES are empty loses its leases (R282). -/
def loseLeases (s : State) (v : Nat) : State :=
  if (getFn s v).ctlAct.halves ≠ 0 then s
  else (List.range 16).foldl (fun s e => match (getEngine s e).lease with
    | some (w, _) => if w = v then endLease s e else s
    | none => s) s

/-- Whether a VF is resident on some half tile. -/
def isResident (s : State) (v : Nat) : Bool := s.halves.any fun p => p.2.vf == v

/-- A block whose HALVES are empty gives a VF that is resident nowhere no slice to begin: it takes effect as it is written, or as the VF leaves its last half tile (DEDUCED, log 99). -/
def emptyBlock (s : State) (v : Nat) : State :=
  if !isResident s v && (getFn s v).ctlNew.halves == 0 then
    loseLeases (forgetHalves (modFn s v fun f => { f with ctlAct := f.ctlNew }) v fun _ => true) v
  else s

/-- A write of a word of the control space (R278): the block takes effect at the VF's next slice start. -/
def writeCtl (s : State) (off : Nat) (w : Word) : State :=
  let v := off / 256
  let i := off % 256 / 8
  if v = 0 ∨ i ≥ 16 then if w = 0 then s else regErr s 0
  else
    let c := (getFn s v).ctlNew.put i w
    if ctlBad s v c then regErr s 0 else emptyBlock (modFn s v fun f => { f with ctlNew := c }) v

/-- A narrower write as a write of its word: the other bytes as they read, with nothing written to bits that act when written (R11). -/
def widen (cur w : Word) (off width : Nat) : Word :=
  let m := BitVec.ofNat 64 ((2 ^ (8 * width) - 1) * 2 ^ (8 * (off % 8)))
  (cur &&& ~~~m) ||| ((w <<< (8 * (off % 8))) &&& m)

/-- Bits of a register page word that act when written 1: OVF of a ring, GO and DONE of MSTAT. -/
def actBits (fn off : Nat) : Word :=
  if (ringAt fn off).isSome ∧ off % 32 / 8 = 1 then BitVec.ofNat 64 (2 ^ 42) else if off / 8 = 33 then 3 else 0

/-- REGISTER_WRITE: the host writes a register page, a kick page or the control space (R11, R12, R276 to R278). -/
def execRegisterWrite (fn bar off width : Nat) (w : Word) (s : State) : Out :=
  let shape := (width == 1 || width == 2 || width == 4 || width == 8) && off % width == 0
  if bar = 2 then .next (kick s fn off width w)
  else if bar = 4 then
    if fn ≠ 0 ∨ off ≥ 16384 then .next s
    else if !shape then .next (regErr s 0)
    else .next (writeCtl s off (widen (readCtl s off) w off width))
  else if bar ≠ 0 ∨ fn > 63 ∨ off ≥ 4096 then .next s
  else if !shape then .next (regErr s fn)
  else .next (writeReg s fn off (widen (readReg s fn off &&& ~~~(actBits fn off)) w off width))

/-! Agents (R145, R283), snoops. -/

/-- The byte writes of an agent's access at a place. -/
def agentDo (s : State) (l : Loc) (acc : AgentAcc) : State :=
  match acc with
  | .read _ => s
  | .write bs => { s with hbm := wrBytes s.hbm l.a bs }
  | .fetchAdd n v => wrN s l n (rdN s l n + v)
  | .swap n v => wrN s l n v
  | .cas n c v => if rdN s l n = c then wrN s l n v else s

/-- Bytes that an agent's access reaches. -/
def agentLen : AgentAcc → Nat
  | .read n | .fetchAdd n _ | .swap n _ | .cas n _ _ => n
  | .write bs => bs.length

/-- Where an agent's access to device memory lands (R145, R283, R285, R286): the host's in the CXL.mem range, which is decoded when CXLMEM is acknowledged and a port has trained as CXL, with no stage 2; a peer's in the segment of the VF that its connection is bound to. -/
def agentLoc (s : State) (g : Agent) (n : Nat) : Option Loc :=
  match g with
  | .host addr => if addr + n ≤ Config.hbmSize ∧ feature s 0 2 ∧ s.ctrl.port ≠ 0 then some ⟨.hbm, addr⟩ else none
  | .peer v dev addr => if mhas s.binds (v * 1024 + dev) then (stage2N s v addr n).map fun a => ⟨.hbm, a⟩ else none

/-- HOST_MEMORY_ACCESS: a host or peer agent reaches HBM at one point of the order (R145, R283, R285); an access that nothing decodes reaches nothing. -/
def execHostMemoryAccess (agent : Agent) (acc : AgentAcc) (s : State) : Out :=
  match agentLoc s agent (agentLen acc) with
  | some l => .next (agentDo s l acc)
  | none => .next s

/-- Drops a host line from every read cache. -/
def dropHostLine (s : State) (line : Nat) : State :=
  (s.rcache.map (·.1)).foldl (fun s t => rdrop s t fun r => r.sp == .host && r.a == line) s

/-- CXL_CACHE_SNOOP: the host snoops a line held under CXL.cache: it is kept or given up (R283). -/
def execCxlCacheSnoop (line : Nat) (keep : Bool) (s : State) : Out :=
  if keep ∨ !s.cxl.contains line then .next s
  else .next { dropHostLine s line with cxl := s.cxl.filter (· != line) }

/-! Links and bandwidth (R281, R285). -/

/-- A link. -/
def getLink (s : State) (l : Nat) : Link := mget Link.reset s.links l

/-- A command loses its connection to some peers: what it has written there and is not visible is lost, and it ends with SEGMENT, as a collective does that one of them takes part in (R285). -/
def loseBytes (s : State) (gone : Nat → Bool) (c : Cmd) : Cmd :=
  let lost (x : Loc × Byte) : Bool := x.1.sp == .peer && gone (c.vf * 1024 + x.1.a / 2 ^ 40)
  let part := c.op == .coll && !c.held && c.idx.zipIdx.any fun p => p.2 != c.rank && gone (c.vf * 1024 + p.1.toNat)
  if !(part || c.out.any lost) then c
  else
    { c with out := c.out.filter fun x => !lost x
             fail := if c.fail.isSome || c.cancel then c.fail
               else some (if part then (.segment, 0, 0) else (.segment, (outCut s c).getD 0, 5)) }

/-- The connections that a test names end, with the accesses under way over them (R285); so they do where PEERBIND unbinds a pair, be it bound again before they complete (DESIGN CHOICE, log 116: R285 has it for a reset notice and a link-down). -/
def endBinds (s : State) (gone : Nat → Bool) : State :=
  let ks := (s.binds.map (·.1)).filter gone
  let s1 := { s with binds := s.binds.filter fun p => !gone p.1, ended := ks.foldl (fun m k => mset m k s.nextId) s.ended }
  { s1 with cmds := s1.cmds.map (loseBytes s1 fun k => ks.contains k) }

/-- The connections to a peer end. -/
def dropPeer (s : State) (dev : Nat) : State := endBinds s fun k => k % 1024 == dev

/-- FLIT_CRC_FAILURE: a flit is replayed and counted; after eight failed replays of one flit the link goes down and its connections with it (R285, R288). Whether the flit is the one that failed before is free. -/
def execFlitCrcFailure (link : Nat) (s : State) : Out :=
  let x := getLink s link
  if link ≥ 48 ∨ !x.up then .next s
  else
    let same := Config.oneOf s.tick
    let n := if same then x.fails + 1 else 1
    let sq := if same then x.seq else x.seq + 1
    if n > 8 then
      .next (endBinds { s with links := mset s.links link ⟨false, sq, 0⟩ } fun k => Config.linkOf (k % 1024) == link)
    else .next (countLife { s with links := mset s.links link ⟨true, sq, n⟩ } 4 link 0)

/-- PEER_RESET_NOTICE: a peer's reset ends its connections (R275, R285). -/
def execPeerResetNotice (dev : Nat) (s : State) : Out := .next (dropPeer s dev)

/-- A bucket at a refill (R281): the VF's quota and its share of the idle quotas, in multiples of 64 bytes. -/
def bucketOf (bw total idle : Nat) : Nat := bw * 65536 / 256 + idle * bw / max total 1 / 64 * 64

/-- BUCKET_REFILL: the port of a core refills its buckets (R281). -/
def execBucketRefill (core : Nat) (idle : List Nat) (s : State) : Out :=
  let bw (v : Nat) : Nat := (getFn s v).ctlAct.bw
  let vfs := (List.range 64).filter fun v => v != 0 && decide (bw v > 0)
  let act := vfs.filter fun v => !idle.contains v
  let total := (act.map bw).sum
  let spare := ((vfs.filter idle.contains).map fun v => bw v * 65536 / 256).sum
  .next (modCore s core fun c => { c with buckets := vfs.map fun v =>
    (v, if idle.contains v then 0 else bucketOf (bw v) total spare) })

end Sys2Proof.Machine
end

