-- ==== Sys2Proof/Machine/Shake.lean ====
section
/-! DEFINITION. SHAKE256 (R3, R287): the extendable-output function of FIPS 202, with 64 bytes of output (PRESUMED, log 16: the spec names it and does not define it). Nothing is tabulated: the rotations follow the walk of the lanes, and the constants a shift register. -/

namespace Sys2Proof.Machine

/-- The sponge's state: five planes of five lanes each. -/
abbrev Planes := List (List (BitVec 64))

/-- The planes before any byte is absorbed. -/
def Planes.blank : Planes := List.replicate 5 (List.replicate 5 0)

/-- The exclusive or of two planes, lane by lane. -/
def mixPlane (p q : List (BitVec 64)) : List (BitVec 64) := List.zipWith (· ^^^ ·) p q

/-- Every column gets the parities of its two neighbours, the right one turned by a bit. -/
def spreadParity (s : Planes) : Planes :=
  let par := s.foldl mixPlane (List.replicate 5 0)
  let turned := (par.rotateLeft 1).map fun w => w.rotateLeft 1
  s.map (mixPlane (mixPlane (par.rotateRight 1) turned))

/-- `n` steps of the walk over the lanes: the lane in hand, turned by the triangular number of its step, goes to the next place, whose old lane is taken in hand. -/
def walkLanes : Nat → Nat → Nat → Nat → BitVec 64 → Planes → Planes
  | 0, _, _, _, _, s => s
  | n + 1, t, x, y, hand, s =>
    let y' := (2 * x + 3 * y) % 5
    let plane := s.getD y' []
    walkLanes n (t + 1) y y' (plane.getD y 0) (s.set y' (plane.set y (hand.rotateLeft (t * (t + 1) / 2 % 64))))

/-- The walk begins at the second lane of the first plane, and the first lane stays where it is. -/
def turnLanes (s : Planes) : Planes := walkLanes 24 1 1 0 ((s.getD 0 []).getD 1 0) s

/-- The one step that is not linear, on a plane. -/
def bendPlane (p : List (BitVec 64)) : List (BitVec 64) :=
  mixPlane p (List.zipWith (fun u w => ~~~u &&& w) (p.rotateLeft 1) (p.rotateLeft 2))

/-- The shift register of x^8 + x^6 + x^5 + x^4 + 1. -/
def shiftReg (r : Nat) : Nat := if 128 ≤ r then (2 * r) ^^^ 0x171 else 2 * r

/-- Seven bits of the shift register, at the places one below the powers of two, and the register after them. -/
def roundBits (r : Nat) : Nat × Nat :=
  [0, 1, 3, 7, 15, 31, 63].foldl (fun acc place => (shiftReg acc.1, acc.2 + acc.1 % 2 * 2 ^ place)) (r, 0)

/-- `n` rounds from a state of the shift register. -/
def permute : Nat → Nat → Planes → Planes
  | 0, _, s => s
  | n + 1, r, s =>
    let (r', bits) := roundBits r
    let s' := (turnLanes (spreadParity s)).map bendPlane
    permute n r' (s'.modifyHead fun p => p.modifyHead (· ^^^ BitVec.ofNat 64 bits))

/-- Bytes of a block of SHAKE256. -/
def shakeRate : Nat := 136

/-- The lanes of a block and zeros after it, as planes. -/
def planesOf (block : List Byte) : Planes :=
  (List.range 5).map fun y => (List.range 5).map fun x => BitVec.ofNat 64 (natOfBytes ((block.drop (40 * y + 8 * x)).take 8))

/-- Absorbs `n` blocks of a message. -/
def absorbBlocks : Nat → Planes → List Byte → Planes
  | 0, s, _ => s
  | n + 1, s, m => absorbBlocks n (permute 24 1 (List.zipWith mixPlane s (planesOf (m.take shakeRate)))) (m.drop shakeRate)

/-- What follows a message: its domain bits and the padding to a whole number of blocks. -/
def shakeTail (len : Nat) : List Byte :=
  match shakeRate - 1 - len % shakeRate with
  | 0 => [0x9F]
  | k + 1 => 0x1F :: (List.replicate k 0 ++ [0x80])

/-- The 64-byte SHAKE256 digest of bytes, its first byte lowest. -/
def shake256 (m : List Byte) : BitVec 512 :=
  let s := absorbBlocks (m.length / shakeRate + 1) .blank (m ++ shakeTail m.length)
  BitVec.ofNat 512 ((s.flatten.take 8).foldr (fun w acc => acc * 2 ^ 64 + w.toNat) 0)

end Sys2Proof.Machine
end

