-- ==== Sys2Proof/Machine/Controller.lean ====
section
/-! DEFINITION. The Ndoeri controller (R258, R285, R287 to R290): the mailbox commands, lifetime counters, clocks, D3hot. -/

namespace Sys2Proof.Machine

/-! The mailbox (R289). -/

/-- The command in MCMD. -/
def mbCode (s : State) : Nat := fieldN s.ctrl.mcmd 0 16

/-- ALEN. -/
def mbLen (s : State) : Nat := fieldN s.ctrl.mcmd 16 8

/-- CHUNK. -/
def mbChunk (s : State) : Nat := fieldN s.ctrl.mcmd 24 16

/-- The argument bytes. -/
def mbArg (s : State) : List Byte := s.ctrl.mdata.take (mbLen s)

/-- A byte of the argument. -/
def mbByte (s : State) (i : Nat) : Nat := ((mbArg s).getD i 0).toNat

/-- A number of `n` bytes of the argument. -/
def mbNum (s : State) (i n : Nat) : Nat := natOfBytes (((mbArg s).drop i).take n)

/-- Whether the controller has a command to run: it works, with no reply prepared, and MCMD holds the code. -/
def mbRuns (s : State) (code : Nat) : Bool := s.ctrl.busy && s.ctrl.reply.isNone && mbCode s == code

/-- Prepares a reply with RESULT and no bytes. -/
def mbResult (s : State) (r : Nat) : State := { s with ctrl := { s.ctrl with reply := some (r, [], 0) } }

/-- Chunks of a reply (R289). -/
def chunksOf (b : List Byte) : Nat := max 1 ((b.length + 223) / 224)

/-- Prepares the chunk of a reply that CHUNK selects, or BADARG. -/
def mbReply (s : State) (b : List Byte) : State :=
  let c := mbChunk s
  if c ≥ chunksOf b then mbResult s 2
  else { s with ctrl := { s.ctrl with reply := some (0, (b.drop (224 * c)).take 224, chunksOf b) } }

/-- A command with an argument of `n` bytes in one chunk: BADARG where ALEN or CHUNK does not fit. -/
def mbSimple (s : State) (code n : Nat) (f : State) : State :=
  if !mbRuns s code then s else if mbLen s ≠ n ∨ mbChunk s ≠ 0 then mbResult s 2 else f

/-- PORTSET: the port setting for the next power-on (R283, R289). -/
def execPortset (s : State) : Out :=
  .next (mbSimple s 1 1 (
    if mbByte s 0 ≥ 4 then mbResult s 2
    else mbResult { s with ctrl := { s.ctrl with portNext := BitVec.ofNat 2 (mbByte s 0) } } 0))

/-- The cores that a mask of 768 bytes names. -/
def coresOfMask (b : List Byte) : List Nat :=
  (List.range Config.numCores).filter fun c => bitsN ((b.getD (c / 8) 0).toNat) (c % 8) 1 == 1

/-- Whether a mask reserves every core of some half tile (R258). -/
def maskRefused (cs : List Nat) : Bool := (List.range 768).any fun h => (cs.filter fun c => halfOf c == h).length == 8

/-- SVCMASK: chunks of the service mask; with the last one the mask for the next device reset, or REFUSED (R258, R289). -/
def execSvcmask (s : State) : Out :=
  if !mbRuns s 2 then .next s
  else if mbLen s ≠ 192 ∨ mbChunk s > 3 then .next (mbResult s 2)
  else
    let buf := mset s.ctrl.svcBuf (mbChunk s) (mbArg s)
    let s1 := { s with ctrl := { s.ctrl with svcBuf := buf } }
    if mbChunk s < 3 then .next (mbResult s1 0)
    else if buf.length ≠ 4 then .next (mbResult s1 2)
    else
      let cs := coresOfMask (buf.flatMap (·.2))
      let s2 := { s with ctrl := { s.ctrl with svcBuf := [] } }
      if maskRefused cs then .next (mbResult s2 3)
      else .next (mbResult { s2 with ctrl := { s2.ctrl with svcNext := some cs } } 0)

/-- PEERBIND: binds a pair of local VF and peer device to a remote VF, or ends the binding (R285, R289). -/
def execPeerbind (s : State) : Out :=
  .next (mbSimple s 3 6 (
    let v := mbByte s 0
    let dev := mbNum s 2 2
    let rem := mbByte s 4
    if v = 0 ∨ v > 63 ∨ mbByte s 1 ≠ 0 ∨ dev > 1023 ∨ mbByte s 5 > 1 ∨ (mbByte s 5 = 0 ∧ (rem = 0 ∨ rem > 63)) then mbResult s 2
    else
      let k := v * 1024 + dev
      if mbByte s 5 = 0 then
        if !(getLink s (Config.linkOf dev)).up then mbResult s 3 else mbResult { s with binds := mset s.binds k rem } 0
      else mbResult (endBinds s (· == k)) 0))

/-- The bytes of the service mask in force. -/
def maskBytes (s : State) : List Byte :=
  (List.range 768).map fun i => BitVec.ofNat 8 (((List.range 8).map fun j => (isSvc s (8 * i + j)).toNat * 2 ^ j).sum)

/-- The bytes of the default trowel table. -/
def trowelBytes : List Byte := (List.range 64).flatMap fun k => bytesLE 32 (mget 0 defaultTrowel k).toNat

/-- The measurements: loaded images in load order, the service mask, the default trowel table (R287, R289). -/
def measurements (s : State) : List Byte :=
  (s.ctrl.fw ++ [shake256 (maskBytes s), shake256 trowelBytes]).flatMap fun m => bytesLE 64 m.toNat

/-- QUOTE: the measurements and a signature over the nonce and them; a later chunk with the same nonce is of the same quote (R287, R289). -/
def execQuote (s : State) : Out :=
  if !mbRuns s 4 then .next s
  else if mbLen s ≠ 32 then .next (mbResult s 2)
  else
    let nonce := mbArg s
    let new := measurements s ++ bytesLE 114 (Config.ed448Sign (shake256 (nonce ++ measurements s))).toNat
    let rep := match s.ctrl.quote with | some (n, r) => if n = nonce ∧ mbChunk s ≠ 0 then r else new | none => new
    .next (mbReply { s with ctrl := { s.ctrl with quote := some (nonce, rep) } } rep)

/-- A lifetime counter as stored: seconds of a band are shown in hours (R288). -/
def counterOf (s : State) (code idx bin : Nat) : Nat :=
  let x := mget 0 s.ctrl.nv (code * 2 ^ 32 + idx * 2 ^ 16 + bin)
  if code < 2 then x / 3600 else x

/-- The bins that a counter has: up to the highest one counted, at least one. -/
def binsOf (s : State) (code idx : Nat) : Nat :=
  (s.ctrl.nv.filter fun p => p.1 / 2 ^ 16 == code * 2 ^ 16 + idx).foldl (fun m p => max m (p.1 % 2 ^ 16 + 1)) 1

/-- Whether a counter has an index: six compute and two I/O dies, the rails, 48 links; SOFTCORR, SOFTUNC and FAULTRATE have none (R3, R285, R288, R289). -/
def counterIdxOk (code idx : Nat) : Bool :=
  (code == 0 && decide (idx < 8)) || (code == 1 && decide (idx < Config.numRails)) || (code == 4 && decide (idx < 48)) || ((code == 2 || code == 3 || code == 5) && idx == 0)

/-- COUNTERS: the bins of a stored counter (R288, R289). -/
def execCounters (s : State) : Out :=
  if !mbRuns s 5 then .next s
  else if mbLen s ≠ 4 ∨ mbByte s 1 ≠ 0 ∨ ¬ counterIdxOk (mbByte s 0) (mbNum s 2 2) then .next (mbResult s 2)
  else .next (mbReply s ((List.range (binsOf s (mbByte s 0) (mbNum s 2 2))).flatMap fun i =>
    bytesLE 8 (counterOf s (mbByte s 0) (mbNum s 2 2) i)))

/-- FWLOAD: an image read from host memory is loaded only if its signature verifies; a failure is recorded in the PF device ring, with a code that the spec leaves open (R287, R289). -/
def execFwload (s : State) : Out :=
  .next (mbSimple s 6 16 (
    let img := rdBytes s.host (mbNum s 0 8) (mbNum s 8 8)
    if Config.ed448Verifies img then mbResult { s with ctrl := { s.ctrl with fw := s.ctrl.fw ++ [shake256 img] } } 0
    else mbResult (postDev s (termRec ((Config.freeWord s.tick).toNat % 256) 0 0 0 0 0)) 4))

/-- IDENT: the identity public key, then the certificate chain (R287, R289). -/
def execIdent (s : State) : Out :=
  if !mbRuns s 7 then .next s
  else if mbLen s ≠ 0 then .next (mbResult s 2)
  else .next (mbReply s Config.identity)

/-- MAILBOX_REPLY: the reply reaches MDATA and MSTAT, GO clears and DONE sets in one step, with the MSI-X message of the device ring's vector; an unknown command is answered BADCMD (R289). -/
def execMailboxReply (s : State) : Out :=
  let c := s.ctrl
  let r : Option (Nat × List Byte × Nat) := match c.reply with
    | some x => some x
    | none => if mbCode s = 0 ∨ mbCode s > 7 then some (1, [], 0) else none
  match c.busy, r with
  | true, some (res, b, n) =>
    let m := BitVec.ofNat 64 (2 + res * 2 ^ 8 + b.length * 2 ^ 16 + n * 2 ^ 24)
    .next (sendMsix { s with ctrl := { c with mstat := m, mdata := putData c.mdata 0 b, busy := false, reply := none } } 0
      (getFn s 0).dring.vec)
  | _, _ => .next s

/-! Lifetime counters (R288). -/

/-- Adds counts to a table. -/
def addCounts (m : List (Nat × Nat)) (l : List (Nat × Nat)) : List (Nat × Nat) :=
  l.foldl (fun m p => mset m p.1 (mget 0 m p.1 + p.2)) m

/-- Stores the counters of the time since the last store. -/
def storeCounts (s : State) (extra : List (Nat × Nat)) : State :=
  { s with ctrl := { s.ctrl with nv := addCounts (addCounts s.ctrl.nv s.ctrl.live) extra, live := [], lifeAt := s.refTimer } }

/-- Seconds in a band of each die and each rail, as counts. -/
def bandTimes (temp volt : List (Nat × Nat)) (sec : Nat) : List (Nat × Nat) :=
  (temp.map fun p => (p.1 * 2 ^ 16 + p.2 % 2 ^ 16, sec)) ++ volt.map fun p => (2 ^ 32 + p.1 * 2 ^ 16 + p.2 % 2 ^ 16, sec)

/-- LIFETIME_COUNTER_UPDATE: every 600 s; `temp` gives the band of each die, `volt` that of each rail (R288). -/
def execLifetimeCounterUpdate (temp volt : List (Nat × Nat)) (s : State) : Out :=
  .next (storeCounts s (bandTimes temp volt 600))

/-- ORDERLY_POWER_DOWN: the counters are stored, with the time since the last update in the bands that the dies and rails have had in it, which are free, and the module goes off (R288, R290). -/
def execOrderlyPowerDown (s : State) : Out :=
  .next { storeCounts s (bandTimes (Config.tempBands s.tick) (Config.voltBands s.tick) ((s.refTimer - s.ctrl.lifeAt) / 1800000000)) with power := false }

/-! Clocks and power states (R290). -/

/-- The core clock changes; the part of a count that the reference timer has run keeps its length (R290). -/
def setClk (s : State) (mhz : Nat) : State := { s with clk := mhz, refRem := s.refRem * mhz / max s.clk 1 }

/-- CLOCK_THROTTLE: the core and array clocks are lowered together (R290). -/
def execClockThrottle (mhz : Nat) (s : State) : Out := .next (if 0 < mhz ∧ mhz < s.clk then setClk s mhz else s)

/-- CLOCK_RESTORE: the clocks rise again, to 1.8 GHz at most (R290). -/
def execClockRestore (mhz : Nat) (s : State) : Out := .next (if s.clk < mhz ∧ mhz ≤ 1800 then setClk s mhz else s)

/-- D3HOT_REQUEST: accepted only while every function is QUIESCED (R290). -/
def execD3hotRequest (s : State) : Out :=
  .next (if (List.range 64).all fun f => (getFn s f).quiesced then { s with d3hot := true } else s)

end Sys2Proof.Machine
end

