-- ==== Sys2Proof/Machine/EngIssue.lean ====
section
/-! DEFINITION. Group 100: the issue of engine commands (R197, R198) and the instructions beside them: LYTQ, CPSET, CPCANCEL, the tag instructions, LEASE, UNLEASE, TRLOAD, TRSEAL. -/

namespace Sys2Proof.Machine

/-! Engine commands. -/

/-- The engine rights of a domain (R81). -/
inductive EngRight where
  | emat | elyt | ecpy | ecol
deriving DecidableEq, Repr

/-- The bit of an engine right in word 1 of the descriptor (R81). -/
def EngRight.bit : EngRight → Nat
  | .emat => 8 | .elyt => 9 | .ecpy => 10 | .ecol => 11

/-- The check of an engine right of the executing domain (R83, R125). -/
def noEng (t : State) (r : EngRight) : Option FaultCode := engDenied t t.cur.vf (curSp t).dom r.bit

/-- The open lends to the executing domain, as a snapshot (R94). -/
def openLends (p : Spoke) : List Snap :=
  (List.finRange 8).filterMap fun i =>
    let l := p.lends[i]
    if l.st = .opened ∧ l.lendee = p.dom then some ⟨i, l.base, l.len, l.rw⟩ else none

/-- What an engine command names, beside what every command records. -/
structure CmdArgs where
  op : EngOp
  mods : Nat
  imm : Nat
  a : Word
  b : Word
  c : Word
  c2 : Word
  idx : List Lane

/-- What is recorded of an engine command at issue (R198). -/
def mkCmd (t : State) (d : Fin 32) (x : CmdArgs) : Cmd :=
  let k := t.cur
  let p := curSp t
  let c : Cmd :=
    { id := t.nextId, owner := curOwner t, vf := k.vf, core := k.core, reg := d, pc := k.pc, rpc := k.succ, op := x.op
      mods := x.mods, imm := x.imm, a := x.a, b := x.b, c := x.c, c2 := x.c2, cps := p.cps.toList, idx := x.idx, dom := p.dom
      snap := openLends p, st := .window, done := 0, flags := 0, errVa := 0, errAcc := 0, cancel := false, tbR := [], tbW := []
      panes := [], ovl := [], lat := none, pub := none, grp := none, xid := 0, rep := 0, wno := 0, perm := 0
      desc := [], wdesc := none, okP := [], got := [], wrote := [], out := []
      po := t.nextId, ltag := p.ltag, again := 0, keep := [], tab := [], after := [], atEnd := false, fail := none }
  { c with snap := heldSnap t c, pub := if Cmd.writesTb c then p.pub else none }

/-- A synchronous command that failed at dispatch parks nobody (R96, R202). -/
def settleSync (t : State) (id : Nat) : State :=
  let there := t.cmds.any (·.id == id) || t.tgrps.any fun g => g.2.origs.any (·.id == id)
  modCur t fun p => if p.park = .cmd id ∧ ¬ there then { p with park := .none } else p

/-- The end of an engine command's issue: it counts on its lends, its register is pending or its spoke parked, and it enters the window (R94, R197, R198). -/
def engEnd (t : State) (r : EngRight) (d : Fin 32) (x : CmdArgs) : Ending :=
  match noEng t r with
  | some f => .fail f
  | none =>
    let k := t.cur
    let c := mkCmd t d x
    let t1 := modCur (bump t) fun p => holdSnap (if d = 0 then { p with park := .cmd c.id } else p.owe d (.cmd c.id)) c.snap
    let t2 := enterWin t1 k.core k.sp k.vf c k.succ
    .done (if d = 0 then settleSync t2 c.id else t2)

/-- MLDW (R375, R376). -/
def execMldw (fmt : Fmt) (sc sp2 tr : Bool) (d : Fin 32) (q : Quad) (a b : Src) (n k : BitVec 10) (s : State) : Out :=
  .next (issue (.mldw fmt sc sp2 tr d q a b n k) s fun t =>
    engEnd t .emat d ⟨.mldw, fmt.code + sc.toNat * 16 + sp2.toNat * 32 + tr.toNat * 64, q.code + n.toNat * 16 + k.toNat * 2 ^ 14,
      src t a, src t b, 0, 0, []⟩)

/-- MMUL (R377, R378). -/
def execMmul (fmt : Fmt) (sc ovw sat : Bool) (d : Fin 32) (q : Quad) (a b c : Src) (s : State) : Out :=
  .next (issue (.mmul fmt sc ovw sat d q a b c) s fun t =>
    engEnd t .emat d ⟨.mmul, fmt.code + sc.toNat * 16 + ovw.toNat * 32 + sat.toNat * 64, q.code, src t a, src t b, src t c, 0, []⟩)

/-- MDRAIN (R373, R374). -/
def execMdrain (fmt : Fmt) (rnd : Rnd) (sat : Bool) (d : Fin 32) (q : Quad) (a b c : Src) (n : BitVec 10) (adj : BitVec 8)
    (s : State) : Out :=
  .next (issue (.mdrain fmt rnd sat d q a b c n adj) s fun t =>
    engEnd t .emat d ⟨.mdrain, fmt.code + rnd.code * 16 + sat.toNat * 64, q.code + n.toNat * 16 + adj.toNat * 2 ^ 14,
      src t a, src t b, src t c, 0, []⟩)

/-- MZERO (R381). -/
def execMzero (d : Fin 32) (q : Quad) (a b : Src) (n : BitVec 10) (s : State) : Out :=
  .next (issue (.mzero d q a b n) s fun t => engEnd t .emat d ⟨.mzero, 0, q.code + n.toNat * 16, src t a, src t b, 0, 0, []⟩)

/-- SPCMP (R396, R397). -/
def execSpcmp (fmt : Fmt) (sc : Bool) (d : Fin 32) (a b c : Src) (n k : BitVec 10) (s : State) : Out :=
  .next (issue (.spcmp fmt sc d a b c n k) s fun t =>
    engEnd t .emat d ⟨.spcmp, fmt.code + sc.toNat * 16, n.toNat * 16 + k.toNat * 2 ^ 14, src t a, src t b, src t c, 0, []⟩)

/-- LYT (R221, R369). -/
def execLyt (d : Fin 32) (a b : Src) (l : Fin 32) (s : State) : Out :=
  .next (issue (.lyt d a b l) s fun t =>
    engEnd t .elyt d ⟨.lyt, 0, 0, src t a, src t b, (curSp t).rdG l, (curSp t).rdG (l + 1), []⟩)

/-- CPGO (R225, R345). -/
def execCpgo (d : Fin 32) (s : State) : Out := .next (issue (.cpgo d) s fun t => engEnd t .ecpy d ⟨.cpgo, 0, 0, 0, 0, 0, 0, []⟩)

/-- CPGATH (R225, R345). -/
def execCpgath (d : Fin 32) (v : VSrc) (s : State) : Out :=
  .next (issue (.cpgath d v) s fun t => engEnd t .ecpy d ⟨.cpgath, 0, 0, 0, 0, 0, 0, (curSp t).v[v.reg].val.toList⟩)

/-- CPSCAT (R225, R345). -/
def execCpscat (d : Fin 32) (v : VSrc) (s : State) : Out :=
  .next (issue (.cpscat d v) s fun t => engEnd t .ecpy d ⟨.cpscat, 0, 0, 0, 0, 0, 0, (curSp t).v[v.reg].val.toList⟩)

/-- COLL (R238, R342). -/
def execColl (op : CollOp) (d : Fin 32) (a : Src) (s : State) : Out :=
  .next (issue (.coll op d a) s fun t => engEnd t .ecol d ⟨.coll, op.code, 0, src t a, 0, 0, 0, []⟩)

/-! LYTQ and CPSET. -/

/-- LYTQ (R222, R371). -/
def execLytq (d l : Fin 32) (s : State) : Out :=
  .next (issue (.lytq d l) s fun t =>
    match noEng t .elyt with
    | some f => .fail f
    | none => doneG t d (lytqWord (lword ((curSp t).rdG l) ((curSp t).rdG (l + 1)))))

/-- Writes a copy setup register (R224). -/
def setCp (t : State) (r : BitVec 3) (x : Word) : Ending := doneP t fun p => { p with cps := p.cps.set r.toNat x }

/-- CPSET from a register (R224, R348). -/
def execCpsetReg (r : BitVec 3) (a : Src) (s : State) : Out := .next (issue (.cpsetReg r a) s fun t => setCp t r (src t a))

/-- CPSET of an immediate (R224, R348). -/
def execCpsetImm (r : BitVec 3) (imm : BitVec 48) (s : State) : Out := .next (issue (.cpsetImm r imm) s fun t => setCp t r (imm64 imm))

/-! CPCANCEL (R229, R344). -/

/-- A transfer of a core's channel by its identifier. -/
def xferOf (s : State) (core v : Nat) (id : Nat) : Option Cmd :=
  s.cmds.find? fun c => c.op.isCopy && c.core == core && c.vf == v && c.xid == id && c.xid != 0

/-- A transfer has made its last write, and neither a failure nor a cancellation has come before it: it is at its end, or every byte is written, and visible unless it is parked on its barrier. -/
def lastWritten (c : Cmd) : Bool :=
  !c.cancel && c.fail.isNone
    && (c.atEnd || (decide (c.bytes ≥ c.total) && (c.st == .parked || (c.st == .running && c.out.isEmpty))))

/-- A transfer in flight is asked to stop: a parked one leaves its fault waiter, one that waits for panes its request. -/
def cancelXfer (s : State) (c : Cmd) : State :=
  let s1 := leaveCmd { s with paneReqs := s.paneReqs.filter (·.cmd != some c.id) } c.core c.id
  setCmd s1 { c with cancel := true, st := if c.st = .parked then .running else if c.st = .aside then .queued else c.st }

/-- CPCANCEL (R229, R344). A transfer that has completed in error or by cancellation, or whose transfer belonged to another domain, answers DONE as one that completed normally does, and one that has failed and waits only for its barrier's page answers 0 and completes in error (DESIGN CHOICE, log 78). -/
def execCpcancel (d : Fin 32) (a : Src) (s : State) : Out :=
  .next (issue (.cpcancel d a) s fun t =>
    let k := t.cur
    let id := (src t a).toNat
    match noEng t .ecpy with
    | some f => .fail f
    | none =>
    if id = 0 ∨ id ≥ (getCtx t k.core k.vf).nextXid then doneG t d 2
    else match xferOf t k.core k.vf id with
      | none => doneG t d 1
      | some c =>
        if c.dom ≠ (curSp t).dom then doneG t d 3
        else if lastWritten c then doneG t d 1
        else doneG (if c.cancel || c.fail.isSome then t else cancelXfer t c) d 0)

/-! Tags (R233, R406). -/

/-- WAITANY (R233, R406). -/
def execWaitany (d : Fin 32) (a : Src) (s : State) : Out :=
  .next (issue (.waitany d a) s fun t =>
    let m := src t a
    let x := getCtx t t.cur.core t.cur.vf
    if m = 0 then .fail .illegalField
    else if x.tags &&& m = 0 then doneP t fun p => { p with park := .tagAny d m }
    else let y := takeTag x m; doneG (setCtx t t.cur.core t.cur.vf y.2) d y.1)

/-- WAITALL (R233, R406). -/
def execWaitall (a : Src) (s : State) : Out :=
  .next (issue (.waitall a) s fun t =>
    let m := src t a
    let x := getCtx t t.cur.core t.cur.vf
    if m = 0 then .fail .illegalField
    else if x.tags &&& m ≠ m then doneP t fun p => { p with park := .tagAll m }
    else .done (setCtx t t.cur.core t.cur.vf { x with tags := x.tags &&& ~~~m }))

/-- TAGFF (R233, R406). -/
def execTagff (d : Fin 32) (a : Src) (s : State) : Out :=
  .next (issue (.tagff d a) s fun t =>
    let x := getCtx t t.cur.core t.cur.vf
    doneG t d (if x.tags &&& src t a = 0 then BitVec.allOnes 64 else (takeTag x (src t a)).1))

/-- TAGCLR (R233, R406). -/
def execTagclr (a : Src) (s : State) : Out :=
  .next (issue (.tagclr a) s fun t =>
    let m := src t a
    .done (modCtx t t.cur.core t.cur.vf fun x => { x with tags := x.tags &&& ~~~m, tagerr := x.tagerr &&& ~~~m }))

/-! Leases (R237, R282). -/

/-- What LEASE answers when no engine is given (R237, R286). -/
def leaseNone : Word := 0x8000000000000016

/-- LEASE (R237, R365). -/
def execLease (d : Fin 32) (a : Src) (s : State) : Out :=
  .next (issue (.lease d a) s fun t =>
    let x := src t a
    let n := fieldN x 0 21
    if fieldN x 21 43 ≠ 0 ∨ n = 0 ∨ n > 1800000 then .fail .illegalField
    else match noEng t .ecol with
    | some f => .fail f
    | none =>
    if !feature t t.cur.vf 5 then doneG t d leaseNone
    else
      let r : LeaseReq := ⟨t.nextId, curOwner t, d, t.cur.vf, n⟩
      doneP { bump t with leaseReqs := t.leaseReqs ++ [r] } fun p => p.owe d (.lease r.id))

/-- UNLEASE gives its engine back when the collectives on the lease are over; from its issue on the handle is current no more (R237, R415). -/
def unleaseWait (t : State) (eng : Nat) (gen : BitVec 32) : State :=
  let t0 := modCur t fun p => { p with park := .none }
  if !leaseIs t t.cur.vf eng gen || (getEngine t eng).back then t0
  else if collOn t t.cur.vf eng gen then modCur (setBack t eng true) fun p => { p with park := .wait (.unlease eng gen) }
  else returnEngine t0 eng

/-- UNLEASE (R237, R415). -/
def execUnlease (a : Src) (s : State) : Out :=
  .next (issue (.unlease a) s fun t =>
    let h := src t a
    if fieldN h 4 12 ≠ 0 ∨ fieldN h 48 16 ≠ 0 then .fail .illegalField
    else match noEng t .ecol with
    | some f => .fail f
    | none => .done (unleaseWait t (fieldN h 0 4) (BitVec.ofNat 32 (fieldN h 16 32))))

/-! TRLOAD and TRSEAL (R214, R215). -/

/-- The first page of a rule image whose path or target type is not admitted (R214 check 4): HBM only. -/
def trPath (t : State) (ps : List (Nat × Nat)) : Option Word :=
  (ps.find? fun p => let va := BitVec.ofNat 64 p.1
    match transl t t.cur.vf (p.1 % 2 ^ 57) with
    | .leaf e bits => placeBad t t.cur.vf va e (placeOf t.cur.core va e bits) (· == 0)
    | _ => false).map fun p => BitVec.ofNat 64 p.1

/-- The places of the pages of a rule image (R214 check 5). -/
def trPages (t : State) : List (Nat × Nat) → Except FErr (List (Res × Nat × Nat))
  | [] => .ok []
  | p :: r =>
    match resolve t t.cur.core t.cur.vf (BitVec.ofNat 64 p.1) (some false) 1 (· == 0) with
    | .error e => .error e
    | .ok x => (trPages t r).map ((x, p) :: ·)

/-- READ over the pages of a rule image (R214 check 6). -/
def trRights (t : State) : List (Res × Nat × Nat) → Except FErr Unit
  | [] => .ok ()
  | (x, p) :: r =>
    match rightsOk t t.cur.vf (curSp t).dom (curSp t).lends.toList (BitVec.ofNat 64 p.1) p.2 false (pteDT x.leaf) with
    | .error f => .error (errAt f (BitVec.ofNat 64 p.1) 1)
    | .ok _ => trRights t r

/-- Reads bytes one by one, through the read cache on the read-only path (R112). -/
def readBytes (t : State) (ro : Bool) (l : Loc) : Nat → State × List Byte
  | 0 => (t, [])
  | n + 1 =>
    let x := getElem1 t (tileOf t.cur.core) t.cur.vf 1 ro l
    let y := readBytes x.1 ro (l.plus 1) n
    (y.1, BitVec.ofNat 8 x.2 :: y.2)

/-- The bytes of a rule image, page by page. -/
def trBytes (t : State) (ro : Bool) : List (Res × Nat × Nat) → State × List Byte
  | [] => (t, [])
  | (x, p) :: r =>
    let y := readBytes (flushAt t x.loc p.2) ro x.loc p.2
    let z := trBytes y.1 ro r
    (z.1, y.2 ++ z.2)

/-- Replaces rules from number `f` in the table of a half tile (R203, R214). -/
def putRules (s : State) (core f : Nat) (rs : List (BitVec 256)) : State :=
  let h := halfOf core
  let x := getHalf s h
  setHalf s h { x with trowel := rs.zipIdx.foldl (fun m p => mput 0 m (f + p.2) p.1) x.trowel }

/-- TRLOAD (R214, R413). Its loads and the change of the table are one instant, at its issue (DESIGN CHOICE, logs 5 and 94: the spec does not say when the loads are performed). -/
def execTrload (a b : Src) (s : State) : Out :=
  .next (issue (.trload a b) s fun t =>
    let va := src t a
    let x := src t b
    let f := fieldN x 0 6
    let n := fieldN x 6 7
    if (curSp t).dom ≠ kernelDom then .fail .stateRight
    else if n = 0 ∨ f + n > 64 ∨ fieldN x 13 51 ≠ 0 then .fail .illegalField
    else if va.toNat % 32 ≠ 0 then .err .align va 1
    else if pathBad va ∨ pathOf va > 1 ∨ fieldN (va + BitVec.ofNat 64 (32 * n - 1)) 57 7 ≠ fieldN va 57 7 then .err .path va 1
    else match trPath t (pageParts va.toNat (32 * n)) with
    | some x => .err .path x 1
    | none => match trPages t (pageParts va.toNat (32 * n)) with
      | .error e => Ending.ofErr e
      | .ok ps =>
        match trRights t ps with
        | .error e => Ending.ofErr e
        | .ok _ =>
          let t1 := ps.foldl (fun t x => noteAcc t (BitVec.ofNat 64 x.2.1) x.1) t
          let y := trBytes t1 (pathOf va == 1) ps
          let rs := (splitWords 32 n y.2).map (BitVec.ofNat 256 ·)
          if rs.all ruleOk then .done (putRules y.1 t.cur.core f rs) else .err .illegalField va 1)

/-- TRSEAL (R215, R414): the window is sealed before it (R199). -/
def execTrseal (s : State) : Out := .next (issue .trseal s fun t => .done t)

end Sys2Proof.Machine
end

