-- ==== Sys2Proof/Machine/Slice.lean ====
section
/-! DEFINITION. Slice changes (R273, R278 to R280, R282). -/

namespace Sys2Proof.Machine

/-- The cores of a half tile that are not service cores (R279, R280). -/
def halfCores (s : State) (h : Nat) : List Nat :=
  ((List.range 8).map fun i => 16 * (h / 2) + 8 * (h % 2) + i).filter fun c => !isSvc s c

/-! Stopping (R45, R273). -/

/-- Stops a spoke for a slice end, unless its stop is already requested. -/
def sliceStop (c v : Nat) (s : State) (n : Nat) : State :=
  let p := getSp s c n v
  if p.ctx = .live ∧ ¬ p.stopReq then
    modCtx (requestStop s c n v) c v fun x => { x with slice := x.slice ++ [n] }
  else s

/-- Stops the spokes of a VF on a half tile, 1 to 15 of each core: the hub spoke serves every VF of its core and runs on (DESIGN CHOICE, log 109: R273 stops each core and does not name it). -/
def stopHalf (s : State) (h v : Nat) : State :=
  (halfCores s h).foldl (fun s c => ((List.range 15).map (· + 1)).foldl (sliceStop c v) s) s

/-- Whether a byte of the scratchpads belongs to a half tile's image (R280). -/
def scrIn (s : State) (h a : Nat) : Bool := decide (a / 65536 < Config.numCores) && halfOf (a / 65536) == h && !isSvc s (a / 65536)

/-- Whether a byte of the tile buffers belongs to a half tile's image (R280). -/
def tbIn (h a : Nat) : Bool := a / 2 ^ 21 == h / 2 && tbHalf (a % 2 ^ 21) == h % 2

/-- Whether tile-buffer ranges reach a half tile. -/
def rangesIn (h : Nat) (rs : List (Nat × Nat)) : Bool := rs.any fun r => (List.range r.2).any fun i => tbIn h (r.1 + i)

/-- Whether a page of a command's operands lies in the scratchpads of a half tile. -/
def reachesScr (s : State) (c : Cmd) (h : Nat) : Bool :=
  (c.opnds s).any fun o => (pageParts o.lo.toNat o.len).any fun p =>
    match transl s c.vf (p.1 % 2 ^ 57) with
    | .leaf e bits => let l := placeOf c.core (BitVec.ofNat 64 p.1) e bits; l.sp == .scr && scrIn s h l.a
    | _ => false

/-- Whether a dispatched command of a VF works on a half tile (R273): on its quadrants, its core, its buffers or its scratchpads. -/
def onHalf (s : State) (v h : Nat) (c : Cmd) : Bool :=
  c.vf == v && !c.held && c.op != .coll &&
    ((c.op.isMatrix && tileOf c.core == h / 2 && (quadsOf c.quad).any fun q => q / 2 == h % 2)
      || (!c.op.isCopy && halfOf c.core == h) || rangesIn h (c.tbR ++ c.tbW) || (c.op.isCopy && reachesScr s c h))

/-- Whether the outgoing VF has left a half tile: no spoke of its cores is live, its commands have completed (R273). -/
def halfIdle (s : State) (v h : Nat) : Bool :=
  (halfCores s h).all (fun c => ((List.range 15).map (· + 1)).all fun n => (getSp s c n v).ctx != .live)
    && !s.cmds.any (onHalf s v h)

/-! Windows and shares (R255). -/

/-- Counts of the reference timer in a window: 1 ms (R255). -/
def window : Nat := 1800000

/-- The shortest slice, in counts (R255). -/
def minSlice : Nat := 115200

/-- Whether a VF has work: a population, or a queue that is active (R255). -/
def hasWork (s : State) (v : Nat) : Bool := s.pops.any (·.2.vf == v) || s.queues.any fun q => q.1 / 256 == v && q.2.active

/-- What the share of a VF makes of a window, in counts (R255). -/
def shareOf (s : State) (v : Nat) : Nat := fieldN (getFn s v).ctlAct.sched 0 9 * window / 256

/-- The counts for which each VF is still to be resident on a half tile in the window that runs: at its beginning the share of each VF that has work (R255). -/
def dueNow (s : State) (h : Nat) : List (Nat × Nat) :=
  let x := getHalf s h
  let start := s.refTimer / window * window
  let base := if x.since / window = s.refTimer / window then x.due
    else ((List.range 63).map (· + 1)).filterMap fun v => if inHalves s v h && hasWork s v then some (v, shareOf s v) else none
  base.map fun p => if p.1 = x.vf then (p.1, p.2 - (s.refTimer - max x.since start)) else p

/-- Whether the slice of a half tile has had its shortest length, or ends with its window (R255). -/
def sliceOver (s : State) (h : Nat) : Bool :=
  let x := getHalf s h
  x.vf == 0 || decide (s.refTimer - x.since ≥ minSlice) || (x.since / window != s.refTimer / window && s.refWas / window != s.refTimer / window)

/-- Whether the scheduler may end the slice of a half tile now and let a VF in (R255): the slice is over, and the shares that are due still fit into the rest of the window behind the shortest slice of the VF. -/
def sliceOk (s : State) (h vin : Nat) : Bool :=
  let left := window - s.refTimer % window
  let due := dueNow s h
  let others := ((due.filter fun p => p.1 != vin).map (·.2)).sum
  sliceOver s h && (vin == 0 || decide (others + max (mget 0 due vin) (min minSlice left) ≤ left) || others == 0)

/-! Tile images and saved cores (R273, R280). -/

/-- Adds the cells of an image to a memory. -/
def loadMem (m img : Mem) : Mem := img.foldl (fun m p => wr m p.1 p.2) m

/-- The byte ranges of a half tile's buffers, as tile-buffer places (R280). -/
def tbRanges (h : Nat) : List (Nat × Nat) :=
  let t := h / 2 * 2 ^ 21
  let i := h % 2
  [(t + i * 0x040000, 0x040000), (t + 0x080000 + i * 0x080000, 0x080000), (t + 0x180000 + i * 0x040000, 0x040000)]

/-- What is loaded from a save area that software has altered: free bytes and free presence bits (log 12). -/
def alteredImage (s : State) (h : Nat) : TileImg :=
  let b (a : Nat) : Byte := Config.saveByte s.nextId (2 ^ 22 + a)
  { TileImg.none with
    scr := (halfCores s h).foldl (fun m c => fillMem m (c * 65536) 65536 fun i => b (c * 65536 + i)) []
    full := ((halfCores s h).flatMap fun c => (List.range 8192).map fun i => c * 8192 + i).filterMap fun w =>
      if (b (2 ^ 30 + w)).toNat % 2 = 1 then some (w, true) else none
    tb := (tbRanges h).foldl (fun m r => fillMem m r.1 r.2 fun i => b (r.1 + i)) [] }

/-- The spill engine saves the outgoing VF's tile image and loads the incoming one's, or zeros where there is none (R280). -/
def swapImage (s : State) (h out vin : Nat) : State :=
  let img : TileImg :=
    ⟨s.scr.filter fun p => scrIn s h p.1, s.full.filter fun p => scrIn s h (8 * p.1), s.tb.filter fun p => tbIn h p.1,
      (getFn s out).ctlAct.saveoff, []⟩
  let new := if slotGood s vin h 0 then mget TileImg.none s.savedImg (vin * 65536 + h) else alteredImage s h
  let kept := if out = 0 then s.savedImg else mset s.savedImg (out * 65536 + h) img
  { bump s with
    scr := loadMem (s.scr.filter fun p => !scrIn s h p.1) new.scr
    full := new.full.foldl (fun m p => mput false m p.1 p.2) (s.full.filter fun p => !scrIn s h (8 * p.1))
    tb := loadMem (s.tb.filter fun p => !tbIn h p.1) new.tb
    savedImg := mdel kept (vin * 65536 + h) }

/-- A core's state as it is restored from a save area of which software has altered some slots: of its own slot TAGS and TAGERR, of a spoke's the values of its registers are free (DESIGN CHOICE, log 12). -/
def alteredCtx (n : Nat) (good : Nat → Bool) (x : CoreCtx) : CoreCtx :=
  let w (i : Nat) : Word := Config.freeWord (2 ^ 40 * (n + 1) + i)
  { x with
    tags := if good 0 then x.tags else w 0
    tagerr := if good 0 then x.tagerr else w 1
    spokes := x.spokes.map fun p =>
      if good p.1 then p
      else (p.1, { p.2 with
        g := Vector.ofFn fun r => { p.2.g[r] with val := w (2 ^ 10 * (p.1 + 1) + r.val) }
        v := Vector.ofFn fun r => { p.2.v[r] with
          val := Vector.ofFn fun l => (w (2 ^ 10 * (p.1 + 1) + 32 + 32 * r.val + l.val)).truncate 32 } }) }

/-- A core passes from one VF to another: the outgoing context is kept for its return, the incoming one restored (R273). -/
def swapCore (out vin : Nat) (s : State) (c : Nat) : State :=
  let x := (getCore s c).ctx
  let new := alteredCtx (s.nextId + c) (fun n => slotGood s vin (halfOf c) (coreSlot c n)) (mget CoreCtx.reset s.saved (vin * 65536 + c))
  let kept := if out = 0 then s.saved else mset s.saved (out * 65536 + c) x
  { setCore s c { getCore s c with ctx := new } with saved := mdel kept (vin * 65536 + c) }

/-- The save area of the VF that has left a half tile takes its tile image and its cores' own state (R273, R280). -/
def saveHalf (s : State) (v h : Nat) : State :=
  if v = 0 then s else (0 :: (halfCores s h).map fun c => coreSlot c 0).foldl (fun s k => saveSlot s v h k) s

/-- The spokes that a VF brings back to a core need their contexts (R48). -/
def needCtxs (v : Nat) (s : State) (c : Nat) : State :=
  ((List.range 15).map (· + 1)).foldl (fun s n => if (getSp s c n v).ctx == .free then s else makeRoom s c n v) s

/-- Clears the latches and latch records of a half tile, and its trowel table returns to the default (R181, R203, R273). -/
def clearHalf (s : State) (h : Nat) : State :=
  let mine (k : Nat) : Bool := k / 4 == h / 2 && k % 4 / 2 == h % 2
  { s with latches := s.latches.filter (fun p => !mine p.1), recs := s.recs.filter fun p => !mine p.1 }

/-- The spokes that the last slice end stopped run again (R50, R273). -/
def resumeCore (v : Nat) (s : State) (c : Nat) : State :=
  let ns := (getCtx s c v).slice
  let s1 := modCtx s c v fun x => { x with slice := [] }
  ns.foldl (fun s n => serveTag (modSp s c n v resumed) c v n) s1

/-! The control block (R278, R280, R282). -/

/-- A half tile that leaves the HALVES of the VF resident on it is vacated as at a slice end: its spokes stop, and SLICE_END makes it pass once they and the commands have (R273, R279). -/
def vacate (s : State) (v h : Nat) : State := stopHalf (setHalf s h { getHalf s h with next := some 0, vac := true }) h v

/-- The block as written takes effect at a slice start (R278). -/
def takeBlock (s : State) (v : Nat) : State :=
  let s1 := modFn s v fun f => { f with ctlAct := f.ctlNew }
  let mine (h : Nat) : Bool := (getHalf s1 h).vf == v
  let left := ((s1.halves.map (·.1)).filter fun h => !inHalves s1 v h && mine h)
  loseLeases (left.foldl (fun s h => vacate s v h) (forgetHalves s1 v fun h => !inHalves s1 v h && !mine h)) v

/-- Whether a half tile may pass to a VF: in the HALVES that its slice has or will have; to none where the resident VF's block gives the half up. -/
def mayEnter (s : State) (h out v : Nat) : Bool :=
  if v = 0 then out != 0 && (!bitN (getFn s out).ctlNew.halves h || vacating s h)
  else if isResident s v && v != out then inHalves s v h else bitN (getFn s v).ctlNew.halves h

/-- The half tile passes to the incoming VF; what the outgoing VF's spokes have still under way has reached its bank first. -/
def passHalf (s00 : State) (h out vin : Nat) : State :=
  let due := dueNow s00 h
  let s0 := (halfCores s00 h).foldl heldOut s00
  let s := if out = 0 then s0 else drainVf s0 out
  let s1 := clearHalf (saveHalf (swapImage ((halfCores s h).foldl (swapCore out vin) s) h out vin) out h) h
  let s2 := setHalf s1 h ⟨vin, defaultTrowel, none, s.refTimer, due, false⟩
  let s3 := if out = 0 then s2 else emptyBlock (if inHalves s2 out h then s2 else forgetHalves s2 out (· == h)) out
  (halfCores s3 h).foldl (resumeCore vin) ((halfCores s3 h).foldl (needCtxs vin) s3)

/-- The VF that has to come in on a half tile now, since the shares due to the VFs that are out leave no more than a shortest slice of the window (R255); where one can come in with the others' shares still met, the first such. -/
def sliceMust (s : State) (h : Nat) : Option Nat :=
  let x := getHalf s h
  let due := (dueNow s h).filter fun p => p.1 != x.vf && decide (0 < p.2)
  if due.isEmpty || decide ((due.map (·.2)).sum + minSlice < window - s.refTimer % window) || !sliceOver s h then none
  else
    let ready := due.filter fun p => mayEnter s h x.vf p.1
    ((ready.find? fun p => sliceOk s h p.1).or ready.head?).map (·.1)

/-- SLICE_END: the slice of the VF on a half tile ends, where the shares allow it, and VF `vf` is to come in (R255, R273, R279, R280); 0 leaves the half without a VF. The spokes stop; once they and the commands have, the half passes. The same VF begins a new slice at once; a half that its new block gives up is vacated. -/
def execSliceEnd (half vf : Nat) (s : State) : Out :=
  let out := (getHalf s half).vf
  if half ≥ 768 ∨ vf > 63 ∨ (vf ≠ out ∧ ¬ mayEnter s half out vf) ∨ ((getHalf s half).next ≠ some vf ∧ ¬ sliceOk s half vf ∧ sliceMust s half ≠ some vf) then .next s
  else if vf = out then
    if vf = 0 then .next s
    else
      let due := dueNow s half
      let s0 := takeBlock s vf
      if !inHalves s0 vf half then .next s0
      else
        let s1 := setHalf s0 half { getHalf s0 half with next := none, since := s.refTimer, due := due, vac := false }
        .next ((halfCores s1 half).foldl (resumeCore vf) s1)
  else
    let s1 := setHalf s half { getHalf s half with next := some vf }
    let s2 := if out = 0 then s1 else stopHalf s1 half out
    if out ≠ 0 ∧ ¬ halfIdle s2 out half then .next s2
    else
      let s3 := if vf ≠ 0 ∧ ¬ isResident s2 vf then takeBlock s2 vf else s2
      .next (passHalf s3 half out vf)

/-- A slice change that has to come about on the half tile of a core: one under way whose outgoing VF has come to rest, or one that the shares due to other VFs call for (R255, log 56). -/
def sliceForced (s : State) (c : Nat) : Option Nat :=
  let h := halfOf c
  let x := getHalf s h
  if isSvc s c then none
  else match x.next with
    | some v => if v ≠ x.vf ∧ halfIdle s x.vf h then some v else none
    | none => sliceMust s h
end Sys2Proof.Machine
end

