-- ==== Sys2Proof/Machine/Reset.lean ====
section
/-! DEFINITION. Resets (R242, R258, R274, R275, R286, R290): function-level reset, warm restart, device reset, power-on. -/

namespace Sys2Proof.Machine

/-- A function enters QUIESCED: its features are to be negotiated again (R275, R286). -/
def quiesce (f : Fn) : Fn := { f with featdrv := 0, quiesced := true }

/-- The packets, graphs and queues of a VF go, with no CSIG written; every queue is held as disabled (R242, R274). -/
def clearQueues (s : State) (v : Nat) : State :=
  let mine (p : Pkt) : Bool := (srcQueue s p.src).1 == v
  { s with
    pkts := s.pkts.filter fun p => !mine p
    graphs := s.graphs.filter fun g => g.2.vf != v
    queues := s.queues.filter fun q => q.1 / 256 != v
    lastQ := s.lastQ.filter fun q => q.1 / 8 != v }

/-- Frees the fault waiters that a test names (R274, R275). A hub spoke or a lone spoke that one held stays parked, and no later WAKE names it (DESIGN CHOICE, log 113: the spec does not say what becomes of it). -/
def freeWaiters (s : State) (p : Waiter → Bool) : State :=
  (s.cores.map (·.1)).foldl (fun s c => (List.range 64).foldl (fun s i =>
    match (getSlot s c i).w with
    | some w => if p w then freeSlot s c i else s
    | none => s) s) s

/-- KillPopulation for a function-level reset (R266, R274); the code of the record is left open by the spec. -/
def flrPop (v : Nat) (s : State) (tag : Nat) : State :=
  match getPop s v tag with
  | none => s
  | some p =>
    let s1 := killMembers (postTerm s v (termRec ((Config.freeWord (s.tick + tag)).toNat % 256) 0 0 0 0 0)) v tag
    let q := srcQueue s1 p.src
    queueErr s1 q.1 q.2 popKilled false

/-- FUNCTION_LEVEL_RESET of a VF: its populations are killed, no CSIG is written, its fault waiters are freed, it is QUIESCED (R242, R274, R286). -/
def execFunctionLevelReset (vf : Nat) (s : State) : Out :=
  if vf = 0 ∨ vf > 63 then .next s
  else
    let tags := (s.pops.filter fun p => p.2.vf == vf).map fun p => p.2.tag
    let s1 := clearQueues (tags.foldl (flrPop vf) s) vf
    let s2 := tags.foldl (fun s t => dropPop s vf t) s1
    .next (modFn (freeWaiters s2 fun w => w.vf == vf) vf quiesce)

/-- Discards the members of a population wherever they stand (R275): none is resumable, none is to be reaped. -/
def discardPop (s : State) (v tag : Nat) : State :=
  let s1 := killMembers s v tag
  (coresOf s1 v).foldl (fun s c => (List.range 16).foldl (fun s n =>
    if n ≠ 0 ∧ (getSp s c n v).ltag = tag then setSp s c n v Spoke.reset else s) s) s1

/-- Forgets every translation to a host page (R275). -/
def dropHost (f : Fn) : Fn := { f with tlb := f.tlb.filter fun e => pteTT e.leaf != 1 }

/-- The peer devices with a connection, once each. -/
def boundPeers (s : State) : List Nat := (s.binds.map fun p => p.1 % 1024).dedup

/-- WARM_RESTART: populations discarded, queues disabled, host entries invalidated, fault waiters freed, connections torn down with a reset notice to each peer, every function QUIESCED; HBM is kept unless a scrub was asked for (R275, R286). -/
def execWarmRestart (scrub : Bool) (s : State) : Out :=
  let s1 := s.pops.foldl (fun s p => discardPop s p.2.vf p.2.tag) s
  let s2 := freeWaiters s1 fun _ => true
  let s3 := s2.cxl.foldl dropHostLine s2
  let s4 := { endBinds s3 fun _ => true with
    pops := [], grps := [], pkts := [], graphs := [], queues := [], lastQ := [], ats := [], cxl := []
    notices := s3.notices ++ boundPeers s3
    orphans := s3.orphans.filter fun x => !x.req.accs.any (·.loc.far)
    fns := s3.fns.map fun p => (p.1, quiesce (dropHost p.2)) }
  .next (if scrub then { s4 with hbm := [] } else s4)

/-- What no reset of the device touches: the memories outside, non-volatile storage, the schedule; `hbm` says whether HBM is kept. The time that a band has gathered since the last store of the counters is lost with the timer (DESIGN CHOICE, log 100: R288 does not say). -/
def afterReset (s : State) (hbm : Bool) (port : BitVec 2) : State :=
  let c := s.ctrl
  { State.reset with
    tick := s.tick, agenda := s.agenda, nextId := s.nextId
    host := s.host, peer := s.peer, hbm := if hbm then s.hbm else []
    ctrl := { Ctrl.reset with
      svcMask := c.svcNext.getD c.svcMask, port := port, portNext := c.portNext
      fw := if hbm then c.fw else [], live := if hbm then c.live else [], nv := c.nv, hour0 := hourNow s + 1 } }

/-- DEVICE_RESET: every register at its reset value, the service mask that was set takes effect (R242, R258, R282, R286). -/
def execDeviceReset (s : State) : Out := .next (afterReset s true s.ctrl.port)

/-- POWER_ON: the device comes up QUIESCED with the port setting and the service mask that were set (R258, R283, R290). -/
def execPowerOn (s : State) : Out := .next (afterReset s false s.ctrl.portNext)

end Sys2Proof.Machine
end

