-- ==== Sys2Proof/Machine/Sync.lean ====
section
/-! DEFINITION. Group 011 but for messages and spoke control: groups (R39), arrival barriers (R41, R331), semaphores and timelines (R250, R251), PTEST (R386), CANCEL (R337), lends (R366, R416) and DOMQ (R352). -/

namespace Sys2Proof.Machine

/-! Groups (R39, R356). -/

/-- Marks a slot of the issuing spoke as arrived, with the park given, and makes the arrival (R39). -/
def arriveIn (t : State) (i : Fin 4) (g : Nat) (k : Park) : State :=
  let tag := (curSp t).ltag
  let t1 := modCur t fun p => { p with gslots := p.gslots.set i { p.gslots[i] with arrived := true }, park := k }
  grpArrive t1 t.cur.vf tag g

/-- GBAR (R39). -/
def execGbar (g : BitVec 8) (s : State) : Out :=
  .next (issue (.gbar g) s fun t =>
    match slotOfGrp (curSp t) (curSp t).ltag g.toNat with
    | none => .fail .illegalField
    | some i =>
      if (curSp t).gslots[i].arrived then doneP t fun p => { p with park := .group i false }
      else .done (arriveIn t i g.toNat (.group i false)))

/-- GARRIVE (R39). -/
def execGarrive (g : BitVec 8) (s : State) : Out :=
  .next (issue (.garrive g) s fun t =>
    match slotOfGrp (curSp t) (curSp t).ltag g.toNat with
    | none => .fail .illegalField
    | some i =>
      if (curSp t).gslots[i].arrived then doneP t fun p => { p with park := .group i true }
      else .done (arriveIn t i g.toNat .none))

/-! Arrival barriers (R41, R331, R332). -/

/-- Whether an address names the scratchpad of a core of another tile (R41). -/
def otherTile (t : State) (va : Word) : Bool :=
  match transl t t.cur.vf (va.toNat % 2 ^ 57) with
  | .leaf e bits =>
    let l := placeOf t.cur.core va e bits
    l.sp == .scr && tileOf (l.a / 65536) != tileOf t.cur.core
  | _ => false

/-- The checks of a barrier object, in the order of R332. -/
def barCheck (t : State) (va : Word) (w : Bool) : Except FErr Res :=
  let acc := if w then 2 else 1
  if pathBad va ∨ pathOf va ≠ 3 ∨ otherTile t va then .error (errAt .path va acc)
  else scalar t va 16 w acc [3]

/-- BARINIT (R331). -/
def execBarinit (b a n : Src) (s : State) : Out :=
  .next (issue (.barinit b a n) s fun t =>
    match barCheck t (src t b) true with
    | .error e => Ending.ofErr e
    | .ok r =>
      let x := (src t a).toNat % 2 ^ 32
      if x = 0 then .fail .illegalField
      else .done (wrN (flushAt (noteAcc t (src t b) r) r.loc 16) r.loc 16 (x + (src t n).toNat % 2 ^ 32 * 2 ^ 32)))

/-- BARARR (R331). -/
def execBararr (b n : Src) (s : State) : Out :=
  .next (issue (.bararr b n) s fun t =>
    match barCheck t (src t b) true with
    | .error e => Ending.ofErr e
    | .ok r => .done (barArrive (flushAt (noteAcc t (src t b) r) r.loc 16) r.loc ((src t n).toNat % 2 ^ 32)))

/-- BARWAIT (R42, R331). -/
def execBarwait (b p : Src) (s : State) : Out :=
  .next (issue (.barwait b p) s fun t =>
    match barCheck t (src t b) false with
    | .error e => Ending.ofErr e
    | .ok r =>
      let t1 := flushAt (noteAcc t (src t b) r) r.loc 16
      if rdN t1 (r.loc.plus 8) 4 / 2 ^ 31 ≠ (src t p).toNat % 2 then .done t1 else .done (bankPark t1 r.loc .bar))

/-! Semaphores and timelines (R250 to R252, R394, R409). -/

/-- The checks of a signal: an 8-byte access, path 0b000 with TT 0 or path 0b011 (R252). -/
def signalCheck (t : State) (va : Word) (w : Bool) : Except FErr Res :=
  let acc := if w then 2 else 1
  match scalarPre va 8 acc [0, 3] with
  | some e => .error e
  | none => mapped t t.cur.core t.cur.vf (curSp t).dom (curSp t).lends.toList va 8 w acc fun tt => tt == 0 || tt == 2

/-- SIGNAL_UNDERFLOW and SIGNAL_RANGE of R244. -/
def sigUnderflow : Nat := 0x20

/-- SIGNAL_RANGE. -/
def sigRange : Nat := 0x25

/-- Records a signal error of a spoke: in the error word of its population's queue, or as a device-ring record (R250). -/
def signalErr (t : State) (va : Word) (code : Nat) : State :=
  let p := curSp t
  match (if p.ltag = 0 then none else getPop t t.cur.vf p.ltag) with
  | some q => let x := srcQueue t q.src; queueErr t x.1 x.2 code false
  | none => postDev t (termRec code va t.cur.pc 0 p.dom 0)

/-- SEMSIG (R250, R394). -/
def execSemsig (a b : Src) (s : State) : Out :=
  .next (issue (.semsig a b) s fun t =>
    match signalCheck t (src t a) true with
    | .error e => Ending.ofErr e
    | .ok r =>
      let x := semAdd (flushAt (noteAcc t (src t a) r) r.loc 8) r.loc (src t b).toInt
      let t1 := if x.2.1 then signalErr x.1 (src t a) sigUnderflow else x.1
      .done (if x.2.2 then signalErr t1 (src t a) sigRange else t1))

/-- SEMWAIT (R250, R394). -/
def execSemwait (c : SemCond) (d : Fin 32) (a b : Src) (s : State) : Out :=
  .next (issue (.semwait c d a b) s fun t =>
    match signalCheck t (src t a) false with
    | .error e => Ending.ofErr e
    | .ok r =>
      let t1 := flushAt (noteAcc t (src t a) r) r.loc 8
      let v := BitVec.ofNat 64 (rdN t1 r.loc 8)
      if semHolds c v (src t b) then doneG t1 d v else .done (bankPark t1 r.loc (.sem c d (src t b))))

/-- TLSIG (R251, R409). -/
def execTlsig (a b : Src) (s : State) : Out :=
  .next (issue (.tlsig a b) s fun t =>
    match signalCheck t (src t a) true with
    | .error e => Ending.ofErr e
    | .ok r =>
      match tlSet (flushAt (noteAcc t (src t a) r) r.loc 8) r.loc (src t b) with
      | .error f => .err f (src t a) 2
      | .ok t1 => .done t1)

/-- TLWAIT (R251, R410). -/
def execTlwait (d : Fin 32) (a b : Src) (s : State) : Out :=
  .next (issue (.tlwait d a b) s fun t =>
    match signalCheck t (src t a) false with
    | .error e => Ending.ofErr e
    | .ok r =>
      let t1 := flushAt (noteAcc t (src t a) r) r.loc 8
      let v := BitVec.ofNat 64 (rdN t1 r.loc 8)
      if (src t b).toNat ≤ v.toNat then doneG t1 d v else .done (bankPark t1 r.loc (.tl d (src t b))))

/-! Presence and cancellation. -/

/-- The answer of PTEST (R386). -/
def ptestWord (p : Spoke) (r : Reg) : Word := if p.fullR r then 1 else if p.pendR r ≠ .no then 2 else 0

/-- PTEST (R386). -/
def execPtest (d : Fin 32) (v : Bool) (r : Fin 32) (s : State) : Out :=
  .next (issue (.ptest d v r) s fun t =>
    doneG t d (ptestWord (curSp t) (if v then .v ⟨r.val % 8, by omega⟩ else .g r)))

/-- A matrix or layout command is stopped and completes by cancellation (R338): one that runs stops at a row or element boundary that is free, and what it held back dispatches. -/
def cancelCmd (s : State) (c : Cmd) : State :=
  let s1 := leaveCmd { s with paneReqs := s.paneReqs.filter (·.cmd != some c.id) } c.core c.id
  let x := if c.st = .running then runCut s1 c else (s1, c)
  release (finish x.1 x.2 (cancelWord (if c.op = .lyt then 0 else x.2.done)) none) c.owner

/-- The command of the issuing spoke that a register waits for and that CANCEL can stop (R338). -/
def cancellable (s : State) (o : Owner) (p : Spoke) (r : Fin 32) : Option Cmd :=
  match p.pendG r with
  | .cmd id => s.cmds.find? fun c => c.id == id && c.owner == o && c.grp.isNone
      && (c.op == .mmul || c.op == .mdrain || c.op == .mzero || c.op == .lyt)
  | _ => none

/-- CANCEL (R337, R338). -/
def execCancel (d r : Fin 32) (s : State) : Out :=
  .next (issue (.cancel d r) s fun t =>
    if (curSp t).pendG r = .no then doneG t d 1
    else match cancellable t (curOwner t) (curSp t) r with
      | some c => doneG (cancelCmd t c) d 0
      | none => doneG t d 2)

/-! Lends. -/

/-- The lowest free lend entry (R91). -/
def freeLend (p : Spoke) : Option (Fin 8) := (List.finRange 8).find? fun i => p.lends[i].st == .free

/-- The pages of a range to be lent, in ascending order, under steps 3, 4 and 6 of R126: the owners with their pages, or the first failure (R366). -/
def lendPages (t : State) : List (Nat × Nat) → Except FErr (List (BitVec 8 × Nat))
  | [] => .ok []
  | p :: r =>
    match resolve t t.cur.core t.cur.vf (BitVec.ofNat 64 p.1) none 1 (fun _ => true) with
    | .error e => .error e
    | .ok x => (lendPages t r).map ((pteDT x.leaf, p.1) :: ·)

/-- The owner check of LEND: some byte over which the lender has less than RWL (R91, R125). -/
def lendRights (t : State) (d : BitVec 8) : List (BitVec 8 × Nat) → Option FaultCode
  | [] => none
  | o :: r => match right t t.cur.vf d o.1 o.2 with
    | none => some .segment
    | some x => if x = 3 then lendRights t d r else some .lendExcess

/-- Check 3 of LEND (R91). -/
def lendRangeBad (a : Word) (n : Nat) : Bool :=
  pathBad a || decide (a.toNat + n - 1 ≥ 2 ^ 64) || (a.toNat + n - 1) / 2 ^ 57 != a.toNat / 2 ^ 57

/-- LEND (R91, R366). -/
def execLend (d : Fin 32) (a b : Src) (mode : BitVec 2) (s : State) : Out :=
  .next (issue (.lend d a b mode) s fun t =>
    let base := src t a
    let n := (src t b).toNat
    let dom := (curSp t).dom
    if n = 0 ∨ n > 2 ^ 40 then .fail .illegalField
    else if lendRangeBad base n then .err .path base 1
    else match freeLend (curSp t) with
      | none => .fail .lendFull
      | some i =>
        -- the checks, failed or not, have used what the tables say of the pages (R85)
        let t1 := notePages t t.cur.vf dom (pageParts base.toNat n)
        match lendPages t (pageParts base.toNat n) with
        | .error e => .leftErr t1 e
        | .ok os =>
          match lendRights t dom os with
          | some f => .leftErr t1 (errAt f base 1)
          | none => doneP t1 fun p =>
              { p with lends := p.lends.set i ⟨base, n, mode == 2, dom, 0, .pending, 0⟩ }.wrG d (BitVec.ofNat 64 i.val))

/-- A lend entry from the low bits of a register. -/
def lendIdx (x : Word) : Fin 8 := ⟨x.toNat % 8, by omega⟩

/-- UNLEND (R98, R416). -/
def execUnlend (a : Src) (s : State) : Out :=
  .next (issue (.unlend a) s fun t =>
    let x := src t a
    let i := lendIdx x
    let l := (curSp t).lends[i]
    if x.toNat ≥ 8 then .fail .illegalField
    else if l.st ≠ .free ∧ (l.lender ≠ (curSp t).dom ∨ l.st = .opened) then .fail .illegalField
    else if l.st = .pending then doneP t fun p => { p with lends := p.lends.set i Lend.none }
    else .done (waitOn t (.unlend i)))

/-- The word of DOMQ (R101, R352): steps 3 to 6 of R126 for a read, step 5 among them. -/
def domqWord (t : State) (va : Word) : Word :=
  if pathBad va then 0
  else match resolve t t.cur.core t.cur.vf va (some false) 1 (fun _ => true) with
    | .error _ => 0
    | .ok r =>
      let o := pteDT r.leaf
      let p := curSp t
      match right t t.cur.vf p.dom o va.toNat with
      | none => 0
      | some x =>
        let lr := p.lends.toList.any (lendCovers p.dom va 1 false)
        let lw := p.lends.toList.any (lendCovers p.dom va 1 true)
        let ix := ((List.finRange 8).find? fun i => lendCovers p.dom va 1 false p.lends[i]).getD 0
        BitVec.ofNat 64 (o.toNat + x * 2 ^ 8 + lr.toNat * 2 ^ 10 + lw.toNat * 2 ^ 11 + ix.val * 2 ^ 12 + 2 ^ 15)

/-- DOMQ (R101, R352); the entries that it has used stay cached (R85). -/
def execDomq (d : Fin 32) (a : Src) (s : State) : Out :=
  .next (issue (.domq d a) s fun t =>
    let va := src t a
    doneG (if pathBad va then t else noteVa t t.cur.vf (curSp t).dom va) d (domqWord t va))

end Sys2Proof.Machine
end

