-- ==== Sys2Proof/Machine/VectorMem.lean ====
section
/-! DEFINITION. Vector memory (R430 to R432). -/

namespace Sys2Proof.Machine

/-- A vector source (R322). -/
def vsrc (t : State) (a : VSrc) : Vector Lane 32 := (curSp t).v[a.reg].val

/-- The paths that a vector access admits (R430). -/
def vecPaths (w : Bool) : List Nat := if w then [0, 2, 3] else [0, 1, 2, 3]

/-- A vector store names WB (R108, R430). -/
def storesWb (t : State) (va : Word) : Bool :=
  match transl t t.cur.vf (va.toNat % 2 ^ 57) with
  | .leaf e bits =>
    let l := placeOf t.cur.core va e bits
    l.sp == .tb && tbBuf (l.a % 2 ^ 21) == 0
  | _ => false

/-- The checks of one lane (R126, R430, R431). -/
def laneCheck (t : State) (w : Bool) (va : Word) : Except FErr Res :=
  let acc := if w then 2 else 1
  match scalarPre va 4 acc (vecPaths w) with
  | some e => .error e
  | none =>
    if w && storesWb t va then .error (errAt .path va acc)
    else checked t t.cur.core t.cur.vf (curSp t).dom (curSp t).lends.toList va 4 w acc fun _ => true

/-- The checks of the active lanes in ascending order: the elements, or the first fault, with what they have used held in the caches (R85). Each lane has its number, address and data. -/
def lanesCheck (t : State) (w : Bool) : List (Nat × Word × Nat) → Except (FErr × State) (State × List LaneAcc)
  | [] => .ok (t, [])
  | (i, va, x) :: r =>
    match laneCheck t w va with
    | .error e => .error (e, t)
    | .ok res =>
      match lanesCheck (noteAcc t va res) w r with
      | .error e => .error e
      | .ok (t1, l) => .ok (t1, ⟨i, res.loc, x, pathOf va == 1⟩ :: l)

/-- The active lanes with their addresses and data. -/
def lanesOf (p : Spoke) (km : Fin 4) (addr : Fin 32 → Word) (data : Fin 32 → Nat) : List (Nat × Word × Nat) :=
  ((List.finRange 32).filter fun i => active p km i.val).map fun i => (i.val, addr i, data i)

/-- A vector load or gather (R430 to R432). -/
def vloadEnd (t : State) (rlx : Bool) (us : List Use) (km : Fin 4) (d : Fin 8) (addr : Fin 32 → Word) : Ending :=
  match lanesCheck t false (lanesOf (curSp t) km addr fun _ => 0) with
  | .error x => .leftErr x.2 x.1
  | .ok (t1, []) => doneP t1 fun p => p.wrV d p.v[d].val
  | .ok (t1, x :: l) =>
    let plain := !rlx || (x :: l).any (·.loc.far)
    let t2 := addReq t1 (.vload d) 4 (x :: l) plain false (eatenWith t us (.v d)) 0
    if plain then .done t2 else doneP t2 fun p => p.oweV d (.load t1.nextId)

/-- A vector store or scatter: the lanes to host and peer memory are posted (R143, R430 to R432). -/
def vstoreEnd (t : State) (rlx : Bool) (us : List Use) (km : Fin 4) (addr : Fin 32 → Word) (data : Vector Lane 32) : Ending :=
  match lanesCheck t true (lanesOf (curSp t) km addr fun i => data[i].toNat) with
  | .error x => .leftErr x.2 x.1
  | .ok (t1, l) =>
    let near := l.filter fun x => !x.loc.far
    let far := l.filter (·.loc.far)
    let t2 := if near.isEmpty then t1 else addReq t1 .vstore 4 near (!rlx) false (eatenBy us) 0
    .done (if far.isEmpty then t2 else addReq t2 .vstore 4 far false true (eatenBy us) 0)

/-- VLD (R430). -/
def execVld (rlx : Bool) (km : Fin 4) (d : Fin 8) (a : Src) (disp : BitVec 48) (s : State) : Out :=
  .next (issue (.vld rlx km d a disp) s fun t => vloadEnd t rlx [gu a] km d (rowAddr (src t a + imm64 disp)))

/-- VST (R430). -/
def execVst (rlx : Bool) (km : Fin 4) (a : Src) (x : VSrc) (disp : BitVec 48) (s : State) : Out :=
  .next (issue (.vst rlx km a x disp) s fun t => vstoreEnd t rlx [gu a, vu x] km (rowAddr (src t a + imm64 disp)) (vsrc t x))

/-- VGATH (R430). -/
def execVgath (rlx : Bool) (km : Fin 4) (d : Fin 8) (a : Src) (i : VSrc) (disp : BitVec 48) (s : State) : Out :=
  .next (issue (.vgath rlx km d a i disp) s fun t => vloadEnd t rlx [gu a, vu i] km d (idxAddr (src t a + imm64 disp) (vsrc t i)))

/-- VSCAT (R430). -/
def execVscat (rlx : Bool) (km : Fin 4) (a : Src) (i x : VSrc) (disp : BitVec 48) (s : State) : Out :=
  .next (issue (.vscat rlx km a i x disp) s fun t => vstoreEnd t rlx [gu a, vu i, vu x] km (idxAddr (src t a + imm64 disp) (vsrc t i)) (vsrc t x))

end Sys2Proof.Machine
end

