-- ==== Sys2Proof/Machine/VectorF.lean ====
section
/-! DEFINITION. Groups 101 and 110 but for vector memory: lanes, conversions, reductions, random streams, masks (R360, R417 to R429, R433 to R436). -/

namespace Sys2Proof.Machine

/-- The flags of the active lanes (R419). -/
def laneFlags (p : Spoke) (km : Fin 4) (f : Fin 32 → Lane × BitVec 5) : BitVec 5 :=
  (List.finRange 32).foldl (fun a i => if active p km i.val then a ||| (f i).2 else a) 0

/-- The lanes of a destination: active ones take the result, the others keep their bits (R419). -/
def laneMix (p : Spoke) (km : Fin 4) (d : Fin 8) (f : Fin 32 → Lane × BitVec 5) : Vector Lane 32 :=
  Vector.ofFn fun i : Fin 32 => if active p km i.val then (f i).1 else p.v[d].val[i]

/-- Completes a lane-wise instruction (R419). -/
def doneV (t : State) (km : Fin 4) (d : Fin 8) (f : Fin 32 → Lane × BitVec 5) : Ending :=
  doneP t fun p => (p.wrV d (laneMix p km d f)).orFlags (laneFlags p km f)

/-- A lane-wise instruction of one source. -/
def lane1 (i : Instr) (km : Fin 4) (d : Fin 8) (a : VSrc) (f : Lane → Lane × BitVec 5) (s : State) : Out :=
  .next (issue i s fun t => doneV t km d fun j => f (vsrc t a)[j])

/-- A lane-wise instruction of two sources. -/
def lane2 (i : Instr) (km : Fin 4) (d : Fin 8) (a b : VSrc) (f : Lane → Lane → Lane × BitVec 5) (s : State) : Out :=
  .next (issue i s fun t => doneV t km d fun j => f (vsrc t a)[j] (vsrc t b)[j])

/-- VADD (R421). -/
def execVadd (rnd : Rnd) (sat : Bool) (km : Fin 4) (d : Fin 8) (a b : VSrc) (s : State) : Out :=
  lane2 (.vadd rnd sat km d a b) km d a b (addF32 rnd sat) s

/-- VSUB (R421). -/
def execVsub (rnd : Rnd) (sat : Bool) (km : Fin 4) (d : Fin 8) (a b : VSrc) (s : State) : Out :=
  lane2 (.vsub rnd sat km d a b) km d a b (subF32 rnd sat) s

/-- VMUL (R421). -/
def execVmul (rnd : Rnd) (sat : Bool) (km : Fin 4) (d : Fin 8) (a b : VSrc) (s : State) : Out :=
  lane2 (.vmul rnd sat km d a b) km d a b (mulF32 rnd sat) s

/-- VFMA (R421). -/
def execVfma (rnd : Rnd) (sat : Bool) (km : Fin 4) (d : Fin 8) (a b c : VSrc) (s : State) : Out :=
  .next (issue (.vfma rnd sat km d a b c) s fun t =>
    doneV t km d fun j => fmaF32 rnd sat (vsrc t a)[j] (vsrc t b)[j] (vsrc t c)[j])

/-- VMIN (R421, R422). -/
def execVmin (km : Fin 4) (d : Fin 8) (a b : VSrc) (s : State) : Out := lane2 (.vmin km d a b) km d a b minF32 s

/-- VMAX (R421, R422). -/
def execVmax (km : Fin 4) (d : Fin 8) (a b : VSrc) (s : State) : Out := lane2 (.vmax km d a b) km d a b maxF32 s

/-- VABS (R421, R422). -/
def execVabs (km : Fin 4) (d : Fin 8) (a : VSrc) (s : State) : Out := lane1 (.vabs km d a) km d a (fun x => (x &&& 0x7FFFFFFF, 0)) s

/-- VNEG (R421, R422). -/
def execVneg (km : Fin 4) (d : Fin 8) (a : VSrc) (s : State) : Out := lane1 (.vneg km d a) km d a (fun x => (x ^^^ 0x80000000, 0)) s

/-! Integer lanes (R423). -/

/-- A whole number as a lane: modulo 2^32, or clamped with SAT. -/
def intLane (sat : Bool) (x : Int) : Lane × BitVec 5 :=
  let c : Int := max (min x (2 ^ 31 - 1)) (-(2 ^ 31))
  if sat then (BitVec.ofInt 32 c, fIf (c != x) fSat) else (BitVec.ofInt 32 x, 0)

/-- VIADD (R423). -/
def execViadd (sat : Bool) (km : Fin 4) (d : Fin 8) (a b : VSrc) (s : State) : Out :=
  lane2 (.viadd sat km d a b) km d a b (fun x y => intLane sat (x.toInt + y.toInt)) s

/-- VIMUL (R423). -/
def execVimul (sat : Bool) (km : Fin 4) (d : Fin 8) (a b : VSrc) (s : State) : Out :=
  lane2 (.vimul sat km d a b) km d a b (fun x y => intLane sat (x.toInt * y.toInt)) s

/-- VAND (R423). -/
def execVand (km : Fin 4) (d : Fin 8) (a b : VSrc) (s : State) : Out := lane2 (.vand km d a b) km d a b (fun x y => (x &&& y, 0)) s

/-- VOR (R423). -/
def execVor (km : Fin 4) (d : Fin 8) (a b : VSrc) (s : State) : Out := lane2 (.vor km d a b) km d a b (fun x y => (x ||| y, 0)) s

/-- VXOR (R423). -/
def execVxor (km : Fin 4) (d : Fin 8) (a b : VSrc) (s : State) : Out := lane2 (.vxor km d a b) km d a b (fun x y => (x ^^^ y, 0)) s

/-- VSHL (R423). -/
def execVshl (km : Fin 4) (d : Fin 8) (a b : VSrc) (s : State) : Out :=
  lane2 (.vshl km d a b) km d a b (fun x y => (x <<< (y.toNat % 32), 0)) s

/-- VSHR (R423). -/
def execVshr (km : Fin 4) (d : Fin 8) (a b : VSrc) (s : State) : Out :=
  lane2 (.vshr km d a b) km d a b (fun x y => (x >>> (y.toNat % 32), 0)) s

/-! Compare, select, functions, permutation. -/

/-- A mask from bits. -/
def maskOf (f : Fin 32 → Bool) : Lane := BitVec.ofNat 32 ((List.finRange 32).map fun i => (f i).toNat * 2 ^ i.val).sum

/-- VCMP (R425). -/
def execVcmp (c : VCond) (km : Fin 4) (d : Fin 4) (a b : VSrc) (s : State) : Out :=
  .next (issue (.vcmp c km d a b) s fun t =>
    let f (j : Fin 32) : Bool × BitVec 5 := cmpF32 c (vsrc t a)[j] (vsrc t b)[j]
    doneP t fun p =>
      { p with k := p.k.set d (maskOf fun j => if active p km j.val then (f j).1 else bitN p.k[d] j.val) }.orFlags
        (laneFlags p km fun j => (0, (f j).2)))

/-- VSEL (R426). -/
def execVsel (d : Fin 8) (a b : VSrc) (k : Fin 4) (s : State) : Out :=
  .next (issue (.vsel d a b k) s fun t =>
    doneP t fun p => p.wrV d (Vector.ofFn fun j : Fin 32 => if bitN p.k[k] j.val then (vsrc t a)[j] else (vsrc t b)[j]))

/-- VEXP2 (R429). -/
def execVexp2 (km : Fin 4) (d : Fin 8) (a : VSrc) (s : State) : Out := lane1 (.vexp2 km d a) km d a exp2F32 s

/-- VRCP (R429). -/
def execVrcp (km : Fin 4) (d : Fin 8) (a : VSrc) (s : State) : Out := lane1 (.vrcp km d a) km d a rcpF32 s

/-- VRSQ (R429). -/
def execVrsq (km : Fin 4) (d : Fin 8) (a : VSrc) (s : State) : Out := lane1 (.vrsq km d a) km d a rsqF32 s

/-- A reduction of R174 over a register, with the identity in inactive lanes. -/
def reduceV (p : Spoke) (km : Fin 4) (x : Vector Lane 32) (ident : Lane) (node : Lane → Lane → Lane × BitVec 5) : Lane × BitVec 5 :=
  let r := treeSum node 5 ((List.finRange 32).map fun j => if active p km j.val then x[j] else ident)
  (r.1.headD 0, r.2)

/-- VREDADD (R174, R435). -/
def execVredadd (km : Fin 4) (d : Fin 32) (a : VSrc) (s : State) : Out :=
  .next (issue (.vredadd km d a) s fun t =>
    let r := reduceV (curSp t) km (vsrc t a) 0x80000000 (addF32 .rne false)
    doneP t fun p => (p.wrG d (r.1.zeroExtend 64)).orFlags r.2)

/-- VREDMAX (R174, R435). -/
def execVredmax (km : Fin 4) (d : Fin 32) (a : VSrc) (s : State) : Out :=
  .next (issue (.vredmax km d a) s fun t =>
    let r := reduceV (curSp t) km (vsrc t a) 0xFF800000 maxF32
    doneP t fun p => (p.wrG d (r.1.zeroExtend 64)).orFlags r.2)

/-- A lane number from five bits. -/
def laneN (x : Nat) : Fin 32 := ⟨x % 32, by omega⟩

/-- VPERM (R433). -/
def execVperm (km : Fin 4) (d : Fin 8) (a b : VSrc) (s : State) : Out :=
  .next (issue (.vperm km d a b) s fun t => doneV t km d fun j => ((vsrc t a)[laneN ((vsrc t b)[j].toNat)], 0))

/-- VRNG (R176, R436). -/
def execVrng (w : BitVec 2) (km : Fin 4) (d : Fin 8) (a b : Src) (s : State) : Out :=
  .next (issue (.vrng w km d a b) s fun t => doneV t km d fun j => (philox (src t a) (src t b) j.val w, 0))

/-- VBCAST (R424). -/
def execVbcast (km : Fin 4) (d : Fin 8) (a : Src) (s : State) : Out :=
  .next (issue (.vbcast km d a) s fun t => doneV t km d fun _ => ((src t a).truncate 32, 0))

/-- VEXT (R424). -/
def execVext (d : Fin 32) (a : VSrc) (lane : BitVec 5) (s : State) : Out :=
  .next (issue (.vext d a lane) s fun t => doneG t d ((vsrc t a)[laneN lane.toNat].zeroExtend 64))

/-- VINS (R424). -/
def execVins (d : Fin 8) (a : VSrc) (b : Src) (lane : BitVec 5) (s : State) : Out :=
  .next (issue (.vins d a b lane) s fun t => doneP t fun p => p.wrV d ((vsrc t a).set (laneN lane.toNat) ((src t b).truncate 32)))

/-! Conversion and quantisation. -/

/-- VCVT (R427, R428). -/
def execVcvt (dfmt sfmt : Fmt) (rnd : Rnd) (sat : Bool) (km : Fin 4) (d : Fin 8) (a : VSrc) (s : State) : Out :=
  lane1 (.vcvt dfmt sfmt rnd sat km d a) km d a (cvtLane dfmt sfmt rnd sat) s

/-- Little-endian packing of elements of w bits (R182). -/
def packBits (w : Nat) : List Nat → Nat
  | [] => 0
  | x :: r => x % 2 ^ w + 2 ^ w * packBits w r

/-- The register that VQNT writes (R434): elements, then the two scales. -/
def quantReg (f : Fmt) (xs : List Num) : Vector Lane 32 × BitVec 5 :=
  let b0 := quantBlock f (xs.take 16)
  let b1 := quantBlock f (xs.drop 16)
  let n := packBits f.width (b0.2.1 ++ b1.2.1) + b0.1 * 2 ^ 256 + b1.1 * 2 ^ 264
  (Vector.ofFn fun j : Fin 32 => BitVec.ofNat 32 (n / 2 ^ (32 * j.val)), b0.2.2 ||| b1.2.2)

/-- VQNT (R175, R434). -/
def execVqnt (fmt : Fmt) (km : Fin 4) (d : Fin 8) (a : VSrc) (s : State) : Out :=
  .next (issue (.vqnt fmt km d a) s fun t =>
    let p := curSp t
    let r := quantReg fmt ((List.finRange 32).map fun j => f32 (if active p km j.val then (vsrc t a)[j] else 0))
    doneP t fun p => (p.wrV d r.1).orFlags r.2)

/-! Masks (R360). -/

/-- Completes an instruction that writes a mask register. -/
def doneK (t : State) (d : Fin 4) (x : Lane) : Ending := doneP t fun p => { p with k := p.k.set d x }

/-- KAND (R360). -/
def execKand (d a b : Fin 4) (s : State) : Out := .next (issue (.kand d a b) s fun t => doneK t d ((curSp t).k[a] &&& (curSp t).k[b]))

/-- KOR (R360). -/
def execKor (d a b : Fin 4) (s : State) : Out := .next (issue (.kor d a b) s fun t => doneK t d ((curSp t).k[a] ||| (curSp t).k[b]))

/-- KNOT (R360). -/
def execKnot (d a : Fin 4) (s : State) : Out := .next (issue (.knot d a) s fun t => doneK t d (~~~(curSp t).k[a]))

/-- KPOP (R360). -/
def execKpop (d : Fin 32) (a : Fin 4) (s : State) : Out :=
  .next (issue (.kpop d a) s fun t => doneG t d (BitVec.ofNat 64 (popCount 32 (curSp t).k[a].toNat)))

end Sys2Proof.Machine
end

