-- ==== Sys2Proof/Machine/Dispatch.lean ====
section
/-! DEFINITION. exec: one arm per row of the opcode table, each a call of its meaning. -/

namespace Sys2Proof.Machine

/-- The meaning of an instruction or event in a state. -/
def exec (i : Instr) (s : State) : Host.Outcome State Fault Refusal :=
  match i with
  | .addRrr a1 a2 a3 => Sys2Proof.Machine.execAddRrr a1 a2 a3 s
  | .addRri a1 a2 a3 => Sys2Proof.Machine.execAddRri a1 a2 a3 s
  | .subRrr a1 a2 a3 => Sys2Proof.Machine.execSubRrr a1 a2 a3 s
  | .subRri a1 a2 a3 => Sys2Proof.Machine.execSubRri a1 a2 a3 s
  | .mulRrr a1 a2 a3 => Sys2Proof.Machine.execMulRrr a1 a2 a3 s
  | .mulRri a1 a2 a3 => Sys2Proof.Machine.execMulRri a1 a2 a3 s
  | .mulhRrr a1 a2 a3 a4 => Sys2Proof.Machine.execMulhRrr a1 a2 a3 a4 s
  | .mulhRri a1 a2 a3 a4 => Sys2Proof.Machine.execMulhRri a1 a2 a3 a4 s
  | .divRrr a1 a2 a3 a4 => Sys2Proof.Machine.execDivRrr a1 a2 a3 a4 s
  | .divRri a1 a2 a3 a4 => Sys2Proof.Machine.execDivRri a1 a2 a3 a4 s
  | .remRrr a1 a2 a3 a4 => Sys2Proof.Machine.execRemRrr a1 a2 a3 a4 s
  | .remRri a1 a2 a3 a4 => Sys2Proof.Machine.execRemRri a1 a2 a3 a4 s
  | .divideEnd a1 a2 => Sys2Proof.Machine.execDivideEnd a1 a2 s
  | .andRrr a1 a2 a3 => Sys2Proof.Machine.execAndRrr a1 a2 a3 s
  | .andRri a1 a2 a3 => Sys2Proof.Machine.execAndRri a1 a2 a3 s
  | .orRrr a1 a2 a3 => Sys2Proof.Machine.execOrRrr a1 a2 a3 s
  | .orRri a1 a2 a3 => Sys2Proof.Machine.execOrRri a1 a2 a3 s
  | .xorRrr a1 a2 a3 => Sys2Proof.Machine.execXorRrr a1 a2 a3 s
  | .xorRri a1 a2 a3 => Sys2Proof.Machine.execXorRri a1 a2 a3 s
  | .andnRrr a1 a2 a3 => Sys2Proof.Machine.execAndnRrr a1 a2 a3 s
  | .andnRri a1 a2 a3 => Sys2Proof.Machine.execAndnRri a1 a2 a3 s
  | .shlRrr a1 a2 a3 => Sys2Proof.Machine.execShlRrr a1 a2 a3 s
  | .shlRri a1 a2 a3 => Sys2Proof.Machine.execShlRri a1 a2 a3 s
  | .shrRrr a1 a2 a3 => Sys2Proof.Machine.execShrRrr a1 a2 a3 s
  | .shrRri a1 a2 a3 => Sys2Proof.Machine.execShrRri a1 a2 a3 s
  | .sraRrr a1 a2 a3 => Sys2Proof.Machine.execSraRrr a1 a2 a3 s
  | .sraRri a1 a2 a3 => Sys2Proof.Machine.execSraRri a1 a2 a3 s
  | .rotRrr a1 a2 a3 => Sys2Proof.Machine.execRotRrr a1 a2 a3 s
  | .rotRri a1 a2 a3 => Sys2Proof.Machine.execRotRri a1 a2 a3 s
  | .clz a1 a2 => Sys2Proof.Machine.execClz a1 a2 s
  | .ctz a1 a2 => Sys2Proof.Machine.execCtz a1 a2 s
  | .popc a1 a2 => Sys2Proof.Machine.execPopc a1 a2 s
  | .minRrr a1 a2 a3 a4 => Sys2Proof.Machine.execMinRrr a1 a2 a3 a4 s
  | .minRri a1 a2 a3 a4 => Sys2Proof.Machine.execMinRri a1 a2 a3 a4 s
  | .maxRrr a1 a2 a3 a4 => Sys2Proof.Machine.execMaxRrr a1 a2 a3 a4 s
  | .maxRri a1 a2 a3 a4 => Sys2Proof.Machine.execMaxRri a1 a2 a3 a4 s
  | .cmpRrr a1 a2 a3 a4 => Sys2Proof.Machine.execCmpRrr a1 a2 a3 a4 s
  | .cmpRri a1 a2 a3 a4 => Sys2Proof.Machine.execCmpRri a1 a2 a3 a4 s
  | .sel a1 a2 a3 a4 => Sys2Proof.Machine.execSel a1 a2 a3 a4 s
  | .mov a1 a2 => Sys2Proof.Machine.execMov a1 a2 s
  | .li a1 a2 => Sys2Proof.Machine.execLi a1 a2 s
  | .lih a1 a2 a3 => Sys2Proof.Machine.execLih a1 a2 a3 s
  | .lea a1 a2 a3 => Sys2Proof.Machine.execLea a1 a2 a3 s
  | .bfx a1 a2 a3 a4 => Sys2Proof.Machine.execBfx a1 a2 a3 a4 s
  | .bfi a1 a2 a3 a4 a5 => Sys2Proof.Machine.execBfi a1 a2 a3 a4 a5 s
  | .sext a1 a2 a3 => Sys2Proof.Machine.execSext a1 a2 a3 s
  | .br a1 => Sys2Proof.Machine.execBr a1 s
  | .bc a1 a2 a3 => Sys2Proof.Machine.execBc a1 a2 a3 s
  | .bri a1 => Sys2Proof.Machine.execBri a1 s
  | .call a1 a2 => Sys2Proof.Machine.execCall a1 a2 s
  | .ret a1 => Sys2Proof.Machine.execRet a1 s
  | .loop a1 a2 => Sys2Proof.Machine.execLoop a1 a2 s
  | .dcallLabel a1 a2 => Sys2Proof.Machine.execDcallLabel a1 a2 s
  | .dcallReg a1 a2 => Sys2Proof.Machine.execDcallReg a1 a2 s
  | .dret => Sys2Proof.Machine.execDret s
  | .spend => Sys2Proof.Machine.execSpend s
  | .ld a1 a2 a3 a4 a5 a6 => Sys2Proof.Machine.execLd a1 a2 a3 a4 a5 a6 s
  | .ldF a1 a2 a3 => Sys2Proof.Machine.execLdF a1 a2 a3 s
  | .ldS a1 a2 a3 => Sys2Proof.Machine.execLdS a1 a2 a3 s
  | .st a1 a2 a3 a4 a5 => Sys2Proof.Machine.execSt a1 a2 a3 a4 a5 s
  | .stF a1 a2 a3 => Sys2Proof.Machine.execStF a1 a2 a3 s
  | .empty a1 a2 => Sys2Proof.Machine.execEmpty a1 a2 s
  | .fence a1 => Sys2Proof.Machine.execFence a1 s
  | .pgrp a1 => Sys2Proof.Machine.execPgrp a1 s
  | .publ => Sys2Proof.Machine.execPubl s
  | .roinv a1 a2 => Sys2Proof.Machine.execRoinv a1 a2 s
  | .aadd a1 a2 a3 a4 a5 a6 => Sys2Proof.Machine.execAadd a1 a2 a3 a4 a5 a6 s
  | .aand a1 a2 a3 a4 a5 a6 => Sys2Proof.Machine.execAand a1 a2 a3 a4 a5 a6 s
  | .aor a1 a2 a3 a4 a5 a6 => Sys2Proof.Machine.execAor a1 a2 a3 a4 a5 a6 s
  | .axor a1 a2 a3 a4 a5 a6 => Sys2Proof.Machine.execAxor a1 a2 a3 a4 a5 a6 s
  | .amin a1 a2 a3 a4 a5 a6 a7 => Sys2Proof.Machine.execAmin a1 a2 a3 a4 a5 a6 a7 s
  | .amax a1 a2 a3 a4 a5 a6 a7 => Sys2Proof.Machine.execAmax a1 a2 a3 a4 a5 a6 a7 s
  | .aswp a1 a2 a3 a4 a5 a6 => Sys2Proof.Machine.execAswp a1 a2 a3 a4 a5 a6 s
  | .acas a1 a2 a3 a4 a5 a6 a7 => Sys2Proof.Machine.execAcas a1 a2 a3 a4 a5 a6 a7 s
  | .wake a1 => Sys2Proof.Machine.execWake a1 s
  | .ibpop a1 a2 => Sys2Proof.Machine.execIbpop a1 a2 s
  | .ibreplay a1 a2 => Sys2Proof.Machine.execIbreplay a1 a2 s
  | .spstart a1 a2 a3 => Sys2Proof.Machine.execSpstart a1 a2 a3 s
  | .spstop a1 => Sys2Proof.Machine.execSpstop a1 s
  | .spresume a1 => Sys2Proof.Machine.execSpresume a1 s
  | .spkill a1 => Sys2Proof.Machine.execSpkill a1 s
  | .spreap a1 a2 => Sys2Proof.Machine.execSpreap a1 a2 s
  | .spspill a1 a2 => Sys2Proof.Machine.execSpspill a1 a2 s
  | .spfill a1 a2 => Sys2Proof.Machine.execSpfill a1 a2 s
  | .gbar a1 => Sys2Proof.Machine.execGbar a1 s
  | .garrive a1 => Sys2Proof.Machine.execGarrive a1 s
  | .barinit a1 a2 a3 => Sys2Proof.Machine.execBarinit a1 a2 a3 s
  | .bararr a1 a2 => Sys2Proof.Machine.execBararr a1 a2 s
  | .barwait a1 a2 => Sys2Proof.Machine.execBarwait a1 a2 s
  | .semsig a1 a2 => Sys2Proof.Machine.execSemsig a1 a2 s
  | .semwait a1 a2 a3 a4 => Sys2Proof.Machine.execSemwait a1 a2 a3 a4 s
  | .tlsig a1 a2 => Sys2Proof.Machine.execTlsig a1 a2 s
  | .tlwait a1 a2 a3 => Sys2Proof.Machine.execTlwait a1 a2 a3 s
  | .ptest a1 a2 a3 => Sys2Proof.Machine.execPtest a1 a2 a3 s
  | .cancel a1 a2 => Sys2Proof.Machine.execCancel a1 a2 s
  | .lend a1 a2 a3 a4 => Sys2Proof.Machine.execLend a1 a2 a3 a4 s
  | .unlend a1 => Sys2Proof.Machine.execUnlend a1 s
  | .domq a1 a2 => Sys2Proof.Machine.execDomq a1 a2 s
  | .mldw a1 a2 a3 a4 a5 a6 a7 a8 a9 a10 => Sys2Proof.Machine.execMldw a1 a2 a3 a4 a5 a6 a7 a8 a9 a10 s
  | .mmul a1 a2 a3 a4 a5 a6 a7 a8 a9 => Sys2Proof.Machine.execMmul a1 a2 a3 a4 a5 a6 a7 a8 a9 s
  | .mdrain a1 a2 a3 a4 a5 a6 a7 a8 a9 a10 => Sys2Proof.Machine.execMdrain a1 a2 a3 a4 a5 a6 a7 a8 a9 a10 s
  | .mzero a1 a2 a3 a4 a5 => Sys2Proof.Machine.execMzero a1 a2 a3 a4 a5 s
  | .spcmp a1 a2 a3 a4 a5 a6 a7 a8 => Sys2Proof.Machine.execSpcmp a1 a2 a3 a4 a5 a6 a7 a8 s
  | .lyt a1 a2 a3 a4 => Sys2Proof.Machine.execLyt a1 a2 a3 a4 s
  | .lytq a1 a2 => Sys2Proof.Machine.execLytq a1 a2 s
  | .cpsetReg a1 a2 => Sys2Proof.Machine.execCpsetReg a1 a2 s
  | .cpsetImm a1 a2 => Sys2Proof.Machine.execCpsetImm a1 a2 s
  | .cpgo a1 => Sys2Proof.Machine.execCpgo a1 s
  | .cpgath a1 a2 => Sys2Proof.Machine.execCpgath a1 a2 s
  | .cpscat a1 a2 => Sys2Proof.Machine.execCpscat a1 a2 s
  | .cpcancel a1 a2 => Sys2Proof.Machine.execCpcancel a1 a2 s
  | .waitany a1 a2 => Sys2Proof.Machine.execWaitany a1 a2 s
  | .waitall a1 => Sys2Proof.Machine.execWaitall a1 s
  | .tagff a1 a2 => Sys2Proof.Machine.execTagff a1 a2 s
  | .tagclr a1 => Sys2Proof.Machine.execTagclr a1 s
  | .coll a1 a2 a3 => Sys2Proof.Machine.execColl a1 a2 a3 s
  | .lease a1 a2 => Sys2Proof.Machine.execLease a1 a2 s
  | .unlease a1 => Sys2Proof.Machine.execUnlease a1 s
  | .trload a1 a2 => Sys2Proof.Machine.execTrload a1 a2 s
  | .trseal => Sys2Proof.Machine.execTrseal s
  | .vadd a1 a2 a3 a4 a5 a6 => Sys2Proof.Machine.execVadd a1 a2 a3 a4 a5 a6 s
  | .vsub a1 a2 a3 a4 a5 a6 => Sys2Proof.Machine.execVsub a1 a2 a3 a4 a5 a6 s
  | .vmul a1 a2 a3 a4 a5 a6 => Sys2Proof.Machine.execVmul a1 a2 a3 a4 a5 a6 s
  | .vfma a1 a2 a3 a4 a5 a6 a7 => Sys2Proof.Machine.execVfma a1 a2 a3 a4 a5 a6 a7 s
  | .vmin a1 a2 a3 a4 => Sys2Proof.Machine.execVmin a1 a2 a3 a4 s
  | .vmax a1 a2 a3 a4 => Sys2Proof.Machine.execVmax a1 a2 a3 a4 s
  | .vabs a1 a2 a3 => Sys2Proof.Machine.execVabs a1 a2 a3 s
  | .vneg a1 a2 a3 => Sys2Proof.Machine.execVneg a1 a2 a3 s
  | .viadd a1 a2 a3 a4 a5 => Sys2Proof.Machine.execViadd a1 a2 a3 a4 a5 s
  | .vimul a1 a2 a3 a4 a5 => Sys2Proof.Machine.execVimul a1 a2 a3 a4 a5 s
  | .vand a1 a2 a3 a4 => Sys2Proof.Machine.execVand a1 a2 a3 a4 s
  | .vor a1 a2 a3 a4 => Sys2Proof.Machine.execVor a1 a2 a3 a4 s
  | .vxor a1 a2 a3 a4 => Sys2Proof.Machine.execVxor a1 a2 a3 a4 s
  | .vshl a1 a2 a3 a4 => Sys2Proof.Machine.execVshl a1 a2 a3 a4 s
  | .vshr a1 a2 a3 a4 => Sys2Proof.Machine.execVshr a1 a2 a3 a4 s
  | .vcmp a1 a2 a3 a4 a5 => Sys2Proof.Machine.execVcmp a1 a2 a3 a4 a5 s
  | .vsel a1 a2 a3 a4 => Sys2Proof.Machine.execVsel a1 a2 a3 a4 s
  | .vexp2 a1 a2 a3 => Sys2Proof.Machine.execVexp2 a1 a2 a3 s
  | .vrcp a1 a2 a3 => Sys2Proof.Machine.execVrcp a1 a2 a3 s
  | .vrsq a1 a2 a3 => Sys2Proof.Machine.execVrsq a1 a2 a3 s
  | .vredadd a1 a2 a3 => Sys2Proof.Machine.execVredadd a1 a2 a3 s
  | .vredmax a1 a2 a3 => Sys2Proof.Machine.execVredmax a1 a2 a3 s
  | .vperm a1 a2 a3 a4 => Sys2Proof.Machine.execVperm a1 a2 a3 a4 s
  | .vrng a1 a2 a3 a4 a5 => Sys2Proof.Machine.execVrng a1 a2 a3 a4 a5 s
  | .vld a1 a2 a3 a4 a5 => Sys2Proof.Machine.execVld a1 a2 a3 a4 a5 s
  | .vst a1 a2 a3 a4 a5 => Sys2Proof.Machine.execVst a1 a2 a3 a4 a5 s
  | .vgath a1 a2 a3 a4 a5 a6 => Sys2Proof.Machine.execVgath a1 a2 a3 a4 a5 a6 s
  | .vscat a1 a2 a3 a4 a5 a6 => Sys2Proof.Machine.execVscat a1 a2 a3 a4 a5 a6 s
  | .vbcast a1 a2 a3 => Sys2Proof.Machine.execVbcast a1 a2 a3 s
  | .vext a1 a2 a3 => Sys2Proof.Machine.execVext a1 a2 a3 s
  | .vins a1 a2 a3 a4 => Sys2Proof.Machine.execVins a1 a2 a3 a4 s
  | .vcvt a1 a2 a3 a4 a5 a6 a7 => Sys2Proof.Machine.execVcvt a1 a2 a3 a4 a5 a6 a7 s
  | .vqnt a1 a2 a3 a4 => Sys2Proof.Machine.execVqnt a1 a2 a3 a4 s
  | .kand a1 a2 a3 => Sys2Proof.Machine.execKand a1 a2 a3 s
  | .kor a1 a2 a3 => Sys2Proof.Machine.execKor a1 a2 a3 s
  | .knot a1 a2 => Sys2Proof.Machine.execKnot a1 a2 s
  | .kpop a1 a2 => Sys2Proof.Machine.execKpop a1 a2 s
  | .nop => Sys2Proof.Machine.execNop s
  | .trap a1 => Sys2Proof.Machine.execTrap a1 s
  | .tret => Sys2Proof.Machine.execTret s
  | .rds a1 a2 => Sys2Proof.Machine.execRds a1 a2 s
  | .wrs a1 a2 => Sys2Proof.Machine.execWrs a1 a2 s
  | .tinv a1 a2 => Sys2Proof.Machine.execTinv a1 a2 s
  | .bkpt => Sys2Proof.Machine.execBkpt s
  | .ill => Sys2Proof.Machine.execIll s
  | .memoryReply a1 a2 a3 a4 => Sys2Proof.Machine.execMemoryReply a1 a2 a3 a4 s
  | .lineArrival a1 a2 a3 a4 => Sys2Proof.Machine.execLineArrival a1 a2 a3 a4 s
  | .inboxMessageArrival a1 => Sys2Proof.Machine.execInboxMessageArrival a1 s
  | .inboxHeldDelivery a1 a2 a3 => Sys2Proof.Machine.execInboxHeldDelivery a1 a2 a3 s
  | .meshMessageAccept a1 a2 a3 => Sys2Proof.Machine.execMeshMessageAccept a1 a2 a3 s
  | .wakeDelivery a1 a2 a3 => Sys2Proof.Machine.execWakeDelivery a1 a2 a3 s
  | .hubLoadExchange a1 => Sys2Proof.Machine.execHubLoadExchange a1 s
  | .paneGrant a1 => Sys2Proof.Machine.execPaneGrant a1 s
  | .copySlotGrant a1 a2 => Sys2Proof.Machine.execCopySlotGrant a1 a2 s
  | .matrixCommandStart a1 => Sys2Proof.Machine.execMatrixCommandStart a1 s
  | .matrixCommandComplete a1 a2 => Sys2Proof.Machine.execMatrixCommandComplete a1 a2 s
  | .layoutCommandStart a1 => Sys2Proof.Machine.execLayoutCommandStart a1 s
  | .layoutCommandComplete a1 a2 => Sys2Proof.Machine.execLayoutCommandComplete a1 a2 s
  | .engineTranslationFault a1 => Sys2Proof.Machine.execEngineTranslationFault a1 s
  | .transferCompletion a1 a2 => Sys2Proof.Machine.execTransferCompletion a1 a2 s
  | .copyBarrierArrival a1 => Sys2Proof.Machine.execCopyBarrierArrival a1 s
  | .collComplete a1 a2 a3 => Sys2Proof.Machine.execCollComplete a1 a2 a3 s
  | .leaseAnswer => Sys2Proof.Machine.execLeaseAnswer s
  | .leaseExpiry a1 => Sys2Proof.Machine.execLeaseExpiry a1 s
  | .invalidationAck a1 => Sys2Proof.Machine.execInvalidationAck a1 s
  | .kickWrite a1 a2 a3 a4 => Sys2Proof.Machine.execKickWrite a1 a2 a3 a4 s
  | .dispatchPacket a1 => Sys2Proof.Machine.execDispatchPacket a1 s
  | .barrierAndPacket a1 => Sys2Proof.Machine.execBarrierAndPacket a1 s
  | .barrierOrPacket a1 => Sys2Proof.Machine.execBarrierOrPacket a1 s
  | .graphPacket a1 => Sys2Proof.Machine.execGraphPacket a1 s
  | .signalPacket a1 => Sys2Proof.Machine.execSignalPacket a1 s
  | .packetCompletion a1 => Sys2Proof.Machine.execPacketCompletion a1 s
  | .memberPlacement a1 a2 => Sys2Proof.Machine.execMemberPlacement a1 a2 s
  | .sliceEnd a1 a2 => Sys2Proof.Machine.execSliceEnd a1 a2 s
  | .ringRecordWrite a1 a2 => Sys2Proof.Machine.execRingRecordWrite a1 a2 s
  | .pageRequestResponse a1 a2 => Sys2Proof.Machine.execPageRequestResponse a1 a2 s
  | .hostMemoryAccess a1 a2 => Sys2Proof.Machine.execHostMemoryAccess a1 a2 s
  | .wakeRegisterWrite a1 a2 => Sys2Proof.Machine.execWakeRegisterWrite a1 a2 s
  | .invgoWrite a1 a2 => Sys2Proof.Machine.execInvgoWrite a1 a2 s
  | .ringCidxWrite a1 a2 a3 => Sys2Proof.Machine.execRingCidxWrite a1 a2 a3 s
  | .featdrvWrite a1 a2 => Sys2Proof.Machine.execFeatdrvWrite a1 a2 s
  | .registerWrite a1 a2 a3 a4 a5 => Sys2Proof.Machine.execRegisterWrite a1 a2 a3 a4 a5 s
  | .portset => Sys2Proof.Machine.execPortset s
  | .svcmask => Sys2Proof.Machine.execSvcmask s
  | .peerbind => Sys2Proof.Machine.execPeerbind s
  | .quote => Sys2Proof.Machine.execQuote s
  | .counters => Sys2Proof.Machine.execCounters s
  | .fwload => Sys2Proof.Machine.execFwload s
  | .ident => Sys2Proof.Machine.execIdent s
  | .mailboxReply => Sys2Proof.Machine.execMailboxReply s
  | .functionLevelReset a1 => Sys2Proof.Machine.execFunctionLevelReset a1 s
  | .warmRestart a1 => Sys2Proof.Machine.execWarmRestart a1 s
  | .deviceReset => Sys2Proof.Machine.execDeviceReset s
  | .powerOn => Sys2Proof.Machine.execPowerOn s
  | .orderlyPowerDown => Sys2Proof.Machine.execOrderlyPowerDown s
  | .lifetimeCounterUpdate a1 a2 => Sys2Proof.Machine.execLifetimeCounterUpdate a1 a2 s
  | .bucketRefill a1 a2 => Sys2Proof.Machine.execBucketRefill a1 a2 s
  | .flitCrcFailure a1 => Sys2Proof.Machine.execFlitCrcFailure a1 s
  | .peerResetNotice a1 => Sys2Proof.Machine.execPeerResetNotice a1 s
  | .clockThrottle a1 => Sys2Proof.Machine.execClockThrottle a1 s
  | .d3hotRequest => Sys2Proof.Machine.execD3hotRequest s
  | .cxlCacheSnoop a1 a2 => Sys2Proof.Machine.execCxlCacheSnoop a1 a2 s
  | .atsInvalidationRequest a1 a2 a3 => Sys2Proof.Machine.execAtsInvalidationRequest a1 a2 a3 s
  | .clockRestore a1 => Sys2Proof.Machine.execClockRestore a1 s

end Sys2Proof.Machine
end

