-- ==== Sys2Proof/Machine/Step.lean ====
section
/-! DEFINITION. One step of the device: an act of the schedule (log 4): a core issues (R16, R64, R67), an event comes about, or an agent outside writes its own memory. -/

namespace Sys2Proof.Machine

/-- A spoke of a core is in the rotation, with the waits whose end it would find (R16, R19, R20). -/
def inRotation (s : State) (c n v : Nat) : Bool :=
  let p := getSp s c n v
  p.ctx == .live && p.divs.isEmpty && !p.outst.any (·.plain) &&
    match p.park with
    | .none => true
    | .gsrc r => p.fullG r
    | .vsrc r => p.fullV r
    | .slots => (slotFree s c).isSome
    | .room => roomFor s v
    | .wait w => waitReady s c n v w
    | _ => false

/-- The order of the cadence after a spoke: ascending, wrapping from 15 to 0 (R16). -/
def cadence (last : Nat) : List Nat := (List.range 16).map fun i => (last + 1 + i) % 16

/-- The earliest cc at which a spoke may issue (R16). -/
def floorOf (p : Spoke) : Nat := match p.lastIssue with | some t => t + 8 | none => 0

/-- The spoke a core issues from next, and the cc: the first in rotation order that the floor admits at the first cc that admits one (R16). -/
def pick (s : State) (c v : Nat) : Option (Nat × Nat) :=
  let r := (cadence (getCore s c).last).filter fun n => inRotation s c n v
  match r with
  | [] => none
  | n0 :: _ =>
    let first := r.foldl (fun m n => min m (floorOf (getSp s c n v))) (floorOf (getSp s c n0 v))
    let t := max (s.cc + 1) first
    (r.find? fun n => floorOf (getSp s c n v) ≤ t).map fun n => (n, t)

/-- What a step does with a state that an instruction has answered. -/
def onNext (o : Host.Outcome State Fault Refusal) (f : State → Host.Outcome State Fault Refusal) :
    Host.Outcome State Fault Refusal :=
  match o with
  | .next s => f s
  | .fault x => .fault x
  | .refused x => .refused x

/-- Sets what is issuing. -/
def withCur (s : State) (c n v : Nat) (pc succ : Word) (paired first checked : Bool) : State :=
  { s with cur := ⟨c, n, v, pc, succ, paired, first, checked, false, false, false, false⟩ }

/-- Issues one word alone. -/
def issueWord (s : State) (w : BitVec 96) : Host.Outcome State Fault Refusal :=
  match decodeWord w with
  | .bad f => .next (settle s (.fail f))
  | .ok i => exec i s

/-- Whether a word transfers as the first of a pair: only TRET can (R66). -/
def isTret (w : BitVec 96) : Bool :=
  match decodeWord w with
  | .ok .tret => true
  | _ => false

/-- A state in which the first of a pair has issued and the second is to: its checks take the old or the new value of a cached entry for themselves (R85), and it keeps whether the pair has been sealed (R199). -/
def toSecond (s : State) (c n v : Nat) (pc : Word) : State :=
  let t := withCur s c n v (nextPc pc) (nextPc (nextPc pc)) true false true
  { t with cur := { t.cur with sealed := s.cur.sealed }, tick := t.tick + 1 }

/-- The second of a pair issues after the first (R67); behind a TRET the transfer that the first has made stands. The unit has issued where its first has. -/
def issueSecond (c n v : Nat) (pc : Word) (w1 w2 : BitVec 96) (s : State) : Host.Outcome State Fault Refusal :=
  if s.cur.stop then .next s
  else
    let p := getSp s c n v
    onNext (issueWord (toSecond s c n v pc) w2) fun t0 =>
      let t := { t0 with cur := { t0.cur with idle := false } }
      if isTret w1 && !t.cur.stop then .next (modSp t c n v fun q => { q with pc := p.pc, want := p.want, line := p.line })
      else .next t

/-- The two words of a pair issue, from a state in which the checks before the pair have been made. -/
def issueTwo (s : State) (c n v : Nat) (pc : Word) (w1 w2 : BitVec 96) : Host.Outcome State Fault Refusal :=
  onNext (issueWord s w1) (issueSecond c n v pc w1 w2)

/-- A pair in which an instruction is to park issues again behind a seal of the window (R199); a trap that the seal owes goes before it (R202). `s` is the state before the pair. -/
def issueSealed (s : State) (c n v : Nat) (pc : Word) (w1 w2 : BitVec 96) : Host.Outcome State Fault Refusal :=
  let t := sealWin s c n v pc
  if !(getSp t c n v).owed.isEmpty then .next (haltIdle (deliverOwed t c n v))
  else issueTwo { t with cur := { t.cur with sealed := true } } c n v pc w1 w2

/-- Issues the two words, and again behind a seal where that is called for. -/
def issueBoth (s : State) (c n v : Nat) (pc : Word) (w1 w2 : BitVec 96) : Host.Outcome State Fault Refusal :=
  onNext (issueTwo s c n v pc w1 w2) fun t => if t.cur.reseal then issueSealed s c n v pc w1 w2 else .next t

/-- Issues a pair (R67). -/
def issuePair (s : State) (c n v : Nat) (pc : Word) (w1 w2 : BitVec 96) : Host.Outcome State Fault Refusal :=
  let succ := nextPc (nextPc pc)
  let s1 := withCur s c n v pc succ true true false
  let clean : Option (Instr × Instr) := match decodeWord w1, decodeWord w2 with
    | .ok i, .ok j => if failsWord s1 i || failsWord s1 j then none else some (i, j)
    | _, _ => none
  match clean with
  | some (i, j) =>
    match precheck s1 [i, j] with
    | .error s2 => .next s2
    | .ok s2 => issueBoth { s2 with cur := { s2.cur with checked := true } } c n v pc w1 w2
  | none =>
    -- a word of the pair fails R73 checks 1 to 6: the first issues alone, the second's fault follows it
    issueBoth s1 c n v pc w1 w2

/-- Issues the unit at the PC of a spoke whose line is held: a pair, or one word. A trap vector or a return PC that names the second slot of a pair, which no transfer can (R56, R65), issues that slot alone (DESIGN CHOICE, log 84: R64 does not say). -/
def issueUnit (s : State) (c n v : Nat) : Host.Outcome State Fault Refusal :=
  let p := getSp s c n v
  let j := slotOf p.pc
  let l := p.line.line
  if j < 4 ∧ linePair l j ∧ ¬ p.second then issuePair s c n v p.pc (lineSlot l j) (lineSlot l (j + 1))
  else issueWord (withCur s c n v p.pc (nextPc p.pc) false false false) (lineSlot l j)

/-- Whether a spoke that has issued, and cannot enter its next line now, asks for it all the same: it has parked or stopped (R60). -/
def asksAhead (p : Spoke) : Bool :=
  ((p.ctx == .live && blocked p) || p.ctx == .stopped) && p.want.isSome && (aheadAt p p.pc).isNone && p.owed.isEmpty

/-- After an issue: a stop that was requested takes effect, or the next line is fetched, whose seal may bring the spoke to a boundary where the stop takes effect; a spoke that has parked or stopped asks for its line all the same (R45, R60, R200). -/
def afterIssue (c n v : Nat) (s : State) : State :=
  let s1 := tryStop s c n v
  let p := getSp s1 c n v
  if p.ctx = .live ∧ p.want.isSome ∧ ¬ blocked p ∧ p.owed.isEmpty then tryStop (needLine s1 c n v) c n v
  else if asksAhead p ∧ ¬ s1.cur.idle then askLine s1 c n v else s1

/-- One cadence slot of a spoke: a trap owed is delivered, a line wanted is entered, or its unit issues. Only the last is an issue (R16, R19). -/
def issueSpoke (s : State) (c n v : Nat) : Host.Outcome State Fault Refusal :=
  let p := getSp s c n v
  if !p.owed.isEmpty then .next (haltIdle (deliverOwed s c n v))
  else if p.want.isSome then .next (haltIdle (needLine s c n v))
  else issueUnit s c n v

/-- A register that an access had emptied, and that has been filled or made to wait for something else since, is not the access's any more (R22, log 43). -/
def keepEaten (p : Spoke) : Spoke :=
  { p with outst := p.outst.map fun r => { r with eaten := r.eaten.filter fun x => !p.fullR x && (p.pendR x == .no || p.pendR x == .load r.id) } }

/-- Ends the park of a spoke that the cadence has chosen. -/
def wakeUp (s0 : State) (c n v : Nat) : State :=
  let s := modSp s0 c n v keepEaten
  match (getSp s c n v).park with
  | .wait w => waitDone s c n v w
  | _ => modSp s c n v fun p => { p with park := .none }

/-- Core cycles pass: the reference timer counts 1,800,000,000 in a second at every clock, and keeps the part of a count that is left (R290). -/
def passTo (s : State) (t : Nat) : State :=
  let n := s.refRem + (t - s.cc) * 1800
  let r := s.refTimer + n / max s.clk 1
  { s with cc := t, refTimer := r, refWas := if r = s.refTimer then s.refWas else s.refTimer, refRem := n % max s.clk 1 }

/-- The cadence after a spoke has had its slot: where it has issued, its floor and the rotation start from there (R16). -/
def markIssue (c n v t : Nat) (s : State) : State :=
  if s.cur.idle then s
  else modSp (modCore s c fun k => { k with last := n, lastCc := some t }) c n v fun p => { p with lastIssue := some t }

/-- The issue of a core from a state in which no slice change is due: the cadence chooses a spoke, or the cycle is idle. -/
def issueNow (s : State) (c : Nat) : Host.Outcome State Fault Refusal :=
  let v := vfOf s c
  match pick s c v with
  | none => .next (passTo s (s.cc + 1))
  | some (n, t) =>
    let s1 := wakeUp (passTo s t) c n v
    let p := getSp s1 c n v
    if p.ctx = .live ∧ ¬ blocked p then onNext (issueSpoke s1 c n v) fun s2 => .next (afterIssue c n v (markIssue c n v t s2))
    else .next s1

/-- One issue of a core: the register writes held behind firsts that have been performed are sent, a slice change that has to come about does, or the cadence has its turn. -/
def issueCore (s0 : State) (c : Nat) : Host.Outcome State Fault Refusal :=
  let s := heldOut s0 c
  match sliceForced s c with
  | some v => execSliceEnd (halfOf c) v s
  | none => issueNow s c

/-- The core that issues when the schedule names no act: the next after the last one, among the cores that have been used (DESIGN CHOICE, log 4). -/
def nextCore (s : State) : Nat :=
  let ks := s.cores.map (·.1)
  match ks.find? fun c => decide (c > s.lastCore) with
  | some c => c
  | none => ks.headD 0

/-- One act. After an orderly power-down nothing of the module acts but its power-on (R288, R290). -/
def act (s : State) (a : Act) : Host.Outcome State Fault Refusal :=
  if !s.power && a != .event .powerOn && (match a with | .hostMem .. | .peerMem .. | .soft _ => false | _ => true) then .next s
  else match a with
  | .issue c => if c < Config.numCores then issueCore { s with lastCore := c } c else .next s
  | .event i => if i.isWord then .next s else exec i s
  | .hostMem a bs => .next (wrList s ⟨.host, a⟩ bs)
  | .soft k => .next { s with soft := some k }
  | .fixed => .next (countLife s 2 0 0)
  | .peerMem a bs => .next { s with peer := wrBytes s.peer a bs }

/-- One step: the first act of the schedule, or an issue of the next core. -/
def step (s : State) : Host.Outcome State Fault Refusal :=
  let s0 := { s with tick := s.tick + 1 }
  match s0.agenda with
  | [] => act s0 (.issue (nextCore s0))
  | a :: r => act { s0 with agenda := r } a

/-- A line with an instruction in slot 0 and NOP behind it (R52, R382), no slot paired. -/
def lineWith (w : BitVec 96) : Line :=
  let nop := 0xE03000000000000000000000
  BitVec.ofNat 512 ((w.toNat + nop * (2 ^ 96 + 2 ^ 192 + 2 ^ 288 + 2 ^ 384)) * 2 ^ 32)

/-- A state whose next step fetches and runs a given instruction (log 3): the hub spoke of core 0 live in the kernel domain, the instruction in slot 0 of the line that its line buffer holds, and the next act an issue of core 0. -/
def State.withFetchWord (s : State) (nbits w : Nat) : State :=
  let pc : Word := 0x40000000
  let h := { (getCore s 0).hub with
    ctx := .live, stopReq := false, park := .none, pc := pc, dom := kernelDom, want := none, second := false, owed := [], sends := [], ahead := none
    win := [], outst := [], divs := [], lastIssue := none
    line := ⟨pc, lineWith (BitVec.ofNat 96 (w % 2 ^ nbits)), true, false, 0x40000000, 2 ^ 15, 0x40000000⟩ }
  { setCore s 0 { getCore s 0 with hub := h, last := 15 } with agenda := [.issue 0], soft := none, power := true }

end Sys2Proof.Machine
end

