-- ==== Sys2Proof/Safety.lean ====
section
/-! DEFINITION. What a safe run is, and the words that claims are said in: an instruction ready to issue, its sources read, its completion. -/

namespace Sys2Proof

open Machine

/-- Every memory of a state has its canonical form. -/
def memsOk (s : State) : Bool := memWf s.hbm && memWf s.host && memWf s.peer && memWf s.scr && memWf s.tb

/-- A step that answers a next state. -/
def Answers (s : State) : Prop := ∃ t, step s = .next t

/-- A run of `n` steps stays safe: every state has its memories in form and every step answers. -/
def Safe : Nat → State → Prop
  | 0, s => memsOk s = true
  | n + 1, s => memsOk s = true ∧ ∃ t, step s = .next t ∧ Safe n t

/-- An instruction issues in the issuing spoke of a state with none of the checks of R73, R19, R199 and R323 against it: its word passes, its sources are present (or its pair's check has passed them), its destinations are not pending, and it does not seal a window of engine commands that is open. -/
structure Ready (i : Instr) (s : State) : Prop where
  word : wordFault s i = none
  present : s.cur.checked = true ∨ ((curSp s).owed = [] ∧ firstEmpty (curSp s) [i] = none)
  free : (Instr.dests i).any (fun r => (curSp s).pendR r != .no) = false
  window : (curSp s).win = [] ∨ (unitSeals s [i] = false ∧ blocked (curSp s) = false)

/-- The state in which an instruction has read its sources and consumed those that it reads with SYN (R21). -/
def taken (i : Instr) (s : State) : State := modCur (countIssue s) fun p => p.consume (Instr.uses i)

/-- An instruction completes: `t` is what it makes of the state; the PC then moves to the successor, or the second of its pair issues (R54, R67). -/
def Completes (i : Instr) (s t : State) : Prop := exec i s = .next (settle (countIssue s) (.done t))

/-- An instruction completes with a change to its own spoke alone. -/
def CompletesWith (i : Instr) (s : State) (f : Spoke → Spoke) : Prop := Completes i s (modCur (taken i s) f)

/-- An instruction completes with a value in a general register. -/
def Writes (i : Instr) (s : State) (r : Fin 32) (x : Word) : Prop := CompletesWith i s fun p => p.wrG r x

/-- An instruction completes with a value in a vector register. -/
def WritesV (i : Instr) (s : State) (r : Fin 8) (x : Vector Lane 32) : Prop := CompletesWith i s fun p => p.wrV r x

/-- An instruction ends in a terminal fault: the exception of R264 is taken. -/
def Traps (i : Instr) (s : State) (code : FaultCode) (va : Word) (acc : Nat) : Prop :=
  exec i s = .next (settle (countIssue s) (.err code va acc))

/-- The two forms of a scalar operation and their results: on registers and with an immediate (R322, R324). -/
def forms (rrr rri : Instr) (f : Word → Word) (y imm : Word) : List (Instr × Word) := [(rrr, f y), (rri, f imm)]

/-- The arithmetic of group 000 and its results (R329, R341, R372, R380, R405): `x` is gA, and each operation takes gB or the immediate. -/
def arithTable (s : State) (d : Dst) (a b : Src) (m : BitVec 48) (u : Bool) (c : CmpCond) : List (Instr × Word) :=
  let x := src s a
  let y := src s b
  let i : Word := m.signExtend 64
  let wide (z : Word) : BitVec 128 := if u then z.zeroExtend 128 else z.signExtend 128
  let le (z w : Word) : Bool := if u then decide (z.toNat ≤ w.toNat) else decide (z.toInt ≤ w.toInt)
  let holds (z : Word) : Bool := match c with
    | .eq => decide (x = z) | .ne => decide (x ≠ z) | .lt => decide (x.toInt < z.toInt) | .le => decide (x.toInt ≤ z.toInt)
    | .ge => decide (z.toInt ≤ x.toInt) | .ltu => decide (x.toNat < z.toNat) | .leu => decide (x.toNat ≤ z.toNat)
  forms (.addRrr d a b) (.addRri d a m) (x + ·) y i
    ++ forms (.subRrr d a b) (.subRri d a m) (x - ·) y i
    ++ forms (.mulRrr d a b) (.mulRri d a m) (x * ·) y i
    ++ forms (.mulhRrr d a b u) (.mulhRri d a m u) (fun z => (wide x * wide z).extractLsb' 64 64) y i
    ++ forms (.minRrr d a b u) (.minRri d a m u) (fun z => if le x z then x else z) y i
    ++ forms (.maxRrr d a b u) (.maxRri d a m u) (fun z => if le z x then x else z) y i
    ++ forms (.cmpRrr d a b c) (.cmpRri d a m c) (fun z => if holds z then 1 else 0) y i

/-- The logic and the shifts of group 000 and their results (R330, R392). -/
def logicTable (s : State) (d : Dst) (a b : Src) (m : BitVec 48) : List (Instr × Word) :=
  let x := src s a
  let y := src s b
  let i : Word := m.signExtend 64
  forms (.andRrr d a b) (.andRri d a m) (x &&& ·) y i
    ++ forms (.orRrr d a b) (.orRri d a m) (x ||| ·) y i
    ++ forms (.xorRrr d a b) (.xorRri d a m) (x ^^^ ·) y i
    ++ forms (.andnRrr d a b) (.andnRri d a m) (fun z => x &&& ~~~z) y i
    ++ forms (.shlRrr d a b) (.shlRri d a m) (fun z => x <<< (z.toNat % 64)) y i
    ++ forms (.shrRrr d a b) (.shrRri d a m) (fun z => x >>> (z.toNat % 64)) y i
    ++ forms (.sraRrr d a b) (.sraRri d a m) (fun z => x.sshiftRight (z.toNat % 64)) y i
    ++ forms (.rotRrr d a b) (.rotRri d a m) (fun z => x.rotateLeft (z.toNat % 64)) y i

/-- The moves of group 000 whose results need no more than a formula (R364, R367, R379). -/
def moveTable (s : State) (d : Dst) (a : Src) (m : BitVec 48) (n : BitVec 16) : List (Instr × Word) :=
  let x := src s a
  let i : Word := m.signExtend 64
  [(.mov d a, x), (.li d m, i), (.lih d a n, n ++ x.extractLsb' 0 48), (.lea d (some a) m, x + i),
   (.lea d none m, (s.cur.pc &&& ~~~63#64) + i)]

/-- An instruction ends with a transfer made: `t` is the state, the PC already moved (R57). -/
def Goes (i : Instr) (s t : State) : Prop := exec i s = .next t

/-- An instruction sends its result to the register of another spoke, or traps on its handle (R27, R71). -/
def Sends (i : Instr) (s : State) (r : Fin 32) (h : Src) (x : Word) : Prop :=
  match remoteTarget s (src s h) with
  | .ok (c, n, v) => Completes i s (sendReg (taken i s) c n v r x s.cur.core s.cur.sp s.cur.vf s.cur.late)
  | .error f => Traps i s f 0 0

/-- An instruction delivers a value to its destination, local or remote. -/
def Delivers (i : Instr) (s : State) (d : Dst) (x : Word) : Prop :=
  match d with
  | .loc r => Writes i s r x
  | .remote r h => Sends i s r h x

/-- The state in which a core has chosen a spoke at a cc: the cc has come and its park is over (R16). -/
def chosen (s : State) (c n t : Nat) : State := wakeUp (passTo s t) c n (vfOf s c)

/-- What follows the issue of a spoke at a cc: its floor and the rotation start there, and a stop that was asked for takes effect or the next line is entered (R16, R45, R60). -/
def issued (c n v t : Nat) (x : State) : State := afterIssue c n v (markIssue c n v t x)

/-- A spoke that can issue the instruction at its PC: live, nothing awaited, no trap owed, its line held (R16, R60). -/
def Issuable (p : Spoke) : Prop := p.ctx = .live ∧ blocked p = false ∧ p.owed = [] ∧ p.want = none

/-- The first slot of a pair, to be issued as a pair (R64). -/
def startsPair (p : Spoke) : Bool := decide (slotOf p.pc < 4) && linePair p.line.line (slotOf p.pc) && !p.second

/-- A transfer of the issuing spoke into the line that it holds, after the checks of R56 there (R60). -/
def Within (s : State) (k : EntryKind) (target : Word) : Prop :=
  (curSp s).line.present = true ∧ (curSp s).line.stale = false ∧ lineOf target = (curSp s).line.addr
    ∧ entryCode k (curSp s).line.line (slotOf target) false true = none

/-- A transfer of the issuing spoke to another line, whose page passes the checks of R55. -/
def Elsewhere (s : State) (target : Word) (r : Res) : Prop :=
  ¬ ((curSp s).line.present = true ∧ (curSp s).line.stale = false ∧ lineOf target = (curSp s).line.addr)
    ∧ fetchLine s s.cur.core s.cur.vf target = .ok r

/-- The PC of the issuing spoke moves within its line (R60). -/
def jumpTo (target : Word) (s : State) : State := modCur s fun p => { p with pc := target, want := none, ahead := none, second := false }

/-- The transfers of group 001 and of R265's kin: kind, target, what completes with them (R333, R336, R349, R353, R368, R390). -/
def transferTable (s : State) (l c : Fin 32) (a : Src) (nz : Bool) (b : BrTarget) : List (Instr × EntryKind × Word × (State → State) × Bool) :=
  let pc := s.cur.pc
  let p := curSp s
  let lab := brTarget pc b
  let link (x : State) : State := modCur x fun q => q.wrG l (nextPc pc)
  let call (x : State) : State := modCur x (dcallEnd p.dom (nextPc pc) l)
  [(.br b, .branch, lab, id, true),
   (.bc a nz b, .branch, lab, id, (src s a != 0) == nz),
   (.bri a, .branch, src s a, id, pcOk (src s a)),
   (.call l b, .branch, lab, link, true),
   (.ret a, .branch, src s a, id, pcOk (src s a)),
   (.loop c b, .branch, lab, fun x => modCur x fun q => q.wrG c (p.rdG c - 1), decide (p.rdG c ≠ 0 ∧ p.rdG c ≠ 1)),
   (.dcallLabel l b, .dcall, lab, call, decide (p.drs.length < 16)),
   (.dcallReg l a, .dcall, src s a, call, decide (p.drs.length < 16) && pcOk (src s a))]

/-- The divisions of group 000 and their results (R351, R389): the quotient towards zero, all ones for a divisor of 0, and the remainder. -/
def divTable (s : State) (d : Dst) (a b : Src) (m : BitVec 48) (u : Bool) : List (Instr × Word) :=
  let x := src s a
  let y := src s b
  let i : Word := m.signExtend 64
  let q (z : Word) : Word := if z = 0 then BitVec.allOnes 64 else if u then x / z else x.sdiv z
  let r (z : Word) : Word := if z = 0 then x else if u then x % z else x.srem z
  forms (.divRrr d a b u) (.divRri d a m u) q y i ++ forms (.remRrr d a b u) (.remRri d a m u) r y i

/-- The opcodes that the spec assigns, but for ILL, in runs from first to last, with the formats that each permits: RRR 0, RRI 1, MEM 2, BR 3, VEC 4, TILE 5, SYS 6 (R69, R76). -/
def opcodes : List (Nat × Nat × List Nat) :=
  [(0x001, 0x00E, [0, 1]), (0x00F, 0x011, [0]), (0x012, 0x014, [0, 1]), (0x015, 0x016, [0]), (0x017, 0x01C, [1]),
   (0x080, 0x081, [3]), (0x082, 0x082, [0]), (0x083, 0x083, [3]), (0x084, 0x084, [0]), (0x085, 0x085, [3]), (0x086, 0x086, [3, 0]),
   (0x087, 0x088, [0]),
   (0x100, 0x102, [2]), (0x103, 0x105, [6]), (0x106, 0x106, [0]), (0x108, 0x10F, [2]),
   (0x180, 0x182, [0]), (0x188, 0x18E, [0]), (0x190, 0x191, [1]), (0x192, 0x194, [0]), (0x198, 0x19D, [0]), (0x1A0, 0x1A0, [1]),
   (0x1A1, 0x1A2, [0]),
   (0x200, 0x204, [5]), (0x208, 0x209, [5]), (0x210, 0x210, [0, 1]), (0x211, 0x214, [5]), (0x218, 0x21B, [0]), (0x220, 0x220, [5]),
   (0x221, 0x222, [0]), (0x228, 0x229, [0]),
   (0x280, 0x28E, [4]), (0x290, 0x291, [4]), (0x298, 0x29A, [4]), (0x2A0, 0x2A1, [4]), (0x2A8, 0x2A8, [4]), (0x2B0, 0x2B0, [4]),
   (0x300, 0x303, [4]), (0x308, 0x30A, [4]), (0x310, 0x311, [4]), (0x318, 0x31B, [4]), (0x380, 0x386, [6])]

/-- Whether an opcode is assigned and permits a format (R73 checks 2 to 4, R76). -/
def permits (op fmt : Nat) : Bool := opcodes.any fun r => decide (r.1 ≤ op) && decide (op ≤ r.2.1) && r.2.2.contains fmt

/-- Whether a place lies among the `n` bytes from another. -/
def inside (l m : Loc) (n : Nat) : Prop := m.sp = l.sp ∧ l.a ≤ m.a ∧ m.a < l.a + n

/-- A state differs from another in no byte of memory but the `n` at a place. -/
def SameBut (s t : State) (l : Loc) (n : Nat) : Prop := ∀ m, ¬ inside l m n → rdLoc t m = rdLoc s m

/-- A state differs from another in no byte of memory. -/
def SameMem (s t : State) : Prop := ∀ m, rdLoc t m = rdLoc s m

/-- An element of an access that no kick page of the device takes. -/
def Ordinary (l : Loc) : Prop := l.sp ≠ .stw ∧ (l.sp ≠ .host ∨ Config.kickFn (l.a / 4096) = none)

/-- A waiter at a bank that is a spoke of the device, not a state image in memory (R49). -/
def OnChip (w : BankWaiter) : Prop := ∃ c n v, w.owner = .spoke c n v

/-- No earlier access of the spoke that has not been performed touches a place: nothing of R130 item 2 goes before. -/
def FirstAt (p : Spoke) (id : Nat) (l : Loc) (n : Nat) : Prop :=
  (p.outst.filter fun q => decide (q.id < id) && reqMeets l n q) = []

/-- An access that an earlier one may hold back: every access but one on the read-only path (R130 item 2). -/
def MayGo (p : Spoke) (r : Req) (x : LaneAcc) : Prop := x.ro = false → FirstAt p r.id x.loc r.n

/-- The number that an element of an access reads: the bytes of its place, WIDX at a kick page, the held line on the read-only path (R11, R112, R243). -/
def ReadsAs (s : State) (tile n : Nat) (x : LaneAcc) (y : Nat) : Prop :=
  (x.ro = false → Ordinary x.loc → y = rdN s x.loc n)
  ∧ (x.ro = false → x.loc.sp = .host → ∀ fn, Config.kickFn (x.loc.a / 4096) = some fn → y = kickLoad s fn (x.loc.a % 4096) n)
  ∧ (x.ro = true → x.loc.a % 64 + n ≤ 64 →
    (∀ l, rfind s tile x.loc = some l → Config.evict s.tick x.loc.a = false → y = bitsN l.line.toNat (8 * (x.loc.a % 64)) (8 * n))
    ∧ (rfind s tile x.loc = none → y = rdN s x.loc n))

/-- What an atomic writes, over numbers of its width (R325). -/
def atomicNew {w : Nat} (op : AtOp) (o b c : BitVec w) : BitVec w :=
  match op with
  | .add => o + b | .band => o &&& b | .bor => o ||| b | .bxor => o ^^^ b
  | .min true => if b.ult o then b else o | .min false => if b.slt o then b else o
  | .max true => if o.ult b then b else o | .max false => if o.slt b then b else o
  | .swp => b | .cas => if o = c then b else o

/-- The atomics with their operations and third sources (R325). -/
def atomicTable (rlx u : Bool) (d : Fin 32) (a b c : Src) (sz : Size) (disp : BitVec 48) (s : State) : List (Instr × AtOp × Word) :=
  [(.aadd rlx d a b sz disp, .add, 0), (.aand rlx d a b sz disp, .band, 0), (.aor rlx d a b sz disp, .bor, 0),
   (.axor rlx d a b sz disp, .bxor, 0), (.amin rlx u d a b sz disp, .min u, 0), (.amax rlx u d a b sz disp, .max u, 0),
   (.aswp rlx d a b sz disp, .swp, 0), (.acas rlx d a b c sz disp, .cas, src s c)]

/-- An instruction completes with an access on its way: a plain one parks its spoke, a relaxed load or atomic leaves its register owed (R17, R134). -/
def Requests (i : Instr) (s t : State) (kind : ReqKind) (n : Nat) (accs : List LaneAcc) (plain posted : Bool) (eaten : List Reg)
    (va : Word) (owe : Nat → Spoke → Spoke) : Prop :=
  Completes i s (if plain then addReq t kind n accs plain posted eaten va else modCur (addReq t kind n accs plain posted eaten va) (owe s.nextId))

/-- A waiter's want is a load of the presence word. -/
def BankWait.isLd : BankWait → Bool
  | .ldF _ | .ldS _ => true
  | _ => false

/-- The accesses of a request have no byte in common. -/
def Apart (n : Nat) (l : List LaneAcc) : Prop := l.Pairwise fun x y => x.loc.sp ≠ y.loc.sp ∨ x.loc.a + n ≤ y.loc.a ∨ y.loc.a + n ≤ x.loc.a

/-- The first byte of an image in HBM. -/
def firstOf (ls : List (Loc × Nat)) : Nat := match ls with | (l, _) :: _ => l.a | [] => 0

/-- The pieces of an image have no byte in common. -/
def ApartPlaces (ls : List (Loc × Nat)) : Prop :=
  ls.Pairwise fun x y => x.1.sp ≠ y.1.sp ∨ x.1.a + x.2 ≤ y.1.a ∨ y.1.a + y.2 ≤ x.1.a

/-- The park of the issuing spoke. -/
def parked (k : Park) (s : State) : State := modCur s fun p => { p with park := k }

/-- The instructions that change nothing but registers of their own spoke. -/
def Instr.regOnly : Instr → Bool
  | .addRrr (.loc _) _ _ | .subRrr (.loc _) _ _ | .mulRrr (.loc _) _ _ | .mulhRrr (.loc _) _ _ _ | .andRrr (.loc _) _ _
  | .orRrr (.loc _) _ _ | .xorRrr (.loc _) _ _ | .andnRrr (.loc _) _ _ | .shlRrr (.loc _) _ _ | .shrRrr (.loc _) _ _
  | .sraRrr (.loc _) _ _ | .rotRrr (.loc _) _ _ | .minRrr (.loc _) _ _ _ | .maxRrr (.loc _) _ _ _ | .cmpRrr (.loc _) _ _ _
  | .addRri (.loc _) _ _ | .subRri (.loc _) _ _ | .mulRri (.loc _) _ _ | .mulhRri (.loc _) _ _ _ | .andRri (.loc _) _ _
  | .orRri (.loc _) _ _ | .xorRri (.loc _) _ _ | .andnRri (.loc _) _ _ | .shlRri (.loc _) _ _ | .shrRri (.loc _) _ _
  | .sraRri (.loc _) _ _ | .rotRri (.loc _) _ _ | .minRri (.loc _) _ _ _ | .maxRri (.loc _) _ _ _ | .cmpRri (.loc _) _ _ _
  | .clz (.loc _) _ | .ctz (.loc _) _ | .popc (.loc _) _ | .mov (.loc _) _ | .li (.loc _) _ | .lih (.loc _) _ _ | .lea (.loc _) _ _
  | .bfx (.loc _) _ _ _ | .bfi (.loc _) _ _ _ _ | .sext (.loc _) _ _ | .sel .. => true
  | .vadd .. | .vsub .. | .vmul .. | .vfma .. | .vmin .. | .vmax .. | .vabs .. | .vneg .. | .viadd .. | .vimul .. | .vand .. | .vor ..
  | .vxor .. | .vshl .. | .vshr .. | .vcmp .. | .vsel .. | .vexp2 .. | .vrcp .. | .vrsq .. | .vredadd .. | .vredmax .. | .vperm ..
  | .vrng .. | .vbcast .. | .vext .. | .vins .. | .vcvt .. | .vqnt .. | .kand .. | .kor .. | .knot .. | .kpop .. => true
  | .ptest .. | .nop => true
  | _ => false

/-- The instructions that write a mask register (R360, R425). -/
def Instr.writesK : Instr → Bool
  | .vcmp .. | .kand .. | .kor .. | .knot .. => true
  | _ => false

/-- The instructions that can set a flag (R170, R419). -/
def Instr.setsFlags : Instr → Bool
  | .vadd .. | .vsub .. | .vmul .. | .vfma .. | .vmin .. | .vmax .. | .viadd .. | .vimul .. | .vcmp .. | .vexp2 .. | .vrcp .. | .vrsq ..
  | .vredadd .. | .vredmax .. | .vcvt .. | .vqnt .. => true
  | _ => false

/-- The lanes that the mask register names, in ascending order (R419). -/
def activeLanes (s : State) (km : Fin 4) : List (Fin 32) := (List.finRange 32).filter fun j => (curSp s).k[km].getLsbD j.val

/-- An instruction completes lane by lane: active lanes take their results and set their flags, the others keep their bits (R419). -/
def WritesLanes (i : Instr) (s : State) (km : Fin 4) (d : Fin 8) (f : Fin 32 → Lane × BitVec 5) : Prop :=
  CompletesWith i s fun p =>
    (p.wrV d (Vector.ofFn fun j : Fin 32 => if (curSp s).k[km].getLsbD j.val then (f j).1 else (curSp s).v[d].val[j])).orFlags
      ((activeLanes s km).foldl (fun g j => g ||| (f j).2) 0)

/-- The rational number that a finite value stands for: ± m × 2^e. -/
def Machine.Num.val : Machine.Num → ℚ
  | .fin neg m e => (if neg then -1 else 1) * (m : ℚ) * (2 : ℚ) ^ e
  | _ => 0

/-- The value of a code of a binary floating format. -/
def Machine.BinFmt.mag (b : BinFmt) (c : Nat) : ℚ := (b.dec c).val

/-- The binary floating formats with their layouts, and the codes of the NaN that the device computes, of +Inf as a result, and of the largest finite value (R161, R162, R168). -/
def floatFormats : List (Fmt × BinFmt × Nat × Nat × Nat) :=
  [(.fp4, ⟨1, 2, 1, .fp4⟩, 0, 7, 7), (.e4m3, ⟨3, 4, 7, .e4m3⟩, 0x7F, 0x7E, 0x7E), (.e5m2, ⟨2, 5, 15, .ieee⟩, 0x7E, 0x7C, 0x7B),
   (.bf16, ⟨7, 8, 127, .ieee⟩, 0x7FC0, 0x7F80, 0x7F7F), (.f16, ⟨10, 5, 15, .ieee⟩, 0x7E00, 0x7C00, 0x7BFF),
   (.f32, ⟨23, 8, 127, .ieee⟩, 0x7FC00000, 0x7F800000, 0x7F7FFFFF)]

/-- Whether a rounding mode takes magnitudes of a sign away from zero; none for the nearest (R74). -/
def away : Rnd → Bool → Option Bool
  | .rne, _ => none
  | .rtz, _ => some false
  | .rdn, neg => some neg
  | .rup, neg => some (!neg)

/-- A code is the nearest to a magnitude among codes up to a greatest one, of two that are as near the even one (R168). -/
def NearestEven (mag : Nat → ℚ) (lo hi : Nat) (x : ℚ) (c : Nat) : Prop :=
  ∀ d, lo ≤ d → d ≤ hi → |mag c - x| < |mag d - x| ∨ (|mag c - x| = |mag d - x| ∧ (c % 2 = 0 ∨ d = c))

/-- A code is what a magnitude in range rounds to (R74, R168). -/
def Machine.BinFmt.Rounds (b : BinFmt) (top : Nat) (rnd : Rnd) (neg : Bool) (x : ℚ) (c : Nat) : Prop :=
  match away rnd neg with
  | none => NearestEven b.mag 0 top x c
  | some false => b.mag c ≤ x ∧ ∀ d ≤ top, b.mag d ≤ x → d ≤ c
  | some true => x ≤ b.mag c ∧ ∀ d ≤ top, x ≤ b.mag d → c ≤ d

/-- A magnitude that rounds beyond the largest finite value, with the exponent range unbounded (R168). -/
def Machine.BinFmt.Overflows (b : BinFmt) (top : Nat) (rnd : Rnd) (neg : Bool) (x : ℚ) : Prop :=
  let ulp := b.mag top - b.mag (top - 1)
  match away rnd neg with
  | none => b.mag top + ulp / 2 < x ∨ (b.mag top + ulp / 2 = x ∧ top % 2 = 1)
  | some false => b.mag top + ulp ≤ x
  | some true => b.mag top < x

/-- A magnitude that is below the smallest normal after rounding with the exponent range unbounded (R168). -/
def Machine.BinFmt.Tiny (b : BinFmt) (rnd : Rnd) (neg : Bool) (x : ℚ) : Prop :=
  let least := b.mag (2 ^ b.f)
  let ulp := least / 2 ^ (b.f + 1)
  x < least ∧ match away rnd neg with
    | none => x < least - ulp / 2
    | some false => True
    | some true => x ≤ least - ulp

/-- A result and its flags are those of R168 for a magnitude `x` of a sign: an overflow, or a rounded code with INX and UNF. -/
def Machine.BinFmt.Result (b : BinFmt) (inf top : Nat) (rnd : Rnd) (sat neg : Bool) (x : ℚ) (r : Nat × BitVec 5) : Prop :=
  let sign := 2 ^ (b.f + b.eb) * neg.toNat
  let toInf := b.style = .ieee ∧ away rnd neg ≠ some false
  (b.Overflows top rnd neg x → (toInf → sat = false → r = (sign + inf, fOvf ||| fInx))
    ∧ (toInf → sat = true → r = (sign + top, fOvf ||| fInx ||| fSat)) ∧ (¬ toInf → r = (sign + top, fOvf ||| fInx)))
  ∧ (¬ b.Overflows top rnd neg x → ∃ c ≤ top, b.Rounds top rnd neg x c ∧ r.1 = sign + c ∧ r.2 &&& ~~~(fInx ||| fUnf) = 0
    ∧ (r.2 &&& fInx ≠ 0 ↔ b.mag c ≠ x) ∧ (r.2 &&& fUnf ≠ 0 ↔ b.mag c ≠ x ∧ b.Tiny rnd neg x))

/-- The NaN lanes of FP32, and the signalling ones among them (R161). -/
def laneNan (a : Lane) : Bool := decide (0x7F800000 < a.toNat % 2 ^ 31)

/-- The signalling NaN lanes of FP32. -/
def laneSig (a : Lane) : Bool := laneNan a && !a.getLsbD 22

/-- The infinite lanes of FP32. -/
def laneInf (a : Lane) : Bool := decide (a.toNat % 2 ^ 31 = 0x7F800000)

/-- The finite lanes of FP32. -/
def laneFin (a : Lane) : Bool := decide (a.toNat % 2 ^ 31 < 0x7F800000)

/-- The value of a finite FP32 lane. -/
def laneVal (a : Lane) : ℚ := (f32 a).val

/-- The sign bit of a lane, alone. -/
def signOf (a : Lane) : Lane := a &&& 0x80000000

/-- A lane and flags are an exact value rounded to FP32; an exact zero is the zero lane given (R168, R421). -/
def LaneRounds (rnd : Rnd) (sat : Bool) (x : ℚ) (zero : Lane) (r : Lane × BitVec 5) : Prop :=
  (x = 0 → r = (zero, 0)) ∧ (x ≠ 0 → BinFmt.Result ⟨23, 8, 127, .ieee⟩ 0x7F800000 0x7F7FFFFF rnd sat (decide (x < 0)) |x| (r.1.toNat, r.2))

/-- Whether a value has a minus sign. -/
def negOf : Machine.Num → Bool
  | .fin neg _ _ => neg
  | .inf neg => neg
  | .nan _ => false

/-- One value ranks below another by magnitude: NaN above infinities, these above finite values (R191). -/
def Below (a b : Machine.Num) : Prop :=
  a.isNan = false ∧ (b.isNan = true ∨ (∃ neg, b = .inf neg ∧ ∃ g m e, a = .fin g m e)
    ∨ ∃ g m e g' m' e', a = .fin g m e ∧ b = .fin g' m' e' ∧ |a.val| < |b.val|)

/-- The exact sum of the products of a block (R172). -/
def dot (xs : List (Machine.Num × Machine.Num)) : ℚ := (xs.map fun p => p.1.val * p.2.val).sum

/-- The zero of a sum of two lanes' signs: theirs where they agree, else +0, or −0 under RDN (R421). -/
def sumZero (rnd : Rnd) (a b : Lane) : Lane := if signOf a = signOf b then signOf a else if rnd = .rdn then 0x80000000 else 0

/-- The lane-wise floating-point instructions and their lanes (R421, R422, R427, R429). -/
def floatTable (s : State) (rnd : Rnd) (sat : Bool) (km : Fin 4) (d : Fin 8) (a b c : VSrc) (df sf : Fmt) :
    List (Instr × (Fin 32 → Lane × BitVec 5)) :=
  let x (j : Fin 32) : Lane := (curSp s).v[a.reg].val[j]
  let y (j : Fin 32) : Lane := (curSp s).v[b.reg].val[j]
  let z (j : Fin 32) : Lane := (curSp s).v[c.reg].val[j]
  [(.vadd rnd sat km d a b, fun j => addF32 rnd sat (x j) (y j)), (.vsub rnd sat km d a b, fun j => subF32 rnd sat (x j) (y j)),
   (.vmul rnd sat km d a b, fun j => mulF32 rnd sat (x j) (y j)), (.vfma rnd sat km d a b c, fun j => fmaF32 rnd sat (x j) (y j) (z j)),
   (.vmin km d a b, fun j => minF32 (x j) (y j)), (.vmax km d a b, fun j => maxF32 (x j) (y j)),
   (.vabs km d a, fun j => ((x j).setWidth 31 |>.setWidth 32, 0)), (.vneg km d a, fun j => (x j ^^^ 0x80000000, 0)),
   (.vexp2 km d a, fun j => exp2F32 (x j)), (.vrcp km d a, fun j => rcpF32 (x j)), (.vrsq km d a, fun j => rsqF32 (x j)),
   (.vcvt df sf rnd sat km d a, fun j => cvtLane df sf rnd sat (x j))]

/-- The lane-wise integer instructions, permutation, random numbers and broadcast, and their lanes (R423, R424, R433, R436). -/
def laneTable (s : State) (sat : Bool) (km : Fin 4) (d : Fin 8) (a b : VSrc) (g h : Src) (w : BitVec 2) :
    List (Instr × (Fin 32 → Lane × BitVec 5)) :=
  let x (j : Fin 32) : Lane := (curSp s).v[a.reg].val[j]
  let y (j : Fin 32) : Lane := (curSp s).v[b.reg].val[j]
  let clamp (n : Int) : Lane × BitVec 5 :=
    if sat = true ∧ 2 ^ 31 - 1 < n then (0x7FFFFFFF, fSat) else if sat = true ∧ n < -(2 ^ 31) then (0x80000000, fSat) else (BitVec.ofInt 32 n, 0)
  [(.viadd sat km d a b, fun j => clamp ((x j).toInt + (y j).toInt)), (.vimul sat km d a b, fun j => clamp ((x j).toInt * (y j).toInt)),
   (.vand km d a b, fun j => (x j &&& y j, 0)), (.vor km d a b, fun j => (x j ||| y j, 0)), (.vxor km d a b, fun j => (x j ^^^ y j, 0)),
   (.vshl km d a b, fun j => (x j <<< ((y j).toNat % 32), 0)), (.vshr km d a b, fun j => (x j >>> ((y j).toNat % 32), 0)),
   (.vperm km d a b, fun j => (x ⟨(y j).toNat % 32, Nat.mod_lt _ (by decide)⟩, 0)),
   (.vrng w km d g h, fun j => (philox (src s g) (src s h) j.val w, 0)), (.vbcast km d g, fun _ => ((src s g).setWidth 32, 0))]

/-- The engine commands with the right each needs, its register and what it records (R197, R198, R369, R373 to R381, R396). -/
def engineTable (s : State) (f : Fmt) (sc sp2 tr ovw sat : Bool) (rnd : Rnd) (q : Quad) (d l : Fin 32) (a b c : Src) (x : VSrc)
    (n k : BitVec 10) (adj : BitVec 8) (op : CollOp) : List (Instr × EngRight × CmdArgs) :=
  let ga := src s a
  let gb := src s b
  let gc := src s c
  let lanes := (curSp s).v[x.reg].val.toList
  [(.mldw f sc sp2 tr d q a b n k, .emat,
      ⟨.mldw, f.code + sc.toNat * 16 + sp2.toNat * 32 + tr.toNat * 64, q.code + n.toNat * 16 + k.toNat * 2 ^ 14, ga, gb, 0, 0, []⟩),
   (.mmul f sc ovw sat d q a b c, .emat, ⟨.mmul, f.code + sc.toNat * 16 + ovw.toNat * 32 + sat.toNat * 64, q.code, ga, gb, gc, 0, []⟩),
   (.mdrain f rnd sat d q a b c n adj, .emat,
      ⟨.mdrain, f.code + rnd.code * 16 + sat.toNat * 64, q.code + n.toNat * 16 + adj.toNat * 2 ^ 14, ga, gb, gc, 0, []⟩),
   (.mzero d q a b n, .emat, ⟨.mzero, 0, q.code + n.toNat * 16, ga, gb, 0, 0, []⟩),
   (.spcmp f sc d a b c n k, .emat, ⟨.spcmp, f.code + sc.toNat * 16, n.toNat * 16 + k.toNat * 2 ^ 14, ga, gb, gc, 0, []⟩),
   (.lyt d a b l, .elyt, ⟨.lyt, 0, 0, ga, gb, (curSp s).rdG l, (curSp s).rdG (l + 1), []⟩),
   (.cpgo d, .ecpy, ⟨.cpgo, 0, 0, 0, 0, 0, 0, []⟩), (.cpgath d x, .ecpy, ⟨.cpgath, 0, 0, 0, 0, 0, 0, lanes⟩),
   (.cpscat d x, .ecpy, ⟨.cpscat, 0, 0, 0, 0, 0, 0, lanes⟩), (.coll op d a, .ecol, ⟨.coll, op.code, 0, ga, 0, 0, 0, []⟩)]

/-- Commands enter their queues in order, each with its checks passed; none where one of them fails (R208, R210). -/
def entersAll : State → List Cmd → Option State
  | s, [] => some s
  | s, c :: r => if shapeOk c then match dispCheck s c with | .ok d => entersAll (enter s d) r | _ => none else none

/-- The originals of a rewritten group, each with the lends that meet its operands (R94, R208). -/
def groupOrigs (s : State) (w : List Cmd) : List Cmd := w.map fun c => { c with snap := snapOf c (c.opnds s) }

/-- The state in which a rewritten group has been numbered and its originals have become its own, up to the group itself (R208). -/
def groupOpen (s : State) (w : List Cmd) : State :=
  let s1 := (w.zip (groupOrigs s w)).foldl (fun s c => modOwner s c.1.owner fun p => dropSnap (holdSnap p c.2.snap) c.1.snap) (bump s)
  match (w.findSome? (·.pub)).bind (getPub s1 ·) with
  | some p => { s1 with pubs := mset s1.pubs p.id { p with regions := (p.regions ++ w.flatMap (·.panes)).dedup } }
  | none => s1

/-- The commands of a rewritten group, with their numbers (R208, R209). -/
def groupCmds (s : State) (w cs : List Cmd) : List Cmd := (numberCmds (groupOpen s w) s.nextId ((w.map (·.po)).foldl max 0) cs).2

/-- The state in which a rewritten group stands and none of its commands has entered (R208). -/
def groupStart (s : State) (k : Nat) (w cs : List Cmd) : State :=
  let s1 := (numberCmds (groupOpen s w) s.nextId ((w.map (·.po)).foldl max 0) cs).1
  match w with
  | [] => s1
  | x :: _ =>
    let t : TrGrp := { id := s.nextId, owner := x.owner, core := x.core, vf := x.vf, rule := k, origs := groupOrigs s w
                       cmds := (groupCmds s w cs).map (·.id), regions := (cs.flatMap (cmdRegions s)).dedup, ovl := []
                       pub := w.findSome? (·.pub), flags := 0, held := false, latches := [] }
    { s1 with tgrps := mset s1.tgrps s.nextId t }

/-- A command has written bytes at places: those of a tile buffer are in its panes, the others wait to become visible, and every other tile-buffer byte reads as before (R114, R128). -/
def Puts (s : State) (c d : Cmd) (ls : List Loc) (bs : List Byte) : Prop :=
  d.out = c.out ++ (ls.zip bs).filter (fun p => decide (p.1.sp ≠ .tb))
  ∧ (∀ p ∈ ls.zip bs, p.1.sp = .tb → tbByte s d p.1.a = p.2)
  ∧ ∀ a, (∀ l ∈ ls, l.sp = .tb → l.a ≠ a) → tbByte s d a = tbByte s c a

/-- One unit of work of a command succeeds: bytes written at places, its progress and its flags (R193). -/
def Works (s : State) (c : Cmd) (done : Nat) (fl : BitVec 5) (ls : List Loc) (bs : List Byte) : Prop :=
  ∃ d, runOne s c = .ok (s, d) ∧ d.done = done ∧ d.flags = c.flags ||| fl ∧ Puts s c d ls bs

/-- The places of a write, no two of them one byte. -/
def Places (s : State) (c : Cmd) (o : Opnd) (x : Int) (n : Nat) (ls : List Loc) : Prop :=
  engLocs s c o x n = .ok ls ∧ ls.Pairwise (· ≠ ·)

/-- A packet at the head of its source that is next to be served: in turn, past its fence, of the type, with no bad field (R243, R246, R254). -/
def Served (s : State) (src : PktSrc) (type : Nat) (b : List Byte) : Prop :=
  (match src with | .queue v q => myTurn s v q | .node .. => true) = true ∧ srcHead s src = .pkt b ∧ fenceOk s src b = true
    ∧ pktType b = type ∧ pktBad b = false

/-- A packet leaves its source and is started; `done` when it completes as it starts (R254). -/
def started (s : State) (src : PktSrc) (b : List Byte) (done : Bool) : State := addPkt (leave s src) src (pktCsig b) done

/-- The controller is at work on a command with a given argument length and chunk (R289). -/
def MbRuns (s : State) (code len chunk : Nat) : Prop := mbRuns s code = true ∧ mbLen s = len ∧ mbChunk s = chunk

/-- The reply that the controller prepares. -/
def replied (s : State) (r : Nat × List Byte × Nat) : State := { s with ctrl := { s.ctrl with reply := some r } }

end Sys2Proof
end

