-- ==== Sys2Proof/Certificates/Slice0/Obligations.lean ====
section
/-! DEFINITION. The statements for the provers. -/

open Sys2Proof Sys2Proof.Machine

/-! Encoding. -/

/-- R68 to R77: words that the spec writes out, of every group, decode to the instructions they stand for. -/
def Obligations.DecodeWords : Prop :=
  ∀ p ∈ ([(0x004028620000000000000000, .addRrr (.loc 5) ⟨3, false⟩ ⟨4, false⟩),
      (0x00414A801800000000000000, .addRrr (.remote 9 ⟨12, false⟩) ⟨20, false⟩ ⟨0, false⟩),
      (0x215801800000FFFFFFFFFFF8, .loop 12 ⟨0x1FFFFFFFFFFF, 0⟩),
      (0x401440C00002000000000004, .ld true 8 ⟨6, false⟩ .w false 4),
      (0x680841250000000000000001, .lend 8 ⟨9, false⟩ ⟨10, false⟩ 1),
      (0x806849459830000000000000, .mmul .fp4 true true false 9 .q0 ⟨10, false⟩ ⟨11, false⟩ ⟨12, false⟩),
      (0xA0E00841880C000000000000, .vfma .rne true 1 1 ⟨2, false⟩ ⟨3, false⟩ ⟨4, false⟩),
      (0xC06000C20000000000000040, .vst false 0 ⟨6, false⟩ ⟨4, false⟩ 0x40),
      (0xE0F0D0000000000000000008, .rds 26 8)] : List (BitVec 96 × Instr)), decodeWord p.1 = .ok p.2

/-- Decoding the word of a well-formed instruction gives the instruction back, with every operand at every value that its encoding admits. -/
def Obligations.DecodeEncode : Prop :=
  ∀ (i : Instr) (w : BitVec 96), i.wf = true → encode i = some w → decodeWord w = .ok i

/-- R73 checks 1 to 5, R76, R359: a word that decodes is the word of the well-formed instruction it decodes to, no bit of it being ignored, but that ILL's opcode is ILL whatever else the word holds. FMT 7, an opcode that is not assigned and a format that the opcode does not permit raise ILLEGAL_OP; a word of an assigned opcode in a format it permits decodes, or raises ILLEGAL_FIELD. -/
def Obligations.EncodeDecode : Prop :=
  (∀ (w : BitVec 96) (i : Instr), decodeWord w = .ok i → i.wf = true ∧ (i ≠ .ill → encode i = some w))
  ∧ ∀ w : BitVec 96,
    let op := fieldN w 86 10
    let fmt := fieldN w 83 3
    (op = 0x3FF → decodeWord w = .ok .ill)
    ∧ (op ≠ 0x3FF → permits op fmt = false → decodeWord w = .bad .illegalOp)
    ∧ (permits op fmt = true → ∀ f, decodeWord w = .bad f → f = .illegalField)

/-! The line (R52, R53). -/

/-- R53: bit i of slot k is instruction bit 96k + i; the parity of a line holds exactly when every chunk of 30 instruction bits agrees with its PARITY bit. -/
def Obligations.LineParity : Prop :=
  ∀ l : Line,
    (∀ k < 5, ∀ i < 96, (lineSlot l k).getLsbD i = l.getLsbD (32 + (96 * k + i)))
    ∧ (parityOk l = true ↔ ∀ c < 16,
        l.getLsbD (16 + c) = ((List.range 30).map fun i => l.getLsbD (32 + (30 * c + i))).foldl xor false)

/-! The step. -/

/-- A step of a core on which no slice change is due, and whose chosen spoke stands at an unpaired word, issues the instruction that the word decodes to; then a stop that was asked for takes effect, or the next line is entered (R16, R45, R60). That steps are taken from an agenda is the model's choice (log 4), and so are when a slice change is due (log 56) and that the word at the second slot of a pair, entered there by a trap vector or TRET, issues alone (log 84). -/
def Obligations.StepRunsDecoded : Prop :=
  ∀ (s : State) (c n t : Nat) (r : List Act) (i : Instr), s.power = true → s.agenda = .issue c :: r → c < Config.numCores →
    let s0 := heldOut { s with tick := s.tick + 1, agenda := r, lastCore := c } c
    let v := vfOf s0 c
    let u := chosen s0 c n t
    let p := getSp u c n v
    sliceForced s0 c = none → pick s0 c v = some (n, t) → Issuable p → startsPair p = false → decodeWord (lineSlot p.line.line (slotOf p.pc)) = .ok i →
      step s = onNext (exec i (withCur u c n v p.pc (nextPc p.pc) false false false)) fun x => .next (issued c n v t x)

/-- R64, R67, R199: at the first slot of a pair whose words pass and whose sources are present, the first issues and then the second; where one of them is to park behind an open window, the window is sealed and the pair issues after the seal. That steps are taken from an agenda is the model's choice (log 4), and so is when a slice change is due, which goes before (log 56). -/
def Obligations.PairRuns : Prop :=
  ∀ (s : State) (c n t : Nat) (r : List Act) (i j : Instr) (s2 : State),
    s.power = true → s.agenda = .issue c :: r → c < Config.numCores →
    let s0 := heldOut { s with tick := s.tick + 1, agenda := r, lastCore := c } c
    let v := vfOf s0 c
    let u := chosen s0 c n t
    let p := getSp u c n v
    let w1 := lineSlot p.line.line (slotOf p.pc)
    let w2 := lineSlot p.line.line (slotOf p.pc + 1)
    let s1 := withCur u c n v p.pc (nextPc (nextPc p.pc)) true true false
    sliceForced s0 c = none → pick s0 c v = some (n, t) → Issuable p → startsPair p = true → decodeWord w1 = .ok i → decodeWord w2 = .ok j →
    failsWord s1 i = false → failsWord s1 j = false → precheck s1 [i, j] = .ok s2 →
      let u2 := { s2 with cur := { s2.cur with checked := true } }
      let again := { sealWin u2 c n v p.pc with cur := { (sealWin u2 c n v p.pc).cur with sealed := true } }
      (step s = onNext (onNext (exec i u2) (issueSecond c n v p.pc w1 w2)) fun y =>
        if y.cur.reseal then onNext (issueSealed u2 c n v p.pc w1 w2) fun z => .next (issued c n v t z) else .next (issued c n v t y))
      ∧ ((getSp again c n v).owed = [] → issueSealed u2 c n v p.pc w1 w2 = onNext (exec i again) (issueSecond c n v p.pc w1 w2))
      ∧ ∀ x : State, x.cur.stop = false → i ≠ .tret →
        issueSecond c n v p.pc w1 w2 x = onNext (exec j (toSecond x c n v p.pc)) fun y => .next { y with cur := { y.cur with idle := false } }

/-- R259: no step ends the machine: every fault of the device is a next state. That an event which is not enabled is a step with no effect is the model's choice (log 19). -/
def Obligations.StepAnswers : Prop := ∀ s : State, Answers s

/-! Memory. -/

/-- The memories of the reset state have their canonical form. The form is the model's (log 2). -/
def Obligations.ResetMemsOk : Prop := memsOk State.reset = true

/-- Every step keeps the canonical form of every memory. The form is the model's (log 2). -/
def Obligations.MemsKept : Prop := ∀ s t : State, memsOk s = true → step s = .next t → memsOk t = true

/-- R8: the n bytes written little-endian at a place read back as the number, and every other byte of every memory reads as before. -/
def Obligations.ReadAfterWrite : Prop :=
  ∀ (s : State) (l : Loc) (n x : Nat), l.sp ≠ .stw → rdN (wrN s l n x) l n = x % 2 ^ (8 * n) ∧ SameBut s (wrN s l n x) l n

/-! Presence (R19, R21). -/

/-- R19: an instruction with an empty source does not issue: its spoke parks on the register, with no other effect; when the register is filled the spoke is in the rotation again, with the same PC. An open window is sealed first (R199), and a slot in which the spoke only parks moves neither its floor nor the rotation (R16). -/
def Obligations.EmptySourceParks : Prop :=
  (∀ (i : Instr) (s : State) (r : Reg), i.isWord = true → wordFault s i = none → s.cur.checked = false →
    let k := s.cur
    let s1 := sealWin s k.core k.sp k.vf k.pc
    (firstEmpty (curSp s) [i] = some r → (curSp s1).owed = [] → firstEmpty (curSp s1) [i] = some r →
      ∃ t, exec i s = .next t ∧ t = haltIdle (modCur s1 fun p => { p with park := parkOn r })
        ∧ ∀ c n v u, markIssue c n v u t = t)
      ∧ ((curSp s).win = [] → s1 = s))
  ∧ (∀ (s : State) (c n v : Nat) (r : Reg),
    let p := getSp s c n v
    p.ctx = .live → p.divs = [] → p.outst.any (·.plain) = false → p.park = parkOn r → inRotation s c n v = p.fullR r)

/-- R21: a source with its SYN bit set is read, then cleared; every field of one register reads one value; a local destination is written after the clear and ends full. -/
def Obligations.SynConsumes : Prop :=
  ∀ (i : Instr) (s : State),
    (∀ r : Fin 32, (curSp (taken i s)).rdG r = (curSp s).rdG r)
    ∧ (∀ r : Fin 8, (curSp (taken i s)).v[r].val = (curSp s).v[r].val)
    ∧ (∀ r : Reg, r ≠ .g 0 → (curSp (taken i s)).fullR r = (if ⟨r, true⟩ ∈ Instr.uses i then false else (curSp s).fullR r))
    ∧ (∀ (r : Fin 32) (x : Word), r ≠ 0 → (curSp (modCur (taken i s) fun p => p.wrG r x)).g[r] = ⟨x, true, .no⟩)
    ∧ (∀ (r : Fin 8) (x : Vector Lane 32), (curSp (modCur (taken i s) fun p => p.wrV r x)).v[r] = ⟨x, true, .no⟩)

/-! Traps (R264 to R266). -/

/-- R264: a trap with a vector, room on the return stack, g30 present and a frame that can be stored: g30 falls by 32, a TRAP record is pushed, the PC is the vector. A word of the frame is stored as a plain ST.D would store it, and no other byte changes. When the frame is stored is the model's choice (log 5). -/
def Obligations.TrapTaken : Prop :=
  (∀ (s s1 : State) (c n v : Nat) (t : Owed),
    let p := getSp s c n v
    let vec := trapVec s v p.dom
    let head : Word := BitVec.ofNat 64 (t.code.num + (min t.more 255) * 2 ^ 8 + p.dom.toNat * 2 ^ 16)
    s.soft = none → vec ≠ 0 → p.drs.length < 16 → p.fullG 30 = true → pcOk vec = true →
    storeFrame s c n v (p.rdG 30 - 32) none [head, t.fpc, t.rpc, t.va] = (s1, true) →
      let q := getSp s1 c n v
      let z := getSp (takeTrap s c n v t) c n v
      z.pc = vec ∧ z.rdG 30 = p.rdG 30 - 32 ∧ z.drs = q.drs ++ [⟨p.dom, t.rpc, 0, true⟩] ∧ z.park = .none
        ∧ (∀ r : Fin 32, r ≠ 30 → z.g[r] = q.g[r]) ∧ z.v = q.v ∧ z.k = q.k ∧ z.flags = q.flags ∧ z.dom = q.dom ∧ z.lends = q.lends
        ∧ SameMem s1 (takeTrap s c n v t))
  ∧ (∀ (s : State) (c n v : Nat) (va x : Word) (r : Res),
    let p := getSp s c n v
    pathBad va = false → pathOf va = 0 ∨ pathOf va = 3 → va.toNat % 8 = 0 → p.outst = [] →
    checked s c v p.dom p.lends.toList va 8 true 2 (stTT (pathOf va)) = .ok r → r.loc.sp = .hbm ∨ r.loc.sp = .scr →
      ∃ t, frameStore s c n v va x = .ok t ∧ rdN t r.loc 8 = x.toNat ∧ SameBut s t r.loc 8)

/-- R244, R264, R266: with no vector, a descriptor read that meets a soft error, a full return stack or g30 empty, and behind the stores of the frame where one of them fails or the vector is no well-formed PC, a spoke that belongs to no population ends with the fault's code, which SPREAP reports; one of a population kills it: a terminal record is posted, every member that runs or is stopped ends as SPKILL ends it, none is dealt any more, and the queue's error word records POP_KILLED; a hub spoke whose kernel domain has no vector stops its core. That it and the spokes 1 to 15 are what stops there is the model's reading (log 72). Which soft errors come about is the environment's, as the agenda says (log 4). -/
def Obligations.TrapKills : Prop :=
  (∀ (s : State) (c n v : Nat) (t : Owed),
    let p := getSp s c n v
    n ≠ 0 → getPop s v p.ltag = none → trapVec s v p.dom = 0 ∨ s.soft = some 0 ∨ 16 ≤ p.drs.length ∨ p.fullG 30 = false →
      let z := getSp (takeTrap s c n v t) c n v
      z.ctx = .ended ∧ reapWord z = BitVec.ofNat 64 (t.code.num + 2 ^ 63))
  ∧ (∀ (s s1 : State) (c n v : Nat) (t : Owed) (b : Bool),
    let p := getSp s c n v
    let vec := trapVec s v p.dom
    let head : Word := BitVec.ofNat 64 (t.code.num + (min t.more 255) * 2 ^ 8 + p.dom.toNat * 2 ^ 16)
    n ≠ 0 → getPop s v p.ltag = none → s.soft = none → vec ≠ 0 → p.drs.length < 16 → p.fullG 30 = true →
    storeFrame s c n v (p.rdG 30 - 32) none [head, t.fpc, t.rpc, t.va] = (s1, b) → b = false ∨ pcOk vec = false →
      let z := getSp (takeTrap s c n v t) c n v
      z.ctx = .ended ∧ reapWord z = BitVec.ofNat 64 (t.code.num + 2 ^ 63))
  ∧ (∀ (s : State) (c n v : Nat) (t : Owed) (q : Pop),
    let p := getSp s c n v
    let u := takeTrap s c n v t
    n ≠ 0 → p.ltag ≠ 0 → getPop s v p.ltag = some q → q.vf = v → q.tag = p.ltag →
    trapVec s v p.dom = 0 ∨ s.soft = some 0 ∨ 16 ≤ p.drs.length ∨ p.fullG 30 = false →
      (∃ x, getPop u v p.ltag = some x ∧ x.killed = true ∧ x.nextIdx = q.size ∧ x.size = q.size)
      ∧ (∀ c' n', c' < Config.numCores → 0 < n' → n' < 16 → (getSp s c' n' v).ltag = p.ltag →
        (getSp s c' n' v).ctx = .live ∨ (getSp s c' n' v).ctx = .stopped →
          (getSp u c' n' v).ctx = .ended ∧ reapWord (getSp u c' n' v) = BitVec.ofNat 64 (2 ^ 62))
      ∧ (∀ x ∈ u.images, ¬ (x.2.vf = v ∧ x.2.sp.ltag = p.ltag))
      ∧ (∃ u', u = queueErr u' (srcQueue s q.src).1 (srcQueue s q.src).2 0x26 false)
      ∧ ((getFn s v).tring.room = true → (termRec t.code.num t.va t.fpc t.acc p.dom t.more, none) ∈ (getFn u v).tring.held))
  ∧ (∀ (s : State) (c v : Nat) (t : Owed), c < Config.numCores → v ≤ 63 →
    trapVec s v (getSp s c 0 v).dom = 0 → trapVec s v kernelDom = 0 →
      (getSp (takeTrap s c 0 v t) c 0 v).ctx = .stopped
        ∧ ∀ n, 0 < n → n < 16 → (getSp s c n v).ctx = .live →
          (getSp (takeTrap s c 0 v t) c n v).ctx = .stopped ∨ (getSp (takeTrap s c 0 v t) c n v).stopReq = true)

/-- R359, R411: TRAP and ILL take the trap of their code; the fault PC is the instruction's, the resumption PC its successor (R264). -/
def Obligations.TrapInstructions : Prop :=
  ∀ (s : State) (m : BitVec 4), ∀ p ∈ ([(.trap m, .trapN m), (.ill, .illegalOp)] : List (Instr × FaultCode)),
    Ready p.1 s → (curSp s).win = [] → (curSp s).owed = [] → ¬ (s.cur.paired = true ∧ s.cur.first = false) →
      exec p.1 s = .next (halt (takeTrap s s.cur.core s.cur.sp s.cur.vf ⟨p.2, s.cur.pc, s.cur.succ, 0, 0, 0⟩))

/-- R265: TRET pops a TRAP record and returns to its PC with no TGT or ENT check and g30 as it was; an empty stack and a CALL record fault, as a TRAP record does for DRET. -/
def Obligations.TrapReturn : Prop :=
  (∀ s : State, Ready .tret s →
    ((curSp s).drs.getLast? = none → Traps .tret s .drsOverflow 0 0)
    ∧ (∀ e, (curSp s).drs.getLast? = some e → e.trap = false → Traps .tret s .illegalField 0 0)
    ∧ (∀ e, (curSp s).drs.getLast? = some e → e.trap = true → ∃ t, Goes .tret s t
        ∧ (curSp t).pc = e.ret ∧ (curSp t).drs = (curSp s).drs.dropLast ∧ (curSp t).g = (curSp s).g
        ∧ ((curSp t).want = none ∨ (curSp t).want = some .tret)))
  ∧ (∀ (l : Line) (slot : Nat) (cross e : Bool), entryCode .tret l slot cross e = none)
  ∧ (∀ s : State, Ready .dret s → ∀ e, (curSp s).drs.getLast? = some e → e.trap = true → Traps .dret s .illegalField 0 0)

/-! Group 000, the scalar ALU. -/

/-- R329, R330, R341, R372, R380, R392, R405: ADD, SUB, MUL, MULH, MIN, MAX, CMP, AND, OR, XOR, ANDN and the shifts, in both forms, write their results to a local register. -/
def Obligations.ScalarResults : Prop :=
  ∀ (s : State) (r : Fin 32) (a b : Src) (m : BitVec 48) (u : Bool) (c : CmpCond),
    ∀ p ∈ arithTable s (.loc r) a b m u c ++ logicTable s (.loc r) a b m, Ready p.1 s → Writes p.1 s r p.2

/-- R27, R71, R364, R367, R379, R393: MOV, LI, LIH, LEA and SEL deliver their results; SEL has a local destination only. -/
def Obligations.MoveResults : Prop :=
  ∀ (s : State) (d : Dst) (r : Fin 32) (a b c : Src) (m : BitVec 48) (n : BitVec 16),
    (∀ p ∈ moveTable s d a m n, Ready p.1 s → Delivers p.1 s d p.2)
    ∧ (Ready (.sel r a b c) s → Writes (.sel r a b c) s r (if src s a = 0 then src s c else src s b))

/-- R27, R71, R334, R340, R385, R395: BFX, BFI and SEXT, bit by bit; CLZ, CTZ and POPC count bits; the result is written, or goes to the spoke that the handle of a remote destination names. -/
def Obligations.FieldAndCountResults : Prop :=
  (∀ (s : State) (d : Dst) (a b : Src) (lo : BitVec 6) (w : BitVec 7),
    (Ready (.bfx d a lo w) s → ∃ z, Delivers (.bfx d a lo w) s d z
      ∧ ∀ k < 64, z.getLsbD k = (decide (k < w.toNat) && (src s a).getLsbD (lo.toNat + k)))
    ∧ (Ready (.bfi d a b lo w) s → ∃ z, Delivers (.bfi d a b lo w) s d z
      ∧ ∀ k < 64, z.getLsbD k = if lo.toNat ≤ k ∧ k < lo.toNat + w.toNat then (src s a).getLsbD (k - lo.toNat) else (src s b).getLsbD k)
    ∧ (Ready (.sext d a w) s → ∃ z, Delivers (.sext d a w) s d z
      ∧ ∀ k < 64, z.getLsbD k = (src s a).getLsbD (min k (w.toNat - 1))))
  ∧ (∀ (s : State) (d : Dst) (a : Src),
    let x := (src s a).toNat
    (Ready (.clz d a) s → ∃ n ≤ 64, Delivers (.clz d a) s d (BitVec.ofNat 64 n)
      ∧ x < 2 ^ (64 - n) ∧ (n < 64 → 2 ^ (63 - n) ≤ x))
    ∧ (Ready (.ctz d a) s → ∃ n ≤ 64, Delivers (.ctz d a) s d (BitVec.ofNat 64 n)
      ∧ x % 2 ^ n = 0 ∧ (n < 64 → x / 2 ^ n % 2 = 1))
    ∧ (Ready (.popc d a) s →
      Delivers (.popc d a) s d (BitVec.ofNat 64 ((List.range 64).countP fun k => (src s a).getLsbD k))))

/-- R27, R71: with a remote destination the result of an arithmetic, logic or move instruction goes as a message to the spoke that the handle names, after the checks of R27; a handle that fails them traps, of a division too. A handle's checks, one by one. -/
def Obligations.RemoteResults : Prop :=
  ∀ (s : State) (r : Fin 32) (h a b : Src) (m : BitVec 48) (u : Bool) (c : CmpCond),
    (∀ p ∈ arithTable s (.remote r h) a b m u c ++ logicTable s (.remote r h) a b m, Ready p.1 s → Sends p.1 s r h p.2)
    ∧ (∀ p ∈ divTable s (.remote r h) a b m u, Ready p.1 s → ∀ f, remoteTarget s (src s h) = .error f → Traps p.1 s f 0 0)
    ∧ (let x := src s h
      let svc := isSvc s s.cur.core
      let core := fieldN x 0 16
      let bad := fieldN x 26 38 ≠ 0 ∨ (svc = false ∧ fieldN x 20 6 ≠ 0) ∨ (svc = true ∧ fieldN x 20 6 = 0) ∨ 6143 < core
      let denied := (fieldN x 16 4 = 0 ∧ (curSp s).dom ≠ kernelDom) ∨ (inPart s (if svc then fieldN x 20 6 else s.cur.vf) core = false ∧ isSvc s core = false)
      (bad → remoteTarget s x = .error .illegalField) ∧ (¬ bad → denied → remoteTarget s x = .error .domainWrite)
        ∧ (¬ bad → ¬ denied → remoteTarget s x = .ok (core, fieldN x 16 4, if svc then fieldN x 20 6 else s.cur.vf)))

/-- R17, R351, R389: DIV and REM issue, and their spoke waits for the end with the quotient or remainder owed to the local register or to the spoke that the handle names; at its end a division fills its register, and no other, and a remote one goes as a message, which is held while its spoke still waits where the division is the second of a pair (R67, R137). -/
def Obligations.Divisions : Prop :=
  (∀ (s : State) (r : Fin 32) (h a b : Src) (m : BitVec 48) (u : Bool), (curSp s).win = [] →
    (∀ p ∈ divTable s (.loc r) a b m u, Ready p.1 s → CompletesWith p.1 s fun q => { q with divs := q.divs ++ [⟨r, none, p.2, s.cur.late⟩] })
    ∧ (∀ p ∈ divTable s (.remote r h) a b m u, Ready p.1 s → ∀ k, remoteTarget s (src s h) = .ok k →
        CompletesWith p.1 s fun q => { q with divs := q.divs ++ [⟨r, some k, p.2, s.cur.late⟩] }))
  ∧ (∀ (s : State) (core sp : Nat) (x : DivPend) (l : List DivPend),
    let p := getSp s core sp (vfOf s core)
    p.divs = x :: l → ∃ t, exec (.divideEnd core sp) s = .next t ∧ (getSp t core sp (vfOf s core)).divs = l ∧ SameMem s t
      ∧ match x.remote with
        | none => ∀ r : Fin 32, (getSp t core sp (vfOf s core)).rdG r = if r = x.reg ∧ r ≠ 0 then x.val else p.rdG r
        | some (c, n, v) =>
          let m : Msg := ⟨0, c, n, x.reg.val, false, core, sp, v, x.val, p.ltag⟩
          let held := x.late && blocked { p with divs := l }
          (held = false → t.mesh = s.mesh ++ [{ m with id := s.nextId }])
            ∧ (held = true → t.mesh = s.mesh ∧ (getSp t core sp (vfOf s core)).sends = p.sends ++ [m])
            ∧ (getSp t core sp (vfOf s core)).g = p.g)

/-! Group 001, control. -/

/-- R54, R57, R58, R60: a taken transfer to a slot of the held line that has its TGT bit moves the PC there, with what completes beside it: the link, the count, the return record. -/
def Obligations.TransfersWithin : Prop :=
  ∀ (s : State) (l c : Fin 32) (a : Src) (nz : Bool) (b : BrTarget),
    ∀ e ∈ transferTable s l c a nz b, e.2.2.2.2 = true → Ready e.1 s → Within s e.2.1 e.2.2.1 →
      Goes e.1 s (e.2.2.2.1 (jumpTo e.2.2.1 (taken e.1 s)))

/-- R57, R59, R62: a taken transfer to another line whose page passes its checks enters the line when the read cache serves it and the line passes its own, and parks for the line otherwise, with nothing done. When a held line is evicted is free (log 8). -/
def Obligations.TransfersElsewhere : Prop :=
  ∀ (s : State) (l c : Fin 32) (a : Src) (nz : Bool) (b : BrTarget),
    ∀ e ∈ transferTable s l c a nz b, e.2.2.2.2 = true → Ready e.1 s → ∀ r, Elsewhere (taken e.1 s) e.2.2.1 r →
      (lineHit (taken e.1 s) s.cur.core r = true → ∀ t,
        enterLine (taken e.1 s) s.cur.core s.cur.sp s.cur.vf e.2.2.1 e.2.1 0 0 = .ok t → (curSp s).win = [] ∨ blocked (curSp t) = false →
          exec e.1 s = .next (e.2.2.2.1 t))
      ∧ (lineHit (taken e.1 s) s.cur.core r = false → (curSp s).win = [] →
        exec e.1 s = .next (haltIdle (modCur s fun p => { p with park := .fetch e.2.2.1, pc := s.cur.pc, second := s.cur.late || p.second })))

/-- R56, R57, R333, R349, R368: a transfer to a slot of the held line with its TGT bit clear raises TARGET, and so does a register target that is no PC; a BC whose condition does not hold and a LOOP that ends go on at the successor, and LOOP leaves its count at 0. -/
def Obligations.TransfersFaultOrFallThrough : Prop :=
  (∀ (s : State) (l c : Fin 32) (a : Src) (nz : Bool) (b : BrTarget),
    (∀ e ∈ transferTable s l c a nz b, e.2.2.2.2 = true → Ready e.1 s →
      (curSp s).line.present = true → (curSp s).line.stale = false → lineOf e.2.2.1 = (curSp s).line.addr →
      lineTgt (curSp s).line.line (slotOf e.2.2.1) = false → Traps e.1 s .target e.2.2.1 0)
    ∧ (∀ i ∈ [Instr.bri a, .ret a], Ready i s → pcOk (src s a) = false → Traps i s .target (src s a) 0)
    ∧ (Ready (.dcallReg l a) s → (curSp s).drs.length < 16 → pcOk (src s a) = false → Traps (.dcallReg l a) s .target (src s a) 0)
    ∧ (∀ i ∈ [Instr.dcallLabel l b, .dcallReg l a], Ready i s → 16 ≤ (curSp s).drs.length → Traps i s .drsOverflow 0 0))
  ∧ (∀ (s : State) (a : Src) (c : Fin 32) (nz : Bool) (b : BrTarget),
    (Ready (.bc a nz b) s → ((src s a != 0) == nz) = false → Completes (.bc a nz b) s (taken (.bc a nz b) s))
    ∧ (Ready (.loop c b) s → (curSp s).rdG c = 0 → Completes (.loop c b) s (taken (.loop c b) s))
    ∧ (Ready (.loop c b) s → (curSp s).rdG c = 1 → Writes (.loop c b) s c 0))

/-- R57, R59, R62, R87 to R90, R349, R353: a DCALL opens the caller's pending lends to the callee, frees the other pending ones and pushes a CALL record of them; a DRET pops it and closes or frees the lends it names, within its line or into another one, which it enters when the read cache serves it and for which it parks otherwise, with nothing done. When a held line is evicted is free (log 8). -/
def Obligations.CallsAndLends : Prop :=
  (∀ (caller : BitVec 8) (ret : Word) (link : Fin 32) (p : Spoke),
    let q := dcallEnd caller ret link p
    let mine (i : Fin 8) : Prop := p.lends[i].st = .pending ∧ p.lends[i].lender = caller
    (∃ e, q.drs = p.drs ++ [e] ∧ e.caller = caller ∧ e.ret = ret ∧ e.trap = false ∧ ∀ i : Fin 8, e.lends.getLsbD i.val = true ↔ mine i)
    ∧ (∀ i : Fin 8, mine i → q.lends[i] = { p.lends[i] with st := .opened, lendee := p.dom })
    ∧ (∀ i : Fin 8, p.lends[i].st = .pending → p.lends[i].lender ≠ caller → q.lends[i] = Lend.none)
    ∧ (∀ i : Fin 8, p.lends[i].st ≠ .pending → q.lends[i] = p.lends[i])
    ∧ q.rdG link = (if link = 0 then 0 else ret))
  ∧ (∀ (s : State) (e : DRec), Ready .dret s → (curSp s).drs.getLast? = some e → e.trap = false →
    let returns (d : BitVec 8) : Prop := ∃ t, Goes .dret s t ∧ (curSp t).pc = e.ret ∧ (curSp t).dom = d
      ∧ (curSp t).drs = (curSp s).drs.dropLast
      ∧ ∀ i : Fin 8, (curSp t).lends[i] =
        (if e.lends.getLsbD i.val = true then
          if (curSp s).lends[i].count > 0 then { (curSp s).lends[i] with st := .closed } else Lend.none
        else if (curSp s).lends[i].st = .pending ∧ (curSp s).lends[i].lender = (curSp s).dom then Lend.none else (curSp s).lends[i])
    (Within s .dret e.ret → returns (curSp s).dom)
    ∧ ∀ r, Elsewhere (taken .dret s) e.ret r →
      (lineHit (taken .dret s) s.cur.core r = true → ∀ t,
        enterLine (taken .dret s) s.cur.core s.cur.sp s.cur.vf e.ret .dret 0 0 = .ok t → (curSp s).win = [] ∨ blocked (curSp t) = false →
          returns (curSp t).dom)
      ∧ (lineHit (taken .dret s) s.cur.core r = false → (curSp s).win = [] →
        exec .dret s = .next (haltIdle (modCur s fun p => { p with park := .fetch e.ret, pc := s.cur.pc, second := s.cur.late || p.second }))))

/-- R36, R398: SPEND of a spoke with nothing outstanding: the context is ended, SPREAP will report 0, and its general registers stand as they were until then. -/
def Obligations.SpendEnds : Prop :=
  ∀ s : State, Ready .spend s → s.cur.sp ≠ 0 → (curSp s).pub = none →
    let t := spendClose (taken .spend s) s.cur.core s.cur.sp s.cur.vf
    spendReady t s.cur.core s.cur.sp s.cur.vf = true → (getSp t s.cur.core s.cur.sp s.cur.vf).pub = none →
      ∃ x, Goes .spend s x ∧ (getSp x s.cur.core s.cur.sp s.cur.vf).ctx = .ended
        ∧ reapWord (getSp x s.cur.core s.cur.sp s.cur.vf) = 0
        ∧ (getSp x s.cur.core s.cur.sp s.cur.vf).g = (curSp s).g

/-! Group 010, memory. -/

/-- R105, R107, R121 to R126, R143, R361 to R363, R403, R404: a load that passes its checks is on its way to its place; relaxed, its register is owed; a store that passes is on its way with its bytes, and one to host or peer memory is posted. The first check that fails gives the fault, in the order path, size, alignment, walk, target, the leaf's R or W, stage 2 and partition, domain rights, the host's page request; a terminal one traps and a retryable one does not. The walk answers the leaf that the VF's tables hold, or a page not present, with an entry that is not valid or is malformed. -/
def Obligations.LoadsAndStoresIssue : Prop :=
  (∀ (s : State) (rlx : Bool) (d : Fin 32) (a : Src) (sz : Size) (sx : Bool) (disp : BitVec 48) (r : Res),
    let i := Instr.ld rlx d a sz sx disp
    let va := src s a + disp.signExtend 64
    let plain := !rlx || r.loc.far
    Ready i s → (curSp s).win = [] ∨ plain = false → scalarAts (taken i s) va (sizeBytes sz) false 1 [0, 1, 3, 5] = .ok r → r.loc.sp ≠ .stw →
      Requests i s (noteAcc (taken i s) va r) (.load d sx) (sizeBytes sz) [⟨0, r.loc, 0, pathOf va == 1⟩] plain false
        (eatenWith (taken i s) (Instr.uses i) (.g d)) va fun id p => p.owe d (.load id))
  ∧ (∀ (s : State) (rlx : Bool) (a b : Src) (sz : Size) (disp : BitVec 48) (r : Res),
    let i := Instr.st rlx a b sz disp
    let va := src s a + disp.signExtend 64
    Ready i s → (curSp s).win = [] ∨ rlx = true → scalarAts (taken i s) va (sizeBytes sz) true 2 [0, 3, 5] = .ok r → r.loc.sp ≠ .stw →
      Completes i s (addReq (noteAcc (taken i s) va r) .store (sizeBytes sz)
        [⟨0, r.loc, (src s b).toNat % 2 ^ (8 * sizeBytes sz), false⟩] (!rlx && !r.loc.far) r.loc.far (eatenBy (Instr.uses i)) va))
  ∧ (∀ (s : State) (rlx : Bool) (d : Fin 32) (a b : Src) (sz : Size) (sx : Bool) (disp : BitVec 48) (e : FErr),
    let va := src s a + disp.signExtend 64
    ∀ i ∈ ([(.ld rlx d a sz sx disp, false, 1, [0, 1, 3, 5]), (.st rlx a b sz disp, true, 2, [0, 3, 5])] : List (Instr × Bool × Nat × List Nat)),
      Ready i.1 s → scalarAts (taken i.1 s) va (sizeBytes sz) i.2.1 i.2.2.1 i.2.2.2 = .error e →
        (e.code ≠ .notPresent → Traps i.1 s e.code e.va e.acc)
        ∧ (e.code = .notPresent → (curSp s).win = [] → exec i.1 s = .next (settle (countIssue s) (.retry e))))
  ∧ (∀ (s : State) (va : Word) (n : Nat) (w : Bool) (acc : Nat) (paths : List Nat),
    let x := scalarAts s va n w acc paths
    let path := va.toNat / 2 ^ 61
    let fails (code : FaultCode) : Prop := x = .error ⟨code, va, acc, false, false, false⟩
    let d := (curSp s).dom
    (6 ≤ path ∨ va.toNat / 2 ^ 57 % 16 ≠ 0 ∨ path ∉ paths → fails .path)
    ∧ (path < 6 → va.toNat / 2 ^ 57 % 16 = 0 → path ∈ paths →
      (path = 5 ∧ n ≠ 8 → fails .illegalField)
      ∧ (¬ (path = 5 ∧ n ≠ 8) → va.toNat % n ≠ 0 → fails .align)
      ∧ (¬ (path = 5 ∧ n ≠ 8) → va.toNat % n = 0 → match transl s s.cur.vf (va.toNat % 2 ^ 57) with
        | .absent m => x = .error ⟨.notPresent, va, acc, m, false, false⟩
        | .seg => fails .segment
        | .leaf e bits =>
          let l := placeOf s.cur.core va e bits
          let own := pteDT e
          let lent := (curSp s).lends.toList.any (lendCovers d va n w)
          let has : Option Nat := if lent then some 3 else right s s.cur.vf d own va.toNat
          (placeBad s s.cur.vf va e l (fun _ => true) = true → fails .path)
          ∧ (placeBad s s.cur.vf va e l (fun _ => true) = false →
            (bitN e (if w then 3 else 2) = false → x = .error ⟨.notPresent, va, acc, false, true, false⟩)
            ∧ (bitN e (if w then 3 else 2) = true → partition s s.cur.vf e l = none → fails .segment)
            ∧ (∀ l', bitN e (if w then 3 else 2) = true → partition s s.cur.vf e l = some l' →
              (has = none → fails .segment)
              ∧ (∀ k, has = some k →
                (w = true → k < 2 → fails .domainWrite) ∧ (w = false → k < 1 → fails .domainRead)
                ∧ ((if w then 2 else 1) ≤ k →
                  let asks : Prop := l'.sp = .host ∧ mhas s.ats (s.cur.vf * 2 ^ 52 + l'.a / 4096) = false
                  (asks → x = .error (if feature s s.cur.vf 1 then ⟨.notPresent, va, acc, false, false, true⟩ else ⟨.hostDenied, va, acc, false, false, false⟩))
                  ∧ (¬ asks → x = .ok ⟨l', e, bits⟩))))))))
  ∧ (∀ (s : State) (v va : Nat) (e0 e1 e2 e3 : Word),
    let tables (e : Word) : Nat := fieldN e 12 40 * 4096
    let at' (table i : Nat) (e : Word) : Prop := ∃ a, stage2 s v (table + 8 * i) = some a ∧ (stage2 s v (table + 8 * i + 7)).isSome ∧ hbmN s a 8 = e.toNat
    let rest (e : Word) : Prop := fieldN e 6 6 = 0 ∧ bitN e 63 = false
    let next (e : Word) (align : Nat) : Prop := bitN e 0 = true ∧ bitN e 1 = false ∧ rest e ∧ tables e % 2 ^ align = 0
    let tt (e : Word) : Nat := fieldN e 60 3
    let fits (e : Word) : Prop := (tt e = 0 → tables e < 2 ^ 40) ∧ (tt e = 2 → tables e < 2 ^ 29) ∧ (tt e = 3 → tables e < 2 ^ 30) ∧ (tt e = 5 → tables e < 2 ^ 50)
    let leaf (e : Word) (bits : Nat) : Prop := bitN e 0 = true ∧ bitN e 1 = true ∧ rest e ∧ tables e % 2 ^ bits = 0 ∧ fits e
    let ends (e : Word) (bits align : Nat) : Prop := (bitN e 0 = false → walk s v va = .absent false)
      ∧ (bitN e 0 = true → ¬ next e align → ¬ (leaf e bits ∧ (bits = 15 ∨ tt e ∉ [2, 3, 4])) → walk s v va = .absent true)
      ∧ (leaf e bits → bits = 15 ∨ tt e ∉ [2, 3, 4] → walk s v va = .leaf e bits)
    let root := (getFn s v).ptroot.toNat
    (tlbFind (getFn s v).tlb va = none → transl s v va = walk s v va)
    ∧ (stage2 s v (root + 8 * (va / 2 ^ 46 % 2048)) = none → walk s v va = .seg)
    ∧ (at' root (va / 2 ^ 46 % 2048) e0 → (bitN e0 0 = false → walk s v va = .absent false) ∧ (bitN e0 0 = true → ¬ next e0 14 → walk s v va = .absent true)
      ∧ (next e0 14 → at' (tables e0) (va / 2 ^ 35 % 2048) e1 → ends e1 35 14
        ∧ (next e1 14 → at' (tables e1) (va / 2 ^ 24 % 2048) e2 → ends e2 24 12
          ∧ (next e2 12 → at' (tables e2) (va / 2 ^ 15 % 512) e3 → (bitN e3 1 = false → bitN e3 0 = true → walk s v va = .absent true)
            ∧ (bitN e3 1 = true ∨ bitN e3 0 = false → ends e3 15 12))))))

/-- R111: a load or store of the state window reads or writes the state register of its offset, as RDS and WRS do. -/
def Obligations.StateWindow : Prop :=
  ∀ (s : State) (rlx : Bool) (d : Fin 32) (a b : Src) (sz : Size) (sx : Bool) (disp : BitVec 48) (r : Res),
    let va := src s a + disp.signExtend 64
    let ld := Instr.ld rlx d a sz sx disp
    let st := Instr.st rlx a b sz disp
    (curSp s).win = [] → r.loc.sp = .stw →
    (Ready ld s → scalarAts (taken ld s) va (sizeBytes sz) false 1 [0, 1, 3, 5] = .ok r →
      let t := noteAcc (taken ld s) va r
      match rdsDenied t s.cur.vf (r.loc.a / 8) (curSp s).dom with
      | none =>
        let x := rdsValue t s.cur.core s.cur.sp s.cur.vf (r.loc.a / 8)
        Completes ld s (modCur x.2 fun p => p.wrG d x.1)
      | some f => Traps ld s f va 1)
    ∧ (Ready st s → scalarAts (taken st s) va (sizeBytes sz) true 2 [0, 3, 5] = .ok r →
      match wrsState (noteAcc (taken st s) va r) s.cur.core s.cur.sp s.cur.vf (r.loc.a / 8) (src s b) with
      | .ok t => Completes st s t
      | .error f => Traps st s f va 2)

/-- R325, R328: an atomic that passes its checks is on its way with its operands cut to its width; on host memory it is one that PCIe offers. -/
def Obligations.AtomicIssues : Prop :=
  ∀ (s : State) (rlx u : Bool) (d : Fin 32) (a b c : Src) (sz : Size) (disp : BitVec 48) (r : Res),
    let va := src s a + disp.signExtend 64
    let n := sizeBytes sz
    let plain := !rlx || r.loc.far
    ∀ e ∈ atomicTable rlx u d a b c sz disp s, Ready e.1 s → (curSp s).win = [] ∨ plain = false →
      scalar (taken e.1 s) va n true 3 [0, 3] = .ok r →
      (r.loc.sp = .host → feature s s.cur.vf 0 = true ∧ hostAtomic e.2.1 n = true) →
      atsCheck s s.cur.vf va 3 r.loc = .ok () →
        Requests e.1 s (noteAcc (taken e.1 s) va r) (.atomic e.2.1 d ((src s b).toNat % 2 ^ (8 * n)) (e.2.2.toNat % 2 ^ (8 * n))) n
          [⟨0, r.loc, 0, false⟩] plain false (eatenWith (taken e.1 s) (Instr.uses e.1) (.g d)) va fun id p => p.owe d (.load id)

/-- R11, R22, R112, R134, R243, R361: the reply of a load fills its register with the bytes of its place, of the line that the read cache holds on the read-only path, or of WIDX at a kick page, extended; it changes no other register and no byte of memory. That an access is performed at its reply is the model's choice (log 5); what a load at a kick page does is its reading (log 26); which held lines are evicted is free (log 8). -/
def Obligations.LoadPerformed : Prop :=
  ∀ (s : State) (core sp idx : Nat) (r : Req) (d : Fin 32) (sx : Bool) (x : LaneAcc),
    let v := vfOf s core
    let p := getSp s core sp v
    p.outst[idx]? = some r → r.kind = .load d sx → r.accs = [x] → sp < 16 → MayGo p r x → reqCut s v r = false →
    r.plain = true ∨ (d ≠ 0 ∧ p.pendG d = .load r.id) →
      ∃ t w, exec (.memoryReply core sp idx .ok) s = .next t ∧ ReadsAs s (tileOf core) r.n x w ∧ SameMem s t
        ∧ (getSp t core sp v).outst = p.outst.filter (·.id != r.id)
        ∧ ∀ g : Fin 32, (getSp t core sp v).rdG g = if g = d ∧ g ≠ 0 then
            let y := BitVec.ofNat (8 * r.n) w
            if sx then y.signExtend 64 else y.zeroExtend 64
          else p.rdG g

/-- R8, R134, R245, R325, R326, R403: the reply of a store has written its bytes at its place, and no other byte and no register; one at a kick page is a write of its kick register; an atomic writes the result of its operation at its place, returns the old value, and changes no other byte. That an access is performed at its reply is the model's choice (log 5), and how stores and atomics act at a kick page is its reading (log 26). -/
def Obligations.StoresAndAtomicsPerformed : Prop :=
  (∀ (s : State) (core sp idx : Nat) (r : Req) (x : LaneAcc),
    let v := vfOf s core
    let p := getSp s core sp v
    p.outst[idx]? = some r → r.kind = .store → r.accs = [x] → sp < 16 → FirstAt p r.id x.loc r.n → reqCut s v r = false → x.ro = false →
      (Ordinary x.loc → ∃ t, exec (.memoryReply core sp idx .ok) s = .next t ∧ rdN t x.loc r.n = x.data % 2 ^ (8 * r.n) ∧ SameBut s t x.loc r.n
        ∧ (getSp t core sp v).outst = p.outst.filter (·.id != r.id) ∧ (getSp t core sp v).g = p.g)
      ∧ ∀ fn, x.loc.sp = .host → Config.kickFn (x.loc.a / 4096) = some fn →
        exec (.memoryReply core sp idx .ok) s = .next (tryStop
          (kick (modSp s core sp v fun q => dropReq q r.id) fn (x.loc.a % 4096) r.n (BitVec.ofNat 64 x.data)) core sp v))
  ∧ (∀ (s : State) (core sp idx : Nat) (r : Req) (op : AtOp) (d : Fin 32) (b c : Nat) (x : LaneAcc) (sz : Size),
    let v := vfOf s core
    let p := getSp s core sp v
    let old := rdN s x.loc r.n
    p.outst[idx]? = some r → r.kind = .atomic op d b c → r.accs = [x] → sp < 16 → x.loc.sp ≠ .stw → x.ro = false → FirstAt p r.id x.loc r.n → reqCut s v r = false →
    r.n = sizeBytes sz → b < 2 ^ (8 * r.n) → c < 2 ^ (8 * r.n) → r.plain = true ∨ (d ≠ 0 ∧ p.pendG d = .load r.id) →
      ∃ t, exec (.memoryReply core sp idx .ok) s = .next t ∧ SameBut s t x.loc r.n
        ∧ rdN t x.loc r.n = (atomicNew op (BitVec.ofNat (8 * r.n) old) (BitVec.ofNat (8 * r.n) b) (BitVec.ofNat (8 * r.n) c)).toNat
        ∧ ∀ g : Fin 32, (getSp t core sp v).rdG g = if g = d ∧ g ≠ 0 then BitVec.ofNat 64 old else p.rdG g)

/-- R22, R264, R284, R285: a reply that reports a fault, and any reply from a peer whose binding has ended, performs nothing but its trap: the request is gone, and the registers that the access had emptied are present again with their values. What the registers hold after the fault is the model's choice (log 43). -/
def Obligations.ReplyFaults : Prop :=
  ∀ (s : State) (core sp idx : Nat) (st : ReplyStatus) (r : Req) (f : FaultCode),
    let v := vfOf s core
    let p := getSp s core sp v
    let q := unOwe (dropReq p r.id) r
    let t := setSp s core sp v q
    p.outst[idx]? = some r → sp < 16 → (if reqCut s v r then some .segment else replyFault r st) = some f →
      exec (.memoryReply core sp idx st) s = .next (tryStop
        (trapOrOwe (if f = .softError then countLife t 3 0 0 else t) core sp v ⟨f, r.pc, r.rpc, r.va, 0, Req.acc r⟩) core sp v)
      ∧ q.outst = p.outst.filter (·.id != r.id)
      ∧ (∀ d sx, r.kind = .load d sx → d ≠ 0 → p.pendG d = .load r.id → q.g[d] = ⟨p.g[d].val, p.g[d].full || r.eaten.contains (.g d), .no⟩)
      ∧ (∀ g : Fin 32, g ≠ 0 → Reg.g g ∈ r.eaten → p.pendG g = .no → q.g[g] = ⟨p.g[g].val, true, .no⟩)
      ∧ (∀ g : Fin 32, Reg.g g ∉ r.eaten → p.pendG g ≠ .load r.id → q.g[g] = p.g[g])

/-- R25, R26, R354: a fill serves the waiters of its word in the order of their arrival, up to and including the first LD.S, which consumes it: those served come first among the loads that wait there, and every other waiter stays where it stood; LD.F and LD.S of a full word return it, LD.S emptying it, and park at the bank on an empty one; ST.F writes the word and fills it, and each waiter served receives the value and goes on; EMPTY clears the presence and leaves the data. The earlier accesses of the spoke to the word are performed first (R130); that the access and they are performed at issue is the model's choice (log 5), and so is that the waiters of a hub spoke are served whatever VF stands there (log 71). -/
def Obligations.PresenceWords : Prop :=
  (∀ (here : BankWaiter → Bool) (a : Nat) (ws : List BankWaiter),
    let x := splitServe here a ws
    let mine (w : BankWaiter) : Bool := w.loc == ⟨.scr, a⟩ && here w && BankWait.isLd w.want
    ws.filter mine = x.1 ++ x.2.1.filter mine ∧ (ws.filter fun w => !mine w) = x.2.1.filter (fun w => !mine w) ∧ List.Sublist x.2.1 ws
      ∧ (x.2.2 = false → x.2.1.filter mine = [] ∧ ∀ w ∈ x.1, ∃ d, w.want = .ldF d)
      ∧ (x.2.2 = true → ∃ l w d, x.1 = l ++ [w] ∧ w.want = .ldS d ∧ ∀ y ∈ l, ∃ d, y.want = .ldF d))
  ∧ ((∀ (s : State) (d : Fin 32) (a : Src) (disp : BitVec 48) (r : Res),
    let va := src s a + disp.signExtend 64
    ∀ e ∈ ([(.ldF d a disp, false), (.ldS d a disp, true)] : List (Instr × Bool)), Ready e.1 s → (curSp s).win = [] →
      scalarAts (taken e.1 s) va 8 false 1 [3] = .ok r →
        let t := flushAt (noteAcc (taken e.1 s) va r) r.loc 8
        if present t r.loc.a then
          Completes e.1 s (modCur (if e.2 then setPresent t r.loc.a false else t) fun p => p.wrG d (BitVec.ofNat 64 (rdN t r.loc 8)))
        else Completes e.1 s (bankPark t r.loc (if e.2 then .ldS d else .ldF d)))
  ∧ (∀ (s : State) (a b : Src) (disp : BitVec 48) (r : Res),
    let va := src s a + disp.signExtend 64
    (curSp s).win = [] →
    (Ready (.stF a b disp) s → scalarAts (taken (.stF a b disp) s) va 8 true 2 [3] = .ok r →
      let t := flushAt (noteAcc (taken (.stF a b disp) s) va r) r.loc 8
      let y := splitServe (hereNow t) r.loc.a t.waiters
      (∀ w ∈ y.1, OnChip w) →
        ∃ x, Completes (.stF a b disp) s x ∧ rdN x r.loc 8 = (src s b).toNat ∧ SameBut t x r.loc 8 ∧ present x r.loc.a = !y.2.2
          ∧ x.waiters = y.2.1 ∧ ∀ w ∈ y.1, ∀ c n v d, w.owner = .spoke c n v → w.want = .ldF d ∨ w.want = .ldS d →
            (getSp x c n v).park = .none ∧ (d ≠ 0 → (getSp x c n v).g[d] = ⟨src s b, true, .no⟩))
    ∧ (Ready (.empty a disp) s → scalarAts (taken (.empty a disp) s) va 8 true 2 [3] = .ok r →
      let t := flushAt (noteAcc (taken (.empty a disp) s) va r) r.loc 8
      ∃ x, Completes (.empty a disp) s x ∧ SameMem t x ∧ present x r.loc.a = false)))

/-- R20, R118, R119, R135: FENCE goes on at once when nothing it waits for is outstanding, PGRP asks for its panes once the earlier commands hold theirs, PUBL publishes once its commands are done; each parks until then, its spoke being in the rotation again when its wait is over. What each scope of FENCE waits for; what PUBL makes of the bytes of the tile buffers, its panes becoming live in one step and no other byte changing, and of the group and its reservation. -/
def Obligations.FencesAndGroups : Prop :=
  (∀ (s : State) (sc : Scope) (n : BitVec 4) (g : Nat), (curSp s).win = [] →
    let k := s.cur
    (Ready (.fence sc) s → Completes (.fence sc) s
      (parked (if (curSp s).outst.all fun r => !fenceWaits sc k.core r then .none else .wait (.fence sc)) (taken (.fence sc) s)))
    ∧ (Ready (.pgrp n) s → (curSp s).pub = none → n.toNat ≤ paneShare s (tileOf k.core) k.vf → Completes (.pgrp n) s
      (if panesHeld s (curOwner s) then pgrpAsk (parked .none (taken (.pgrp n) s)) k.core k.sp k.vf n.toNat
        else parked (.wait (.pgrpHold n.toNat)) (taken (.pgrp n) s)))
    ∧ (Ready .publ s → (curSp s).pub = some g → Completes .publ s
      (if pubDone s g then pubClose (parked .none (taken .publ s)) k.core k.sp k.vf else parked (.wait .publ) (taken .publ s))))
  ∧ (∀ (sc : Scope) (core : Nat) (r : Req),
    let tileHas (l : Loc) : Prop := (l.sp = .scr ∧ l.a / 65536 / 16 = core / 16) ∨ (l.sp = .tb ∧ l.a / 2 ^ 21 = core / 16)
    fenceWaits sc core r = true ↔ r.plain = false ∧ ((∃ d x, r.kind = .load d x) ∨ (∃ d, r.kind = .vload d) ∨ ∃ x ∈ r.accs, match sc with
      | .sp => False
      | .co => x.loc.sp = .scr ∧ x.loc.a / 65536 = core
      | .ti => tileHas x.loc
      | .dv => x.loc.sp = .hbm ∨ x.loc.sp = .scr ∨ x.loc.sp = .tb
      | .sy => x.loc.sp ≠ .stw))
  ∧ (∀ (s : State) (o : Owner) (g : Nat),
    (pubDone s g = true ↔ (∀ c ∈ s.cmds, c.pub ≠ some g) ∧ ∀ t ∈ s.tgrps, t.2.pub ≠ some g)
    ∧ ((∀ c ∈ s.cmds, c.owner = o → c.grp = none) → (panesHeld s o = true ↔
      ∀ c ∈ s.cmds, c.owner = o → Cmd.writesTb c = true → c.st = .running ∨ c.st = .parked ∨ c.st = .done)))
  ∧ (∀ (s : State) (c n v g : Nat) (x : PubGrp), (getSp s c n v).pub = some g → getPub s g = some x → (x.ovl.Pairwise fun p q => p.1 ≠ q.1) →
    let t := pubClose s c n v
    (∀ a, rdLoc t ⟨.tb, a⟩ = match x.ovl.find? (·.1 == a) with | some p => p.2 | none => rdLoc s ⟨.tb, a⟩)
    ∧ (∀ l, l.sp ≠ .tb → rdLoc t l = rdLoc s l) ∧ t.full = s.full ∧ (getSp t c n v).pub = none ∧ t.pubs = s.pubs.filter (·.1 != g))
  ∧ (∀ (s : State) (c n v : Nat),
    let p := getSp s c n v
    let back (w : Wait) (ready : Prop) (f : State → State) : Prop := p.park = .wait w →
      (inRotation s c n v = true ↔ ready) ∧ wakeUp s c n v = f (modSp (modSp s c n v keepEaten) c n v fun q => { q with park := .none })
    p.ctx = .live → p.divs = [] → p.outst.any (·.plain) = false →
      (∀ sc, back (.fence sc) (∀ r ∈ p.outst, fenceWaits sc c r = false) id)
      ∧ (∀ k, back (.pgrpHold k) (panesHeld s (.spoke c n v) = true) fun t => pgrpAsk t c n v k)
      ∧ (∀ g, p.pub = some g → back .publ (pubDone s g = true) fun t => pubClose t c n v))

/-- R60, R112, R113: ROINV of length 0 empties the tile's read cache; of a range, it drops the lines that hold a byte of the range. Either marks stale the line buffers of the same lines. A range longer than 2^32 bytes raises ILLEGAL_FIELD, and one that does not lie whole in one path that it may name raises PATH. Which pages of a range are passed over is the model's reading (log 46). -/
def Obligations.ReadCacheInvalidated : Prop :=
  ∀ (s : State) (a n : Src),
    let i := Instr.roinv a n
    let va := (src s a).toNat
    let k := (src s n).toNat
    let t := tileOf s.cur.core
    let fits := va / 2 ^ 61 ≤ 1 ∧ va / 2 ^ 57 % 16 = 0 ∧ va + k - 1 < 2 ^ 64 ∧ (va + k - 1) / 2 ^ 57 = va / 2 ^ 57
    Ready i s → (curSp s).win = [] →
      (k = 0 → Completes i s (roDrop (taken i s) t true []) ∧ rlines (roDrop (taken i s) t true []) t = [])
      ∧ (0 < k → k ≤ 2 ^ 32 → fits →
        let ps := rangePlaces (taken i s) s.cur.vf s.cur.core va k
        Completes i s (roDrop (taken i s) t false ps)
          ∧ rlines (roDrop (taken i s) t false ps) t = (rlines s t).filter fun r => !lineIn ps r.sp r.a)
      ∧ (2 ^ 32 < k → Traps i s .illegalField 0 0)
      ∧ (0 < k → k ≤ 2 ^ 32 → ¬ fits → Traps i s .path (src s a) 0)

/-! Groups 101 and 110, vector memory. -/

/-- R430 to R432: a vector access whose active lanes all pass is on its way lane by lane; with no active lane a load leaves its register as it was. -/
def Obligations.VectorAccessIssues : Prop :=
  ∀ (s : State) (rlx : Bool) (km : Fin 4) (d : Fin 8) (a : Src) (y z : VSrc) (disp : BitVec 48) (t : State) (l : List LaneAcc),
    let base := src s a + disp.signExtend 64
    let row (j : Fin 32) : Word := base + BitVec.ofNat 64 (4 * j.val)
    let ind (j : Fin 32) : Word := base + (vsrc s y)[j].signExtend 64
    (∀ e ∈ ([(.vld rlx km d a disp, row), (.vgath rlx km d a y disp, ind)] : List (Instr × (Fin 32 → Word))), Ready e.1 s →
      let plain := !rlx || l.any (·.loc.far)
      (curSp s).win = [] ∨ plain = false → lanesCheck (taken e.1 s) false (lanesOf (curSp s) km e.2 fun _ => 0) = .ok (t, l) →
        if l = [] then Completes e.1 s (modCur t fun p => p.wrV d p.v[d].val)
        else
          let u := addReq t (.vload d) 4 l plain false (eatenWith (taken e.1 s) (Instr.uses e.1) (.v d)) 0
          Completes e.1 s (if plain then u else modCur u fun p => p.oweV d (.load t.nextId)))
    ∧ (∀ e ∈ ([(.vst rlx km a z disp, row), (.vscat rlx km a y z disp, ind)] : List (Instr × (Fin 32 → Word))), Ready e.1 s →
      (curSp s).win = [] ∨ rlx = true →
      lanesCheck (taken e.1 s) true (lanesOf (curSp s) km e.2 fun j => (vsrc s z)[j].toNat) = .ok (t, l) →
        let near := l.filter fun x => !x.loc.far
        let far := l.filter (·.loc.far)
        let u := if near = [] then t else addReq t .vstore 4 near (!rlx) false (eatenBy (Instr.uses e.1)) 0
        Completes e.1 s (if far = [] then u else addReq u .vstore 4 far false true (eatenBy (Instr.uses e.1)) 0))

/-- R112, R128, R140, R243, R419, R432: a vector load replaces the lanes it read and keeps the others; a vector store whose lanes lie apart writes each lane's four bytes and no other byte; each lane can be performed by itself, in any order, a store's behind a lower lane of the same bytes, and the rest stays outstanding. That an access is performed at its reply is the model's choice (log 5); what a lane at a kick page does is its reading (log 26). -/
def Obligations.VectorAccessPerformed : Prop :=
  ∀ (s : State) (core sp idx : Nat) (r : Req),
    let v := vfOf s core
    let p := getSp s core sp v
    p.outst[idx]? = some r → r.n = 4 → sp < 16 → reqCut s v r = false →
    ((∀ x ∈ r.accs, x.ro = false ∧ Ordinary x.loc ∧ FirstAt p r.id x.loc 4) →
      (∀ d, r.kind = .vload d → r.plain = true ∨ p.v[d].pend = .load r.id → ∃ t, exec (.memoryReply core sp idx .ok) s = .next t ∧ SameMem s t
        ∧ ∀ j : Fin 32, (getSp t core sp v).v[d].val[j] = match r.got.find? (·.1 == j.val), r.accs.find? (·.lane == j.val) with
          | some y, _ => BitVec.ofNat 32 y.2
          | none, some x => BitVec.ofNat 32 (rdN s x.loc 4)
          | none, none => p.v[d].val[j])
      ∧ (r.kind = .vstore → Apart 4 r.accs → ∃ t, exec (.memoryReply core sp idx .ok) s = .next t
        ∧ (∀ x ∈ r.accs, rdN t x.loc 4 = x.data % 2 ^ 32) ∧ ∀ m, (∀ x ∈ r.accs, ¬ inside x.loc m 4) → rdLoc t m = rdLoc s m))
    ∧ (∀ k x, laneFree r k = some x → MayGo p r x → (r.accs.filter (·.lane != k)) ≠ [] →
      let rest := r.accs.filter (·.lane != k)
      let left (q : Req) : List Req := p.outst.map fun y => if y.id = r.id then q else y
      (∀ d, r.kind = .vload d → ∃ t w, exec (.memoryReply core sp idx (.lane k)) s = .next t ∧ ReadsAs s (tileOf core) 4 x w ∧ SameMem s t
        ∧ (getSp t core sp v).outst = left { r with accs := rest, got := (k, w) :: r.got } ∧ (getSp t core sp v).v = p.v)
      ∧ (r.kind = .vstore → Ordinary x.loc → ∃ t, exec (.memoryReply core sp idx (.lane k)) s = .next t
        ∧ rdN t x.loc 4 = x.data % 2 ^ 32 ∧ SameBut s t x.loc 4 ∧ (getSp t core sp v).outst = left { r with accs := rest }))
    ∧ (∀ k x, r.kind = .vstore → r.accs.find? (·.lane == k) = some x → (r.accs.takeWhile (·.lane != k) = [] ∨ Apart 4 r.accs) → laneFree r k = some x)
    ∧ (∀ k x d, r.kind = .vload d → r.accs.find? (·.lane == k) = some x → laneFree r k = some x)

/-! Frames. -/

/-- What the register-only instructions leave as it was: every memory and every other part of the device; every other spoke; of their own spoke, all but the PC, the line and what is read ahead of it, the window's count, the registers that they write and the presence of those that they consume; mask registers and flags where the instruction writes none; no flag is cleared (R15, R21, R170, R323). -/
def Obligations.RegisterFrame : Prop :=
  ∀ (i : Instr) (s t : State), i.regOnly = true → Ready i s → s.cur.core < Config.numCores → exec i s = .next t →
    let k := s.cur
    let p := curSp s
    let q := curSp t
    t = { s with cores := t.cores, saved := t.saved }
    ∧ (∀ c n v, c < 65536 → ¬ (c = k.core ∧ n = k.sp ∧ (n = 0 ∨ v = k.vf)) → getSp t c n v = getSp s c n v)
    ∧ q = { p with g := q.g, v := q.v, k := q.k, flags := q.flags, pc := q.pc, want := q.want, second := q.second, line := q.line
                   ahead := q.ahead, wcount := q.wcount }
    ∧ (∀ r : Fin 32, Reg.g r ∉ Instr.dests i → ⟨.g r, true⟩ ∉ Instr.uses i → q.g[r] = p.g[r])
    ∧ (∀ r : Fin 8, Reg.v r ∉ Instr.dests i → ⟨.v r, true⟩ ∉ Instr.uses i → q.v[r] = p.v[r])
    ∧ (i.writesK = false → q.k = p.k) ∧ (i.setsFlags = false → q.flags = p.flags) ∧ p.flags ||| q.flags = q.flags

/-! Groups 101 and 110, lanes and masks. -/

/-- R419, R421 to R424, R427, R429, R433, R436: the lane-wise instructions write their active lanes and set the flags of those lanes. -/
def Obligations.LaneResults : Prop :=
  ∀ (s : State) (rnd : Rnd) (sat : Bool) (km : Fin 4) (d : Fin 8) (a b c : VSrc) (df sf : Fmt) (g h : Src) (w : BitVec 2),
    ∀ e ∈ floatTable s rnd sat km d a b c df sf ++ laneTable s sat km d a b g h w, Ready e.1 s → WritesLanes e.1 s km d e.2

/-- R161 to R170, R172 to R175, R189, R191, R421, R422, R425, R429: what a code of a binary format stands for; rounding to every format, binary, tapered and integer, in every mode with its flags, said over the rational numbers; the FP32 operations of a lane as one rounding of the exact value, with their rows for zeros, infinities and NaN; the pairwise tree of a reduction; the scale, codes and flags of a quantised block; the exact sum of a block of products and its addition to an accumulator, floating or INT32; the element of MDRAIN; the pair that SPCMP keeps of a group. That a clamp of VQNT sets SAT and not OVF is the model's choice (log 23), and so is the clause that a value out of an integer's range sets INX beside INV (log 44). -/
def Obligations.NumberRules : Prop :=
  (∀ e ∈ floatFormats, ∀ c < 2 ^ (e.2.1.f + e.2.1.eb + 1),
    let b := e.2.1
    let s : ℚ := if c.testBit (b.f + b.eb) then -1 else 1
    let x : Nat := c / 2 ^ b.f % 2 ^ b.eb
    let f : Nat := c % 2 ^ b.f
    let v := Fmt.dec e.1 c
    (x = 0 → v.val = s * 2 ^ (1 - (b.bias : Int)) * (f / 2 ^ b.f) ∧ v.isNan = false)
    ∧ (0 < x → c % 2 ^ (b.f + b.eb) ≤ e.2.2.2.2 → v.val = s * 2 ^ ((x : Int) - b.bias) * (1 + f / 2 ^ b.f) ∧ v.isNan = false)
    ∧ (e.2.2.2.2 < c % 2 ^ (b.f + b.eb) → v = if b.style = .ieee ∧ f = 0 then .inf (c.testBit (b.f + b.eb))
        else .nan (b.style == .ieee && !c.testBit (b.f - 1))))
  ∧ (∀ e ∈ floatFormats, ∀ (rnd : Rnd) (sat neg : Bool) (m : Nat) (k : Int),
    let b := e.2.1
    let sign := 2 ^ (b.f + b.eb) * neg.toNat
    (m ≠ 0 → b.Result e.2.2.2.1 e.2.2.2.2 rnd sat neg (Machine.Num.fin false m k).val (Fmt.round e.1 rnd sat (.fin neg m k)))
    ∧ Fmt.round e.1 rnd sat (.fin neg 0 k) = (sign, 0)
    ∧ Fmt.round e.1 rnd sat (.inf neg) = (sign + e.2.2.2.1, if b.style = .ieee then 0 else fOvf)
    ∧ ∀ g, Fmt.round e.1 rnd sat (.nan g) = (e.2.2.1, if g = true ∨ e.1 = .fp4 then fInv else 0))
  ∧ ((List.range 32).map (fun c => (Fmt.dec .tap6 c).val) =
      [0, 1 / 256, 1 / 64, 1 / 32, 1 / 16, 3 / 32, 1 / 8, 3 / 16, 1 / 4, 5 / 16, 3 / 8, 7 / 16, 1 / 2, 5 / 8, 3 / 4, 7 / 8,
       1, 5 / 4, 3 / 2, 7 / 4, 2, 5 / 2, 3, 7 / 2, 4, 6, 8, 12, 16, 32, 64, 256]
    ∧ [1, 2, 3, 4, 7, 8, 15, 16, 31, 32, 63, 64, 95, 96, 111, 112, 119, 120, 123, 124, 125, 126, 127].map (fun c => (Fmt.dec .tap8 c).val) =
      [1 / 4096, 1 / 1024, 1 / 512, 1 / 256, 3 / 256, 1 / 64, 7 / 128, 1 / 16, 15 / 64, 1 / 4, 31 / 32, 1, 31 / 8, 4, 15, 16, 56, 64, 192, 256, 512,
       1024, 4096])
  ∧ (∀ e ∈ [(Fmt.tap6, 6), (.tap8, 8)], ∀ (rnd : Rnd) (sat neg : Bool) (m : Nat) (k : Int),
    let mag (c : Nat) : ℚ := (Fmt.dec e.1 c).val
    let top := 2 ^ (e.2 - 1) - 1
    let sign := 2 ^ (e.2 - 1) * neg.toNat
    let x := (Machine.Num.fin false m k).val
    let r := Fmt.round e.1 rnd sat (.fin neg m k)
    (mag top < x → r = (sign + top, fOvf ||| fInx)) ∧ (m ≠ 0 → x < mag 1 → r = (sign + 1, fUnf ||| fInx)) ∧ (m = 0 → r = (0, 0))
    ∧ (mag 1 ≤ x → x ≤ mag top → ∃ c, 1 ≤ c ∧ c ≤ top ∧ NearestEven mag 1 top x c ∧ r = (sign + c, if mag c = x then 0 else fInx))
    ∧ Fmt.round e.1 rnd sat (.inf neg) = (sign + top, fOvf) ∧ ∀ g, Fmt.round e.1 rnd sat (.nan g) = (2 ^ (e.2 - 1), fInv))
  ∧ (∀ e ∈ [(Fmt.i8, -(128 : Int), (127 : Int), 8), (.u8, 0, 255, 8), (.i16, -32768, 32767, 16), (.i32, -2147483648, 2147483647, 32)],
    ∀ (rnd : Rnd) (sat neg : Bool) (m : Nat) (k : Int),
    let x := (Machine.Num.fin neg m k).val
    let code (v : Int) : Nat := (v % 2 ^ e.2.2.2).toNat
    (∃ v : Int, (match away rnd neg with
        | none => ∀ w : Int, |(v : ℚ) - x| < |(w : ℚ) - x| ∨ (|(v : ℚ) - x| = |(w : ℚ) - x| ∧ (v % 2 = 0 ∨ w = v))
        | some up => v = if up = neg then ⌊x⌋ else ⌈x⌉)
      ∧ Fmt.round e.1 rnd sat (.fin neg m k) = if v < e.2.1 then (code e.2.1, fInv ||| fInx) else if e.2.2.1 < v then (code e.2.2.1, fInv ||| fInx)
          else (code v, if (v : ℚ) = x then 0 else fInx))
    ∧ Fmt.round e.1 rnd sat (.inf neg) = (code (if neg then e.2.1 else e.2.2.1), fInv)
    ∧ ∀ g, Fmt.round e.1 rnd sat (.nan g) = (0, fInv))
  ∧ (∀ (rnd : Rnd) (sat : Bool) (a b c : Lane),
    let inv (z : Bool) : BitVec 5 := if z then fInv else 0
    (laneFin a = true → laneFin b = true → LaneRounds rnd sat (laneVal a + laneVal b) (sumZero rnd a b) (addF32 rnd sat a b)
      ∧ LaneRounds rnd sat (laneVal a * laneVal b) (signOf a ^^^ signOf b) (mulF32 rnd sat a b))
    ∧ (laneFin a = true → laneFin b = true → laneFin c = true → LaneRounds rnd sat (laneVal a * laneVal b + laneVal c)
        (sumZero rnd (signOf a ^^^ signOf b) c) (fmaF32 rnd sat a b c))
    ∧ subF32 rnd sat a b = addF32 rnd sat a (b ^^^ 0x80000000)
    ∧ (laneNan a = true ∨ laneNan b = true → addF32 rnd sat a b = (0x7FC00000, inv (laneSig a || laneSig b))
      ∧ mulF32 rnd sat a b = (0x7FC00000, inv (laneSig a || laneSig b)) ∧ minF32 a b = (0x7FC00000, inv (laneSig a || laneSig b))
      ∧ maxF32 a b = (0x7FC00000, inv (laneSig a || laneSig b)))
    ∧ (laneInf a = true → laneNan b = false →
      (addF32 rnd sat a b = if laneInf b = true ∧ signOf a ≠ signOf b then (0x7FC00000, fInv) else (a, 0))
      ∧ (mulF32 rnd sat a b = if b &&& 0x7FFFFFFF = 0 then (0x7FC00000, fInv) else ((signOf a ^^^ signOf b) ||| 0x7F800000, 0))
      ∧ mulF32 rnd sat b a = mulF32 rnd sat a b)
    ∧ (laneFin a = true → laneInf b = true → addF32 rnd sat a b = (b, 0))
    ∧ (laneNan a = true ∨ laneNan b = true ∨ laneNan c = true → (fmaF32 rnd sat a b c).1 = 0x7FC00000
      ∧ ((fmaF32 rnd sat a b c).2 = inv (laneSig a || laneSig b || laneSig c || (laneInf a && b &&& 0x7FFFFFFF == 0) || (laneInf b && a &&& 0x7FFFFFFF == 0))))
    ∧ (laneNan a = false → laneNan b = false → laneNan c = false → laneInf a = true ∨ laneInf b = true ∨ laneInf c = true →
      let s := signOf a ^^^ signOf b
      fmaF32 rnd sat a b c =
        if (laneInf a = true ∧ b &&& 0x7FFFFFFF = 0) ∨ (laneInf b = true ∧ a &&& 0x7FFFFFFF = 0) then (0x7FC00000, fInv)
        else if laneInf a = true ∨ laneInf b = true then
          if laneInf c = true ∧ signOf c ≠ s then (0x7FC00000, fInv) else (s ||| 0x7F800000, 0)
        else (c, 0))
    ∧ (laneFin a = true → laneFin b = true →
      (laneVal a < laneVal b → minF32 a b = (a, 0) ∧ minF32 b a = (a, 0) ∧ maxF32 a b = (b, 0) ∧ maxF32 b a = (b, 0))
      ∧ (laneVal a = laneVal b → minF32 a b = (a ||| signOf b, 0) ∧ maxF32 a b = (a &&& (b ||| 0x7FFFFFFF), 0))
      ∧ ((cmpF32 .lt a b).1 = true ↔ laneVal a < laneVal b) ∧ ((cmpF32 .le a b).1 = true ↔ laneVal a ≤ laneVal b)
      ∧ ((cmpF32 .eq a b).1 = true ↔ laneVal a = laneVal b) ∧ ((cmpF32 .ne a b).1 = true ↔ laneVal a ≠ laneVal b))
    ∧ (laneNan a = true ∨ laneNan b = true → ∀ k, cmpF32 k a b = (k == .ne, inv (laneSig a || laneSig b))))
  ∧ (∀ a : Lane,
    let x := |laneVal a|
    let b : BinFmt := ⟨23, 8, 127, .ieee⟩
    (laneFin a = true → x ≠ 0 → b.Result 0x7F800000 0x7F7FFFFF .rne false (a.getLsbD 31) (1 / x) ((rcpF32 a).1.toNat, (rcpF32 a).2))
    ∧ (laneFin a = true → x = 0 → rcpF32 a = (signOf a ||| 0x7F800000, 0) ∧ rsqF32 a = (signOf a ||| 0x7F800000, 0) ∧ exp2F32 a = (0x3F800000, 0))
    ∧ (laneInf a = true → rcpF32 a = (signOf a, 0) ∧ rsqF32 a = (if a.getLsbD 31 then (0x7FC00000, fInv) else (0, 0))
      ∧ exp2F32 a = (if a.getLsbD 31 then 0 else 0x7F800000, 0))
    ∧ (laneNan a = true → ∀ f ∈ [rcpF32, rsqF32, exp2F32], f a = (0x7FC00000, if laneSig a then fInv else 0))
    ∧ (laneFin a = true → x ≠ 0 → a.getLsbD 31 = true → rsqF32 a = (0x7FC00000, fInv))
    ∧ (laneFin a = true → x ≠ 0 → a.getLsbD 31 = false →
      let c := (rsqF32 a).1.toNat
      0 < c ∧ c < 0x7F800000 ∧ ((b.mag (c - 1) + b.mag c) / 2) ^ 2 * x < 1 ∧ 1 < ((b.mag c + b.mag (c + 1)) / 2) ^ 2 * x
        ∧ (rsqF32 a).2 = if b.mag c ^ 2 * x = 1 then 0 else fInx)
    ∧ (∀ k : Int, laneFin a = true → laneVal a = k → -149 ≤ k → k ≤ 127 → laneVal (exp2F32 a).1 = 2 ^ k ∧ (exp2F32 a).2 = 0))
  ∧ (∀ (node : Lane → Lane → Lane × BitVec 5) (x : Lane), treeSum node 0 [x] = ([x], 0))
  ∧ (∀ (node : Lane → Lane → Lane × BitVec 5) (n : Nat) (l r : List Lane) (x y : Lane), l.length = 2 ^ n → r.length = 2 ^ n →
    (treeSum node n l).1 = [x] → (treeSum node n r).1 = [y] →
      treeSum node (n + 1) (l ++ r) = ([(node x y).1], (treeSum node n l).2 ||| (treeSum node n r).2 ||| (node x y).2))
  ∧ (∀ e ∈ floatFormats.zip [(2 : Int), 8, 15], ∀ xs : List Machine.Num,
    let b := e.1.2.1
    let top := e.1.2.2.2.2
    let q := quantBlock e.1.1 xs
    let finite (x : Machine.Num) : Prop := ∃ n m k, x = .fin n m k
    ((∃ x ∈ xs, ¬ finite x) → q = (0xFF, xs.map fun _ => 0, fInv))
    ∧ ((∀ x ∈ xs, ∃ n k, x = .fin n 0 k) → q.1 = 0x7F ∧ q.2.2 = 0)
    ∧ ∀ p : Int, (∀ x ∈ xs, finite x) → (∃ x ∈ xs, 2 ^ p ≤ |x.val|) → (∀ x ∈ xs, |x.val| < 2 ^ (p + 1)) →
      let scale : Int := max (min (127 + p - e.2) 254) 0
      let y (x : Machine.Num) : ℚ := |x.val| * 2 ^ (127 - scale)
      (q.1 : Int) = scale ∧ q.2.1.length = xs.length ∧ q.2.2 &&& (fOvf ||| fInv) = 0
      ∧ (q.2.2 &&& fSat ≠ 0 ↔ ∃ x ∈ xs, b.mag top < y x)
      ∧ (∀ z ∈ xs.zip q.2.1, ∃ n m k c, z.1 = .fin n m k ∧ c ≤ top ∧ z.2 = 2 ^ (b.f + b.eb) * n.toNat + c
        ∧ (b.mag top < y z.1 → c = top) ∧ (y z.1 ≤ b.mag top → b.Rounds top .rne n (y z.1) c)
        ∧ (b.mag c ≠ y z.1 → q.2.2 &&& fInx ≠ 0))
      ∧ (q.2.2 &&& fInx ≠ 0 → ∃ z ∈ xs.zip q.2.1, b.mag (z.2 % 2 ^ (b.f + b.eb)) ≠ y z.1))
  ∧ (∀ (fa fw : Fmt) (as ws : List Nat), as ≠ [] → ws ≠ [] →
    let ps := (as.zip ws).map fun p => (Fmt.dec fa p.1, Fmt.dec fw p.2)
    let nan (p : Machine.Num × Machine.Num) : Prop := p.1.isNan = true ∨ p.2.isNan = true
    let zi (p : Machine.Num × Machine.Num) : Prop := (∃ g h e k, p = (.inf g, .fin h 0 e) ∨ p = (.fin h 0 k, .inf g))
    let inf (neg : Bool) (p : Machine.Num × Machine.Num) : Prop := ¬ nan p ∧ ¬ zi p ∧ ((∃ g, p.1 = .inf g ∨ p.2 = .inf g) ∧ (negOf p.1 != negOf p.2) = neg)
    let r := blockSum fa fw as ws
    ((∀ p ∈ ps, ∃ g m e g' m' e', p = (.fin g m e, .fin g' m' e')) → r.2 = 0
      ∧ (dot ps ≠ 0 → (∃ g m e, r.1 = .fin g m e) ∧ r.1.val = dot ps)
      ∧ (dot ps = 0 → r.1 = .fin (ps.all fun p => negOf p.1 != negOf p.2) 0 0))
    ∧ ((∃ p ∈ ps, nan p ∨ zi p) → r.1.isNan = true)
    ∧ ((∃ p ∈ ps, zi p) → r.2 = fInv)
    ∧ ((∃ p ∈ ps, inf true p) → (∃ p ∈ ps, inf false p) → r.1.isNan = true ∧ r.2 = fInv)
    ∧ ∀ neg, (∃ p ∈ ps, inf neg p) → (∀ p ∈ ps, ¬ nan p ∧ ¬ zi p ∧ ¬ inf (!neg) p) → r = (.inf neg, 0))
  ∧ (∀ (sat g : Bool) (m : Nat) (e k : Int) (fl : BitVec 5) (acc : Lane), ∃ r,
    LaneRounds .rne sat ((Machine.Num.fin g m e).val * 2 ^ k) (if g then 0x80000000 else 0) r
    ∧ blockAdd sat (.fin g m e, fl) (some k) acc = ((addF32 .rne sat acc r.1).1, fl ||| r.2 ||| (addF32 .rne sat acc r.1).2))
  ∧ (∀ (sat g : Bool) (k : Int) (fl : BitVec 5) (acc : Lane),
    blockAdd sat (.inf g, fl) (some k) acc = ((addF32 .rne sat acc (if g then 0xFF800000 else 0x7F800000)).1,
      fl ||| (addF32 .rne sat acc (if g then 0xFF800000 else 0x7F800000)).2)
    ∧ (∀ z : Machine.Num, z.isNan = true → ((blockAdd sat (z, fl) (some k) acc).1 = 0x7FC00000))
    ∧ ∀ z, (blockAdd sat (z, fl) none acc).1 = 0x7FC00000 ∧ fInv &&& ~~~(blockAdd sat (z, fl) none acc).2 = 0)
  ∧ (∀ (a b : Nat) (bias : Int), scaleExp a b bias = if a = 255 ∨ b = 255 then none else some ((a : Int) + bias + b - 254))
  ∧ (∀ (sat : Bool) (as ws : List Nat) (acc : Lane), (∀ x ∈ as ++ ws, x < 256) →
    let sgn (x : Nat) : Int := if x < 128 then x else x - 256
    let x : Int := acc.toInt + ((as.zip ws).map fun p => sgn p.1 * sgn p.2).sum
    blockAddInt sat as ws acc = if sat = false then (BitVec.ofInt 32 x, 0) else if x < -(2 ^ 31) then (0x80000000, fSat)
      else if 2 ^ 31 - 1 < x then (0x7FFFFFFF, fSat) else (BitVec.ofInt 32 x, 0))
  ∧ (∀ (c : Cmd) (fw : Fmt) (as sas ws sws : List Nat) (acc : Lane) (n : Nat), ws.length = fw.blk * (n + 1) →
    let y := matAcc c fw as sas (ws.take (fw.blk * n)) sws acc
    let a := (as.drop (fw.blk * n)).take fw.blk
    let w := ws.drop (fw.blk * n)
    let z := if c.fmt = .i8 then blockAddInt c.mod6 a w y.1 else blockAdd c.mod6 (blockSum c.fmt fw a w)
      (if c.sc then scaleExp (sas.getD n 0) (sws.getD n 0) ((BitVec.ofNat 8 (bitsN c.imm 14 8)).toInt) else some 0) y.1
    matAcc c fw as sas [] sws acc = (acc, 0) ∧ matAcc c fw as sas ws sws acc = (z.1, y.2 ||| z.2))
  ∧ (∀ (f : Fmt) (rnd : Rnd) (sat : Bool) (adj : Int) (a : Lane),
    let x : ℚ := (a.toInt : ℚ) * 2 ^ adj
    let w := f.width
    let h : Int := (2 ^ (w - 1) : Nat)
    (f ≠ .i8 → f ≠ .i32 → drainElem f rnd sat adj a = Fmt.round f rnd sat ((f32 a).scale adj)
      ∧ ((laneFin a = true → ((f32 a).scale adj).val = laneVal a * 2 ^ adj)))
    ∧ (f = .i8 ∨ f = .i32 → ∃ y : Int, (match away rnd (decide (x < 0)) with
        | none => ∀ v : Int, |(y : ℚ) - x| < |(v : ℚ) - x| ∨ (|(y : ℚ) - x| = |(v : ℚ) - x| ∧ (y % 2 = 0 ∨ v = y))
        | some up => y = if up = decide (x < 0) then ⌊x⌋ else ⌈x⌉)
      ∧ drainElem f rnd sat adj a =
        if sat = true ∧ y < -h then ((-h % 2 ^ w).toNat, fInx ||| fSat) else if sat = true ∧ h - 1 < y then ((h - 1).toNat, fInx ||| fSat)
        else ((y % 2 ^ w).toNat, if (y : ℚ) = x ∧ -h ≤ y ∧ y ≤ h - 1 then 0 else fInx)))
  ∧ (∀ xs : List Machine.Num, xs.length = 4 →
    let p := kept xs
    let x (i : Nat) := xs.getD i (.fin false 0 0)
    p.1 < p.2 ∧ p.2 < 4 ∧ ∀ n ∈ [p.1, p.2], ∀ m < 4, m ≠ p.1 → m ≠ p.2 → Below (x m) (x n) ∨ (¬ Below (x n) (x m) ∧ n < m))

/-- R174, R175, R360, R424 to R426, R434, R435: comparison, selection, reduction, single lanes, quantisation and the mask instructions. -/
def Obligations.MaskAndWholeResults : Prop :=
  ∀ (s : State) (c : VCond) (km : Fin 4) (d : Fin 8) (r : Fin 32) (kd ka kb : Fin 4) (a b : VSrc) (g : Src) (lane : BitVec 5) (f : Fmt),
    let p := curSp s
    let x := p.v[a.reg].val
    let y := p.v[b.reg].val
    let on (j : Fin 32) : Bool := p.k[km].getLsbD j.val
    let pad (z : Lane) : List Lane := (List.finRange 32).map fun j => if on j then x[j] else z
    (Ready (.vcmp c km kd a b) s → ∃ m : Lane,
      (∀ j : Fin 32, m.getLsbD j.val = if on j then (cmpF32 c x[j] y[j]).1 else p.k[kd].getLsbD j.val)
      ∧ CompletesWith (.vcmp c km kd a b) s fun q =>
          { q with k := q.k.set kd m }.orFlags ((activeLanes s km).foldl (fun u j => u ||| (cmpF32 c x[j] y[j]).2) 0))
    ∧ (Ready (.vsel d a b km) s → WritesV (.vsel d a b km) s d (Vector.ofFn fun j : Fin 32 => if on j then x[j] else y[j]))
    ∧ (∀ e ∈ ([(.vredadd km r a, treeSum (addF32 .rne false) 5 (pad 0x80000000)), (.vredmax km r a, treeSum maxF32 5 (pad 0xFF800000))] :
        List (Instr × List Lane × BitVec 5)), Ready e.1 s →
      CompletesWith e.1 s fun q => (q.wrG r ((e.2.1.headD 0).setWidth 64)).orFlags e.2.2)
    ∧ (Ready (.vext r a lane) s → Writes (.vext r a lane) s r (x[(lane.toFin : Fin 32)].setWidth 64))
    ∧ (Ready (.vins d a g lane) s → WritesV (.vins d a g lane) s d (x.set lane.toNat ((src s g).setWidth 32) (by have := lane.isLt; omega)))
    ∧ (Ready (.vqnt f km d a) s →
      let z := quantReg f ((List.finRange 32).map fun j => f32 (if on j then x[j] else 0))
      CompletesWith (.vqnt f km d a) s fun q => (q.wrV d z.1).orFlags z.2)
    ∧ (∀ e ∈ ([(.kand kd ka kb, p.k[ka] &&& p.k[kb]), (.kor kd ka kb, p.k[ka] ||| p.k[kb]), (.knot kd ka, ~~~p.k[ka])] : List (Instr × Lane)),
      Ready e.1 s → CompletesWith e.1 s fun q => { q with k := q.k.set kd e.2 })
    ∧ (Ready (.kpop r ka) s → Writes (.kpop r ka) s r (BitVec.ofNat 64 ((List.range 32).countP fun j => p.k[ka].getLsbD j)))

/-! Group 111. -/

/-- R270, R335, R382, R387, R388, R408, R438, R439: NOP only takes its issue; RDS and WRS read and write the state registers that their rights admit; TINV starts its invalidation; BKPT tells the hub spoke and stops. -/
def Obligations.SystemInstructions : Prop :=
  ∀ (s : State) (d : Fin 32) (n : BitVec 4) (a b : Src),
    let k := s.cur
    (Ready .nop s → Completes .nop s (taken .nop s))
    ∧ (Ready (.rds d n) s →
      let t := taken (.rds d n) s
      match rdsDenied t k.vf n.toNat (curSp s).dom with
      | none =>
        let x := rdsValue t k.core k.sp k.vf n.toNat
        Completes (.rds d n) s (modCur x.2 fun p => p.wrG d x.1)
          ∧ (n = 0 → x.1 = (curSp s).dom.setWidth 64) ∧ (n = 1 → x.1 = BitVec.ofNat 64 (16 * k.core + k.sp))
          ∧ (n = 2 → x.1 = BitVec.ofNat 64 k.core) ∧ (n = 3 → x.1 = BitVec.ofNat 64 (k.core / 16))
          ∧ (n = 11 → x.1 = (curSp s).ftok) ∧ (n = 13 → x.1 = (curSp s).flags.setWidth 64)
      | some f => Traps (.rds d n) s f 0 0)
    ∧ (Ready (.wrs a n) s →
      (∀ t, wrsState (taken (.wrs a n) s) k.core k.sp k.vf n.toNat (src s a) = .ok t → Completes (.wrs a n) s t
        ∧ (n = 13 → (curSp t).flags.setWidth 64 = src s a) ∧ (n = 9 → (curSp t).tperm.setWidth 64 = src s a))
      ∧ (∀ f, wrsState (taken (.wrs a n) s) k.core k.sp k.vf n.toNat (src s a) = .error f → Traps (.wrs a n) s f 0 0)
      ∧ n.toNat ∉ [0, 1, 2, 3, 8, 10, 12, 14])
    ∧ (n.toNat ∈ [0, 1, 2, 3, 8, 10, 12, 14] → exec (.wrs a n) s = .next (settle s (.err .stateRight 0 0)))
    ∧ (Ready (.tinv a b) s → (curSp s).win = [] → (src s b).toNat ≤ 2 ^ 40 → (curSp s).dom = kernelDom →
      let t := taken (.tinv a b) s
      Completes (.tinv a b) s (parked (.tinv s.nextId) { bump t with
        invals := s.invals ++ [⟨s.nextId, k.vf, (src s a).toNat % 2 ^ 57, (src s b).toNat, curOwner s, none⟩] }))
    ∧ (Ready .bkpt s → k.sp ≠ 0 → ¬ (k.paired = true ∧ k.first = true) →
      Completes .bkpt s (requestStop
        (sendReg (taken .bkpt s) k.core 0 k.vf 28 (BitVec.ofNat 64 (k.core + k.sp * 2 ^ 16)) k.core k.sp k.vf k.late) k.core k.sp k.vf))

/-- R59, R60, R62, R63, R85, R112, R270, R408: a line that arrives is entered where it passes its checks, is held for the transfer that waits for it, or is kept for the spoke that has asked for it ahead; a copy that fails its parity is fetched again, once. An acknowledged invalidation is gone, and it leaves no cached translation of its range and no cached table word; in the read cache of no tile that the VF has a part of a line of the pages that its range has been translated to, and no line at all behind an invalidation of length 0; and no line buffer of the VF that is not stale. When a cached translation leaves the device is the model's choice (log 7), and that an invalidation reaches the pages of leaves since replaced is its reading (log 54). -/
def Obligations.LinesAndInvalidations : Prop :=
  (∀ (s : State) (core sp : Nat) (e1 e2 : Line) (t : State),
    let v := vfOf s core
    let p := getSp s core sp v
    let s0 := modSp s core sp v fun q => { q with park := .none }
    (∀ k r, p.park = .line → p.want = some k → p.owed = [] → lineRes s core sp v p.pc = .ok r → pteDT r.leaf = p.dom →
      enterLine s0 core sp v p.pc k e1 e2 = .ok t → exec (.lineArrival core sp e1 e2) s = .next (tryStop t core sp v))
    ∧ (∀ k r l, p.park = .line → p.want = some k → p.owed = [] → badEntry k p.pc = false → lineRes s core sp v p.pc = .ok r →
      pteDT r.leaf = p.dom → (readWanted s0 core sp v p.pc r e1 e2).2 = some l → lineCode k l (slotOf p.pc) false (pteE r.leaf) = none →
        ∃ t, exec (.lineArrival core sp e1 e2) s = .next t ∧ SameMem s t
          ∧ let q := getSp t core sp v
            q.park = .none ∧ q.want = none ∧ q.pc = p.pc ∧ q.dom = p.dom ∧ q.g = p.g
              ∧ q.line.present = true ∧ q.line.line = l ∧ q.line.addr = lineOf p.pc ∧ q.line.pa = r.loc.a)
    ∧ (∀ target r l, p.park = .fetch target → fetchLine s core v target = .ok r → (getLine (noteFetch s0 v target r) core v r.loc e1 e2).2 = some l →
      ∃ t, exec (.lineArrival core sp e1 e2) s = .next t ∧ SameMem s t ∧ (getSp t core sp v).park = .none ∧ (getSp t core sp v).pc = p.pc
        ∧ ∃ x, rfind t (tileOf core) r.loc = some x ∧ x.line = l)
    ∧ (∀ a, p.park = .none → p.ahead = some a → a.line = none → a.err = none →
      ∃ t, exec (.lineArrival core sp e1 e2) s = .next t ∧ SameMem s t
        ∧ (getSp t core sp v).ahead = some (match (getLine s core v a.loc e1 e2).2 with
          | some l => { a with line := some l }
          | none => { a with err := some (errAt .lineParity a.pc 0) }))
    ∧ (p.park = .none → p.ahead = none → exec (.lineArrival core sp e1 e2) s = .next s))
  ∧ (∀ (s : State) (core v : Nat) (l : Loc) (e1 e2 : Line),
    let x := (rcLine s (tileOf core) v l).2
    let y := memLine s l ^^^ e2
    (x = memLine s l ∨ ∃ r, rfind s (tileOf core) l = some r ∧ x = r.line)
    ∧ (parityOk (x ^^^ e1) = true → (getLine s core v l e1 e2).2 = some (x ^^^ e1))
    ∧ (parityOk (x ^^^ e1) = false → (getLine s core v l e1 e2).2 = if parityOk y then some y else none))
  ∧ (∀ (s : State) (idx : Nat) (r : Inval), s.invals[idx]? = some r → ∃ t, exec (.invalidationAck idx) s = .next t
    ∧ t.invals = dropAt s.invals idx
    ∧ (∀ e ∈ (getFn t r.vf).tlb, invalMeets r.lo r.len e.lo (2 ^ e.bits) = false) ∧ (getFn t r.vf).descs = []
    ∧ (∀ e ∈ (getFn t r.vf).seen, invalMeets r.lo r.len e.lo (2 ^ e.bits) = false)
    ∧ (∀ tile, r.vf = 0 ∨ tile ∈ vfTiles s r.vf → ∀ x ∈ rlines t tile,
      r.len ≠ 0 ∧ ∀ e ∈ (getFn s r.vf).seen, invalMeets r.lo r.len e.lo (2 ^ e.bits) = true → lineIn (leafPlaces s r.vf e) x.sp x.a = false)
    ∧ (∀ c n, c < Config.numCores → n ≠ 0 ∨ vfOf s c = r.vf →
      (getSp t c n r.vf).line.present = true → (getSp t c n r.vf).line.stale = true)
    ∧ (∀ i x, (i, x) ∈ t.images → x.vf = r.vf → x.sp.line.present = true → x.sp.line.stale = true))

/-! Group 011. -/

/-- R29, R32, R33, R263, R358: WAKE sends its token to the core that the token names; IBPOP takes the oldest message of the inbox, or answers that there is none, once each held message whose register is empty and not pending has been delivered; IBREPLAY loops a message back when an entry is free. Where R263 and R437 leave the VF of a wake message open, the model's choice is log 70. -/
def Obligations.MessagesSent : Prop :=
  ∀ (s : State) (a b : Src) (h v : Fin 32),
    let k := s.cur
    (Ready (.wake a) s →
      let tok := src s a
      tokBad tok = false → (curSp s).dom = kernelDom ∨ srwrDenied (taken (.wake a) s) k.vf (curSp s).dom 11 = none →
      isSvc s k.core = true ∨ inPart s k.vf (tokCore tok) = true ∨ isSvc s (tokCore tok) = true →
        ∃ t, Completes (.wake a) s t ∧ SameMem s t
          ∧ t.mesh = s.mesh ++ [⟨s.nextId, fieldN tok 0 16, 0, 0, true, k.core, k.sp, if isSvc s k.core then 0 else k.vf, tok, 0⟩])
    ∧ (Ready (.ibpop h v) s → k.sp = 0 → (curSp s).dom = kernelDom →
      let t := deliverHeld (taken (.ibpop h v) s) k.core k.vf
      let x := getCtx t k.core k.vf
      (x.inbox = [] → Completes (.ibpop h v) s (modCur t fun p => (p.wrG h (BitVec.allOnes 64)).wrG v 0))
      ∧ (∀ m ∈ x.inbox, canDeliver t k.vf m = false)
      ∧ ∀ m r, x.inbox = m :: r → Completes (.ibpop h v) s (modCur (setCtx t k.core k.vf { x with inbox := r }) fun p =>
          (p.wrG h m.header).wrG v m.val))
    ∧ (Ready (.ibreplay a b) s → (curSp s).win = [] → k.sp = 0 → (curSp s).dom = kernelDom → fieldN (src s a) 30 34 = 0 →
      ¬ (fieldN (src s a) 0 4 = 0 ∧ bitN (src s a) 9 = true) →
      let t := taken (.ibreplay a b) s
      Completes (.ibreplay a b) s (if loopRoom (getCtx t k.core k.vf) then inboxArrive (parked .none t) (replayMsg k.core k.vf (src s a) (src s b))
        else parked (.wait (.loopback (src s a) (src s b))) t))

/-- R28 to R31: a message that arrives fills an empty register of a live spoke, or waits in the inbox, whose occupancy the alarm word takes from 48 on, and with the inbox of a saved core the save area; while every entry that it could take is occupied it waits at the port, even where its register is empty; a held one is delivered when its register is empty; a waiting one is taken when an entry is free; a lost one is counted. Which entries are the reserved ones is the model's choice (log 21), and so is what a save area holds (log 12), and that a WAKE takes an entry where it could act at once (log 106). -/
def Obligations.MessagesDelivered : Prop :=
  (∀ (s : State) (idx : Nat) (m : Msg), s.mesh[idx]? = some m → (s.mesh.take idx).any (sameLane m) = false →
    let u := { s with mesh := dropAt s.mesh idx }
    let v := msgCtx u m
    let x := getCtx u m.core v
    (msgLost u m = true → exec (.inboxMessageArrival idx) s = .next (dropMsgs u m.core 1))
    ∧ (msgLost u m = false → x.port = [] → inboxRoom x m = true → canDeliver u v m = true → heldFor x m = false → m.reg < 32 →
        ∃ t, exec (.inboxMessageArrival idx) s = .next t ∧ t.mesh = u.mesh ∧ (getSp t m.core m.sp v).rdG (regN m.reg) = m.val
          ∧ (getSp t m.core m.sp v).fullG (regN m.reg) = true)
    ∧ (msgLost u m = false → x.port = [] → canDeliver u v m = false ∨ heldFor x m = true → inboxRoom x m = true →
        let y := setCtx u m.core v { x with inbox := x.inbox ++ [m] }
        (x.inbox.length < 47 → exec (.inboxMessageArrival idx) s = .next (touchSave y m.core v) ∧ (vfOf u m.core = v → touchSave y m.core v = y))
        ∧ (47 ≤ x.inbox.length → vfOf u m.core = v →
          exec (.inboxMessageArrival idx) s = .next (storeF y (m.core * 65536 + 0xFFF8) (x.inbox.length + 1))))
    ∧ (msgLost u m = false → inboxRoom x m = false →
        exec (.inboxMessageArrival idx) s = .next (setCtx u m.core v { x with port := x.port ++ [m] }))
    ∧ (inboxRoom x m = true ↔ if m.forHub then x.inbox.length < 64
        else x.inbox.length - (x.inbox.filter Msg.forHub).length + ((x.inbox.filter Msg.forHub).length - 4) < 60))
  ∧ (∀ (s : State) (core vf idx : Nat) (m : Msg), (getCtx s core vf).inbox[idx]? = some m → m.core = core →
    canDeliver s vf m = true → (((getCtx s core vf).inbox.take idx).any fun k => !k.wake && k.sp == m.sp && k.reg == m.reg) = false →
      exec (.inboxHeldDelivery core vf idx) s =
        .next (deliver (setCtx s core vf { getCtx s core vf with inbox := dropAt (getCtx s core vf).inbox idx }) vf m))
  ∧ (∀ (s : State) (core vf idx : Nat) (m : Msg), (getCtx s core vf).port[idx]? = some m →
    ((getCtx s core vf).port.take idx).any (sameLane m) = false → msgLost s m = false → inboxRoom (getCtx s core vf) m = true →
      exec (.meshMessageAccept core vf idx) s =
        .next (inboxTake (setCtx s core vf { getCtx s core vf with port := dropAt (getCtx s core vf).port idx }) core vf m))

/-- R34, R256, R260, R261, R263: a spoke that meets NOT_PRESENT joins the waiter of its core that holds its page, path and access kind, or takes the lowest free slot, with a record for the retryable ring unless the host is asked; it parks there with the token in FTOK; with all 64 slots taken it parks until one is free, with nothing else done. A wake message frees the slot of its token and returns the spoke that waited there, and one whose token is no longer good, or that is not for the waiter's VF, is counted; a load exchange moves members between hub queues and loses none. Whose waiters a wake message of a service core serves is the model's choice (log 70), and so is the order of members of one index (log 85). -/
def Obligations.WakesAndExchange : Prop :=
  (∀ (s : State) (c n v : Nat) (e : FErr) (pc : Word),
    let p := getSp s c n v
    let t := retryFault s c n v e pc
    let q := getSp t c n v
    let held (i : Nat) : Prop := ∃ w, (getSlot s c i).w = some w ∧ w.vf = v ∧ w.page = e.va.toNat / 2 ^ 15 % 2 ^ 42
      ∧ w.path = e.va.toNat / 2 ^ 61 ∧ w.acc = e.acc
    let token (i : Nat) : Word := BitVec.ofNat 64 (c + i * 2 ^ 16 + (getSlot s c i).gen.toNat * 2 ^ 22)
    let parks (i : Nat) : Prop := q.park = .fault i ∧ q.ftok = token i ∧ q.pc = p.pc ∧ q.g = p.g ∧ (getSlot t c i).gen = (getSlot s c i).gen
    (∀ i w, i < 64 → held i → (∀ j < i, ¬ held j) → (getSlot s c i).w = some w →
      parks i ∧ (getSlot t c i).w = some { w with owners := w.owners ++ [.spoke c n v] } ∧ (∀ j, j ≠ i → getSlot t c j = getSlot s c j)
        ∧ (getFn t v).rring.held = (getFn s v).rring.held.map fun x => if x.2 = some (c, i) then ({ x.1 with merge := x.1.merge + 1 }, x.2) else x)
    ∧ (∀ i < 64, (∀ j < 64, ¬ held j) → (getSlot s c i).w = none → (∀ j < i, (getSlot s c j).w ≠ none) →
      parks i ∧ (∀ j, j ≠ i → getSlot t c j = getSlot s c j)
        ∧ (∃ w, (getSlot t c i).w = some w ∧ w.vf = v ∧ w.page = e.va.toNat / 2 ^ 15 % 2 ^ 42 ∧ w.path = e.va.toNat / 2 ^ 61 ∧ w.acc = e.acc
          ∧ w.owners = [.spoke c n v] ∧ w.cmds = [] ∧ w.host = e.host)
        ∧ (getFn t v).rring.held = (getFn s v).rring.held ++
          if e.host then [] else [(⟨token i, e.va, pc, FaultCode.notPresent.num, e.acc, e.mal, e.perm, p.dom, 1, 0, false⟩, some (c, i))])
    ∧ ((∀ j < 64, ¬ held j) → (∀ j < 64, (getSlot s c j).w ≠ none) → t = modSp s c n v fun x => { x with park := .slots }))
  ∧ (∀ (s : State) (core vf idx : Nat) (m : Msg) (w : Waiter),
    let x := getCtx s core vf
    let u := setCtx s core vf { x with inbox := dropAt x.inbox idx }
    let i := tokSlot m.val
    x.inbox[idx]? = some m → m.wake = true →
    ((getSlot s core i).w = none → exec (.wakeDelivery core vf idx) s = .next (countStale u core))
    ∧ ((getSlot s core i).w = some w → (getSlot s core i).gen ≠ tokGen m.val ∨ (m.vf ≠ 0 ∧ w.vf ≠ m.vf % 64) →
        exec (.wakeDelivery core vf idx) s = .next (countStale u core))
    ∧ (∀ c n v, (getSlot s core i).w = some w → w.owners = [.spoke c n v] → w.cmds = [] → (getSlot s core i).gen = tokGen m.val →
        m.vf = 0 ∨ w.vf = m.vf % 64 → (getSp u c n v).park = .fault i →
          ∃ t, exec (.wakeDelivery core vf idx) s = .next t ∧ (getSlot t core i).w = none ∧ (getSp t c n v).park = .none))
  ∧ (∀ (s : State) (core : Nat), isSvc s core = false →
      exec (.hubLoadExchange core) s = .next ((hubNeighbours s core).foldl (hubMove core) s))
  ∧ (∀ (s : State) (core nb : Nat), core < Config.numCores → nb < Config.numCores → core ≠ nb → vfOf s nb = vfOf s core →
      let v := vfOf s core
      (getCtx s core v).hubq.Nodup →
        ((getCtx (hubMove core s nb) core v).hubq ++ (getCtx (hubMove core s nb) nb v).hubq).Perm
          ((getCtx s core v).hubq ++ (getCtx s nb v).hubq))

/-- R33, R45, R48 to R51, R399 to R402: spoke control by the hub spoke in the kernel domain: a started spoke has the registers of its record, a stopped one its stop, a killed one its end, a reaped one is free; a spilled one leaves its context free and its image in memory, complete with its accesses under way performed; a filled one returns as it was, its context taken from a spoke of another VF that had stayed there, and an image that has been altered is a soft error. The bytes of an image are open (log 11), what makes one unaltered is the model's choice (log 47), and so is that a hub waits where its VF holds MAXRES spokes (log 88). -/
def Obligations.SpokeControl : Prop :=
  ∀ (s : State) (d : Fin 32) (a b c : Src) (n : Nat), (curSp s).win = [] → s.cur.sp = 0 → s.cur.core < Config.numCores →
    let k := s.cur
    let tgt (i : Instr) (ok : Ctx → Bool) : Prop := Ready i s ∧ ctlTarget (taken i s) (src s a) ok = .ok n
    let at' (t : State) : Spoke := getSp t k.core n k.vf
    (tgt (.spstart a b c) (· == .free) → pcOk (src s b) = true →
      ∀ t r, (if c.reg = 0 then .ok (taken (.spstart a b c) s, StartRec.none) else readStart (taken (.spstart a b c) s) (src s c)) = .ok (t, r) →
        roomFor t k.vf = true → ∃ x, Completes (.spstart a b c) s x ∧ (at' x).ctx = .live ∧ (at' x).pc = src s b ∧ (at' x).want = some .start ∧ (at' x).ltag = r.tag
          ∧ (at' x).tperm = r.tperm ∧ (∀ j : Fin 32, (at' x).g[j].full = true) ∧ (at' x).rdG 30 = r.sp
          ∧ (∀ j : Fin 6, (at' x).rdG ⟨j.val + 1, by omega⟩ = r.seeds.getD j.val 0) ∧ (at' x).k[0] = 0xFFFFFFFF)
    ∧ (tgt (.spstop a) notFree →
      Completes (.spstop a) s (waitOn (requestStop (taken (.spstop a) s) k.core n k.vf) (.spstop n))
      ∧ (let p := at' s
         p.ctx = .live → p.divs = [] → p.outst = [] → p.owed = [] → p.win = [] → p.park = .none →
           (at' (requestStop (taken (.spstop a) s) k.core n k.vf)).ctx = .stopped))
    ∧ (tgt (.spresume a) notFree → (at' s).ctx = .stopped →
      ∃ x, Completes (.spresume a) s x ∧ (at' x).ctx = .live ∧ (at' x).pc = (at' s).pc)
    ∧ (tgt (.spkill a) notFree → ∃ x, Completes (.spkill a) s x ∧ (at' x).ctx = .ended ∧ reapWord (at' x) = BitVec.ofNat 64 (2 ^ 62))
    ∧ (tgt (.spreap d a) notFree → (at' s).ctx = .ended →
      ∃ x, Completes (.spreap d a) s x ∧ at' x = Spoke.reset ∧ (curSp x).rdG d = (if d = 0 then 0 else reapWord (at' s)))
    ∧ (tgt (.spspill a b) (· == .stopped) → (at' s).pub = none → ∀ ls, imageAt (taken (.spspill a b) s) (src s b) true = .ok ls →
      let t := sendHeld (flushAll (taken (.spspill a b) s) (.spoke k.core n k.vf)) k.core n k.vf
      ∃ x, Completes (.spspill a b) s x ∧ at' x = Spoke.reset
        ∧ mget Image.none x.images t.nextId = ⟨imageOf (at' t), k.vf, firstOf ls, k.core, src s b, ls, t.nextId, mget 0 t.cycles (16 * k.core + n)⟩
        ∧ ((at' s).outst = [] → (at' s).sends = [] → at' t = at' s)
        ∧ (ApartPlaces ls → imageSame x t.nextId 0 ls = true ∧ ∀ m, (∀ p ∈ ls, ¬ inside p.1 m p.2) → rdLoc x m = rdLoc t m))
    ∧ (tgt (.spfill a b) (· == .free) → ∀ ls, imageAt (taken (.spfill a b) s) (src s b) false = .ok ls →
      let same (p : Nat × Image) : Bool := p.2.vf == k.vf && imageSame s p.2.stamp 0 ls
      let found := (s.images.find? fun p => p.2.at' == firstOf ls && same p).or (s.images.find? same)
      (found = none → Traps (.spfill a b) s .softError (src s b) 1)
      ∧ ∀ m, found = some m → roomFor (taken (.spfill a b) s) k.vf = true →
        ∃ x, Completes (.spfill a b) s x ∧ at' x = m.2.sp ∧ (∀ l, l.sp ≠ .hbm → rdLoc x l = rdLoc s l)
          ∧ ((∀ v, v ≠ k.vf → (getSp s k.core n v).ctx = .free) → SameMem s x))

/-! Group 011: groups, barriers, signals, lends. -/

/-- R39, R41, R42, R331, R356: GBAR and GARRIVE arrive in their group, or park when they have arrived; the last arrival flips the phase and returns those parked; BARINIT sets a barrier up, BARARR arrives and flips it when it is full, BARWAIT goes on when the phase has flipped. The earlier accesses of the spoke to the object are performed first (R130); that they are performed then is the model's choice (log 5), and so is when a spoke that is stopped in GARRIVE arrives anew (log 101). -/
def Obligations.GroupsAndBarriers : Prop :=
  (∀ (s : State) (g : BitVec 8), (curSp s).win = [] →
    ∀ e ∈ ([(.gbar g, fun i => .group i false, fun i => .group i false), (.garrive g, fun _ => .none, fun i => .group i true)] :
      List (Instr × (Fin 4 → Park) × (Fin 4 → Park))), Ready e.1 s →
      (slotOfGrp (curSp s) (curSp s).ltag g.toNat = none → Traps e.1 s .illegalField 0 0)
      ∧ ∀ i, slotOfGrp (curSp s) (curSp s).ltag g.toNat = some i →
        Completes e.1 s (if (curSp s).gslots[i].arrived then parked (e.2.2 i) (taken e.1 s)
          else grpArrive (modCur (taken e.1 s) fun p =>
            { p with gslots := p.gslots.set i { p.gslots[i] with arrived := true }, park := e.2.1 i }) s.cur.vf (curSp s).ltag g.toNat))
  ∧ (∀ (s : State) (v tag g : Nat),
    let none' : Grp := ⟨0, 0, false⟩
    let x := mget none' s.grps (grpKey v tag g)
    let t := tryFlip s v tag g
    (x.exp = 0 ∨ x.arr < x.exp → t = s)
    ∧ (x.exp ≠ 0 → x.exp ≤ x.arr → mget none' t.grps (grpKey v tag g) = ⟨x.exp, rearrivals s v tag g, !x.phase⟩
      ∧ ∀ c n i, c < 65536 → n ≠ 0 → slotOfGrp (getSp s c n v) tag g = some i →
        let p := getSp s c n v
        let q := getSp t c n v
        q.gslots[i] = { p.gslots[i] with phase := !p.gslots[i].phase, arrived := p.park == .group i true }
          ∧ q.park = (if p.park = .group i true ∨ p.park = .group i false then .none else p.park) ∧ q.g = p.g ∧ q.pc = p.pc))
  ∧ (∀ (s : State) (a b n : Src) (r : Res),
    let y := (src s n).toNat % 2 ^ 32
    (Ready (.barinit b a n) s → barCheck (taken (.barinit b a n) s) (src s b) true = .ok r →
      let x := (src s a).toNat % 2 ^ 32
      let t := flushAt (noteAcc (taken (.barinit b a n) s) (src s b) r) r.loc 16
      (x = 0 → Traps (.barinit b a n) s .illegalField 0 0)
      ∧ (x ≠ 0 → ∃ u, Completes (.barinit b a n) s u ∧ rdN u r.loc 4 = x ∧ rdN u (r.loc.plus 4) 4 = y ∧ rdN u (r.loc.plus 8) 8 = 0
        ∧ SameBut t u r.loc 16))
    ∧ (Ready (.bararr b n) s → barCheck (taken (.bararr b n) s) (src s b) true = .ok r →
      let t := flushAt (noteAcc (taken (.bararr b n) s) (src s b) r) r.loc 16
      let w := rdN t (r.loc.plus 8) 4
      let arr := min (w % 2 ^ 31 + 1) 0x7FFFFFFF
      let bytes := min (rdN t (r.loc.plus 12) 4 + y) 0xFFFFFFFF
      (∀ w ∈ t.waiters, w.loc = r.loc → OnChip w) → ∃ u, Completes (.bararr b n) s u ∧ SameBut t u (r.loc.plus 8) 8
        ∧ if rdN t r.loc 4 ≤ arr ∧ rdN t (r.loc.plus 4) 4 ≤ bytes then
            rdN u (r.loc.plus 8) 4 = (1 - w / 2 ^ 31) * 2 ^ 31 ∧ rdN u (r.loc.plus 12) 4 = 0
              ∧ ∀ z ∈ u.waiters, z.loc = r.loc → z.want = .bar → hereNow t z = false
          else rdN u (r.loc.plus 8) 4 = arr + w / 2 ^ 31 * 2 ^ 31 ∧ rdN u (r.loc.plus 12) 4 = bytes)
    ∧ (Ready (.barwait b n) s → (curSp s).win = [] → barCheck (taken (.barwait b n) s) (src s b) false = .ok r →
      let t := flushAt (noteAcc (taken (.barwait b n) s) (src s b) r) r.loc 16
      Completes (.barwait b n) s (if rdN t (r.loc.plus 8) 4 / 2 ^ 31 ≠ (src s n).toNat % 2 then t else bankPark t r.loc .bar)))

/-- R250, R251, R394, R409, R410: SEMSIG adds with clamping and records an underflow or a clamp, SEMWAIT waits for its condition; TLSIG only raises a timeline that is not retired, TLWAIT waits for its value; a waiter whose condition a write fulfils does not stay, and a waiter on the device takes no byte of memory. When the earlier accesses of the spoke are performed is the model's choice (log 5), and so are where the record of a signal error goes (log 73), the access kind of a signal's faults (log 66) and that the waiters of a hub spoke are served whatever VF stands there (log 71). -/
def Obligations.SignalsAndTimelines : Prop :=
  (∀ (s : State) (l : Loc) (d : Int), l.sp ≠ .stw → (∀ w ∈ s.waiters, w.loc = l → OnChip w) →
    let sum := (BitVec.ofNat 64 (rdN s l 8)).toInt + d
    let v := BitVec.ofInt 64 (max (-(2 ^ 63)) (min (2 ^ 63 - 1) sum))
    let x := semAdd s l d
    rdN x.1 l 8 = v.toNat ∧ SameBut s x.1 l 8 ∧ (x.2.1 = true ↔ d < 0 ∧ sum < 0) ∧ (x.2.2 = true ↔ sum < -(2 ^ 63) ∨ 2 ^ 63 - 1 < sum)
      ∧ ∀ w ∈ x.1.waiters, w.loc = l → hereNow s w = true → ∀ k r y, w.want = .sem k r y → semHolds k v y = false)
  ∧ (∀ (s : State) (a b : Src) (r : Res), Ready (.semsig a b) s → signalCheck (taken (.semsig a b) s) (src s a) true = .ok r →
    let x := semAdd (flushAt (noteAcc (taken (.semsig a b) s) (src s a) r) r.loc 8) r.loc (src s b).toInt
    let t := if x.2.1 then signalErr x.1 (src s a) 0x20 else x.1
    Completes (.semsig a b) s (if x.2.2 then signalErr t (src s a) 0x25 else t))
  ∧ (∀ (s : State) (c : SemCond) (d : Fin 32) (a b : Src) (r : Res), (curSp s).win = [] →
    (Ready (.semwait c d a b) s → signalCheck (taken (.semwait c d a b) s) (src s a) false = .ok r →
      let t := flushAt (noteAcc (taken (.semwait c d a b) s) (src s a) r) r.loc 8
      let v := BitVec.ofNat 64 (rdN t r.loc 8)
      let holds : Bool := match c with
        | .eq => decide (v = src s b) | .le => decide (v.toInt ≤ (src s b).toInt) | .ge => decide ((src s b).toInt ≤ v.toInt)
      Completes (.semwait c d a b) s (if holds then modCur t fun p => p.wrG d v else bankPark t r.loc (.sem c d (src s b))))
    ∧ (Ready (.tlwait d a b) s → signalCheck (taken (.tlwait d a b) s) (src s a) false = .ok r →
      let t := flushAt (noteAcc (taken (.tlwait d a b) s) (src s a) r) r.loc 8
      let v := BitVec.ofNat 64 (rdN t r.loc 8)
      Completes (.tlwait d a b) s (if src s b ≤ v then modCur t fun p => p.wrG d v else bankPark t r.loc (.tl d (src s b)))))
  ∧ (∀ (s : State) (a b : Src) (r : Res), Ready (.tlsig a b) s → signalCheck (taken (.tlsig a b) s) (src s a) true = .ok r →
    let t := flushAt (noteAcc (taken (.tlsig a b) s) (src s a) r) r.loc 8
    let old := rdN t r.loc 8
    (old = 2 ^ 64 - 1 → Traps (.tlsig a b) s .timelineRetired (src s a) 2)
    ∧ (old ≠ 2 ^ 64 - 1 → (src s b).toNat ≤ old → Traps (.tlsig a b) s .timelineRegress (src s a) 2)
    ∧ (old < (src s b).toNat → (∀ w ∈ t.waiters, w.loc = r.loc → OnChip w) → ∃ u, Completes (.tlsig a b) s u ∧ rdN u r.loc 8 = (src s b).toNat ∧ SameBut t u r.loc 8
      ∧ ∀ w ∈ u.waiters, w.loc = r.loc → hereNow t w = true → ∀ g v, w.want = .tl g v → src s b < v))

/-- R91, R98, R101, R126, R337, R338, R352, R366, R386, R416: PTEST, CANCEL, LEND, UNLEND and DOMQ, which walks the checks of a read and answers 0 where one fails; what the checks of LEND and DOMQ have used stays cached (R85). That LEND makes no check of the R and W bits is the model's choice (log 53), and so is how far a cancelled command has come (log 51). -/
def Obligations.PresenceTestAndLends : Prop :=
  ∀ (s : State) (d r : Fin 32) (v : Bool) (a b : Src) (m : BitVec 2),
    let p := curSp s
    (Ready (.ptest d v r) s →
      let x : Reg := if v then .v ⟨r.val % 8, by omega⟩ else .g r
      Writes (.ptest d v r) s d (if p.fullR x then 1 else if p.pendR x = .no then 0 else 2))
    ∧ (Ready (.cancel d r) s →
      let t := taken (.cancel d r) s
      (p.pendG r = .no → Writes (.cancel d r) s d 1)
      ∧ (p.pendG r ≠ .no → cancellable s (curOwner s) p r = none → Writes (.cancel d r) s d 2)
      ∧ (∀ c, p.pendG r ≠ .no → cancellable s (curOwner s) p r = some c → p.win = [] ∨ blocked (curSp (cancelCmd t c)) = false →
        Completes (.cancel d r) s (modCur (cancelCmd t c) fun q => q.wrG d 0)))
    ∧ (Ready (.lend d a b m) s →
      let i := Instr.lend d a b m
      let n := (src s b).toNat
      (n = 0 ∨ 2 ^ 40 < n → Traps i s .illegalField 0 0)
      ∧ (0 < n → n ≤ 2 ^ 40 → lendRangeBad (src s a) n = false → freeLend p = none → Traps i s .lendFull 0 0)
      ∧ (∀ e os, 0 < n → n ≤ 2 ^ 40 → lendRangeBad (src s a) n = false → freeLend p = some e →
        lendPages (taken i s) (pageParts (src s a).toNat n) = .ok os → lendRights (taken i s) p.dom os = none →
        Completes i s (modCur (notePages (taken i s) s.cur.vf p.dom (pageParts (src s a).toNat n)) fun q =>
          { q with lends := q.lends.set e ⟨src s a, n, m == 2, p.dom, 0, .pending, 0⟩ }.wrG d (BitVec.ofNat 64 e.val))))
    ∧ (Ready (.unlend a) s →
      let e := lendIdx (src s a)
      let l := p.lends[e]
      (8 ≤ (src s a).toNat → Traps (.unlend a) s .illegalField 0 0)
      ∧ ((src s a).toNat < 8 → l.st ≠ .free → l.lender ≠ p.dom ∨ l.st = .opened → Traps (.unlend a) s .illegalField 0 0)
      ∧ ((src s a).toNat < 8 → l.st = .pending → l.lender = p.dom → CompletesWith (.unlend a) s fun q => { q with lends := q.lends.set e Lend.none })
      ∧ ((src s a).toNat < 8 → l.st = .free → Completes (.unlend a) s (parked .none (taken (.unlend a) s)))
      ∧ ((src s a).toNat < 8 → l.st = .closed → l.lender = p.dom → p.win = [] →
        Completes (.unlend a) s (parked (.wait (.unlend e)) (taken (.unlend a) s))))
    ∧ (Ready (.domq d a) s →
      let va := src s a
      let writes (x : Word) : Prop := Completes (.domq d a) s (modCur (noteVa (taken (.domq d a) s) s.cur.vf p.dom va) fun q => q.wrG d x)
      (pathBad va = true → Writes (.domq d a) s d 0)
      ∧ (∀ e, pathBad va = false → resolve (taken (.domq d a) s) s.cur.core s.cur.vf va (some false) 1 (fun _ => true) = .error e → writes 0)
      ∧ (∀ x o, pathBad va = false → resolve (taken (.domq d a) s) s.cur.core s.cur.vf va (some false) 1 (fun _ => true) = .ok x →
        pteR x.leaf = true ∧ (right (taken (.domq d a) s) s.cur.vf p.dom (pteDT x.leaf) va.toNat = some o →
          ∃ w, writes w ∧ fieldN w 0 8 = (pteDT x.leaf).toNat ∧ fieldN w 8 2 = o ∧ bitN w 15 = true
          ∧ bitN w 10 = p.lends.toList.any (lendCovers p.dom va 1 false) ∧ bitN w 11 = p.lends.toList.any (lendCovers p.dom va 1 true))
        ∧ (right (taken (.domq d a) s) s.cur.vf p.dom (pteDT x.leaf) va.toNat = none → writes 0)))

/-! Group 100. -/

/-- R83, R197, R198, R203 to R208, R210, R212, R323: an engine command records its registers and its domain at issue and enters the window; its register is pending, or its spoke waits for the command, and the lends that it relies on count it; without the engine's right it traps. At the seal a rule of the table that matches the entries at the front, each by opcode and MOD and all by the rule's constraints and predicate, rewrites them where its class is allowed and its resources are there, and is logged; where they are not, it is logged as refused and the entries stay as written; with no valid rule they do. A replacement is its template with opcode, MOD, operand values and the computed field that the rule gives; with every check passed the group's commands are in the queues in place of the originals, which wait for the commit and report there. Which lends an MMUL or COLL whose ranges are not known at issue relies on is the model's choice (log 80). -/
def Obligations.EngineIssues : Prop :=
  (∀ (s : State) (f : Fmt) (sc sp2 tr ovw sat : Bool) (rnd : Rnd) (q : Quad) (d l : Fin 32) (a b c : Src) (x : VSrc)
    (n k : BitVec 10) (adj : BitVec 8) (op : CollOp),
    ∀ e ∈ engineTable s f sc sp2 tr ovw sat rnd q d l a b c x n k adj op, Ready e.1 s →
      let t := taken e.1 s
      (∀ g, noEng t e.2.1 = some g → Traps e.1 s g 0 0)
      ∧ (noEng t e.2.1 = none →
        let y := mkCmd t d e.2.2
        let t1 := modCur (bump t) fun p => holdSnap (if d = 0 then { p with park := .cmd s.nextId } else p.owe d (.cmd s.nextId)) y.snap
        let t2 := enterWin t1 s.cur.core s.cur.sp s.cur.vf y s.cur.succ
        Completes e.1 s (if d = 0 then settleSync t2 s.nextId else t2)
          ∧ y.id = s.nextId ∧ y.dom = (curSp s).dom ∧ y.pc = s.cur.pc ∧ y.op = e.2.2.op ∧ y.st = .window
          ∧ (∀ z ∈ y.snap, (curSp s).lends[z.entry].st = .opened ∧ (curSp s).lends[z.entry].lendee = (curSp s).dom)
          ∧ (d ≠ 0 → (curSp t1).fullG d = false ∧ (curSp t1).pendG d = .cmd s.nextId ∧ (curSp t1).rdG d = (curSp s).rdG d)))
  ∧ (∀ (s : State) (tab : List (Nat × BitVec 256)) (w : List Cmd) (rest : List (Option Cmd)) (k : Nat),
    let r := mget 0 tab k
    let x := tryRules s tab (w.map some ++ rest) (List.range 64)
    let logged (out : Nat) : State := match w with
      | [] => s
      | c :: _ => modOwner s c.owner fun p => trLog p k out (w.map (·.pc))
    ((∀ j < 64, bitN (mget 0 tab j) 0 = false) → x = (s, 0))
    ∧ (k < 64 → (∀ j < 64, j ≠ k → bitN (mget 0 tab j) 0 = false) → w ≠ [] → ruleMatches s r w = true →
      (classAllowed r w = false → x = (logged 1, 0))
      ∧ (classAllowed r w = true → resources s r w = false → x = (logged 3, 0))
      ∧ (∀ cs, classAllowed r w = true → resources s r w = true → rewrite r w = some cs → x = (dispatchGroup (logged 0) k w cs, w.length))))
  ∧ (∀ (s : State) (r : BitVec 256) (w : List Cmd),
    let f (lo n : Nat) : Nat := fieldN r lo n
    (ruleMatches s r w = true → bitN r 0 = true ∧ w.length = f 1 2 + 2
      ∧ (∀ p c, w[p]? = some c → (c.op.code ^^^ f (16 + 32 * p) 7) &&& f (23 + 32 * p) 7 = 0 ∧ (c.mods ^^^ f (30 + 32 * p) 9) &&& f (39 + 32 * p) 9 = 0)
      ∧ (∀ k < 3, f (144 + 12 * k) 2 = 1 → ∀ c d, w[f (146 + 12 * k) 2]? = some c → w[f (151 + 12 * k) 2]? = some d →
        c.operand (f (148 + 12 * k) 3) = d.operand (f (153 + 12 * k) 3))
      ∧ (bitN r 14 = true → ∀ c ∈ w, bitN c.perm 2 = true))
    ∧ (classAllowed r w = true ↔ f 4 2 = 0 ∨ (f 4 2 = 1 ∧ ∀ c ∈ w, bitN c.perm 2 = true) ∨ (f 4 2 = 2 ∧ ∀ c ∈ w, bitN c.perm 0 = true)
      ∨ (f 4 2 = 3 ∧ ∀ c ∈ w, bitN c.perm 1 = true))
    ∧ (∀ cs, rewrite r w = some cs → ∀ c ∈ cs, (∃ p, w[p]? = some c ∧ bitN r (6 + p) = true) ∨ ∃ k ≤ f 3 1, replacement r k w = some (f (180 + 38 * k) 2, c))
    ∧ (∀ k p c t, replacement r k w = some (p, c) → w[p]? = some t →
      let g (lo n : Nat) : Nat := f (180 + 38 * k + lo) n
      let from' (j : Nat) : Word := match w[g (21 + 4 * j) 2]? with | some d => d.operand (g (19 + 4 * j) 2) | none => 0
      p = g 0 2 ∧ c.op.code = g 2 7 ∧ c.mods = t.mods ^^^ g 9 9 ∧ c.owner = t.owner ∧ c.dom = t.dom ∧ c.snap = t.snap
      ∧ (g 35 3 ≠ 5 → c.b = from' 1) ∧ c.a = from' 0 ∧ (g 35 3 ≠ 1 → c.c = from' 2 ∧ c.c2 = from' 3)
      ∧ (g 35 3 ∉ [2, 3, 4] → c.imm = t.imm)
      ∧ (g 35 3 = 1 → ∀ y z l, w = y :: z :: l → lword c.c c.c2 = lCompose y.lw z.lw % 2 ^ 128)
      ∧ (g 35 3 = 2 → ∀ y z l, w = y :: z :: l → bitsN c.imm 14 8 = bitsN z.imm 14 8)
      ∧ (g 35 3 = 3 → bitsN c.imm 14 8 = 0)
      ∧ (g 35 3 = 4 → (t.imm % 16 = 0 → c.imm % 16 = 6) ∧ (t.imm % 16 = 1 → c.imm % 16 = 7))
      ∧ (g 35 3 = 5 → c.b = BitVec.ofNat 64 (t.k * t.fmt.width / 8))))
  ∧ (∀ (s t : State) (k : Nat) (w cs : List Cmd), w ≠ [] → entersAll (groupStart s k w cs) (groupCmds s w cs) = some t →
    dispatchGroup s k w cs = t ∧ (∃ g, getTg t s.nextId = some g ∧ g.rule = k ∧ g.origs.map (·.id) = w.map (·.id) ∧ g.held = false)
      ∧ ∃ l, t.cmds = s.cmds ++ l ∧ l.map (·.op) = cs.map (·.op) ∧ ∀ c ∈ l, c.grp = some s.nextId ∧ c.reg = 0)
  ∧ (∀ (s : State) (g : TrGrp) (c : Cmd) (k n v : Nat), c ∈ g.origs → c.owner = .spoke k n v → c.reg ≠ 0 → (getSp s k n v).pendG c.reg = .cmd c.id →
    (∀ x ∈ g.origs, x.id ≠ c.id → x.reg ≠ c.reg) → (∀ x ∈ g.origs, x.id = c.id → x = c) →
      (getSp (commit s g) k n v).g[c.reg] = ⟨if c.op.isMatrix then statusWord g.flags c.rows else 0, true, .no⟩)

/-- R214, R215, R222, R224, R229, R233, R237, R344, R348, R406: LYTQ, CPSET and CPCANCEL, the tags, LEASE and UNLEASE, TRLOAD and TRSEAL. What CPCANCEL answers for a transfer that has completed in error, by cancellation or in another domain is the model's choice (log 78), and so is that TRLOAD loads in one instant (log 94). -/
def Obligations.EngineSetup : Prop :=
  ∀ (s : State) (d l : Fin 32) (a b : Src) (r : BitVec 3) (m : BitVec 48),
    let k := s.cur
    let x := src s a
    let c := getCtx s k.core k.vf
    let low (w : Word) (j : Nat) : Prop := w.getLsbD j = true ∧ ∀ i < j, w.getLsbD i = false
    (Ready (.lytq d l) s → noEng (taken (.lytq d l) s) .elyt = none →
      Writes (.lytq d l) s d (lytqWord (lword ((curSp s).rdG l) ((curSp s).rdG (l + 1)))))
    ∧ (∀ e ∈ ([(.cpsetReg r a, x), (.cpsetImm r m, m.signExtend 64)] : List (Instr × Word)), Ready e.1 s →
      CompletesWith e.1 s fun p => { p with cps := p.cps.set r.toNat e.2 })
    ∧ (Ready (.cpcancel d a) s → noEng (taken (.cpcancel d a) s) .ecpy = none →
      let i := Instr.cpcancel d a
      (x = 0 ∨ c.nextXid ≤ x.toNat → Writes i s d 2)
      ∧ (x ≠ 0 → x.toNat < c.nextXid → xferOf s k.core k.vf x.toNat = none → Writes i s d 1)
      ∧ (∀ y, x ≠ 0 → x.toNat < c.nextXid → xferOf s k.core k.vf x.toNat = some y → y.dom ≠ (curSp s).dom → Writes i s d 3)
      ∧ (∀ y, x ≠ 0 → x.toNat < c.nextXid → xferOf s k.core k.vf x.toNat = some y → y.dom = (curSp s).dom → lastWritten y = true → Writes i s d 1)
      ∧ (∀ y, x ≠ 0 → x.toNat < c.nextXid → xferOf s k.core k.vf x.toNat = some y → y.dom = (curSp s).dom → lastWritten y = false →
        Completes i s (modCur (if y.cancel = true ∨ y.fail.isSome = true then taken i s else cancelXfer (taken i s) y) fun p => p.wrG d 0)))
    ∧ (Ready (.waitany d a) s → (curSp s).win = [] →
      let i := Instr.waitany d a
      (x = 0 → Traps i s .illegalField 0 0)
      ∧ (x ≠ 0 → c.tags &&& x = 0 → CompletesWith i s fun p => { p with park := .tagAny d x })
      ∧ (∀ j < 64, low (c.tags &&& x) j → Completes i s (modCur
          (modCtx (taken i s) k.core k.vf fun y => { y with tags := y.tags &&& ~~~((1 : Word) <<< j), tagerr := y.tagerr &&& ~~~((1 : Word) <<< j) })
          fun p => p.wrG d (BitVec.ofNat 64 (j + 64 * (c.tagerr.getLsbD j).toNat)))))
    ∧ (Ready (.waitall a) s → (curSp s).win = [] → x ≠ 0 → Completes (.waitall a) s (if c.tags &&& x = x then
        modCtx (taken (.waitall a) s) k.core k.vf fun y => { y with tags := y.tags &&& ~~~x } else parked (.tagAll x) (taken (.waitall a) s)))
    ∧ (Ready (.tagff d a) s → (c.tags &&& x = 0 → Writes (.tagff d a) s d (BitVec.allOnes 64))
      ∧ ∀ j < 64, low (c.tags &&& x) j → Writes (.tagff d a) s d (BitVec.ofNat 64 (j + 64 * (c.tagerr.getLsbD j).toNat)))
    ∧ (Ready (.tagclr a) s → Completes (.tagclr a) s
        (modCtx (taken (.tagclr a) s) k.core k.vf fun y => { y with tags := y.tags &&& ~~~x, tagerr := y.tagerr &&& ~~~x }))
    ∧ (Ready (.lease d a) s → noEng (taken (.lease d a) s) .ecol = none → 0 < x.toNat → x.toNat ≤ 1800000 →
      (feature s k.vf 5 = false → Writes (.lease d a) s d 0x8000000000000016)
      ∧ (feature s k.vf 5 = true → Completes (.lease d a) s (modCur
          { bump (taken (.lease d a) s) with leaseReqs := s.leaseReqs ++ [⟨s.nextId, curOwner s, d, k.vf, x.toNat⟩] }
          fun p => p.owe d (.lease s.nextId))))
    ∧ (Ready (.unlease a) s → (curSp s).win = [] → noEng (taken (.unlease a) s) .ecol = none → fieldN x 4 12 = 0 → fieldN x 48 16 = 0 →
      let t := parked .none (taken (.unlease a) s)
      let eng := fieldN x 0 4
      let gen := BitVec.ofNat 32 (fieldN x 16 32)
      Completes (.unlease a) s (if leaseIs s k.vf eng gen = false ∨ (getEngine s eng).back = true then t else if collOn s k.vf eng gen then
        parked (.wait (.unlease eng gen)) (setBack (taken (.unlease a) s) eng true) else returnEngine t eng))
    ∧ (Ready (.trload a b) s → (curSp s).dom = kernelDom →
      let i := Instr.trload a b
      let t := taken i s
      let f := fieldN (src s b) 0 6
      let n := fieldN (src s b) 6 7
      0 < n → f + n ≤ 64 → fieldN (src s b) 13 51 = 0 → x.toNat % 32 = 0 → pathBad x = false → pathOf x ≤ 1 →
      fieldN (x + BitVec.ofNat 64 (32 * n - 1)) 57 7 = fieldN x 57 7 →
      trPath t (pageParts x.toNat (32 * n)) = none → ∀ ps, trPages t (pageParts x.toNat (32 * n)) = .ok ps → trRights t ps = .ok () →
        let y := trBytes (ps.foldl (fun t z => noteAcc t (BitVec.ofNat 64 z.2.1) z.1) t) (pathOf x == 1) ps
        let rs := (splitWords 32 n y.2).map (BitVec.ofNat 256 ·)
        if rs.all ruleOk then Completes i s (putRules y.1 k.core f rs) else Traps i s .illegalField x 1)
    ∧ (Ready .trseal s → Completes .trseal s (taken .trseal s))
    ∧ (let s1 := sealWin s k.core k.sp k.vf k.pc
      k.checked = false → (curSp s).win ≠ [] → (curSp s1).owed = [] →
        (curSp s1).win = [] ∧ exec .trseal s = .next (settle s1 (.done (taken .trseal s1))))

/-! Events: the engines. -/

/-- R116, R118, R182, R183, R187 to R191, R218, R220, R227, R229: a command starts, alone or with the panes granted to it; one that runs to its end completes, one that meets an absent page parks; a completion fills its register, merges its flags and publishes its panes in one step. A row of MMUL, MDRAIN or MZERO puts its elements at its place, an MLDW latches the weights and scales that its image holds, dense, transposed or sparse, SPCMP forms its image, and a unit of LYT puts the elements that the layout word names. Which of a command's accesses happen before its completion comes from the agenda (log 6). -/
def Obligations.EngineEvents : Prop :=
  (∀ (s : State) (id : Nat) (c : Cmd), getCmd s id = some c →
    ∀ e ∈ ([(.matrixCommandStart id, .matrixCommandComplete id .ok, c.op.isMatrix), (.layoutCommandStart id, .layoutCommandComplete id .ok, c.op == .lyt)] :
      List (Instr × Instr × Bool)), e.2.2 = true →
      (mayStart s c = true → needPanes s c = none → exec e.1 s = .next (setRunning s c))
      ∧ (∀ rs, mayStart s c = true → needPanes s c = some rs →
        exec e.1 s = .next (if panesFree s c.vf rs ∧ ¬ someGrantable s ∧ ¬ askedFor s c.owner then setRunning s c
          else setCmd { s with paneReqs := s.paneReqs ++ [⟨tileOf c.core, c.vf, rs.length, c.owner, if c.grp.isSome then none else some id, c.grp, none⟩] }
            { c with st := .aside }))
      ∧ (∀ x, c.st = .running → runAll s c = (x, none) → x.2.grp = none → x.2.fail = none → outCut (setCmd x.1 x.2) x.2 = none →
        let y := match x.2.lat with | some l => setLatch (setCmd x.1 x.2) x.2 l | none => setCmd x.1 x.2
        exec e.2.1 s = .next (finish y x.2 (x.2.okWord x.2.flags) none))
      ∧ (∀ x f, c.st = .running → c.grp = none → c.cancel = false → c.atEnd = false → runAll s c = (x, some f) → f ≠ badLatch →
        (f.code = .notPresent → exec (.engineTranslationFault id) s = .next (engPark x.1 x.2 f))
        ∧ (f.code ≠ .notPresent → x.2.grp = none → exec (.engineTranslationFault id) s =
          .next (finish (resetRec (setCmd x.1 x.2) { x.2 with errVa := f.va, errAcc := f.acc }) { x.2 with errVa := f.va, errAcc := f.acc }
            (refuseWord f.code) (some f.code)))))
  ∧ (∀ (s : State) (idx : Nat) (r : PaneReq), s.paneReqs[idx]? = some r → grantable s idx = true → (∀ j < idx, grantable s j = false) →
    let s1 := { s with paneReqs := dropAt s.paneReqs idx }
    (∀ id c, r.cmd = some id → getCmd s id = some c → exec (.paneGrant idx) s = .next (setRunning s1 c))
    ∧ (∀ n k j v, r.cmd = none → r.grp = none → r.pub = some n → r.owner = .spoke k j v →
      ∃ t, exec (.paneGrant idx) s = .next t ∧ t.paneReqs = dropAt s.paneReqs idx ∧ (getSp t k j v).pub = some s.nextId
        ∧ (getSp t k j v).park = (if (getSp s k j v).park = .panes then .none else (getSp s k j v).park)))
  ∧ (∀ (s : State) (c : Cmd) (w : Word) (bad : Option FaultCode) (k n v : Nat), c.owner = .spoke k n v →
    let t := finish s c w bad
    getCmd t c.id = none
    ∧ (getSp t k n v).flags = (getSp s k n v).flags ||| c.flags
    ∧ (c.reg ≠ 0 → (getSp s k n v).pendG c.reg = .cmd c.id → (getSp t k n v).g[c.reg] = ⟨w, true, .no⟩)
    ∧ (c.reg = 0 → (getSp s k n v).park = .cmd c.id → (getSp t k n v).park = .none)
    ∧ (c.pub = none → c.grp = none → (∀ x ∈ c.out, x.1.sp ≠ .tb) → (c.ovl.Pairwise fun p q => p.1 ≠ q.1) →
      ∀ a, rdLoc t ⟨.tb, a⟩ = match c.ovl.find? (·.1 == a) with | some p => p.2 | none => rdLoc s ⟨.tb, a⟩))
  ∧ (∀ (w : Nat) (xs : List Nat), xs.length * w % 8 = 0 → (∀ x ∈ xs, x < 2 ^ w) →
    (packRow w xs).length = xs.length * w / 8 ∧ elems w xs.length (packRow w xs) = xs
    ∧ ∀ (bs : List Byte) (n i : Nat), i < n → (elems w n bs).getD i 0 = natOfBytes bs / 2 ^ (w * i) % 2 ^ w)
  ∧ (∀ (s : State) (c : Cmd) (d : LDesc) (ws sws : List (List Nat)) (a z : List Byte) (ls : List Loc), c.op = .mmul → c.wdesc = some d →
    weights s c d = some (ws, sws) →
    let at' : Int := (c.b.toNat : Int) + c.done * fieldN c.c 36 20
    engRead s c (c.opnd s 0) ((c.a.toNat : Int) + c.done * fieldN c.c 16 20) (actLen c.fmt d.k c.sc) = .ok a →
    (if c.mod5 then z = List.replicate (4 * d.n) 0 else engRead s c { c.opnd s 1 with wr := false } at' (4 * d.n) = .ok z) →
    Places s c (c.opnd s 1) at' (4 * d.n) ls →
      let as := elems c.fmt.width d.k (a.take (d.k * c.fmt.width / 8))
      let sas := elems 8 (d.k / c.fmt.blk) (a.drop (d.k * c.fmt.width / 8))
      let ys := (List.range d.n).map fun n => matAcc c d.fmt as sas (ws.map (·.getD n 0)) (sws.map (·.getD n 0))
        (BitVec.ofNat 32 (natOfBytes ((z.drop (4 * n)).take 4)))
      Works s c (c.done + 1) (ys.foldl (fun g y => g ||| y.2) 0) ls (ys.flatMap fun y => bytesLE 4 y.1.toNat))
  ∧ (∀ (s : State) (c : Cmd) (z : List Byte) (ls : List Loc), c.op = .mdrain →
    engRead s c (c.opnd s 0) ((c.a.toNat : Int) + c.done * fieldN c.c 16 20) (4 * c.n) = .ok z →
    Places s c (c.opnd s 1) ((c.b.toNat : Int) + c.done * fieldN c.c 36 20) (c.n * c.fmt.width / 8) ls →
      let ys := (List.range c.n).map fun n => drainElem c.fmt c.rnd c.mod6 ((BitVec.ofNat 8 (bitsN c.imm 14 8)).toInt)
        (BitVec.ofNat 32 (natOfBytes ((z.drop (4 * n)).take 4)))
      Works s c (c.done + 1) (ys.foldl (fun g y => g ||| y.2) 0) ls (packRow c.fmt.width (ys.map (·.1))))
  ∧ (∀ (s : State) (c : Cmd) (ls : List Loc), c.op = .mzero →
    Places s c (c.opnd s 0) ((c.a.toNat : Int) + c.done * fieldN c.b 16 20) (4 * c.n) ls →
      Works s c (c.done + 1) 0 ls (List.replicate (4 * c.n) 0))
  ∧ (∀ (s : State) (c : Cmd) (w m z : Nat → List Byte), c.op = .mldw →
    let f := c.fmt
    let o := c.opnd s 0
    let rs := fieldN c.b 0 20
    let nb := c.k / f.blk
    let base : Int := c.a.toNat
    let rows (x stride : Int) (len n : Nat) (r : Nat → List Byte) : Prop := ∀ i < n, engRead s c o (x + i * stride) len = .ok (r i)
    let latches (code : Nat → Nat → Nat) (scale : Nat → Nat → Nat) : Prop :=
      ∃ l : Latch, runOne s c = .ok (s, { c with done := c.k, lat := some l }) ∧ l.desc = c.ldesc
        ∧ (∀ k < c.k, ∀ n < c.n, at2 l.codes k n = code k n) ∧ (c.sc = true → ∀ b < nb, ∀ n < c.n, at2 l.scales b n = scale b n)
    (c.mod6 = true → rows base rs (rowBytes f c.k) c.n w → (c.sc = true → rows (base + c.n * rs) nb nb c.n z) →
      latches (fun k n => (elems f.width c.k (w n)).getD k 0) (fun b n => ((z n).getD b 0).toNat))
    ∧ (c.mod6 = false → c.mod5 = false → rows base rs (rowBytes f c.n) c.k w → (c.sc = true → rows (base + c.k * rs) c.n c.n nb z) →
      latches (fun k n => (elems f.width c.n (w k)).getD n 0) (fun b n => ((z b).getD n 0).toNat))
    ∧ (c.mod6 = false → c.mod5 = true → c.k % 4 = 0 → rows base rs (rowBytes f c.n) (c.k / 2) w →
      let meta' : Int := base + c.k / 2 * rs
      rows meta' (c.n / 2 : Nat) (c.n / 2) (c.k / 4) m →
      (c.sc = true → rows (meta' + (c.k / 4 * (c.n / 2) : Nat)) c.n c.n nb z) →
      let nib (g n : Nat) : Nat := (elems 4 c.n (m g)).getD n 0
      (∀ g < c.k / 4, ∀ n < c.n, nib g n % 4 < nib g n / 4) →
      latches (fun k n => if k % 4 = nib (k / 4) n % 4 then (elems f.width c.n (w (2 * (k / 4)))).getD n 0
          else if k % 4 = nib (k / 4) n / 4 then (elems f.width c.n (w (2 * (k / 4) + 1))).getD n 0 else 0)
        (fun b n => ((z b).getD n 0).toNat))
    ∧ (c.mod6 = false → c.mod5 = true → ∀ (g n : Nat), rows base rs (rowBytes f c.n) (c.k / 2) w →
      let meta' : Int := base + c.k / 2 * rs
      rows meta' (c.n / 2 : Nat) (c.n / 2) (c.k / 4) m →
      (c.sc = true → rows (meta' + (c.k / 4 * (c.n / 2) : Nat)) c.n c.n nb z) →
      g < c.k / 4 → n < c.n → (elems 4 c.n (m g)).getD n 0 / 4 ≤ (elems 4 c.n (m g)).getD n 0 % 4 → runOne s c = .error badLatch))
  ∧ (∀ (s : State) (c : Cmd) (w z : Nat → List Byte), c.op = .spcmp → c.k % 4 = 0 →
    let f := c.fmt
    let rs := fieldN c.c 0 20
    let ds := fieldN c.c 20 20
    let nb := c.k / f.blk
    let o := c.opnd s 0
    let elem (k n : Nat) : Nat := (elems f.width c.n (w k)).getD n 0
    let pair (g n : Nat) : Nat × Nat := kept ((List.range 4).map fun i => Fmt.dec f (elem (4 * g + i) n))
    let dst : Int := c.b.toNat
    let plane : Int := dst + c.k / 2 * ds
    (∀ k < c.k, engRead s c o ((c.a.toNat : Int) + k * rs) (rowBytes f c.n) = .ok (w k)) →
    (c.sc = true → ∀ b < nb, engRead s c o ((c.a.toNat : Int) + c.k * rs + b * c.n) c.n = .ok (z b)) →
      runOne s c = (engWriteAll s c (c.opnd s 1)
        ((List.range (c.k / 2)).map (fun (r : Nat) => (dst + (r * ds : Nat), packRow f.width ((List.range c.n).map fun n =>
            elem (4 * (r / 2) + if r % 2 = 0 then (pair (r / 2) n).1 else (pair (r / 2) n).2) n)))
          ++ (List.range (c.k / 4)).map (fun (g : Nat) => (plane + (g * (c.n / 2) : Nat),
            packRow 4 ((List.range c.n).map fun n => (pair g n).1 + 4 * (pair g n).2)))
          ++ if c.sc then (List.range nb).map (fun (b : Nat) => (plane + (c.k / 4 * (c.n / 2) + b * c.n : Nat), z b)) else [])).map
        fun y => (y.1, { y.2 with done := c.k }))
  ∧ (∀ (s : State) (c d : Cmd) (o : Opnd) (p : Int × List Byte) (r : List (Int × List Byte)) (ls : List Loc),
    engWriteAll s c o [] = .ok (s, c)
    ∧ (engWriteAll s c o r = .ok (s, d) → Places s c o p.1 p.2.length ls →
      ∃ e, engWriteAll s c o (p :: r) = .ok (s, e) ∧ Puts s d e ls p.2))
  ∧ (∀ (l : Nat) (o x : List Nat), lReason l = none → o.length = lRank l → x.length = lRank l →
    (∀ j < lRank l, o.getD j 0 < lSize l (lPerm l j)
      ∧ x.getD (lPerm l j) 0 = if lRev l (lPerm l j) then lSize l (lPerm l j) - 1 - o.getD j 0 else o.getD j 0) →
      lSource l (lin o (lDSizes l)) = lin x (lSizes l) ∧ lin o (lDSizes l) < lCount l)
  ∧ (∀ (s : State) (c : Cmd) (i : Nat) (v : Nat → Nat) (ls : List Loc), c.op = .lyt → lReason c.lw = none →
    let w := lWidth c.lw
    let u := lUnit c.lw
    let o := c.opnd s 0
    let base : Int := c.a.toNat
    (∀ j < u,
      let n := lSource c.lw (i * u + j)
      (lEsz c.lw = 0 → ∃ b, engRead s c o (base + (n / 2 : Nat)) 1 = .ok [b] ∧ v j = b.toNat / 16 ^ (if lSnb c.lw then 1 - n % 2 else n % 2) % 16)
      ∧ (lEsz c.lw = 1 → ∃ b, engRead s c o (base + (n / 4 * 3 : Nat)) 3 = .ok b ∧ v j = natOfBytes b / 64 ^ (n % 4) % 64)
      ∧ (1 < lEsz c.lw → ∃ b, engRead s c o (base + (n * (w / 8) : Nat)) (w / 8) = .ok b ∧ v j = natOfBytes b)) →
    Places s c (c.opnd s 1) ((c.b.toNat : Int) + (i * (u * w / 8) : Nat)) (u * w / 8) ls →
      ∃ d bs, unitOf s c i = .ok (s, d) ∧ d.done = c.done ∧ bs.length = u * w / 8 ∧ Puts s c d ls bs
        ∧ ∀ j < u, natOfBytes bs / 2 ^ (w * (if lDnb c.lw then 1 - j else j)) % 2 ^ w = v j)

/-- R41, R225, R227 to R236: a waiting copy takes a free slot and its identifier; byte b of row i is copied from its place in the source row to its place in the destination row, a row that an index vector names being found by its signed lane; with the slot it arms its tag, whose count rises and whose TAGS bit clears, and the watermark stands; a transfer that has run completes: its tag is released, its count falling and its TAGS bit rising at 0, with the TAGERR bit where it ended in error or by cancellation; its identifier leaves the channel, of which the watermark is the lowest in flight or else the next, and never falls; and its arrival goes to its barrier, where it counts like any other; one whose barrier is not present parks before it completes. Which of a copy's accesses happen before its completion comes from the agenda (log 6); that BAR is translated as the copy completes, and so the clause of that park, is the model's choice (log 39), and so is that a barrier which fails terminally gets no arrival (log 83). -/
def Obligations.CopyEvents : Prop :=
  (∀ (s : State) (core : Nat) (c : Cmd) (r : List Cmd), slotWaiters s core = c :: r → inFlight s core < 512 →
    let vf := c.vf
    exec (.copySlotGrant core vf) s = .next (release (takeSlot s c) c.owner)
    ∧ (getCtx (takeSlot s c) core vf).nextXid = (getCtx s core vf).nextXid + 1
    ∧ (getCtx (takeSlot s c) core vf).xids = (getCtx s core vf).xids ++ [(getCtx s core vf).nextXid]
    ∧ (let x := getCtx s core vf
      let y := getCtx (takeSlot s c) core vf
      let arms (j : Nat) : Bool := !bitN (c.cp 6) 6 && j == (c.cp 6).toNat % 64
      watermark y = watermark x ∧ y.tagerr = x.tagerr
        ∧ ∀ j < 64, mget 0 y.tagCnt j = mget 0 x.tagCnt j + (arms j).toNat ∧ y.tags.getLsbD j = (x.tags.getLsbD j && !arms j))
    ∧ ∀ k n v, c.owner = .spoke k n v → c.reg ≠ 0 → (getSp s k n v).pendG c.reg = .cmd c.id →
      (getSp (takeSlot s c) k n v).g[c.reg] = ⟨BitVec.ofNat 64 (getCtx s core vf).nextXid, true, .no⟩)
  ∧ (∀ (s : State) (id : Nat) (c : Cmd) (x : State × Cmd), getCmd s id = some c → c.op.isCopy = true → c.cancel = false → c.st = .running →
    c.atEnd = false → runAll s c = (x, none) → (∀ l, barAt x.1 x.2 = .ok l → outCut x.1 x.2 = none → x.2.fail = none → exec (.transferCompletion id .ok) s = .next (finishCopy x.1 x.2 none x.2.bytes l))
      ∧ (∀ e, barAt x.1 x.2 = .error e → e.code = .notPresent → c.grp = none →
        exec (.engineTranslationFault id) s = .next (engPark x.1 x.2 e)))
  ∧ (∀ (s : State) (c : Cmd) (bad : Option FaultCode) (n : Nat) (l : Option Loc),
    let t := finishCopy s c bad n l
    c.xid ∉ (getCtx t c.core c.vf).xids ∧ getCmd t c.id = none
      ∧ t.barArrs = s.barArrs ++ (match l with | some a => [⟨a, min n 0xFFFFFFFF, c.vf, c.ltag⟩] | none => [])
      ∧ (let x := getCtx s c.core c.vf
        let y := getCtx t c.core c.vf
        let frees (j : Nat) : Bool := !bitN (c.cp 6) 6 && j == (c.cp 6).toNat % 64
        y.xids = x.xids.filter (· != c.xid) ∧ y.nextXid = x.nextXid ∧ watermark x ≤ watermark y
          ∧ (∀ i ∈ y.xids, watermark y ≤ i) ∧ watermark y ≤ y.nextXid ∧ (watermark y ∈ y.xids ∨ watermark y = y.nextXid)
          ∧ (∀ j < 64, mget 0 y.tagCnt j = mget 0 x.tagCnt j - (frees j).toNat)
          ∧ ((∀ i < 16, match (getSp s c.core i c.vf).park with | .tagAny _ _ | .tagAll _ => False | _ => True) → ∀ j < 64,
            y.tags.getLsbD j = (x.tags.getLsbD j || (frees j && decide (mget 0 x.tagCnt j ≤ 1)))
              ∧ y.tagerr.getLsbD j = (x.tagerr.getLsbD j || (frees j && (bad.isSome || c.cancel))))))
  ∧ (∀ (s : State) (idx : Nat) (a : BarArr), s.barArrs[idx]? = some a →
    exec (.copyBarrierArrival idx) s = .next (barArrive { s with barArrs := dropAt s.barArrs idx } a.loc a.bytes))
  ∧ (∀ (s : State) (c : Cmd) (i b : Nat) (x : Byte) (ls : List Loc), c.op.isCopy = true → b < c.clen →
    let row (on : Bool) (base stride : Word) : Nat := (base + (if on then (c.idx.getD i 0).signExtend 64 else BitVec.ofNat 64 i) * stride).toNat
    let from' := row (c.op == .cpgath) (c.cp 0) (c.cp 4) + b
    let dest := row (c.op == .cpscat) (c.cp 1) (c.cp 5) + b
    engRead s c (c.opnd s 0) from' 1 = .ok [x] → Places s c (c.opnd s 1) dest 1 ls →
      ∃ d, unitOf s c (i * c.clen + b) = .ok (s, d) ∧ d.done = c.done ∧ Puts s c d ls [x])

/-- R168, R237 to R240, R282, R285: a collective that has what its peers brought writes its result and completes, one whose lease is over, whose peer is not bound or whose connection has ended completes in error; a lease request receives the lowest free engine with its generation one higher, or is refused; a lease that expires is over. A reduction goes through the ranks in ascending order, a sum rounding each step to nearest; all-gather joins the ranks' blocks, broadcast copies the root's. That the peers' bytes come with the completion is the model's choice (log 68). -/
def Obligations.CollectiveEvents : Prop :=
  (∀ (s : State) (id : Nat) (peers : List (Nat × List Byte)) (c : Cmd) (own : List Byte) (srcs : List (List Byte)) (x : State × Cmd),
    getCmd s id = some c → collNext s c = true →
    (leaseCurrent s c.vf (c.desc.getD 0 0) = false → exec (.collComplete id .ok peers) s = .next (collFail s c .lease 0 0)) ∧
    (∀ f va acc, leaseCurrent s c.vf (c.desc.getD 0 0) = true → c.fail = some (f, va, acc) →
      exec (.collComplete id .ok peers) s = .next (collFail s c .segment va acc)) ∧
    (leaseCurrent s c.vf (c.desc.getD 0 0) = true → c.fail = none → c.done = 0 → collCut s c = true →
      exec (.collComplete id .ok peers) s = .next (collFail s c .segment 0 0)) ∧
    (leaseCurrent s c.vf (c.desc.getD 0 0) = true → c.fail = none → c.done = 0 → collCut s c = false → engRead s c (collSrc c) (collSrc c).lo (collSrc c).len = .ok own → collSrcs c own peers = some srcs →
    engWrite s c (collDst c) (collDst c).lo (collResult c srcs).1 = .ok x →
      let y := { x.2 with flags := (collResult c srcs).2, done := 1, st := .running }
      outCut x.1 y = none → exec (.collComplete id .ok peers) s = .next (finish x.1 y 0 none)))
  ∧ (∀ (s : State) (r : LeaseReq) (rest : List LeaseReq) (c n v : Nat), s.leaseReqs = r :: rest → r.owner = .spoke c n v →
    r.reg ≠ 0 → (getSp s c n v).pendG r.reg = .lease r.id →
    let free := (List.range 16).find? fun e => (getEngine s e).lease.isNone
    let given := if leasesOf s r.vf < leaseMax s r.vf then free else none
    ∃ t, exec .leaseAnswer s = .next t ∧ t.leaseReqs = rest ∧ match given with
      | none => (getSp t c n v).g[r.reg] = ⟨0x8000000000000016, true, .no⟩ ∧ t.engines = s.engines
      | some e => (getSp t c n v).g[r.reg] = ⟨BitVec.ofNat 64 (e + ((getEngine s e).gen + 1).toNat * 2 ^ 16), true, .no⟩
          ∧ getEngine t e = ⟨(getEngine s e).gen + 1, some (r.vf, s.refTimer + r.time), false⟩ ∧ ∀ k, k ≠ e → getEngine t k = getEngine s k)
  ∧ (∀ (s : State) (e v w : Nat), (getEngine s e).lease = some (v, w) →
    ∃ t, exec (.leaseExpiry e) s = .next t ∧ getEngine t e = ⟨(getEngine s e).gen, none, false⟩)
  ∧ (∀ (f : Fmt) (red x y : Nat) (xs : List Nat), redAll f red [x] = (x, 0)
    ∧ (xs ≠ [] → redAll f red (xs ++ [y]) = ((redOp f red (redAll f red xs).1 y).1, (redAll f red xs).2 ||| (redOp f red (redAll f red xs).1 y).2)))
  ∧ (∀ (red : Nat) (x y : BitVec 32), redOp .i32 red x.toNat y.toNat = ((if red = 0 then x + y
    else if red = 1 then if x.slt y then y else x else if x.slt y then x else y).toNat, 0))
  ∧ (∀ e ∈ floatFormats, e.2.1.style = .ieee → ∀ x < 2 ^ e.1.width, ∀ y < 2 ^ e.1.width,
    let a := Fmt.dec e.1 x
    let b := Fmt.dec e.1 y
    let inv (z : Bool) : BitVec 5 := if z then fInv else 0
    let sum := redOp e.1 0 x y
    (a.isNan = true ∨ b.isNan = true → ∀ red < 3, redOp e.1 red x y = (e.2.2.1, inv (a.sig || b.sig)))
    ∧ (∀ g, a = .inf g → b.isNan = false → sum = if b = .inf (!g) then (e.2.2.1, fInv) else (x, 0))
    ∧ (∀ g, b = .inf g → (∃ h m k, a = .fin h m k) → sum = (y, 0))
    ∧ ((∃ h m k h' m' k', a = .fin h m k ∧ b = .fin h' m' k') →
      let v := a.val + b.val
      (v = 0 → sum = (if negOf a = true ∧ negOf b = true then 2 ^ (e.1.width - 1) else 0, 0))
      ∧ (v ≠ 0 → e.2.1.Result e.2.2.2.1 e.2.2.2.2 .rne false (decide (v < 0)) |v| sum)
      ∧ (a.val < b.val → redOp e.1 1 x y = (y, 0) ∧ redOp e.1 1 y x = (y, 0) ∧ redOp e.1 2 x y = (x, 0) ∧ redOp e.1 2 y x = (x, 0))
      ∧ (negOf a = false → negOf b = true → v = 0 → a.val = 0 → redOp e.1 1 x y = (x, 0) ∧ redOp e.1 2 x y = (y, 0)))
    ∧ (a.isNan = false → b.isNan = false → redOp e.1 1 x x = (x, 0) ∧ redOp e.1 2 x x = (x, 0)
      ∧ (∀ g, a = .inf g → redOp e.1 1 x y = (if g then y else x, 0) ∧ redOp e.1 2 x y = (if g then x else y, 0))))
  ∧ (∀ (c : Cmd) (srcs : List (List Byte)), srcs.length = c.nrank →
    let w := c.collFmt.width
    let r := collResult c srcs
    let red (e : Nat) : Nat × BitVec 5 := redAll c.collFmt c.red (srcs.map fun b => natOfBytes ((b.drop (e * (w / 8))).take (w / 8)))
    let element (e : Nat) : Nat := natOfBytes ((r.1.drop (e * (w / 8))).take (w / 8))
    (c.cop = 1 → r = (srcs.flatten, 0)) ∧ (c.cop = 3 → r = (srcs.getD c.root [], 0))
    ∧ (w % 8 = 0 → srcs ≠ [] → (∀ b ∈ srcs, b.length = c.nrank * (c.count * (w / 8))) →
      (c.cop = 0 → ∀ e < c.count, element e = (red (c.rank * c.count + e)).1)
      ∧ (c.cop = 2 → ∀ e < c.nrank * c.count, element e = (red e).1)))

/-! Events: the dispatcher and the slices. -/

/-- R242 to R244, R246 to R250, R253, R254, R256: a kick raises WIDX, does nothing where it does not lie above it, is an error beyond the ring, and is dropped where the queue is disabled or halted; a queue whose EN rises starts at WIDX and RIDX 0; SIGNAL, barrier, GRAPH and DISPATCH packets that are served do their work and leave their source; a launched population holds what its packet and record say, and its members are dealt as far as they can be; a packet that has completed is gone and its CSIG is one lower. Which packet a dispatcher serves next is the model's choice (log 36), and so is that a descriptor is always read as it stands (log 87), that a register write of a member in the mesh or at a port holds the completion back (log 105), and that a misaligned signal address is a ring fault (log 112). -/
def Obligations.PacketEvents : Prop :=
  (∀ (s : State) (fn off : Nat) (w : Word),
    let q := off / 8
    (2048 ≤ off ∨ off % 8 ≠ 0 → exec (.kickWrite fn off 8 w) s = .next (regErr s fn))
    ∧ (off < 2048 → off % 8 = 0 → (getFn s fn).quiesced = true →
      ∃ t, exec (.kickWrite fn off 8 w) s = .next t ∧ (getFn t fn).dropkick = (getFn s fn).dropkick + 1 ∧ SameMem s t)
    ∧ (∀ a, off < 2048 → off % 8 = 0 → (getFn s fn).quiesced = false → queueDesc s fn q = some a →
      (qEn s a = false → ∃ t, exec (.kickWrite fn off 8 w) s = .next t ∧ (getFn t fn).dropkick = (getFn s fn).dropkick + 1 ∧ SameMem s t
        ∧ (getQ t fn q).enabled = false)
      ∧ (qEn s a = true → (getQ s fn q).enabled = true → qHalt s a = true → exec (.kickWrite fn off 8 w) s = .next (dropKick s fn))
      ∧ (qEn s a = true → (getQ s fn q).enabled = true → qHalt s a = false →
        (w.toNat ≤ qWidx s a → exec (.kickWrite fn off 8 w) s = .next s)
        ∧ (qWidx s a < w.toNat → qRidx s a + 2 ^ qLog s a < w.toNat → exec (.kickWrite fn off 8 w) s = .next (queueErr s fn q 0x24 false))
        ∧ (qWidx s a < w.toNat → w.toNat ≤ qRidx s a + 2 ^ qLog s a →
          ∃ t, exec (.kickWrite fn off 8 w) s = .next t ∧ qWidx t a = w.toNat ∧ SameBut s t ⟨.hbm, a + 16⟩ 8
            ∧ ((getQ s fn q).active = true ∨ activeCount s < 1024 → (getQ t fn q).active = true)))
      ∧ (qEn s a = true → (getQ s fn q).enabled = false → descBad s a = false → 0 < w.toNat → w.toNat ≤ 2 ^ qLog s a →
        ∃ t, exec (.kickWrite fn off 8 w) s = .next t ∧ qWidx t a = w.toNat ∧ qRidx t a = 0 ∧ qHalt t a = false ∧ (getQ t fn q).enabled = true))
    ∧ (∀ a code, queueDesc s fn q = some a → 0 < code → code < 256 →
      let t := queueErr s fn q code false
      fieldN (qWord t a 4) 0 8 = (if fieldN (qWord s a 4) 0 8 = 0 then code else fieldN (qWord s a 4) 0 8)
        ∧ fieldN (qWord t a 4) 8 32 = min (fieldN (qWord s a 4) 8 32 + 1) (2 ^ 32 - 1) ∧ SameBut s t ⟨.hbm, a + 32⟩ 8))
  ∧ (∀ (s : State) (src : PktSrc) (b : List Byte),
    let v := (srcQueue s src).1
    let t := started s src b
    (∀ l, Served s src 5 b → sigLoc s v (wordAt b 1) true = some l →
      (bitN (wordAt b 0) 16 = false → (semAdd (t true) l (wordAt b 2).toInt).2 = (false, false) →
        exec (.signalPacket src) s = .next (semAdd (t true) l (wordAt b 2).toInt).1)
      ∧ (∀ x, bitN (wordAt b 0) 16 = true → tlSet (t true) l (wordAt b 2) = .ok x → exec (.signalPacket src) s = .next x))
    ∧ (∀ e ∈ ([(.barrierAndPacket src, 2), (.barrierOrPacket src, 3)] : List (Instr × Nat)), Served s src e.2 b → barWaits s src = [] →
      ∀ ls, barEval s v b = some (ls, true) → exec e.1 s = .next (t true))
    ∧ (∀ ls h, barEval s v b = some (ls, h) →
      ls.length = (barDeps b).length ∧ (pktType b = 2 → (h = true ↔ ∀ x ∈ (barDeps b).zip ls, depHolds s x.1.2.1 x.2 x.1.2.2 = true))
        ∧ (pktType b = 3 → (h = true ↔ ∃ x ∈ (barDeps b).zip ls, depHolds s x.1.2.1 x.2 x.1.2.2 = true)))
    ∧ (Served s src 4 b →
      let n := fieldN (wordAt b 2) 0 16
      let base := (wordAt b 1).toNat
      ∀ im preds, nodesUsed s + n ≤ 16384 → dispRead s v (pageParts base (72 * n)) = some im →
      let nodes := (List.range n).map fun j => (im.drop (64 * j)).take 64
      let edges := (List.range n).map fun j => wordAt (im.drop (64 * n)) j
      readPreds s v base edges = some preds → graphBad nodes edges preds = false →
        ∃ x g, exec (.graphPacket src) s = .next x ∧ mget g x.graphs (s.nextId + 1) = g ∧ mhas x.graphs (s.nextId + 1) = true
          ∧ g.nodes = nodes ∧ g.preds = preds ∧ g.started = [] ∧ g.completed = [] ∧ g.pkt = s.nextId ∧ g.vf = v)
    ∧ (∀ r gs tag, Served s src 1 b → launchRec s v b = .ok r → launchGroups s v (fieldN (wordAt b 0) 32 32) r.gtab = .ok gs →
      freeTag s v = some tag → ∃ t p, exec (.dispatchPacket src) s = .next t ∧ getPop t v tag = some p
        ∧ p.size = fieldN (wordAt b 0) 32 32 ∧ p.quota = fieldN (wordAt b 0) 16 4 ∧ p.tperm.toNat = fieldN (wordAt b 0) 20 2 ∧ p.entry = wordAt b 1
        ∧ p.arg = wordAt b 2 ∧ p.seeds = [wordAt b 3, wordAt b 4, wordAt b 5] ∧ p.aff = r.aff ∧ p.stkoff = r.stkoff ∧ p.stksz = r.stksz
        ∧ p.groups = gs ∧ p.reaped = 0 ∧ p.killed = false ∧ p.src = src ∧ p.pkt = s.nextId ∧ (∃ k ∈ t.pkts, k = ⟨s.nextId, src, pktCsig b, false⟩)
        ∧ (∀ g ∈ gs, mget (⟨0, 0, false⟩ : Grp) t.grps (grpKey v tag g.1) = ⟨g.2.length, 0, false⟩)
        ∧ p.nextIdx ≤ p.size ∧ dealOne t v tag = none))
  ∧ (∀ (s : State) (id : Nat) (p : Pkt), s.pkts.find? (·.id == id) = some p → pktComplete s p = true → pktQuiet s p = true →
    ∃ t, exec (.packetCompletion id) s = .next t ∧ (∀ x ∈ t.pkts, x.id ≠ id) ∧ (p.csig = 0 → SameMem s t)
      ∧ ∀ l, p.csig ≠ 0 → sigLoc s (srcQueue s p.src).1 p.csig true = some l → 0 < rdN s l 8 → rdN s l 8 < 2 ^ 63 →
        rdN t l 8 = rdN s l 8 - 1 ∧ SameBut s t l 8)

/-- R35, R38, R45, R181, R203, R255, R256, R273, R278 to R280: the next member of a population goes to the next core in ascending number that can take it, and starts there in the lowest free context with its registers set, or waits in the hub queue beyond QUOTA; a half tile whose VF has left it passes to the next VF with cleared latches and the default rules; a block that was written takes effect at the start of a slice, and a half that it gives up is vacated; no slice ends before its shortest length, but with its window, nor for a VF behind whose slice the shares that are due do not fit, unless it is the one that has to come in now, as one has where no more than a shortest slice is left before the shares that are due. When else a slice ends comes from the agenda, and how the shares are kept is the model's choice (log 56). -/
def Obligations.PlacementAndSlices : Prop :=
  (∀ (s : State) (p : Pop) (c : Nat), dealCore s p = some c → c ∈ popCores s p ∧ dealable s p c = true
    ∧ ∀ d ∈ popCores s p, dealable s p d = true →
      (p.lastCore < c ∧ (p.lastCore < d → c ≤ d)) ∨ (c ≤ p.lastCore ∧ d ≤ p.lastCore ∧ c ≤ d))
  ∧ (∀ (s : State) (v tag c : Nat) (p : Pop), getPop s v tag = some p → p.vf = v → p.tag = tag → p.killed = false → p.nextIdx < p.size →
    dealCore s p = some c → 92160 ≤ maxRes s v ∨ resident s v < maxRes s v →
    (p.quota ≤ heldOn s c v (fun x => x.ltag == tag) → ∃ t, exec (.memberPlacement v tag) s = .next t
      ∧ (getCtx t c v).hubq = (getCtx s c v).hubq ++ [(p.nextIdx, tag)] ∧ getPop t v tag = some { p with nextIdx := p.nextIdx + 1, lastCore := c })
    ∧ (∀ n, heldOn s c v (fun x => x.ltag == tag) < p.quota → freeCtx s c v = some n → p.seeds.length = 3 →
      ∃ t, exec (.memberPlacement v tag) s = .next t ∧ getPop t v tag = some { p with nextIdx := p.nextIdx + 1, lastCore := c }
        ∧ let q := getSp t c n v
          q.ctx = .live ∧ q.pc = p.entry ∧ q.want = some .launch ∧ q.ltag = tag ∧ q.tperm = p.tperm ∧ q.k[0] = 0xFFFFFFFF
            ∧ q.rdG 30 = (getFn s v).spmap + BitVec.ofNat 64 (65536 * c + p.stkoff + n * p.stksz)
            ∧ q.rdG 1 = BitVec.ofNat 64 p.nextIdx ∧ q.rdG 2 = BitVec.ofNat 64 p.size ∧ q.rdG 3 = p.arg
            ∧ q.rdG 4 = p.seeds.getD 0 0 ∧ q.rdG 5 = p.seeds.getD 1 0 ∧ q.rdG 6 = p.seeds.getD 2 0))
  ∧ (∀ (s : State) (h vf : Nat), h < 768 → vf ≤ 63 →
    let out := (getHalf s h).vf
    let x := getHalf s h
    let may := x.next = some vf ∨ sliceOk s h vf = true ∨ sliceMust s h = some vf
    (vf = out → vf ≠ 0 → may → ∃ t, exec (.sliceEnd h vf) s = .next t ∧ (getFn t vf).ctlAct = (getFn s vf).ctlNew
      ∧ if bitN (getFn s vf).ctlNew.halves h then getHalf t h = { x with next := none, since := s.refTimer, due := dueNow s h, vac := false }
        else (getHalf t h).next = some 0 ∧ (getHalf t h).vf = vf)
    ∧ (x.next ≠ some vf → out ≠ 0 → s.refTimer - x.since < 115200 →
      x.since / 1800000 = s.refTimer / 1800000 ∨ s.refWas / 1800000 = s.refTimer / 1800000 →
      exec (.sliceEnd h vf) s = .next s)
    ∧ (let others := (((dueNow s h).filter fun p => p.1 != vf).map (·.2)).sum
      vf ≠ 0 → x.next ≠ some vf → sliceMust s h ≠ some vf → 0 < others → 1800000 - s.refTimer % 1800000 < others + mget 0 (dueNow s h) vf →
        exec (.sliceEnd h vf) s = .next s)
    ∧ (let due := (dueNow s h).filter fun p => p.1 != out && decide (0 < p.2)
      (∀ v, sliceMust s h = some v → v ≠ out ∧ mayEnter s h out v = true ∧ (∃ n, (v, n) ∈ due) ∧ sliceOver s h = true)
      ∧ ((∃ p ∈ due, mayEnter s h out p.1 = true) → sliceOver s h = true →
        1800000 - s.refTimer % 1800000 ≤ (due.map (·.2)).sum + 115200 → ∃ v, sliceMust s h = some v))
    ∧ (let s1 := setHalf s h { getHalf s h with next := some vf }
      let s2 := if out = 0 then s1 else stopHalf s1 h out
      vf ≠ out → mayEnter s h out vf = true → may → out = 0 ∨ halfIdle s2 out h = true →
        ∃ t d, exec (.sliceEnd h vf) s = .next t ∧ getHalf t h = ⟨vf, defaultTrowel, none, s.refTimer, d, false⟩
          ∧ ∀ p ∈ t.latches, ¬ (p.1 / 4 = h / 2 ∧ p.1 % 4 / 2 = h % 2)))

/-! Events: the host, the links and the controller. -/

/-- R262, R263, R267 to R270: a held record goes to its ring, with its MSI-X message; the host's answer to a page request releases or denies those who wait; CIDX, WAKE and INVGO do what their rules say. The order in which held records are written is the model's choice (log 74), and so is the resumption PC of a denied spoke (log 64) and that a CIDX write sends its message from a ring that is not enabled as well (log 98). -/
def Obligations.RingsAndRequests : Prop :=
  (∀ (s : State) (fn : Nat) (k : RingSel) (x : RingRec × Option (Nat × Nat)) (rest : List (RingRec × Option (Nat × Nat))) (l : Loc),
    let r := (getFn s fn).ring k
    fn ≤ 63 → r.held = x :: rest → r.room = true → r.slotLoc s fn = some l →
    (k = .device ∧ fn = 0) ∨ (k ≠ .device ∧ ringTurnOk s (2 * fn + if k = .retry then 0 else 1) = true) →
      ∃ t, exec (.ringRecordWrite fn k) s = .next t ∧ rdN t l 32 = x.1.num ∧ SameBut s t l 32
        ∧ ((getFn t fn).ring k).pidx = r.pidx + 1 ∧ ((getFn t fn).ring k).held = rest
        ∧ t.msix = s.msix ++ (if r.used = 0 then [⟨fn, r.vec⟩] else []))
  ∧ (∀ (s : State) (token : Word) (ans : PageAnswer),
    let core := tokCore token
    let i := tokSlot token
    ((getSlot s core i).w = none → exec (.pageRequestResponse token ans) s = .next (countStale s core))
    ∧ (∀ w c n v, (getSlot s core i).w = some w → (getSlot s core i).gen = tokGen token → w.host = true → w.cmds = [] →
      w.owners = [.spoke c n v] → (getSp s c n v).park = .fault i →
      let p := getSp s c n v
      ∃ t, exec (.pageRequestResponse token ans) s = .next t ∧ (getSlot t core i).w = none ∧ (getSp t c n v).park = .none
        ∧ (ans = .success → (getSp t c n v).pc = p.pc ∧ (getSp t c n v).owed = p.owed)
        ∧ (ans ≠ .success → (getSp t c n v).owed = p.owed ++ [⟨.hostDenied, p.pc, parkedRpc p, p.fva, 0, w.acc⟩])))
  ∧ (∀ (s : State) (fn : Nat) (w : Word),
    (tokBad w = true → exec (.wakeRegisterWrite fn w) s = .next (regErr s fn))
    ∧ (tokBad w = false → ∃ t m, exec (.wakeRegisterWrite fn w) s = .next t ∧ t.mesh = s.mesh ++ [m] ∧ m.wake = true ∧ m.val = w
      ∧ m.core = fieldN w 0 16 ∧ (fn ≠ 0 → m.vf = fn))
    ∧ (∃ t r, exec (.invgoWrite fn w) s = .next t ∧ t.invals = s.invals ++ [r] ∧ r.vf = fn
      ∧ r.lo = (getFn s fn).invva.toNat % 2 ^ 57 ∧ r.len = (getFn s fn).invlen.toNat)
    ∧ (∀ k, k ≠ .device ∨ fn = 0 → ∃ t, exec (.ringCidxWrite fn k w) s = .next t ∧ ((getFn t fn).ring k).cidx = w
      ∧ ((getFn s fn).ring k).pidx = ((getFn t fn).ring k).pidx ∧ SameMem s t
      ∧ t.msix = s.msix ++ (if ((getFn s fn).ring k).pidx ≠ w then [⟨fn, ((getFn s fn).ring k).vec⟩] else [])))

/-- R11, R12, R145, R267, R276 to R278, R281, R283, R285, R286: what the host writes into the registers, what its agents and the bound peers do to HBM, what it takes back, what the links lose, what a peer's reset notice ends, with the accesses under way, be the pair bound again, and the refill of the bandwidth buckets. The places of the flit counter's bins (log 59), the size of the pages that the host takes back (log 38) which agents are decoded (log 62) and that an empty block of a VF that is resident nowhere takes effect at once (log 99) are the model's choices. -/
def Obligations.HostAndLinks : Prop :=
  (∀ (s : State) (fn : Nat) (w : Word),
    (w &&& ~~~(0x800000000000003F : Word) ≠ 0 → exec (.featdrvWrite fn w) s = .next (regErr s fn))
    ∧ (w &&& ~~~(0x800000000000003F : Word) = 0 → (getFn s fn).quiesced = true → ∃ t, exec (.featdrvWrite fn w) s = .next t ∧ (getFn t fn).featdrv = w
      ∧ (getFn t fn).quiesced = !(w.getLsbD 63 && (fn == 0 || !(getFn s 0).quiesced || (getFn s 0).featdrv.getLsbD 63)))
    ∧ (fn ≤ 63 → ∀ e ∈ ([(0x18, 16384, fun f => { f with ptroot := w }), (0x20, 8192, fun f => { f with dombase := w }),
        (0x28, 16384, fun f => { f with qtbase := w }), (0x30, 1, fun f => { f with spmap := w }), (0x40, 1, fun f => { f with invva := w }),
        (0x48, 1, fun f => { f with invlen := w })] : List (Nat × Nat × (Fn → Fn))),
      exec (.registerWrite fn 0 e.1 8 w) s = .next (if w.toNat % e.2.1 = 0 then modFn s fn e.2.2 else regErr s fn))
    ∧ (∀ v i, 0 < v → v ≤ 63 → i < 16 → ctlBad s v ((getFn s v).ctlNew.put i w) = false →
      ∃ t, exec (.registerWrite 0 4 (256 * v + 8 * i) 8 w) s = .next t
        ∧ (let b := (getFn s v).ctlNew.put i w
           (getFn t v).ctlAct = if isResident s v = false ∧ b.halves = 0 then b else (getFn s v).ctlAct)
        ∧ ∀ j < 16, (getFn t v).ctlNew.word j = if j = i then w else (getFn s v).ctlNew.word j))
  ∧ (∀ (s : State) (g : Agent) (a n v c dev : Nat) (bs : List Byte) (l : Loc),
    (feature s 0 2 = true → s.ctrl.port ≠ 0 → a + n ≤ Config.hbmSize → agentLoc s (.host a) n = some ⟨.hbm, a⟩)
    ∧ (feature s 0 2 = false ∨ s.ctrl.port = 0 ∨ Config.hbmSize < a + n → agentLoc s (.host a) n = none)
    ∧ agentLoc s (.peer v dev a) n = (if mhas s.binds (v * 1024 + dev) then (stage2N s v a n).map fun x => ⟨.hbm, x⟩ else none)
    ∧ (∀ e, agentLoc s g (agentLen e) = none → exec (.hostMemoryAccess g e) s = .next s)
    ∧ (agentLoc s g bs.length = some l → ∃ t, exec (.hostMemoryAccess g (.write bs)) s = .next t ∧ SameBut s t l bs.length
      ∧ ∀ i : Fin bs.length, rd t.hbm (l.a + i) = bs[i])
    ∧ (agentLoc s g n = some l → ∀ e ∈ ([(.fetchAdd n v, rdN s l n + v), (.swap n v, v), (.cas n c v, if rdN s l n = c then v else rdN s l n)] :
        List (AgentAcc × Nat)), ∃ t, exec (.hostMemoryAccess g e.1) s = .next t ∧ rdN t l n = e.2 % 2 ^ (8 * n) ∧ SameBut s t l n))
  ∧ (∀ (s : State) (fn a n line : Nat),
    (∃ t, exec (.atsInvalidationRequest fn a n) s = .next t ∧ ∀ p ∈ t.ats, ¬ (p.1 / 2 ^ 52 = fn
      ∧ p.1 % 2 ^ 52 * 4096 < a + n ∧ a < p.1 % 2 ^ 52 * 4096 + 4096))
    ∧ (line ∈ s.cxl → ∃ t, exec (.cxlCacheSnoop line false) s = .next t ∧ line ∉ t.cxl
      ∧ ∀ tile, ∀ r ∈ rlines t tile, ¬ (r.sp = .host ∧ r.a = line))
    ∧ exec (.cxlCacheSnoop line true) s = .next s)
  ∧ (∀ (s : State) (link dev core : Nat) (idle : List Nat),
    let x := getLink s link
    let k := 4 * 2 ^ 32 + link * 2 ^ 16
    (link < 48 → x.up = true → x.fails < 8 → ∃ t, exec (.flitCrcFailure link) s = .next t ∧ (getLink t link).up = true
      ∧ t.binds = s.binds ∧ mget 0 t.ctrl.live k = mget 0 s.ctrl.live k + 1)
    ∧ (link < 48 → x.up = true → 8 ≤ x.fails → ∃ t, exec (.flitCrcFailure link) s = .next t
      ∧ ((getLink t link).up = false → ∀ p ∈ t.binds, Config.linkOf (p.1 % 1024) ≠ link))
    ∧ (∃ t, exec (.peerResetNotice dev) s = .next t ∧ t.binds = s.binds.filter (fun p => p.1 % 1024 != dev) ∧ SameMem s t
      ∧ (t.cmds.map fun c => (c.id, c.st, c.ovl)) = s.cmds.map (fun c => (c.id, c.st, c.ovl))
      ∧ ∀ v r x, mhas s.binds (v * 1024 + dev) = true → dev < 1024 → x ∈ r.accs → x.loc.sp = .peer → x.loc.a / 2 ^ 40 = dev → r.id < s.nextId →
        ∀ bs, reqCut { t with binds := bs } v r = true)
    ∧ (∃ t, exec (.bucketRefill core idle) s = .next t ∧
      let bw (v : Nat) : Nat := fieldN (getFn s v).ctlAct.sched 40 9
      let vfs := (List.range 64).filter fun v => v != 0 && decide (0 < bw v)
      let total := ((vfs.filter (! idle.contains ·)).map bw).sum
      let spare := ((vfs.filter (idle.contains ·)).map fun v => bw v * 256).sum
      ∀ v, 0 < v → v < 64 → 0 < bw v →
        mget 0 (getCore t core).buckets v = if v ∈ idle then 0 else bw v * 256 + spare * bw v / total / 64 * 64))

/-- R258, R274, R275, R283, R285 to R290: the mailbox commands with their results, the reply, the counters, the clocks, the power states and the resets. The numbers of the lifetime counters (log 59), what a reset keeps (log 57), what a second binding does (log 69) and that an unbinding ends the accesses under way (log 116) are the model's choices. -/
def Obligations.ControllerEvents : Prop :=
  (∀ s : State,
    let b := mbByte s
    (MbRuns s 1 1 0 → exec .portset s = .next (if b 0 < 4 then replied { s with ctrl := { s.ctrl with portNext := BitVec.ofNat 2 (b 0) } } (0, [], 0)
      else replied s (2, [], 0)))
    ∧ (∀ c, MbRuns s 2 192 c → c < 3 →
      exec .svcmask s = .next (replied { s with ctrl := { s.ctrl with svcBuf := mset s.ctrl.svcBuf c (mbArg s) } } (0, [], 0)))
    ∧ (MbRuns s 2 192 3 → (mset s.ctrl.svcBuf 3 (mbArg s)).length = 4 →
      let cs := coresOfMask ((mset s.ctrl.svcBuf 3 (mbArg s)).flatMap (·.2))
      ∃ t, exec .svcmask s = .next t ∧ t.ctrl.svcMask = s.ctrl.svcMask ∧ if maskRefused cs then t.ctrl.reply = some (3, [], 0) ∧ t.ctrl.svcNext = s.ctrl.svcNext
        else t.ctrl.reply = some (0, [], 0) ∧ t.ctrl.svcNext = some cs)
    ∧ (MbRuns s 3 6 0 → 0 < b 0 → b 0 ≤ 63 → b 1 = 0 → mbNum s 2 2 ≤ 1023 → b 5 = 1 ∨ (b 5 = 0 ∧ 0 < b 4 ∧ b 4 ≤ 63) →
      let k := b 0 * 1024 + mbNum s 2 2
      exec .peerbind s = .next (if b 5 = 1 then replied (endBinds s (· == k)) (0, [], 0)
        else if (getLink s (Config.linkOf (mbNum s 2 2))).up then replied { s with binds := mset s.binds k (b 4) } (0, [], 0) else replied s (3, [], 0)))
    ∧ (MbRuns s 4 32 0 → ∃ t rep, exec .quote s = .next t ∧ rep = measurements s ++ bytesLE 114 (Config.ed448Sign (shake256 (mbArg s ++ measurements s))).toNat
      ∧ t.ctrl.quote = some (mbArg s, rep) ∧ t.ctrl.reply = some (0, rep.take 224, (rep.length + 223) / 224))
    ∧ (MbRuns s 5 4 0 → b 1 = 0 → counterIdxOk (b 0) (mbNum s 2 2) = true → ∃ t bytes n, exec .counters s = .next t
      ∧ t.ctrl.reply = some (0, bytes, n) ∧ bytes.take 8 = bytesLE 8 (counterOf s (b 0) (mbNum s 2 2) 0))
    ∧ (MbRuns s 6 16 0 →
      let img := rdBytes s.host (mbNum s 0 8) (mbNum s 8 8)
      ∃ t, exec .fwload s = .next t ∧ t.ctrl.reply = some (if Config.ed448Verifies img then 0 else 4, [], 0)
        ∧ t.ctrl.fw = (if Config.ed448Verifies img then s.ctrl.fw ++ [shake256 img] else s.ctrl.fw))
    ∧ (MbRuns s 7 0 0 → ∃ t n, exec .ident s = .next t ∧ t.ctrl.reply = some (0, Config.identity.take 224, n))
    ∧ (∀ res bs n, s.ctrl.busy = true → s.ctrl.reply = some (res, bs, n) → res < 256 → bs.length ≤ 224 → n < 2 ^ 16 →
      ∃ t, exec .mailboxReply s = .next t ∧ t.ctrl.busy = false ∧ bitN t.ctrl.mstat 0 = false ∧ bitN t.ctrl.mstat 1 = true
        ∧ fieldN t.ctrl.mstat 8 8 = res ∧ fieldN t.ctrl.mstat 16 8 = bs.length ∧ fieldN t.ctrl.mstat 24 16 = n
        ∧ t.ctrl.mdata.take bs.length = bs ∧ t.msix = s.msix ++ [⟨0, (getFn s 0).dring.vec⟩]))
  ∧ (∀ (s : State) (temp volt : List (Nat × Nat)) (mhz : Nat),
    (∃ t, exec (.lifetimeCounterUpdate temp volt) s = .next t ∧ t.ctrl.live = [] ∧ ∀ k, mget 0 t.ctrl.nv k = mget 0 s.ctrl.nv k
      + ((s.ctrl.live.filter (·.1 == k)).map (·.2)).sum + 600 * (temp.filter fun p => p.1 * 2 ^ 16 + p.2 % 2 ^ 16 == k).length
      + 600 * (volt.filter fun p => 2 ^ 32 + p.1 * 2 ^ 16 + p.2 % 2 ^ 16 == k).length)
    ∧ (∃ t, exec (.orderlyPowerDown) s = .next t ∧ t.power = false ∧ t.ctrl.live = []
      ∧ (let sec := (s.refTimer - s.ctrl.lifeAt) / 1800000000
        ∀ k, mget 0 t.ctrl.nv k = mget 0 s.ctrl.nv k + ((s.ctrl.live.filter (·.1 == k)).map (·.2)).sum
          + sec * ((Config.tempBands s.tick).filter fun p => p.1 * 2 ^ 16 + p.2 % 2 ^ 16 == k).length
          + sec * ((Config.voltBands s.tick).filter fun p => 2 ^ 32 + p.1 * 2 ^ 16 + p.2 % 2 ^ 16 == k).length)
      ∧ (∀ c, act t (.issue c) = .next t) ∧ ∀ i, i ≠ .powerOn → act t (.event i) = .next t)
    ∧ exec (.clockThrottle mhz) s = .next (if 0 < mhz ∧ mhz < s.clk then setClk s mhz else s)
    ∧ exec (.clockRestore mhz) s = .next (if s.clk < mhz ∧ mhz ≤ 1800 then setClk s mhz else s)
    ∧ (setClk s mhz).clk = mhz ∧ (setClk s mhz).refTimer = s.refTimer
    ∧ ((∀ f < 64, (getFn s f).quiesced = true) → exec .d3hotRequest s = .next { s with d3hot := true })
    ∧ (∀ f < 64, (getFn s f).quiesced = false → exec .d3hotRequest s = .next s))
  ∧ (∀ (s : State) (vf : Nat) (scrub : Bool),
    (0 < vf → vf ≤ 63 → ∃ t, exec (.functionLevelReset vf) s = .next t ∧ (getFn t vf).quiesced = true ∧ (getFn t vf).featdrv = 0
      ∧ (∀ q ∈ t.queues, q.1 / 256 ≠ vf) ∧ (∀ g ∈ t.graphs, g.2.vf ≠ vf)
      ∧ ∀ c i w, i < 64 → (getSlot t c i).w = some w → w.vf ≠ vf)
    ∧ (∃ t, exec (.warmRestart scrub) s = .next t ∧ (∀ f, (getFn t f).quiesced = true ∧ (getFn t f).featdrv = 0)
      ∧ t.pops = [] ∧ t.pkts = [] ∧ t.queues = [] ∧ t.ats = [] ∧ t.cxl = [] ∧ t.binds = [] ∧ (∀ p ∈ s.binds, p.1 % 1024 ∈ t.notices) ∧ (scrub = true → t.hbm = []))
    ∧ (∃ t, exec .deviceReset s = .next t ∧ t.hbm = s.hbm ∧ t.host = s.host ∧ (∀ f, getFn t f = Fn.reset) ∧ t.cores = [] ∧ t.scr = [] ∧ t.tb = []
      ∧ t.ctrl.svcMask = s.ctrl.svcNext.getD s.ctrl.svcMask ∧ t.ctrl.nv = s.ctrl.nv)
    ∧ (∃ t, exec .powerOn s = .next t ∧ t.power = true ∧ t.hbm = [] ∧ (∀ f, getFn t f = Fn.reset) ∧ t.ctrl.port = s.ctrl.portNext
      ∧ t.ctrl.nv = s.ctrl.nv))
end

