-- ==== Sys2Proof/Laws/Encode.lean ====
section
/-! SUPPORT. A word and its fields: packing and unpacking undo each other (R68). -/

namespace Sys2Proof

/-- A bit read back from its number. -/
theorem beq_one_of_toNat (b : Bool) (n : Nat) (h : n = b.toNat) : (n == 1) = b := by subst h; cases b <;> rfl

/-- The fields of a packed word are the fields packed. -/
theorem unpack_pack (r : Raw) : unpack (pack r) = r := by
  obtain ⟨op, fmt, rlx, b81, dk, dst, syna, sa, synb, sb, sync, sc, mod, imm⟩ := r
  have h1 := op.isLt; have h2 := fmt.isLt; have h3 := rlx.toNat_lt; have h4 := b81.toNat_lt
  have h5 := dk.toNat_lt; have h6 := dst.isLt; have h7 := syna.toNat_lt; have h8 := sa.isLt
  have h9 := synb.toNat_lt; have h10 := sb.isLt; have h11 := sync.toNat_lt; have h12 := sc.isLt
  have h13 := mod.isLt; have h14 := imm.isLt
  simp only [unpack, pack, BitVec.toNat_ofNat, Raw.mk.injEq]
  refine ⟨?_, ?_, ?_, ?_, ?_, ?_, ?_, ?_, ?_, ?_, ?_, ?_, ?_, ?_⟩
  all_goals first
    | (apply BitVec.eq_of_toNat_eq; rw [BitVec.toNat_ofNat]; omega)
    | (apply beq_one_of_toNat; omega)

/-- A one-bit number from the test of its bit. -/
theorem toNat_beq_one (n : Nat) (h : n < 2) : (n == 1).toNat = n := by
  match n, h with
  | 0, _ => rfl
  | 1, _ => rfl

/-- A quotient and its remainder make the number again, one field further down. -/
theorem field_step (n a b : Nat) : n / 2 ^ a = 2 ^ b * (n / 2 ^ (a + b)) + n / 2 ^ a % 2 ^ b := by
  rw [Nat.pow_add, ← Nat.div_div_eq_div_mul]; exact (Nat.div_add_mod _ _).symm

/-- A word is the packing of its fields: no bit of it is left out. -/
theorem pack_unpack (w : BitVec 96) : pack (unpack w) = w := by
  apply BitVec.eq_of_toNat_eq
  have h := w.isLt
  simp only [unpack, pack, BitVec.toNat_ofNat, toNat_beq_one _ (Nat.mod_lt _ two_pos)]
  generalize w.toNat = n at h ⊢
  have h0 := field_step n 0 48
  have h1 := field_step n 48 9
  have h2 := field_step n 57 5
  have h3 := field_step n 62 1
  have h4 := field_step n 63 5
  have h5 := field_step n 68 1
  have h6 := field_step n 69 5
  have h7 := field_step n 74 1
  have h8 := field_step n 75 5
  have h9 := field_step n 80 1
  have h10 := field_step n 81 1
  have h11 := field_step n 82 1
  have h12 := field_step n 83 3
  have hz : n / 2 ^ 86 % 2 ^ 10 = n / 2 ^ 86 := Nat.mod_eq_of_lt (by omega)
  simp only [Nat.reduceAdd, Nat.pow_zero, Nat.pow_one, Nat.div_one] at h0 h1 h2 h3 h4 h5 h6 h7 h8 h9 h10 h11 h12
  rw [hz]
  generalize n / 2 ^ 48 = q48 at *
  generalize n / 2 ^ 57 = q57 at *
  generalize n / 2 ^ 62 = q62 at *
  generalize n / 2 ^ 63 = q63 at *
  generalize n / 2 ^ 68 = q68 at *
  generalize n / 2 ^ 69 = q69 at *
  generalize n / 2 ^ 74 = q74 at *
  generalize n / 2 ^ 75 = q75 at *
  generalize n / 2 ^ 80 = q80 at *
  generalize n / 2 ^ 81 = q81 at *
  generalize n / 2 ^ 82 = q82 at *
  generalize n / 2 ^ 83 = q83 at *
  generalize n / 2 ^ 86 = q86 at *
  generalize n % 2 ^ 48 = r0 at *
  generalize q48 % 2 ^ 9 = r48 at *
  generalize q57 % 2 ^ 5 = r57 at *
  generalize q62 % 2 = r62 at *
  generalize q63 % 2 ^ 5 = r63 at *
  generalize q68 % 2 = r68 at *
  generalize q69 % 2 ^ 5 = r69 at *
  generalize q74 % 2 = r74 at *
  generalize q75 % 2 ^ 5 = r75 at *
  generalize q80 % 2 = r80 at *
  generalize q81 % 2 = r81 at *
  generalize q82 % 2 = r82 at *
  generalize q83 % 2 ^ 3 = r83 at *
  clear hz
  rw [Nat.mod_eq_of_lt] <;> omega

end Sys2Proof
end

