-- ==== Sys2Proof/Laws/FMap.lean ====
section
/-! SUPPORT. Finite maps: a read after a write, and that every write keeps the canonical form of a memory. -/

namespace Sys2Proof.Machine

section
variable {α : Type}

theorem mget_mins (d : α) (m : List (Nat × α)) (k : Nat) (v : α) (j : Nat) (h : ∀ p ∈ m, p.1 ≠ k) :
    mget d (mins m k v) j = if k = j then v else mget d m j := by
  induction m with
  | nil => simp [mins, mget]
  | cons p r ih =>
    have hp := h p (by simp)
    have hr := ih fun q hq => h q (by simp [hq])
    by_cases hk : k < p.1
    · simp [mins, hk, mget]
    · simp only [mins, hk, if_false, mget]
      by_cases hj : p.1 = j
      · have : k ≠ j := by omega
        simp [hj, this]
      · simp [hj, hr]

theorem mget_mdel (d : α) (m : List (Nat × α)) (k j : Nat) : mget d (mdel m k) j = if j = k then d else mget d m j := by
  induction m with
  | nil => simp [mdel, mget]
  | cons p r ih =>
    simp only [mdel, List.filter_cons] at *
    by_cases hp : p.1 = k
    · by_cases hj : j = k
      · simp_all
      · have : p.1 ≠ j := by omega
        simp_all [mget]
    · by_cases hj : p.1 = j
      · have : j ≠ k := by omega
        simp [mget, hj, this]
      · have : (p.1 != k) = true := by simpa using hp
        simp [this, mget, hj, ih]

theorem mdel_ne (m : List (Nat × α)) (k : Nat) : ∀ p ∈ mdel m k, p.1 ≠ k := by simp [mdel]

/-- A read after a write: the written value at its key, the old one elsewhere. -/
theorem mget_mset (d : α) (m : List (Nat × α)) (k : Nat) (v : α) (j : Nat) :
    mget d (mset m k v) j = if k = j then v else mget d m j := by
  rw [mset, mget_mins d _ k v j (mdel_ne m k), mget_mdel]
  by_cases h : k = j
  · simp [h]
  · simp [h, Ne.symm h]

@[simp] theorem mget_mset_same (d : α) (m : List (Nat × α)) (k : Nat) (v : α) : mget d (mset m k v) k = v := by
  simp [mget_mset]

theorem mget_mset_ne (d : α) (m : List (Nat × α)) {k j : Nat} (v : α) (h : k ≠ j) : mget d (mset m k v) j = mget d m j := by
  simp [mget_mset, h]

theorem mget_mput [DecidableEq α] (d : α) (m : List (Nat × α)) (k : Nat) (v : α) (j : Nat) :
    mget d (mput d m k v) j = if k = j then v else mget d m j := by
  unfold mput
  split
  · subst_vars
    rw [mget_mdel]
    by_cases h : k = j
    · simp [h]
    · simp [h, Ne.symm h]
  · exact mget_mset d m k v j
end

/-! The canonical form of a memory. -/

theorem rd_wr (m : Mem) (a : Nat) (b : Byte) (x : Nat) : rd (wr m a b) x = if a = x then b else rd m x :=
  mget_mput unwritten m a b x

/-- The canonical form, as properties of the list. -/
theorem memWf_iff (m : Mem) : memWf m = true ↔ m.Pairwise (fun p q => p.1 < q.1) ∧ ∀ p ∈ m, p.2 ≠ unwritten := by
  induction m with
  | nil => simp [memWf]
  | cons p r ih =>
    simp only [memWf, Bool.and_eq_true, ih, List.pairwise_cons, List.mem_cons, forall_eq_or_imp, bne_iff_ne]
    constructor
    · rintro ⟨⟨h1, h2⟩, h3, h4⟩
      refine ⟨⟨?_, h3⟩, h1, h4⟩
      intro q hq
      cases r with
      | nil => simp at hq
      | cons x r =>
        simp [above] at h2
        rcases List.mem_cons.1 hq with rfl | hq
        · exact h2
        · exact Nat.lt_trans h2 ((List.pairwise_cons.1 h3).1 q hq)
    · rintro ⟨⟨h1, h2⟩, h3, h4⟩
      refine ⟨⟨h3, ?_⟩, h2, h4⟩
      cases r with
      | nil => rfl
      | cons x r => simpa [above] using h1 x (by simp)

theorem mem_mins {α : Type} (m : List (Nat × α)) (k : Nat) (v : α) (p : Nat × α) : p ∈ mins m k v ↔ p = (k, v) ∨ p ∈ m := by
  induction m with
  | nil => simp [mins]
  | cons q r ih =>
    unfold mins
    split
    · simp
    · simp [ih]; tauto

theorem pairwise_mins {α : Type} (m : List (Nat × α)) (k : Nat) (v : α) (h : m.Pairwise (fun p q => p.1 < q.1)) (hk : ∀ p ∈ m, p.1 ≠ k) :
    (mins m k v).Pairwise (fun p q => p.1 < q.1) := by
  induction m with
  | nil => simp [mins]
  | cons q r ih =>
    have ⟨h1, h2⟩ := List.pairwise_cons.1 h
    unfold mins
    split
    next hlt =>
      refine List.pairwise_cons.2 ⟨fun p hp => ?_, h⟩
      rcases List.mem_cons.1 hp with rfl | hp
      · exact hlt
      · exact Nat.lt_trans hlt (h1 p hp)
    next hge =>
      have hq := hk q (by simp)
      refine List.pairwise_cons.2 ⟨fun p hp => ?_, ih h2 fun p hp => hk p (by simp [hp])⟩
      rcases (mem_mins r k v p).1 hp with rfl | hp
      · show q.1 < k
        omega
      · exact h1 p hp

theorem memWf_mdel {m : Mem} (k : Nat) (h : memWf m = true) : memWf (mdel m k) = true := by
  rw [memWf_iff] at *
  exact ⟨h.1.sublist List.filter_sublist, fun p hp => h.2 p (List.mem_of_mem_filter hp)⟩

/-- Writing a byte keeps the canonical form. -/
theorem memWf_wr {m : Mem} (a : Nat) (b : Byte) (h : memWf m = true) : memWf (wr m a b) = true := by
  unfold wr mput
  split
  · exact memWf_mdel a h
  next hb =>
    have hd := memWf_mdel a h
    rw [memWf_iff] at *
    refine ⟨pairwise_mins _ _ _ hd.1 (mdel_ne m a), fun p hp => ?_⟩
    rcases (mem_mins _ _ _ _).1 hp with rfl | hp
    · exact hb
    · exact hd.2 p hp

/-- Writing bytes keeps the canonical form. -/
theorem memWf_wrBytes {m : Mem} (a : Nat) (bs : List Byte) (h : memWf m = true) : memWf (wrBytes m a bs) = true := by
  induction bs generalizing m a with
  | nil => exact h
  | cons b bs ih => exact ih (a + 1) (memWf_wr a b h)

/-- Writing a number keeps the canonical form. -/
theorem memWf_wrNat {m : Mem} (a n x : Nat) (h : memWf m = true) : memWf (wrNat m a n x) = true := memWf_wrBytes a _ h

/-- Taking out some of the entries keeps the canonical form. -/
theorem memWf_filter {m : Mem} (f : Host.Cell → Bool) (h : memWf m = true) : memWf (m.filter f) = true := by
  rw [memWf_iff] at *
  exact ⟨h.1.sublist List.filter_sublist, fun p hp => h.2 p (List.mem_of_mem_filter hp)⟩

/-- Filling a stretch keeps the canonical form. -/
theorem memWf_fillMem {m : Mem} (a n : Nat) (f : Nat → Byte) (h : memWf m = true) : memWf (fillMem m a n f) = true := by
  rw [memWf_iff] at *
  have mid : ∀ p ∈ (List.range n).filterMap (fun i => if f i = unwritten then none else some (a + i, f i)),
      p.2 ≠ unwritten ∧ a ≤ p.1 ∧ p.1 < a + n := by
    intro p hp
    obtain ⟨i, hi, e⟩ := List.mem_filterMap.1 hp
    split at e
    · cases e
    next hn => cases e; exact ⟨hn, by simp, by simpa using hi⟩
  refine ⟨?_, ?_⟩
  · refine List.pairwise_append.2 ⟨List.pairwise_append.2 ⟨h.1.sublist List.filter_sublist, ?_, ?_⟩, h.1.sublist List.filter_sublist, ?_⟩
    · refine List.Pairwise.filterMap _ (fun i j hij p hp q hq => ?_) List.pairwise_lt_range
      split at hp
      · cases hp
      · split at hq
        · cases hq
        · cases hp; cases hq; simpa using hij
    · intro p hp q hq
      have := (mid q hq).2
      simp at hp
      omega
    · intro p hp q hq
      simp at hq
      rcases List.mem_append.1 hp with hp | hp
      · simp at hp; omega
      · have := (mid p hp).2; omega
  · intro p hp
    rcases List.mem_append.1 hp with hp | hp
    · rcases List.mem_append.1 hp with hp | hp
      · exact h.2 p (List.mem_of_mem_filter hp)
      · exact (mid p hp).1
    · exact h.2 p (List.mem_of_mem_filter hp)

/-- Bytes outside the written ones read as before. -/
theorem rd_wrBytes_out (m : Mem) (a : Nat) (bs : List Byte) (x : Nat) (h : x < a ∨ a + bs.length ≤ x) :
    rd (wrBytes m a bs) x = rd m x := by
  induction bs generalizing m a with
  | nil => rfl
  | cons b bs ih =>
    simp only [List.length_cons] at h
    rw [wrBytes, ih (wr m a b) (a + 1) (by omega), rd_wr]
    have : a ≠ x := by omega
    simp [this]

/-- A written byte reads back. -/
theorem rd_wrBytes_in (m : Mem) (a : Nat) (bs : List Byte) (i : Nat) (h : i < bs.length) :
    rd (wrBytes m a bs) (a + i) = bs[i] := by
  induction bs generalizing m a i with
  | nil => simp at h
  | cons b bs ih =>
    cases i with
    | zero =>
      rw [wrBytes, Nat.add_zero, rd_wrBytes_out _ _ _ _ (by omega), rd_wr]
      simp
    | succ i =>
      have := ih (wr m a b) (a + 1) i (by simpa using h)
      rw [wrBytes, show a + (i + 1) = a + 1 + i by omega, this]
      simp

end Sys2Proof.Machine
end

