-- ==== Sys2Proof/Laws/State.lean ====
section
/-! SUPPORT. What each update of the state leaves: one lemma a field and update, and the accessors of cores and spokes after their updates. -/

namespace Sys2Proof.Machine

/-! setHalf -/

@[simp] theorem setHalf_cc (s : State) (h : Nat) (x : Half) : (setHalf s h x).cc = s.cc := rfl
@[simp] theorem setHalf_refTimer (s : State) (h : Nat) (x : Half) : (setHalf s h x).refTimer = s.refTimer := rfl
@[simp] theorem setHalf_refWas (s : State) (h : Nat) (x : Half) : (setHalf s h x).refWas = s.refWas := rfl
@[simp] theorem setHalf_ended (s : State) (h : Nat) (x : Half) : (setHalf s h x).ended = s.ended := rfl
@[simp] theorem setHalf_refRem (s : State) (h : Nat) (x : Half) : (setHalf s h x).refRem = s.refRem := rfl
@[simp] theorem setHalf_clk (s : State) (h : Nat) (x : Half) : (setHalf s h x).clk = s.clk := rfl
@[simp] theorem setHalf_d3hot (s : State) (h : Nat) (x : Half) : (setHalf s h x).d3hot = s.d3hot := rfl
@[simp] theorem setHalf_power (s : State) (h : Nat) (x : Half) : (setHalf s h x).power = s.power := rfl
@[simp] theorem setHalf_tick (s : State) (h : Nat) (x : Half) : (setHalf s h x).tick = s.tick := rfl
@[simp] theorem setHalf_agenda (s : State) (h : Nat) (x : Half) : (setHalf s h x).agenda = s.agenda := rfl
@[simp] theorem setHalf_cur (s : State) (h : Nat) (x : Half) : (setHalf s h x).cur = s.cur := rfl
@[simp] theorem setHalf_lastCore (s : State) (h : Nat) (x : Half) : (setHalf s h x).lastCore = s.lastCore := rfl
@[simp] theorem setHalf_nextId (s : State) (h : Nat) (x : Half) : (setHalf s h x).nextId = s.nextId := rfl
@[simp] theorem setHalf_cores (s : State) (h : Nat) (x : Half) : (setHalf s h x).cores = s.cores := rfl
@[simp] theorem setHalf_saved (s : State) (h : Nat) (x : Half) : (setHalf s h x).saved = s.saved := rfl
@[simp] theorem setHalf_savedImg (s : State) (h : Nat) (x : Half) : (setHalf s h x).savedImg = s.savedImg := rfl
@[simp] theorem setHalf_images (s : State) (h : Nat) (x : Half) : (setHalf s h x).images = s.images := rfl
@[simp] theorem setHalf_orphans (s : State) (h : Nat) (x : Half) : (setHalf s h x).orphans = s.orphans := rfl
@[simp] theorem setHalf_cycles (s : State) (h : Nat) (x : Half) : (setHalf s h x).cycles = s.cycles := rfl
@[simp] theorem setHalf_soft (s : State) (h : Nat) (x : Half) : (setHalf s h x).soft = s.soft := rfl
@[simp] theorem setHalf_rcache (s : State) (h : Nat) (x : Half) : (setHalf s h x).rcache = s.rcache := rfl
@[simp] theorem setHalf_latches (s : State) (h : Nat) (x : Half) : (setHalf s h x).latches = s.latches := rfl
@[simp] theorem setHalf_recs (s : State) (h : Nat) (x : Half) : (setHalf s h x).recs = s.recs := rfl
@[simp] theorem setHalf_cmds (s : State) (h : Nat) (x : Half) : (setHalf s h x).cmds = s.cmds := rfl
@[simp] theorem setHalf_pubs (s : State) (h : Nat) (x : Half) : (setHalf s h x).pubs = s.pubs := rfl
@[simp] theorem setHalf_tgrps (s : State) (h : Nat) (x : Half) : (setHalf s h x).tgrps = s.tgrps := rfl
@[simp] theorem setHalf_paneReqs (s : State) (h : Nat) (x : Half) : (setHalf s h x).paneReqs = s.paneReqs := rfl
@[simp] theorem setHalf_barArrs (s : State) (h : Nat) (x : Half) : (setHalf s h x).barArrs = s.barArrs := rfl
@[simp] theorem setHalf_mesh (s : State) (h : Nat) (x : Half) : (setHalf s h x).mesh = s.mesh := rfl
@[simp] theorem setHalf_waiters (s : State) (h : Nat) (x : Half) : (setHalf s h x).waiters = s.waiters := rfl
@[simp] theorem setHalf_grps (s : State) (h : Nat) (x : Half) : (setHalf s h x).grps = s.grps := rfl
@[simp] theorem setHalf_pops (s : State) (h : Nat) (x : Half) : (setHalf s h x).pops = s.pops := rfl
@[simp] theorem setHalf_queues (s : State) (h : Nat) (x : Half) : (setHalf s h x).queues = s.queues := rfl
@[simp] theorem setHalf_pkts (s : State) (h : Nat) (x : Half) : (setHalf s h x).pkts = s.pkts := rfl
@[simp] theorem setHalf_graphs (s : State) (h : Nat) (x : Half) : (setHalf s h x).graphs = s.graphs := rfl
@[simp] theorem setHalf_lastQ (s : State) (h : Nat) (x : Half) : (setHalf s h x).lastQ = s.lastQ := rfl
@[simp] theorem setHalf_engines (s : State) (h : Nat) (x : Half) : (setHalf s h x).engines = s.engines := rfl
@[simp] theorem setHalf_leaseReqs (s : State) (h : Nat) (x : Half) : (setHalf s h x).leaseReqs = s.leaseReqs := rfl
@[simp] theorem setHalf_links (s : State) (h : Nat) (x : Half) : (setHalf s h x).links = s.links := rfl
@[simp] theorem setHalf_binds (s : State) (h : Nat) (x : Half) : (setHalf s h x).binds = s.binds := rfl
@[simp] theorem setHalf_fns (s : State) (h : Nat) (x : Half) : (setHalf s h x).fns = s.fns := rfl
@[simp] theorem setHalf_ringTurn (s : State) (h : Nat) (x : Half) : (setHalf s h x).ringTurn = s.ringTurn := rfl
@[simp] theorem setHalf_invals (s : State) (h : Nat) (x : Half) : (setHalf s h x).invals = s.invals := rfl
@[simp] theorem setHalf_ats (s : State) (h : Nat) (x : Half) : (setHalf s h x).ats = s.ats := rfl
@[simp] theorem setHalf_cxl (s : State) (h : Nat) (x : Half) : (setHalf s h x).cxl = s.cxl := rfl
@[simp] theorem setHalf_ctrl (s : State) (h : Nat) (x : Half) : (setHalf s h x).ctrl = s.ctrl := rfl
@[simp] theorem setHalf_msix (s : State) (h : Nat) (x : Half) : (setHalf s h x).msix = s.msix := rfl
@[simp] theorem setHalf_notices (s : State) (h : Nat) (x : Half) : (setHalf s h x).notices = s.notices := rfl
@[simp] theorem setHalf_hbm (s : State) (h : Nat) (x : Half) : (setHalf s h x).hbm = s.hbm := rfl
@[simp] theorem setHalf_host (s : State) (h : Nat) (x : Half) : (setHalf s h x).host = s.host := rfl
@[simp] theorem setHalf_peer (s : State) (h : Nat) (x : Half) : (setHalf s h x).peer = s.peer := rfl
@[simp] theorem setHalf_scr (s : State) (h : Nat) (x : Half) : (setHalf s h x).scr = s.scr := rfl
@[simp] theorem setHalf_full (s : State) (h : Nat) (x : Half) : (setHalf s h x).full = s.full := rfl
@[simp] theorem setHalf_tb (s : State) (h : Nat) (x : Half) : (setHalf s h x).tb = s.tb := rfl

/-! setCore -/

@[simp] theorem setCore_cc (s : State) (c : Nat) (x : Core) : (setCore s c x).cc = s.cc := rfl
@[simp] theorem setCore_refTimer (s : State) (c : Nat) (x : Core) : (setCore s c x).refTimer = s.refTimer := rfl
@[simp] theorem setCore_refWas (s : State) (c : Nat) (x : Core) : (setCore s c x).refWas = s.refWas := rfl
@[simp] theorem setCore_ended (s : State) (c : Nat) (x : Core) : (setCore s c x).ended = s.ended := rfl
@[simp] theorem setCore_refRem (s : State) (c : Nat) (x : Core) : (setCore s c x).refRem = s.refRem := rfl
@[simp] theorem setCore_clk (s : State) (c : Nat) (x : Core) : (setCore s c x).clk = s.clk := rfl
@[simp] theorem setCore_d3hot (s : State) (c : Nat) (x : Core) : (setCore s c x).d3hot = s.d3hot := rfl
@[simp] theorem setCore_power (s : State) (c : Nat) (x : Core) : (setCore s c x).power = s.power := rfl
@[simp] theorem setCore_tick (s : State) (c : Nat) (x : Core) : (setCore s c x).tick = s.tick := rfl
@[simp] theorem setCore_agenda (s : State) (c : Nat) (x : Core) : (setCore s c x).agenda = s.agenda := rfl
@[simp] theorem setCore_cur (s : State) (c : Nat) (x : Core) : (setCore s c x).cur = s.cur := rfl
@[simp] theorem setCore_lastCore (s : State) (c : Nat) (x : Core) : (setCore s c x).lastCore = s.lastCore := rfl
@[simp] theorem setCore_nextId (s : State) (c : Nat) (x : Core) : (setCore s c x).nextId = s.nextId := rfl
@[simp] theorem setCore_saved (s : State) (c : Nat) (x : Core) : (setCore s c x).saved = s.saved := rfl
@[simp] theorem setCore_savedImg (s : State) (c : Nat) (x : Core) : (setCore s c x).savedImg = s.savedImg := rfl
@[simp] theorem setCore_images (s : State) (c : Nat) (x : Core) : (setCore s c x).images = s.images := rfl
@[simp] theorem setCore_orphans (s : State) (c : Nat) (x : Core) : (setCore s c x).orphans = s.orphans := rfl
@[simp] theorem setCore_cycles (s : State) (c : Nat) (x : Core) : (setCore s c x).cycles = s.cycles := rfl
@[simp] theorem setCore_soft (s : State) (c : Nat) (x : Core) : (setCore s c x).soft = s.soft := rfl
@[simp] theorem setCore_halves (s : State) (c : Nat) (x : Core) : (setCore s c x).halves = s.halves := rfl
@[simp] theorem setCore_rcache (s : State) (c : Nat) (x : Core) : (setCore s c x).rcache = s.rcache := rfl
@[simp] theorem setCore_latches (s : State) (c : Nat) (x : Core) : (setCore s c x).latches = s.latches := rfl
@[simp] theorem setCore_recs (s : State) (c : Nat) (x : Core) : (setCore s c x).recs = s.recs := rfl
@[simp] theorem setCore_cmds (s : State) (c : Nat) (x : Core) : (setCore s c x).cmds = s.cmds := rfl
@[simp] theorem setCore_pubs (s : State) (c : Nat) (x : Core) : (setCore s c x).pubs = s.pubs := rfl
@[simp] theorem setCore_tgrps (s : State) (c : Nat) (x : Core) : (setCore s c x).tgrps = s.tgrps := rfl
@[simp] theorem setCore_paneReqs (s : State) (c : Nat) (x : Core) : (setCore s c x).paneReqs = s.paneReqs := rfl
@[simp] theorem setCore_barArrs (s : State) (c : Nat) (x : Core) : (setCore s c x).barArrs = s.barArrs := rfl
@[simp] theorem setCore_mesh (s : State) (c : Nat) (x : Core) : (setCore s c x).mesh = s.mesh := rfl
@[simp] theorem setCore_waiters (s : State) (c : Nat) (x : Core) : (setCore s c x).waiters = s.waiters := rfl
@[simp] theorem setCore_grps (s : State) (c : Nat) (x : Core) : (setCore s c x).grps = s.grps := rfl
@[simp] theorem setCore_pops (s : State) (c : Nat) (x : Core) : (setCore s c x).pops = s.pops := rfl
@[simp] theorem setCore_queues (s : State) (c : Nat) (x : Core) : (setCore s c x).queues = s.queues := rfl
@[simp] theorem setCore_pkts (s : State) (c : Nat) (x : Core) : (setCore s c x).pkts = s.pkts := rfl
@[simp] theorem setCore_graphs (s : State) (c : Nat) (x : Core) : (setCore s c x).graphs = s.graphs := rfl
@[simp] theorem setCore_lastQ (s : State) (c : Nat) (x : Core) : (setCore s c x).lastQ = s.lastQ := rfl
@[simp] theorem setCore_engines (s : State) (c : Nat) (x : Core) : (setCore s c x).engines = s.engines := rfl
@[simp] theorem setCore_leaseReqs (s : State) (c : Nat) (x : Core) : (setCore s c x).leaseReqs = s.leaseReqs := rfl
@[simp] theorem setCore_links (s : State) (c : Nat) (x : Core) : (setCore s c x).links = s.links := rfl
@[simp] theorem setCore_binds (s : State) (c : Nat) (x : Core) : (setCore s c x).binds = s.binds := rfl
@[simp] theorem setCore_fns (s : State) (c : Nat) (x : Core) : (setCore s c x).fns = s.fns := rfl
@[simp] theorem setCore_ringTurn (s : State) (c : Nat) (x : Core) : (setCore s c x).ringTurn = s.ringTurn := rfl
@[simp] theorem setCore_invals (s : State) (c : Nat) (x : Core) : (setCore s c x).invals = s.invals := rfl
@[simp] theorem setCore_ats (s : State) (c : Nat) (x : Core) : (setCore s c x).ats = s.ats := rfl
@[simp] theorem setCore_cxl (s : State) (c : Nat) (x : Core) : (setCore s c x).cxl = s.cxl := rfl
@[simp] theorem setCore_ctrl (s : State) (c : Nat) (x : Core) : (setCore s c x).ctrl = s.ctrl := rfl
@[simp] theorem setCore_msix (s : State) (c : Nat) (x : Core) : (setCore s c x).msix = s.msix := rfl
@[simp] theorem setCore_notices (s : State) (c : Nat) (x : Core) : (setCore s c x).notices = s.notices := rfl
@[simp] theorem setCore_hbm (s : State) (c : Nat) (x : Core) : (setCore s c x).hbm = s.hbm := rfl
@[simp] theorem setCore_host (s : State) (c : Nat) (x : Core) : (setCore s c x).host = s.host := rfl
@[simp] theorem setCore_peer (s : State) (c : Nat) (x : Core) : (setCore s c x).peer = s.peer := rfl
@[simp] theorem setCore_scr (s : State) (c : Nat) (x : Core) : (setCore s c x).scr = s.scr := rfl
@[simp] theorem setCore_full (s : State) (c : Nat) (x : Core) : (setCore s c x).full = s.full := rfl
@[simp] theorem setCore_tb (s : State) (c : Nat) (x : Core) : (setCore s c x).tb = s.tb := rfl

/-! setFn -/

@[simp] theorem setFn_cc (s : State) (f : Nat) (x : Fn) : (setFn s f x).cc = s.cc := rfl
@[simp] theorem setFn_refTimer (s : State) (f : Nat) (x : Fn) : (setFn s f x).refTimer = s.refTimer := rfl
@[simp] theorem setFn_refWas (s : State) (f : Nat) (x : Fn) : (setFn s f x).refWas = s.refWas := rfl
@[simp] theorem setFn_ended (s : State) (f : Nat) (x : Fn) : (setFn s f x).ended = s.ended := rfl
@[simp] theorem setFn_refRem (s : State) (f : Nat) (x : Fn) : (setFn s f x).refRem = s.refRem := rfl
@[simp] theorem setFn_clk (s : State) (f : Nat) (x : Fn) : (setFn s f x).clk = s.clk := rfl
@[simp] theorem setFn_d3hot (s : State) (f : Nat) (x : Fn) : (setFn s f x).d3hot = s.d3hot := rfl
@[simp] theorem setFn_power (s : State) (f : Nat) (x : Fn) : (setFn s f x).power = s.power := rfl
@[simp] theorem setFn_tick (s : State) (f : Nat) (x : Fn) : (setFn s f x).tick = s.tick := rfl
@[simp] theorem setFn_agenda (s : State) (f : Nat) (x : Fn) : (setFn s f x).agenda = s.agenda := rfl
@[simp] theorem setFn_cur (s : State) (f : Nat) (x : Fn) : (setFn s f x).cur = s.cur := rfl
@[simp] theorem setFn_lastCore (s : State) (f : Nat) (x : Fn) : (setFn s f x).lastCore = s.lastCore := rfl
@[simp] theorem setFn_nextId (s : State) (f : Nat) (x : Fn) : (setFn s f x).nextId = s.nextId := rfl
@[simp] theorem setFn_cores (s : State) (f : Nat) (x : Fn) : (setFn s f x).cores = s.cores := rfl
@[simp] theorem setFn_saved (s : State) (f : Nat) (x : Fn) : (setFn s f x).saved = s.saved := rfl
@[simp] theorem setFn_savedImg (s : State) (f : Nat) (x : Fn) : (setFn s f x).savedImg = s.savedImg := rfl
@[simp] theorem setFn_images (s : State) (f : Nat) (x : Fn) : (setFn s f x).images = s.images := rfl
@[simp] theorem setFn_orphans (s : State) (f : Nat) (x : Fn) : (setFn s f x).orphans = s.orphans := rfl
@[simp] theorem setFn_cycles (s : State) (f : Nat) (x : Fn) : (setFn s f x).cycles = s.cycles := rfl
@[simp] theorem setFn_soft (s : State) (f : Nat) (x : Fn) : (setFn s f x).soft = s.soft := rfl
@[simp] theorem setFn_halves (s : State) (f : Nat) (x : Fn) : (setFn s f x).halves = s.halves := rfl
@[simp] theorem setFn_rcache (s : State) (f : Nat) (x : Fn) : (setFn s f x).rcache = s.rcache := rfl
@[simp] theorem setFn_latches (s : State) (f : Nat) (x : Fn) : (setFn s f x).latches = s.latches := rfl
@[simp] theorem setFn_recs (s : State) (f : Nat) (x : Fn) : (setFn s f x).recs = s.recs := rfl
@[simp] theorem setFn_cmds (s : State) (f : Nat) (x : Fn) : (setFn s f x).cmds = s.cmds := rfl
@[simp] theorem setFn_pubs (s : State) (f : Nat) (x : Fn) : (setFn s f x).pubs = s.pubs := rfl
@[simp] theorem setFn_tgrps (s : State) (f : Nat) (x : Fn) : (setFn s f x).tgrps = s.tgrps := rfl
@[simp] theorem setFn_paneReqs (s : State) (f : Nat) (x : Fn) : (setFn s f x).paneReqs = s.paneReqs := rfl
@[simp] theorem setFn_barArrs (s : State) (f : Nat) (x : Fn) : (setFn s f x).barArrs = s.barArrs := rfl
@[simp] theorem setFn_mesh (s : State) (f : Nat) (x : Fn) : (setFn s f x).mesh = s.mesh := rfl
@[simp] theorem setFn_waiters (s : State) (f : Nat) (x : Fn) : (setFn s f x).waiters = s.waiters := rfl
@[simp] theorem setFn_grps (s : State) (f : Nat) (x : Fn) : (setFn s f x).grps = s.grps := rfl
@[simp] theorem setFn_pops (s : State) (f : Nat) (x : Fn) : (setFn s f x).pops = s.pops := rfl
@[simp] theorem setFn_queues (s : State) (f : Nat) (x : Fn) : (setFn s f x).queues = s.queues := rfl
@[simp] theorem setFn_pkts (s : State) (f : Nat) (x : Fn) : (setFn s f x).pkts = s.pkts := rfl
@[simp] theorem setFn_graphs (s : State) (f : Nat) (x : Fn) : (setFn s f x).graphs = s.graphs := rfl
@[simp] theorem setFn_lastQ (s : State) (f : Nat) (x : Fn) : (setFn s f x).lastQ = s.lastQ := rfl
@[simp] theorem setFn_engines (s : State) (f : Nat) (x : Fn) : (setFn s f x).engines = s.engines := rfl
@[simp] theorem setFn_leaseReqs (s : State) (f : Nat) (x : Fn) : (setFn s f x).leaseReqs = s.leaseReqs := rfl
@[simp] theorem setFn_links (s : State) (f : Nat) (x : Fn) : (setFn s f x).links = s.links := rfl
@[simp] theorem setFn_binds (s : State) (f : Nat) (x : Fn) : (setFn s f x).binds = s.binds := rfl
@[simp] theorem setFn_ringTurn (s : State) (f : Nat) (x : Fn) : (setFn s f x).ringTurn = s.ringTurn := rfl
@[simp] theorem setFn_invals (s : State) (f : Nat) (x : Fn) : (setFn s f x).invals = s.invals := rfl
@[simp] theorem setFn_ats (s : State) (f : Nat) (x : Fn) : (setFn s f x).ats = s.ats := rfl
@[simp] theorem setFn_cxl (s : State) (f : Nat) (x : Fn) : (setFn s f x).cxl = s.cxl := rfl
@[simp] theorem setFn_ctrl (s : State) (f : Nat) (x : Fn) : (setFn s f x).ctrl = s.ctrl := rfl
@[simp] theorem setFn_msix (s : State) (f : Nat) (x : Fn) : (setFn s f x).msix = s.msix := rfl
@[simp] theorem setFn_notices (s : State) (f : Nat) (x : Fn) : (setFn s f x).notices = s.notices := rfl
@[simp] theorem setFn_hbm (s : State) (f : Nat) (x : Fn) : (setFn s f x).hbm = s.hbm := rfl
@[simp] theorem setFn_host (s : State) (f : Nat) (x : Fn) : (setFn s f x).host = s.host := rfl
@[simp] theorem setFn_peer (s : State) (f : Nat) (x : Fn) : (setFn s f x).peer = s.peer := rfl
@[simp] theorem setFn_scr (s : State) (f : Nat) (x : Fn) : (setFn s f x).scr = s.scr := rfl
@[simp] theorem setFn_full (s : State) (f : Nat) (x : Fn) : (setFn s f x).full = s.full := rfl
@[simp] theorem setFn_tb (s : State) (f : Nat) (x : Fn) : (setFn s f x).tb = s.tb := rfl

/-! bump -/

@[simp] theorem bump_cc (s : State) : (bump s).cc = s.cc := rfl
@[simp] theorem bump_refTimer (s : State) : (bump s).refTimer = s.refTimer := rfl
@[simp] theorem bump_refWas (s : State) : (bump s).refWas = s.refWas := rfl
@[simp] theorem bump_ended (s : State) : (bump s).ended = s.ended := rfl
@[simp] theorem bump_refRem (s : State) : (bump s).refRem = s.refRem := rfl
@[simp] theorem bump_clk (s : State) : (bump s).clk = s.clk := rfl
@[simp] theorem bump_d3hot (s : State) : (bump s).d3hot = s.d3hot := rfl
@[simp] theorem bump_power (s : State) : (bump s).power = s.power := rfl
@[simp] theorem bump_tick (s : State) : (bump s).tick = s.tick := rfl
@[simp] theorem bump_agenda (s : State) : (bump s).agenda = s.agenda := rfl
@[simp] theorem bump_cur (s : State) : (bump s).cur = s.cur := rfl
@[simp] theorem bump_lastCore (s : State) : (bump s).lastCore = s.lastCore := rfl
@[simp] theorem bump_cores (s : State) : (bump s).cores = s.cores := rfl
@[simp] theorem bump_saved (s : State) : (bump s).saved = s.saved := rfl
@[simp] theorem bump_savedImg (s : State) : (bump s).savedImg = s.savedImg := rfl
@[simp] theorem bump_images (s : State) : (bump s).images = s.images := rfl
@[simp] theorem bump_orphans (s : State) : (bump s).orphans = s.orphans := rfl
@[simp] theorem bump_cycles (s : State) : (bump s).cycles = s.cycles := rfl
@[simp] theorem bump_soft (s : State) : (bump s).soft = s.soft := rfl
@[simp] theorem bump_halves (s : State) : (bump s).halves = s.halves := rfl
@[simp] theorem bump_rcache (s : State) : (bump s).rcache = s.rcache := rfl
@[simp] theorem bump_latches (s : State) : (bump s).latches = s.latches := rfl
@[simp] theorem bump_recs (s : State) : (bump s).recs = s.recs := rfl
@[simp] theorem bump_cmds (s : State) : (bump s).cmds = s.cmds := rfl
@[simp] theorem bump_pubs (s : State) : (bump s).pubs = s.pubs := rfl
@[simp] theorem bump_tgrps (s : State) : (bump s).tgrps = s.tgrps := rfl
@[simp] theorem bump_paneReqs (s : State) : (bump s).paneReqs = s.paneReqs := rfl
@[simp] theorem bump_barArrs (s : State) : (bump s).barArrs = s.barArrs := rfl
@[simp] theorem bump_mesh (s : State) : (bump s).mesh = s.mesh := rfl
@[simp] theorem bump_waiters (s : State) : (bump s).waiters = s.waiters := rfl
@[simp] theorem bump_grps (s : State) : (bump s).grps = s.grps := rfl
@[simp] theorem bump_pops (s : State) : (bump s).pops = s.pops := rfl
@[simp] theorem bump_queues (s : State) : (bump s).queues = s.queues := rfl
@[simp] theorem bump_pkts (s : State) : (bump s).pkts = s.pkts := rfl
@[simp] theorem bump_graphs (s : State) : (bump s).graphs = s.graphs := rfl
@[simp] theorem bump_lastQ (s : State) : (bump s).lastQ = s.lastQ := rfl
@[simp] theorem bump_engines (s : State) : (bump s).engines = s.engines := rfl
@[simp] theorem bump_leaseReqs (s : State) : (bump s).leaseReqs = s.leaseReqs := rfl
@[simp] theorem bump_links (s : State) : (bump s).links = s.links := rfl
@[simp] theorem bump_binds (s : State) : (bump s).binds = s.binds := rfl
@[simp] theorem bump_fns (s : State) : (bump s).fns = s.fns := rfl
@[simp] theorem bump_ringTurn (s : State) : (bump s).ringTurn = s.ringTurn := rfl
@[simp] theorem bump_invals (s : State) : (bump s).invals = s.invals := rfl
@[simp] theorem bump_ats (s : State) : (bump s).ats = s.ats := rfl
@[simp] theorem bump_cxl (s : State) : (bump s).cxl = s.cxl := rfl
@[simp] theorem bump_ctrl (s : State) : (bump s).ctrl = s.ctrl := rfl
@[simp] theorem bump_msix (s : State) : (bump s).msix = s.msix := rfl
@[simp] theorem bump_notices (s : State) : (bump s).notices = s.notices := rfl
@[simp] theorem bump_hbm (s : State) : (bump s).hbm = s.hbm := rfl
@[simp] theorem bump_host (s : State) : (bump s).host = s.host := rfl
@[simp] theorem bump_peer (s : State) : (bump s).peer = s.peer := rfl
@[simp] theorem bump_scr (s : State) : (bump s).scr = s.scr := rfl
@[simp] theorem bump_full (s : State) : (bump s).full = s.full := rfl
@[simp] theorem bump_tb (s : State) : (bump s).tb = s.tb := rfl

/-! setPresent -/

@[simp] theorem setPresent_cc (s : State) (a : Nat) (b : Bool) : (setPresent s a b).cc = s.cc := rfl
@[simp] theorem setPresent_refTimer (s : State) (a : Nat) (b : Bool) : (setPresent s a b).refTimer = s.refTimer := rfl
@[simp] theorem setPresent_refWas (s : State) (a : Nat) (b : Bool) : (setPresent s a b).refWas = s.refWas := rfl
@[simp] theorem setPresent_ended (s : State) (a : Nat) (b : Bool) : (setPresent s a b).ended = s.ended := rfl
@[simp] theorem setPresent_refRem (s : State) (a : Nat) (b : Bool) : (setPresent s a b).refRem = s.refRem := rfl
@[simp] theorem setPresent_clk (s : State) (a : Nat) (b : Bool) : (setPresent s a b).clk = s.clk := rfl
@[simp] theorem setPresent_d3hot (s : State) (a : Nat) (b : Bool) : (setPresent s a b).d3hot = s.d3hot := rfl
@[simp] theorem setPresent_power (s : State) (a : Nat) (b : Bool) : (setPresent s a b).power = s.power := rfl
@[simp] theorem setPresent_tick (s : State) (a : Nat) (b : Bool) : (setPresent s a b).tick = s.tick := rfl
@[simp] theorem setPresent_agenda (s : State) (a : Nat) (b : Bool) : (setPresent s a b).agenda = s.agenda := rfl
@[simp] theorem setPresent_cur (s : State) (a : Nat) (b : Bool) : (setPresent s a b).cur = s.cur := rfl
@[simp] theorem setPresent_lastCore (s : State) (a : Nat) (b : Bool) : (setPresent s a b).lastCore = s.lastCore := rfl
@[simp] theorem setPresent_nextId (s : State) (a : Nat) (b : Bool) : (setPresent s a b).nextId = s.nextId := rfl
@[simp] theorem setPresent_cores (s : State) (a : Nat) (b : Bool) : (setPresent s a b).cores = s.cores := rfl
@[simp] theorem setPresent_saved (s : State) (a : Nat) (b : Bool) : (setPresent s a b).saved = s.saved := rfl
@[simp] theorem setPresent_savedImg (s : State) (a : Nat) (b : Bool) : (setPresent s a b).savedImg = s.savedImg := rfl
@[simp] theorem setPresent_images (s : State) (a : Nat) (b : Bool) : (setPresent s a b).images = s.images := rfl
@[simp] theorem setPresent_orphans (s : State) (a : Nat) (b : Bool) : (setPresent s a b).orphans = s.orphans := rfl
@[simp] theorem setPresent_cycles (s : State) (a : Nat) (b : Bool) : (setPresent s a b).cycles = s.cycles := rfl
@[simp] theorem setPresent_soft (s : State) (a : Nat) (b : Bool) : (setPresent s a b).soft = s.soft := rfl
@[simp] theorem setPresent_halves (s : State) (a : Nat) (b : Bool) : (setPresent s a b).halves = s.halves := rfl
@[simp] theorem setPresent_rcache (s : State) (a : Nat) (b : Bool) : (setPresent s a b).rcache = s.rcache := rfl
@[simp] theorem setPresent_latches (s : State) (a : Nat) (b : Bool) : (setPresent s a b).latches = s.latches := rfl
@[simp] theorem setPresent_recs (s : State) (a : Nat) (b : Bool) : (setPresent s a b).recs = s.recs := rfl
@[simp] theorem setPresent_cmds (s : State) (a : Nat) (b : Bool) : (setPresent s a b).cmds = s.cmds := rfl
@[simp] theorem setPresent_pubs (s : State) (a : Nat) (b : Bool) : (setPresent s a b).pubs = s.pubs := rfl
@[simp] theorem setPresent_tgrps (s : State) (a : Nat) (b : Bool) : (setPresent s a b).tgrps = s.tgrps := rfl
@[simp] theorem setPresent_paneReqs (s : State) (a : Nat) (b : Bool) : (setPresent s a b).paneReqs = s.paneReqs := rfl
@[simp] theorem setPresent_barArrs (s : State) (a : Nat) (b : Bool) : (setPresent s a b).barArrs = s.barArrs := rfl
@[simp] theorem setPresent_mesh (s : State) (a : Nat) (b : Bool) : (setPresent s a b).mesh = s.mesh := rfl
@[simp] theorem setPresent_waiters (s : State) (a : Nat) (b : Bool) : (setPresent s a b).waiters = s.waiters := rfl
@[simp] theorem setPresent_grps (s : State) (a : Nat) (b : Bool) : (setPresent s a b).grps = s.grps := rfl
@[simp] theorem setPresent_pops (s : State) (a : Nat) (b : Bool) : (setPresent s a b).pops = s.pops := rfl
@[simp] theorem setPresent_queues (s : State) (a : Nat) (b : Bool) : (setPresent s a b).queues = s.queues := rfl
@[simp] theorem setPresent_pkts (s : State) (a : Nat) (b : Bool) : (setPresent s a b).pkts = s.pkts := rfl
@[simp] theorem setPresent_graphs (s : State) (a : Nat) (b : Bool) : (setPresent s a b).graphs = s.graphs := rfl
@[simp] theorem setPresent_lastQ (s : State) (a : Nat) (b : Bool) : (setPresent s a b).lastQ = s.lastQ := rfl
@[simp] theorem setPresent_engines (s : State) (a : Nat) (b : Bool) : (setPresent s a b).engines = s.engines := rfl
@[simp] theorem setPresent_leaseReqs (s : State) (a : Nat) (b : Bool) : (setPresent s a b).leaseReqs = s.leaseReqs := rfl
@[simp] theorem setPresent_links (s : State) (a : Nat) (b : Bool) : (setPresent s a b).links = s.links := rfl
@[simp] theorem setPresent_binds (s : State) (a : Nat) (b : Bool) : (setPresent s a b).binds = s.binds := rfl
@[simp] theorem setPresent_fns (s : State) (a : Nat) (b : Bool) : (setPresent s a b).fns = s.fns := rfl
@[simp] theorem setPresent_ringTurn (s : State) (a : Nat) (b : Bool) : (setPresent s a b).ringTurn = s.ringTurn := rfl
@[simp] theorem setPresent_invals (s : State) (a : Nat) (b : Bool) : (setPresent s a b).invals = s.invals := rfl
@[simp] theorem setPresent_ats (s : State) (a : Nat) (b : Bool) : (setPresent s a b).ats = s.ats := rfl
@[simp] theorem setPresent_cxl (s : State) (a : Nat) (b : Bool) : (setPresent s a b).cxl = s.cxl := rfl
@[simp] theorem setPresent_ctrl (s : State) (a : Nat) (b : Bool) : (setPresent s a b).ctrl = s.ctrl := rfl
@[simp] theorem setPresent_msix (s : State) (a : Nat) (b : Bool) : (setPresent s a b).msix = s.msix := rfl
@[simp] theorem setPresent_notices (s : State) (a : Nat) (b : Bool) : (setPresent s a b).notices = s.notices := rfl
@[simp] theorem setPresent_hbm (s : State) (a : Nat) (b : Bool) : (setPresent s a b).hbm = s.hbm := rfl
@[simp] theorem setPresent_host (s : State) (a : Nat) (b : Bool) : (setPresent s a b).host = s.host := rfl
@[simp] theorem setPresent_peer (s : State) (a : Nat) (b : Bool) : (setPresent s a b).peer = s.peer := rfl
@[simp] theorem setPresent_scr (s : State) (a : Nat) (b : Bool) : (setPresent s a b).scr = s.scr := rfl
@[simp] theorem setPresent_tb (s : State) (a : Nat) (b : Bool) : (setPresent s a b).tb = s.tb := rfl

/-! setCtx and setSp -/

@[simp] theorem setCtx_cc (s : State) (c v : Nat) (x : CoreCtx) : (setCtx s c v x).cc = s.cc := by
  unfold setCtx; split <;> rfl
@[simp] theorem setCtx_refTimer (s : State) (c v : Nat) (x : CoreCtx) : (setCtx s c v x).refTimer = s.refTimer := by
  unfold setCtx; split <;> rfl
@[simp] theorem setCtx_refWas (s : State) (c v : Nat) (x : CoreCtx) : (setCtx s c v x).refWas = s.refWas := by
  unfold setCtx; split <;> rfl
@[simp] theorem setCtx_ended (s : State) (c v : Nat) (x : CoreCtx) : (setCtx s c v x).ended = s.ended := by
  unfold setCtx; split <;> rfl
@[simp] theorem setCtx_refRem (s : State) (c v : Nat) (x : CoreCtx) : (setCtx s c v x).refRem = s.refRem := by
  unfold setCtx; split <;> rfl
@[simp] theorem setCtx_clk (s : State) (c v : Nat) (x : CoreCtx) : (setCtx s c v x).clk = s.clk := by
  unfold setCtx; split <;> rfl
@[simp] theorem setCtx_d3hot (s : State) (c v : Nat) (x : CoreCtx) : (setCtx s c v x).d3hot = s.d3hot := by
  unfold setCtx; split <;> rfl
@[simp] theorem setCtx_power (s : State) (c v : Nat) (x : CoreCtx) : (setCtx s c v x).power = s.power := by
  unfold setCtx; split <;> rfl
@[simp] theorem setCtx_tick (s : State) (c v : Nat) (x : CoreCtx) : (setCtx s c v x).tick = s.tick := by
  unfold setCtx; split <;> rfl
@[simp] theorem setCtx_agenda (s : State) (c v : Nat) (x : CoreCtx) : (setCtx s c v x).agenda = s.agenda := by
  unfold setCtx; split <;> rfl
@[simp] theorem setCtx_cur (s : State) (c v : Nat) (x : CoreCtx) : (setCtx s c v x).cur = s.cur := by
  unfold setCtx; split <;> rfl
@[simp] theorem setCtx_lastCore (s : State) (c v : Nat) (x : CoreCtx) : (setCtx s c v x).lastCore = s.lastCore := by
  unfold setCtx; split <;> rfl
@[simp] theorem setCtx_nextId (s : State) (c v : Nat) (x : CoreCtx) : (setCtx s c v x).nextId = s.nextId := by
  unfold setCtx; split <;> rfl
@[simp] theorem setCtx_savedImg (s : State) (c v : Nat) (x : CoreCtx) : (setCtx s c v x).savedImg = s.savedImg := by
  unfold setCtx; split <;> rfl
@[simp] theorem setCtx_images (s : State) (c v : Nat) (x : CoreCtx) : (setCtx s c v x).images = s.images := by
  unfold setCtx; split <;> rfl
@[simp] theorem setCtx_orphans (s : State) (c v : Nat) (x : CoreCtx) : (setCtx s c v x).orphans = s.orphans := by
  unfold setCtx; split <;> rfl
@[simp] theorem setCtx_cycles (s : State) (c v : Nat) (x : CoreCtx) : (setCtx s c v x).cycles = s.cycles := by
  unfold setCtx; split <;> rfl
@[simp] theorem setCtx_soft (s : State) (c v : Nat) (x : CoreCtx) : (setCtx s c v x).soft = s.soft := by
  unfold setCtx; split <;> rfl
@[simp] theorem setCtx_halves (s : State) (c v : Nat) (x : CoreCtx) : (setCtx s c v x).halves = s.halves := by
  unfold setCtx; split <;> rfl
@[simp] theorem setCtx_rcache (s : State) (c v : Nat) (x : CoreCtx) : (setCtx s c v x).rcache = s.rcache := by
  unfold setCtx; split <;> rfl
@[simp] theorem setCtx_latches (s : State) (c v : Nat) (x : CoreCtx) : (setCtx s c v x).latches = s.latches := by
  unfold setCtx; split <;> rfl
@[simp] theorem setCtx_recs (s : State) (c v : Nat) (x : CoreCtx) : (setCtx s c v x).recs = s.recs := by
  unfold setCtx; split <;> rfl
@[simp] theorem setCtx_cmds (s : State) (c v : Nat) (x : CoreCtx) : (setCtx s c v x).cmds = s.cmds := by
  unfold setCtx; split <;> rfl
@[simp] theorem setCtx_pubs (s : State) (c v : Nat) (x : CoreCtx) : (setCtx s c v x).pubs = s.pubs := by
  unfold setCtx; split <;> rfl
@[simp] theorem setCtx_tgrps (s : State) (c v : Nat) (x : CoreCtx) : (setCtx s c v x).tgrps = s.tgrps := by
  unfold setCtx; split <;> rfl
@[simp] theorem setCtx_paneReqs (s : State) (c v : Nat) (x : CoreCtx) : (setCtx s c v x).paneReqs = s.paneReqs := by
  unfold setCtx; split <;> rfl
@[simp] theorem setCtx_barArrs (s : State) (c v : Nat) (x : CoreCtx) : (setCtx s c v x).barArrs = s.barArrs := by
  unfold setCtx; split <;> rfl
@[simp] theorem setCtx_mesh (s : State) (c v : Nat) (x : CoreCtx) : (setCtx s c v x).mesh = s.mesh := by
  unfold setCtx; split <;> rfl
@[simp] theorem setCtx_waiters (s : State) (c v : Nat) (x : CoreCtx) : (setCtx s c v x).waiters = s.waiters := by
  unfold setCtx; split <;> rfl
@[simp] theorem setCtx_grps (s : State) (c v : Nat) (x : CoreCtx) : (setCtx s c v x).grps = s.grps := by
  unfold setCtx; split <;> rfl
@[simp] theorem setCtx_pops (s : State) (c v : Nat) (x : CoreCtx) : (setCtx s c v x).pops = s.pops := by
  unfold setCtx; split <;> rfl
@[simp] theorem setCtx_queues (s : State) (c v : Nat) (x : CoreCtx) : (setCtx s c v x).queues = s.queues := by
  unfold setCtx; split <;> rfl
@[simp] theorem setCtx_pkts (s : State) (c v : Nat) (x : CoreCtx) : (setCtx s c v x).pkts = s.pkts := by
  unfold setCtx; split <;> rfl
@[simp] theorem setCtx_graphs (s : State) (c v : Nat) (x : CoreCtx) : (setCtx s c v x).graphs = s.graphs := by
  unfold setCtx; split <;> rfl
@[simp] theorem setCtx_lastQ (s : State) (c v : Nat) (x : CoreCtx) : (setCtx s c v x).lastQ = s.lastQ := by
  unfold setCtx; split <;> rfl
@[simp] theorem setCtx_engines (s : State) (c v : Nat) (x : CoreCtx) : (setCtx s c v x).engines = s.engines := by
  unfold setCtx; split <;> rfl
@[simp] theorem setCtx_leaseReqs (s : State) (c v : Nat) (x : CoreCtx) : (setCtx s c v x).leaseReqs = s.leaseReqs := by
  unfold setCtx; split <;> rfl
@[simp] theorem setCtx_links (s : State) (c v : Nat) (x : CoreCtx) : (setCtx s c v x).links = s.links := by
  unfold setCtx; split <;> rfl
@[simp] theorem setCtx_binds (s : State) (c v : Nat) (x : CoreCtx) : (setCtx s c v x).binds = s.binds := by
  unfold setCtx; split <;> rfl
@[simp] theorem setCtx_fns (s : State) (c v : Nat) (x : CoreCtx) : (setCtx s c v x).fns = s.fns := by
  unfold setCtx; split <;> rfl
@[simp] theorem setCtx_ringTurn (s : State) (c v : Nat) (x : CoreCtx) : (setCtx s c v x).ringTurn = s.ringTurn := by
  unfold setCtx; split <;> rfl
@[simp] theorem setCtx_invals (s : State) (c v : Nat) (x : CoreCtx) : (setCtx s c v x).invals = s.invals := by
  unfold setCtx; split <;> rfl
@[simp] theorem setCtx_ats (s : State) (c v : Nat) (x : CoreCtx) : (setCtx s c v x).ats = s.ats := by
  unfold setCtx; split <;> rfl
@[simp] theorem setCtx_cxl (s : State) (c v : Nat) (x : CoreCtx) : (setCtx s c v x).cxl = s.cxl := by
  unfold setCtx; split <;> rfl
@[simp] theorem setCtx_ctrl (s : State) (c v : Nat) (x : CoreCtx) : (setCtx s c v x).ctrl = s.ctrl := by
  unfold setCtx; split <;> rfl
@[simp] theorem setCtx_msix (s : State) (c v : Nat) (x : CoreCtx) : (setCtx s c v x).msix = s.msix := by
  unfold setCtx; split <;> rfl
@[simp] theorem setCtx_notices (s : State) (c v : Nat) (x : CoreCtx) : (setCtx s c v x).notices = s.notices := by
  unfold setCtx; split <;> rfl
@[simp] theorem setCtx_hbm (s : State) (c v : Nat) (x : CoreCtx) : (setCtx s c v x).hbm = s.hbm := by
  unfold setCtx; split <;> rfl
@[simp] theorem setCtx_host (s : State) (c v : Nat) (x : CoreCtx) : (setCtx s c v x).host = s.host := by
  unfold setCtx; split <;> rfl
@[simp] theorem setCtx_peer (s : State) (c v : Nat) (x : CoreCtx) : (setCtx s c v x).peer = s.peer := by
  unfold setCtx; split <;> rfl
@[simp] theorem setCtx_scr (s : State) (c v : Nat) (x : CoreCtx) : (setCtx s c v x).scr = s.scr := by
  unfold setCtx; split <;> rfl
@[simp] theorem setCtx_full (s : State) (c v : Nat) (x : CoreCtx) : (setCtx s c v x).full = s.full := by
  unfold setCtx; split <;> rfl
@[simp] theorem setCtx_tb (s : State) (c v : Nat) (x : CoreCtx) : (setCtx s c v x).tb = s.tb := by
  unfold setCtx; split <;> rfl

@[simp] theorem setSp_cc (s : State) (c n v : Nat) (x : Spoke) : (setSp s c n v x).cc = s.cc := by
  unfold setSp; split <;> simp
@[simp] theorem setSp_refTimer (s : State) (c n v : Nat) (x : Spoke) : (setSp s c n v x).refTimer = s.refTimer := by
  unfold setSp; split <;> simp
@[simp] theorem setSp_refWas (s : State) (c n v : Nat) (x : Spoke) : (setSp s c n v x).refWas = s.refWas := by
  unfold setSp; split <;> simp
@[simp] theorem setSp_ended (s : State) (c n v : Nat) (x : Spoke) : (setSp s c n v x).ended = s.ended := by
  unfold setSp; split <;> simp
@[simp] theorem setSp_refRem (s : State) (c n v : Nat) (x : Spoke) : (setSp s c n v x).refRem = s.refRem := by
  unfold setSp; split <;> simp
@[simp] theorem setSp_clk (s : State) (c n v : Nat) (x : Spoke) : (setSp s c n v x).clk = s.clk := by
  unfold setSp; split <;> simp
@[simp] theorem setSp_d3hot (s : State) (c n v : Nat) (x : Spoke) : (setSp s c n v x).d3hot = s.d3hot := by
  unfold setSp; split <;> simp
@[simp] theorem setSp_power (s : State) (c n v : Nat) (x : Spoke) : (setSp s c n v x).power = s.power := by
  unfold setSp; split <;> simp
@[simp] theorem setSp_tick (s : State) (c n v : Nat) (x : Spoke) : (setSp s c n v x).tick = s.tick := by
  unfold setSp; split <;> simp
@[simp] theorem setSp_agenda (s : State) (c n v : Nat) (x : Spoke) : (setSp s c n v x).agenda = s.agenda := by
  unfold setSp; split <;> simp
@[simp] theorem setSp_cur (s : State) (c n v : Nat) (x : Spoke) : (setSp s c n v x).cur = s.cur := by
  unfold setSp; split <;> simp
@[simp] theorem setSp_lastCore (s : State) (c n v : Nat) (x : Spoke) : (setSp s c n v x).lastCore = s.lastCore := by
  unfold setSp; split <;> simp
@[simp] theorem setSp_nextId (s : State) (c n v : Nat) (x : Spoke) : (setSp s c n v x).nextId = s.nextId := by
  unfold setSp; split <;> simp
@[simp] theorem setSp_savedImg (s : State) (c n v : Nat) (x : Spoke) : (setSp s c n v x).savedImg = s.savedImg := by
  unfold setSp; split <;> simp
@[simp] theorem setSp_images (s : State) (c n v : Nat) (x : Spoke) : (setSp s c n v x).images = s.images := by
  unfold setSp; split <;> simp
@[simp] theorem setSp_orphans (s : State) (c n v : Nat) (x : Spoke) : (setSp s c n v x).orphans = s.orphans := by
  unfold setSp; split <;> simp
@[simp] theorem setSp_cycles (s : State) (c n v : Nat) (x : Spoke) : (setSp s c n v x).cycles = s.cycles := by
  unfold setSp; split <;> simp
@[simp] theorem setSp_soft (s : State) (c n v : Nat) (x : Spoke) : (setSp s c n v x).soft = s.soft := by
  unfold setSp; split <;> simp
@[simp] theorem setSp_halves (s : State) (c n v : Nat) (x : Spoke) : (setSp s c n v x).halves = s.halves := by
  unfold setSp; split <;> simp
@[simp] theorem setSp_rcache (s : State) (c n v : Nat) (x : Spoke) : (setSp s c n v x).rcache = s.rcache := by
  unfold setSp; split <;> simp
@[simp] theorem setSp_latches (s : State) (c n v : Nat) (x : Spoke) : (setSp s c n v x).latches = s.latches := by
  unfold setSp; split <;> simp
@[simp] theorem setSp_recs (s : State) (c n v : Nat) (x : Spoke) : (setSp s c n v x).recs = s.recs := by
  unfold setSp; split <;> simp
@[simp] theorem setSp_cmds (s : State) (c n v : Nat) (x : Spoke) : (setSp s c n v x).cmds = s.cmds := by
  unfold setSp; split <;> simp
@[simp] theorem setSp_pubs (s : State) (c n v : Nat) (x : Spoke) : (setSp s c n v x).pubs = s.pubs := by
  unfold setSp; split <;> simp
@[simp] theorem setSp_tgrps (s : State) (c n v : Nat) (x : Spoke) : (setSp s c n v x).tgrps = s.tgrps := by
  unfold setSp; split <;> simp
@[simp] theorem setSp_paneReqs (s : State) (c n v : Nat) (x : Spoke) : (setSp s c n v x).paneReqs = s.paneReqs := by
  unfold setSp; split <;> simp
@[simp] theorem setSp_barArrs (s : State) (c n v : Nat) (x : Spoke) : (setSp s c n v x).barArrs = s.barArrs := by
  unfold setSp; split <;> simp
@[simp] theorem setSp_mesh (s : State) (c n v : Nat) (x : Spoke) : (setSp s c n v x).mesh = s.mesh := by
  unfold setSp; split <;> simp
@[simp] theorem setSp_waiters (s : State) (c n v : Nat) (x : Spoke) : (setSp s c n v x).waiters = s.waiters := by
  unfold setSp; split <;> simp
@[simp] theorem setSp_grps (s : State) (c n v : Nat) (x : Spoke) : (setSp s c n v x).grps = s.grps := by
  unfold setSp; split <;> simp
@[simp] theorem setSp_pops (s : State) (c n v : Nat) (x : Spoke) : (setSp s c n v x).pops = s.pops := by
  unfold setSp; split <;> simp
@[simp] theorem setSp_queues (s : State) (c n v : Nat) (x : Spoke) : (setSp s c n v x).queues = s.queues := by
  unfold setSp; split <;> simp
@[simp] theorem setSp_pkts (s : State) (c n v : Nat) (x : Spoke) : (setSp s c n v x).pkts = s.pkts := by
  unfold setSp; split <;> simp
@[simp] theorem setSp_graphs (s : State) (c n v : Nat) (x : Spoke) : (setSp s c n v x).graphs = s.graphs := by
  unfold setSp; split <;> simp
@[simp] theorem setSp_lastQ (s : State) (c n v : Nat) (x : Spoke) : (setSp s c n v x).lastQ = s.lastQ := by
  unfold setSp; split <;> simp
@[simp] theorem setSp_engines (s : State) (c n v : Nat) (x : Spoke) : (setSp s c n v x).engines = s.engines := by
  unfold setSp; split <;> simp
@[simp] theorem setSp_leaseReqs (s : State) (c n v : Nat) (x : Spoke) : (setSp s c n v x).leaseReqs = s.leaseReqs := by
  unfold setSp; split <;> simp
@[simp] theorem setSp_links (s : State) (c n v : Nat) (x : Spoke) : (setSp s c n v x).links = s.links := by
  unfold setSp; split <;> simp
@[simp] theorem setSp_binds (s : State) (c n v : Nat) (x : Spoke) : (setSp s c n v x).binds = s.binds := by
  unfold setSp; split <;> simp
@[simp] theorem setSp_fns (s : State) (c n v : Nat) (x : Spoke) : (setSp s c n v x).fns = s.fns := by
  unfold setSp; split <;> simp
@[simp] theorem setSp_ringTurn (s : State) (c n v : Nat) (x : Spoke) : (setSp s c n v x).ringTurn = s.ringTurn := by
  unfold setSp; split <;> simp
@[simp] theorem setSp_invals (s : State) (c n v : Nat) (x : Spoke) : (setSp s c n v x).invals = s.invals := by
  unfold setSp; split <;> simp
@[simp] theorem setSp_ats (s : State) (c n v : Nat) (x : Spoke) : (setSp s c n v x).ats = s.ats := by
  unfold setSp; split <;> simp
@[simp] theorem setSp_cxl (s : State) (c n v : Nat) (x : Spoke) : (setSp s c n v x).cxl = s.cxl := by
  unfold setSp; split <;> simp
@[simp] theorem setSp_ctrl (s : State) (c n v : Nat) (x : Spoke) : (setSp s c n v x).ctrl = s.ctrl := by
  unfold setSp; split <;> simp
@[simp] theorem setSp_msix (s : State) (c n v : Nat) (x : Spoke) : (setSp s c n v x).msix = s.msix := by
  unfold setSp; split <;> simp
@[simp] theorem setSp_notices (s : State) (c n v : Nat) (x : Spoke) : (setSp s c n v x).notices = s.notices := by
  unfold setSp; split <;> simp
@[simp] theorem setSp_hbm (s : State) (c n v : Nat) (x : Spoke) : (setSp s c n v x).hbm = s.hbm := by
  unfold setSp; split <;> simp
@[simp] theorem setSp_host (s : State) (c n v : Nat) (x : Spoke) : (setSp s c n v x).host = s.host := by
  unfold setSp; split <;> simp
@[simp] theorem setSp_peer (s : State) (c n v : Nat) (x : Spoke) : (setSp s c n v x).peer = s.peer := by
  unfold setSp; split <;> simp
@[simp] theorem setSp_scr (s : State) (c n v : Nat) (x : Spoke) : (setSp s c n v x).scr = s.scr := by
  unfold setSp; split <;> simp
@[simp] theorem setSp_full (s : State) (c n v : Nat) (x : Spoke) : (setSp s c n v x).full = s.full := by
  unfold setSp; split <;> simp
@[simp] theorem setSp_tb (s : State) (c n v : Nat) (x : Spoke) : (setSp s c n v x).tb = s.tb := by
  unfold setSp; split <;> simp

@[simp] theorem modSp_cc (s : State) (c n v : Nat) (g : Spoke → Spoke) : (modSp s c n v g).cc = s.cc := by simp [modSp]
@[simp] theorem modSp_refTimer (s : State) (c n v : Nat) (g : Spoke → Spoke) : (modSp s c n v g).refTimer = s.refTimer := by simp [modSp]
@[simp] theorem modSp_refWas (s : State) (c n v : Nat) (g : Spoke → Spoke) : (modSp s c n v g).refWas = s.refWas := by simp [modSp]
@[simp] theorem modSp_ended (s : State) (c n v : Nat) (g : Spoke → Spoke) : (modSp s c n v g).ended = s.ended := by simp [modSp]
@[simp] theorem modSp_refRem (s : State) (c n v : Nat) (g : Spoke → Spoke) : (modSp s c n v g).refRem = s.refRem := by simp [modSp]
@[simp] theorem modSp_clk (s : State) (c n v : Nat) (g : Spoke → Spoke) : (modSp s c n v g).clk = s.clk := by simp [modSp]
@[simp] theorem modSp_d3hot (s : State) (c n v : Nat) (g : Spoke → Spoke) : (modSp s c n v g).d3hot = s.d3hot := by simp [modSp]
@[simp] theorem modSp_power (s : State) (c n v : Nat) (g : Spoke → Spoke) : (modSp s c n v g).power = s.power := by simp [modSp]
@[simp] theorem modSp_tick (s : State) (c n v : Nat) (g : Spoke → Spoke) : (modSp s c n v g).tick = s.tick := by simp [modSp]
@[simp] theorem modSp_agenda (s : State) (c n v : Nat) (g : Spoke → Spoke) : (modSp s c n v g).agenda = s.agenda := by simp [modSp]
@[simp] theorem modSp_cur (s : State) (c n v : Nat) (g : Spoke → Spoke) : (modSp s c n v g).cur = s.cur := by simp [modSp]
@[simp] theorem modSp_lastCore (s : State) (c n v : Nat) (g : Spoke → Spoke) : (modSp s c n v g).lastCore = s.lastCore := by simp [modSp]
@[simp] theorem modSp_nextId (s : State) (c n v : Nat) (g : Spoke → Spoke) : (modSp s c n v g).nextId = s.nextId := by simp [modSp]
@[simp] theorem modSp_savedImg (s : State) (c n v : Nat) (g : Spoke → Spoke) : (modSp s c n v g).savedImg = s.savedImg := by simp [modSp]
@[simp] theorem modSp_images (s : State) (c n v : Nat) (g : Spoke → Spoke) : (modSp s c n v g).images = s.images := by simp [modSp]
@[simp] theorem modSp_orphans (s : State) (c n v : Nat) (g : Spoke → Spoke) : (modSp s c n v g).orphans = s.orphans := by simp [modSp]
@[simp] theorem modSp_cycles (s : State) (c n v : Nat) (g : Spoke → Spoke) : (modSp s c n v g).cycles = s.cycles := by simp [modSp]
@[simp] theorem modSp_soft (s : State) (c n v : Nat) (g : Spoke → Spoke) : (modSp s c n v g).soft = s.soft := by simp [modSp]
@[simp] theorem modSp_halves (s : State) (c n v : Nat) (g : Spoke → Spoke) : (modSp s c n v g).halves = s.halves := by simp [modSp]
@[simp] theorem modSp_rcache (s : State) (c n v : Nat) (g : Spoke → Spoke) : (modSp s c n v g).rcache = s.rcache := by simp [modSp]
@[simp] theorem modSp_latches (s : State) (c n v : Nat) (g : Spoke → Spoke) : (modSp s c n v g).latches = s.latches := by simp [modSp]
@[simp] theorem modSp_recs (s : State) (c n v : Nat) (g : Spoke → Spoke) : (modSp s c n v g).recs = s.recs := by simp [modSp]
@[simp] theorem modSp_cmds (s : State) (c n v : Nat) (g : Spoke → Spoke) : (modSp s c n v g).cmds = s.cmds := by simp [modSp]
@[simp] theorem modSp_pubs (s : State) (c n v : Nat) (g : Spoke → Spoke) : (modSp s c n v g).pubs = s.pubs := by simp [modSp]
@[simp] theorem modSp_tgrps (s : State) (c n v : Nat) (g : Spoke → Spoke) : (modSp s c n v g).tgrps = s.tgrps := by simp [modSp]
@[simp] theorem modSp_paneReqs (s : State) (c n v : Nat) (g : Spoke → Spoke) : (modSp s c n v g).paneReqs = s.paneReqs := by simp [modSp]
@[simp] theorem modSp_barArrs (s : State) (c n v : Nat) (g : Spoke → Spoke) : (modSp s c n v g).barArrs = s.barArrs := by simp [modSp]
@[simp] theorem modSp_mesh (s : State) (c n v : Nat) (g : Spoke → Spoke) : (modSp s c n v g).mesh = s.mesh := by simp [modSp]
@[simp] theorem modSp_waiters (s : State) (c n v : Nat) (g : Spoke → Spoke) : (modSp s c n v g).waiters = s.waiters := by simp [modSp]
@[simp] theorem modSp_grps (s : State) (c n v : Nat) (g : Spoke → Spoke) : (modSp s c n v g).grps = s.grps := by simp [modSp]
@[simp] theorem modSp_pops (s : State) (c n v : Nat) (g : Spoke → Spoke) : (modSp s c n v g).pops = s.pops := by simp [modSp]
@[simp] theorem modSp_queues (s : State) (c n v : Nat) (g : Spoke → Spoke) : (modSp s c n v g).queues = s.queues := by simp [modSp]
@[simp] theorem modSp_pkts (s : State) (c n v : Nat) (g : Spoke → Spoke) : (modSp s c n v g).pkts = s.pkts := by simp [modSp]
@[simp] theorem modSp_graphs (s : State) (c n v : Nat) (g : Spoke → Spoke) : (modSp s c n v g).graphs = s.graphs := by simp [modSp]
@[simp] theorem modSp_lastQ (s : State) (c n v : Nat) (g : Spoke → Spoke) : (modSp s c n v g).lastQ = s.lastQ := by simp [modSp]
@[simp] theorem modSp_engines (s : State) (c n v : Nat) (g : Spoke → Spoke) : (modSp s c n v g).engines = s.engines := by simp [modSp]
@[simp] theorem modSp_leaseReqs (s : State) (c n v : Nat) (g : Spoke → Spoke) : (modSp s c n v g).leaseReqs = s.leaseReqs := by simp [modSp]
@[simp] theorem modSp_links (s : State) (c n v : Nat) (g : Spoke → Spoke) : (modSp s c n v g).links = s.links := by simp [modSp]
@[simp] theorem modSp_binds (s : State) (c n v : Nat) (g : Spoke → Spoke) : (modSp s c n v g).binds = s.binds := by simp [modSp]
@[simp] theorem modSp_fns (s : State) (c n v : Nat) (g : Spoke → Spoke) : (modSp s c n v g).fns = s.fns := by simp [modSp]
@[simp] theorem modSp_ringTurn (s : State) (c n v : Nat) (g : Spoke → Spoke) : (modSp s c n v g).ringTurn = s.ringTurn := by simp [modSp]
@[simp] theorem modSp_invals (s : State) (c n v : Nat) (g : Spoke → Spoke) : (modSp s c n v g).invals = s.invals := by simp [modSp]
@[simp] theorem modSp_ats (s : State) (c n v : Nat) (g : Spoke → Spoke) : (modSp s c n v g).ats = s.ats := by simp [modSp]
@[simp] theorem modSp_cxl (s : State) (c n v : Nat) (g : Spoke → Spoke) : (modSp s c n v g).cxl = s.cxl := by simp [modSp]
@[simp] theorem modSp_ctrl (s : State) (c n v : Nat) (g : Spoke → Spoke) : (modSp s c n v g).ctrl = s.ctrl := by simp [modSp]
@[simp] theorem modSp_msix (s : State) (c n v : Nat) (g : Spoke → Spoke) : (modSp s c n v g).msix = s.msix := by simp [modSp]
@[simp] theorem modSp_notices (s : State) (c n v : Nat) (g : Spoke → Spoke) : (modSp s c n v g).notices = s.notices := by simp [modSp]
@[simp] theorem modSp_hbm (s : State) (c n v : Nat) (g : Spoke → Spoke) : (modSp s c n v g).hbm = s.hbm := by simp [modSp]
@[simp] theorem modSp_host (s : State) (c n v : Nat) (g : Spoke → Spoke) : (modSp s c n v g).host = s.host := by simp [modSp]
@[simp] theorem modSp_peer (s : State) (c n v : Nat) (g : Spoke → Spoke) : (modSp s c n v g).peer = s.peer := by simp [modSp]
@[simp] theorem modSp_scr (s : State) (c n v : Nat) (g : Spoke → Spoke) : (modSp s c n v g).scr = s.scr := by simp [modSp]
@[simp] theorem modSp_full (s : State) (c n v : Nat) (g : Spoke → Spoke) : (modSp s c n v g).full = s.full := by simp [modSp]
@[simp] theorem modSp_tb (s : State) (c n v : Nat) (g : Spoke → Spoke) : (modSp s c n v g).tb = s.tb := by simp [modSp]

@[simp] theorem modCtx_cc (s : State) (c v : Nat) (g : CoreCtx → CoreCtx) : (modCtx s c v g).cc = s.cc := by simp [modCtx]
@[simp] theorem modCtx_refTimer (s : State) (c v : Nat) (g : CoreCtx → CoreCtx) : (modCtx s c v g).refTimer = s.refTimer := by simp [modCtx]
@[simp] theorem modCtx_refWas (s : State) (c v : Nat) (g : CoreCtx → CoreCtx) : (modCtx s c v g).refWas = s.refWas := by simp [modCtx]
@[simp] theorem modCtx_ended (s : State) (c v : Nat) (g : CoreCtx → CoreCtx) : (modCtx s c v g).ended = s.ended := by simp [modCtx]
@[simp] theorem modCtx_refRem (s : State) (c v : Nat) (g : CoreCtx → CoreCtx) : (modCtx s c v g).refRem = s.refRem := by simp [modCtx]
@[simp] theorem modCtx_clk (s : State) (c v : Nat) (g : CoreCtx → CoreCtx) : (modCtx s c v g).clk = s.clk := by simp [modCtx]
@[simp] theorem modCtx_d3hot (s : State) (c v : Nat) (g : CoreCtx → CoreCtx) : (modCtx s c v g).d3hot = s.d3hot := by simp [modCtx]
@[simp] theorem modCtx_power (s : State) (c v : Nat) (g : CoreCtx → CoreCtx) : (modCtx s c v g).power = s.power := by simp [modCtx]
@[simp] theorem modCtx_tick (s : State) (c v : Nat) (g : CoreCtx → CoreCtx) : (modCtx s c v g).tick = s.tick := by simp [modCtx]
@[simp] theorem modCtx_agenda (s : State) (c v : Nat) (g : CoreCtx → CoreCtx) : (modCtx s c v g).agenda = s.agenda := by simp [modCtx]
@[simp] theorem modCtx_cur (s : State) (c v : Nat) (g : CoreCtx → CoreCtx) : (modCtx s c v g).cur = s.cur := by simp [modCtx]
@[simp] theorem modCtx_lastCore (s : State) (c v : Nat) (g : CoreCtx → CoreCtx) : (modCtx s c v g).lastCore = s.lastCore := by simp [modCtx]
@[simp] theorem modCtx_nextId (s : State) (c v : Nat) (g : CoreCtx → CoreCtx) : (modCtx s c v g).nextId = s.nextId := by simp [modCtx]
@[simp] theorem modCtx_savedImg (s : State) (c v : Nat) (g : CoreCtx → CoreCtx) : (modCtx s c v g).savedImg = s.savedImg := by simp [modCtx]
@[simp] theorem modCtx_images (s : State) (c v : Nat) (g : CoreCtx → CoreCtx) : (modCtx s c v g).images = s.images := by simp [modCtx]
@[simp] theorem modCtx_orphans (s : State) (c v : Nat) (g : CoreCtx → CoreCtx) : (modCtx s c v g).orphans = s.orphans := by simp [modCtx]
@[simp] theorem modCtx_cycles (s : State) (c v : Nat) (g : CoreCtx → CoreCtx) : (modCtx s c v g).cycles = s.cycles := by simp [modCtx]
@[simp] theorem modCtx_soft (s : State) (c v : Nat) (g : CoreCtx → CoreCtx) : (modCtx s c v g).soft = s.soft := by simp [modCtx]
@[simp] theorem modCtx_halves (s : State) (c v : Nat) (g : CoreCtx → CoreCtx) : (modCtx s c v g).halves = s.halves := by simp [modCtx]
@[simp] theorem modCtx_rcache (s : State) (c v : Nat) (g : CoreCtx → CoreCtx) : (modCtx s c v g).rcache = s.rcache := by simp [modCtx]
@[simp] theorem modCtx_latches (s : State) (c v : Nat) (g : CoreCtx → CoreCtx) : (modCtx s c v g).latches = s.latches := by simp [modCtx]
@[simp] theorem modCtx_recs (s : State) (c v : Nat) (g : CoreCtx → CoreCtx) : (modCtx s c v g).recs = s.recs := by simp [modCtx]
@[simp] theorem modCtx_cmds (s : State) (c v : Nat) (g : CoreCtx → CoreCtx) : (modCtx s c v g).cmds = s.cmds := by simp [modCtx]
@[simp] theorem modCtx_pubs (s : State) (c v : Nat) (g : CoreCtx → CoreCtx) : (modCtx s c v g).pubs = s.pubs := by simp [modCtx]
@[simp] theorem modCtx_tgrps (s : State) (c v : Nat) (g : CoreCtx → CoreCtx) : (modCtx s c v g).tgrps = s.tgrps := by simp [modCtx]
@[simp] theorem modCtx_paneReqs (s : State) (c v : Nat) (g : CoreCtx → CoreCtx) : (modCtx s c v g).paneReqs = s.paneReqs := by simp [modCtx]
@[simp] theorem modCtx_barArrs (s : State) (c v : Nat) (g : CoreCtx → CoreCtx) : (modCtx s c v g).barArrs = s.barArrs := by simp [modCtx]
@[simp] theorem modCtx_mesh (s : State) (c v : Nat) (g : CoreCtx → CoreCtx) : (modCtx s c v g).mesh = s.mesh := by simp [modCtx]
@[simp] theorem modCtx_waiters (s : State) (c v : Nat) (g : CoreCtx → CoreCtx) : (modCtx s c v g).waiters = s.waiters := by simp [modCtx]
@[simp] theorem modCtx_grps (s : State) (c v : Nat) (g : CoreCtx → CoreCtx) : (modCtx s c v g).grps = s.grps := by simp [modCtx]
@[simp] theorem modCtx_pops (s : State) (c v : Nat) (g : CoreCtx → CoreCtx) : (modCtx s c v g).pops = s.pops := by simp [modCtx]
@[simp] theorem modCtx_queues (s : State) (c v : Nat) (g : CoreCtx → CoreCtx) : (modCtx s c v g).queues = s.queues := by simp [modCtx]
@[simp] theorem modCtx_pkts (s : State) (c v : Nat) (g : CoreCtx → CoreCtx) : (modCtx s c v g).pkts = s.pkts := by simp [modCtx]
@[simp] theorem modCtx_graphs (s : State) (c v : Nat) (g : CoreCtx → CoreCtx) : (modCtx s c v g).graphs = s.graphs := by simp [modCtx]
@[simp] theorem modCtx_lastQ (s : State) (c v : Nat) (g : CoreCtx → CoreCtx) : (modCtx s c v g).lastQ = s.lastQ := by simp [modCtx]
@[simp] theorem modCtx_engines (s : State) (c v : Nat) (g : CoreCtx → CoreCtx) : (modCtx s c v g).engines = s.engines := by simp [modCtx]
@[simp] theorem modCtx_leaseReqs (s : State) (c v : Nat) (g : CoreCtx → CoreCtx) : (modCtx s c v g).leaseReqs = s.leaseReqs := by simp [modCtx]
@[simp] theorem modCtx_links (s : State) (c v : Nat) (g : CoreCtx → CoreCtx) : (modCtx s c v g).links = s.links := by simp [modCtx]
@[simp] theorem modCtx_binds (s : State) (c v : Nat) (g : CoreCtx → CoreCtx) : (modCtx s c v g).binds = s.binds := by simp [modCtx]
@[simp] theorem modCtx_fns (s : State) (c v : Nat) (g : CoreCtx → CoreCtx) : (modCtx s c v g).fns = s.fns := by simp [modCtx]
@[simp] theorem modCtx_ringTurn (s : State) (c v : Nat) (g : CoreCtx → CoreCtx) : (modCtx s c v g).ringTurn = s.ringTurn := by simp [modCtx]
@[simp] theorem modCtx_invals (s : State) (c v : Nat) (g : CoreCtx → CoreCtx) : (modCtx s c v g).invals = s.invals := by simp [modCtx]
@[simp] theorem modCtx_ats (s : State) (c v : Nat) (g : CoreCtx → CoreCtx) : (modCtx s c v g).ats = s.ats := by simp [modCtx]
@[simp] theorem modCtx_cxl (s : State) (c v : Nat) (g : CoreCtx → CoreCtx) : (modCtx s c v g).cxl = s.cxl := by simp [modCtx]
@[simp] theorem modCtx_ctrl (s : State) (c v : Nat) (g : CoreCtx → CoreCtx) : (modCtx s c v g).ctrl = s.ctrl := by simp [modCtx]
@[simp] theorem modCtx_msix (s : State) (c v : Nat) (g : CoreCtx → CoreCtx) : (modCtx s c v g).msix = s.msix := by simp [modCtx]
@[simp] theorem modCtx_notices (s : State) (c v : Nat) (g : CoreCtx → CoreCtx) : (modCtx s c v g).notices = s.notices := by simp [modCtx]
@[simp] theorem modCtx_hbm (s : State) (c v : Nat) (g : CoreCtx → CoreCtx) : (modCtx s c v g).hbm = s.hbm := by simp [modCtx]
@[simp] theorem modCtx_host (s : State) (c v : Nat) (g : CoreCtx → CoreCtx) : (modCtx s c v g).host = s.host := by simp [modCtx]
@[simp] theorem modCtx_peer (s : State) (c v : Nat) (g : CoreCtx → CoreCtx) : (modCtx s c v g).peer = s.peer := by simp [modCtx]
@[simp] theorem modCtx_scr (s : State) (c v : Nat) (g : CoreCtx → CoreCtx) : (modCtx s c v g).scr = s.scr := by simp [modCtx]
@[simp] theorem modCtx_full (s : State) (c v : Nat) (g : CoreCtx → CoreCtx) : (modCtx s c v g).full = s.full := by simp [modCtx]
@[simp] theorem modCtx_tb (s : State) (c v : Nat) (g : CoreCtx → CoreCtx) : (modCtx s c v g).tb = s.tb := by simp [modCtx]

@[simp] theorem modCur_cc (s : State) (g : Spoke → Spoke) : (modCur s g).cc = s.cc := by simp [modCur, setCur]
@[simp] theorem modCur_refTimer (s : State) (g : Spoke → Spoke) : (modCur s g).refTimer = s.refTimer := by simp [modCur, setCur]
@[simp] theorem modCur_refWas (s : State) (g : Spoke → Spoke) : (modCur s g).refWas = s.refWas := by simp [modCur, setCur]
@[simp] theorem modCur_ended (s : State) (g : Spoke → Spoke) : (modCur s g).ended = s.ended := by simp [modCur, setCur]
@[simp] theorem modCur_refRem (s : State) (g : Spoke → Spoke) : (modCur s g).refRem = s.refRem := by simp [modCur, setCur]
@[simp] theorem modCur_clk (s : State) (g : Spoke → Spoke) : (modCur s g).clk = s.clk := by simp [modCur, setCur]
@[simp] theorem modCur_d3hot (s : State) (g : Spoke → Spoke) : (modCur s g).d3hot = s.d3hot := by simp [modCur, setCur]
@[simp] theorem modCur_power (s : State) (g : Spoke → Spoke) : (modCur s g).power = s.power := by simp [modCur, setCur]
@[simp] theorem modCur_tick (s : State) (g : Spoke → Spoke) : (modCur s g).tick = s.tick := by simp [modCur, setCur]
@[simp] theorem modCur_agenda (s : State) (g : Spoke → Spoke) : (modCur s g).agenda = s.agenda := by simp [modCur, setCur]
@[simp] theorem modCur_cur (s : State) (g : Spoke → Spoke) : (modCur s g).cur = s.cur := by simp [modCur, setCur]
@[simp] theorem modCur_lastCore (s : State) (g : Spoke → Spoke) : (modCur s g).lastCore = s.lastCore := by simp [modCur, setCur]
@[simp] theorem modCur_nextId (s : State) (g : Spoke → Spoke) : (modCur s g).nextId = s.nextId := by simp [modCur, setCur]
@[simp] theorem modCur_savedImg (s : State) (g : Spoke → Spoke) : (modCur s g).savedImg = s.savedImg := by simp [modCur, setCur]
@[simp] theorem modCur_images (s : State) (g : Spoke → Spoke) : (modCur s g).images = s.images := by simp [modCur, setCur]
@[simp] theorem modCur_orphans (s : State) (g : Spoke → Spoke) : (modCur s g).orphans = s.orphans := by simp [modCur, setCur]
@[simp] theorem modCur_cycles (s : State) (g : Spoke → Spoke) : (modCur s g).cycles = s.cycles := by simp [modCur, setCur]
@[simp] theorem modCur_soft (s : State) (g : Spoke → Spoke) : (modCur s g).soft = s.soft := by simp [modCur, setCur]
@[simp] theorem modCur_halves (s : State) (g : Spoke → Spoke) : (modCur s g).halves = s.halves := by simp [modCur, setCur]
@[simp] theorem modCur_rcache (s : State) (g : Spoke → Spoke) : (modCur s g).rcache = s.rcache := by simp [modCur, setCur]
@[simp] theorem modCur_latches (s : State) (g : Spoke → Spoke) : (modCur s g).latches = s.latches := by simp [modCur, setCur]
@[simp] theorem modCur_recs (s : State) (g : Spoke → Spoke) : (modCur s g).recs = s.recs := by simp [modCur, setCur]
@[simp] theorem modCur_cmds (s : State) (g : Spoke → Spoke) : (modCur s g).cmds = s.cmds := by simp [modCur, setCur]
@[simp] theorem modCur_pubs (s : State) (g : Spoke → Spoke) : (modCur s g).pubs = s.pubs := by simp [modCur, setCur]
@[simp] theorem modCur_tgrps (s : State) (g : Spoke → Spoke) : (modCur s g).tgrps = s.tgrps := by simp [modCur, setCur]
@[simp] theorem modCur_paneReqs (s : State) (g : Spoke → Spoke) : (modCur s g).paneReqs = s.paneReqs := by simp [modCur, setCur]
@[simp] theorem modCur_barArrs (s : State) (g : Spoke → Spoke) : (modCur s g).barArrs = s.barArrs := by simp [modCur, setCur]
@[simp] theorem modCur_mesh (s : State) (g : Spoke → Spoke) : (modCur s g).mesh = s.mesh := by simp [modCur, setCur]
@[simp] theorem modCur_waiters (s : State) (g : Spoke → Spoke) : (modCur s g).waiters = s.waiters := by simp [modCur, setCur]
@[simp] theorem modCur_grps (s : State) (g : Spoke → Spoke) : (modCur s g).grps = s.grps := by simp [modCur, setCur]
@[simp] theorem modCur_pops (s : State) (g : Spoke → Spoke) : (modCur s g).pops = s.pops := by simp [modCur, setCur]
@[simp] theorem modCur_queues (s : State) (g : Spoke → Spoke) : (modCur s g).queues = s.queues := by simp [modCur, setCur]
@[simp] theorem modCur_pkts (s : State) (g : Spoke → Spoke) : (modCur s g).pkts = s.pkts := by simp [modCur, setCur]
@[simp] theorem modCur_graphs (s : State) (g : Spoke → Spoke) : (modCur s g).graphs = s.graphs := by simp [modCur, setCur]
@[simp] theorem modCur_lastQ (s : State) (g : Spoke → Spoke) : (modCur s g).lastQ = s.lastQ := by simp [modCur, setCur]
@[simp] theorem modCur_engines (s : State) (g : Spoke → Spoke) : (modCur s g).engines = s.engines := by simp [modCur, setCur]
@[simp] theorem modCur_leaseReqs (s : State) (g : Spoke → Spoke) : (modCur s g).leaseReqs = s.leaseReqs := by simp [modCur, setCur]
@[simp] theorem modCur_links (s : State) (g : Spoke → Spoke) : (modCur s g).links = s.links := by simp [modCur, setCur]
@[simp] theorem modCur_binds (s : State) (g : Spoke → Spoke) : (modCur s g).binds = s.binds := by simp [modCur, setCur]
@[simp] theorem modCur_fns (s : State) (g : Spoke → Spoke) : (modCur s g).fns = s.fns := by simp [modCur, setCur]
@[simp] theorem modCur_ringTurn (s : State) (g : Spoke → Spoke) : (modCur s g).ringTurn = s.ringTurn := by simp [modCur, setCur]
@[simp] theorem modCur_invals (s : State) (g : Spoke → Spoke) : (modCur s g).invals = s.invals := by simp [modCur, setCur]
@[simp] theorem modCur_ats (s : State) (g : Spoke → Spoke) : (modCur s g).ats = s.ats := by simp [modCur, setCur]
@[simp] theorem modCur_cxl (s : State) (g : Spoke → Spoke) : (modCur s g).cxl = s.cxl := by simp [modCur, setCur]
@[simp] theorem modCur_ctrl (s : State) (g : Spoke → Spoke) : (modCur s g).ctrl = s.ctrl := by simp [modCur, setCur]
@[simp] theorem modCur_msix (s : State) (g : Spoke → Spoke) : (modCur s g).msix = s.msix := by simp [modCur, setCur]
@[simp] theorem modCur_notices (s : State) (g : Spoke → Spoke) : (modCur s g).notices = s.notices := by simp [modCur, setCur]
@[simp] theorem modCur_hbm (s : State) (g : Spoke → Spoke) : (modCur s g).hbm = s.hbm := by simp [modCur, setCur]
@[simp] theorem modCur_host (s : State) (g : Spoke → Spoke) : (modCur s g).host = s.host := by simp [modCur, setCur]
@[simp] theorem modCur_peer (s : State) (g : Spoke → Spoke) : (modCur s g).peer = s.peer := by simp [modCur, setCur]
@[simp] theorem modCur_scr (s : State) (g : Spoke → Spoke) : (modCur s g).scr = s.scr := by simp [modCur, setCur]
@[simp] theorem modCur_full (s : State) (g : Spoke → Spoke) : (modCur s g).full = s.full := by simp [modCur, setCur]
@[simp] theorem modCur_tb (s : State) (g : Spoke → Spoke) : (modCur s g).tb = s.tb := by simp [modCur, setCur]

/-! Writes of bytes -/

@[simp] theorem wrLoc_cc (s : State) (l : Loc) (b : Byte) : (wrLoc s l b).cc = s.cc := by
  unfold wrLoc; split <;> rfl
@[simp] theorem wrLoc_refTimer (s : State) (l : Loc) (b : Byte) : (wrLoc s l b).refTimer = s.refTimer := by
  unfold wrLoc; split <;> rfl
@[simp] theorem wrLoc_refWas (s : State) (l : Loc) (b : Byte) : (wrLoc s l b).refWas = s.refWas := by
  unfold wrLoc; split <;> rfl
@[simp] theorem wrLoc_ended (s : State) (l : Loc) (b : Byte) : (wrLoc s l b).ended = s.ended := by
  unfold wrLoc; split <;> rfl
@[simp] theorem wrLoc_refRem (s : State) (l : Loc) (b : Byte) : (wrLoc s l b).refRem = s.refRem := by
  unfold wrLoc; split <;> rfl
@[simp] theorem wrLoc_clk (s : State) (l : Loc) (b : Byte) : (wrLoc s l b).clk = s.clk := by
  unfold wrLoc; split <;> rfl
@[simp] theorem wrLoc_d3hot (s : State) (l : Loc) (b : Byte) : (wrLoc s l b).d3hot = s.d3hot := by
  unfold wrLoc; split <;> rfl
@[simp] theorem wrLoc_power (s : State) (l : Loc) (b : Byte) : (wrLoc s l b).power = s.power := by
  unfold wrLoc; split <;> rfl
@[simp] theorem wrLoc_tick (s : State) (l : Loc) (b : Byte) : (wrLoc s l b).tick = s.tick := by
  unfold wrLoc; split <;> rfl
@[simp] theorem wrLoc_agenda (s : State) (l : Loc) (b : Byte) : (wrLoc s l b).agenda = s.agenda := by
  unfold wrLoc; split <;> rfl
@[simp] theorem wrLoc_cur (s : State) (l : Loc) (b : Byte) : (wrLoc s l b).cur = s.cur := by
  unfold wrLoc; split <;> rfl
@[simp] theorem wrLoc_lastCore (s : State) (l : Loc) (b : Byte) : (wrLoc s l b).lastCore = s.lastCore := by
  unfold wrLoc; split <;> rfl
@[simp] theorem wrLoc_nextId (s : State) (l : Loc) (b : Byte) : (wrLoc s l b).nextId = s.nextId := by
  unfold wrLoc; split <;> rfl
@[simp] theorem wrLoc_cores (s : State) (l : Loc) (b : Byte) : (wrLoc s l b).cores = s.cores := by
  unfold wrLoc; split <;> rfl
@[simp] theorem wrLoc_saved (s : State) (l : Loc) (b : Byte) : (wrLoc s l b).saved = s.saved := by
  unfold wrLoc; split <;> rfl
@[simp] theorem wrLoc_savedImg (s : State) (l : Loc) (b : Byte) : (wrLoc s l b).savedImg = s.savedImg := by
  unfold wrLoc; split <;> rfl
@[simp] theorem wrLoc_images (s : State) (l : Loc) (b : Byte) : (wrLoc s l b).images = s.images := by
  unfold wrLoc; split <;> rfl
@[simp] theorem wrLoc_orphans (s : State) (l : Loc) (b : Byte) : (wrLoc s l b).orphans = s.orphans := by
  unfold wrLoc; split <;> rfl
@[simp] theorem wrLoc_cycles (s : State) (l : Loc) (b : Byte) : (wrLoc s l b).cycles = s.cycles := by
  unfold wrLoc; split <;> rfl
@[simp] theorem wrLoc_soft (s : State) (l : Loc) (b : Byte) : (wrLoc s l b).soft = s.soft := by
  unfold wrLoc; split <;> rfl
@[simp] theorem wrLoc_halves (s : State) (l : Loc) (b : Byte) : (wrLoc s l b).halves = s.halves := by
  unfold wrLoc; split <;> rfl
@[simp] theorem wrLoc_rcache (s : State) (l : Loc) (b : Byte) (h : l.sp ≠ .host) : (wrLoc s l b).rcache = s.rcache := by
  unfold wrLoc; split <;> first | rfl | contradiction
@[simp] theorem wrLoc_latches (s : State) (l : Loc) (b : Byte) : (wrLoc s l b).latches = s.latches := by
  unfold wrLoc; split <;> rfl
@[simp] theorem wrLoc_recs (s : State) (l : Loc) (b : Byte) : (wrLoc s l b).recs = s.recs := by
  unfold wrLoc; split <;> rfl
@[simp] theorem wrLoc_cmds (s : State) (l : Loc) (b : Byte) : (wrLoc s l b).cmds = s.cmds := by
  unfold wrLoc; split <;> rfl
@[simp] theorem wrLoc_pubs (s : State) (l : Loc) (b : Byte) : (wrLoc s l b).pubs = s.pubs := by
  unfold wrLoc; split <;> rfl
@[simp] theorem wrLoc_tgrps (s : State) (l : Loc) (b : Byte) : (wrLoc s l b).tgrps = s.tgrps := by
  unfold wrLoc; split <;> rfl
@[simp] theorem wrLoc_paneReqs (s : State) (l : Loc) (b : Byte) : (wrLoc s l b).paneReqs = s.paneReqs := by
  unfold wrLoc; split <;> rfl
@[simp] theorem wrLoc_barArrs (s : State) (l : Loc) (b : Byte) : (wrLoc s l b).barArrs = s.barArrs := by
  unfold wrLoc; split <;> rfl
@[simp] theorem wrLoc_mesh (s : State) (l : Loc) (b : Byte) : (wrLoc s l b).mesh = s.mesh := by
  unfold wrLoc; split <;> rfl
@[simp] theorem wrLoc_waiters (s : State) (l : Loc) (b : Byte) : (wrLoc s l b).waiters = s.waiters := by
  unfold wrLoc; split <;> rfl
@[simp] theorem wrLoc_grps (s : State) (l : Loc) (b : Byte) : (wrLoc s l b).grps = s.grps := by
  unfold wrLoc; split <;> rfl
@[simp] theorem wrLoc_pops (s : State) (l : Loc) (b : Byte) : (wrLoc s l b).pops = s.pops := by
  unfold wrLoc; split <;> rfl
@[simp] theorem wrLoc_queues (s : State) (l : Loc) (b : Byte) : (wrLoc s l b).queues = s.queues := by
  unfold wrLoc; split <;> rfl
@[simp] theorem wrLoc_pkts (s : State) (l : Loc) (b : Byte) : (wrLoc s l b).pkts = s.pkts := by
  unfold wrLoc; split <;> rfl
@[simp] theorem wrLoc_graphs (s : State) (l : Loc) (b : Byte) : (wrLoc s l b).graphs = s.graphs := by
  unfold wrLoc; split <;> rfl
@[simp] theorem wrLoc_lastQ (s : State) (l : Loc) (b : Byte) : (wrLoc s l b).lastQ = s.lastQ := by
  unfold wrLoc; split <;> rfl
@[simp] theorem wrLoc_engines (s : State) (l : Loc) (b : Byte) : (wrLoc s l b).engines = s.engines := by
  unfold wrLoc; split <;> rfl
@[simp] theorem wrLoc_leaseReqs (s : State) (l : Loc) (b : Byte) : (wrLoc s l b).leaseReqs = s.leaseReqs := by
  unfold wrLoc; split <;> rfl
@[simp] theorem wrLoc_links (s : State) (l : Loc) (b : Byte) : (wrLoc s l b).links = s.links := by
  unfold wrLoc; split <;> rfl
@[simp] theorem wrLoc_binds (s : State) (l : Loc) (b : Byte) : (wrLoc s l b).binds = s.binds := by
  unfold wrLoc; split <;> rfl
@[simp] theorem wrLoc_fns (s : State) (l : Loc) (b : Byte) : (wrLoc s l b).fns = s.fns := by
  unfold wrLoc; split <;> rfl
@[simp] theorem wrLoc_ringTurn (s : State) (l : Loc) (b : Byte) : (wrLoc s l b).ringTurn = s.ringTurn := by
  unfold wrLoc; split <;> rfl
@[simp] theorem wrLoc_invals (s : State) (l : Loc) (b : Byte) : (wrLoc s l b).invals = s.invals := by
  unfold wrLoc; split <;> rfl
@[simp] theorem wrLoc_ats (s : State) (l : Loc) (b : Byte) : (wrLoc s l b).ats = s.ats := by
  unfold wrLoc; split <;> rfl
@[simp] theorem wrLoc_cxl (s : State) (l : Loc) (b : Byte) (h : l.sp ≠ .host) : (wrLoc s l b).cxl = s.cxl := by
  unfold wrLoc; split <;> first | rfl | contradiction
@[simp] theorem wrLoc_ctrl (s : State) (l : Loc) (b : Byte) : (wrLoc s l b).ctrl = s.ctrl := by
  unfold wrLoc; split <;> rfl
@[simp] theorem wrLoc_msix (s : State) (l : Loc) (b : Byte) : (wrLoc s l b).msix = s.msix := by
  unfold wrLoc; split <;> rfl
@[simp] theorem wrLoc_notices (s : State) (l : Loc) (b : Byte) : (wrLoc s l b).notices = s.notices := by
  unfold wrLoc; split <;> rfl
@[simp] theorem wrLoc_full (s : State) (l : Loc) (b : Byte) : (wrLoc s l b).full = s.full := by
  unfold wrLoc; split <;> rfl

@[simp] theorem wrN_cc (s : State) (l : Loc) (n x : Nat) : (wrN s l n x).cc = s.cc := by
  induction n generalizing s l x with
  | zero => rfl
  | succ n ih => simp [wrN, ih]
@[simp] theorem wrN_refTimer (s : State) (l : Loc) (n x : Nat) : (wrN s l n x).refTimer = s.refTimer := by
  induction n generalizing s l x with
  | zero => rfl
  | succ n ih => simp [wrN, ih]
@[simp] theorem wrN_refWas (s : State) (l : Loc) (n x : Nat) : (wrN s l n x).refWas = s.refWas := by
  induction n generalizing s l x with
  | zero => rfl
  | succ n ih => simp [wrN, ih]
@[simp] theorem wrN_ended (s : State) (l : Loc) (n x : Nat) : (wrN s l n x).ended = s.ended := by
  induction n generalizing s l x with
  | zero => rfl
  | succ n ih => simp [wrN, ih]
@[simp] theorem wrN_refRem (s : State) (l : Loc) (n x : Nat) : (wrN s l n x).refRem = s.refRem := by
  induction n generalizing s l x with
  | zero => rfl
  | succ n ih => simp [wrN, ih]
@[simp] theorem wrN_clk (s : State) (l : Loc) (n x : Nat) : (wrN s l n x).clk = s.clk := by
  induction n generalizing s l x with
  | zero => rfl
  | succ n ih => simp [wrN, ih]
@[simp] theorem wrN_d3hot (s : State) (l : Loc) (n x : Nat) : (wrN s l n x).d3hot = s.d3hot := by
  induction n generalizing s l x with
  | zero => rfl
  | succ n ih => simp [wrN, ih]
@[simp] theorem wrN_power (s : State) (l : Loc) (n x : Nat) : (wrN s l n x).power = s.power := by
  induction n generalizing s l x with
  | zero => rfl
  | succ n ih => simp [wrN, ih]
@[simp] theorem wrN_tick (s : State) (l : Loc) (n x : Nat) : (wrN s l n x).tick = s.tick := by
  induction n generalizing s l x with
  | zero => rfl
  | succ n ih => simp [wrN, ih]
@[simp] theorem wrN_agenda (s : State) (l : Loc) (n x : Nat) : (wrN s l n x).agenda = s.agenda := by
  induction n generalizing s l x with
  | zero => rfl
  | succ n ih => simp [wrN, ih]
@[simp] theorem wrN_cur (s : State) (l : Loc) (n x : Nat) : (wrN s l n x).cur = s.cur := by
  induction n generalizing s l x with
  | zero => rfl
  | succ n ih => simp [wrN, ih]
@[simp] theorem wrN_lastCore (s : State) (l : Loc) (n x : Nat) : (wrN s l n x).lastCore = s.lastCore := by
  induction n generalizing s l x with
  | zero => rfl
  | succ n ih => simp [wrN, ih]
@[simp] theorem wrN_nextId (s : State) (l : Loc) (n x : Nat) : (wrN s l n x).nextId = s.nextId := by
  induction n generalizing s l x with
  | zero => rfl
  | succ n ih => simp [wrN, ih]
@[simp] theorem wrN_cores (s : State) (l : Loc) (n x : Nat) : (wrN s l n x).cores = s.cores := by
  induction n generalizing s l x with
  | zero => rfl
  | succ n ih => simp [wrN, ih]
@[simp] theorem wrN_saved (s : State) (l : Loc) (n x : Nat) : (wrN s l n x).saved = s.saved := by
  induction n generalizing s l x with
  | zero => rfl
  | succ n ih => simp [wrN, ih]
@[simp] theorem wrN_savedImg (s : State) (l : Loc) (n x : Nat) : (wrN s l n x).savedImg = s.savedImg := by
  induction n generalizing s l x with
  | zero => rfl
  | succ n ih => simp [wrN, ih]
@[simp] theorem wrN_images (s : State) (l : Loc) (n x : Nat) : (wrN s l n x).images = s.images := by
  induction n generalizing s l x with
  | zero => rfl
  | succ n ih => simp [wrN, ih]
@[simp] theorem wrN_orphans (s : State) (l : Loc) (n x : Nat) : (wrN s l n x).orphans = s.orphans := by
  induction n generalizing s l x with
  | zero => rfl
  | succ n ih => simp [wrN, ih]
@[simp] theorem wrN_cycles (s : State) (l : Loc) (n x : Nat) : (wrN s l n x).cycles = s.cycles := by
  induction n generalizing s l x with
  | zero => rfl
  | succ n ih => simp [wrN, ih]
@[simp] theorem wrN_soft (s : State) (l : Loc) (n x : Nat) : (wrN s l n x).soft = s.soft := by
  induction n generalizing s l x with
  | zero => rfl
  | succ n ih => simp [wrN, ih]
@[simp] theorem wrN_halves (s : State) (l : Loc) (n x : Nat) : (wrN s l n x).halves = s.halves := by
  induction n generalizing s l x with
  | zero => rfl
  | succ n ih => simp [wrN, ih]
@[simp] theorem wrN_rcache (s : State) (l : Loc) (n x : Nat) (h : l.sp ≠ .host) : (wrN s l n x).rcache = s.rcache := by
  induction n generalizing s l x with
  | zero => rfl
  | succ n ih => exact (ih (wrLoc s l _) (l.plus 1) _ h).trans (wrLoc_rcache s l _ h)
@[simp] theorem wrN_latches (s : State) (l : Loc) (n x : Nat) : (wrN s l n x).latches = s.latches := by
  induction n generalizing s l x with
  | zero => rfl
  | succ n ih => simp [wrN, ih]
@[simp] theorem wrN_recs (s : State) (l : Loc) (n x : Nat) : (wrN s l n x).recs = s.recs := by
  induction n generalizing s l x with
  | zero => rfl
  | succ n ih => simp [wrN, ih]
@[simp] theorem wrN_cmds (s : State) (l : Loc) (n x : Nat) : (wrN s l n x).cmds = s.cmds := by
  induction n generalizing s l x with
  | zero => rfl
  | succ n ih => simp [wrN, ih]
@[simp] theorem wrN_pubs (s : State) (l : Loc) (n x : Nat) : (wrN s l n x).pubs = s.pubs := by
  induction n generalizing s l x with
  | zero => rfl
  | succ n ih => simp [wrN, ih]
@[simp] theorem wrN_tgrps (s : State) (l : Loc) (n x : Nat) : (wrN s l n x).tgrps = s.tgrps := by
  induction n generalizing s l x with
  | zero => rfl
  | succ n ih => simp [wrN, ih]
@[simp] theorem wrN_paneReqs (s : State) (l : Loc) (n x : Nat) : (wrN s l n x).paneReqs = s.paneReqs := by
  induction n generalizing s l x with
  | zero => rfl
  | succ n ih => simp [wrN, ih]
@[simp] theorem wrN_barArrs (s : State) (l : Loc) (n x : Nat) : (wrN s l n x).barArrs = s.barArrs := by
  induction n generalizing s l x with
  | zero => rfl
  | succ n ih => simp [wrN, ih]
@[simp] theorem wrN_mesh (s : State) (l : Loc) (n x : Nat) : (wrN s l n x).mesh = s.mesh := by
  induction n generalizing s l x with
  | zero => rfl
  | succ n ih => simp [wrN, ih]
@[simp] theorem wrN_waiters (s : State) (l : Loc) (n x : Nat) : (wrN s l n x).waiters = s.waiters := by
  induction n generalizing s l x with
  | zero => rfl
  | succ n ih => simp [wrN, ih]
@[simp] theorem wrN_grps (s : State) (l : Loc) (n x : Nat) : (wrN s l n x).grps = s.grps := by
  induction n generalizing s l x with
  | zero => rfl
  | succ n ih => simp [wrN, ih]
@[simp] theorem wrN_pops (s : State) (l : Loc) (n x : Nat) : (wrN s l n x).pops = s.pops := by
  induction n generalizing s l x with
  | zero => rfl
  | succ n ih => simp [wrN, ih]
@[simp] theorem wrN_queues (s : State) (l : Loc) (n x : Nat) : (wrN s l n x).queues = s.queues := by
  induction n generalizing s l x with
  | zero => rfl
  | succ n ih => simp [wrN, ih]
@[simp] theorem wrN_pkts (s : State) (l : Loc) (n x : Nat) : (wrN s l n x).pkts = s.pkts := by
  induction n generalizing s l x with
  | zero => rfl
  | succ n ih => simp [wrN, ih]
@[simp] theorem wrN_graphs (s : State) (l : Loc) (n x : Nat) : (wrN s l n x).graphs = s.graphs := by
  induction n generalizing s l x with
  | zero => rfl
  | succ n ih => simp [wrN, ih]
@[simp] theorem wrN_lastQ (s : State) (l : Loc) (n x : Nat) : (wrN s l n x).lastQ = s.lastQ := by
  induction n generalizing s l x with
  | zero => rfl
  | succ n ih => simp [wrN, ih]
@[simp] theorem wrN_engines (s : State) (l : Loc) (n x : Nat) : (wrN s l n x).engines = s.engines := by
  induction n generalizing s l x with
  | zero => rfl
  | succ n ih => simp [wrN, ih]
@[simp] theorem wrN_leaseReqs (s : State) (l : Loc) (n x : Nat) : (wrN s l n x).leaseReqs = s.leaseReqs := by
  induction n generalizing s l x with
  | zero => rfl
  | succ n ih => simp [wrN, ih]
@[simp] theorem wrN_links (s : State) (l : Loc) (n x : Nat) : (wrN s l n x).links = s.links := by
  induction n generalizing s l x with
  | zero => rfl
  | succ n ih => simp [wrN, ih]
@[simp] theorem wrN_binds (s : State) (l : Loc) (n x : Nat) : (wrN s l n x).binds = s.binds := by
  induction n generalizing s l x with
  | zero => rfl
  | succ n ih => simp [wrN, ih]
@[simp] theorem wrN_fns (s : State) (l : Loc) (n x : Nat) : (wrN s l n x).fns = s.fns := by
  induction n generalizing s l x with
  | zero => rfl
  | succ n ih => simp [wrN, ih]
@[simp] theorem wrN_ringTurn (s : State) (l : Loc) (n x : Nat) : (wrN s l n x).ringTurn = s.ringTurn := by
  induction n generalizing s l x with
  | zero => rfl
  | succ n ih => simp [wrN, ih]
@[simp] theorem wrN_invals (s : State) (l : Loc) (n x : Nat) : (wrN s l n x).invals = s.invals := by
  induction n generalizing s l x with
  | zero => rfl
  | succ n ih => simp [wrN, ih]
@[simp] theorem wrN_ats (s : State) (l : Loc) (n x : Nat) : (wrN s l n x).ats = s.ats := by
  induction n generalizing s l x with
  | zero => rfl
  | succ n ih => simp [wrN, ih]
@[simp] theorem wrN_cxl (s : State) (l : Loc) (n x : Nat) (h : l.sp ≠ .host) : (wrN s l n x).cxl = s.cxl := by
  induction n generalizing s l x with
  | zero => rfl
  | succ n ih => exact (ih (wrLoc s l _) (l.plus 1) _ h).trans (wrLoc_cxl s l _ h)
@[simp] theorem wrN_ctrl (s : State) (l : Loc) (n x : Nat) : (wrN s l n x).ctrl = s.ctrl := by
  induction n generalizing s l x with
  | zero => rfl
  | succ n ih => simp [wrN, ih]
@[simp] theorem wrN_msix (s : State) (l : Loc) (n x : Nat) : (wrN s l n x).msix = s.msix := by
  induction n generalizing s l x with
  | zero => rfl
  | succ n ih => simp [wrN, ih]
@[simp] theorem wrN_notices (s : State) (l : Loc) (n x : Nat) : (wrN s l n x).notices = s.notices := by
  induction n generalizing s l x with
  | zero => rfl
  | succ n ih => simp [wrN, ih]
@[simp] theorem wrN_full (s : State) (l : Loc) (n x : Nat) : (wrN s l n x).full = s.full := by
  induction n generalizing s l x with
  | zero => rfl
  | succ n ih => simp [wrN, ih]

/-! Cores and spokes after an update. -/

@[simp] theorem vfOf_setCtx (s : State) (c v : Nat) (x : CoreCtx) (d : Nat) : vfOf (setCtx s c v x) d = vfOf s d := by
  simp [vfOf, isSvc, getHalf]

@[simp] theorem vfOf_setCore (s : State) (c : Nat) (x : Core) (d : Nat) : vfOf (setCore s c x) d = vfOf s d := rfl

@[simp] theorem vfOf_setSp (s : State) (c n v : Nat) (x : Spoke) (d : Nat) : vfOf (setSp s c n v x) d = vfOf s d := by
  simp [vfOf, isSvc, getHalf]

@[simp] theorem vfOf_modCur (s : State) (g : Spoke → Spoke) (d : Nat) : vfOf (modCur s g) d = vfOf s d := by
  simp [modCur, setCur]

@[simp] theorem getCore_setCore (s : State) (c : Nat) (x : Core) : getCore (setCore s c x) c = x := by
  simp [getCore, setCore]

theorem getCore_setCore_ne (s : State) {c d : Nat} (x : Core) (h : c ≠ d) : getCore (setCore s c x) d = getCore s d := by
  simp [getCore, setCore, mget_mset, h]

@[simp] theorem getCtx_setCtx (s : State) (c v : Nat) (x : CoreCtx) : getCtx (setCtx s c v x) c v = x := by
  by_cases h : vfOf s c = v
  · simp [getCtx, setCtx, h]
  · have h' : vfOf { s with saved := mset s.saved (v * 65536 + c) x } c = vfOf s c := rfl
    simp [getCtx, setCtx, h, h']

@[simp] theorem hub_setCtx (s : State) (c v : Nat) (x : CoreCtx) (d : Nat) : (getCore (setCtx s c v x) d).hub = (getCore s d).hub := by
  by_cases h : vfOf s c = v
  · by_cases hd : c = d
    · subst hd; simp [setCtx, h]
    · simp [setCtx, h, getCore_setCore_ne s _ hd]
  · simp [setCtx, h, getCore]

/-- A spoke that has been written reads back. -/
@[simp] theorem getSp_setSp (s : State) (c n v : Nat) (x : Spoke) : getSp (setSp s c n v x) c n v = x := by
  by_cases h : n = 0
  · simp [getSp, setSp, h]
  · simp [getSp, setSp, h]

@[simp] theorem getSp_modSp (s : State) (c n v : Nat) (g : Spoke → Spoke) : getSp (modSp s c n v g) c n v = g (getSp s c n v) := by
  simp [modSp]

@[simp] theorem curSp_modCur (s : State) (g : Spoke → Spoke) : curSp (modCur s g) = g (curSp s) := by
  simp [curSp, modCur, setCur]

theorem getCtx_setCtx_ne (s : State) {c d v w : Nat} (x : CoreCtx) (hc : c < 65536) (hd : d < 65536) (h : ¬ (c = d ∧ v = w)) :
    getCtx (setCtx s c v x) d w = getCtx s d w := by
  by_cases hv : vfOf s c = v
  · have hn : ¬ (c = d ∧ vfOf s d = w) := by
      rintro ⟨rfl, rfl⟩; exact h ⟨rfl, hv.symm⟩
    by_cases hw : vfOf s d = w
    · have : c ≠ d := fun e => hn ⟨e, hw⟩
      simp [getCtx, setCtx, hv, hw, getCore_setCore_ne s _ this]
    · simp [getCtx, setCtx, hv, hw]
  · have hk : v * 65536 + c ≠ w * 65536 + d := by
      intro e; apply h; omega
    have h' : ∀ d, vfOf { s with saved := mset s.saved (v * 65536 + c) x } d = vfOf s d := fun _ => rfl
    by_cases hw : vfOf s d = w
    · simp [getCtx, setCtx, hv, hw, h', getCore]
    · simp [getCtx, setCtx, hv, hw, h', mget_mset, hk]

/-- Writing one spoke leaves every other one as it was. -/
theorem getSp_setSp_ne (s : State) {c n v d m w : Nat} (x : Spoke) (hc : c < 65536) (hd : d < 65536)
    (h : ¬ (c = d ∧ n = m ∧ (n = 0 ∨ v = w))) : getSp (setSp s c n v x) d m w = getSp s d m w := by
  by_cases hn : n = 0
  · subst hn
    by_cases hm : m = 0
    · subst hm
      have : c ≠ d := fun e => h ⟨e, rfl, .inl rfl⟩
      simp [getSp, setSp, getCore_setCore_ne s _ this]
    · simp only [getSp, setSp, if_true, hm, if_false]
      congr 1
      unfold getCtx
      rw [vfOf_setCore]
      split
      · by_cases e : c = d
        · subst e; simp
        · rw [getCore_setCore_ne s _ e]
      · rfl
  · by_cases hm : m = 0
    · subst hm; simp [getSp, setSp, hn]
    · simp only [getSp, setSp, hn, hm, if_false]
      by_cases e : c = d ∧ v = w
      · obtain ⟨rfl, rfl⟩ := e
        have hnm : n ≠ m := fun e => h ⟨rfl, e, .inr rfl⟩
        simp [mget_mset, hnm]
      · rw [getCtx_setCtx_ne s _ hc hd e]

/-- An update of the issuing spoke leaves every other spoke as it was. -/
theorem getSp_modCur_ne (s : State) (g : Spoke → Spoke) {d m w : Nat} (hc : s.cur.core < 65536) (hd : d < 65536)
    (h : ¬ (s.cur.core = d ∧ s.cur.sp = m ∧ (s.cur.sp = 0 ∨ s.cur.vf = w))) : getSp (modCur s g) d m w = getSp s d m w :=
  getSp_setSp_ne s _ hc hd h

end Sys2Proof.Machine
end

