-- ==== Sys2Proof/Laws/Issue.lean ====
section
/-! SUPPORT. What issuing a ready instruction does: its meaning runs on the state in which its sources are read. -/

namespace Sys2Proof

open Machine

@[simp] theorem countIssue_cur (s : State) : (countIssue s).cur = s.cur := by
  unfold countIssue; split <;> simp

theorem countIssue_nil {s : State} (h : (curSp s).win = []) : countIssue s = s := by simp [countIssue, h]

/-- Counting an issue changes nothing of the spoke but the count of its window. -/
theorem curSp_countIssue (s : State) : curSp (countIssue s) = { curSp s with wcount := (curSp (countIssue s)).wcount } := by
  unfold countIssue
  split
  · rfl
  · simp

@[simp] theorem countIssue_pendR (s : State) (r : Reg) : (curSp (countIssue s)).pendR r = (curSp s).pendR r := by
  rw [curSp_countIssue]; cases r <;> rfl

theorem countIssue_win (s : State) : (curSp (countIssue s)).win = (curSp s).win := by rw [curSp_countIssue]

/-- The seal and presence checks pass for a ready instruction. -/
theorem precheck_ready {i : Instr} {s : State} (h : Ready i s) (hc : s.cur.checked = false) : precheck s [i] = .ok s := by
  have hs : unitSeals s [i] = false := by
    rcases h.window with hw | hw
    · simp [unitSeals, Instr.seals, hw]
    · exact hw.1
  rcases h.present with hp | ⟨ho, hf⟩
  · simp [hc] at hp
  · simp [precheck, presence, hs, ho, hf]

/-- A ready instruction runs its meaning on the state in which its sources are read, unless it would park behind an open window. -/
theorem issue_ready {i : Instr} {s : State} (h : Ready i s) (body : State → Ending)
    (hp : (curSp s).win = [] ∨ (body (taken i s)).parks = false) : issue i s body = settle (countIssue s) (body (taken i s)) := by
  have hb : runBody i (countIssue s) body = body (taken i s) := by
    unfold runBody
    rw [if_neg (by simpa using h.free)]
    rfl
  have hq : ((body (taken i s)).parks && !(curSp (countIssue s)).win.isEmpty && !Instr.isEngine i && !s.cur.sealed) = false := by
    rcases hp with hp | hp
    · simp [countIssue_win, hp]
    · simp [hp]
  unfold issue
  rw [h.word]
  cases hc : s.cur.checked
  · simp only [Bool.false_eq_true, if_false, precheck_ready h hc, hb, hq]
  · simp only [if_true, hb, hq, Bool.false_eq_true, if_false]

/-- The same with no window open: whatever the meaning ends in. -/
theorem issue_closed {i : Instr} {s : State} (h : Ready i s) (hw : (curSp s).win = []) (body : State → Ending) :
    issue i s body = settle s (body (taken i s)) := by
  rw [issue_ready h body (.inl hw), countIssue_nil hw]

/-! Reading the sources leaves their values. -/

theorem consume_induct {P : Spoke → Prop} (us : List Use) (p : Spoke) (h0 : P p) (h : ∀ q r, P q → P (q.clrR r)) : P (p.consume us) := by
  unfold Spoke.consume
  induction us generalizing p with
  | nil => exact h0
  | cons u us ih =>
    refine ih _ ?_
    dsimp only
    split
    · exact h _ _ h0
    · exact h0

@[simp] theorem rdG_clrR (p : Spoke) (x : Reg) (r : Fin 32) : (p.clrR x).rdG r = p.rdG r := by
  cases x with
  | g a =>
    by_cases ha : a = 0
    · simp [Spoke.clrR, Spoke.clrG, ha]
    · by_cases h : a = r
      · subst h; simp [Spoke.clrR, Spoke.clrG, Spoke.rdG, ha]
      · have : a.val ≠ r.val := fun e => h (Fin.ext e)
        simp [Spoke.clrR, Spoke.clrG, Spoke.rdG, ha, this]
  | v a => rfl

@[simp] theorem rdG_consume (p : Spoke) (us : List Use) (r : Fin 32) : (p.consume us).rdG r = p.rdG r :=
  consume_induct (P := fun q => q.rdG r = p.rdG r) us p rfl fun q x h => by rw [rdG_clrR, h]

/-- What reading the sources leaves as it was: everything of a spoke but presence bits. -/
theorem consume_rest (p : Spoke) (us : List Use) :
    ∃ g v, p.consume us = { p with g := g, v := v } :=
  consume_induct (P := fun q => ∃ g v, q = { p with g := g, v := v }) us p ⟨_, _, rfl⟩ fun q x h => by
    obtain ⟨g, v, rfl⟩ := h
    cases x with
    | g a =>
      simp only [Spoke.clrR, Spoke.clrG]
      split
      · exact ⟨_, _, rfl⟩
      · exact ⟨_, _, rfl⟩
    | v a => exact ⟨_, _, rfl⟩

@[simp] theorem countIssue_rdG (s : State) (r : Fin 32) : (curSp (countIssue s)).rdG r = (curSp s).rdG r := by
  rw [curSp_countIssue]; rfl

/-- The value of a source is that of the register before the issue. -/
@[simp] theorem src_taken (i : Instr) (s : State) (a : Src) : src (taken i s) a = src s a := by simp [src, taken]

@[simp] theorem taken_cur (i : Instr) (s : State) : (taken i s).cur = s.cur := by simp [taken]

/-- The spoke after its sources are read. -/
theorem curSp_taken (i : Instr) (s : State) : ∃ g v w, curSp (taken i s) = { curSp s with g := g, v := v, wcount := w } := by
  obtain ⟨g, v, h⟩ := consume_rest (curSp (countIssue s)) (Instr.uses i)
  refine ⟨g, v, (curSp (countIssue s)).wcount, ?_⟩
  simp only [taken, curSp_modCur, h]
  rw [curSp_countIssue]

/-- A change that keeps the park, the divisions and the requests of an unblocked spoke leaves it unblocked. -/
theorem done_calm {i : Instr} {s : State} (h : Ready i s) {f : Spoke → Spoke}
    (hf : ∀ p, (f p).park = p.park ∧ (f p).divs = p.divs ∧ (f p).outst = p.outst) :
    (curSp s).win = [] ∨ (doneP (taken i s) f).parks = false := by
  rcases h.window with hw | ⟨-, hb⟩
  · exact .inl hw
  · right
    obtain ⟨g, v, w, e⟩ := curSp_taken i s
    obtain ⟨h1, h2, h3⟩ := hf (curSp (taken i s))
    simp only [doneP, Ending.parks, curSp_modCur, blocked, h1, h2, h3]
    rw [e]
    exact hb

/-- An instruction whose meaning ends in a change of its own spoke that parks nothing completes with that change. -/
theorem completes_doneP {i : Instr} {s : State} (h : Ready i s) {body : State → Ending} {f : Spoke → Spoke}
    (hx : exec i s = .next (issue i s body)) (hb : body (taken i s) = doneP (taken i s) f)
    (hf : ∀ p, (f p).park = p.park ∧ (f p).divs = p.divs ∧ (f p).outst = p.outst) : CompletesWith i s f := by
  unfold CompletesWith Completes
  rw [hx, issue_ready h body (by rw [hb]; exact done_calm h hf), hb]
  rfl

theorem wrG_calm (r : Fin 32) (x : Word) (p : Spoke) :
    (p.wrG r x).park = p.park ∧ (p.wrG r x).divs = p.divs ∧ (p.wrG r x).outst = p.outst := by
  unfold Spoke.wrG; split <;> exact ⟨rfl, rfl, rfl⟩

/-- An instruction whose meaning writes a general register does so when it is ready. -/
theorem writes_doneG {i : Instr} {s : State} (h : Ready i s) {body : State → Ending} {r : Fin 32} {x : Word}
    (hx : exec i s = .next (issue i s body)) (hb : body (taken i s) = doneG (taken i s) r x) : Writes i s r x :=
  completes_doneP h hx hb fun p => wrG_calm r x p

end Sys2Proof
end

