-- ==== Sys2Proof/Laws/Mems.lean ====
section
/-! SUPPORT. What every shared operation leaves of the five memories: their canonical form (`memsOk`). For an operation `f`, `f_memsOk` says that the form holds after it when it holds before. Provers cite these and unfold no operation. -/

namespace Sys2Proof.Machine

/-- The memories of a state, one by one. -/
theorem memsOk_iff (s : State) : memsOk s = true ↔ memWf s.hbm = true ∧ memWf s.host = true ∧ memWf s.peer = true ∧ memWf s.scr = true ∧ memWf s.tb = true := by
  simp [memsOk, and_assoc]

/-- A state with the same five memories. -/
theorem memsOk_same {s t : State} (h : memsOk s = true) (h1 : t.hbm = s.hbm) (h2 : t.host = s.host) (h3 : t.peer = s.peer) (h4 : t.scr = s.scr)
    (h5 : t.tb = s.tb) : memsOk t = true := by simpa only [memsOk, h1, h2, h3, h4, h5] using h

/-- Folds the form of the five memories of one state. -/
@[simp] theorem memsOk_fold (s : State) : (memWf s.hbm && memWf s.host && memWf s.peer && memWf s.scr && memWf s.tb) = memsOk s := rfl

section
variable {s : State} (h : memsOk s = true)
include h
@[simp] theorem memsOk_hbm : memWf s.hbm = true := ((memsOk_iff s).1 h).1
@[simp] theorem memsOk_host : memWf s.host = true := ((memsOk_iff s).1 h).2.1
@[simp] theorem memsOk_peer : memWf s.peer = true := ((memsOk_iff s).1 h).2.2.1
@[simp] theorem memsOk_scr : memWf s.scr = true := ((memsOk_iff s).1 h).2.2.2.1
@[simp] theorem memsOk_tb : memWf s.tb = true := ((memsOk_iff s).1 h).2.2.2.2
end

/-- The form of a state that is written out. -/
@[simp] theorem memsOk_mk (cc refTimer refWas refRem clk d3hot power tick agenda cur lastCore nextId cores saved savedImg images orphans cycles soft halves rcache latches
    recs cmds pubs tgrps paneReqs barArrs mesh waiters grps pops queues pkts graphs lastQ engines leaseReqs links binds ended fns ringTurn invals
    ats cxl ctrl msix notices hbm host peer scr full tb) :
    memsOk ⟨cc, refTimer, refWas, refRem, clk, d3hot, power, tick, agenda, cur, lastCore, nextId, cores, saved, savedImg, images, orphans, cycles, soft, halves,
      rcache, latches, recs, cmds, pubs, tgrps, paneReqs, barArrs, mesh, waiters, grps, pops, queues, pkts, graphs, lastQ, engines,
      leaseReqs, links, binds, ended, fns, ringTurn, invals, ats, cxl, ctrl, msix, notices, hbm, host, peer, scr, full, tb⟩ = (memWf hbm && memWf host && memWf peer && memWf scr && memWf tb) := rfl

theorem foldl_memsOk {β : Type} {f : State → β → State} (l : List β) (hf : ∀ s x, memsOk s = true → memsOk (f s x) = true) {s : State} (h : memsOk s = true) :
    memsOk (l.foldl f s) = true := by
  induction l generalizing s with
  | nil => exact h
  | cons x l ih => exact ih (hf _ _ h)

/-- The state of a pair that is known. -/
theorem memsOk_pair {β : Type} {p : State × β} {t : State} {x : β} (e : p = (t, x)) (h : memsOk p.1 = true) : memsOk t = true := by subst e; exact h

/-! Base. -/

@[simp] theorem setHalf_memsOk {s : State} (h : memsOk s = true) (i : Nat) (x : Half) : memsOk (setHalf s i x) = true := by
  unfold setHalf
  repeat' first | with_reducible assumption | simp only [memsOk_mk, memsOk_fold]
@[simp] theorem setCore_memsOk {s : State} (h : memsOk s = true) (c : Nat) (x : Core) : memsOk (setCore s c x) = true := by
  unfold setCore
  repeat' first | with_reducible exact h | simp only [memsOk_mk, memsOk_fold]
@[simp] theorem setCtx_memsOk {s : State} (h : memsOk s = true) (c v : Nat) (x : CoreCtx) : memsOk (setCtx s c v x) = true := by
  unfold setCtx
  repeat' first | with_reducible exact h | with_reducible apply setCore_memsOk | split | simp only [memsOk_mk, memsOk_fold]
@[simp] theorem setSp_memsOk {s : State} (h : memsOk s = true) (c n v : Nat) (x : Spoke) : memsOk (setSp s c n v x) = true := by
  unfold setSp
  repeat' first | with_reducible exact h | with_reducible apply setCore_memsOk | with_reducible apply setCtx_memsOk | split
@[simp] theorem modSp_memsOk {s : State} (h : memsOk s = true) (c n v : Nat) (f : Spoke → Spoke) : memsOk (modSp s c n v f) = true := by
  unfold modSp
  repeat' first | with_reducible exact h | with_reducible apply setSp_memsOk
@[simp] theorem modCtx_memsOk {s : State} (h : memsOk s = true) (c v : Nat) (f : CoreCtx → CoreCtx) : memsOk (modCtx s c v f) = true := by
  unfold modCtx
  repeat' first | with_reducible exact h | with_reducible apply setCtx_memsOk
@[simp] theorem modCore_memsOk {s : State} (h : memsOk s = true) (c : Nat) (f : Core → Core) : memsOk (modCore s c f) = true := by
  unfold modCore
  repeat' first | with_reducible exact h | with_reducible apply setCore_memsOk
@[simp] theorem setCur_memsOk {s : State} (h : memsOk s = true) (x : Spoke) : memsOk (setCur s x) = true := by
  unfold setCur
  repeat' first | with_reducible exact h | with_reducible apply setSp_memsOk
@[simp] theorem modCur_memsOk {s : State} (h : memsOk s = true) (f : Spoke → Spoke) : memsOk (modCur s f) = true := by
  unfold modCur
  repeat' first | with_reducible exact h | with_reducible apply setCur_memsOk
@[simp] theorem bump_memsOk {s : State} (h : memsOk s = true) : memsOk (bump s) = true := by
  unfold bump
  repeat' first | with_reducible exact h | simp only [memsOk_mk, memsOk_fold]
@[simp] theorem setFn_memsOk {s : State} (h : memsOk s = true) (f : Nat) (x : Fn) : memsOk (setFn s f x) = true := by
  unfold setFn
  repeat' first | with_reducible exact h | simp only [memsOk_mk, memsOk_fold]
@[simp] theorem modFn_memsOk {s : State} (h : memsOk s = true) (f : Nat) (g : Fn → Fn) : memsOk (modFn s f g) = true := by
  unfold modFn
  repeat' first | with_reducible exact h | with_reducible apply setFn_memsOk
@[simp] theorem wrLoc_memsOk {s : State} (h : memsOk s = true) (l : Loc) (b : Byte) : memsOk (wrLoc s l b) = true := by
  unfold wrLoc; split <;> simp [h, memWf_wr]
@[simp] theorem wrN_memsOk {s : State} (h : memsOk s = true) (l : Loc) (n x : Nat) : memsOk (wrN s l n x) = true := by
  induction n generalizing s l x with
  | zero => exact h
  | succ n ih => exact ih (wrLoc_memsOk h _ _) _ _
@[simp] theorem wrList_memsOk {s : State} (h : memsOk s = true) (l : Loc) (bs : List Byte) : memsOk (wrList s l bs) = true := by
  induction bs generalizing s l with
  | nil => exact h
  | cons b r ih => exact ih (wrLoc_memsOk h _ _) _
@[simp] theorem imageWrite_memsOk {s : State} (h : memsOk s = true) (stamp off : Nat) (l : List (Loc × Nat)) : memsOk (imageWrite s stamp off l) = true := by
  induction l generalizing s off with
  | nil => exact h
  | cons x r ih => exact ih (foldl_memsOk _ (fun _ _ h => wrLoc_memsOk h _ _) h) _
@[simp] theorem setImage_memsOk {s : State} (h : memsOk s = true) (i : Nat) (x : Image) (p : Spoke) : memsOk (setImage s i x p) = true := by
  unfold setImage
  repeat' first | with_reducible exact h | with_reducible apply imageWrite_memsOk | split | simp only [memsOk_mk, memsOk_fold]
@[simp] theorem modOwner_memsOk {s : State} (h : memsOk s = true) (o : Owner) (f : Spoke → Spoke) : memsOk (modOwner s o f) = true := by
  unfold modOwner
  repeat' first | with_reducible exact h | with_reducible apply modSp_memsOk | with_reducible apply setImage_memsOk | split
@[simp] theorem fillPend_memsOk {s : State} (h : memsOk s = true) (o : Owner) (r : Fin 32) (w : Pend) (x : Word) : memsOk (fillPend s o r w x) = true := by
  unfold fillPend
  repeat' first | with_reducible exact h | with_reducible apply modOwner_memsOk
@[simp] theorem setPresent_memsOk {s : State} (h : memsOk s = true) (a : Nat) (b : Bool) : memsOk (setPresent s a b) = true := by
  unfold setPresent
  repeat' first | with_reducible exact h | simp only [memsOk_mk, memsOk_fold]

/-! Access. -/

@[simp] theorem noteTlb_memsOk {s : State} (h : memsOk s = true) (v va : Nat) (e : Word) (bits : Nat) : memsOk (noteTlb s v va e bits) = true := by
  unfold noteTlb; dsimp only
  repeat' first | with_reducible exact h | with_reducible apply modFn_memsOk | split
@[simp] theorem noteDom_memsOk {s : State} (h : memsOk s = true) (v off : Nat) : memsOk (noteDom s v off) = true := by
  unfold noteDom
  repeat' first | with_reducible exact h | with_reducible apply modFn_memsOk | split
@[simp] theorem noteRes_memsOk {s : State} (h : memsOk s = true) (v : Nat) (d : BitVec 8) (va : Word) (r : Res) : memsOk (noteRes s v d va r) = true := by
  unfold noteRes; dsimp only
  repeat' first | with_reducible exact h | with_reducible apply noteTlb_memsOk | with_reducible apply noteDom_memsOk | split

@[simp] theorem noteDescs_memsOk {s : State} (h : memsOk s = true) (v : Nat) (d : BitVec 8) : memsOk (noteDescs s v d) = true := by
  unfold noteDescs
  repeat' first | with_reducible exact h | with_reducible apply noteDom_memsOk
@[simp] theorem noteVa_memsOk {s : State} (h : memsOk s = true) (v : Nat) (d : BitVec 8) (va : Word) : memsOk (noteVa s v d va) = true := by
  unfold noteVa
  repeat' first | with_reducible exact h | with_reducible apply noteRes_memsOk | split
@[simp] theorem notePages_memsOk {s : State} (h : memsOk s = true) (v : Nat) (d : BitVec 8) (ps : List (Nat × Nat)) : memsOk (notePages s v d ps) = true :=
  foldl_memsOk _ (fun _ _ h => noteVa_memsOk h _ _ _) h

/-! Rings. -/

@[simp] theorem postDrop_memsOk {s : State} (h : memsOk s = true) (fn : Nat) (k : RingSel) (r : RingRec) : memsOk (postDrop s fn k r) = true := by
  unfold postDrop
  repeat' first | with_reducible exact h | with_reducible apply modFn_memsOk
@[simp] theorem postTerm_memsOk {s : State} (h : memsOk s = true) (v : Nat) (r : RingRec) : memsOk (postTerm s v r) = true := by
  unfold postTerm
  repeat' first | with_reducible exact h | with_reducible apply postDrop_memsOk
@[simp] theorem postDev_memsOk {s : State} (h : memsOk s = true) (r : RingRec) : memsOk (postDev s r) = true := by
  unfold postDev
  repeat' first | with_reducible exact h | with_reducible apply postDrop_memsOk
@[simp] theorem countLife_memsOk {s : State} (h : memsOk s = true) (code idx bin : Nat) : memsOk (countLife s code idx bin) = true := by
  unfold countLife
  repeat' first | with_reducible exact h | simp only [memsOk_mk, memsOk_fold]
@[simp] theorem sendMsix_memsOk {s : State} (h : memsOk s = true) (fn vec : Nat) : memsOk (sendMsix s fn vec) = true := by
  unfold sendMsix
  repeat' first | with_reducible exact h | simp only [memsOk_mk, memsOk_fold]
@[simp] theorem ringWrite_memsOk {s : State} (h : memsOk s = true) (fn : Nat) (k : RingSel) : memsOk (ringWrite s fn k) = true := by
  unfold ringWrite; dsimp only
  repeat' first
    | with_reducible exact h | with_reducible apply setFn_memsOk | with_reducible apply wrN_memsOk | with_reducible apply modCore_memsOk
    | with_reducible apply countLife_memsOk | with_reducible apply sendMsix_memsOk | split
@[simp] theorem setSlot_memsOk {s : State} (h : memsOk s = true) (c i : Nat) (w : WSlot) : memsOk (setSlot s c i w) = true := by
  unfold setSlot
  repeat' first | with_reducible exact h | with_reducible apply modCore_memsOk
theorem takeWaiter_memsOk {s : State} {c v : Nat} {who : Faulter} {e : FErr} {pc : Word} {dom : BitVec 8} {t : State × Nat} (e : takeWaiter s c v who e pc dom = some t) (h : memsOk s = true) : memsOk t.1 = true := by
  unfold takeWaiter at e; dsimp only at e
  (repeat' split at e) <;> cases e
  all_goals repeat' first | with_reducible exact h | with_reducible apply setSlot_memsOk | with_reducible apply modFn_memsOk
@[simp] theorem freeSlot_memsOk {s : State} (h : memsOk s = true) (c i : Nat) : memsOk (freeSlot s c i) = true := by
  unfold freeSlot; dsimp only
  repeat' first | with_reducible exact h | with_reducible apply setSlot_memsOk | with_reducible apply modFn_memsOk | split
@[simp] theorem leaveSlots_memsOk {s : State} (h : memsOk s = true) (c : Nat) (drop : Waiter → Waiter) : memsOk (leaveSlots s c drop) = true := by
  unfold leaveSlots; dsimp only
  repeat' first
    | with_reducible assumption | with_reducible apply freeSlot_memsOk | with_reducible apply setSlot_memsOk
    | with_reducible refine foldl_memsOk _ (fun _ _ _ => ?_) ?_ | split
@[simp] theorem leaveOwner_memsOk {s : State} (h : memsOk s = true) (o : Owner) : memsOk (leaveOwner s o) = true := by
  unfold leaveOwner
  repeat' first | with_reducible assumption | with_reducible apply leaveSlots_memsOk | with_reducible refine foldl_memsOk _ (fun _ _ _ => ?_) ?_
@[simp] theorem leaveCmd_memsOk {s : State} (h : memsOk s = true) (c id : Nat) : memsOk (leaveCmd s c id) = true := by
  unfold leaveCmd
  repeat' first | with_reducible exact h | with_reducible apply leaveSlots_memsOk

/-! Banks. -/

@[simp] theorem releaseBank_memsOk {s : State} (h : memsOk s = true) (w : BankWaiter) (x : Word) : memsOk (releaseBank s w x) = true := by
  unfold releaseBank
  repeat' first | with_reducible exact h | with_reducible apply modOwner_memsOk
@[simp] theorem fillWord_memsOk {s : State} (h : memsOk s = true) (a : Nat) : memsOk (fillWord s a) = true := by
  unfold fillWord
  repeat' first
    | with_reducible assumption | with_reducible apply setPresent_memsOk | with_reducible apply releaseBank_memsOk
    | with_reducible refine foldl_memsOk _ (fun _ _ _ => ?_) ?_ | simp only [memsOk_mk, memsOk_fold]
@[simp] theorem storeF_memsOk {s : State} (h : memsOk s = true) (a x : Nat) : memsOk (storeF s a x) = true := by
  unfold storeF
  repeat' first | with_reducible exact h | with_reducible apply fillWord_memsOk | with_reducible apply wrN_memsOk
@[simp] theorem setQ_memsOk {s : State} (h : memsOk s = true) (v q : Nat) (x : QueueSt) : memsOk (setQ s v q x) = true := by
  unfold setQ
  repeat' first | with_reducible exact h | simp only [memsOk_mk, memsOk_fold]
@[simp] theorem setQWord_memsOk {s : State} (h : memsOk s = true) (a i : Nat) (x : Word) : memsOk (setQWord s a i x) = true := by
  unfold setQWord
  repeat' first | with_reducible exact h | with_reducible apply wrN_memsOk
@[simp] theorem queueErr_memsOk {s : State} (h : memsOk s = true) (v q code : Nat) (stops : Bool) : memsOk (queueErr s v q code stops) = true := by
  unfold queueErr
  repeat' first | with_reducible exact h | with_reducible apply setQWord_memsOk | split
@[simp] theorem dropKick_memsOk {s : State} (h : memsOk s = true) (fn : Nat) : memsOk (dropKick s fn) = true := by
  unfold dropKick
  repeat' first | with_reducible exact h | with_reducible apply modFn_memsOk
@[simp] theorem regErr_memsOk {s : State} (h : memsOk s = true) (fn : Nat) : memsOk (regErr s fn) = true := by
  unfold regErr
  repeat' first | with_reducible exact h | with_reducible apply modFn_memsOk
@[simp] theorem kickRise_memsOk {s : State} (h : memsOk s = true) (v q a : Nat) : memsOk (kickRise s v q a).1 = true := by
  unfold kickRise; dsimp only
  repeat' first
    | with_reducible exact h | with_reducible apply setQWord_memsOk | with_reducible apply setQ_memsOk
    | with_reducible apply queueErr_memsOk | split
@[simp] theorem wakeQueue_memsOk {s : State} (h : memsOk s = true) : memsOk (wakeQueue s) = true := by
  unfold wakeQueue
  repeat' first | with_reducible exact h | with_reducible apply setQ_memsOk | split
@[simp] theorem kick_memsOk {s : State} (h : memsOk s = true) (fn off width : Nat) (w : Word) : memsOk (kick s fn off width w) = true := by
  unfold kick; dsimp only
  repeat' first
    | with_reducible exact h | with_reducible apply regErr_memsOk | with_reducible apply dropKick_memsOk
    | with_reducible apply setQ_memsOk | with_reducible apply kickRise_memsOk | with_reducible apply queueErr_memsOk
    | with_reducible apply setQWord_memsOk | with_reducible apply wakeQueue_memsOk | split
@[simp] theorem rdrop_memsOk {s : State} (h : memsOk s = true) (t : Nat) (p : RLine → Bool) : memsOk (rdrop s t p) = true := by
  unfold rdrop
  repeat' first | with_reducible exact h | simp only [memsOk_mk, memsOk_fold]
@[simp] theorem rhold_memsOk {s : State} (h : memsOk s = true) (t v : Nat) (l : Loc) (x : Line) : memsOk (rhold s t v l x) = true := by
  unfold rhold
  repeat' first | with_reducible exact h | simp only [memsOk_mk, memsOk_fold]
@[simp] theorem rcLine_memsOk {s : State} (h : memsOk s = true) (t v : Nat) (l : Loc) : memsOk (rcLine s t v l).1 = true := by
  unfold rcLine
  repeat' first | with_reducible exact h | with_reducible apply rdrop_memsOk | with_reducible apply rhold_memsOk | split
@[simp] theorem putElem_memsOk {s : State} (h : memsOk s = true) (n : Nat) (x : LaneAcc) : memsOk (putElem s n x) = true := by
  unfold putElem
  repeat' first | with_reducible exact h | with_reducible apply kick_memsOk | with_reducible apply wrN_memsOk | split
@[simp] theorem getElem1_memsOk {s : State} (h : memsOk s = true) (tile v n : Nat) (ro : Bool) (l : Loc) : memsOk (getElem1 s tile v n ro l).1 = true := by
  unfold getElem1
  repeat' first | with_reducible exact h | with_reducible apply rcLine_memsOk | split
@[simp] theorem getLanes_memsOk {s : State} (h : memsOk s = true) (tile vf : Nat) (l : List LaneAcc) : memsOk (getLanes tile vf s l).1 = true := by
  induction l generalizing s with
  | nil => exact h
  | cons x r ih => exact ih (getElem1_memsOk h _ _ _ _ _)
@[simp] theorem fillReq_memsOk {s : State} (h : memsOk s = true) (o : Owner) (r : Req) (d : Fin 32) (x : Word) : memsOk (fillReq s o r d x) = true := by
  unfold fillReq
  repeat' first | with_reducible exact h | with_reducible apply modOwner_memsOk
@[simp] theorem perform_memsOk {s : State} (h : memsOk s = true) (o : Owner) (r : Req) : memsOk (perform s o r) = true := by
  unfold perform
  repeat' first
    | with_reducible assumption | with_reducible apply modOwner_memsOk | with_reducible apply getElem1_memsOk
    | with_reducible apply fillReq_memsOk | with_reducible apply putElem_memsOk | with_reducible apply wrN_memsOk
    | with_reducible apply getLanes_memsOk | with_reducible refine foldl_memsOk _ (fun _ _ _ => ?_) ?_ | split
@[simp] theorem performAll_memsOk {s : State} (h : memsOk s = true) (o : Owner) (rs : List Req) : memsOk (performAll s o rs) = true := by
  unfold performAll
  repeat' first | with_reducible assumption | with_reducible apply perform_memsOk | with_reducible refine foldl_memsOk _ (fun _ _ _ => ?_) ?_ | split
@[simp] theorem flushMeets_memsOk {s : State} (h : memsOk s = true) (o : Owner) (before : Req → Bool) (l : Loc) (n : Nat) : memsOk (flushMeets s o before l n) = true := by
  unfold flushMeets
  repeat' first | with_reducible exact h | with_reducible apply performAll_memsOk
@[simp] theorem flushBefore_memsOk {s : State} (h : memsOk s = true) (o : Owner) (r : Req) (ps : List (Loc × Nat)) : memsOk (flushBefore s o r ps) = true := by
  unfold flushBefore
  repeat' first | with_reducible exact h | with_reducible apply performAll_memsOk
@[simp] theorem performInOrder_memsOk {s : State} (h : memsOk s = true) (o : Owner) (r : Req) : memsOk (performInOrder s o r) = true := by
  unfold performInOrder
  repeat' first | with_reducible exact h | with_reducible apply perform_memsOk | with_reducible apply flushBefore_memsOk
@[simp] theorem performLane_memsOk {s : State} (h : memsOk s = true) (o : Owner) (r : Req) (k : Nat) : memsOk (performLane s o r k) = true := by
  unfold performLane; dsimp only
  repeat' first
    | with_reducible exact h | with_reducible apply flushBefore_memsOk | with_reducible apply modOwner_memsOk
    | with_reducible apply getElem1_memsOk | with_reducible apply perform_memsOk | with_reducible apply putElem_memsOk | split
@[simp] theorem flushAll_memsOk {s : State} (h : memsOk s = true) (o : Owner) : memsOk (flushAll s o) = true := by
  unfold flushAll
  repeat' first | with_reducible exact h | with_reducible apply performAll_memsOk
@[simp] theorem flushEnd_memsOk {s : State} (h : memsOk s = true) (o : Owner) : memsOk (flushEnd s o) = true := by
  unfold flushEnd
  repeat' first
    | with_reducible exact h | with_reducible apply modOwner_memsOk | with_reducible apply performAll_memsOk | split
    | simp only [memsOk_mk, memsOk_fold]
@[simp] theorem performOrphan_memsOk {s : State} (h : memsOk s = true) (i : Nat) : memsOk (performOrphan s i) = true := by
  unfold performOrphan
  repeat' first
    | with_reducible assumption | with_reducible apply perform_memsOk | with_reducible refine foldl_memsOk _ (fun _ _ _ => ?_) ?_ | split
    | simp only [memsOk_mk, memsOk_fold]
@[simp] theorem flushOrphans_memsOk {s : State} (h : memsOk s = true) (p : Orphan → Bool) : memsOk (flushOrphans s p) = true := by
  unfold flushOrphans
  repeat' first
    | with_reducible assumption | with_reducible apply perform_memsOk | with_reducible refine foldl_memsOk _ (fun _ _ _ => ?_) ?_
    | simp only [memsOk_mk, memsOk_fold]
@[simp] theorem releaseAt_memsOk {s : State} (h : memsOk s = true) (l : Loc) (x : Word) (p : BankWait → Bool) : memsOk (releaseAt s l x p) = true := by
  unfold releaseAt
  repeat' first
    | with_reducible assumption | with_reducible apply releaseBank_memsOk | with_reducible refine foldl_memsOk _ (fun _ _ _ => ?_) ?_
    | simp only [memsOk_mk, memsOk_fold]
@[simp] theorem signalled_memsOk {s : State} (h : memsOk s = true) (l : Loc) : memsOk (signalled s l) = true := by
  unfold signalled
  repeat' first | with_reducible exact h | simp only [memsOk_mk, memsOk_fold]
@[simp] theorem semAdd_memsOk {s : State} (h : memsOk s = true) (l : Loc) (d : Int) : memsOk (semAdd s l d).1 = true := by
  unfold semAdd
  repeat' first
    | with_reducible exact h | with_reducible apply signalled_memsOk | with_reducible apply wrN_memsOk
    | with_reducible apply releaseAt_memsOk
theorem tlSet_memsOk {s : State} {l : Loc} {x : Word} {t : State} (e : tlSet s l x = .ok t) (h : memsOk s = true) : memsOk t = true := by
  unfold tlSet at e; dsimp only at e
  (repeat' split at e) <;> cases e
  all_goals repeat' first
    | with_reducible exact h | with_reducible apply releaseAt_memsOk | with_reducible apply signalled_memsOk
    | with_reducible apply wrN_memsOk
@[simp] theorem barArrive_memsOk {s : State} (h : memsOk s = true) (l : Loc) (bytes : Nat) : memsOk (barArrive s l bytes) = true := by
  unfold barArrive; dsimp only
  repeat' first | with_reducible exact h | with_reducible apply releaseAt_memsOk | with_reducible apply wrN_memsOk | split
@[simp] theorem mapSpokes_memsOk {s : State} (h : memsOk s = true) (v : Nat) (f : Spoke → Spoke) : memsOk (mapSpokes s v f) = true := by
  unfold mapSpokes
  repeat' first
    | with_reducible assumption | with_reducible apply setImage_memsOk | with_reducible refine foldl_memsOk _ (fun _ _ _ => ?_) ?_
    | split | simp only [memsOk_mk, memsOk_fold]
@[simp] theorem tryFlip_memsOk {s : State} (h : memsOk s = true) (v tag g : Nat) : memsOk (tryFlip s v tag g) = true := by
  unfold tryFlip
  repeat' first | with_reducible exact h | with_reducible apply mapSpokes_memsOk | split | simp only [memsOk_mk, memsOk_fold]
@[simp] theorem flips_memsOk {s : State} (h : memsOk s = true) (v tag g : Nat) : memsOk (flips s v tag g) = true := by
  unfold flips
  repeat' first | with_reducible exact h | with_reducible apply tryFlip_memsOk
@[simp] theorem grpArrive_memsOk {s : State} (h : memsOk s = true) (v tag g : Nat) : memsOk (grpArrive s v tag g) = true := by
  unfold grpArrive
  repeat' first | with_reducible exact h | with_reducible apply flips_memsOk | simp only [memsOk_mk, memsOk_fold]
@[simp] theorem grpLeave_memsOk {s : State} (h : memsOk s = true) (v tag g : Nat) (arrived : Bool) : memsOk (grpLeave s v tag g arrived) = true := by
  unfold grpLeave
  repeat' first | with_reducible exact h | with_reducible apply flips_memsOk | simp only [memsOk_mk, memsOk_fold]
@[simp] theorem sendMsg_memsOk {s : State} (h : memsOk s = true) (m : Msg) : memsOk (sendMsg s m) = true := by
  unfold sendMsg
  repeat' first | with_reducible exact h | with_reducible apply bump_memsOk | simp only [memsOk_mk, memsOk_fold]
@[simp] theorem dropMsgs_memsOk {s : State} (h : memsOk s = true) (c n : Nat) : memsOk (dropMsgs s c n) = true := by
  unfold dropMsgs
  repeat' first | with_reducible exact h | with_reducible apply modCore_memsOk
@[simp] theorem deliver_memsOk {s : State} (h : memsOk s = true) (v : Nat) (m : Msg) : memsOk (deliver s v m) = true := by
  unfold deliver
  repeat' first | with_reducible exact h | with_reducible apply modSp_memsOk
@[simp] theorem alarm_memsOk {s : State} (h : memsOk s = true) (c v occ : Nat) : memsOk (alarm s c v occ) = true := by
  unfold alarm
  repeat' first | with_reducible exact h | with_reducible apply storeF_memsOk | split | simp only [memsOk_mk, memsOk_fold]
@[simp] theorem savePut_memsOk {s : State} (h : memsOk s = true) (stamp a k : Nat) : memsOk (savePut s stamp a k) = true := by
  simp [savePut, h, memWf_fillMem]
@[simp] theorem saveAt_memsOk {s : State} (h : memsOk s = true) (v i k a : Nat) : memsOk (saveAt s v i k a) = true := by
  unfold saveAt; dsimp only
  repeat' first | with_reducible exact h | with_reducible apply savePut_memsOk | with_reducible apply bump_memsOk | simp only [memsOk_mk, memsOk_fold]
@[simp] theorem saveSlot_memsOk {s : State} (h : memsOk s = true) (v i k : Nat) : memsOk (saveSlot s v i k) = true := by
  unfold saveSlot
  repeat' first | with_reducible exact h | with_reducible apply saveAt_memsOk | split
@[simp] theorem makeRoom_memsOk {s : State} (h : memsOk s = true) (c n v : Nat) : memsOk (makeRoom s c n v) = true := by
  unfold makeRoom
  repeat' first
    | with_reducible assumption | with_reducible apply saveSlot_memsOk | with_reducible refine foldl_memsOk _ (fun _ _ _ => ?_) ?_ | split
@[simp] theorem occupy_memsOk {s : State} (h : memsOk s = true) (c n v : Nat) (p : Spoke) : memsOk (occupy s c n v p) = true := by
  unfold occupy
  repeat' first | with_reducible exact h | with_reducible apply setSp_memsOk | with_reducible apply makeRoom_memsOk
@[simp] theorem touchSave_memsOk {s : State} (h : memsOk s = true) (c v : Nat) : memsOk (touchSave s c v) = true := by
  unfold touchSave
  repeat' first
    | with_reducible exact h | with_reducible apply saveAt_memsOk | split
@[simp] theorem inboxTake_memsOk {s : State} (h : memsOk s = true) (c v : Nat) (m : Msg) : memsOk (inboxTake s c v m) = true := by
  unfold inboxTake; dsimp only
  repeat' first
    | with_reducible exact h | with_reducible apply deliver_memsOk | with_reducible apply touchSave_memsOk | with_reducible apply alarm_memsOk
    | with_reducible apply setCtx_memsOk | split
@[simp] theorem inboxArrive_memsOk {s : State} (h : memsOk s = true) (m : Msg) : memsOk (inboxArrive s m) = true := by
  unfold inboxArrive; dsimp only
  repeat' first
    | with_reducible exact h | with_reducible apply dropMsgs_memsOk | with_reducible apply setCtx_memsOk
    | with_reducible apply inboxTake_memsOk | split
@[simp] theorem dropHeld_memsOk {s : State} (h : memsOk s = true) (c n v : Nat) : memsOk (dropHeld s c n v) = true := by
  unfold dropHeld
  repeat' first | with_reducible exact h | with_reducible apply dropMsgs_memsOk | with_reducible apply setCtx_memsOk

/-! Panes. -/

@[simp] theorem publish_memsOk {s : State} (h : memsOk s = true) (o : Mem) : memsOk (publish s o) = true := by
  unfold publish
  repeat' first | with_reducible assumption | with_reducible apply wrLoc_memsOk | with_reducible refine foldl_memsOk _ (fun _ _ _ => ?_) ?_
@[simp] theorem setCmd_memsOk {s : State} (h : memsOk s = true) (c : Cmd) : memsOk (setCmd s c) = true := by
  unfold setCmd
  repeat' first | with_reducible exact h | simp only [memsOk_mk, memsOk_fold]
@[simp] theorem delCmd_memsOk {s : State} (h : memsOk s = true) (id : Nat) : memsOk (delCmd s id) = true := by
  unfold delCmd
  repeat' first | with_reducible exact h | simp only [memsOk_mk, memsOk_fold]
@[simp] theorem settlePanes_memsOk {s : State} (h : memsOk s = true) (c : Cmd) : memsOk (settlePanes s c).1 = true := by
  unfold settlePanes
  repeat' first | with_reducible exact h | split | simp only [memsOk_mk, memsOk_fold]
@[simp] theorem serveTag_memsOk {s : State} (h : memsOk s = true) (c v n : Nat) : memsOk (serveTag s c v n) = true := by
  unfold serveTag; dsimp only
  repeat' first | with_reducible exact h | with_reducible apply modSp_memsOk | with_reducible apply setCtx_memsOk | split
@[simp] theorem serveTags_memsOk {s : State} (h : memsOk s = true) (c v : Nat) : memsOk (serveTags s c v) = true := by
  unfold serveTags
  repeat' first | with_reducible assumption | with_reducible apply serveTag_memsOk | with_reducible refine foldl_memsOk _ (fun _ _ _ => ?_) ?_
@[simp] theorem chanDone_memsOk {s : State} (h : memsOk s = true) (c : Cmd) (bad : Bool) : memsOk (chanDone s c bad) = true := by
  unfold chanDone
  repeat' first | with_reducible exact h | with_reducible apply modCtx_memsOk | with_reducible apply serveTags_memsOk
@[simp] theorem chanRecord_memsOk {s : State} (h : memsOk s = true) (c : Cmd) (code : Nat) (va : Word) (acc : Nat) : memsOk (chanRecord s c code va acc) = true := by
  unfold chanRecord
  repeat' first | with_reducible exact h | with_reducible apply postTerm_memsOk
@[simp] theorem report_memsOk {s : State} (h : memsOk s = true) (c : Cmd) (w : Word) (bad : Option FaultCode) : memsOk (report s c w bad) = true := by
  unfold report
  repeat' first | with_reducible exact h | with_reducible apply fillPend_memsOk | with_reducible apply modOwner_memsOk | split
@[simp] theorem engStore_memsOk {s : State} (h : memsOk s = true) (l : Loc) (b : Byte) : memsOk (engStore s l b) = true := by
  unfold engStore
  repeat' first | with_reducible exact h | with_reducible apply kick_memsOk | with_reducible apply wrLoc_memsOk | split
@[simp] theorem drainOut_memsOk {s : State} (h : memsOk s = true) (c : Cmd) : memsOk (drainOut s c) = true := by
  unfold drainOut
  repeat' first | with_reducible assumption | with_reducible apply engStore_memsOk | with_reducible refine foldl_memsOk _ (fun _ _ _ => ?_) ?_
@[simp] theorem drainOne_memsOk {s : State} (h : memsOk s = true) (c : Cmd) (k : Nat) : memsOk (drainOne s c k) = true := by
  unfold drainOne
  repeat' first | with_reducible exact h | with_reducible apply setCmd_memsOk | with_reducible apply engStore_memsOk | split
@[simp] theorem giveKeep_memsOk {s : State} (h : memsOk s = true) (o : Owner) (g : Nat) (ks : List Snap) : memsOk (giveKeep s o g ks) = true := by
  unfold giveKeep
  repeat' first | with_reducible exact h | with_reducible apply setCmd_memsOk | with_reducible apply modOwner_memsOk | split
@[simp] theorem finish_memsOk {s : State} (h : memsOk s = true) (c : Cmd) (w : Word) (bad : Option FaultCode) : memsOk (finish s c w bad) = true := by
  unfold finish
  repeat' first
    | with_reducible exact h | with_reducible apply drainOut_memsOk | with_reducible apply settlePanes_memsOk
    | with_reducible apply delCmd_memsOk | with_reducible apply publish_memsOk | with_reducible apply modOwner_memsOk
    | with_reducible apply report_memsOk | with_reducible apply giveKeep_memsOk | split
@[simp] theorem finishCopy_memsOk {s : State} (h : memsOk s = true) (c : Cmd) (bad : Option FaultCode) (bytes : Nat) (barLoc : Option Loc) : memsOk (finishCopy s c bad bytes barLoc) = true := by
  unfold finishCopy
  repeat' first
    | with_reducible exact h | with_reducible apply drainOut_memsOk | with_reducible apply settlePanes_memsOk
    | with_reducible apply delCmd_memsOk | with_reducible apply publish_memsOk | with_reducible apply modOwner_memsOk
    | with_reducible apply chanDone_memsOk | with_reducible apply chanRecord_memsOk | split | simp only [memsOk_mk, memsOk_fold]

/-! EngDispatch. -/

@[simp] theorem noteRec_memsOk {s : State} (h : memsOk s = true) (c : Cmd) : memsOk (noteRec s c) = true := by
  unfold noteRec
  repeat' first | with_reducible exact h | split | simp only [memsOk_mk, memsOk_fold]
@[simp] theorem resetRec_memsOk {s : State} (h : memsOk s = true) (c : Cmd) : memsOk (resetRec s c) = true := by
  unfold resetRec
  repeat' first | with_reducible assumption | with_reducible refine foldl_memsOk _ (fun _ _ _ => ?_) ?_ | split | simp only [memsOk_mk, memsOk_fold]
@[simp] theorem takeSlot_memsOk {s : State} (h : memsOk s = true) (c : Cmd) : memsOk (takeSlot s c) = true := by
  unfold takeSlot
  repeat' first
    | with_reducible exact h | with_reducible apply fillPend_memsOk | with_reducible apply setCmd_memsOk
    | with_reducible apply setCtx_memsOk
@[simp] theorem unhold_memsOk {s : State} (h : memsOk s = true) (c : Cmd) : memsOk (unhold s c) = true := by
  unfold unhold
  repeat' first | with_reducible exact h | with_reducible apply modOwner_memsOk
@[simp] theorem enter_memsOk {s : State} (h : memsOk s = true) (c : Cmd) : memsOk (enter s c) = true := by
  unfold enter
  repeat' first
    | with_reducible exact h | with_reducible apply modOwner_memsOk | with_reducible apply noteRec_memsOk
    | with_reducible apply takeSlot_memsOk | split | simp only [memsOk_mk, memsOk_fold]
@[simp] theorem failReg_memsOk {s : State} (h : memsOk s = true) (c : Cmd) (code : FaultCode) : memsOk (failReg s c code) = true := by
  unfold failReg
  repeat' first
    | with_reducible exact h | with_reducible apply unhold_memsOk | with_reducible apply fillPend_memsOk
    | with_reducible apply modOwner_memsOk | split
@[simp] theorem waitAt_memsOk {s : State} (h : memsOk s = true) (c : Cmd) (st : CmdSt) : memsOk (waitAt s c st) = true := by
  unfold waitAt
  repeat' first | with_reducible exact h | simp only [memsOk_mk, memsOk_fold]
@[simp] theorem pageWait_memsOk {s : State} (h : memsOk s = true) (c0 : Cmd) (e : FErr) : memsOk (pageWait s c0 e) = true := by
  unfold pageWait; dsimp only
  repeat' first | with_reducible exact h | refine takeWaiter_memsOk (t := (_, _)) (by assumption) ?_ | with_reducible apply waitAt_memsOk | split
@[simp] theorem failLate_memsOk {s : State} (h : memsOk s = true) (c : Cmd) (code : FaultCode) (va : Word) (acc : Nat) : memsOk (failLate s c code va acc) = true := by
  unfold failLate
  repeat' first | with_reducible exact h | with_reducible apply report_memsOk | with_reducible apply unhold_memsOk

@[simp] theorem noteOpnds_memsOk {s : State} (h : memsOk s = true) (c : Cmd) : memsOk (noteOpnds s c) = true := by
  unfold noteOpnds
  repeat' first | with_reducible exact h | with_reducible apply notePages_memsOk | with_reducible apply noteDescs_memsOk
@[simp] theorem setBack_memsOk {s : State} (h : memsOk s = true) (eng : Nat) (b : Bool) : memsOk (setBack s eng b) = true := by
  unfold setBack
  repeat' first | with_reducible exact h | simp only [memsOk_mk, memsOk_fold]

/-! Trowel. -/

@[simp] theorem stopCmd_memsOk {s : State} (h : memsOk s = true) (id : Nat) : memsOk (stopCmd s id) = true := by
  unfold stopCmd
  repeat' first | with_reducible exact h | with_reducible apply leaveCmd_memsOk | with_reducible apply delCmd_memsOk | split
@[simp] theorem replay_memsOk {s : State} (h : memsOk s = true) (l : List Cmd) : memsOk (replay s l) = true := by
  induction l generalizing s with
  | nil => exact h
  | cons c r ih =>
    unfold replay; split
    · exact ih (enter_memsOk h _)
    · exact ih (failLate_memsOk h _ _ _ _)
    · exact ih (failLate_memsOk h _ _ _ _)
    · exact foldl_memsOk _ (fun _ _ h => waitAt_memsOk h _ _) (pageWait_memsOk h _ _)
@[simp] theorem replayAt_memsOk {s : State} (h : memsOk s = true) (pre post cs : List Cmd) : memsOk (replayAt s pre post cs) = true := by
  unfold replayAt
  repeat' first | with_reducible exact h | with_reducible apply replay_memsOk | simp only [memsOk_mk, memsOk_fold]
@[simp] theorem unRec_memsOk {s : State} (h : memsOk s = true) (pre : List Cmd) (t : TrGrp) : memsOk (unRec s pre t) = true := by
  unfold unRec
  repeat' first | with_reducible exact h | simp only [memsOk_mk, memsOk_fold]
@[simp] theorem abandon_memsOk {s : State} (h : memsOk s = true) (g : Nat) (again : Bool) : memsOk (abandon s g again) = true := by
  unfold abandon
  repeat' first
    | with_reducible assumption | with_reducible apply leaveCmd_memsOk | with_reducible apply unRec_memsOk
    | with_reducible apply modOwner_memsOk | with_reducible apply replayAt_memsOk | with_reducible apply unhold_memsOk | with_reducible apply giveKeep_memsOk
    | with_reducible refine foldl_memsOk _ (fun _ _ _ => ?_) ?_ | split | simp only [memsOk_mk, memsOk_fold]
@[simp] theorem enterGroup_memsOk {s : State} (h : memsOk s = true) (g : Nat) (l : List Cmd) : memsOk (enterGroup s g l) = true := by
  induction l generalizing s with
  | nil => exact h
  | cons c r ih =>
    unfold enterGroup; split
    · exact ih (enter_memsOk h _)
    · exact abandon_memsOk h _ _
@[simp] theorem numberCmds_memsOk {s : State} (h : memsOk s = true) (g po : Nat) (l : List Cmd) : memsOk (numberCmds s g po l).1 = true := by
  induction l generalizing s with
  | nil => exact h
  | cons c r ih => exact ih (bump_memsOk h)
@[simp] theorem dispatchGroup_memsOk {s : State} (h : memsOk s = true) (k : Nat) (w cs : List Cmd) : memsOk (dispatchGroup s k w cs) = true := by
  unfold dispatchGroup
  repeat' first
    | with_reducible assumption | with_reducible apply modOwner_memsOk | with_reducible apply bump_memsOk
    | with_reducible apply numberCmds_memsOk | with_reducible apply enterGroup_memsOk
    | with_reducible refine foldl_memsOk _ (fun _ _ _ => ?_) ?_ | split | simp only [memsOk_mk, memsOk_fold]
@[simp] theorem tryRules_memsOk {s : State} (h : memsOk s = true) (tab : List (Nat × BitVec 256)) (ws : List (Option Cmd)) (l : List Nat) : memsOk (tryRules s tab ws l).1 = true := by
  induction l generalizing s with
  | nil => exact h
  | cons k ks ih =>
    unfold tryRules; dsimp only
    repeat' (first | with_reducible exact h | with_reducible assumption | with_reducible apply ih | with_reducible apply modOwner_memsOk | with_reducible apply dispatchGroup_memsOk | refine foldl_memsOk _ (fun _ _ h => enter_memsOk h _) ?_ | split)
@[simp] theorem matchDispatch_memsOk (n : Nat) {s : State} (h : memsOk s = true) (l : List (Option Cmd)) : memsOk (matchDispatch n s l) = true := by
  induction n generalizing s l with
  | zero => exact h
  | succ n ih =>
    unfold matchDispatch; split
    · contradiction
    · exact h
    · rename_i q; cases q; exact ih h _
    · rename_i q; cases q; dsimp only
      repeat' first
        | with_reducible exact h | with_reducible apply ih | with_reducible apply enter_memsOk | with_reducible apply tryRules_memsOk | split
@[simp] theorem winReport_memsOk {x : State × WinFail} (h : memsOk x.1 = true) (p : Cmd × Disp) : memsOk (winReport x p).1 = true := by
  unfold winReport; dsimp only; repeat' first | with_reducible exact h | with_reducible apply failLate_memsOk | with_reducible apply failReg_memsOk | split
@[simp] theorem winReports_memsOk {x : State × WinFail} (h : memsOk x.1 = true) (l : List (Cmd × Disp)) : memsOk (l.foldl winReport x).1 = true := by
  induction l generalizing x with
  | nil => exact h
  | cons p r ih => exact ih (winReport_memsOk h _)
@[simp] theorem issFlush_memsOk {s : State} (h : memsOk s = true) (c : Cmd) : memsOk (issFlush s c) = true := by
  unfold issFlush
  repeat' first | with_reducible exact h | with_reducible apply performAll_memsOk | split
@[simp] theorem noteDisp_memsOk {s : State} (h : memsOk s = true) (p : Cmd × Disp) : memsOk (noteDisp s p) = true := by
  unfold noteDisp
  repeat' first | with_reducible exact h | with_reducible apply noteOpnds_memsOk | split
@[simp] theorem dispatchWin_memsOk {s : State} (h : memsOk s = true) (w : List Cmd) : memsOk (dispatchWin s w).1 = true := by
  unfold dispatchWin; dsimp only
  refine foldl_memsOk _ (fun _ _ h => waitAt_memsOk h _ _) (foldl_memsOk _ (fun _ _ h => ?_) (matchDispatch_memsOk _ (winReports_memsOk ?_ _) _))
  · split
    · exact pageWait_memsOk h _ _
    · exact h
  · exact foldl_memsOk _ (fun _ _ h => noteDisp_memsOk h _) (foldl_memsOk _ (fun _ _ h => issFlush_memsOk h _) h)
@[simp] theorem oweWin_memsOk {s : State} (h : memsOk s = true) (o : Owner) (f : WinFail) (rpc : Word) : memsOk (oweWin s o f rpc) = true := by
  unfold oweWin
  repeat' first | with_reducible exact h | with_reducible apply modOwner_memsOk | split
@[simp] theorem replayHeld_memsOk {s : State} (h : memsOk s = true) (o : Owner) (g : Nat) (ws : List Cmd) : memsOk (replayHeld s o g ws) = true := by
  unfold replayHeld; dsimp only
  repeat' first | with_reducible exact h | with_reducible apply giveKeep_memsOk | with_reducible apply replayAt_memsOk
@[simp] theorem redispatch_memsOk (o : Owner) (n : Nat) {s : State} (h : memsOk s = true) : memsOk (redispatch o n s) = true := by
  induction n generalizing s with
  | zero => exact h
  | succ n ih =>
    unfold redispatch; dsimp only; split
    · exact h
    · split
      · exact h
      · split
        · exact ih (replayHeld_memsOk h _ _ _)
        refine ih (oweWin_memsOk ?_ _ _ _)
        simp only [memsOk_mk, memsOk_fold]
        exact dispatchWin_memsOk (by simpa using h) _
@[simp] theorem release_memsOk {s : State} (h : memsOk s = true) (o : Owner) : memsOk (release s o) = true := by
  unfold release
  repeat' first | with_reducible exact h | with_reducible apply redispatch_memsOk
@[simp] theorem sealWin_memsOk {s : State} (h : memsOk s = true) (c n v : Nat) (rpc : Word) : memsOk (sealWin s c n v rpc) = true := by
  unfold sealWin; dsimp only
  repeat' first
    | with_reducible assumption | with_reducible apply bump_memsOk | with_reducible apply setSp_memsOk
    | with_reducible apply waitAt_memsOk | with_reducible apply dispatchWin_memsOk | with_reducible apply oweWin_memsOk
    | with_reducible refine foldl_memsOk _ (fun _ _ _ => ?_) ?_ | split
@[simp] theorem enterWin_memsOk {s : State} (h : memsOk s = true) (c n v : Nat) (cmd : Cmd) (rpc : Word) : memsOk (enterWin s c n v cmd rpc) = true := by
  unfold enterWin; dsimp only
  repeat' first | with_reducible exact h | with_reducible apply sealWin_memsOk | with_reducible apply setSp_memsOk | split

/-! Ops. -/

@[simp] theorem rdsValue_memsOk {s : State} (h : memsOk s = true) (c n v k : Nat) : memsOk (rdsValue s c n v k).2 = true := by
  unfold rdsValue
  repeat' first | with_reducible exact h | with_reducible apply setSp_memsOk | split | simp only [memsOk_mk, memsOk_fold]
theorem wrsState_memsOk {s : State} {c n v k : Nat} {w : Word} {t : State} (e : wrsState s c n v k w = .ok t) (h : memsOk s = true) : memsOk t = true := by
  unfold wrsState at e; dsimp only at e
  (repeat' split at e) <;> cases e
  all_goals repeat' first
    | with_reducible exact h | with_reducible apply modCtx_memsOk | with_reducible apply setSp_memsOk | with_reducible apply wrN_memsOk
    | with_reducible apply flushMeets_memsOk
@[simp] theorem tryStop_memsOk {s : State} (h : memsOk s = true) (c n v : Nat) : memsOk (tryStop s c n v) = true := by
  unfold tryStop; dsimp only
  repeat' first | with_reducible exact h | with_reducible apply setSp_memsOk | split
@[simp] theorem requestStop_memsOk {s : State} (h : memsOk s = true) (c n v : Nat) : memsOk (requestStop s c n v) = true := by
  unfold requestStop; dsimp only
  repeat' first
    | with_reducible exact h | with_reducible apply modCtx_memsOk | with_reducible apply tryStop_memsOk
    | with_reducible apply modSp_memsOk | split
@[simp] theorem killCmd_memsOk {s : State} (h : memsOk s = true) (c : Cmd) : memsOk (killCmd s c) = true := by
  unfold killCmd
  repeat' first
    | with_reducible exact h | with_reducible apply delCmd_memsOk | with_reducible apply leaveCmd_memsOk
    | with_reducible apply finish_memsOk | with_reducible apply resetRec_memsOk | with_reducible apply setCmd_memsOk | split
@[simp] theorem keepOrder_memsOk {s : State} (h : memsOk s = true) (o : Owner) (ids : List Nat) : memsOk (keepOrder s o ids) = true := by
  unfold keepOrder
  repeat' first | with_reducible exact h | simp only [memsOk_mk, memsOk_fold]
@[simp] theorem takeBack_memsOk {s : State} (h : memsOk s = true) (k : Park) : memsOk (takeBack s k) = true := by
  unfold takeBack
  repeat' first | with_reducible exact h | with_reducible apply setBack_memsOk | split
@[simp] theorem killOwner_memsOk {s : State} (h : memsOk s = true) (o : Owner) : memsOk (killOwner s o) = true := by
  unfold killOwner
  repeat' first
    | with_reducible assumption | with_reducible apply flushEnd_memsOk | with_reducible apply abandon_memsOk
    | with_reducible apply killCmd_memsOk | with_reducible apply leaveOwner_memsOk | with_reducible apply keepOrder_memsOk
    | with_reducible apply takeBack_memsOk
    | with_reducible refine foldl_memsOk _ (fun _ _ _ => ?_) ?_ | simp only [memsOk_mk, memsOk_fold]
@[simp] theorem sendHeld_memsOk {s : State} (h : memsOk s = true) (c n v : Nat) : memsOk (sendHeld s c n v) = true := by
  unfold sendHeld; dsimp only
  repeat' first
    | with_reducible assumption | with_reducible apply sendMsg_memsOk | with_reducible apply setSp_memsOk
    | with_reducible refine foldl_memsOk _ (fun _ _ _ => ?_) ?_ | split
@[simp] theorem heldOut_memsOk {s : State} (h : memsOk s = true) (c : Nat) : memsOk (heldOut s c) = true := by
  unfold heldOut
  repeat' first | with_reducible assumption | with_reducible apply sendHeld_memsOk | with_reducible refine foldl_memsOk _ (fun _ _ _ => ?_) ?_
@[simp] theorem endSpoke_memsOk {s : State} (h : memsOk s = true) (c n v : Nat) (f : Spoke → Spoke) : memsOk (endSpoke s c n v f) = true := by
  unfold endSpoke
  repeat' first
    | with_reducible exact h | with_reducible apply dropHeld_memsOk | with_reducible apply killOwner_memsOk
    | with_reducible apply setSp_memsOk | with_reducible apply sendHeld_memsOk
@[simp] theorem killSpoke_memsOk {s : State} (h : memsOk s = true) (c n v : Nat) : memsOk (killSpoke s c n v) = true := by
  unfold killSpoke
  repeat' first | with_reducible exact h | with_reducible apply endSpoke_memsOk
@[simp] theorem setPop_memsOk {s : State} (h : memsOk s = true) (p : Pop) : memsOk (setPop s p) = true := by
  unfold setPop
  repeat' first | with_reducible exact h | simp only [memsOk_mk, memsOk_fold]
@[simp] theorem killMembers_memsOk {s : State} (h : memsOk s = true) (v tag : Nat) : memsOk (killMembers s v tag) = true := by
  unfold killMembers
  repeat' first
    | with_reducible assumption | with_reducible apply killSpoke_memsOk | with_reducible apply killOwner_memsOk
    | with_reducible apply modCtx_memsOk | with_reducible apply setPop_memsOk | with_reducible refine foldl_memsOk _ (fun _ _ _ => ?_) ?_
    | split | simp only [memsOk_mk, memsOk_fold]
@[simp] theorem killPop_memsOk {s : State} (h : memsOk s = true) (c n v : Nat) (t : Owed) (ecode : Nat) (noVec : Bool) : memsOk (killPop s c n v t ecode noVec) = true := by
  unfold killPop; dsimp only
  repeat' first
    | with_reducible assumption | with_reducible apply requestStop_memsOk | with_reducible apply postDev_memsOk
    | with_reducible apply modSp_memsOk | with_reducible apply killMembers_memsOk | with_reducible apply postTerm_memsOk
    | with_reducible apply queueErr_memsOk | with_reducible apply endSpoke_memsOk
    | with_reducible refine foldl_memsOk _ (fun _ _ _ => ?_) ?_ | split
theorem frameStore_memsOk {s : State} {c n v : Nat} {va x : Word} {t : State} (e : frameStore s c n v va x = .ok t) (h : memsOk s = true) : memsOk t = true := by
  unfold frameStore at e; dsimp only at e
  (repeat' split at e) <;> cases e
  all_goals repeat' first
    | with_reducible exact h | with_reducible apply flushMeets_memsOk | with_reducible apply noteRes_memsOk
    | refine wrsState_memsOk (by assumption) ?_ | with_reducible apply modSp_memsOk | with_reducible apply bump_memsOk
    | with_reducible apply wrN_memsOk
@[simp] theorem storeFrame_memsOk {s : State} (h : memsOk s = true) (c n v : Nat) (a : Word) (bad : Option Nat) (l : List Word) :
    memsOk (storeFrame s c n v a bad l).1 = true := by
  induction l generalizing s a bad with
  | nil => exact h
  | cons x r ih =>
    unfold storeFrame; split
    · exact h
    · split
      · exact h
      · rename_i e; exact ih (frameStore_memsOk e h) _ _
@[simp] theorem meetSoft_memsOk {s : State} (h : memsOk s = true) : memsOk (meetSoft s) = true := by
  unfold meetSoft
  repeat' first | with_reducible exact h | with_reducible apply countLife_memsOk | split | simp only [memsOk_mk, memsOk_fold]
@[simp] theorem takeTrap_memsOk {s : State} (h : memsOk s = true) (c n v : Nat) (t : Owed) : memsOk (takeTrap s c n v t) = true := by
  unfold takeTrap; dsimp only
  repeat' first
    | with_reducible exact h | with_reducible apply meetSoft_memsOk | with_reducible apply killPop_memsOk
    | with_reducible apply storeFrame_memsOk | with_reducible apply modSp_memsOk | split
@[simp] theorem trapSealed_memsOk {s : State} (h : memsOk s = true) (c n v : Nat) (rpc : Word) (t : Owed) (later : List Owed) :
    memsOk (trapSealed s c n v rpc t later) = true := by
  unfold trapSealed; dsimp only
  repeat' first
    | with_reducible exact h | with_reducible apply sealWin_memsOk | with_reducible apply takeTrap_memsOk
    | with_reducible apply modSp_memsOk | split
@[simp] theorem deliverTrap_memsOk {s : State} (h : memsOk s = true) (c n v : Nat) (t : Owed) : memsOk (deliverTrap s c n v t) = true :=
  trapSealed_memsOk h _ _ _ _ _ _
@[simp] theorem deliverLate_memsOk {s : State} (h : memsOk s = true) (c n v : Nat) (t : Owed) : memsOk (deliverLate s c n v t) = true :=
  trapSealed_memsOk h _ _ _ _ _ _
@[simp] theorem deliverOwed_memsOk {s : State} (h : memsOk s = true) (c n v : Nat) : memsOk (deliverOwed s c n v) = true := by
  unfold deliverOwed
  repeat' first | with_reducible exact h | with_reducible apply deliverLate_memsOk | with_reducible apply modSp_memsOk | split
@[simp] theorem trapOrOwe_memsOk {s : State} (h : memsOk s = true) (c n v : Nat) (t : Owed) : memsOk (trapOrOwe s c n v t) = true := by
  unfold trapOrOwe
  repeat' first | with_reducible exact h | with_reducible apply modSp_memsOk | with_reducible apply deliverLate_memsOk | split
@[simp] theorem retryFault_memsOk {s : State} (h : memsOk s = true) (c n v : Nat) (e : FErr) (pc : Word) : memsOk (retryFault s c n v e pc) = true := by
  unfold retryFault; dsimp only
  repeat' first | with_reducible exact h | refine takeWaiter_memsOk (t := (_, _)) (by assumption) ?_ | with_reducible apply modSp_memsOk | split
@[simp] theorem getLine_memsOk {s : State} (h : memsOk s = true) (c v : Nat) (l : Loc) (err1 err2 : Line) : memsOk (getLine s c v l err1 err2).1 = true := by
  unfold getLine; dsimp only
  repeat' first
    | with_reducible exact h | with_reducible apply rcLine_memsOk | with_reducible apply rdrop_memsOk | with_reducible apply rhold_memsOk
    | with_reducible apply countLife_memsOk | split
@[simp] theorem noteFetch_memsOk {s : State} (h : memsOk s = true) (v : Nat) (pc : Word) (r : Res) : memsOk (noteFetch s v pc r) = true := by
  unfold noteFetch
  repeat' first | with_reducible exact h | with_reducible apply noteDescs_memsOk | with_reducible apply noteTlb_memsOk
@[simp] theorem noteTried_memsOk {s : State} (h : memsOk s = true) (v : Nat) (pc : Word) : memsOk (noteTried s v pc) = true := by
  unfold noteTried
  repeat' first | with_reducible exact h | with_reducible apply noteFetch_memsOk | split
@[simp] theorem readFor_memsOk {s : State} (h : memsOk s = true) (o : Owner) (c v : Nat) (a : Ahead) (err1 err2 : Line) : memsOk (readFor s o c v a err1 err2) = true := by
  have q := getLine_memsOk h c v a.loc err1 err2
  unfold readFor
  split <;> rename_i e <;> rw [e] at q <;> exact modOwner_memsOk q _ _
@[simp] theorem readAhead_memsOk {s : State} (h : memsOk s = true) (c n v : Nat) (a : Ahead) (err1 err2 : Line) : memsOk (readAhead s c n v a err1 err2) = true :=
  readFor_memsOk h _ _ _ _ _ _
@[simp] theorem askLine_memsOk {s : State} (h : memsOk s = true) (c n v : Nat) : memsOk (askLine s c n v) = true := by
  unfold askLine; dsimp only
  repeat' first
    | with_reducible exact h | with_reducible apply readAhead_memsOk | with_reducible apply modSp_memsOk | with_reducible apply noteFetch_memsOk | with_reducible apply noteTried_memsOk | split
@[simp] theorem readWanted_memsOk {s : State} (h : memsOk s = true) (c n v : Nat) (pc : Word) (r : Res) (err1 err2 : Line) :
    memsOk (readWanted s c n v pc r err1 err2).1 = true := by
  unfold readWanted
  repeat' first | with_reducible exact h | with_reducible apply getLine_memsOk | with_reducible apply noteFetch_memsOk | split

/-- The state of either outcome of entering a line keeps the form. -/
def LineOk : Except (FErr × State) State → Prop
  | .error x => memsOk x.2 = true
  | .ok t => memsOk t = true

theorem enterLine_memsOk {s : State} (h : memsOk s = true) (c n v : Nat) (pc : Word) (k : EntryKind) (a b : Line) : LineOk (enterLine s c n v pc k a b) := by
  unfold enterLine; dsimp only; split
  · exact h
  · split
    · exact h
    · rename_i r _
      have q := readWanted_memsOk h c n v pc r a b
      split <;> rename_i e <;> rw [e] at q
      · exact q
      · split
        · exact q
        · exact modSp_memsOk q _ _ _ _
@[simp] theorem enterWanted_memsOk {s : State} (h : memsOk s = true) (c n v : Nat) (k : EntryKind) (err1 err2 : Line) : memsOk (enterWanted s c n v k err1 err2) = true := by
  unfold enterWanted; extract_lets p other s0 s1
  have h1 : memsOk s1 = true := by simp only [s1, s0]; split <;> simp [h]
  clear_value s1; split
  · exact h1
  · have q := enterLine_memsOk h1 c n v p.pc k err1 err2
    split <;> rename_i e <;> rw [e] at q
    · exact q
    · have q : memsOk _ = true := modSp_memsOk q c n v fun p => { p with ahead := none }
      repeat' (first | with_reducible exact q | with_reducible apply retryFault_memsOk | with_reducible apply killPop_memsOk | with_reducible apply endSpoke_memsOk | with_reducible apply deliverTrap_memsOk | split)
@[simp] theorem needLine_memsOk {s : State} (h : memsOk s = true) (c n v : Nat) : memsOk (needLine s c n v) = true := by
  unfold needLine; dsimp only
  repeat' first
    | with_reducible exact h | with_reducible apply askLine_memsOk | with_reducible apply enterWanted_memsOk | with_reducible apply sealWin_memsOk
    | with_reducible apply modSp_memsOk | with_reducible apply deliverOwed_memsOk | split

/-- The states that an ending holds keep the form. -/
def Ending.Ok : Ending → Prop
  | .done s | .went s | .leftErr s _ => memsOk s = true
  | _ => True

/-- The state of either outcome keeps the form. -/
def EitherOk : Except State State → Prop
  | .error s | .ok s => memsOk s = true

@[simp] theorem Ending.ofErr_memsOk (e : FErr) : Ending.Ok (.ofErr e) := by unfold Ending.ofErr; split <;> trivial
@[simp] theorem Ending.fail_memsOk (f : FaultCode) : Ending.Ok (.fail f) := trivial
@[simp] theorem Ending.err_memsOk (f : FaultCode) (va : Word) (acc : Nat) : Ending.Ok (.err f va acc) := trivial
@[simp] theorem Ending.held_memsOk (k : Park) : Ending.Ok (.held k) := trivial
@[simp] theorem Ending.done_memsOk (s : State) : Ending.Ok (.done s) ↔ memsOk s = true := Iff.rfl
@[simp] theorem Ending.went_memsOk (s : State) : Ending.Ok (.went s) ↔ memsOk s = true := Iff.rfl
@[simp] theorem advance_memsOk {s : State} (h : memsOk s = true) : memsOk (advance s) = true := by
  unfold advance
  repeat' first | with_reducible exact h | with_reducible apply modCur_memsOk
@[simp] theorem halt_memsOk {s : State} (h : memsOk s = true) : memsOk (halt s) = true := by
  unfold halt
  repeat' first | with_reducible exact h | simp only [memsOk_mk, memsOk_fold]
@[simp] theorem haltIdle_memsOk {s : State} (h : memsOk s = true) : memsOk (haltIdle s) = true := by
  unfold haltIdle
  repeat' first | with_reducible exact h | simp only [memsOk_mk, memsOk_fold]
@[simp] theorem noteDenied_memsOk {s : State} (h : memsOk s = true) (code : FaultCode) (va : Word) : memsOk (noteDenied s code va) = true := by
  unfold noteDenied; dsimp only
  repeat' first | with_reducible exact h | with_reducible apply noteVa_memsOk | with_reducible apply noteDescs_memsOk | with_reducible apply noteTried_memsOk | split
@[simp] theorem settleErr_memsOk {s : State} (h : memsOk s = true) (code : FaultCode) (va : Word) (acc : Nat) : memsOk (settleErr s code va acc) = true := by
  unfold settleErr; dsimp only
  repeat' first
    | with_reducible exact h | with_reducible apply halt_memsOk | with_reducible apply haltIdle_memsOk | with_reducible apply trapOrOwe_memsOk
    | with_reducible apply deliverOwed_memsOk | with_reducible apply sealWin_memsOk | with_reducible apply noteDenied_memsOk
    | with_reducible apply advance_memsOk | with_reducible apply deliverTrap_memsOk | split | simp only [memsOk_mk, memsOk_fold]
@[simp] theorem faultPark_memsOk {s : State} (h : memsOk s = true) (e : FErr) : memsOk (faultPark s e) = true := by
  unfold faultPark
  repeat' first | with_reducible exact h | with_reducible apply retryFault_memsOk | with_reducible apply modCur_memsOk
@[simp] theorem settleRetry_memsOk {s : State} (h : memsOk s = true) (e : FErr) : memsOk (settleRetry s e) = true := by
  unfold settleRetry; dsimp only
  repeat' first
    | with_reducible exact h | with_reducible apply halt_memsOk | with_reducible apply haltIdle_memsOk
    | with_reducible apply faultPark_memsOk | split
@[simp] theorem keepLeft_memsOk {s : State} (h : memsOk s = true) (t : State) : memsOk (keepLeft s t) = true := h
@[simp] theorem settle_memsOk {s : State} (h : memsOk s = true) {r : Ending} (hr : Ending.Ok r) : memsOk (settle s r) = true := by
  unfold settle; dsimp only; split
  · have hr : memsOk _ = true := hr
    split
    · exact hr
    · exact advance_memsOk hr
  · exact hr
  · exact haltIdle_memsOk (modCur_memsOk h _)
  · exact settleErr_memsOk h _ _ _
  · exact settleRetry_memsOk h _
  · exact haltIdle_memsOk (faultPark_memsOk h _)
  · split
    · exact settleRetry_memsOk (keepLeft_memsOk h _) _
    · exact settleErr_memsOk (keepLeft_memsOk h _) _ _ _
theorem presence_memsOk {s : State} (h : memsOk s = true) (is : List Instr) : EitherOk (presence s is) := by
  unfold presence; dsimp only; split
  · exact haltIdle_memsOk (deliverOwed_memsOk h _ _ _)
  · split
    · exact haltIdle_memsOk (modCur_memsOk h _)
    · exact h
theorem precheck_memsOk {s : State} (h : memsOk s = true) (is : List Instr) : EitherOk (precheck s is) := by
  refine presence_memsOk ?_ _
  split
  · exact sealWin_memsOk h _ _ _ _
  · exact h
@[simp] theorem countIssue_memsOk {s : State} (h : memsOk s = true) : memsOk (countIssue s) = true := by
  unfold countIssue
  repeat' first | with_reducible exact h | with_reducible apply modCur_memsOk | split
theorem runBody_memsOk {i : Instr} {s : State} (h : memsOk s = true) {body : State → Ending} (hb : ∀ t, memsOk t = true → Ending.Ok (body t)) :
    Ending.Ok (runBody i s body) := by
  unfold runBody; split
  · trivial
  · exact hb _ (modCur_memsOk h _)
theorem issue_memsOk {i : Instr} {s : State} (h : memsOk s = true) {body : State → Ending} (hb : ∀ t, memsOk t = true → Ending.Ok (body t)) :
    memsOk (issue i s body) = true := by
  unfold issue; split
  · exact settle_memsOk h trivial
  have hp : EitherOk (if s.cur.checked then .ok s else precheck s [i]) := by
    split
    · exact h
    · exact precheck_memsOk h _
  split
  · rename_i q; rw [q] at hp; exact hp
  · rename_i s1 q; rw [q] at hp
    have h1 : memsOk (countIssue s1) = true := countIssue_memsOk hp
    dsimp only; split
    · split
      · simpa using h1
      · split
        · exact haltIdle_memsOk (deliverOwed_memsOk (sealWin_memsOk h1 _ _ _ _) _ _ _)
        · exact settle_memsOk (sealWin_memsOk h1 _ _ _ _) (runBody_memsOk (sealWin_memsOk h1 _ _ _ _) hb)
    · exact settle_memsOk h1 (runBody_memsOk h1 hb)
@[simp] theorem doneP_memsOk {s : State} (h : memsOk s = true) (f : Spoke → Spoke) : Ending.Ok (doneP s f) := by
  unfold doneP
  repeat' first | with_reducible exact h | simp only [Ending.done_memsOk] | with_reducible apply modCur_memsOk
@[simp] theorem doneG_memsOk {s : State} (h : memsOk s = true) (d : Fin 32) (x : Word) : Ending.Ok (doneG s d x) := by
  unfold doneG
  repeat' first | with_reducible exact h | with_reducible apply doneP_memsOk
theorem goTo_memsOk {s : State} (h : memsOk s = true) (k : EntryKind) (t : Word) {f : State → State} (hf : ∀ t, memsOk t = true → memsOk (f t) = true) :
    Ending.Ok (goTo s k t f) := by
  unfold goTo; dsimp only; split
  · split
    · trivial
    · exact hf _ (modCur_memsOk h _)
  · split
    · split
      · trivial
      · exact Ending.ofErr_memsOk _
    · split
      · trivial
      · have q := enterLine_memsOk h s.cur.core s.cur.sp s.cur.vf t k 0 0
        split <;> rename_i e <;> rw [e] at q
        · exact q
        · exact hf _ q

/-! Waits. -/

@[simp] theorem pubClose_memsOk {s : State} (h : memsOk s = true) (c n v : Nat) : memsOk (pubClose s c n v) = true := by
  unfold pubClose
  repeat' first
    | with_reducible exact h | with_reducible apply publish_memsOk | with_reducible apply modSp_memsOk | split
    | simp only [memsOk_mk, memsOk_fold]
@[simp] theorem pgrpAsk_memsOk {s : State} (h : memsOk s = true) (c n v k : Nat) : memsOk (pgrpAsk s c n v k) = true := by
  unfold pgrpAsk
  repeat' first | with_reducible exact h | with_reducible apply modSp_memsOk | simp only [memsOk_mk, memsOk_fold]
@[simp] theorem leaveGroups_memsOk {s : State} (h : memsOk s = true) (c n v : Nat) : memsOk (leaveGroups s c n v) = true := by
  unfold leaveGroups
  repeat' first
    | with_reducible assumption | with_reducible apply setSp_memsOk | with_reducible apply grpLeave_memsOk
    | with_reducible refine foldl_memsOk _ (fun _ _ _ => ?_) ?_ | split
@[simp] theorem spendClose_memsOk {s : State} (h : memsOk s = true) (c n v : Nat) : memsOk (spendClose s c n v) = true := by
  unfold spendClose
  repeat' first
    | with_reducible exact h | with_reducible apply modSp_memsOk | with_reducible apply leaveGroups_memsOk
    | with_reducible apply pubClose_memsOk
@[simp] theorem spendEnd_memsOk {s : State} (h : memsOk s = true) (c n v : Nat) : memsOk (spendEnd s c n v) = true := by
  unfold spendEnd
  repeat' first
    | with_reducible exact h | with_reducible apply modSp_memsOk | with_reducible apply dropHeld_memsOk
    | with_reducible apply killOwner_memsOk
@[simp] theorem dropPop_memsOk {s : State} (h : memsOk s = true) (v tag : Nat) : memsOk (dropPop s v tag) = true := by
  unfold dropPop
  repeat' first | with_reducible exact h | split | simp only [memsOk_mk, memsOk_fold]
@[simp] theorem reap_memsOk {s : State} (h : memsOk s = true) (c n v : Nat) : memsOk (reap s c n v) = true := by
  unfold reap; dsimp only
  repeat' first
    | with_reducible exact h | with_reducible apply setSp_memsOk | with_reducible apply dropPop_memsOk
    | with_reducible apply setPop_memsOk | split
@[simp] theorem returnEngine_memsOk {s : State} (h : memsOk s = true) (eng : Nat) : memsOk (returnEngine s eng) = true := by
  unfold returnEngine
  repeat' first | with_reducible exact h | simp only [memsOk_mk, memsOk_fold]
@[simp] theorem waitDone_memsOk {s : State} (h : memsOk s = true) (c n v : Nat) (w : Wait) : memsOk (waitDone s c n v w) = true := by
  unfold waitDone; dsimp only
  repeat' first
    | with_reducible exact h | with_reducible apply modSp_memsOk | with_reducible apply pubClose_memsOk
    | with_reducible apply spendClose_memsOk | with_reducible apply spendEnd_memsOk | with_reducible apply returnEngine_memsOk
    | with_reducible apply reap_memsOk | with_reducible apply inboxArrive_memsOk | with_reducible apply pgrpAsk_memsOk | split
@[simp] theorem waitOn_memsOk {s : State} (h : memsOk s = true) (w : Wait) : memsOk (waitOn s w) = true := by
  unfold waitOn; dsimp only
  repeat' first | with_reducible exact h | with_reducible apply waitDone_memsOk | with_reducible apply modCur_memsOk | split

/-! EngineRun. -/

@[simp] theorem engPut_fst (x : State × Cmd) (ls : List Loc) (bs : List Byte) : (engPut x ls bs).1 = x.1 := by
  induction ls generalizing x bs with
  | nil => rfl
  | cons l ls ih =>
    cases bs with
    | nil => rfl
    | cons b bs => exact ih _ _

/-- What a mapped answer comes from. -/
theorem of_map_ok {α β ε : Type} {e : Except ε α} {f : α → β} {y : β} (h : e.map f = .ok y) : ∃ x, e = .ok x ∧ f x = y := by
  cases e with
  | error _ => cases h
  | ok x => cases h; exact ⟨x, rfl, rfl⟩

/-- A unit of work of a command changes nothing but the command. -/
def Runs (s : State) (e : Except FErr (State × Cmd)) : Prop := ∀ y, e = .ok y → y.1 = s

theorem Runs.error (s : State) (e : FErr) : Runs s (.error e) := by intro y h; cases h
theorem Runs.map {s : State} {e : Except FErr (State × Cmd)} {f : State × Cmd → State × Cmd} (h : Runs s e) (hf : ∀ x, (f x).1 = x.1) : Runs s (e.map f) := by
  intro y q
  obtain ⟨x, p, rfl⟩ := of_map_ok q
  rw [hf]; exact h x p

theorem engWrite_runs (s : State) (c : Cmd) (o : Opnd) (x : Int) (bs : List Byte) : Runs s (engWrite s c o x bs) := by
  intro y q
  obtain ⟨ls, -, rfl⟩ := of_map_ok q
  exact engPut_fst _ _ _
theorem engWrite_memsOk {s : State} {c : Cmd} {o : Opnd} {x : Int} {bs : List Byte} {y : State × Cmd} (e : engWrite s c o x bs = .ok y) (h : memsOk s = true) : memsOk y.1 = true := by rw [engWrite_runs _ _ _ _ _ _ e]; exact h
theorem engWriteAll_runs (s : State) (c : Cmd) (o : Opnd) (l : List (Int × List Byte)) : Runs s (engWriteAll s c o l) := by
  induction l with
  | nil => intro y q; cases q; rfl
  | cons p r ih =>
    unfold engWriteAll; split
    · exact .error _ _
    · exact ih.map fun x => engPut_fst _ _ _
theorem engWriteAll_memsOk {s : State} {c : Cmd} {o : Opnd} {l : List (Int × List Byte)} {y : State × Cmd} (e : engWriteAll s c o l = .ok y) (h : memsOk s = true) : memsOk y.1 = true := by rw [engWriteAll_runs _ _ _ _ _ e]; exact h
@[simp] theorem setLatch_memsOk {s : State} (h : memsOk s = true) (c : Cmd) (l : Latch) : memsOk (setLatch s c l) = true := by
  unfold setLatch
  repeat' first | with_reducible exact h | split | simp only [memsOk_mk, memsOk_fold]
theorem mmulRow_runs (s : State) (c : Cmd) (d : LDesc) : Runs s (mmulRow s c d) := by
  unfold mmulRow; split
  · exact .error _ _
  · dsimp only; split
    · exact (engWrite_runs _ _ _ _ _).map fun _ => rfl
    · exact .error _ _
    · exact .error _ _
theorem mmulRow_memsOk {s : State} {c : Cmd} {d : LDesc} {y : State × Cmd} (e : mmulRow s c d = .ok y) (h : memsOk s = true) : memsOk y.1 = true := by rw [mmulRow_runs _ _ _ _ e]; exact h
theorem mdrainRow_runs (s : State) (c : Cmd) : Runs s (mdrainRow s c) := by
  unfold mdrainRow; split
  · exact .error _ _
  · exact (engWrite_runs _ _ _ _ _).map fun _ => rfl
theorem mdrainRow_memsOk {s : State} {c : Cmd} {y : State × Cmd} (e : mdrainRow s c = .ok y) (h : memsOk s = true) : memsOk y.1 = true := by rw [mdrainRow_runs _ _ _ e]; exact h
theorem mzeroRow_runs (s : State) (c : Cmd) : Runs s (mzeroRow s c) := by
  exact (engWrite_runs _ _ _ _ _).map fun _ => rfl
theorem mzeroRow_memsOk {s : State} {c : Cmd} {y : State × Cmd} (e : mzeroRow s c = .ok y) (h : memsOk s = true) : memsOk y.1 = true := by rw [mzeroRow_runs _ _ _ e]; exact h
theorem mldwRun_runs (s : State) (c : Cmd) : Runs s (mldwRun s c) := by
  intro y q
  obtain ⟨x, -, rfl⟩ := of_map_ok q
  rfl
theorem mldwRun_memsOk {s : State} {c : Cmd} {y : State × Cmd} (e : mldwRun s c = .ok y) (h : memsOk s = true) : memsOk y.1 = true := by rw [mldwRun_runs _ _ _ e]; exact h
theorem spcmpRun_runs (s : State) (c : Cmd) : Runs s (spcmpRun s c) := by
  unfold spcmpRun; dsimp only; split
  · exact (engWriteAll_runs _ _ _ _).map fun _ => rfl
  · exact .error _ _
  · exact .error _ _
theorem spcmpRun_memsOk {s : State} {c : Cmd} {y : State × Cmd} (e : spcmpRun s c = .ok y) (h : memsOk s = true) : memsOk y.1 = true := by rw [spcmpRun_runs _ _ _ e]; exact h
theorem lytUnit_runs (s : State) (c : Cmd) (i : Nat) : Runs s (lytUnit s c i) := by
  unfold lytUnit; dsimp only; split
  · exact .error _ _
  · exact engWrite_runs _ _ _ _ _
theorem lytUnit_memsOk {s : State} {c : Cmd} {i : Nat} {y : State × Cmd} (e : lytUnit s c i = .ok y) (h : memsOk s = true) : memsOk y.1 = true := by rw [lytUnit_runs _ _ _ _ e]; exact h
theorem copyUnit_runs (s : State) (c : Cmd) (i : Nat) : Runs s (copyUnit s c i) := by
  unfold copyUnit; split
  · exact .error _ _
  · exact engWrite_runs _ _ _ _ _
theorem copyUnit_memsOk {s : State} {c : Cmd} {i : Nat} {y : State × Cmd} (e : copyUnit s c i = .ok y) (h : memsOk s = true) : memsOk y.1 = true := by rw [copyUnit_runs _ _ _ _ e]; exact h
theorem unitOf_runs (s : State) (c : Cmd) (i : Nat) : Runs s (unitOf s c i) := by
  unfold unitOf; split
  · exact lytUnit_runs _ _ _
  · exact copyUnit_runs _ _ _
theorem unitOf_memsOk {s : State} {c : Cmd} {i : Nat} {y : State × Cmd} (e : unitOf s c i = .ok y) (h : memsOk s = true) : memsOk y.1 = true := by rw [unitOf_runs _ _ _ _ e]; exact h
theorem unitStep_runs (s : State) (c : Cmd) : Runs s (unitStep s c) := by
  unfold unitStep; split
  · intro y q; cases q; rfl
  · exact (unitOf_runs _ _ _).map fun _ => rfl
theorem unitStep_memsOk {s : State} {c : Cmd} {y : State × Cmd} (e : unitStep s c = .ok y) (h : memsOk s = true) : memsOk y.1 = true := by rw [unitStep_runs _ _ _ e]; exact h
theorem runOne_runs (s : State) (c : Cmd) : Runs s (runOne s c) := by
  unfold runOne; split
  · exact mldwRun_runs _ _
  · split
    · exact mmulRow_runs _ _ _
    · exact .error _ _
  · exact mdrainRow_runs _ _
  · exact mzeroRow_runs _ _
  · exact spcmpRun_runs _ _
  · exact unitStep_runs _ _
  · exact unitStep_runs _ _
  · exact unitStep_runs _ _
  · exact unitStep_runs _ _
  · intro y q; cases q; rfl
theorem runOne_memsOk {s : State} {c : Cmd} {y : State × Cmd} (e : runOne s c = .ok y) (h : memsOk s = true) : memsOk y.1 = true := by rw [runOne_runs _ _ _ e]; exact h
@[simp] theorem runUnit_fst (s : State) (c : Cmd) (k : Nat) : (runUnit s c k).1 = s := by
  unfold runUnit; split
  · rfl
  · split
    · rfl
    · rename_i q; exact (unitOf_runs s c k _ q :)
theorem runUnit_memsOk {s : State} (h : memsOk s = true) (c : Cmd) (k : Nat) : memsOk (runUnit s c k).1 = true := by simpa using h

/-- The work of a command changes nothing but the command. -/
@[simp] theorem runFor_fst (n : Nat) (x : State × Cmd) : (runFor n x).1.1 = x.1 := by
  induction n generalizing x with
  | zero => rfl
  | succ n ih =>
    unfold runFor; split
    · rfl
    · split
      · rfl
      · rename_i q; rw [ih, runOne_runs _ _ _ q]
theorem runFor_memsOk (n : Nat) {x : State × Cmd} (h : memsOk x.1 = true) : memsOk (runFor n x).1.1 = true := by simpa using h
@[simp] theorem runAll_fst (s : State) (c : Cmd) : (runAll s c).1.1 = s := runFor_fst _ _
theorem runAll_memsOk {s : State} (h : memsOk s = true) (c : Cmd) : memsOk (runAll s c).1.1 = true := by simpa using h
@[simp] theorem runCut_fst (s : State) (c : Cmd) : (runCut s c).1 = s := runFor_fst _ _
theorem runCut_memsOk {s : State} (h : memsOk s = true) (c : Cmd) : memsOk (runCut s c).1 = true := by simpa using h

/-! Alu. -/

@[simp] theorem sendReg_memsOk {s : State} (h : memsOk s = true) (core sp v : Nat) (r : Fin 32) (x : Word) (fromCore fromSp fromVf : Nat) (late : Bool) :
    memsOk (sendReg s core sp v r x fromCore fromSp fromVf late) = true := by
  unfold sendReg; dsimp only
  repeat' first | with_reducible exact h | with_reducible apply sendMsg_memsOk | with_reducible apply modSp_memsOk | split
@[simp] theorem aluEnd_memsOk {s : State} (h : memsOk s = true) (d : Dst) (x : Word) : Ending.Ok (aluEnd s d x) := by
  unfold aluEnd
  repeat' first
    | with_reducible exact h | exact Ending.fail_memsOk _ | simp only [Ending.done_memsOk]
    | with_reducible apply doneG_memsOk | with_reducible apply sendReg_memsOk | split
@[simp] theorem divStart_memsOk {s : State} (h : memsOk s = true) (d : Dst) (x : Word) : Ending.Ok (divStart s d x) := by
  unfold divStart
  repeat' first | with_reducible exact h | exact Ending.fail_memsOk _ | with_reducible apply doneP_memsOk | split
@[simp] theorem divWrite_memsOk {s : State} (h : memsOk s = true) (c n v : Nat) (x : DivPend) : memsOk (divWrite s c n v x) = true := by
  unfold divWrite
  repeat' first | with_reducible exact h | with_reducible apply modSp_memsOk | with_reducible apply sendReg_memsOk | split

/-! Control. -/

theorem goReg_memsOk {s : State} (h : memsOk s = true) (k : EntryKind) (t : Word) {f : State → State} (hf : ∀ t, memsOk t = true → memsOk (f t) = true) :
    Ending.Ok (goReg s k t f) := by
  unfold goReg; split
  · exact goTo_memsOk h _ _ hf
  · trivial
@[simp] theorem dcallTo_memsOk {s : State} (h : memsOk s = true) (link : Fin 32) (target : Word) (chk : Bool) : Ending.Ok (dcallTo s link target chk) := by
  unfold dcallTo; split
  · trivial
  · split
    · trivial
    · exact goTo_memsOk h _ _ fun _ h => modCur_memsOk h _

/-! Mem. -/

@[simp] theorem noteAcc_memsOk {s : State} (h : memsOk s = true) (va : Word) (r : Res) : memsOk (noteAcc s va r) = true := by
  unfold noteAcc
  repeat' first | with_reducible exact h | with_reducible apply noteRes_memsOk
@[simp] theorem addReq_memsOk {s : State} (h : memsOk s = true) (kind : ReqKind) (n : Nat) (accs : List LaneAcc) (plain posted : Bool) (eaten : List Reg) (va : Word) : memsOk (addReq s kind n accs plain posted eaten va) = true := by
  unfold addReq
  repeat' first | with_reducible exact h | with_reducible apply modCur_memsOk | with_reducible apply bump_memsOk
@[simp] theorem flushAt_memsOk {s : State} (h : memsOk s = true) (l : Loc) (n : Nat) : memsOk (flushAt s l n) = true := by
  unfold flushAt
  repeat' first | with_reducible exact h | with_reducible apply flushMeets_memsOk
@[simp] theorem bankPark_memsOk {s : State} (h : memsOk s = true) (l : Loc) (w : BankWait) : memsOk (bankPark s l w) = true := by
  unfold bankPark
  repeat' first | with_reducible exact h | with_reducible apply modCur_memsOk | simp only [memsOk_mk, memsOk_fold]
@[simp] theorem windowRead_memsOk {s : State} (h : memsOk s = true) (k : Nat) (d : Fin 32) (va : Word) : Ending.Ok (windowRead s k d va) := by
  unfold windowRead; dsimp only
  repeat' first
    | with_reducible exact h | exact Ending.err_memsOk _ _ _ | with_reducible apply rdsValue_memsOk | with_reducible apply doneG_memsOk
    | split
@[simp] theorem loadEnd_memsOk {s : State} (h : memsOk s = true) (rlx : Bool) (us : List Use) (d : Fin 32) (va : Word) (n : Nat) (sx : Bool) : Ending.Ok (loadEnd s rlx us d va n sx) := by
  unfold loadEnd
  repeat' first
    | with_reducible exact h | simp only [Ending.done_memsOk] | with_reducible apply Ending.ofErr_memsOk
    | with_reducible apply noteAcc_memsOk | with_reducible apply windowRead_memsOk | with_reducible apply addReq_memsOk
    | with_reducible apply doneP_memsOk | split
@[simp] theorem presenceLoad_memsOk {s : State} (h : memsOk s = true) (d : Fin 32) (va : Word) (takes : Bool) : Ending.Ok (presenceLoad s d va takes) := by
  unfold presenceLoad
  repeat' first
    | with_reducible exact h | simp only [Ending.done_memsOk] | with_reducible apply Ending.ofErr_memsOk
    | with_reducible apply flushAt_memsOk | with_reducible apply noteAcc_memsOk | with_reducible apply doneG_memsOk
    | with_reducible apply setPresent_memsOk | with_reducible apply bankPark_memsOk | split
@[simp] theorem storeEnd_memsOk {s : State} (h : memsOk s = true) (rlx : Bool) (us : List Use) (va x : Word) (n : Nat) : Ending.Ok (storeEnd s rlx us va x n) := by
  unfold storeEnd
  repeat' first
    | with_reducible exact h | exact Ending.err_memsOk _ _ _ | simp only [Ending.done_memsOk]
    | with_reducible apply Ending.ofErr_memsOk | with_reducible apply noteAcc_memsOk | refine wrsState_memsOk (by assumption) ?_
    | with_reducible apply addReq_memsOk | split
@[simp] theorem atomicEnd_memsOk {s : State} (h : memsOk s = true) (rlx : Bool) (us : List Use) (op : AtOp) (d : Fin 32) (va : Word) (n : Nat) (b c : Word) : Ending.Ok (atomicEnd s rlx us op d va n b c) := by
  unfold atomicEnd
  repeat' first
    | with_reducible exact h | exact Ending.err_memsOk _ _ _ | simp only [Ending.done_memsOk]
    | with_reducible apply Ending.ofErr_memsOk | with_reducible apply noteAcc_memsOk | with_reducible apply addReq_memsOk
    | with_reducible apply doneP_memsOk | split
@[simp] theorem mapCore_memsOk {s : State} (h : memsOk s = true) (c : Nat) (f : Spoke → Spoke) : memsOk (mapCore s c f) = true := by
  unfold mapCore
  repeat' first | with_reducible exact h | simp only [memsOk_mk, memsOk_fold]
@[simp] theorem staleTile_memsOk {s : State} (h : memsOk s = true) (t : Nat) (p : LineBuf → Bool) : memsOk (staleTile s t p) = true := by
  unfold staleTile
  repeat' first | with_reducible assumption | with_reducible apply mapCore_memsOk | with_reducible refine foldl_memsOk _ (fun _ _ _ => ?_) ?_
@[simp] theorem roDrop_memsOk {s : State} (h : memsOk s = true) (t : Nat) (all : Bool) (ps : List (Loc × Nat)) : memsOk (roDrop s t all ps) = true := by
  unfold roDrop
  repeat' first | with_reducible exact h | with_reducible apply staleTile_memsOk | with_reducible apply rdrop_memsOk
@[simp] theorem replyDone_memsOk {s : State} (h : memsOk s = true) (o : Owner) (r : Req) (st : ReplyStatus) : memsOk (replyDone s o r st) = true := by
  unfold replyDone; split
  · exact performInOrder_memsOk h _ _
  · exact performLane_memsOk h _ _ _
  · exact h

/-! VectorMem. -/

theorem lanesCheck_left {w : Bool} {l : List (Nat × Word × Nat)} {s : State} {x : FErr × State} (e : lanesCheck s w l = .error x) (h : memsOk s = true) :
    memsOk x.2 = true := by
  induction l generalizing s x with
  | nil => cases e
  | cons y r ih =>
    unfold lanesCheck at e; split at e
    · cases e; exact h
    · split at e
      · rename_i q; cases e; exact ih q (noteAcc_memsOk h _ _)
      · cases e
theorem lanesCheck_memsOk {w : Bool} {l : List (Nat × Word × Nat)} {s t : State} {x : List LaneAcc} (e : lanesCheck s w l = .ok (t, x)) (h : memsOk s = true) :
    memsOk t = true := by
  induction l generalizing s t x with
  | nil => cases e; exact h
  | cons y r ih =>
    unfold lanesCheck at e; split at e
    · cases e
    · split at e
      · cases e
      · rename_i q; cases e; exact ih q (noteAcc_memsOk h _ _)
@[simp] theorem vloadEnd_memsOk {s : State} (h : memsOk s = true) (rlx : Bool) (us : List Use) (km : Fin 4) (d : Fin 8) (addr : Fin 32 → Word) :
    Ending.Ok (vloadEnd s rlx us km d addr) := by
  unfold vloadEnd; split
  · rename_i q; exact lanesCheck_left q h
  · rename_i q; exact doneP_memsOk (lanesCheck_memsOk q h) _
  · rename_i q
    have := lanesCheck_memsOk q h
    dsimp only; split
    · exact addReq_memsOk this _ _ _ _ _ _ _
    · exact doneP_memsOk (addReq_memsOk this _ _ _ _ _ _ _) _
@[simp] theorem vstoreEnd_memsOk {s : State} (h : memsOk s = true) (rlx : Bool) (us : List Use) (km : Fin 4) (addr : Fin 32 → Word) (data : Vector Lane 32) :
    Ending.Ok (vstoreEnd s rlx us km addr data) := by
  unfold vstoreEnd; split
  · rename_i q; exact lanesCheck_left q h
  · rename_i q
    have := lanesCheck_memsOk q h
    dsimp only; simp only [Ending.done_memsOk]; (repeat' split) <;> simp [this]

/-! VectorF. -/

@[simp] theorem doneV_memsOk {s : State} (h : memsOk s = true) (km : Fin 4) (d : Fin 8) (f : Fin 32 → Lane × BitVec 5) : Ending.Ok (doneV s km d f) := by
  unfold doneV
  repeat' first | with_reducible exact h | with_reducible apply doneP_memsOk
@[simp] theorem doneK_memsOk {s : State} (h : memsOk s = true) (d : Fin 4) (x : Lane) : Ending.Ok (doneK s d x) := by
  unfold doneK
  repeat' first | with_reducible exact h | with_reducible apply doneP_memsOk

/-! Sync. -/

@[simp] theorem arriveIn_memsOk {s : State} (h : memsOk s = true) (i : Fin 4) (g : Nat) (k : Park) : memsOk (arriveIn s i g k) = true := by
  unfold arriveIn
  repeat' first | with_reducible exact h | with_reducible apply modCur_memsOk | with_reducible apply grpArrive_memsOk
@[simp] theorem signalErr_memsOk {s : State} (h : memsOk s = true) (va : Word) (code : Nat) : memsOk (signalErr s va code) = true := by
  unfold signalErr; dsimp only
  repeat' first | with_reducible exact h | with_reducible apply queueErr_memsOk | with_reducible apply postDev_memsOk | split
@[simp] theorem cancelCmd_memsOk {s : State} (h : memsOk s = true) (c : Cmd) : memsOk (cancelCmd s c) = true := by
  unfold cancelCmd
  repeat' first
    | with_reducible exact h | with_reducible apply leaveCmd_memsOk | with_reducible apply runCut_memsOk
    | with_reducible apply release_memsOk | with_reducible apply finish_memsOk | split | simp only [memsOk_mk, memsOk_fold]

/-! Mesh. -/

@[simp] theorem wakeOwner_memsOk {s : State} (h : memsOk s = true) (i : Nat) (o : Owner) : memsOk (wakeOwner i s o) = true := by
  unfold wakeOwner
  repeat' first | with_reducible exact h | with_reducible apply modOwner_memsOk
@[simp] theorem collAgain_memsOk {s : State} (h : memsOk s = true) (c : Cmd) : memsOk (collAgain s c) = true := by
  unfold collAgain
  repeat' first | with_reducible exact h | with_reducible apply replay_memsOk | with_reducible apply issFlush_memsOk | with_reducible apply delCmd_memsOk
@[simp] theorem wakeCmd_memsOk {s : State} (h : memsOk s = true) (id : Nat) : memsOk (wakeCmd s id) = true := by
  unfold wakeCmd
  repeat' first | with_reducible exact h | with_reducible apply noteOpnds_memsOk | with_reducible apply collAgain_memsOk | with_reducible apply setCmd_memsOk | with_reducible apply release_memsOk | split
@[simp] theorem wakeSlot_memsOk {s : State} (h : memsOk s = true) (core i : Nat) : memsOk (wakeSlot s core i) = true := by
  unfold wakeSlot
  repeat' first
    | with_reducible assumption | with_reducible apply wakeCmd_memsOk | with_reducible apply wakeOwner_memsOk
    | with_reducible apply freeSlot_memsOk | with_reducible refine foldl_memsOk _ (fun _ _ _ => ?_) ?_ | split
@[simp] theorem countStale_memsOk {s : State} (h : memsOk s = true) (core : Nat) : memsOk (countStale s core) = true := by
  unfold countStale
  repeat' first | with_reducible exact h | with_reducible apply modCore_memsOk
@[simp] theorem wakeAct_memsOk {s : State} (h : memsOk s = true) (core : Nat) (tok : Word) (vf : Nat) : memsOk (wakeAct s core tok vf) = true := by
  unfold wakeAct
  repeat' first | with_reducible exact h | with_reducible apply countStale_memsOk | with_reducible apply wakeSlot_memsOk | split
@[simp] theorem deliverHeld_memsOk {s : State} (h : memsOk s = true) (c v : Nat) : memsOk (deliverHeld s c v) = true := by
  unfold deliverHeld
  repeat' first
    | with_reducible assumption | with_reducible apply deliver_memsOk | with_reducible apply modCtx_memsOk
    | with_reducible refine foldl_memsOk _ (fun _ _ _ => ?_) ?_ | split
@[simp] theorem hubMove_memsOk {s : State} (h : memsOk s = true) (core : Nat) (nb : Nat) : memsOk (hubMove core s nb) = true := by
  unfold hubMove; dsimp only
  repeat' first | with_reducible exact h | with_reducible apply modCtx_memsOk | split

/-! SpokeControl. -/

@[simp] theorem withRoom_memsOk {t : State} {e : Ending} (h : Ending.Ok e) : Ending.Ok (withRoom t e) := by
  unfold withRoom; split
  · exact h
  · trivial
theorem readStart_memsOk {s : State} {va : Word} {t : State × StartRec} (e : readStart s va = .ok t) (h : memsOk s = true) : memsOk t.1 = true := by
  unfold readStart at e; dsimp only at e
  (repeat' split at e) <;> cases e
  all_goals repeat' first | with_reducible exact h | with_reducible apply flushAt_memsOk | with_reducible apply noteAcc_memsOk
@[simp] theorem startAt_memsOk {s : State} (h : memsOk s = true) (n : Nat) (pc : Word) (r : StartRec) : memsOk (startAt s n pc r) = true := by
  unfold startAt
  repeat' first | with_reducible exact h | with_reducible apply modCtx_memsOk | with_reducible apply occupy_memsOk | split
@[simp] theorem reown_memsOk {s : State} (h : memsOk s = true) (o o' : Owner) : memsOk (reown s o o') = true := by
  unfold reown
  repeat' first | with_reducible exact h | simp only [memsOk_mk, memsOk_fold]

/-! System. -/

@[simp] theorem stopHere_memsOk {s : State} (h : memsOk s = true)  : Ending.Ok (stopHere s) := by
  unfold stopHere
  repeat' first
    | with_reducible exact h | simp only [Ending.done_memsOk, Ending.went_memsOk] | with_reducible apply modCur_memsOk
    | with_reducible apply requestStop_memsOk | split | simp only [memsOk_mk, memsOk_fold]
@[simp] theorem drainCmds_memsOk {s : State} (h : memsOk s = true) (v : Nat) (hit : Loc → Bool) : memsOk (drainCmds s v hit) = true := by
  unfold drainCmds; dsimp only
  repeat' first
    | with_reducible assumption | with_reducible apply setCmd_memsOk | with_reducible apply drainOut_memsOk | with_reducible apply barArrive_memsOk
    | with_reducible refine foldl_memsOk _ (fun _ _ _ => ?_) ?_ | simp only [memsOk_mk, memsOk_fold]
@[simp] theorem drainPart_memsOk {s : State} (h : memsOk s = true) (v : Nat) (pick : List Req → List Req) (hit : Loc → Bool) : memsOk (drainPart s v pick hit) = true := by
  unfold drainPart; dsimp only
  repeat' first
    | with_reducible assumption | with_reducible apply drainCmds_memsOk | with_reducible apply flushOrphans_memsOk | with_reducible apply performAll_memsOk
    | with_reducible refine foldl_memsOk _ (fun _ _ _ => ?_) ?_
@[simp] theorem drainVf_memsOk {s : State} (h : memsOk s = true) (v : Nat) : memsOk (drainVf s v) = true := drainPart_memsOk h _ _ _
@[simp] theorem drainAt_memsOk {s : State} (h : memsOk s = true) (v : Nat) (ps : List (Loc × Nat)) : memsOk (drainAt s v ps) = true := drainPart_memsOk h _ _ _
@[simp] theorem readAsked_memsOk {s : State} (h : memsOk s = true) (v lo len : Nat) : memsOk (readAsked s v lo len) = true := by
  unfold readAsked
  repeat' first
    | with_reducible assumption | with_reducible apply readFor_memsOk | with_reducible refine foldl_memsOk _ (fun _ _ _ => ?_) ?_ | split
@[simp] theorem staleVf_memsOk {s : State} (h : memsOk s = true) (v : Nat) : memsOk (staleVf s v) = true := by
  unfold staleVf
  repeat' first | with_reducible exact h | with_reducible apply mapSpokes_memsOk | simp only [memsOk_mk, memsOk_fold]
@[simp] theorem invalidate_memsOk {s : State} (h : memsOk s = true) (v lo len : Nat) : memsOk (invalidate s v lo len) = true := by
  unfold invalidate
  repeat' first
    | with_reducible assumption | with_reducible apply drainVf_memsOk | with_reducible apply drainAt_memsOk | with_reducible apply readAsked_memsOk
    | with_reducible apply rdrop_memsOk | with_reducible apply modFn_memsOk | with_reducible apply staleVf_memsOk
    | with_reducible refine foldl_memsOk _ (fun _ _ _ => ?_) ?_ | split
@[simp] theorem ackInval_memsOk {s : State} (h : memsOk s = true) (r : Inval) : memsOk (ackInval s r) = true := by
  unfold ackInval
  repeat' first
    | with_reducible exact h | with_reducible apply modOwner_memsOk | with_reducible apply tryStop_memsOk
    | with_reducible apply wrN_memsOk | split

/-! EngIssue. -/

@[simp] theorem settleSync_memsOk {s : State} (h : memsOk s = true) (id : Nat) : memsOk (settleSync s id) = true := by
  unfold settleSync
  repeat' first | with_reducible exact h | with_reducible apply modCur_memsOk
@[simp] theorem engEnd_memsOk {s : State} (h : memsOk s = true) (r : EngRight) (d : Fin 32) (x : CmdArgs) : Ending.Ok (engEnd s r d x) := by
  unfold engEnd
  repeat' first
    | with_reducible exact h | exact Ending.fail_memsOk _ | simp only [Ending.done_memsOk]
    | with_reducible apply modCur_memsOk | with_reducible apply bump_memsOk | with_reducible apply enterWin_memsOk
    | with_reducible apply settleSync_memsOk | split
@[simp] theorem setCp_memsOk {s : State} (h : memsOk s = true) (r : BitVec 3) (x : Word) : Ending.Ok (setCp s r x) := by
  unfold setCp
  repeat' first | with_reducible exact h | with_reducible apply doneP_memsOk
@[simp] theorem cancelXfer_memsOk {s : State} (h : memsOk s = true) (c : Cmd) : memsOk (cancelXfer s c) = true := by
  unfold cancelXfer
  repeat' first
    | with_reducible exact h | with_reducible apply leaveCmd_memsOk | with_reducible apply setCmd_memsOk
    | simp only [memsOk_mk, memsOk_fold]
@[simp] theorem readBytes_memsOk {s : State} (h : memsOk s = true) (ro : Bool) (l : Loc) (n : Nat) : memsOk (readBytes s ro l n).1 = true := by
  induction n generalizing s l with
  | zero => exact h
  | succ n ih => exact ih (getElem1_memsOk h _ _ _ _ _) _
@[simp] theorem trBytes_memsOk {s : State} (h : memsOk s = true) (ro : Bool) (l : List (Res × Nat × Nat)) : memsOk (trBytes s ro l).1 = true := by
  induction l generalizing s with
  | nil => exact h
  | cons x r ih => exact ih (readBytes_memsOk (flushAt_memsOk h _ _) _ _ _)
@[simp] theorem putRules_memsOk {s : State} (h : memsOk s = true) (core f : Nat) (rs : List (BitVec 256)) : memsOk (putRules s core f rs) = true := by
  unfold putRules
  repeat' first | with_reducible exact h | with_reducible apply setHalf_memsOk

/-! Engines. -/

@[simp] theorem setRunning_memsOk {s : State} (h : memsOk s = true) (c : Cmd) : memsOk (setRunning s c) = true := by
  unfold setRunning; dsimp only
  repeat' first | with_reducible exact h | with_reducible apply noteOpnds_memsOk | with_reducible apply setCmd_memsOk | split | simp only [memsOk_mk, memsOk_fold]
@[simp] theorem startCmd_memsOk {s : State} (h : memsOk s = true) (c : Cmd) : memsOk (startCmd s c) = true := by
  unfold startCmd
  repeat' first
    | with_reducible exact h | with_reducible apply setRunning_memsOk | with_reducible apply setCmd_memsOk | split
    | simp only [memsOk_mk, memsOk_fold]
@[simp] theorem reportOrig_memsOk {s : State} (h : memsOk s = true) (flags : BitVec 5) (c : Cmd) : memsOk (reportOrig flags s c) = true := by
  unfold reportOrig
  repeat' first | with_reducible exact h | with_reducible apply modOwner_memsOk | with_reducible apply report_memsOk
@[simp] theorem commit_memsOk {s : State} (h : memsOk s = true) (t : TrGrp) : memsOk (commit s t) = true := by
  unfold commit
  repeat' first
    | with_reducible assumption | with_reducible apply publish_memsOk | with_reducible apply reportOrig_memsOk
    | with_reducible apply modOwner_memsOk | with_reducible refine foldl_memsOk _ (fun _ _ _ => ?_) ?_ | split
    | simp only [memsOk_mk, memsOk_fold]
@[simp] theorem groupDone_memsOk {s : State} (h : memsOk s = true) (c : Cmd) (g : Nat) : memsOk (groupDone s c g) = true := by
  unfold groupDone
  repeat' first
    | with_reducible exact h | with_reducible apply settlePanes_memsOk | with_reducible apply setCmd_memsOk
    | with_reducible apply commit_memsOk | split | simp only [memsOk_mk, memsOk_fold]
@[simp] theorem engFail_memsOk {s : State} (h : memsOk s = true) (c : Cmd) (code : FaultCode) (va : Word) (acc : Nat) : memsOk (engFail s c code va acc) = true := by
  unfold engFail
  repeat' first
    | with_reducible exact h | with_reducible apply abandon_memsOk | with_reducible apply finish_memsOk
    | with_reducible apply resetRec_memsOk | split
@[simp] theorem engDone_memsOk {s : State} (h : memsOk s = true) (c : Cmd) : memsOk (engDone s c) = true := by
  unfold engDone; dsimp only
  repeat' first
    | with_reducible exact h | with_reducible apply engFail_memsOk | with_reducible apply setLatch_memsOk | with_reducible apply groupDone_memsOk
    | with_reducible apply finish_memsOk | split
theorem engPart_memsOk {s t : State} {c : Cmd} {st : EndStatus} (e : engPart s c st = some t) (h : memsOk s = true) : memsOk t = true := by
  unfold engPart at e; dsimp only at e; (repeat' split at e) <;> cases e
  · exact setCmd_memsOk h _
  · exact setCmd_memsOk (runUnit_memsOk h _ _) _
  · exact drainOne_memsOk h _ _
@[simp] theorem noteSoft_memsOk {s : State} (h : memsOk s = true) (code : FaultCode) : memsOk (noteSoft s code) = true := by
  unfold noteSoft
  repeat' first | with_reducible exact h | with_reducible apply countLife_memsOk | split
@[simp] theorem engComplete_memsOk {s : State} (h : memsOk s = true) (c : Cmd) (st : EndStatus) : memsOk (engComplete s c st) = true := by
  unfold engComplete; split
  · rename_i q; exact engPart_memsOk q h
  · split
    · split <;> rename_i q <;> have e := congrArg (·.1.1) q <;> simp only [runAll_fst] at e <;> subst e
      · exact engDone_memsOk (setCmd_memsOk h _) _
      · split
        · exact engFail_memsOk (setCmd_memsOk h _) _ _ _ _
        · exact h
    · dsimp only; split
      · exact h
      · exact engFail_memsOk (noteSoft_memsOk (setCmd_memsOk (runCut_memsOk h _) _) _) _ _ _ _
@[simp] theorem engStart_memsOk {s : State} (h : memsOk s = true) (c : Cmd) : memsOk (engStart s c) = true := by
  unfold engStart
  repeat' first
    | with_reducible exact h | with_reducible exact noteOpnds_memsOk h _ | with_reducible apply startCmd_memsOk | with_reducible apply runFor_memsOk
    | with_reducible apply setCmd_memsOk | split
@[simp] theorem engPark_memsOk {s : State} (h : memsOk s = true) (c0 : Cmd) (e : FErr) : memsOk (engPark s c0 e) = true := by
  unfold engPark; dsimp only
  repeat' first | with_reducible exact h | refine takeWaiter_memsOk (t := (_, _)) (by assumption) ?_ | with_reducible apply setCmd_memsOk | split
@[simp] theorem copyClose_memsOk {s : State} (h : memsOk s = true) (c : Cmd) (bar : Option Loc) : memsOk (copyClose s c bar) = true := by
  unfold copyClose
  repeat' first | with_reducible exact h | with_reducible apply finishCopy_memsOk | split
@[simp] theorem copyEnd_memsOk {s : State} (h : memsOk s = true) (c0 : Cmd) : memsOk (copyEnd s c0) = true := by
  unfold copyEnd; dsimp only
  repeat' first
    | with_reducible exact h | with_reducible apply copyClose_memsOk | with_reducible apply engPark_memsOk | with_reducible apply drainOut_memsOk | split
@[simp] theorem copyFail_memsOk {s : State} (h : memsOk s = true) (c : Cmd) (code : FaultCode) (va : Word) (acc : Nat) : memsOk (copyFail s c code va acc) = true :=
  copyEnd_memsOk h _
@[simp] theorem copyComplete_memsOk {s : State} (h : memsOk s = true) (c : Cmd) (st : EndStatus) : memsOk (copyComplete s c st) = true := by
  unfold copyComplete; split
  · split
    · exact copyEnd_memsOk h _
    · exact h
  split
  · dsimp only; split
    · exact copyEnd_memsOk (runCut_memsOk h _) _
    · exact copyEnd_memsOk h _
  split
  · exact h
  split
  · rename_i q; exact engPart_memsOk q h
  split
  · split
    · rename_i q
      have e := congrArg (·.1.1) q
      simp only [runAll_fst] at e; subst e
      split
      · exact copyClose_memsOk h _ _
      · exact h
    · exact h
  · dsimp only; split
    · exact h
    · exact copyFail_memsOk (noteSoft_memsOk (runCut_memsOk h _) _) _ _ _ _
@[simp] theorem engNext_fst (s : State) (c : Cmd) : (engNext s c).1.1 = s := by
  unfold engNext
  have e := runAll_fst s c
  split <;> rename_i q <;> rw [q] at e <;> exact e
@[simp] theorem engFault_memsOk {s : State} (h : memsOk s = true) (c : Cmd) : memsOk (engFault s c) = true := by
  unfold engFault; split
  · split
    · exact copyEnd_memsOk h _
    · exact h
  split
  · exact h
  · rename_i q
    have e := congrArg (·.1.1) q
    simp only [engNext_fst] at e; subst e
    repeat' (first | with_reducible exact h | with_reducible apply abandon_memsOk | with_reducible apply engPark_memsOk | with_reducible apply copyFail_memsOk | with_reducible apply engFail_memsOk | with_reducible apply setCmd_memsOk | split)

/-! Collective. -/

@[simp] theorem collFail_memsOk {s : State} (h : memsOk s = true) (c : Cmd) (code : FaultCode) (va : Word) (acc : Nat) : memsOk (collFail s c code va acc) = true := by
  unfold collFail
  repeat' first | with_reducible exact h | with_reducible apply finish_memsOk
theorem collRun_memsOk {s : State} {c : Cmd} {peers : List (Nat × List Byte)} {t : State × Cmd} (e : collRun s c peers = some t) (h : memsOk s = true) : memsOk t.1 = true := by
  unfold collRun at e; dsimp only at e; (repeat' split at e) <;> cases e
  rename_i q; exact (engWrite_memsOk q h :)
@[simp] theorem collDone_memsOk {s : State} (h : memsOk s = true) (c : Cmd) : memsOk (collDone s c) = true := by
  unfold collDone
  repeat' first | with_reducible exact h | with_reducible apply collFail_memsOk | with_reducible apply finish_memsOk | split
@[simp] theorem collGo_memsOk {s : State} (h : memsOk s = true) (c : Cmd) (st : EndStatus) (peers : List (Nat × List Byte)) : memsOk (collGo s c st peers) = true := by
  unfold collGo
  repeat' first
    | with_reducible exact h | with_reducible apply setCmd_memsOk | with_reducible apply drainOne_memsOk
    | refine collRun_memsOk (t := (_, _)) (by assumption) ?_ | with_reducible apply collDone_memsOk | split
@[simp] theorem endLease_memsOk {s : State} (h : memsOk s = true) (e : Nat) : memsOk (endLease s e) = true := by
  unfold endLease
  repeat' first
    | with_reducible assumption | with_reducible apply collFail_memsOk | with_reducible apply leaveCmd_memsOk
    | with_reducible refine foldl_memsOk _ (fun _ _ _ => ?_) ?_ | split | simp only [memsOk_mk, memsOk_fold]
@[simp] theorem collMid_memsOk {s : State} (h : memsOk s = true) (c : Cmd) : memsOk (collMid s c) = true := by
  unfold collMid
  repeat' first | with_reducible exact h | with_reducible apply engPark_memsOk | with_reducible apply collFail_memsOk | split

/-! Queues. -/

@[simp] theorem stopSrc_memsOk {s : State} (h : memsOk s = true) (src : PktSrc) (code : Nat) : memsOk (stopSrc s src code) = true := by
  unfold stopSrc
  repeat' first | with_reducible exact h | with_reducible apply queueErr_memsOk | split | simp only [memsOk_mk, memsOk_fold]
@[simp] theorem noteSrc_memsOk {s : State} (h : memsOk s = true) (src : PktSrc) (code : Nat) : memsOk (noteSrc s src code) = true := by
  unfold noteSrc
  repeat' first | with_reducible exact h | with_reducible apply queueErr_memsOk
@[simp] theorem leave_memsOk {s : State} (h : memsOk s = true) (src : PktSrc) : memsOk (leave s src) = true := by
  unfold leave; dsimp only; split
  · split
    · exact h
    · refine wakeQueue_memsOk ?_
      simp only [memsOk_mk, memsOk_fold]
      exact setQ_memsOk (setQWord_memsOk h _ _ _) _ _ _
  · split <;> simp [h]
@[simp] theorem addPkt_memsOk {s : State} (h : memsOk s = true) (src : PktSrc) (csig : Word) (done : Bool) : memsOk (addPkt s src csig done) = true := by
  unfold addPkt
  repeat' first | with_reducible exact h | with_reducible apply bump_memsOk | simp only [memsOk_mk, memsOk_fold]
@[simp] theorem seeEn_memsOk {s : State} (h : memsOk s = true) (src : PktSrc) : memsOk (seeEn s src) = true := by
  unfold seeEn; repeat' (first | with_reducible exact h | with_reducible apply setQ_memsOk | with_reducible apply wakeQueue_memsOk | split)
theorem serve_memsOk {s : State} (h : memsOk s = true) (src : PktSrc) (types : List Nat) {f : Nat → List Byte → State} (hf : ∀ v b, memsOk (f v b) = true) :
    memsOk (serve s src types f) = true := by
  unfold serve; dsimp only
  repeat' (first | with_reducible exact h | with_reducible exact hf _ _ | with_reducible apply seeEn_memsOk | with_reducible apply stopSrc_memsOk | split)
@[simp] theorem barrierPacket_memsOk {s : State} (h : memsOk s = true) (src : PktSrc) (type : Nat) : memsOk (barrierPacket src type s) = true := by
  refine serve_memsOk h _ _ fun v b => ?_
  repeat' (first | with_reducible exact h | with_reducible apply stopSrc_memsOk | with_reducible apply addPkt_memsOk | with_reducible apply leave_memsOk | with_reducible apply setQ_memsOk | split | simp only [memsOk_mk, memsOk_fold])
theorem dealOne_memsOk {s : State} {v tag : Nat} {t : State} (e : dealOne s v tag = some t) (h : memsOk s = true) : memsOk t = true := by
  unfold dealOne at e; dsimp only at e
  (repeat' split at e) <;> cases e
  all_goals repeat' first
    | with_reducible exact h | with_reducible apply setPop_memsOk | with_reducible apply modCtx_memsOk
    | with_reducible apply occupy_memsOk
@[simp] theorem dealAll_memsOk (v tag n : Nat) {s : State} (h : memsOk s = true) : memsOk (dealAll v tag n s) = true := by
  induction n generalizing s with
  | zero => exact h
  | succ n ih =>
    unfold dealAll; split
    · exact h
    · rename_i q; exact ih (dealOne_memsOk q h)
@[simp] theorem launch_memsOk {s : State} (h : memsOk s = true) (src : PktSrc) (v tag : Nat) (b : List Byte) (r : LaunchRec) (gs : List (Nat × List Nat)) : memsOk (launch s src v tag b r gs) = true := by
  unfold launch
  repeat' first
    | with_reducible exact h | with_reducible apply setPop_memsOk | with_reducible apply addPkt_memsOk
    | with_reducible apply leave_memsOk | with_reducible apply dealAll_memsOk | simp only [memsOk_mk, memsOk_fold]
@[simp] theorem csigDown_memsOk {s : State} (h : memsOk s = true) (src : PktSrc) (csig : Word) : memsOk (csigDown s src csig) = true := by
  unfold csigDown; dsimp only
  repeat' first | with_reducible exact h | with_reducible apply queueErr_memsOk | with_reducible apply semAdd_memsOk | split
@[simp] theorem forgetPkt_memsOk {s : State} (h : memsOk s = true) (p : Pkt) : memsOk (forgetPkt s p) = true := by
  unfold forgetPkt
  repeat' first | with_reducible exact h | split | simp only [memsOk_mk, memsOk_fold]

/-! Host. -/

@[simp] theorem takeTurn_memsOk {s : State} (h : memsOk s = true) (i : Nat) : memsOk (takeTurn s i) = true := by
  unfold takeTurn
  repeat' first | with_reducible exact h | simp only [memsOk_mk, memsOk_fold]
@[simp] theorem ringDrop_memsOk {s : State} (h : memsOk s = true) (fn : Nat) (k : RingSel) : memsOk (ringDrop s fn k) = true := by
  unfold ringDrop
  repeat' first | with_reducible exact h | with_reducible apply setFn_memsOk
@[simp] theorem denyOwner_memsOk {s : State} (h : memsOk s = true) (i : Nat) (w : Waiter) (o : Owner) : memsOk (denyOwner i w s o) = true := by
  unfold denyOwner
  repeat' first | with_reducible exact h | with_reducible apply modOwner_memsOk
@[simp] theorem denyCmd_memsOk {s : State} (h : memsOk s = true) (id : Nat) : memsOk (denyCmd s id) = true := by
  unfold denyCmd
  repeat' first
    | with_reducible exact h | with_reducible apply release_memsOk | with_reducible apply failLate_memsOk
    | with_reducible apply delCmd_memsOk | with_reducible apply copyFail_memsOk | with_reducible apply collFail_memsOk
    | with_reducible apply engFail_memsOk | split
@[simp] theorem holdAts_memsOk {s : State} (h : memsOk s = true) (w : Waiter) (core : Nat) : memsOk (holdAts s w core) = true := by
  unfold holdAts
  repeat' first | with_reducible exact h | split | simp only [memsOk_mk, memsOk_fold]
@[simp] theorem leaveQuiesced_memsOk {s : State} (h : memsOk s = true) : memsOk (leaveQuiesced s) = true := by
  unfold leaveQuiesced
  repeat' first | with_reducible exact h | with_reducible apply setFn_memsOk | split | simp only [memsOk_mk, memsOk_fold]
@[simp] theorem writeFeat_memsOk {s : State} (h : memsOk s = true) (fn : Nat) (w : Word) : memsOk (writeFeat s fn w) = true := by
  unfold writeFeat
  repeat' first
    | with_reducible exact h | with_reducible apply regErr_memsOk | with_reducible apply leaveQuiesced_memsOk
    | with_reducible apply modFn_memsOk | split
@[simp] theorem writeWake_memsOk {s : State} (h : memsOk s = true) (fn : Nat) (w : Word) : memsOk (writeWake s fn w) = true := by
  unfold writeWake
  repeat' first | with_reducible exact h | with_reducible apply regErr_memsOk | with_reducible apply sendMsg_memsOk | split
@[simp] theorem writeInvgo_memsOk {s : State} (h : memsOk s = true) (fn : Nat) (w : Word) : memsOk (writeInvgo s fn w) = true := by
  unfold writeInvgo
  repeat' first | with_reducible exact h | with_reducible apply bump_memsOk | simp only [memsOk_mk, memsOk_fold]
@[simp] theorem writeCidx_memsOk {s : State} (h : memsOk s = true) (fn : Nat) (k : RingSel) (w : Word) : memsOk (writeCidx s fn k w) = true := by
  unfold writeCidx; dsimp only
  repeat' first | with_reducible exact h | with_reducible apply setFn_memsOk | with_reducible apply sendMsix_memsOk | split
@[simp] theorem writeRing_memsOk {s : State} (h : memsOk s = true) (fn : Nat) (k : RingSel) (i : Nat) (w : Word) : memsOk (writeRing s fn k i w) = true := by
  unfold writeRing; dsimp only
  repeat' first
    | with_reducible exact h | with_reducible apply regErr_memsOk | with_reducible apply setFn_memsOk
    | with_reducible apply writeCidx_memsOk | split
@[simp] theorem writeMbox_memsOk {s : State} (h : memsOk s = true) (i : Nat) (w : Word) : memsOk (writeMbox s i w) = true := by
  unfold writeMbox
  repeat' first | with_reducible exact h | with_reducible apply regErr_memsOk | split | simp only [memsOk_mk, memsOk_fold]
@[simp] theorem writeBase_memsOk {s : State} (h : memsOk s = true) (fn : Nat) (w : Word) (al : Nat) (f : Fn → Fn) : memsOk (writeBase s fn w al f) = true := by
  unfold writeBase
  repeat' first | with_reducible exact h | with_reducible apply regErr_memsOk | with_reducible apply modFn_memsOk | split
@[simp] theorem writeReg_memsOk {s : State} (h : memsOk s = true) (fn off : Nat) (w : Word) : memsOk (writeReg s fn off w) = true := by
  unfold writeReg
  repeat' first
    | with_reducible exact h | with_reducible apply writeRing_memsOk | with_reducible apply writeFeat_memsOk
    | with_reducible apply writeBase_memsOk | with_reducible apply modFn_memsOk | with_reducible apply writeWake_memsOk
    | with_reducible apply writeInvgo_memsOk | with_reducible apply regErr_memsOk | with_reducible apply writeMbox_memsOk | split
@[simp] theorem forgetHalves_memsOk {s : State} (h : memsOk s = true) (v : Nat) (gone : Nat → Bool) : memsOk (forgetHalves s v gone) = true := by
  unfold forgetHalves
  repeat' first | with_reducible assumption | simp only [memsOk_mk, memsOk_fold]
@[simp] theorem loseLeases_memsOk {s : State} (h : memsOk s = true) (v : Nat) : memsOk (loseLeases s v) = true := by
  unfold loseLeases
  repeat' first | with_reducible assumption | with_reducible apply endLease_memsOk | with_reducible refine foldl_memsOk _ (fun _ _ _ => ?_) ?_ | split
@[simp] theorem emptyBlock_memsOk {s : State} (h : memsOk s = true) (v : Nat) : memsOk (emptyBlock s v) = true := by
  unfold emptyBlock
  repeat' first
    | with_reducible exact h | with_reducible apply loseLeases_memsOk | with_reducible apply forgetHalves_memsOk
    | with_reducible apply modFn_memsOk | split
@[simp] theorem writeCtl_memsOk {s : State} (h : memsOk s = true) (off : Nat) (w : Word) : memsOk (writeCtl s off w) = true := by
  unfold writeCtl; dsimp only
  repeat' first | with_reducible exact h | with_reducible apply emptyBlock_memsOk | with_reducible apply regErr_memsOk | with_reducible apply modFn_memsOk | split
@[simp] theorem agentDo_memsOk {s : State} (h : memsOk s = true) (l : Loc) (acc : AgentAcc) : memsOk (agentDo s l acc) = true := by
  unfold agentDo; split <;> (try split) <;> simp [h, memWf_wrBytes]
@[simp] theorem dropHostLine_memsOk {s : State} (h : memsOk s = true) (line : Nat) : memsOk (dropHostLine s line) = true := by
  unfold dropHostLine
  repeat' first | with_reducible assumption | with_reducible apply rdrop_memsOk | with_reducible refine foldl_memsOk _ (fun _ _ _ => ?_) ?_
@[simp] theorem endBinds_memsOk {s : State} (h : memsOk s = true) (gone : Nat → Bool) : memsOk (endBinds s gone) = true := by
  unfold endBinds
  repeat' first | with_reducible exact h | simp only [memsOk_mk, memsOk_fold]
@[simp] theorem dropPeer_memsOk {s : State} (h : memsOk s = true) (dev : Nat) : memsOk (dropPeer s dev) = true := endBinds_memsOk h _

/-! Controller. -/

@[simp] theorem mbResult_memsOk {s : State} (h : memsOk s = true) (r : Nat) : memsOk (mbResult s r) = true := by
  unfold mbResult
  repeat' first | with_reducible exact h | simp only [memsOk_mk, memsOk_fold]
@[simp] theorem mbReply_memsOk {s : State} (h : memsOk s = true) (b : List Byte) : memsOk (mbReply s b) = true := by
  unfold mbReply
  repeat' first | with_reducible exact h | with_reducible apply mbResult_memsOk | split | simp only [memsOk_mk, memsOk_fold]
theorem mbSimple_memsOk {s f : State} (h : memsOk s = true) (code n : Nat) (hf : memsOk f = true) : memsOk (mbSimple s code n f) = true := by
  unfold mbSimple; (repeat' split) <;> simp [h, hf]
@[simp] theorem storeCounts_memsOk {s : State} (h : memsOk s = true) (extra : List (Nat × Nat)) : memsOk (storeCounts s extra) = true := by
  unfold storeCounts
  repeat' first | with_reducible exact h | simp only [memsOk_mk, memsOk_fold]
@[simp] theorem setClk_memsOk {s : State} (h : memsOk s = true) (mhz : Nat) : memsOk (setClk s mhz) = true := by
  unfold setClk
  repeat' first | with_reducible exact h | simp only [memsOk_mk, memsOk_fold]

/-! Slice. -/

@[simp] theorem sliceStop_memsOk {s : State} (h : memsOk s = true) (c v : Nat) (n : Nat) : memsOk (sliceStop c v s n) = true := by
  unfold sliceStop; dsimp only
  repeat' first | with_reducible exact h | with_reducible apply modCtx_memsOk | with_reducible apply requestStop_memsOk | split
@[simp] theorem stopHalf_memsOk {s : State} (h : memsOk s = true) (i v : Nat) : memsOk (stopHalf s i v) = true := by
  unfold stopHalf
  repeat' first | with_reducible assumption | with_reducible apply sliceStop_memsOk | with_reducible refine foldl_memsOk _ (fun _ _ _ => ?_) ?_
theorem loadMem_wf {m : Mem} (h : memWf m = true) (img : Mem) : memWf (loadMem m img) = true := by
  unfold loadMem
  induction img generalizing m with
  | nil => exact h
  | cons p r ih => exact ih (memWf_wr _ _ h)
@[simp] theorem swapImage_memsOk {s : State} (h : memsOk s = true) (i o v : Nat) : memsOk (swapImage s i o v) = true := by
  simp [swapImage, bump, h, loadMem_wf (memWf_filter _ (memsOk_scr h)), loadMem_wf (memWf_filter _ (memsOk_tb h))]
@[simp] theorem swapCore_memsOk {s : State} (h : memsOk s = true) (out vin : Nat) (c : Nat) : memsOk (swapCore out vin s c) = true := by
  unfold swapCore; dsimp only
  repeat' first | with_reducible exact h | with_reducible apply setCore_memsOk | simp only [memsOk_mk, memsOk_fold]
@[simp] theorem saveHalf_memsOk {s : State} (h : memsOk s = true) (v i : Nat) : memsOk (saveHalf s v i) = true := by
  unfold saveHalf
  repeat' first
    | with_reducible assumption | with_reducible apply saveSlot_memsOk | with_reducible refine foldl_memsOk _ (fun _ _ _ => ?_) ?_ | split
@[simp] theorem needCtxs_memsOk {s : State} (h : memsOk s = true) (v c : Nat) : memsOk (needCtxs v s c) = true := by
  unfold needCtxs
  repeat' first
    | with_reducible assumption | with_reducible apply makeRoom_memsOk | with_reducible refine foldl_memsOk _ (fun _ _ _ => ?_) ?_ | split
@[simp] theorem clearHalf_memsOk {s : State} (h : memsOk s = true) (i : Nat) : memsOk (clearHalf s i) = true := by
  unfold clearHalf
  repeat' first | with_reducible assumption | simp only [memsOk_mk, memsOk_fold]
@[simp] theorem resumeCore_memsOk {s : State} (h : memsOk s = true) (v : Nat) (c : Nat) : memsOk (resumeCore v s c) = true := by
  unfold resumeCore
  repeat' first
    | with_reducible assumption | with_reducible apply modCtx_memsOk | with_reducible apply serveTag_memsOk
    | with_reducible apply modSp_memsOk | with_reducible refine foldl_memsOk _ (fun _ _ _ => ?_) ?_
@[simp] theorem vacate_memsOk {s : State} (h : memsOk s = true) (v i : Nat) : memsOk (vacate s v i) = true := by
  unfold vacate
  repeat' first | with_reducible assumption | with_reducible apply stopHalf_memsOk | with_reducible apply setHalf_memsOk
@[simp] theorem takeBlock_memsOk {s : State} (h : memsOk s = true) (v : Nat) : memsOk (takeBlock s v) = true := by
  unfold takeBlock
  repeat' first
    | with_reducible assumption | with_reducible apply modFn_memsOk | with_reducible apply loseLeases_memsOk
    | with_reducible apply vacate_memsOk | with_reducible apply forgetHalves_memsOk
    | with_reducible refine foldl_memsOk _ (fun _ _ _ => ?_) ?_
@[simp] theorem passHalf_memsOk {s : State} (h : memsOk s = true) (i out vin : Nat) : memsOk (passHalf s i out vin) = true := by
  unfold passHalf; dsimp only
  repeat' first
    | with_reducible assumption | with_reducible apply drainVf_memsOk | with_reducible apply heldOut_memsOk
    | with_reducible apply clearHalf_memsOk | with_reducible apply swapImage_memsOk | with_reducible apply swapCore_memsOk
    | with_reducible apply setHalf_memsOk | with_reducible apply forgetHalves_memsOk | with_reducible apply resumeCore_memsOk
    | with_reducible apply saveHalf_memsOk | with_reducible apply needCtxs_memsOk | with_reducible apply emptyBlock_memsOk
    | with_reducible refine foldl_memsOk _ (fun _ _ _ => ?_) ?_ | split

/-! Reset. -/

@[simp] theorem clearQueues_memsOk {s : State} (h : memsOk s = true) (v : Nat) : memsOk (clearQueues s v) = true := by
  unfold clearQueues
  repeat' first | with_reducible exact h | simp only [memsOk_mk, memsOk_fold]
@[simp] theorem freeWaiters_memsOk {s : State} (h : memsOk s = true) (p : Waiter → Bool) : memsOk (freeWaiters s p) = true := by
  unfold freeWaiters
  repeat' first | with_reducible assumption | with_reducible apply freeSlot_memsOk | with_reducible refine foldl_memsOk _ (fun _ _ _ => ?_) ?_ | split
@[simp] theorem flrPop_memsOk {s : State} (h : memsOk s = true) (v : Nat) (tag : Nat) : memsOk (flrPop v s tag) = true := by
  unfold flrPop
  repeat' first
    | with_reducible exact h | with_reducible apply killMembers_memsOk | with_reducible apply postTerm_memsOk
    | with_reducible apply queueErr_memsOk | split
@[simp] theorem discardPop_memsOk {s : State} (h : memsOk s = true) (v tag : Nat) : memsOk (discardPop s v tag) = true := by
  unfold discardPop
  repeat' first
    | with_reducible assumption | with_reducible apply killMembers_memsOk | with_reducible apply setSp_memsOk
    | with_reducible refine foldl_memsOk _ (fun _ _ _ => ?_) ?_ | split
@[simp] theorem afterReset_memsOk {s : State} (h : memsOk s = true) (b : Bool) (p : BitVec 2) : memsOk (afterReset s b p) = true := by
  unfold afterReset; simp [h]; split <;> simp [h, State.reset, memWf]

/-! Step. -/

@[simp] theorem withCur_memsOk {s : State} (h : memsOk s = true) (c n v : Nat) (pc succ : Word) (paired first checked : Bool) : memsOk (withCur s c n v pc succ paired first checked) = true := by
  unfold withCur
  repeat' first | with_reducible exact h | simp only [memsOk_mk, memsOk_fold]
@[simp] theorem toSecond_memsOk {s : State} (h : memsOk s = true) (c n v : Nat) (pc : Word) : memsOk (toSecond s c n v pc) = true := by
  unfold toSecond
  repeat' first | with_reducible exact h | with_reducible apply withCur_memsOk | simp only [memsOk_mk, memsOk_fold]
@[simp] theorem afterIssue_memsOk {s : State} (h : memsOk s = true) (c n v : Nat) : memsOk (afterIssue c n v s) = true := by
  unfold afterIssue; dsimp only
  repeat' first
    | with_reducible exact h | with_reducible apply tryStop_memsOk | with_reducible apply needLine_memsOk
    | with_reducible apply askLine_memsOk | split
@[simp] theorem wakeUp_memsOk {s : State} (h : memsOk s = true) (c n v : Nat) : memsOk (wakeUp s c n v) = true := by
  unfold wakeUp; dsimp only
  repeat' first | with_reducible exact h | with_reducible apply waitDone_memsOk | with_reducible apply modSp_memsOk | split
@[simp] theorem passTo_memsOk {s : State} (h : memsOk s = true) (t : Nat) : memsOk (passTo s t) = true := by
  unfold passTo
  repeat' first | with_reducible exact h | simp only [memsOk_mk, memsOk_fold]
@[simp] theorem markIssue_memsOk {s : State} (h : memsOk s = true) (c n v t : Nat) : memsOk (markIssue c n v t s) = true := by
  unfold markIssue
  repeat' first | with_reducible exact h | with_reducible apply modSp_memsOk | with_reducible apply modCore_memsOk | split
@[simp] theorem State.withFetchWord_memsOk {s : State} (h : memsOk s = true) (nbits w : Nat) : memsOk (State.withFetchWord s nbits w) = true := by
  unfold State.withFetchWord
  repeat' first | with_reducible exact h | with_reducible apply setCore_memsOk | simp only [memsOk_mk, memsOk_fold]

end Sys2Proof.Machine
end

