-- ==== Sys2Proof/Tests/Slice0.lean ====
section
/-! SUPPORT. Tests: words of the spec's encoding tables, ill-formed terms, results worked out by hand from the rules, and for every statement with hypotheses a state that meets them. -/

namespace Sys2Proof.Tests
open Machine
set_option Elab.async false

/-! The test machine: VF 1 runs on half tile 0, domain 1 owns every page. -/

/-- A leaf entry with every attribute, DT 1 (R122). -/
def leafOf (tt frame : Nat) : Nat := 0x3F + frame + 2 ^ 52 + tt * 2 ^ 60

/-- Places of entries and their values: level 0 at 0x10000, level 1 at 0x14000 (HBM, host, a table, peer device 7), level 2 at 0x18000, level 3 at 0x1C000 (scratchpad of core 0 in two pages, WB and AB of tile 0, the state window); the descriptor of domain 1 at 0x20020. -/
def tables : List (Nat × Nat) :=
  [(0x10000, 0x14001), (0x14000, leafOf 0 0), (0x14008, leafOf 1 0), (0x14010, 0x18001), (0x14018, leafOf 5 (7 * 2 ^ 40)),
   (0x18000, 0x1C001), (0x1C000, leafOf 2 0), (0x1C008, leafOf 2 0x8000), (0x1C010, leafOf 3 0), (0x1C018, leafOf 4 0), (0x1C020, leafOf 3 0x180000),
   (0x20020, 0x40000040), (0x20028, 0xFFFF), (0x20030, 0xFFFFFFFF)]

/-- HBM with the tables. -/
def hbm0 : Mem := tables.foldl (fun m p => wrNat m p.1 8 p.2) []

/-- A function that runs, with its tables. -/
def fn0 : Fn := { Fn.reset with featdrv := 0x800000000000003F, quiesced := false, ptroot := 0x10000, dombase := 0x20000, qtbase := 0x30000 }

/-- VF 1, with the first 4 GiB of HBM and half tile 0. -/
def fn1 : Fn :=
  let c : Ctl := ⟨0, 0x100000000, BitVec.ofNat 64 (64 + 8 * 2 ^ 16 + 16 * 2 ^ 40 + 2 * 2 ^ 49), 0, 1⟩
  { fn0 with ctlNew := c, ctlAct := c }

/-- The PC of the tests. -/
def pc0 : Word := 0x40000000

/-- A line of NOPs whose slots all have TGT and ENT. -/
def line0 : Line := lineWith 0xE03000000000000000000000 ||| 0x3FF

/-- A spoke of domain 1 at the first slot of a held line. -/
def sp0 : Spoke :=
  { Spoke.reset with ctx := .live, pc := pc0, dom := 1, k := Vector.replicate 4 0xFFFFFFFF
                     line := ⟨pc0, line0, true, false, 0, 2 ^ 35, 0x40000000⟩ }

/-- The device of the tests, spoke `n` of core 0 issuing; spoke 1 is live too. -/
def dev (n : Nat) (h p : Spoke) : State :=
  { State.reset with
    halves := [(0, ⟨1, defaultTrowel, none, 0, [], false⟩)], fns := [(0, fn0), (1, fn1)], hbm := hbm0
    cores := [(0, { Core.reset with hub := h, ctx := { CoreCtx.reset with spokes := [(1, p)] } })]
    cur := ⟨0, n, 1, pc0, pc0 + 1, false, false, false, false, false, false, false⟩ }

/-- The hub spoke issues. -/
def hub (f : Spoke → Spoke) : State := dev 0 (f sp0) sp0

/-- Spoke 1 issues. -/
def usr (f : Spoke → Spoke) : State := dev 1 sp0 (f sp0)

/-- Values for registers. -/
def regs (l : List (Fin 32 × Word)) (p : Spoke) : Spoke := l.foldl (fun p x => p.wrG x.1 x.2) p

/-- Values for all lanes of vector registers. -/
def vregs (l : List (Fin 8 × Lane)) (p : Spoke) : Spoke := l.foldl (fun p x => p.wrV x.1 (Vector.replicate 32 x.2)) p

/-- A source without SYN. -/
def r (n : Fin 32) : Src := ⟨n, false⟩

/-- A vector source without SYN. -/
def w (n : Fin 8) : VSrc := ⟨n, false⟩

/-! Reading answers. -/

/-- The spoke `n` of core 0 after an answer. -/
def spOf (n : Nat) (o : Out) : Option Spoke := match o with | .next s => some (getSp s 0 n 1) | _ => none

/-- A register of the issuing spoke after an instruction. -/
def gAfter (i : Instr) (s : State) (d : Fin 32) : Option Word := (spOf s.cur.sp (exec i s)).map (·.rdG d)

/-- A lane of a vector register after an instruction. -/
def vAfter (i : Instr) (s : State) (d : Fin 8) (j : Fin 32) : Option Lane := (spOf s.cur.sp (exec i s)).map fun p => p.v[d].val[j]

/-- The PC after an instruction. -/
def pcAfter (i : Instr) (s : State) : Option Word := (spOf s.cur.sp (exec i s)).map (·.pc)

/-- The state after an answer. -/
def stAfter (o : Out) : State := match o with | .next s => s | _ => State.reset

/-- The checks of Ready, computed. -/
def readyB (i : Instr) (s : State) : Bool :=
  (wordFault s i).isNone && (s.cur.checked || ((curSp s).owed.isEmpty && (firstEmpty (curSp s) [i]).isNone))
    && !(Instr.dests i).any (fun r => (curSp s).pendR r != .no)
    && ((curSp s).win.isEmpty || (!unitSeals s [i] && !blocked (curSp s)))

theorem ready_of {i : Instr} {s : State} (h : readyB i s = true) : Ready i s := by
  simp only [readyB, Bool.and_eq_true, Bool.or_eq_true, Bool.not_eq_true', List.isEmpty_iff, Option.isNone_iff_eq_none] at h
  exact ⟨h.1.1.1, h.1.1.2, h.1.2, h.2⟩

theorem ready_all {α : Type} {l : List α} {f : α → Instr} {s : State} (h : l.all (fun e => readyB (f e) s) = true) :
    ∀ e ∈ l, Ready (f e) s := fun e he => ready_of (List.all_eq_true.mp h e he)

/-! Group 000. -/

/-- Small numbers in g1, g2, a handle of spoke 1 in g4, one of the hub spoke in g5. -/
def sA : State := usr (regs [(1, 5), (2, 7), (4, 0x10000), (5, 0), (6, 0xFFFFFFFFFFFFFFFF), (7, 0x8000000000000000)])

theorem wit_scalar : ∀ p ∈ arithTable sA (.loc 3) (r 1) (r 2) 1 false .eq ++ logicTable sA (.loc 3) (r 1) (r 2) 1, Ready p.1 sA :=
  ready_all (by decide +kernel)
theorem wit_scalar_to_zero : ∀ p ∈ arithTable sA (.loc 0) (r 1) (r 2) 1 true .ltu ++ logicTable sA (.loc 0) (r 1) (r 2) 1, Ready p.1 sA :=
  ready_all (by decide +kernel)
theorem wit_move : (∀ p ∈ moveTable sA (.loc 3) (r 1) 1 2, Ready p.1 sA) ∧ Ready (.sel 3 (r 1) (r 2) (r 4)) sA :=
  ⟨ready_all (by decide +kernel), ready_of (by decide +kernel)⟩
theorem wit_fields : ∀ i ∈ ([.bfx (.loc 3) (r 6) 60 4, .bfi (.loc 3) (r 1) (r 6) 0 64, .sext (.loc 3) (r 1) 64, .clz (.loc 3) (r 1), .ctz (.loc 3) (r 1),
    .popc (.loc 3) (r 1)] : List Instr), Ready i sA := ready_all (f := id) (by decide +kernel)
theorem wit_remote : (∀ p ∈ arithTable sA (.remote 3 (r 4)) (r 1) (r 2) 1 false .eq ++ logicTable sA (.remote 3 (r 4)) (r 1) (r 2) 1, Ready p.1 sA)
    ∧ remoteTarget sA (src sA (r 4)) = .ok (0, 1, 1) ∧ remoteTarget sA (src sA (r 6)) = .error .illegalField :=
  ⟨ready_all (by decide +kernel), by decide +kernel⟩
theorem wit_divisions : (curSp sA).win = [] ∧ (∀ p ∈ divTable sA (.loc 3) (r 1) (r 5) 1 false, Ready p.1 sA)
    ∧ (∀ p ∈ divTable sA (.remote 3 (r 4)) (r 7) (r 6) 1 true, Ready p.1 sA) ∧ remoteTarget sA (src sA (r 4)) = .ok (0, 1, 1) :=
  ⟨by decide +kernel, ready_all (by decide +kernel), ready_all (by decide +kernel), by decide +kernel⟩
theorem wit_division_ends : (getSp (usr fun p => { p with divs := [⟨3, none, 9, false⟩, ⟨4, some (0, 0, 1), 8, false⟩] }) 0 1 1).divs
    = [⟨3, none, 9, false⟩, ⟨4, some (0, 0, 1), 8, false⟩] := by decide +kernel
theorem wit_division_held : (⟨3, some (0, 0, 1), 9, true⟩ : DivPend).late = true ∧ blocked { sp0 with divs := [⟨4, none, 8, false⟩] } = true := by decide +kernel

/-- R329: sums wrap. -/
theorem test_add_wraps : gAfter (.addRri (.loc 3) (r 6) 1) sA 3 = some 0 := by decide +kernel

/-- R322: IMM48 is sign-extended. -/
theorem test_add_imm_signed : gAfter (.addRri (.loc 3) (r 1) 0xFFFFFFFFFFFF) sA 3 = some 4 := by decide +kernel

/-- R405: gA - gB. -/
theorem test_sub : gAfter (.subRrr (.loc 3) (r 1) (r 2)) sA 3 = some 0xFFFFFFFFFFFFFFFE := by decide +kernel
theorem test_sub_imm : gAfter (.subRri (.loc 3) (r 2) 5) sA 3 = some 2 := by decide +kernel

/-- R380: the low and the high 64 bits of a product: (-1)², signed and unsigned. -/
theorem test_mul : gAfter (.mulRrr (.loc 3) (r 6) (r 6)) sA 3 = some 1 := by decide +kernel
theorem test_mul_imm : gAfter (.mulRri (.loc 3) (r 1) 3) sA 3 = some 15 := by decide +kernel
theorem test_mulh_signed : gAfter (.mulhRrr (.loc 3) (r 6) (r 6) false) sA 3 = some 0 := by decide +kernel
theorem test_mulh_unsigned : gAfter (.mulhRrr (.loc 3) (r 6) (r 6) true) sA 3 = some 0xFFFFFFFFFFFFFFFE := by decide +kernel
theorem test_mulh_imm : gAfter (.mulhRri (.loc 3) (r 7) 2 true) sA 3 = some 1 := by decide +kernel

/-- R330: ANDN is gA and not gB. -/
theorem test_and : gAfter (.andRrr (.loc 3) (r 1) (r 2)) sA 3 = some 5 := by decide +kernel
theorem test_or : gAfter (.orRri (.loc 3) (r 1) 0xFFFFFFFFFFF0) sA 3 = some 0xFFFFFFFFFFFFFFF5 := by decide +kernel
theorem test_xor : gAfter (.xorRrr (.loc 3) (r 1) (r 2)) sA 3 = some 2 := by decide +kernel
theorem test_andn : gAfter (.andnRrr (.loc 3) (r 2) (r 1)) sA 3 = some 2 := by decide +kernel

/-- R392: the shift amount is taken modulo 64. -/
theorem test_shl : gAfter (.shlRri (.loc 3) (r 1) 65) sA 3 = some 10 := by decide +kernel
theorem test_shr : gAfter (.shrRri (.loc 3) (r 7) 63) sA 3 = some 1 := by decide +kernel
theorem test_sra : gAfter (.sraRrr (.loc 3) (r 7) (r 6)) sA 3 = some 0xFFFFFFFFFFFFFFFF := by decide +kernel
theorem test_rot : gAfter (.rotRri (.loc 3) (r 7) 1) sA 3 = some 1 := by decide +kernel

/-- R372: signed and unsigned order of -1 and 5. -/
theorem test_min_signed : gAfter (.minRrr (.loc 3) (r 6) (r 1) false) sA 3 = some 0xFFFFFFFFFFFFFFFF := by decide +kernel
theorem test_min_unsigned : gAfter (.minRri (.loc 3) (r 6) 5 true) sA 3 = some 5 := by decide +kernel
theorem test_max_signed : gAfter (.maxRrr (.loc 3) (r 6) (r 1) false) sA 3 = some 5 := by decide +kernel
theorem test_max_unsigned : gAfter (.maxRri (.loc 3) (r 6) 5 true) sA 3 = some 0xFFFFFFFFFFFFFFFF := by decide +kernel

/-- R341. -/
theorem test_cmp_lt : gAfter (.cmpRrr (.loc 3) (r 6) (r 1) .lt) sA 3 = some 1 := by decide +kernel
theorem test_cmp_ltu : gAfter (.cmpRri (.loc 3) (r 6) 5 .ltu) sA 3 = some 0 := by decide +kernel

/-- R340: CLZ and CTZ of 0 are 64. -/
theorem test_clz : gAfter (.clz (.loc 3) (r 5)) sA 3 = some 64 := by decide +kernel
theorem test_ctz : gAfter (.ctz (.loc 3) (r 7)) sA 3 = some 63 := by decide +kernel
theorem test_popc : gAfter (.popc (.loc 3) (r 6)) sA 3 = some 64 := by decide +kernel

/-- R393: SEL takes gB when gA is not 0. -/
theorem test_sel : gAfter (.sel 3 (r 1) (r 2) (r 4)) sA 3 = some 7 ∧ gAfter (.sel 3 (r 5) (r 2) (r 4)) sA 3 = some 0x10000 := by decide +kernel
theorem test_mov : gAfter (.mov (.loc 3) (r 2)) sA 3 = some 7 := by decide +kernel

/-- R367: LI extends its sign, LIH keeps the low 48 bits of gA. -/
theorem test_li : gAfter (.li (.loc 3) 0x800000000000) sA 3 = some 0xFFFF800000000000 := by decide +kernel
theorem test_lih : gAfter (.lih (.loc 3) (r 1) 0xABCD) sA 3 = some 0xABCD000000000005 := by decide +kernel

/-- R364: LEA without a base register is relative to the line of its PC. -/
theorem test_lea : gAfter (.lea (.loc 3) none 0x40) sA 3 = some 0x40000040 := by decide +kernel

/-- R334, R395. -/
theorem test_bfx : gAfter (.bfx (.loc 3) (r 7) 60 4) sA 3 = some 8 := by decide +kernel
theorem test_bfi : gAfter (.bfi (.loc 3) (r 1) (r 5) 8 4) sA 3 = some 0x500 := by decide +kernel
theorem test_sext : gAfter (.sext (.loc 3) (r 1) 3) sA 3 = some 0xFFFFFFFFFFFFFFFD := by decide +kernel

/-- R15: g0 discards a write. -/
theorem test_g0 : gAfter (.addRrr (.loc 0) (r 1) (r 2)) sA 0 = some 0 := by decide +kernel

/-- R351: the quotient of -2^63 by -1 wraps; R389: the remainder of a division by 0 is the dividend. -/
theorem test_div : (spOf 1 (exec (.divRrr (.loc 3) (r 7) (r 6) false) sA)).map (·.divs) = some [⟨3, none, 0x8000000000000000, false⟩] := by decide +kernel
theorem test_div_zero : (spOf 1 (exec (.divRri (.loc 3) (r 7) 0 true) sA)).map (·.divs) = some [⟨3, none, 0xFFFFFFFFFFFFFFFF, false⟩] := by decide +kernel
theorem test_rem : (spOf 1 (exec (.remRri (.loc 3) (r 6) 4 false) sA)).map (·.divs) = some [⟨3, none, 0xFFFFFFFFFFFFFFFF, false⟩] := by decide +kernel
theorem test_rem_zero : (spOf 1 (exec (.remRrr (.loc 3) (r 1) (r 5) true) sA)).map (·.divs) = some [⟨3, none, 5, false⟩] := by decide +kernel

/-- R27: a remote result becomes a message. -/
theorem test_remote : (stAfter (exec (.addRrr (.remote 3 (r 4)) (r 1) (r 2)) sA)).mesh = [⟨1, 0, 1, 3, false, 0, 1, 1, 12, 0⟩] := by decide +kernel

/-! Presence. -/

/-- g1 is empty. -/
def sEmpty : State := usr fun p => p.clrG 1
theorem wit_empty_source : (Instr.addRrr (.loc 3) (r 1) (r 2)).isWord = true ∧ wordFault sEmpty (.addRrr (.loc 3) (r 1) (r 2)) = none
    ∧ sEmpty.cur.checked = false ∧ (curSp (sealWin sEmpty 0 1 1 pc0)).owed = []
    ∧ firstEmpty (curSp (sealWin sEmpty 0 1 1 pc0)) [.addRrr (.loc 3) (r 1) (r 2)] = some (.g 1) ∧ firstEmpty (curSp sEmpty) [.addRrr (.loc 3) (r 1) (r 2)] = some (.g 1) ∧ (curSp sEmpty).win = [] := by decide +kernel
theorem wit_empty_vector : firstEmpty (curSp (usr fun p => p.clrV 2)) [.vadd .rne false 0 1 (w 2) (w 3)] = some (.v 2) := by decide +kernel
theorem wit_parked_on_source : let p := getSp (usr fun p => { p with park := .gsrc 1 }) 0 1 1
    p.ctx = .live ∧ p.divs = [] ∧ p.outst.any (·.plain) = false ∧ p.park = parkOn (.g 1) := by decide +kernel

/-- R21: a SYN source is read and cleared, a destination that is the consumed register ends full. -/
theorem test_syn : (spOf 1 (exec (.addRrr (.loc 1) ⟨1, true⟩ ⟨1, false⟩) sA)).map (·.g[1]) = some ⟨10, true, .no⟩
    ∧ (spOf 1 (exec (.addRrr (.loc 3) ⟨1, true⟩ ⟨1, true⟩) sA)).map (·.g[1]) = some ⟨5, false, .no⟩ := by decide +kernel

/-- R19: an empty source parks. -/
theorem test_parks : (spOf 1 (exec (.addRrr (.loc 3) (r 1) (r 2)) sEmpty)).map (fun p => (p.park, p.pc)) = some (.gsrc 1, pc0) := by decide +kernel

/-! Traps. -/

/-- The stack of spoke 1 at 0x1000. -/
def sT : State := usr (regs [(30, 0x1000)])
theorem wit_trap_taken : trapVec sT 1 1 = 0x40000040 ∧ (getSp sT 0 1 1).drs.length < 16 ∧ (getSp sT 0 1 1).fullG 30 = true ∧ pcOk (trapVec sT 1 1) = true
    ∧ (storeFrame sT 0 1 1 0xFE0 none [0x10081, 1, 2, 3]).2 = true ∧ sT.soft = none := by decide +kernel
theorem wit_frame : pathBad 0xFE0 = false ∧ pathOf 0xFE0 = 0 ∧ (0xFE0 : Word).toNat % 8 = 0 ∧ (getSp sT 0 1 1).outst = []
    ∧ checked sT 0 1 (getSp sT 0 1 1).dom (getSp sT 0 1 1).lends.toList 0xFE0 8 true 2 (stTT 0)
      = .ok ⟨⟨.hbm, 0xFE0⟩, BitVec.ofNat 64 (leafOf 0 0), 35⟩ := by decide +kernel
theorem wit_core_stops : let s := { dev 0 sp0 sp0 with hbm := [] }
    trapVec s 1 (getSp s 0 0 1).dom = 0 ∧ trapVec s 1 kernelDom = 0 ∧ (getSp s 0 1 1).ctx = .live := by decide +kernel
theorem wit_trap_kills : getPop sT 1 (getSp sT 0 1 1).ltag = none ∧ 16 ≤ (getSp (usr fun p => { p with drs := List.replicate 16 ⟨1, pc0, 0, true⟩ }) 0 1 1).drs.length := by
  decide +kernel

/-- A stack that cannot be written; a vector that is no PC; a member of a population in a domain without a vector. -/
theorem wit_trap_frame : let s := usr (regs [(30, 0x2000000000001020)])
    (storeFrame s 0 1 1 0x2000000000001000 none [0x10081, 1, 2, 3]).2 = false ∧ (getSp s 0 1 1).rdG 30 - 32 = 0x2000000000001000
    ∧ trapVec s 1 1 ≠ 0 ∧ (getSp s 0 1 1).drs.length < 16 ∧ getPop s 1 0 = none
    ∧ (let u := { sT with hbm := wrNat hbm0 0x20020 8 0x40000045 }; trapVec u 1 1 ≠ 0 ∧ pcOk (trapVec u 1 1) = false) := by decide +kernel

/-- A population of two members, one of which is spoke 1. -/
def popT : Pop := ⟨1, 5, .queue 1 0, 9, 2, 1, pc0, 77, [4, 5, 6], 1, 1, 0x800, 64, [], 0, 6144, 0, false⟩

/-- The device with it. -/
def sPopT : State := { usr (fun p => { p with ltag := 5, dom := 3 }) with pops := [(popKey 1 5, popT)] }
theorem wit_trap_population : getPop sPopT 1 (getSp sPopT 0 1 1).ltag = some popT ∧ popT.vf = 1 ∧ popT.tag = (getSp sPopT 0 1 1).ltag ∧ popT.tag ≠ 0
    ∧ trapVec sPopT 1 (getSp sPopT 0 1 1).dom = 0 ∧ (getSp sPopT 0 1 1).ctx = .live ∧ (getFn sPopT 1).tring.room = false
    ∧ (let s := { sPopT with fns := [(0, fn0), (1, { fn1 with tring := { Ring.reset with base := 0x5000, ctl := BitVec.ofNat 64 (4 + 2 ^ 40) } })] }
      (getFn s 1).tring.room = true) := by decide +kernel

/-- R266: the population is killed, and its member ends as SPKILL ends it. -/
theorem test_population_kill : let u := takeTrap sPopT 0 1 1 ⟨.align, pc0, pc0 + 1, 0, 0, 0⟩
    (getSp u 0 1 1).ctx = .ended ∧ (getPop u 1 5).map (fun x => (x.killed, x.nextIdx)) = some (true, 2) := by decide +kernel
theorem wit_trap_instr : Ready (.trap 3) sT ∧ Ready .ill sT ∧ (curSp sT).win = [] ∧ (curSp sT).owed = [] ∧ sT.cur.paired = false :=
  ⟨ready_of (by decide +kernel), ready_of (by decide +kernel), by decide +kernel⟩

/-- A TRAP record on top of the stack. -/
def sR : State := usr fun p => { p with drs := [⟨1, pc0 + 2, 0, true⟩] }
theorem wit_tret : Ready .tret sR ∧ (curSp sR).drs.getLast? = some ⟨1, pc0 + 2, 0, true⟩ ∧ Ready .dret sR :=
  ⟨ready_of (by decide +kernel), by decide +kernel, ready_of (by decide +kernel)⟩
theorem wit_tret_empty : Ready .tret sT ∧ (curSp sT).drs.getLast? = none := ⟨ready_of (by decide +kernel), by decide +kernel⟩
theorem wit_tret_call : let s := usr fun p => { p with drs := [⟨1, pc0 + 2, 0, false⟩] }
    Ready .tret s ∧ (curSp s).drs.getLast? = some ⟨1, pc0 + 2, 0, false⟩ := ⟨ready_of (by decide +kernel), by decide +kernel⟩

/-- R264, R411: TRAP #3 stores its frame below g30, pushes a record and goes to TRAPV; R265: TRET returns. -/
theorem test_trap : let s := stAfter (exec (.trap 3) sT)
    (getSp s 0 1 1).pc = 0x40000040 ∧ (getSp s 0 1 1).rdG 30 = 0xFE0 ∧ (getSp s 0 1 1).drs = [⟨1, pc0 + 1, 0, true⟩]
      ∧ hbmN s 0xFE0 8 = 0x10000 + FaultCode.num (.trapN 3) ∧ hbmN s 0xFE8 8 = 0x40000000 ∧ hbmN s 0xFF0 8 = 0x40000001 := by decide +kernel
theorem test_tret : pcAfter .tret sR = some (pc0 + 2) := by decide +kernel

/-- R359: ILL raises ILLEGAL_OP. -/
theorem test_ill : hbmN (stAfter (exec .ill sT)) 0xFE0 8 = 0x10000 + FaultCode.num .illegalOp := by decide +kernel

/-! Group 001. -/

/-- g1 holds the PC of slot 2 of the held line, g2 one of slot 5, which is no slot, g3 one of the next line. -/
def sC : State := usr (regs [(1, 0x40000002), (2, 0x40000005), (3, 0x40000040), (4, 2), (5, 1)])

/-- The target: slot 2 of the line of the branch. -/
def here : BrTarget := ⟨0, 2⟩
theorem wit_within : (∀ e ∈ transferTable sC 7 4 (r 1) true here, e.2.2.2.2 = true ∧ Ready e.1 sC ∧ Within sC e.2.1 e.2.2.1) := by
  intro e he
  have h := List.all_eq_true.mp (show (transferTable sC 7 4 (r 1) true here).all (fun e => e.2.2.2.2 && readyB e.1 sC
    && (entryCode e.2.1 (curSp sC).line.line (slotOf e.2.2.1) false true == none) && (lineOf e.2.2.1 == (curSp sC).line.addr)) = true by decide +kernel) e he
  simp only [Bool.and_eq_true, beq_iff_eq] at h
  exact ⟨h.1.1.1, ready_of h.1.1.2, by decide +kernel, by decide +kernel, h.2, h.1.2⟩

/-- A line with its parity bits set (R53). -/
def parity (l : Line) : Line := l ||| BitVec.ofNat 512 (((List.range 16).map fun c => (xorBits 30 (fieldN l (32 + 30 * c) 30)).toNat * 2 ^ (16 + c)).sum)

/-- The next line of memory holds NOPs. -/
def sN : State := { sC with hbm := wrNat sC.hbm 0x40000040 64 (parity line0).toNat }
theorem wit_elsewhere : ∀ e ∈ transferTable sN 7 4 (r 3) true ⟨1, 0⟩, e.2.2.2.2 = true ∧ Ready e.1 sN
    ∧ ∃ x, Elsewhere (taken e.1 sN) e.2.2.1 x ∧ lineHit (taken e.1 sN) sN.cur.core x = false := by
  intro e he
  have h := List.all_eq_true.mp (show (transferTable sN 7 4 (r 3) true ⟨1, 0⟩).all (fun e => e.2.2.2.2 && readyB e.1 sN && (lineOf e.2.2.1 != pc0)
    && (match fetchLine (taken e.1 sN) (taken e.1 sN).cur.core (taken e.1 sN).cur.vf e.2.2.1 with | .ok x => !lineHit (taken e.1 sN) sN.cur.core x | _ => false)
    && (curSp (taken e.1 sN)).line.addr == pc0) = true by decide +kernel) e he
  simp only [Bool.and_eq_true, bne_iff_ne, beq_iff_eq] at h
  obtain ⟨⟨⟨⟨h1, h2⟩, h3⟩, h4⟩, h5⟩ := h
  refine ⟨h1, ready_of h2, ?_⟩
  unfold Elsewhere
  rw [h5]
  split at h4
  · rename_i x hx
    exact ⟨x, ⟨fun h => h3 h.2.2, hx⟩, by simpa using h4⟩
  · cases h4

/-- The read cache of tile 0 holds the next line: whether it is evicted first is free. -/
theorem wit_elsewhere_held : let s := { sN with rcache := [(0, [⟨.hbm, 0x1000001, parity line0⟩])] }
    Ready (.br ⟨1, 0⟩) s ∧ (curSp s).win = [] ∧ (fetchLine s 0 1 0x40000040).toOption.map (fun x => (rfind s 0 x.loc).isSome) = some true :=
  ⟨ready_of (by decide +kernel), by decide +kernel⟩

/-- The same line with every TGT bit clear. -/
def sClear : State := usr fun p => { regs [(1, 0x40000002), (4, 2), (5, 1)] p with line := { p.line with line := 0 } }
theorem wit_target_clear : ∀ e ∈ transferTable sClear 7 4 (r 1) true here, e.2.2.2.2 = true ∧ Ready e.1 sClear ∧ (curSp sClear).line.present = true
    ∧ (curSp sClear).line.stale = false ∧ lineOf e.2.2.1 = (curSp sClear).line.addr ∧ lineTgt (curSp sClear).line.line (slotOf e.2.2.1) = false := by
  intro e he
  have h := List.all_eq_true.mp (show (transferTable sClear 7 4 (r 1) true here).all (fun e => e.2.2.2.2 && readyB e.1 sClear
    && lineOf e.2.2.1 == (curSp sClear).line.addr && (lineTgt (curSp sClear).line.line (slotOf e.2.2.1) == false)) = true by decide +kernel) e he
  simp only [Bool.and_eq_true, beq_iff_eq] at h
  exact ⟨h.1.1.1, ready_of h.1.1.2, by decide +kernel, by decide +kernel, h.1.2, h.2⟩
theorem wit_bad_pc : Ready (.bri (r 2)) sC ∧ Ready (.ret (r 2)) sC ∧ Ready (.dcallReg 7 (r 2)) sC ∧ (curSp sC).drs.length < 16 ∧ pcOk (src sC (r 2)) = false :=
  ⟨ready_of (by decide +kernel), ready_of (by decide +kernel), ready_of (by decide +kernel), by decide +kernel⟩
theorem wit_stack_full : let s := usr fun p => { p with drs := List.replicate 16 ⟨1, pc0, 0, false⟩ }
    Ready (.dcallLabel 7 here) s ∧ Ready (.dcallReg 7 (r 1)) s ∧ 16 ≤ (curSp s).drs.length :=
  ⟨ready_of (by decide +kernel), ready_of (by decide +kernel), by decide +kernel⟩
theorem wit_fall_through : Ready (.bc (r 6) true here) sC ∧ ((src sC (r 6) != 0) == true) = false ∧ Ready (.loop 6 here) sC ∧ (curSp sC).rdG 6 = 0
    ∧ Ready (.loop 5 here) sC ∧ (curSp sC).rdG 5 = 1 :=
  ⟨ready_of (by decide +kernel), by decide +kernel, ready_of (by decide +kernel), by decide +kernel, ready_of (by decide +kernel), by decide +kernel⟩

/-- A CALL record, a lend that it opened, one pending. -/
def sD : State := usr fun p => { p with drs := [⟨2, pc0 + 3, 1, false⟩]
                                        lends := (p.lends.set 0 ⟨0, 16, true, 2, 1, .opened, 0⟩).set 1 ⟨0, 16, true, 1, 0, .pending, 0⟩ }
theorem wit_dret : Ready .dret sD ∧ (curSp sD).drs.getLast? = some ⟨2, pc0 + 3, 1, false⟩ ∧ Within sD .dret (pc0 + 3) :=
  ⟨ready_of (by decide +kernel), by unfold Within; decide +kernel⟩

/-- The same record with a return PC in the next line, which stands in memory; in the read cache, it may be evicted first. -/
def sD2 : State := { usr (fun p => { p with drs := [⟨2, 0x40000040, 1, false⟩] }) with hbm := wrNat hbm0 0x40000040 64 (parity line0).toNat }
theorem wit_dret_elsewhere : Ready .dret sD2 ∧ (curSp sD2).drs.getLast? = some ⟨2, 0x40000040, 1, false⟩ ∧ (curSp sD2).win = []
    ∧ (match fetchLine (taken .dret sD2) 0 1 0x40000040 with | .ok x => !lineHit (taken .dret sD2) 0 x | _ => false) = true
    ∧ (curSp (taken .dret sD2)).line.addr = pc0
    ∧ (fetchLine { sD2 with rcache := [(0, [⟨.hbm, 0x1000001, parity line0⟩])] } 0 1 0x40000040).toOption.isSome = true :=
  ⟨ready_of (by decide +kernel), by decide +kernel⟩
theorem wit_dcall_lends : let p := (curSp sD); p.lends[(1 : Fin 8)].st = .pending ∧ p.lends[(1 : Fin 8)].lender = 1 ∧ p.lends[(0 : Fin 8)].st ≠ .pending := by
  decide +kernel
theorem wit_spend : Ready .spend sA ∧ sA.cur.sp ≠ 0 ∧ (curSp sA).pub = none ∧ spendReady (spendClose (taken .spend sA) 0 1 1) 0 1 1 = true
    ∧ (getSp (spendClose (taken .spend sA) 0 1 1) 0 1 1).pub = none :=
  ⟨ready_of (by decide +kernel), by decide +kernel⟩

/-- R333, R349, R353, R368, R390. -/
theorem test_branches : pcAfter (.br here) sC = some 0x40000002 ∧ pcAfter (.bc (r 4) true here) sC = some 0x40000002
    ∧ pcAfter (.bc (r 4) false here) sC = some 0x40000001 := by decide +kernel
theorem test_bri_ret : pcAfter (.bri (r 1)) sC = some 0x40000002 ∧ pcAfter (.ret (r 1)) sC = some 0x40000002 := by decide +kernel
theorem test_call : pcAfter (.call 7 here) sC = some 0x40000002 ∧ gAfter (.call 7 here) sC 7 = some 0x40000001 := by decide +kernel
theorem test_loop : gAfter (.loop 4 here) sC 4 = some 1 ∧ pcAfter (.loop 4 here) sC = some 0x40000002 ∧ pcAfter (.loop 5 here) sC = some 0x40000001
    ∧ gAfter (.loop 5 here) sC 5 = some 0 := by decide +kernel
theorem test_dcall : (spOf 1 (exec (.dcallLabel 7 here) sC)).map (·.drs) = some [⟨1, 0x40000001, 0, false⟩]
    ∧ pcAfter (.dcallReg 7 (r 1)) sC = some 0x40000002 := by decide +kernel
theorem test_dret : (spOf 1 (exec .dret sD)).map (fun p => (p.pc, p.drs, p.lends[(0 : Fin 8)].st, p.lends[(1 : Fin 8)].st)) = some (pc0 + 3, [], .free, .free) := by
  decide +kernel
theorem test_spend : (spOf 1 (exec .spend sA)).map (fun p => (p.ctx, reapWord p)) = some (.ended, 0) := by decide +kernel

/-! Group 010. -/

/-- g1 an HBM address, g2 one of host memory, g3 a scratchpad word, g4 data, g5 the state window, g6 a device's peer memory, g8 a misaligned one. -/
def sM : State := usr (regs [(1, 0x100), (2, 0x800000000), (3, 0x6000001000000000), (4, 0x1122334455667788), (5, 0xA000001000018000), (6, 0x1800000000), (8, 0x101), (30, 0x1000)])

/-- The page of HBM. -/
def pageH : Word := BitVec.ofNat 64 (leafOf 0 0)
theorem wit_ld : Ready (.ld false 7 (r 1) .w true 8) sM ∧ (curSp sM).win = []
    ∧ scalarAts (taken (.ld false 7 (r 1) .w true 8) sM) 0x108 4 false 1 [0, 1, 3, 5] = .ok ⟨⟨.hbm, 0x108⟩, pageH, 35⟩ :=
  ⟨ready_of (by decide +kernel), by decide +kernel⟩
theorem wit_ld_host : Ready (.ld true 7 (r 2) .d false 0) { sM with ats := [(2 ^ 52, 0)] } ∧
    scalarAts (taken (.ld true 7 (r 2) .d false 0) { sM with ats := [(2 ^ 52, 0)] }) 0x800000000 8 false 1 [0, 1, 3, 5]
      = .ok ⟨⟨.host, 0⟩, BitVec.ofNat 64 (leafOf 1 0), 35⟩ := ⟨ready_of (by decide +kernel), by decide +kernel⟩
theorem wit_st : Ready (.st true (r 3) (r 4) .b 7) sM ∧
    scalarAts (taken (.st true (r 3) (r 4) .b 7) sM) 0x6000001000000007 1 true 2 [0, 3, 5] = .ok ⟨⟨.scr, 7⟩, BitVec.ofNat 64 (leafOf 2 0), 15⟩ :=
  ⟨ready_of (by decide +kernel), by decide +kernel⟩
theorem wit_window : Ready (.ld false 7 (r 5) .d false 0x68) sM ∧ Ready (.st false (r 5) (r 4) .d 0x68) sM ∧
    scalarAts (taken (.ld false 7 (r 5) .d false 0x68) sM) 0xA000001000018068 8 false 1 [0, 1, 3, 5] = .ok ⟨⟨.stw, 0x68⟩, BitVec.ofNat 64 (leafOf 4 0), 15⟩ ∧
    scalarAts (taken (.st false (r 5) (r 4) .d 0x68) sM) 0xA000001000018068 8 true 2 [0, 3, 5] = .ok ⟨⟨.stw, 0x68⟩, BitVec.ofNat 64 (leafOf 4 0), 15⟩ :=
  ⟨ready_of (by decide +kernel), ready_of (by decide +kernel), by decide +kernel⟩
theorem wit_atomics : ∀ e ∈ atomicTable true true 7 (r 1) (r 4) (r 2) .w 0 sM, Ready e.1 sM ∧
    scalar (taken e.1 sM) 0x100 4 true 3 [0, 3] = .ok ⟨⟨.hbm, 0x100⟩, pageH, 35⟩ ∧ atsCheck sM 1 0x100 3 ⟨.hbm, 0x100⟩ = .ok () := by
  intro e he
  have h := List.all_eq_true.mp (show (atomicTable true true 7 (r 1) (r 4) (r 2) .w 0 sM).all (fun e => readyB e.1 sM
    && decide (scalar (taken e.1 sM) 0x100 4 true 3 [0, 3] = .ok ⟨⟨.hbm, 0x100⟩, pageH, 35⟩)) = true by decide +kernel) e he
  simp only [Bool.and_eq_true, decide_eq_true_eq] at h
  exact ⟨ready_of h.1, h.2, by decide +kernel⟩

/-- Spoke 1 waits for the reply of a plain access. -/
def sQ (k : ReqKind) (n : Nat) (l : Loc) (x : Nat) : State :=
  { usr fun p => { p with outst := [⟨5, k, n, [⟨0, l, x, false⟩], [], true, false, [], pc0, pc0 + 1, 0⟩] } with
    hbm := wrNat hbm0 0x100 8 0x8899AABBCCDDEEFF, nextId := 6 }
theorem wit_load_reply : (getSp (sQ (.load 7 true) 4 ⟨.hbm, 0x100⟩ 0) 0 1 1).outst[0]? =
      some ⟨5, .load 7 true, 4, [⟨0, ⟨.hbm, 0x100⟩, 0, false⟩], [], true, false, [], pc0, pc0 + 1, 0⟩ ∧ Ordinary ⟨.hbm, 0x100⟩
    ∧ FirstAt (getSp (sQ (.load 7 true) 4 ⟨.hbm, 0x100⟩ 0) 0 1 1) 5 ⟨.hbm, 0x100⟩ 4 :=
  ⟨by decide +kernel, ⟨by decide, .inl (by decide)⟩, by unfold FirstAt; decide +kernel⟩
theorem wit_store_reply : (getSp (sQ .store 4 ⟨.hbm, 0x100⟩ 0x12345678) 0 1 1).outst[0]? =
      some ⟨5, .store, 4, [⟨0, ⟨.hbm, 0x100⟩, 0x12345678, false⟩], [], true, false, [], pc0, pc0 + 1, 0⟩
    ∧ FirstAt (getSp (sQ .store 4 ⟨.hbm, 0x100⟩ 0x12345678) 0 1 1) 5 ⟨.hbm, 0x100⟩ 4 := ⟨by decide +kernel, by unfold FirstAt; decide +kernel⟩
theorem wit_atomic_reply : (getSp (sQ (.atomic (.min false) 7 1 0) 4 ⟨.hbm, 0x100⟩ 0) 0 1 1).outst[0]? =
      some ⟨5, .atomic (.min false) 7 1 0, 4, [⟨0, ⟨.hbm, 0x100⟩, 0, false⟩], [], true, false, [], pc0, pc0 + 1, 0⟩
    ∧ FirstAt (getSp (sQ (.atomic (.min false) 7 1 0) 4 ⟨.hbm, 0x100⟩ 0) 0 1 1) 5 ⟨.hbm, 0x100⟩ 4 ∧ (4 = sizeBytes .w) ∧ 1 < 2 ^ (8 * 4) :=
  ⟨by decide +kernel, by unfold FirstAt; decide +kernel, by decide, by decide⟩
theorem wit_reply_fault : replyFault ⟨5, .load 7 true, 4, [⟨0, ⟨.hbm, 0x100⟩, 0, false⟩], [], true, false, [], pc0, pc0 + 1, 0⟩ .soft = some .softError := by
  decide +kernel

/-- R361: a signed word, R22: the register is filled. -/
theorem test_load_reply : (spOf 1 (exec (.memoryReply 0 1 0 .ok) (sQ (.load 7 true) 4 ⟨.hbm, 0x100⟩ 0))).map (fun p => (p.rdG 7, p.outst))
    = some (0xFFFFFFFFCCDDEEFF, []) := by decide +kernel

/-- R8: little-endian. -/
theorem test_store_reply : let s := stAfter (exec (.memoryReply 0 1 0 .ok) (sQ .store 4 ⟨.hbm, 0x100⟩ 0x12345678))
    hbmN s 0x100 8 = 0x8899AABB12345678 ∧ rd s.hbm 0x100 = 0x78 := by decide +kernel

/-- R325: the signed minimum of 0xCCDDEEFF and 1, and the old value. -/
theorem test_atomic_reply : let s := stAfter (exec (.memoryReply 0 1 0 .ok) (sQ (.atomic (.min false) 7 1 0) 4 ⟨.hbm, 0x100⟩ 0))
    hbmN s 0x100 4 = 0xCCDDEEFF ∧ (getSp s 0 1 1).rdG 7 = 0xCCDDEEFF := by decide +kernel
theorem test_acas_reply : hbmN (stAfter (exec (.memoryReply 0 1 0 .ok) (sQ (.atomic .cas 7 1 0xCCDDEEFF) 4 ⟨.hbm, 0x100⟩ 0))) 0x100 4 = 1 := by decide +kernel

/-- R107: a misaligned access raises ALIGN. -/
theorem test_align : hbmN (stAfter (exec (.ld false 7 (r 8) .w false 0) sM)) 0xFE0 8 = 0x10000 + FaultCode.num .align := by decide +kernel

/-- R22, R134: a relaxed load leaves its register owed, and its spoke goes on. -/
theorem test_rlx : (spOf 1 (exec (.ld true 7 (r 1) .d false 0) sM)).map (fun p => (p.fullG 7, p.pc)) = some (false, pc0 + 1) := by decide +kernel

/-- A full scratchpad word at 8, an empty one at 16. -/
def sS : State := { sM with scr := wrNat [] 8 8 77, full := [(1, true)] }
theorem wit_presence : (∀ e ∈ ([(.ldF 7 (r 3) 8, false), (.ldS 7 (r 3) 8, true)] : List (Instr × Bool)), Ready e.1 sS) ∧
    scalarAts (taken (.ldF 7 (r 3) 8) sS) 0x6000001000000008 8 false 1 [3] = .ok ⟨⟨.scr, 8⟩, BitVec.ofNat 64 (leafOf 2 0), 15⟩ ∧ (curSp sS).win = [] :=
  ⟨ready_all (by decide +kernel), by decide +kernel⟩
theorem wit_stF : Ready (.stF (r 3) (r 4) 16) sS ∧ Ready (.empty (r 3) 8) sS ∧
    scalarAts (taken (.stF (r 3) (r 4) 16) sS) 0x6000001000000010 8 true 2 [3] = .ok ⟨⟨.scr, 16⟩, BitVec.ofNat 64 (leafOf 2 0), 15⟩ ∧ sS.waiters = [] ∧
    scalarAts (taken (.empty (r 3) 8) sS) 0x6000001000000008 8 true 2 [3] = .ok ⟨⟨.scr, 8⟩, BitVec.ofNat 64 (leafOf 2 0), 15⟩ :=
  ⟨ready_of (by decide +kernel), ready_of (by decide +kernel), by decide +kernel⟩

/-- R26: LD.F leaves the word full, LD.S empties it, a load of an empty word parks at the bank. -/
theorem test_ldF : gAfter (.ldF 7 (r 3) 8) sS 7 = some 77 ∧ present (stAfter (exec (.ldF 7 (r 3) 8) sS)) 8 = true
    ∧ (spOf 1 (exec (.ldF 7 (r 3) 16) sS)).map (·.park) = some .bank := by decide +kernel
theorem test_ldS : gAfter (.ldS 7 (r 3) 8) sS 7 = some 77 ∧ present (stAfter (exec (.ldS 7 (r 3) 8) sS)) 8 = false := by decide +kernel
theorem test_stF : let s := stAfter (exec (.stF (r 3) (r 4) 16) sS); present s 16 = true ∧ rdN s ⟨.scr, 16⟩ 8 = 0x1122334455667788 := by decide +kernel
theorem test_empty : let s := stAfter (exec (.empty (r 3) 8) sS); present s 8 = false ∧ rdN s ⟨.scr, 8⟩ 8 = 77 := by decide +kernel
theorem wit_fence : Ready (.fence .sy) sM ∧ (curSp sM).win = [] ∧ Ready (.pgrp 4) sM ∧ (curSp sM).pub = none ∧ 4 ≤ paneShare sM 0 1 :=
  ⟨ready_of (by decide +kernel), by decide +kernel, ready_of (by decide +kernel), by decide +kernel⟩
theorem wit_publ : Ready .publ (usr fun p => { p with pub := some 3 }) := ready_of (by decide +kernel)
theorem wit_roinv : let s := usr (regs [(1, 0x1000), (3, 0x40), (4, 0x100000001), (5, 0x6000000000000000)])
    Ready (.roinv (r 1) (r 2)) s ∧ (src s (r 2)).toNat = 0 ∧ Ready (.roinv (r 1) (r 3)) s ∧ pathOf (src s (r 1)) ≤ 1 ∧ fieldN (src s (r 1)) 57 4 = 0
      ∧ 2 ^ 32 < (src s (r 4)).toNat ∧ (src s (r 5)).toNat / 2 ^ 61 > 1 ∧ (src s (r 1)).toNat + (src s (r 3)).toNat - 1 < 2 ^ 57
      ∧ (0x200000000001000 : Word).toNat / 2 ^ 57 % 16 ≠ 0 ∧ (0x1FFFFFFFFFFFFFF : Word).toNat / 2 ^ 57 ≠ ((0x1FFFFFFFFFFFFFF : Word).toNat + 0x40 - 1) / 2 ^ 57 :=
  ⟨ready_of (by decide +kernel), by decide +kernel, ready_of (by decide +kernel), by decide +kernel⟩
theorem test_fence : pcAfter (.fence .sy) sM = some (pc0 + 1) ∧ (spOf 1 (exec (.fence .dv) (usr fun p => { p with outst := [⟨5, .store, 4, [⟨0, ⟨.hbm, 0x100⟩, 1, false⟩], [], false, false, [], pc0, pc0 + 1, 0⟩] }))).map (·.park) = some (.wait (.fence .dv)) := by
  decide +kernel

/-! Checks of an access, and the walk. -/

/-- Which of the checks of R126 an access of VF 1 comes to: 0 path, 1 size, 2 alignment, 3 a page not present, 4 a table outside the segment, 5 target, 6 R or W, 7 stage 2 and partition, 8 no domain word, 9 domain rights, 10 and 11 the host's page request with and without it, 12 none. -/
def checkCase (s : State) (va : Word) (n : Nat) (w : Bool) (paths : List Nat) : Nat :=
  let path := va.toNat / 2 ^ 61
  if 6 ≤ path ∨ va.toNat / 2 ^ 57 % 16 ≠ 0 ∨ path ∉ paths then 0 else if path = 5 ∧ n ≠ 8 then 1 else if va.toNat % n ≠ 0 then 2
  else match transl s 1 (va.toNat % 2 ^ 57) with
    | .absent _ => 3
    | .seg => 4
    | .leaf e _ =>
      let l := placeOf 0 va e 15
      if placeBad s 1 va e l (fun _ => true) then 5 else if !bitN e (if w then 3 else 2) then 6
      else match partition s 1 e l, right s 1 1 (pteDT e) va.toNat with
        | none, _ => 7
        | some _, none => 8
        | some l', some k => if k < (if w then 2 else 1) then 9 else if l'.sp = .host && !mhas s.ats (2 ^ 52 + l'.a / 4096) then (if feature s 1 1 then 10 else 11) else 12

/-- More pages behind the test pages: one that may not be written, one outside the segment, one of domain 2. -/
def sChk (f : Fn) : State :=
  { sM with fns := [(0, fn0), (1, f)], hbm := wrNat (wrNat (wrNat hbm0 0x1C028 8 (leafOf 0 0x100000 - 8)) 0x1C030 8 (leafOf 0 0x100000000)) 0x1C038 8 (leafOf 0 0x100000 + 2 ^ 52) }

/-- The codes of the checks that fail, in this order: each access meets the one above it and no earlier one. -/
theorem wit_checks : ([(0xC000000000000000, 8, true), (0x200000000000100, 8, true), (0x2000000000000100, 8, true), (0xA000001000018068, 4, true), (0x101, 4, true), (0x1001000000, 8, true),
      (0x6000000000000100, 8, true), (0x1000028000, 8, true), (0x1000030000, 8, true), (0x1000038000, 8, true), (0x1000038000, 8, false), (0x800000000, 8, true), (0x100, 8, true)] :
      List (Word × Nat × Bool)).map (fun x => checkCase (sChk fn1) x.1 x.2.1 x.2.2 [0, 3, 5]) = [0, 0, 0, 1, 2, 3, 5, 6, 7, 9, 9, 10, 12]
    ∧ checkCase (sChk { fn1 with ptroot := 0x100000000 }) 0x100 8 true [0] = 4 ∧ checkCase (sChk { fn1 with dombase := 0x100000000 }) 0x1000038000 8 true [0] = 8
    ∧ checkCase (sChk { fn1 with featdrv := 0x800000000000003D }) 0x800000000 8 true [0] = 11 := by decide +kernel

/-- R121 to R126: what those accesses meet. -/
theorem test_checks : ([(0xC000000000000000, 8, true), (0x101, 4, true), (0x1001000000, 8, true), (0x6000000000000100, 8, true), (0x1000028000, 8, true), (0x1000030000, 8, true),
      (0x1000038000, 8, true), (0x1000038000, 8, false), (0x800000000, 8, true)] : List (Word × Nat × Bool)).map
      (fun x => match scalarAts (sChk fn1) x.1 x.2.1 x.2.2 2 [0, 3, 5] with | .error e => some (e.code, e.perm, e.host) | _ => none)
    = [some (.path, false, false), some (.align, false, false), some (.notPresent, false, false), some (.path, false, false), some (.notPresent, true, false),
      some (.segment, false, false), some (.domainWrite, false, false), some (.domainRead, false, false), some (.notPresent, false, true)] := by decide +kernel
theorem wit_fault_issue : (∀ i ∈ ([.ld false 7 (r 8) .w false 0, .st false (r 8) (r 4) .w 0, .ld false 7 (r 8) .d false 0x1000FFFFFF, .st true (r 8) (r 4) .d 0x1000FFFFFF] : List Instr),
      Ready i sM) ∧ (curSp sM).win = []
    ∧ (match scalarAts (taken (.ld false 7 (r 8) .w false 0) sM) 0x101 4 false 1 [0, 1, 3, 5] with | .error e => e.code != .notPresent | _ => false) = true
    ∧ (match scalarAts (taken (.st false (r 8) (r 4) .w 0) sM) 0x101 4 true 2 [0, 3, 5] with | .error e => e.code != .notPresent | _ => false) = true
    ∧ (match scalarAts (taken (.ld false 7 (r 8) .d false 0x1000FFFFFF) sM) 0x1001000100 8 false 1 [0, 1, 3, 5] with | .error e => e.code == .notPresent | _ => false) = true
    ∧ (match scalarAts (taken (.st true (r 8) (r 4) .d 0x1000FFFFFF) sM) 0x1001000100 8 true 2 [0, 3, 5] with | .error e => e.code == .notPresent | _ => false) = true :=
  ⟨ready_all (f := id) (by decide +kernel), by decide +kernel⟩

/-- An entry of a table that VF 1 can read. -/
def entryAt (s : State) (table i : Nat) (e : Nat) : Bool := (stage2 s 1 (table + 8 * i)).any (fun a => hbmN s a 8 == e) && (stage2 s 1 (table + 8 * i + 7)).isSome

/-- The tables of the test pages: a leaf at level 1 and at level 3, an entry that is not valid, one that is malformed at each level. -/
theorem wit_walk : let s := sChk fn1
    tlbFind (getFn s 1).tlb 0x1000000000 = none ∧ (getFn s 1).ptroot.toNat = 0x10000
    ∧ entryAt s 0x10000 0 0x14001 = true ∧ entryAt s 0x14000 2 0x18001 = true ∧ entryAt s 0x18000 0 0x1C001 = true ∧ entryAt s 0x1C000 0 (leafOf 2 0) = true
    ∧ entryAt s 0x14000 0 (leafOf 0 0) = true ∧ entryAt s 0x10000 1 0 = true ∧ entryAt s 0x1C000 9 0 = true
    ∧ entryAt { s with hbm := wrNat s.hbm 0x10008 8 0x15001 } 0x10000 1 0x15001 = true ∧ 0x15000 % 2 ^ 14 ≠ 0
    ∧ entryAt { s with hbm := wrNat s.hbm 0x1C048 8 1 } 0x1C000 9 1 = true
    ∧ stage2 { s with fns := [(1, { fn1 with ptroot := 0x100000000 })] } 1 (0x100000000 + 8 * 0) = none := by decide +kernel

/-- R122, R123: the leaf, a page not present, one with a malformed entry. -/
theorem test_walk : let s := sChk fn1
    walk s 1 0x1000000000 = .leaf (BitVec.ofNat 64 (leafOf 2 0)) 15 ∧ walk s 1 0x100 = .leaf (BitVec.ofNat 64 (leafOf 0 0)) 35 ∧ walk s 1 (2 ^ 46) = .absent false
    ∧ walk { s with hbm := wrNat s.hbm 0x10008 8 0x15001 } 1 (2 ^ 46) = .absent true ∧ walk { s with hbm := wrNat s.hbm 0x1C048 8 1 } 1 0x1000048000 = .absent true := by decide +kernel

/-! The scopes of FENCE, publication, and the end of a wait. -/

/-- A relaxed store of core 0 to a place. -/
def stReq (l : Loc) : Req := ⟨5, .store, 8, [⟨0, l, 1, false⟩], [], false, false, [], pc0, pc0 + 1, 0⟩

/-- R135: the scratchpad of the core, of another core of its tile, of another tile, the buffers of the tile, HBM, host memory, peer memory, against each scope. -/
theorem test_fence_scopes : ([⟨.scr, 0⟩, ⟨.scr, 15 * 65536⟩, ⟨.scr, 16 * 65536⟩, ⟨.tb, 0⟩, ⟨.tb, 2 ^ 21⟩, ⟨.hbm, 0⟩, ⟨.host, 0⟩, ⟨.peer, 0⟩] : List Loc).map
      (fun l => [Scope.sp, .co, .ti, .dv, .sy].map fun sc => fenceWaits sc 0 (stReq l))
    = [[false, true, true, true, true], [false, false, true, true, true], [false, false, false, true, true], [false, false, true, true, true],
       [false, false, false, true, true], [false, false, false, true, true], [false, false, false, false, true], [false, false, false, false, true]]
    ∧ fenceWaits .sp 0 { stReq ⟨.host, 0⟩ with kind := .load 3 false } = true ∧ fenceWaits .sy 0 { stReq ⟨.hbm, 0⟩ with plain := true } = false := by decide +kernel

/-- Group 3 of spoke 1 with two bytes in its panes. -/
def sPub (w : Park) : State :=
  { usr fun p => { p with pub := some 3, park := w } with pubs := [(3, ⟨3, 1, [], [(0x100, 7), (0x101, 8)], .spoke 0 1 1, 0, 1, true⟩)], tb := wrNat [] 0x100 4 0x55555555 }
theorem wit_publication : (getSp (sPub .none) 0 1 1).pub = some 3 ∧ (getPub (sPub .none) 3).any (fun x => decide (x.ovl.Pairwise fun p q => p.1 ≠ q.1)) = true
    ∧ pubDone (sPub .none) 3 = true ∧ panesHeld (sPub .none) (.spoke 0 1 1) = true ∧ (∀ c ∈ (sPub .none).cmds, c.owner = .spoke 0 1 1 → c.grp = none) := by decide +kernel
theorem test_publication : let t := pubClose (sPub .none) 0 1 1
    (rdN t ⟨.tb, 0x100⟩ 4, (getSp t 0 1 1).pub, t.pubs) = (0x55550807, none, []) := by decide +kernel
theorem wit_waits : ∀ w ∈ [Wait.fence .sy, .pgrpHold 2, .publ], let p := getSp (sPub (.wait w)) 0 1 1
    p.park = .wait w ∧ p.ctx = .live ∧ p.divs = [] ∧ p.outst.any (·.plain) = false ∧ inRotation (sPub (.wait w)) 0 1 1 = true := by decide +kernel

/-! Group 011. -/

/-- g1 names spoke 1, g2 is a PC, g3 an image address, g4 a wake token of core 0, slot 0. -/
def sH (p : Spoke) : State := dev 0 (regs [(1, 0x10000), (2, 0x40000001), (3, 0x2000), (4, 0), (5, 0x2C00), (30, 0x1000)] sp0) p

/-- Spoke control of spoke 1 in a state of its context. -/
def tgtB (i : Instr) (s : State) (ok : Ctx → Bool) : Bool := readyB i s && decide (ctlTarget (taken i s) (src s (r 1)) ok = .ok 1)

/-- A stopped spoke. -/
def spS : Spoke := { sp0 with ctx := .stopped }
theorem wit_hub : (curSp (sH Spoke.reset)).win = [] ∧ (sH Spoke.reset).cur.sp = 0 ∧ (sH Spoke.reset).cur.core < Config.numCores := by decide +kernel
theorem wit_spstart : tgtB (.spstart (r 1) (r 2) (r 0)) (sH Spoke.reset) (· == .free) = true ∧ pcOk (src (sH Spoke.reset) (r 2)) = true := by decide +kernel
theorem wit_spstart_record : tgtB (.spstart (r 1) (r 2) (r 3)) (sH Spoke.reset) (· == .free) = true
    ∧ (match readStart (taken (.spstart (r 1) (r 2) (r 3)) (sH Spoke.reset)) 0x2000 with | .ok _ => true | _ => false) = true := by decide +kernel
theorem wit_spstop : tgtB (.spstop (r 1)) (sH sp0) notFree = true ∧ (getSp (sH sp0) 0 1 1).ctx = .live ∧ (getSp (sH sp0) 0 1 1).park = .none
    ∧ (getSp (sH sp0) 0 1 1).outst = [] := by decide +kernel
theorem wit_spresume : tgtB (.spresume (r 1)) (sH spS) notFree = true ∧ (getSp (sH spS) 0 1 1).ctx = .stopped := by decide +kernel
theorem wit_spkill : tgtB (.spkill (r 1)) (sH sp0) notFree = true := by decide +kernel
theorem wit_spreap : tgtB (.spreap 7 (r 1)) (sH { Spoke.reset with ctx := .ended }) notFree = true := by decide +kernel
theorem wit_spspill : tgtB (.spspill (r 1) (r 3)) (sH spS) (· == .stopped) = true ∧ (getSp (sH spS) 0 1 1).pub = none
    ∧ imageAt (taken (.spspill (r 1) (r 3)) (sH spS)) 0x2000 true = .ok [(⟨.hbm, 0x2000⟩, 2560)] := by decide +kernel

/-- The image of a stopped spoke at 0x2000. -/
def img1 : Image := ⟨spS, 1, 0x2000, 0, 0x2000, [(⟨.hbm, 0x2000⟩, 2560)], 1, 0⟩

/-- A spoke that has been spilled to 0x2000. -/
def sF : State := { sH Spoke.reset with images := [(1, img1)] }
theorem wit_spfill : tgtB (.spfill (r 1) (r 3)) sF (· == .free) = true ∧ imageAt (taken (.spfill (r 1) (r 3)) sF) 0x2000 false = .ok [(⟨.hbm, 0x2000⟩, 2560)]
    ∧ (sF.images.find? fun p => p.2.at' == 0x2000 && p.2.vf == 1) = some (1, img1) ∧ roomFor (taken (.spfill (r 1) (r 3)) sF) 1 = true
    ∧ (sH Spoke.reset).images = [] ∧ roomFor (taken (.spstart (r 1) (r 2) (r 0)) (sH Spoke.reset)) 1 = true := by decide +kernel
theorem wit_spfill_alone : ∀ v, v ≠ 1 → (getSp sF 0 1 v).ctx = .free := by
  intro v hv
  have h1 : vfOf sF 0 = 1 := by decide +kernel
  have h2 : sF.saved = [] := by decide +kernel
  have h : getCtx sF 0 v = CoreCtx.reset := by unfold getCtx; rw [h1, if_neg (Ne.symm hv), h2]; rfl
  unfold getSp; rw [h]; decide +kernel

/-- Bytes that have been written stand. -/
theorem same_image (s : State) (h : Mem) (id a n : Nat) (hs : s.hbm = wrBytes h a ((List.range n).map (Config.imageByte id))) :
    imageSame s id 0 [(⟨.hbm, a⟩, n)] = true := by
  simp only [imageSame, Bool.and_true, List.all_eq_true, List.mem_range, beq_iff_eq]
  intro i hi
  show rd s.hbm (a + i) = _
  rw [hs, rd_wrBytes_in _ _ _ i (by simpa using hi)]; simp

/-- That device with the bytes of the image. -/
def sFb (n : Nat) : State := { sF with hbm := wrBytes hbm0 0x2000 ((List.range n).map (Config.imageByte 1)) }
theorem wit_image_same (n : Nat) : imageSame (sFb n) 1 0 [(⟨.hbm, 0x2000⟩, n)] = true := same_image _ hbm0 1 0x2000 n rfl

/-- R400 to R402. -/
theorem test_spstart : (spOf 1 (exec (.spstart (r 1) (r 2) (r 0)) (sH Spoke.reset))).map (fun p => (p.ctx, p.pc, p.want, p.k[0])) =
    some (.live, 0x40000001, some .start, 0xFFFFFFFF) := by decide +kernel
theorem test_spstop : (spOf 1 (exec (.spstop (r 1)) (sH sp0))).map (·.ctx) = some .stopped := by decide +kernel
theorem test_spresume : (spOf 1 (exec (.spresume (r 1)) (sH spS))).map (·.ctx) = some .live := by decide +kernel
theorem test_spkill : (spOf 1 (exec (.spkill (r 1)) (sH sp0))).map (fun p => (p.ctx, reapWord p)) = some (.ended, BitVec.ofNat 64 (2 ^ 62)) := by decide +kernel
theorem test_spreap : (spOf 0 (exec (.spreap 7 (r 1)) (sH { Spoke.reset with ctx := .ended, endFault := true, endCode := 9 }))).map (·.rdG 7) =
    some (BitVec.ofNat 64 (2 ^ 63 + 9)) := by decide +kernel
theorem test_spspill : (spOf 1 (exec (.spspill (r 1) (r 3)) (sH spS))).map (·.ctx) = some .free := by decide +kernel

/-- R33: another domain raises STATE_RIGHT. -/
theorem test_hub_only : hbmN (stAfter (exec (.spstop (r 1)) (usr (regs [(1, 0x10000), (30, 0x1000)])))) 0xFE0 8 = 0x10000 + FaultCode.num .stateRight := by
  decide +kernel

theorem wit_wake : Ready (.wake (r 4)) (sH sp0) ∧ tokBad (src (sH sp0) (r 4)) = false ∧ (curSp (sH sp0)).dom = kernelDom
    ∧ inPart (sH sp0) 1 (tokCore (src (sH sp0) (r 4))) = true := ⟨ready_of (by decide +kernel), by decide +kernel⟩

/-- A message in the inbox for g7 of spoke 1. -/
def m7 : Msg := ⟨3, 0, 1, 7, false, 2, 5, 1, 99, 0⟩

/-- A device with messages in the inbox of core 0, at its port and in the mesh; g7 of spoke 1 is empty. -/
def sI (inbox port mesh : List Msg) : State :=
  let s := sH (sp0.clrG 7)
  { setCtx s 0 1 { getCtx s 0 1 with inbox := inbox, port := port } with mesh := mesh }
theorem wit_ibpop : Ready (.ibpop 8 9) (sI [] [] []) ∧ (getCtx (taken (.ibpop 8 9) (sI [] [] [])) 0 1).inbox = [] ∧ Ready (.ibpop 8 9) (sI [m7] [] [])
    ∧ (getCtx (deliverHeld (taken (.ibpop 8 9) (sI [{ m7 with reg := 6 }, m7] [] [])) 0 1) 0 1).inbox = [{ m7 with reg := 6 }] :=
  ⟨ready_of (by decide +kernel), by decide +kernel, ready_of (by decide +kernel), by decide +kernel⟩
theorem wit_ibreplay : Ready (.ibreplay (r 5) (r 2)) (sH sp0) ∧ fieldN (src (sH sp0) (r 5)) 30 34 = 0 ∧ fieldN (src (sH sp0) (r 5)) 0 4 = 0
    ∧ bitN (src (sH sp0) (r 5)) 9 = false := ⟨ready_of (by decide +kernel), by decide +kernel⟩
theorem wit_arrival : let s := sI [] [] [m7]
    let u := { s with mesh := dropAt s.mesh 0 }
    s.mesh[0]? = some m7 ∧ (s.mesh.take 0).any (sameLane m7) = false ∧ msgLost u m7 = false ∧ msgCtx u m7 = 1 ∧ (getCtx u 0 1).port = []
      ∧ canDeliver u 1 m7 = true ∧ heldFor (getCtx u 0 1) m7 = false ∧ m7.reg < 32 := by decide +kernel
theorem wit_arrival_held : let m : Msg := { m7 with reg := 6 }
    let u := sI [] [] []
    msgLost u m = false ∧ canDeliver u 1 m = false ∧ inboxRoom (getCtx u 0 1) m = true ∧ (getCtx u 0 1).inbox.length < 47
    ∧ 47 ≤ (getCtx (sI (List.replicate 47 m) [] []) 0 1).inbox.length ∧ vfOf (sI (List.replicate 47 m) [] []) 0 = 1
    ∧ inboxRoom (getCtx (sI (List.replicate 47 m) [] []) 0 1) m = true ∧ inboxRoom (getCtx (sI (List.replicate 60 m) [] []) 0 1) m = false := by decide +kernel
theorem wit_arrival_lost : msgLost (sI [] [] []) { m7 with sp := 2 } = true := by decide +kernel
theorem wit_held_delivery : let s := sI [m7] [] []
    (getCtx s 0 1).inbox[0]? = some m7 ∧ m7.core = 0 ∧ canDeliver s 1 m7 = true ∧
      (((getCtx s 0 1).inbox.take 0).any fun k => !k.wake && k.sp == m7.sp && k.reg == m7.reg) = false := by decide +kernel
theorem wit_port : let s := sI [] [m7] []
    (getCtx s 0 1).port[0]? = some m7 ∧ ((getCtx s 0 1).port.take 0).any (sameLane m7) = false ∧ msgLost s m7 = false ∧ inboxRoom (getCtx s 0 1) m7 = true := by
  decide +kernel

/-- R29: an arriving message fills its empty register; R32: IBPOP takes the header and the value. -/
theorem test_arrival : (spOf 1 (exec (.inboxMessageArrival 0) (sI [] [] [m7]))).map (·.g[7]) = some ⟨99, true, .no⟩ := by decide +kernel
theorem test_held_delivery : (spOf 1 (exec (.inboxHeldDelivery 0 1 0) (sI [m7] [] []))).map (·.g[7]) = some ⟨99, true, .no⟩ := by decide +kernel
theorem test_port : (spOf 1 (exec (.meshMessageAccept 0 1 0) (sI [] [m7] []))).map (·.g[7]) = some ⟨99, true, .no⟩ := by decide +kernel
theorem test_ibpop : (spOf 0 (exec (.ibpop 8 9) (sI [{ m7 with reg := 6 }] [] []))).map (fun p => (p.rdG 8, p.rdG 9)) =
    some (BitVec.ofNat 64 (1 + 6 * 16 + 2 * 1024 + 5 * 2 ^ 26), 99) := by decide +kernel
theorem test_wake : ((stAfter (exec (.wake (r 4)) (sH sp0))).mesh.map fun m => (m.wake, m.core, m.val)) = [(true, 0, 0)] := by decide +kernel

/-- Spoke 1 waits in slot 0 of core 0 and a wake message of generation `g` stands in the inbox. -/
def sW (g : Nat) (w : Option Waiter) : State :=
  let s := sH { sp0 with park := .fault 0 }
  let s1 := setSlot s 0 0 ⟨0, w⟩
  setCtx s1 0 1 { getCtx s1 0 1 with inbox := [⟨3, 0, 0, 0, true, 0, 0, 1, BitVec.ofNat 64 (g * 2 ^ 22), 0⟩] }

/-- The waiter of spoke 1. -/
def w1 (host : Bool) : Waiter := ⟨1, 0, 0, 1, [.spoke 0 1 1], [], host, false, ⟨0, 0x100, pc0, 1, 1, false, false, 1, 1, 0, false⟩⟩
theorem wit_wake_delivery : let s := sW 0 (some (w1 false))
    (getSlot s 0 0).w = some (w1 false) ∧ (getSlot s 0 0).gen = tokGen 0 ∧ (w1 false).vf = 1 % 64 ∧ (getSp s 0 1 1).park = .fault 0 := by decide +kernel
theorem wit_wake_stale : (getSlot (sW 0 none) 0 0).w = none ∧ (getSlot (sW 1 (some (w1 false))) 0 0).gen ≠ tokGen (BitVec.ofNat 64 (2 ^ 22))
    ∧ (w1 false).vf ≠ 2 % 64 := by decide +kernel
theorem test_wake_delivery : (spOf 1 (exec (.wakeDelivery 0 1 0) (sW 0 (some (w1 false))))).map (·.park) = some .none := by decide +kernel
theorem test_wake_stale : (getCore (stAfter (exec (.wakeDelivery 0 1 0) (sW 1 (some (w1 false))))) 0).stale = 1 := by decide +kernel

/-- The waiters of core 0: slot 0 holds page 0 of VF 1 over path 0 as a read, slots 1 to 63 another page. -/
def sSlots (l : List (Nat × WSlot)) : State := let s := usr id; { s with cores := s.cores.map fun c => (c.1, { c.2 with waiters := l }) }

/-- A page that is not present, as a read. -/
def eNp : FErr := ⟨.notPresent, 0x1001000000, 1, false, false, false⟩

/-- A waiter for that page, and one for page 0. -/
def wPage : Waiter := { w1 false with page := 0x1001000000 / 2 ^ 15 }

/-- R261: the page, path and access kind of a held waiter; a free slot behind one that is taken; all slots taken by other pages. -/
theorem wit_retry : (getSlot (sSlots [(2, ⟨0, some wPage⟩)]) 0 2).w = some wPage ∧ wPage.page = eNp.va.toNat / 2 ^ 15 % 2 ^ 42 ∧ wPage.vf = 1
    ∧ wPage.path = eNp.va.toNat / 2 ^ 61 ∧ wPage.acc = eNp.acc ∧ (∀ j < 2, (getSlot (sSlots [(2, ⟨0, some wPage⟩)]) 0 j).w = none)
    ∧ (let s := sSlots [(0, ⟨0, some (w1 false)⟩)]; (getSlot s 0 1).w = none ∧ (∀ j < 1, (getSlot s 0 j).w ≠ none)
      ∧ ∀ j < 64, (getSlot s 0 j).w ≠ none → (getSlot s 0 j).w = some (w1 false)) ∧ (w1 false).page ≠ eNp.va.toNat / 2 ^ 15 % 2 ^ 42
    ∧ (∀ j < 64, (getSlot (sSlots ((List.range 64).map fun i => (i, ⟨0, some (w1 false)⟩))) 0 j).w = some (w1 false)) := by decide +kernel

/-- R260, R261: the spoke joins, takes slot 1 with a record of its token, or waits for a slot. -/
theorem test_retry : let p (s : State) := getSp (retryFault s 0 1 1 eNp pc0) 0 1 1
    (p (sSlots [(2, ⟨0, some wPage⟩)])).park = .fault 2 ∧ ((p (sSlots [(0, ⟨0, some (w1 false)⟩)])).park, (p (sSlots [(0, ⟨0, some (w1 false)⟩)])).ftok) = (.fault 1, 0x10000)
    ∧ ((getFn (retryFault (sSlots [(0, ⟨0, some (w1 false)⟩)]) 0 1 1 eNp pc0) 1).rring.held.map fun x => x.1.token) = [0x10000]
    ∧ (p (sSlots ((List.range 64).map fun i => (i, ⟨0, some (w1 false)⟩)))).park = .slots := by decide +kernel
theorem wit_exchange : isSvc (sH sp0) 0 = false ∧ vfOf (sH sp0) 1 = vfOf (sH sp0) 0 ∧ (getCtx (sH sp0) 0 1).hubq.Nodup := by decide +kernel

/-- A member of group 3 of population 2 that expects two; spoke 0 is the hub. -/
def sG (arr : Bool) : State :=
  { usr fun p => { p with ltag := 2, gslots := p.gslots.set 1 ⟨true, 3, arr, false⟩ } with grps := [(grpKey 1 2 3, ⟨2, 1, false⟩)] }
theorem wit_groups : (∀ e ∈ ([.gbar 3, .garrive 3] : List Instr), Ready e (sG false)) ∧ (curSp (sG false)).win = []
    ∧ slotOfGrp (curSp (sG false)) (curSp (sG false)).ltag 3 = some 1 ∧ slotOfGrp (curSp (sG false)) (curSp (sG false)).ltag 4 = none
    ∧ Ready (.gbar 4) (sG false) :=
  ⟨ready_all (f := id) (by decide +kernel), by decide +kernel, by decide +kernel, by decide +kernel, ready_of (by decide +kernel)⟩

/-- The last arrival flips the phase (R39). -/
theorem test_gbar : let s := stAfter (exec (.gbar 3) (sG false))
    mget ⟨0, 0, false⟩ s.grps (grpKey 1 2 3) = ⟨2, 0, true⟩ ∧ (getSp s 0 1 1).park = .none ∧ (getSp s 0 1 1).gslots[1] = ⟨true, 3, false, true⟩ := by decide +kernel
theorem test_garrive_twice : (spOf 1 (exec (.garrive 3) (sG true))).map (·.park) = some (.group 1 true) := by decide +kernel

/-- A barrier at scratchpad word 0 that expects 2 arrivals and 16 bytes and has one with 8 bytes; g3 its address, g9 its phase. -/
def sB : State :=
  { usr (regs [(1, 2), (2, 16), (3, 0x6000001000000000), (4, 8), (5, 9), (9, 0)]) with scr := wrNat [] 0 16 (2 + 16 * 2 ^ 32 + 1 * 2 ^ 64 + 8 * 2 ^ 96) }
theorem wit_barriers : Ready (.barinit (r 3) (r 1) (r 2)) sB ∧ Ready (.bararr (r 3) (r 4)) sB ∧ Ready (.barwait (r 3) (r 9)) sB ∧ (curSp sB).win = []
    ∧ barCheck (taken (.barinit (r 3) (r 1) (r 2)) sB) 0x6000001000000000 true = .ok ⟨⟨.scr, 0⟩, BitVec.ofNat 64 (leafOf 2 0), 15⟩
    ∧ barCheck (taken (.bararr (r 3) (r 4)) sB) 0x6000001000000000 true = .ok ⟨⟨.scr, 0⟩, BitVec.ofNat 64 (leafOf 2 0), 15⟩
    ∧ barCheck (taken (.barwait (r 3) (r 9)) sB) 0x6000001000000000 false = .ok ⟨⟨.scr, 0⟩, BitVec.ofNat 64 (leafOf 2 0), 15⟩ :=
  ⟨ready_of (by decide +kernel), ready_of (by decide +kernel), ready_of (by decide +kernel), by decide +kernel⟩

/-- R41: the last arrival flips the phase; one byte short it does not. -/
theorem test_bararr : rdN (stAfter (exec (.bararr (r 3) (r 4)) sB)) ⟨.scr, 8⟩ 8 = 2 ^ 31
    ∧ rdN (stAfter (exec (.bararr (r 3) (r 0)) sB)) ⟨.scr, 8⟩ 8 = 2 + 8 * 2 ^ 32 := by decide +kernel
theorem test_barinit : rdN (stAfter (exec (.barinit (r 3) (r 1) (r 2)) sB)) ⟨.scr, 0⟩ 16 = 2 + 16 * 2 ^ 32 := by decide +kernel
theorem test_barwait : (spOf 1 (exec (.barwait (r 3) (r 9)) sB)).map (·.park) = some .bank ∧ (spOf 1 (exec (.barwait (r 3) (r 5)) sB)).map (·.park) = some .none := by
  decide +kernel

/-- A signal of value 5 at 0x200. -/
def sE : State := { usr (regs [(1, 0x200), (2, 5), (3, 0x7FFFFFFFFFFFFFFF), (4, 6), (5, 0xFFFFFFFFFFFFFFF0), (30, 0x1000)]) with hbm := wrNat hbm0 0x200 8 5 }
theorem wit_signals : Ready (.semsig (r 1) (r 2)) sE ∧ Ready (.tlsig (r 1) (r 4)) sE ∧ Ready (.semwait .eq 7 (r 1) (r 2)) sE ∧ Ready (.tlwait 7 (r 1) (r 4)) sE
    ∧ (curSp sE).win = [] ∧ signalCheck (taken (.semsig (r 1) (r 2)) sE) 0x200 true = .ok ⟨⟨.hbm, 0x200⟩, pageH, 35⟩
    ∧ signalCheck (taken (.tlsig (r 1) (r 4)) sE) 0x200 true = .ok ⟨⟨.hbm, 0x200⟩, pageH, 35⟩
    ∧ signalCheck (taken (.semwait .eq 7 (r 1) (r 2)) sE) 0x200 false = .ok ⟨⟨.hbm, 0x200⟩, pageH, 35⟩
    ∧ signalCheck (taken (.tlwait 7 (r 1) (r 4)) sE) 0x200 false = .ok ⟨⟨.hbm, 0x200⟩, pageH, 35⟩ :=
  ⟨ready_of (by decide +kernel), ready_of (by decide +kernel), ready_of (by decide +kernel), ready_of (by decide +kernel), by decide +kernel⟩
theorem wit_timeline : rdN sE ⟨.hbm, 0x200⟩ 8 = 5 ∧ (src sE (r 2)).toNat ≤ 5 ∧ 5 < (src sE (r 4)).toNat
    ∧ rdN { sE with hbm := wrNat sE.hbm 0x200 8 (2 ^ 64 - 1) } ⟨.hbm, 0x200⟩ 8 = 2 ^ 64 - 1 := by decide +kernel

/-- R250: the sum is clamped; R251: a timeline only rises. -/
theorem test_semsig : hbmN (stAfter (exec (.semsig (r 1) (r 3)) sE)) 0x200 8 = 0x7FFFFFFFFFFFFFFF
    ∧ hbmN (stAfter (exec (.semsig (r 1) (r 5)) sE)) 0x200 8 = 2 ^ 64 - 11 := by decide +kernel
theorem test_semwait : gAfter (.semwait .eq 7 (r 1) (r 2)) sE 7 = some 5 ∧ (spOf 1 (exec (.semwait .le 7 (r 1) (r 5)) sE)).map (·.park) = some .bank := by decide +kernel
theorem test_tlsig : hbmN (stAfter (exec (.tlsig (r 1) (r 4)) sE)) 0x200 8 = 6
    ∧ hbmN (stAfter (exec (.tlsig (r 1) (r 2)) sE)) 0xFE0 8 = 0x10000 + FaultCode.num .timelineRegress := by decide +kernel
theorem test_tlwait : gAfter (.tlwait 7 (r 1) (r 2)) sE 7 = some 5 ∧ (spOf 1 (exec (.tlwait 7 (r 1) (r 4)) sE)).map (·.park) = some .bank := by decide +kernel

/-- g7 is pending on command 4, which runs. -/
def cmd4 : Cmd :=
  { id := 4, owner := .spoke 0 1 1, vf := 1, core := 0, reg := 7, pc := pc0, rpc := pc0 + 1, op := .mzero, mods := 0, imm := 0x100, a := 0x8000001000020000, b := 16
    c := 0, c2 := 0, cps := [], idx := [], dom := 1, snap := [], st := .running, done := 0, flags := 0, errVa := 0, errAcc := 0, cancel := false
    tbR := [], tbW := [], panes := [], ovl := [], lat := none, pub := none, grp := none, xid := 0, rep := 0, wno := 0, perm := 0, desc := [], wdesc := none
    okP := [], got := [], wrote := [], out := [], po := 4, ltag := 0, again := 0, keep := [], tab := [], after := [], atEnd := false, fail := none }

/-- A device with that command. -/
def sP : State := { usr fun p => (regs [(1, 0x1000), (2, 0x40), (3, 0), (4, 8), (5, 1), (6, 2)] p).owe 7 (.cmd 4) with cmds := [cmd4], nextId := 5 }
theorem wit_ptest : Ready (.ptest 8 false 7) sP ∧ Ready (.cancel 8 7) sP ∧ (curSp sP).pendG 7 ≠ .no ∧ Ready (.cancel 8 6) sP ∧ (curSp sP).pendG 6 = .no
    ∧ (cancellable sP (curOwner sP) (curSp sP) 7).isSome = true ∧ (curSp sP).win = [] :=
  ⟨ready_of (by decide +kernel), ready_of (by decide +kernel), by decide +kernel, ready_of (by decide +kernel), by decide +kernel⟩
theorem wit_cancel_late : (curSp { sP with cmds := [] }).pendG 7 ≠ .no ∧ cancellable { sP with cmds := [] } (curOwner sP) (curSp sP) 7 = none := by decide +kernel
theorem wit_lend : Ready (.lend 8 (r 1) (r 2) 2) sP ∧ 0 < (src sP (r 2)).toNat ∧ lendRangeBad (src sP (r 1)) 0x40 = false ∧ freeLend (curSp sP) = some 0
    ∧ lendPages (taken (.lend 8 (r 1) (r 2) 2) sP) (pageParts 0x1000 0x40) = .ok [(1, 0x1000)] ∧ lendRights (taken (.lend 8 (r 1) (r 2) 2) sP) 1 [(1, 0x1000)] = none
    ∧ (src sP (r 3)).toNat = 0 :=
  ⟨ready_of (by decide +kernel), by decide +kernel⟩
theorem wit_lend_full : freeLend { sp0 with lends := Vector.replicate 8 ⟨0, 16, true, 1, 0, .pending, 0⟩ } = none := by decide +kernel

/-- Lend 0 is open, 1 pending, 2 closed. -/
def sL : State := usr fun p => { regs [(3, 0), (4, 8), (5, 1), (6, 2), (9, 3)] p with
  lends := ((p.lends.set 0 ⟨0, 16, true, 1, 2, .opened, 0⟩).set 1 ⟨0, 16, true, 1, 0, .pending, 0⟩).set 2 ⟨0, 16, true, 1, 2, .closed, 1⟩ }
theorem wit_unlend : Ready (.unlend (r 4)) sL ∧ 8 ≤ (src sL (r 4)).toNat ∧ (curSp sL).lends[lendIdx (src sL (r 3))].st = .opened
    ∧ (curSp sL).lends[lendIdx (src sL (r 5))].st = .pending ∧ (curSp sL).lends[lendIdx (src sL (r 6))].st = .closed
    ∧ (curSp sL).lends[lendIdx (src sL (r 9))].st = .free ∧ (curSp sL).dom = 1 :=
  ⟨ready_of (by decide +kernel), by decide +kernel⟩
theorem wit_domq : Ready (.domq 8 (r 1)) sP ∧ pathBad (src sP (r 1)) = false
    ∧ resolve (taken (.domq 8 (r 1)) sP) 0 1 0x1000 (some false) 1 (fun _ => true) = .ok ⟨⟨.hbm, 0x1000⟩, pageH, 35⟩ ∧ right (taken (.domq 8 (r 1)) sP) 1 1 (pteDT pageH) 0x1000 = some 3 :=
  ⟨ready_of (by decide +kernel), by decide +kernel⟩
theorem wit_domq_zero : pathBad 0xC000000000000000 = true ∧ pathBad 0x800000000000 = false ∧
    (match resolve sP 0 1 0x800000000000 (some false) 1 (fun _ => true) with | .error _ => true | _ => false) = true := by decide +kernel

/-- R386: full, empty, pending. -/
theorem test_ptest : gAfter (.ptest 8 false 1) sP 8 = some 1 ∧ gAfter (.ptest 8 false 7) sP 8 = some 2 := by decide +kernel
theorem test_cancel_none : gAfter (.cancel 8 1) sP 8 = some 1 ∧ gAfter (.cancel 8 7) { sP with cmds := [] } 8 = some 2 := by decide +kernel

/-- R366: the lend index; R352: the domain query. -/
theorem test_lend : gAfter (.lend 8 (r 1) (r 2) 2) sP 8 = some 0 ∧ (spOf 1 (exec (.lend 8 (r 1) (r 2) 2) sP)).map (·.lends[(0 : Fin 8)].st) = some .pending := by
  decide +kernel
theorem test_unlend : (spOf 1 (exec (.unlend (r 5)) sL)).map (·.lends[(1 : Fin 8)].st) = some .free
    ∧ (spOf 1 (exec (.unlend (r 6)) sL)).map (·.park) = some (.wait (.unlend 2)) := by decide +kernel
theorem test_domq : gAfter (.domq 8 (r 1)) sP 8 = some (BitVec.ofNat 64 (1 + 3 * 256 + 2 ^ 15)) := by decide +kernel

/-! Group 100. -/

/-- g1 a row of AB through the tile path, g2 M = 1 and CS = 64, g3 an HBM address, g5 a tag mask, g10 a layout word of 4 bytes. -/
def sX (f : Spoke → Spoke) : State := usr fun p => f (regs [(1, 0x4000001000020000), (2, 0x400001), (3, 0x1000), (4, 0x2000), (5, 6), (6, 0), (10, 0xA), (11, 0),
  (12, 0x7), (13, 1000), (14, 0x30000), (15, 0), (30, 0x1000)] p)

/-- The table of engine commands over small operands. -/
def cmdsX (s : State) : List (Instr × EngRight × CmdArgs) :=
  engineTable s .e4m3 true false false false true .rne .q0 7 10 (r 1) (r 2) (r 3) (w 2) 16 16 0 .ar
theorem wit_engines : (∀ e ∈ cmdsX (sX id), Ready e.1 (sX id)) ∧ (∀ e ∈ cmdsX (sX id), noEng (taken e.1 (sX id)) e.2.1 = none) :=
  ⟨ready_all (by decide +kernel), fun e he => Option.isNone_iff_eq_none.mp (List.all_eq_true.mp
    (show (cmdsX (sX id)).all (fun e => (noEng (taken e.1 (sX id)) e.2.1).isNone) = true by decide +kernel) e he)⟩
theorem wit_engines_refused : (cmdsX (sX fun p => { p with dom := 2 })).all (fun e => readyB e.1 (sX fun p => { p with dom := 2 })
    && noEng (taken e.1 (sX fun p => { p with dom := 2 })) e.2.1 == some .engineRight) = true := by decide +kernel
theorem wit_lytq : Ready (.lytq 8 10) (sX id) ∧ noEng (taken (.lytq 8 10) (sX id)) .elyt = none ∧ Ready (.cpsetReg 1 (r 3)) (sX id) ∧ Ready (.cpsetImm 1 4) (sX id) :=
  ⟨ready_of (by decide +kernel), by decide +kernel, ready_of (by decide +kernel), ready_of (by decide +kernel)⟩

/-- A transfer with identifier 7, of domain 1, which has taken a slot. -/
def cmd7 : Cmd := { cmd4 with id := 9, op := .cpgo, xid := 7, reg := 0, a := 0, b := 0, imm := 0, cps := [0x1000, 0x2000, 2, 1, 0, 0, 0x40, 0], st := .running }

/-- The channel of core 0 with that transfer. -/
def sV (c : Cmd) : State :=
  let s := sX id
  { setCtx s 0 1 { getCtx s 0 1 with nextXid := 8, xids := [7], tags := 4, tagerr := 4 } with cmds := [c], hbm := wrNat hbm0 0x1000 2 0xABCD, nextId := 10 }
theorem wit_cpcancel : Ready (.cpcancel 8 (r 12)) (sV cmd7) ∧ noEng (taken (.cpcancel 8 (r 12)) (sV cmd7)) .ecpy = none ∧ src (sV cmd7) (r 12) ≠ 0
    ∧ (src (sV cmd7) (r 12)).toNat < (getCtx (sV cmd7) 0 1).nextXid ∧ xferOf (sV cmd7) 0 1 7 = some cmd7 ∧ cmd7.dom = (curSp (sV cmd7)).dom
    ∧ xferOf { sV cmd7 with cmds := [] } 0 1 7 = none ∧ src (sV cmd7) (r 6) = 0 ∧ xferOf (sV { cmd7 with dom := 3 }) 0 1 7 = some { cmd7 with dom := 3 } :=
  ⟨ready_of (by decide +kernel), by decide +kernel⟩
theorem wit_cpcancel_written : lastWritten cmd7 = false ∧ lastWritten { cmd7 with done := 2 } = true
    ∧ xferOf (sV { cmd7 with done := 2 }) 0 1 7 = some { cmd7 with done := 2 }
    ∧ lastWritten { cmd7 with atEnd := true } = true ∧ lastWritten { cmd7 with atEnd := true, cancel := true } = false
    ∧ lastWritten { cmd7 with atEnd := true, fail := some (.segment, 0, 0) } = false := by decide +kernel
theorem wit_tags : (∀ i ∈ ([.waitany 8 (r 5), .waitany 8 (r 6), .waitall (r 5), .tagff 8 (r 5), .tagclr (r 5)] : List Instr), Ready i (sV cmd7))
    ∧ (curSp (sV cmd7)).win = [] ∧ src (sV cmd7) (r 5) ≠ 0 ∧ ((4 : Word) &&& 6).getLsbD 2 = true ∧ (∀ i < 2, ((4 : Word) &&& 6).getLsbD i = false) ∧ (getCtx (sX id) 0 1).tags &&& 6 = 0 :=
  ⟨ready_all (f := id) (by decide +kernel), by decide +kernel⟩
theorem wit_leases : (∀ i ∈ ([.lease 8 (r 13), .unlease (r 14)] : List Instr), Ready i (sX id)) ∧ noEng (taken (.lease 8 (r 13)) (sX id)) .ecol = none ∧ 0 < (src (sX id) (r 13)).toNat
    ∧ (src (sX id) (r 13)).toNat ≤ 1800000 ∧ feature (sX id) 1 5 = true ∧ fieldN (src (sX id) (r 14)) 4 12 = 0
    ∧ fieldN (src (sX id) (r 14)) 48 16 = 0 ∧ (curSp (sX id)).win = [] :=
  ⟨ready_all (f := id) (by decide +kernel), by decide +kernel⟩
theorem wit_leases_held : leaseIs { sX id with engines := [(2, ⟨3, some (1, 500), false⟩)] } 1 2 3 = true
    ∧ leaseIs { sX id with engines := [(2, ⟨3, some (1, 500), false⟩)], refTimer := 500 } 1 2 3 = false
    ∧ leaseIs { sX id with engines := [(2, ⟨3, some (1, 500), true⟩)] } 1 2 3 = true ∧ (getEngine { sX id with engines := [(2, ⟨3, some (1, 500), true⟩)] } 2).back = true := by decide +kernel
theorem wit_no_lease : feature { sX id with fns := [] } 1 5 = false := by decide +kernel

/-- g1 the address of an image of default rule 0, g2 one rule from number 9. -/
def sRule : State := { usr (regs [(1, 0x3000), (2, 0x49)]) with hbm := wrNat hbm0 0x3000 32 (mget 0 defaultTrowel 0).toNat }
theorem wit_trload : Ready (.trload (r 1) (r 2)) sRule ∧ (curSp sRule).dom = kernelDom ∧ 0 < fieldN (src sRule (r 2)) 6 7
    ∧ fieldN (src sRule (r 2)) 0 6 + fieldN (src sRule (r 2)) 6 7 ≤ 64 ∧ fieldN (src sRule (r 2)) 13 51 = 0 ∧ (src sRule (r 1)).toNat % 32 = 0
    ∧ pathBad (src sRule (r 1)) = false ∧ pathOf (src sRule (r 1)) ≤ 1
    ∧ fieldN (src sRule (r 1) + BitVec.ofNat 64 (32 * fieldN (src sRule (r 2)) 6 7 - 1)) 57 7 = fieldN (src sRule (r 1)) 57 7
    ∧ trPath (taken (.trload (r 1) (r 2)) sRule) (pageParts 0x3000 32) = none
    ∧ ruleOk (mget 0 defaultTrowel 0) = true ∧ ruleOk (BitVec.allOnes 256) = false
    ∧ trPages (taken (.trload (r 1) (r 2)) sRule) (pageParts 0x3000 32) = .ok [(⟨⟨.hbm, 0x3000⟩, pageH, 35⟩, (0x3000, 32))]
    ∧ trRights (taken (.trload (r 1) (r 2)) sRule) [(⟨⟨.hbm, 0x3000⟩, pageH, 35⟩, (0x3000, 32))] = .ok () :=
  ⟨ready_of (by decide +kernel), by decide +kernel⟩

/-- An LYT of 4 elements of 8 bits from 0x1000 to 0x2000 stands in the window. -/
def sZ0 : State :=
  let s := sX (regs [(10, 0x300000000A), (11, 0)])
  stAfter (exec (.lyt 7 (r 3) (r 4) 10) { s with hbm := wrNat hbm0 0x1000 4 0x44332211 })
theorem wit_trseal : Ready .trseal (sX id) ∧ (curSp sZ0).win.length = 1 ∧ sZ0.cur.checked = false ∧ (curSp (sealWin sZ0 0 1 1 pc0)).owed = [] :=
  ⟨ready_of (by decide +kernel), by decide +kernel⟩

/-- R198: the register of a command is pending and its window is open; R414: TRSEAL dispatches it; R221: it starts and completes. -/
theorem test_lyt_issue : (spOf 1 (.next sZ0)).map (fun p => (p.fullG 7, p.win.length)) = some (false, 1) := by decide +kernel

/-- The device after TRSEAL. -/
def sZ : State := stAfter (exec .trseal { sZ0 with cur := { sZ0.cur with pc := pc0 + 1, succ := pc0 + 2 } })
theorem test_trseal : (sZ.cmds.map (·.st) == [.queued] && (getSp sZ 0 1 1).win.isEmpty) = true := by decide +kernel

/-- The device after the LYT. -/
def sZe : State := stAfter (exec (.layoutCommandComplete 1 .ok) (stAfter (exec (.layoutCommandStart 1) sZ)))
theorem test_lyt : hbmN sZe 0x2000 4 = 0x44332211 ∧ (getSp sZe 0 1 1).g[7] = ⟨0, true, .no⟩ ∧ sZe.cmds = [] := by decide +kernel

/-- R406: the lowest tag with its error; R233: TAGFF leaves it set. -/
theorem test_waitany : gAfter (.waitany 8 (r 5)) (sV cmd7) 8 = some 66 ∧ (getCtx (stAfter (exec (.waitany 8 (r 5)) (sV cmd7))) 0 1).tags = 0 := by decide +kernel
theorem test_waitall : (spOf 1 (exec (.waitall (r 5)) (sV cmd7))).map (·.park) = some (.tagAll 6) := by decide +kernel
theorem test_tagff : gAfter (.tagff 8 (r 5)) (sV cmd7) 8 = some 66 ∧ (getCtx (stAfter (exec (.tagff 8 (r 5)) (sV cmd7))) 0 1).tags = 4 := by decide +kernel
theorem test_tagclr : (getCtx (stAfter (exec (.tagclr (r 5)) (sV cmd7))) 0 1).tags = 0 := by decide +kernel

/-- R222: LYTQ gives the bytes; R224: CPSET. -/
theorem test_lytq : gAfter (.lytq 8 10) (sX id) 8 = some 1 := by decide +kernel
theorem test_cpset : (spOf 1 (exec (.cpsetImm 1 0xFFFFFFFFFFFF) (sX id))).map (·.cps[1]) = some 0xFFFFFFFFFFFFFFFF
    ∧ (spOf 1 (exec (.cpsetReg 2 (r 13)) (sX id))).map (·.cps[2]) = some 1000 := by decide +kernel

/-- R344: no such identifier, one that is done, one in flight. -/
theorem test_cpcancel : gAfter (.cpcancel 8 (r 13)) (sV cmd7) 8 = some 2 ∧ gAfter (.cpcancel 8 (r 12)) { sV cmd7 with cmds := [] } 8 = some 1
    ∧ gAfter (.cpcancel 8 (r 12)) (sV cmd7) 8 = some 0 := by decide +kernel

/-- R237: a lease is asked for. -/
theorem test_lease : (stAfter (exec (.lease 8 (r 13)) (sX id))).leaseReqs = [⟨1, .spoke 0 1 1, 8, 1, 1000⟩] := by decide +kernel
theorem test_trload : pcAfter (.trload (r 1) (r 2)) sRule = some (pc0 + 1)
    ∧ mget 0 (getHalf (stAfter (exec (.trload (r 1) (r 2)) sRule)) 0).trowel 9 = mget 0 defaultTrowel 0 := by decide +kernel

/-! Events of the engines. -/

/-- A matrix command that is queued. -/
def sQm : State := { sP with cmds := [{ cmd4 with st := .queued }] }
theorem wit_start : getCmd sQm 4 = some { cmd4 with st := .queued } ∧ mayStart sQm { cmd4 with st := .queued } = true
    ∧ needPanes sQm { cmd4 with st := .queued } = none ∧ needPanes sQm { cmd4 with st := .queued, panes := [16] } = some [16]
    ∧ (cmd4.op.isMatrix = true) := by decide +kernel

/-- One row of one column. -/
def cmdM : Cmd := { cmd4 with b := 1, imm := 0x10 }

/-- A device with that command. -/
def sMz : State := { sP with cmds := [cmdM] }
theorem wit_complete : getCmd sMz 4 = some cmdM ∧ cmdM.st = .running ∧ cmdM.grp = none ∧ (runAll sMz cmdM).2 = none ∧ (runAll sMz cmdM).1.2.grp = none ∧ (runAll sMz cmdM).1.2.fail = none
    ∧ outCut (setCmd (runAll sMz cmdM).1.1 (runAll sMz cmdM).1.2) (runAll sMz cmdM).1.2 = none := by decide +kernel

/-- The same command over a page that is not present, and over one that the domain may not write. -/
def cmdA : Cmd := { cmdM with a := 0x4000001001000000 }
theorem wit_fault : (runAll { sP with cmds := [cmdA] } cmdA).2.map (·.code) = some .notPresent ∧ cmdA.st = .running ∧ cmdA.grp = none ∧ cmdA.cancel = false ∧ cmdA.atEnd = false
    ∧ (runAll { sP with cmds := [cmdA] } cmdA).2 ≠ some badLatch := by decide +kernel

/-- One over the read-only path. -/
def cmdO : Cmd := { cmdM with a := 0x2000000000001000 }
theorem wit_fault_end : ((runAll { sP with cmds := [cmdO] } cmdO).2.map (·.code)).isSome = true ∧ (runAll { sP with cmds := [cmdO] } cmdO).2.map (·.code) ≠ some .notPresent
    ∧ (runAll { sP with cmds := [cmdO] } cmdO).2 ≠ some badLatch ∧ (runAll { sP with cmds := [cmdO] } cmdO).1.2.grp = none := by decide +kernel
theorem wit_pane_grant : let s := { sP with cmds := [{ cmd4 with st := .aside, panes := [16] }], paneReqs := [⟨0, 1, 1, .spoke 0 1 1, some 4, none, none⟩] }
    grantable s 0 = true := by decide +kernel
theorem wit_pane_publ : let s := { usr (fun p => { p with park := .panes }) with paneReqs := [⟨0, 1, 2, .spoke 0 1 1, none, none, some 2⟩] }
    grantable s 0 = true := by decide +kernel
theorem wit_finish : cmd4.owner = .spoke 0 1 1 ∧ cmd4.reg ≠ 0 ∧ (getSp sP 0 1 1).pendG cmd4.reg = .cmd cmd4.id ∧ cmd4.pub = none ∧ cmd4.ovl = [] := by decide +kernel
theorem test_matrix_complete : (spOf 1 (exec (.matrixCommandComplete 4 .ok) sMz)).map (·.g[7]) = some ⟨0x10000, true, .no⟩ := by decide +kernel
theorem test_translation_fault : (stAfter (exec (.engineTranslationFault 4) { sP with cmds := [cmdA] })).cmds.map (·.st) = [.parked] := by decide +kernel
theorem test_pane_grant : let s := { usr (fun p => { p with park := .panes }) with paneReqs := [⟨0, 1, 2, .spoke 0 1 1, none, none, some 2⟩] }
    (spOf 1 (exec (.paneGrant 0) s)).map (fun p => (p.pub, p.park)) = some (some 1, .none) := by decide +kernel

/-- A copy that waits for a slot. -/
def cmdS : Cmd := { cmd7 with xid := 0, st := .slotWait, reg := 7, id := 4 }
theorem wit_slot : let s := { sP with cmds := [cmdS] }
    slotWaiters s 0 = [cmdS] ∧ inFlight s 0 < 512 ∧ cmdS.owner = .spoke 0 1 1 ∧ (getSp s 0 1 1).pendG cmdS.reg = .cmd cmdS.id := by decide +kernel
theorem wit_transfer : getCmd (sV cmd7) 9 = some cmd7 ∧ cmd7.op.isCopy = true ∧ cmd7.cancel = false ∧ cmd7.st = .running ∧ (runAll (sV cmd7) cmd7).2 = none
    ∧ (runAll (sV cmd7) cmd7).1.2.fail = none ∧ barAt (sV cmd7) cmd7 = .ok none ∧ cmd7.atEnd = false ∧ outCut (sV cmd7) cmd7 = none ∧ cmd7.fail = none := by decide +kernel

/-- It with a barrier in the scratchpad, and with one whose page is not present. -/
def cmdB (a : Word) : Cmd := { cmd7 with cps := [0x1000, 0x2000, 2, 1, 0, 0, 0x40, a] }
theorem wit_transfer_bar : (barAt (sV (cmdB 0x6000001000000000)) (cmdB 0x6000001000000000)).toBool = true
    ∧ (match barAt (sV (cmdB 0x1001000000)) (cmdB 0x1001000000) with | .error e => e.code == .notPresent | _ => false) = true := by decide +kernel
theorem wit_bar_arrival : ({ sB with barArrs := [⟨⟨.scr, 0⟩, 8, 1, 0⟩] } : State).barArrs[0]? = some ⟨⟨.scr, 0⟩, 8, 1, 0⟩ := by decide +kernel
theorem test_slot : let s := stAfter (exec (.copySlotGrant 0 1) { sP with cmds := [cmdS] })
    (getSp s 0 1 1).g[7] = ⟨1, true, .no⟩ ∧ (getCtx s 0 1).nextXid = 2 := by decide +kernel

/-- R232: with its slot a transfer of tag 3 arms it; one that completes, was cancelled or failed releases it, the last two with the error bit; R235: the watermark. -/
theorem test_tag_life : let c : Cmd := { cmdS with cps := [0x1000, 0x2000, 2, 1, 0, 0, 3, 0] }
    let s := takeSlot { sP with cmds := [c] } c
    let x := getCtx s 0 1
    let y (c : Cmd) (bad : Option FaultCode) := getCtx (finishCopy s c bad 0 none) 0 1
    let d : Cmd := { c with xid := 1 }
    (mget 0 x.tagCnt 3, x.tags, watermark x) = (1, 0, 1) ∧ ((y d none).tags, (y d none).tagerr, mget 0 (y d none).tagCnt 3, watermark (y d none)) = (8, 0, 0, 2)
    ∧ ((y { d with cancel := true } none).tagerr, (y d (some .segment)).tagerr) = (8, 8) := by decide +kernel
theorem wit_tag_life : ∀ i < 16, (match (getSp (sV cmd7) 0 i 1).park with | .tagAny _ _ | .tagAll _ => false | _ => true) = true := by decide +kernel

/-- R225: the bytes are copied; R235: the identifier is gone. -/
theorem test_transfer : let s := stAfter (exec (.transferCompletion 9 .ok) (sV cmd7))
    hbmN s 0x2000 2 = 0xABCD ∧ (getCtx s 0 1).xids = [] ∧ s.cmds = [] := by decide +kernel
theorem test_bar_arrival : rdN (stAfter (exec (.copyBarrierArrival 0) { sB with barArrs := [⟨⟨.scr, 0⟩, 8, 1, 0⟩] })) ⟨.scr, 8⟩ 8 = 2 ^ 31 := by decide +kernel

/-- A lease of engine 2 by VF 1 in generation 3, and a request for another. -/
def sLe : State := { (usr fun p => p.owe 7 (.lease 4)) with engines := [(2, ⟨3, some (1, 500), false⟩)], leaseReqs := [⟨4, .spoke 0 1 1, 7, 1, 1000⟩] }
theorem wit_lease_answer : sLe.leaseReqs = [⟨4, .spoke 0 1 1, 7, 1, 1000⟩] ∧ (getSp sLe 0 1 1).pendG 7 = .lease 4 ∧ leasesOf sLe 1 < leaseMax sLe 1 := by decide +kernel
theorem wit_lease_expiry : (getEngine sLe 2).lease = some (1, 500) := by decide +kernel
theorem test_lease_answer : (spOf 1 (exec .leaseAnswer sLe)).map (·.g[7]) = some ⟨0x10000, true, .no⟩ := by decide +kernel
theorem test_lease_expiry : getEngine (stAfter (exec (.leaseExpiry 2) sLe)) 2 = ⟨3, none, false⟩ := by decide +kernel

/-! The Trowel's rules. -/

/-- A LYT of four bytes from one address to another. -/
def cL (n : Nat) (a b : Word) : Cmd := { cmd4 with id := n, op := .lyt, imm := 0, a := a, b := b, c := 0x300000000A, tab := defaultTrowel, st := .queued }

/-- LYTCHAIN into the buffers of the tile, and the same into HBM. -/
def chain : List Cmd := [cL 4 0x1000 0x8000001000010000, cL 5 0x8000001000010000 0x8000001000012000]
def chainH : List Cmd := [cL 4 0x1000 0x2000, cL 5 0x2000 0x3000]

/-- One rule of the default table. -/
def rule1 (k : Nat) : List (Nat × BitVec 256) := [(k, mget 0 defaultTrowel k)]

/-- The device as a window is sealed, both registers pending. -/
def sRw : State := { sP with cmds := [], nextId := 6 }

/-- The class of LYTCHAIN changed to RANGE. -/
def ruleRange : BitVec 256 := mget 0 defaultTrowel 3 ||| 0x20
theorem wit_rules : (∀ j < 64, bitN (mget (0 : BitVec 256) [] j) 0 = false) ∧ (∀ j < 64, j ≠ 3 → bitN (mget 0 (rule1 3) j) 0 = false)
    ∧ ruleMatches sRw (mget 0 defaultTrowel 3) chain = true ∧ classAllowed (mget 0 defaultTrowel 3) chain = true ∧ resources sRw (mget 0 defaultTrowel 3) chain = true
    ∧ (rewrite (mget 0 defaultTrowel 3) chain).isSome = true ∧ ruleMatches sRw (mget 0 defaultTrowel 3) chainH = true ∧ resources sRw (mget 0 defaultTrowel 3) chainH = false
    ∧ ruleMatches sRw ruleRange chain = true ∧ classAllowed ruleRange chain = false
    ∧ (let r := mget 0 defaultTrowel 3 ||| BitVec.ofNat 256 (517 * 2 ^ 144); ruleMatches sRw r chain = true ∧ fieldN r 144 2 = 1 ∧ fieldN r 146 2 = 1 ∧ fieldN r 151 2 = 0)
    ∧ ruleMatches sRw (mget 0 defaultTrowel 3 ||| 2 ^ 14) (chain.map fun c => { c with perm := 4 }) = true := by decide +kernel

/-- A replacement of each computed field: COMPOSE, SBIAS, ADJZERO, FUSEK, TSTRIDE. -/
theorem wit_replacements : ([(3, 0), (4, 0), (4, 1), (5, 0), (1, 0)] : List (Nat × Nat)).map (fun x => let r := mget 0 defaultTrowel x.1
      (ruleRep r x.2 35 3, (replacement r x.2 (chain ++ [cmd4])).isSome)) = [(1, true), (2, true), (3, true), (4, true), (5, true)]
    ∧ ((chain ++ [cmd4])[1]?).map (fun t => t.imm % 16) = some 0 ∧ (([{ cmd4 with imm := 1 }, { cmd4 with imm := 1 }] : List Cmd)[1]?).map (fun t => t.imm % 16) = some 1 := by decide +kernel

/-- The commands that LYTCHAIN makes. -/
def chained : List Cmd := (rewrite (mget 0 defaultTrowel 3) chain).getD []
theorem wit_group : chain ≠ [] ∧ (entersAll (groupStart sRw 3 chain chained) (groupCmds sRw chain chained)).isSome = true := by decide +kernel

/-- R213: the second LYT takes the source of the first; both are in the queues as commands of the group. -/
theorem test_rewrite : let x := tryRules sRw (rule1 3) (chain.map some) (List.range 64)
    (x.1.cmds.map fun c => (c.a, c.b, c.grp)) = [(0x1000, 0x8000001000010000, some 6), (0x1000, 0x8000001000012000, some 6)] ∧ x.2 = 2
    ∧ (getSp x.1 0 1 1).trlog.length = 1 := by decide +kernel

/-- The group of those commands, whose first original fills g7. -/
def gCh : TrGrp :=
  { id := 6, owner := .spoke 0 1 1, core := 0, vf := 1, rule := 3, origs := [cL 4 0x1000 0x8000001000010000, { cL 5 0x8000001000010000 0x8000001000012000 with reg := 8 }]
    cmds := [7, 8], regions := [], ovl := [], pub := none, flags := 0, held := false, latches := [] }
theorem wit_commit : cL 4 0x1000 0x8000001000010000 ∈ gCh.origs ∧ (getSp sRw 0 1 1).pendG (cL 4 0x1000 0x8000001000010000).reg = .cmd 4
    ∧ (∀ x ∈ gCh.origs, x.id ≠ 4 → x.reg ≠ 7) ∧ (∀ x ∈ gCh.origs, x.id = 4 → x = cL 4 0x1000 0x8000001000010000) := by decide +kernel
theorem test_commit : (getSp (commit sRw gCh) 0 1 1).g[7] = ⟨0, true, .no⟩ := by decide +kernel

/-! Group 101 and 110: vectors and masks. -/

/-- v1 = 1.0, v2 = 2.0, v3 = 3.0, v4 = 0x7FFFFFFF, v5 = 8 (an index), v6 = 4.0; k1 names lane 0, k2 none; g1 an HBM address, g2 host memory, g3 scratchpad. -/
def sVc : State := usr fun p =>
  { vregs [(1, 0x3F800000), (2, 0x40000000), (3, 0x40400000), (4, 0x7FFFFFFF), (5, 8), (6, 0x40800000)]
      (regs [(1, 0x100), (2, 0x800000000), (3, 0x6000001000000000), (4, 0), (5, 0x1122334455667788), (30, 0x1000)] p) with
    k := (p.k.set 1 1).set 2 0 }
theorem wit_lanes : ∀ e ∈ floatTable sVc .rne true 1 7 (w 1) (w 2) (w 3) .bf16 .f32 ++ laneTable sVc true 1 7 (w 4) (w 4) (r 4) (r 4) 0, Ready e.1 sVc :=
  ready_all (by decide +kernel)
theorem wit_vectors : (∀ i ∈ ([.vcmp .lt 0 3 (w 1) (w 2), .vsel 7 (w 1) (w 2) 1, .vredadd 1 7 (w 1), .vredmax 1 7 (w 1), .vext 7 (w 1) 3, .vins 7 (w 1) (r 1) 3,
    .vqnt .fp4 1 7 (w 1), .kand 3 0 1, .kor 3 0 1, .knot 3 1, .kpop 7 1] : List Instr), Ready i sVc) := ready_all (f := id) (by decide +kernel)
theorem wit_register_frame : Instr.regOnly (.vadd .rne false 1 7 (w 1) (w 2)) = true ∧ Ready (.vadd .rne false 1 7 (w 1) (w 2)) sVc ∧ sVc.cur.core < Config.numCores
    ∧ (match exec (.vadd .rne false 1 7 (w 1) (w 2)) sVc with | .next _ => true | _ => false) = true :=
  ⟨by decide, ready_of (by decide +kernel), by decide +kernel⟩

/-- R421: two sums that are exact; an inactive lane keeps its bits. -/
theorem test_vadd : vAfter (.vadd .rne false 0 7 (w 1) (w 2)) sVc 7 31 = some 0x40400000 ∧ vAfter (.vadd .rne false 1 6 (w 1) (w 2)) sVc 6 1 = some 0x40800000 := by
  decide +kernel
theorem test_vsub_vmul : vAfter (.vsub .rne false 1 7 (w 1) (w 2)) sVc 7 0 = some 0xBF800000 ∧ vAfter (.vmul .rne false 1 7 (w 2) (w 3)) sVc 7 0 = some 0x40C00000 := by
  decide +kernel
theorem test_vfma : vAfter (.vfma .rne false 1 7 (w 2) (w 3) (w 1)) sVc 7 0 = some 0x40E00000 := by decide +kernel
theorem test_vmin_vmax : vAfter (.vmin 1 7 (w 1) (w 2)) sVc 7 0 = some 0x3F800000 ∧ vAfter (.vmax 1 7 (w 1) (w 2)) sVc 7 0 = some 0x40000000 := by decide +kernel
theorem test_vabs_vneg : vAfter (.vneg 1 7 (w 1)) sVc 7 0 = some 0xBF800000 ∧ vAfter (.vabs 1 7 (w 4)) sVc 7 0 = some 0x7FFFFFFF := by decide +kernel

/-- R423: wrap without SAT, the clamp and the flag with it. -/
theorem test_viadd : vAfter (.viadd false 1 7 (w 4) (w 4)) sVc 7 0 = some 0xFFFFFFFE ∧ vAfter (.viadd true 1 7 (w 4) (w 4)) sVc 7 0 = some 0x7FFFFFFF
    ∧ (spOf 1 (exec (.viadd true 1 7 (w 4) (w 4)) sVc)).map (·.flags) = some fSat := by decide +kernel
theorem test_vimul : vAfter (.vimul false 1 7 (w 4) (w 4)) sVc 7 0 = some 1 ∧ vAfter (.vimul true 1 7 (w 5) (w 5)) sVc 7 0 = some 64 := by decide +kernel
theorem test_vlogic : vAfter (.vand 1 7 (w 1) (w 2)) sVc 7 0 = some 0 ∧ vAfter (.vor 1 7 (w 1) (w 2)) sVc 7 0 = some 0x7F800000
    ∧ vAfter (.vxor 1 7 (w 1) (w 4)) sVc 7 0 = some 0x407FFFFF := by decide +kernel

/-- R423: shift amounts are taken modulo 32: 0x7FFFFFFF gives 31. -/
theorem test_vshifts : vAfter (.vshl 1 7 (w 5) (w 5)) sVc 7 0 = some 0x800 ∧ vAfter (.vshr 1 7 (w 4) (w 5)) sVc 7 0 = some 0x7FFFFF
    ∧ vAfter (.vshl 1 7 (w 4) (w 4)) sVc 7 0 = some 0x80000000 := by decide +kernel

/-- R425: 1.0 < 2.0 in lane 0; the bits of inactive lanes stay. -/
theorem test_vcmp : (spOf 1 (exec (.vcmp .lt 1 2 (w 1) (w 2)) sVc)).map (·.k[2]) = some 1
    ∧ (spOf 1 (exec (.vcmp .eq 1 3 (w 1) (w 2)) sVc)).map (·.k[3]) = some 0xFFFFFFFE := by decide +kernel
theorem test_vsel : vAfter (.vsel 7 (w 1) (w 2) 1) sVc 7 0 = some 0x3F800000 ∧ vAfter (.vsel 7 (w 1) (w 2) 1) sVc 7 1 = some 0x40000000 := by decide +kernel

/-- R429: 2^1, 1/2, and VRSQ of 4.0 is 0.5. -/
theorem test_vexp2 : vAfter (.vexp2 1 7 (w 1)) sVc 7 0 = some 0x40000000 := by decide +kernel
theorem test_vrcp_vrsq : vAfter (.vrcp 1 7 (w 2)) sVc 7 0 = some 0x3F000000 ∧ vAfter (.vrsq 1 7 (w 6)) sVc 7 0 = some 0x3F000000 := by decide +kernel

/-- R435: 32 ones make 32.0; with no active lane the identities. -/
theorem test_vredadd : gAfter (.vredadd 0 7 (w 1)) sVc 7 = some 0x42000000 ∧ gAfter (.vredadd 2 7 (w 1)) sVc 7 = some 0x80000000 := by decide +kernel
theorem test_vredmax : gAfter (.vredmax 1 7 (w 3)) sVc 7 = some 0x40400000 ∧ gAfter (.vredmax 2 7 (w 1)) sVc 7 = some 0xFF800000 := by decide +kernel
theorem test_vperm_vbcast : vAfter (.vperm 1 7 (w 1) (w 5)) sVc 7 0 = some 0x3F800000 ∧ vAfter (.vbcast 1 7 (r 5)) sVc 7 0 = some 0x55667788 := by decide +kernel

/-- R176: the published first word of Philox4x32-10 for a zero key and a zero counter. -/
theorem test_vrng : vAfter (.vrng 0 1 7 (r 4) (r 4)) sVc 7 0 = some 0x6627E8D5 := by decide +kernel

/-- R424. -/
theorem test_vext_vins : gAfter (.vext 7 (w 3) 31) sVc 7 = some 0x40400000 ∧ vAfter (.vins 7 (w 1) (r 5) 3) sVc 7 3 = some 0x55667788
    ∧ vAfter (.vins 7 (w 1) (r 5) 3) sVc 7 4 = some 0x3F800000 := by decide +kernel

/-- R427: the BF16 of 3.0; the INT16 of 3.0. -/
theorem test_vcvt : vAfter (.vcvt .bf16 .f32 .rne false 1 7 (w 3)) sVc 7 0 = some 0x4040 ∧ vAfter (.vcvt .i16 .f32 .rne false 1 7 (w 3)) sVc 7 0 = some 3 := by decide +kernel

/-- R168, R169: 300.5 in INT8 is out of range and inexact. -/
theorem test_vcvt_flags : let s := usr (vregs [(1, 0x43964000)])
    (spOf 1 (exec (.vcvt .i8 .f32 .rne false 0 7 (w 1)) s)).map (·.flags) = some (fInv ||| fInx) := by decide +kernel

/-- The block of R175: 5.0, −0.3, 1.25, 7.5. -/
def sVq : State := usr fun p => p.wrV 1 ((((Vector.replicate 32 0).set 0 0x40A00000).set 1 0xBE99999A).set 2 0x3FA00000 |>.set 3 0x40F00000)

/-- R434. -/
theorem test_vqnt : (vAfter (.vqnt .fp4 0 7 (w 1)) sVq 7 0, vAfter (.vqnt .fp4 0 7 (w 1)) sVq 7 1, vAfter (.vqnt .fp4 0 7 (w 1)) sVq 7 8)
      = (some 0x7296, some 0, some 0x7F7F)
    ∧ (spOf 1 (exec (.vqnt .fp4 0 7 (w 1)) sVq)).map (·.flags) = some (fSat ||| fUnf ||| fInx) := by decide +kernel

/-- R360. -/
theorem test_masks : (spOf 1 (exec (.kand 3 0 1) sVc)).map (·.k[3]) = some 1 ∧ (spOf 1 (exec (.kor 3 1 2) sVc)).map (·.k[3]) = some 1
    ∧ (spOf 1 (exec (.knot 3 1) sVc)).map (·.k[3]) = some 0xFFFFFFFE ∧ gAfter (.kpop 7 0) sVc 7 = some 32 := by decide +kernel

theorem wit_vloads : Ready (.vld true 1 7 (r 1) 4) sVc ∧ Ready (.vgath false 1 7 (r 1) (w 5) 4) sVc ∧ (curSp sVc).win = []
    ∧ (match lanesCheck (taken (.vld true 1 7 (r 1) 4) sVc) false (lanesOf (curSp sVc) 1 (fun j => 0x104 + BitVec.ofNat 64 (4 * j.val)) fun _ => 0) with
        | .ok (_, l) => l == [⟨0, ⟨.hbm, 0x104⟩, 0, false⟩] | _ => false) = true
    ∧ Ready (.vld false 2 7 (r 1) 4) sVc ∧ lanesOf (curSp sVc) 2 (fun j => 0x104 + BitVec.ofNat 64 (4 * j.val)) (fun _ => 0) = [] :=
  ⟨ready_of (by decide +kernel), ready_of (by decide +kernel), by decide +kernel, by decide +kernel, ready_of (by decide +kernel), by decide +kernel⟩
theorem wit_vstores : Ready (.vst true 1 (r 3) (w 2) 0) sVc ∧ Ready (.vscat false 1 (r 1) (w 5) (w 2) 0) sVc
    ∧ (match lanesCheck (taken (.vst true 1 (r 3) (w 2) 0) sVc) true (lanesOf (curSp sVc) 1 (fun j => 0x6000001000000000 + BitVec.ofNat 64 (4 * j.val)) fun _ => 0x40000000) with
        | .ok (_, l) => l == [⟨0, ⟨.scr, 0⟩, 0x40000000, false⟩] | _ => false) = true
    ∧ Ready (.vst true 1 (r 2) (w 2) 0) { sVc with ats := [(2 ^ 52, 0)] }
    ∧ (match lanesCheck (taken (.vst true 1 (r 2) (w 2) 0) { sVc with ats := [(2 ^ 52, 0)] }) true (lanesOf (curSp sVc) 1 (fun j => 0x800000000 + BitVec.ofNat 64 (4 * j.val)) fun _ => 0x40000000) with
        | .ok (_, l) => l.all (·.loc.far) | _ => false) = true :=
  ⟨ready_of (by decide +kernel), ready_of (by decide +kernel), by decide +kernel, ready_of (by decide +kernel), by decide +kernel⟩

/-- Two lanes of a vector access on its way. -/
def accs2 : List LaneAcc := [⟨0, ⟨.hbm, 0x100⟩, 0x11111111, false⟩, ⟨3, ⟨.hbm, 0x10C⟩, 0x22222222, false⟩]

/-- Spoke 1 waits for it. -/
def sVr (k : ReqKind) : State :=
  { usr fun p => { p with outst := [⟨5, k, 4, accs2, [], true, false, [], pc0, pc0 + 1, 0⟩] } with hbm := wrNat (wrNat hbm0 0x100 4 0x8899AABB) 0x10C 4 0xCCDDEEFF, nextId := 6 }
theorem wit_vreply : (getSp (sVr (.vload 7)) 0 1 1).outst[0]? = some ⟨5, .vload 7, 4, accs2, [], true, false, [], pc0, pc0 + 1, 0⟩ ∧ Apart 4 accs2
    ∧ (getSp (sVr .vstore) 0 1 1).outst[0]? = some ⟨5, .vstore, 4, accs2, [], true, false, [], pc0, pc0 + 1, 0⟩
    ∧ ∀ x ∈ accs2, x.ro = false ∧ Ordinary x.loc ∧ FirstAt (getSp (sVr (.vload 7)) 0 1 1) 5 x.loc 4 := by
  refine ⟨by decide +kernel, by unfold Apart; decide, by decide +kernel, fun x hx => ?_⟩
  rcases List.mem_cons.mp hx with rfl | hx
  · exact ⟨rfl, ⟨by decide, .inl (by decide)⟩, by unfold FirstAt; decide +kernel⟩
  · rcases List.mem_cons.mp hx with rfl | hx
    · exact ⟨rfl, ⟨by decide, .inl (by decide)⟩, by unfold FirstAt; decide +kernel⟩
    · cases hx

/-- The same access, by itself. -/
def req5 (k : ReqKind) : Req := ⟨5, k, 4, accs2, [], true, false, [], pc0, pc0 + 1, 0⟩
theorem wit_vlane : reqCut (sVr .vstore) 1 (req5 .vstore) = false ∧ laneFree (req5 (.vload 7)) 3 = some ⟨3, ⟨.hbm, 0x10C⟩, 0x22222222, false⟩
    ∧ laneFree (req5 .vstore) 3 = some ⟨3, ⟨.hbm, 0x10C⟩, 0x22222222, false⟩ ∧ (req5 .vstore).accs.filter (·.lane != 3) ≠ []
    ∧ ((getSp (sVr .vstore) 0 1 1).outst.filter fun q => decide (q.id < 5) && reqMeets ⟨.hbm, 0x10C⟩ 4 q) = [] := by decide +kernel

/-- R432: lanes of a load have no order among themselves; a store's lane waits for a lower one of its bytes. -/
theorem test_lane_order : let a : List LaneAcc := [⟨0, ⟨.hbm, 0x100⟩, 1, false⟩, ⟨3, ⟨.hbm, 0x100⟩, 2, false⟩]
    (laneFree { req5 (.vload 7) with accs := a } 3).isSome = true ∧ laneFree { req5 .vstore with accs := a } 3 = none := by decide +kernel

/-- R432: lane 3 alone is performed; the rest stays outstanding. -/
theorem test_vlane : let s := stAfter (exec (.memoryReply 0 1 0 (.lane 3)) (sVr (.vload 7)))
    (getSp s 0 1 1).outst.map (fun q => (q.accs.map (·.lane), q.got)) = [([0], [(3, 0xCCDDEEFF)])] := by decide +kernel
theorem test_vload_reply : let q := spOf 1 (exec (.memoryReply 0 1 0 .ok) (sVr (.vload 7)))
    (q.map fun p => (p.v[7].val[0], p.v[7].val[3], p.v[7].val[1], p.v[7].full)) = some (0x8899AABB, 0xCCDDEEFF, 0, true) := by decide +kernel
theorem test_vstore_reply : let s := stAfter (exec (.memoryReply 0 1 0 .ok) (sVr .vstore)); hbmN s 0x100 4 = 0x11111111 ∧ hbmN s 0x10C 4 = 0x22222222 := by decide +kernel

/-! Group 111: system. -/

/-- The kernel domain. -/
def sKd (f : Spoke → Spoke) : State := usr fun p => f (regs [(1, 0x1000), (2, 0x40), (3, 0xF), (4, 0), (30, 0x1000)] { p with dom := kernelDom })

/-- Another domain. -/
def sU2 : State := usr fun p => regs [(30, 0x1000)] { p with dom := 2 }
theorem wit_system : (∀ i ∈ ([.nop, .rds 7 1, .tinv (r 1) (r 2), .bkpt, .wrs (r 3) 13, .wrs (r 2) 9] : List Instr), Ready i (sKd id)) ∧ Ready (.rds 7 15) sU2
    ∧ rdsDenied (taken (.rds 7 1) (sKd id)) 1 1 (curSp (sKd id)).dom = none ∧ rdsDenied (taken (.rds 7 15) sU2) 1 15 (curSp sU2).dom = some .stateRight
    ∧ (curSp (sKd id)).dom = kernelDom ∧ (src (sKd id) (r 2)).toNat ≤ 2 ^ 40
    ∧ (match wrsState (taken (.wrs (r 3) 13) (sKd id)) 0 1 1 13 (src (sKd id) (r 3)) with | .ok _ => true | _ => false) = true
    ∧ (match wrsState (taken (.wrs (r 2) 9) (sKd id)) 0 1 1 9 (src (sKd id) (r 2)) with | .error f => f == .illegalField | _ => false) = true :=
  ⟨ready_all (f := id) (by decide +kernel), ready_of (by decide +kernel), by decide +kernel⟩
theorem test_nop_bkpt : pcAfter .nop (sKd id) = some (pc0 + 1) ∧ (spOf 1 (exec .bkpt (sKd id))).map (·.ctx) = some .stopped
    ∧ (stAfter (exec .bkpt (sKd id))).mesh = [⟨1, 0, 0, 28, false, 0, 1, 1, 0x10000, 0⟩] := by decide +kernel

/-- R388: SPID is 16 × CORE + the spoke. -/
theorem test_rds : gAfter (.rds 7 1) (sKd id) 7 = some 1 ∧ gAfter (.rds 7 0) (sKd id) 7 = some 1 := by decide +kernel

/-- R439: the flags; CORE cannot be written. -/
theorem test_wrs : (spOf 1 (exec (.wrs (r 3) 13) (sKd id))).map (·.flags) = some 0xF
    ∧ hbmN (stAfter (exec (.wrs (r 3) 2) (sKd id))) 0xFE0 8 = 0x10000 + FaultCode.num .stateRight := by decide +kernel
theorem test_tinv : (stAfter (exec (.tinv (r 1) (r 2)) (sKd id))).invals = [⟨1, 1, 0x1000, 0x40, .spoke 0 1 1, none⟩]
    ∧ (spOf 1 (exec (.tinv (r 1) (r 2)) (sKd id))).map (·.park) = some (.tinv 1) := by decide +kernel

/-- The spoke waits for its line; the line is in HBM. -/
def sFt : State := { usr fun p => { p with park := .line, want := some .branch, pc := pc0 + 1 } with hbm := wrNat hbm0 0x40000000 64 (parity line0).toNat }
theorem wit_line : (getSp sFt 0 1 1).park = .line ∧ (getSp sFt 0 1 1).want = some .branch ∧ (getSp sFt 0 1 1).owed = []
    ∧ (match lineRes sFt 0 1 1 (pc0 + 1) with | .ok x => decide (pteDT x.leaf = (getSp sFt 0 1 1).dom) | _ => false) = true
    ∧ (match enterLine (modSp sFt 0 1 1 fun q => { q with park := .none }) 0 1 1 (pc0 + 1) .branch 0 0 with | .ok _ => true | _ => false) = true := by decide +kernel
theorem wit_fetch : let s := { sFt with cores := [(0, { Core.reset with hub := sp0, ctx := { CoreCtx.reset with spokes := [(1, { sp0 with park := .fetch (pc0 + 1) })] } })] }
    (getSp s 0 1 1).park = .fetch (pc0 + 1) ∧ (match fetchLine s 0 1 (pc0 + 1) with | .ok x => ((getLine s 0 1 x.loc 0 0).2).isSome | _ => false) = true := by decide +kernel
theorem wit_line_read : badEntry .branch (pc0 + 1) = false
    ∧ (match lineRes sFt 0 1 1 (pc0 + 1) with
        | .ok x => (match (readWanted (modSp sFt 0 1 1 fun q => { q with park := .none }) 0 1 1 (pc0 + 1) x 0 0).2 with
          | some l => (lineCode .branch l (slotOf (pc0 + 1)) false (pteE x.leaf)).isNone
          | none => false)
        | _ => false) = true := by decide +kernel

/-- The spoke runs and has asked ahead for the line of a place. -/
def sAh : State := { usr (fun p => { p with ahead := some ⟨0x40000040, pageH, 35, ⟨.hbm, 0x40000000⟩, none, false, none⟩ }) with hbm := sFt.hbm }
theorem wit_ahead : (getSp sAh 0 1 1).park = .none ∧ ((getSp sAh 0 1 1).ahead.map fun a => (a.line, a.err)) = some (none, none)
    ∧ (getSp (usr id) 0 1 1).park = .none ∧ (getSp (usr id) 0 1 1).ahead = none := by decide +kernel

/-- R63: a copy that fails its parity is fetched again, once; a line asked for ahead is held. -/
theorem test_refetch : (getLine sFt 0 1 ⟨.hbm, 0x40000000⟩ 0x100000000 0).2 = some (parity line0) ∧ (getLine sFt 0 1 ⟨.hbm, 0x40000000⟩ 0x100000000 0x100000000).2 = none
    ∧ parityOk (parity line0) = true ∧ parityOk (parity line0 ^^^ 0x100000000) = false
    ∧ (spOf 1 (exec (.lineArrival 0 1 0 0) sAh)).map (fun p => p.ahead.bind (·.line)) = some (some (parity line0)) := by decide +kernel
theorem test_line : (spOf 1 (exec (.lineArrival 0 1 0 0) sFt)).map (fun p => (p.park, p.want, p.line.line == parity line0)) = some (.none, none, true) := by decide +kernel

/-- A TINV of spoke 1 on its way. -/
def sIa : State :=
  let s := sKd fun p => { p with park := .tinv 1 }
  { s with invals := [⟨1, 1, 0x1000, 0x40, .spoke 0 1 1, none⟩], nextId := 2 }

/-- The device with a line of the page that the range has been translated to, and another line, in its read cache. -/
def sIr : State :=
  { sIa with fns := [(0, fn0), (1, { fn1 with seen := [⟨0, 15, BitVec.ofNat 64 (leafOf 0 0)⟩] })], rcache := [(0, [⟨.hbm, 0x1000 / 64, 0⟩, ⟨.hbm, 0x1000000, 0⟩])] }
theorem wit_invalidation : sIr.invals[0]? = some ⟨1, 1, 0x1000, 0x40, .spoke 0 1 1, none⟩ ∧ 0 ∈ vfTiles sIr 1 ∧ invalMeets 0x1000 0x40 0 (2 ^ 15) = true
    ∧ lineIn (leafPlaces sIr 1 ⟨0, 15, BitVec.ofNat 64 (leafOf 0 0)⟩) .hbm 0x40 = true ∧ (getSp sIr 0 1 1).line.present = true := by decide +kernel
theorem test_invalidation_lines : let t := stAfter (exec (.invalidationAck 0) sIr)
    ((rlines t 0).map (·.a), (getFn t 1).seen.length, (getSp t 0 1 1).line.stale) = ([0x1000000], 0, true) := by decide +kernel
theorem test_invalidation : (spOf 1 (exec (.invalidationAck 0) sIa)).map (·.park) = some .none ∧ (stAfter (exec (.invalidationAck 0) sIa)).invals = [] := by decide +kernel

/-! Numbers: the hypotheses of the number rules. -/

theorem wit_codes : (Fmt.bf16, (⟨7, 8, 127, .ieee⟩ : BinFmt), 0x7FC0, 0x7F80, 0x7F7F) ∈ floatFormats
    ∧ (0x8001 < 2 ^ 16 ∧ 0x8001 / 2 ^ 7 % 2 ^ 8 = 0) ∧ (0 < 0x3F80 / 2 ^ 7 % 2 ^ 8 ∧ 0x3F80 % 2 ^ 15 ≤ 0x7F7F) ∧ 0x7F7F < 0x7F80 % 2 ^ 15 := by
  refine ⟨by simp [floatFormats], by decide, by decide, by decide⟩

/-- 1.0, −2.0 and 0 are finite, then +Inf, a quiet and a signalling NaN. -/
theorem wit_lane_kinds : laneFin 0x3F800000 = true ∧ laneFin 0xC0000000 = true ∧ laneFin 0 = true ∧ laneInf 0x7F800000 = true ∧ laneNan 0x7FC00000 = true
    ∧ laneNan 0x7F800000 = false ∧ laneNan 0x7FA00000 = true ∧ laneSig 0x7FA00000 = true ∧ laneFin 0x7F7FFFFF = true ∧ laneFin 0x7F800000 = false := by decide
theorem wit_lane_values : laneVal 0x3F800000 = 1 ∧ laneVal 0xC0000000 = -2 ∧ laneVal 0 = 0 ∧ laneVal 0x80000000 = 0 := by
  refine ⟨?_, ?_, ?_, ?_⟩ <;> decide +kernel
theorem wit_tree : ∃ x y, (treeSum (addF32 .rne false) 0 [0x3F800000]).1 = [x] ∧ (treeSum (addF32 .rne false) 0 [0x40000000]).1 = [y] :=
  ⟨_, _, rfl, rfl⟩

/-- 1.5 and −3 as exact values: the block has p = 1. -/
def numsQ : List Machine.Num := [.fin false 3 (-1), .fin true 3 0, .fin false 0 0]
theorem wit_quant : (∀ x ∈ numsQ, ∃ n m k, x = .fin n m k) ∧ (∃ x ∈ numsQ, (2 : ℚ) ^ (1 : Int) ≤ |x.val|) ∧ (∀ x ∈ numsQ, |x.val| < (2 : ℚ) ^ ((1 : Int) + 1)) := by
  refine ⟨by simp [numsQ], ⟨.fin true 3 0, by simp [numsQ], ?_⟩, ?_⟩
  · norm_num [Machine.Num.val]
  · intro x h
    simp only [numsQ, List.mem_cons, List.not_mem_nil, or_false] at h
    rcases h with rfl | rfl | rfl <;> norm_num [Machine.Num.val]
theorem wit_quant_other : (∃ x ∈ [Machine.Num.inf true], ¬ ∃ n m k, x = .fin n m k) ∧ ∀ x ∈ [Machine.Num.fin true 0 5], ∃ n k, x = .fin n 0 k := by
  simp

/-- R174: a block of 1.5, −3 and 0 in FP4: the scale is 2^(1 − 2), the codes are 5 (3), 15 (−6) and 0. -/
theorem test_quant : quantBlock .fp4 numsQ = (126, [5, 15, 0], 0) := by decide +kernel

/-- R172: the products of a block of E5M2: 1 × 2 + (−1) × 0.5, one with a zero times Inf, one with both infinities, one with an Inf. -/
theorem test_block : (blockSum .e5m2 .e5m2 [0x3C, 0xBC] [0x40, 0x38]).1.val = 3 / 2
    ∧ blockSum .e5m2 .e5m2 [0x7C] [0] = (.nan false, fInv) ∧ blockSum .e5m2 .e5m2 [0x7C, 0xFC] [0x3C, 0x3C] = (.nan false, fInv)
    ∧ blockSum .e5m2 .e5m2 [0x7C, 0x3C] [0xBC, 0x3C] = (.inf true, 0) ∧ (blockSum .e5m2 .e5m2 [0x7E, 0x3C] [0xBC, 0x3C]).1.isNan = true := by decide +kernel
theorem wit_block_kinds : Fmt.dec .e5m2 0x7C = .inf false ∧ Fmt.dec .e5m2 0xFC = .inf true ∧ (Fmt.dec .e5m2 0x7E).isNan = true
    ∧ (∃ m e, Fmt.dec .e5m2 0x3C = .fin false m e) ∧ (∃ k, Fmt.dec .e5m2 0x80 = .fin true 0 k) :=
  ⟨by decide +kernel, by decide +kernel, by decide +kernel, ⟨_, _, rfl⟩, ⟨_, rfl⟩⟩
theorem wit_matacc : [0, 0, 0, 0].length = 4 * (0 + 1) ∧ (∀ x ∈ [0xFF, 1] ++ [2, 3], x < 256) := by decide

/-- R172: −1 × 2 + 1 × 3 added to 5; a sum above the range is clamped with SAT. -/
theorem test_block_int : blockAddInt false [0xFF, 1] [2, 3] 5 = (6, 0) ∧ blockAddInt true [1] [1] 0x7FFFFFFF = (0x7FFFFFFF, fSat)
    ∧ blockAddInt false [1] [1] 0x7FFFFFFF = (0x80000000, 0) := by decide +kernel

/-- R189: 300 to INT8 is clamped with INX and SAT, or wraps to 44 with INX; 100 is exact; 3 × 2^−1 is 2 with INX. -/
theorem test_drain : drainElem .i8 .rne true 0 300 = (127, fInx ||| fSat) ∧ drainElem .i8 .rne false 0 300 = (44, fInx) ∧ drainElem .i8 .rne true 0 100 = (100, 0)
    ∧ drainElem .i8 .rne true (-1) 3 = (2, fInx) := by decide +kernel

/-- R191: of 1, −4, 4 and NaN the NaN and the first of the two 4 are kept. -/
theorem test_kept : kept [.fin false 1 0, .fin true 4 0, .fin false 4 0, .nan false] = (1, 3) := by decide +kernel
theorem wit_scale : scaleExp 127 127 0 = some 0 ∧ scaleExp 255 1 0 = none := by decide

/-! Events of the dispatcher. -/

/-- The bytes of a packet from its words. -/
def pktOf (ws : List Nat) : List Byte := bytesLE 64 ((ws.zipIdx.map fun p => p.1 * 2 ^ (64 * p.2)).sum)

/-- Queue 0 of VF 1 with a descriptor at 0x30000 for the ring at 0x2000, and a packet in it. -/
def sK (widx : Nat) (ws : List Nat) : State :=
  { usr id with
    hbm := wrBytes (wrNat (wrNat hbm0 0x30000 16 (0x2000 + 0x104 * 2 ^ 64)) 0x30010 8 widx) 0x2000 (pktOf ws)
    queues := [(256, ⟨true, decide (0 < widx), []⟩)] }

/-- Its source. -/
def q0 : PktSrc := .queue 1 0

/-- A SIGNAL that adds 3 at 0x200, and one that sets a timeline to 3. -/
def sigAdd : List Nat := [5, 0x200, 3]
def sigSet : List Nat := [5 + 2 ^ 16, 0x200, 3]

/-- A barrier on a semaphore at 0x200 that is to be 0 or less. -/
def barrier (type : Nat) : List Nat := [type + 2 ^ 16, 0x200, 0]

/-- A graph of one node at 0x3000. -/
def graphPkt : List Nat := [4, 0x3000, 1]

/-- The device with that graph. -/
def sGr : State := { sK 1 graphPkt with hbm := wrBytes (sK 1 graphPkt).hbm 0x3000 (pktOf sigAdd) }

/-- A population of one member, QUOTA 1. -/
def dispPkt : List Nat := [1 + 2 ^ 16 + 2 ^ 32, 0x40000000]
theorem wit_kick : (getFn State.reset 1).quiesced = true ∧ (getFn (sK 0 []) 1).quiesced = false ∧ queueDesc (sK 0 []) 1 0 = some 0x30000
    ∧ qEn (sK 0 []) 0x30000 = true ∧ (getQ (sK 0 []) 1 0).enabled = true ∧ qHalt (sK 0 []) 0x30000 = false ∧ qWidx (sK 0 []) 0x30000 < 1
    ∧ 1 ≤ qRidx (sK 0 []) 0x30000 + 2 ^ qLog (sK 0 []) 0x30000 ∧ activeCount (sK 0 []) < 1024 := by decide +kernel
theorem wit_signal : Served (sK 1 sigAdd) q0 5 (pktOf sigAdd) ∧ sigLoc (sK 1 sigAdd) 1 0x200 true = some ⟨.hbm, 0x200⟩
    ∧ (semAdd (started (sK 1 sigAdd) q0 (pktOf sigAdd) true) ⟨.hbm, 0x200⟩ 3).2 = (false, false) := by unfold Served; decide +kernel
theorem wit_timeline_packet : Served (sK 1 sigSet) q0 5 (pktOf sigSet) ∧ bitN (wordAt (pktOf sigSet) 0) 16 = true
    ∧ (match tlSet (started (sK 1 sigSet) q0 (pktOf sigSet) true) ⟨.hbm, 0x200⟩ 3 with | .ok _ => true | _ => false) = true := by unfold Served; decide +kernel
theorem wit_barrier_packets : Served (sK 1 (barrier 2)) q0 2 (pktOf (barrier 2)) ∧ Served (sK 1 (barrier 3)) q0 3 (pktOf (barrier 3))
    ∧ barWaits (sK 1 (barrier 2)) q0 = [] ∧ barEval (sK 1 (barrier 2)) 1 (pktOf (barrier 2)) = some ([⟨.hbm, 0x200⟩], true)
    ∧ barEval (sK 1 (barrier 3)) 1 (pktOf (barrier 3)) = some ([⟨.hbm, 0x200⟩], true) := by unfold Served; decide +kernel
theorem wit_graph : Served sGr q0 4 (pktOf graphPkt) ∧ nodesUsed sGr + 1 ≤ 16384 ∧ dispRead sGr 1 (pageParts 0x3000 72) = some (pktOf sigAdd ++ List.replicate 8 0)
    ∧ readPreds sGr 1 0x3000 [0] = some [[]] ∧ graphBad [pktOf sigAdd] [0] [[]] = false := by unfold Served; decide +kernel
theorem wit_dispatch : Served (sK 1 dispPkt) q0 1 (pktOf dispPkt) ∧ launchRec (sK 1 dispPkt) 1 (pktOf dispPkt) = .ok ⟨1, 0, 0, 0⟩
    ∧ launchGroups (sK 1 dispPkt) 1 1 0 = .ok [] := by unfold Served; decide +kernel
theorem wit_free_tag : ∃ tag, freeTag (sK 1 dispPkt) 1 = some tag := ⟨_, rfl⟩

/-- A packet that has completed, with a CSIG at 0x200 that holds 4. -/
def sPk : State := { usr id with pkts := [⟨9, q0, 0x200, true⟩], hbm := wrNat hbm0 0x200 8 4 }
theorem wit_completion : sPk.pkts.find? (·.id == 9) = some ⟨9, q0, 0x200, true⟩ ∧ pktComplete sPk ⟨9, q0, 0x200, true⟩ = true ∧ pktQuiet sPk ⟨9, q0, 0x200, true⟩ = true
    ∧ sigLoc sPk 1 0x200 true = some ⟨.hbm, 0x200⟩ ∧ rdN sPk ⟨.hbm, 0x200⟩ 8 = 4 ∧ pktComplete { sPk with pkts := [⟨9, q0, 0, true⟩] } ⟨9, q0, 0, true⟩ = true := by
  decide +kernel
theorem wit_kick_other : qWidx (sK 2 []) 0x30000 = 2 ∧ qRidx (sK 0 []) 0x30000 + 2 ^ qLog (sK 0 []) 0x30000 < 100
    ∧ qEn { sK 0 [] with hbm := wrNat (sK 0 []).hbm 0x30008 8 4 } 0x30000 = false
    ∧ (let s := { sK 0 [] with queues := [] }; qEn s 0x30000 = true ∧ (getQ s 1 0).enabled = false ∧ descBad s 0x30000 = false)
    ∧ qHalt { sK 0 [] with hbm := wrNat (sK 0 []).hbm 0x30008 8 0x304 } 0x30000 = true := by decide +kernel

/-- R243: a kick raises WIDX and makes the queue active. -/
theorem test_kick : let s := stAfter (exec (.kickWrite 1 0 8 1) (sK 0 [])); qWidx s 0x30000 = 1 ∧ (getQ s 1 0).active = true := by decide +kernel

/-- R249: the sum, and RIDX. -/
theorem test_signal_packet : let s := stAfter (exec (.signalPacket q0) (sK 1 sigAdd)); hbmN s 0x200 8 = 3 ∧ qRidx s 0x30000 = 1 ∧ s.pkts.map (·.done) = [true] := by
  decide +kernel
theorem test_barriers : (stAfter (exec (.barrierAndPacket q0) (sK 1 (barrier 2)))).pkts.map (·.done) = [true]
    ∧ (stAfter (exec (.barrierOrPacket q0) (sK 1 (barrier 3)))).pkts.map (·.done) = [true] := by decide +kernel
theorem test_graph : let s := stAfter (exec (.graphPacket q0) sGr); s.graphs.map (·.2.nodes) = [[pktOf sigAdd]] ∧ nodesUsed s = 1 := by decide +kernel
theorem test_completion : let s := stAfter (exec (.packetCompletion 9) sPk); s.pkts = [] ∧ hbmN s 0x200 8 = 3 := by decide +kernel

/-- A population of two members. -/
def pop5 : Pop := ⟨1, 5, q0, 9, 2, 1, pc0, 77, [4, 5, 6], 1, 1, 0x800, 64, [], 0, 6144, 0, false⟩

/-- Its members wait for a place. -/
def sPop (f : Spoke → Spoke) : State := { usr f with pops := [(popKey 1 5, pop5)] }
theorem wit_placement : getPop (sPop id) 1 5 = some pop5 ∧ dealCore (sPop id) pop5 = some 0 ∧ dealCore (sPop id) { pop5 with lastCore := 0 } = some 1
    ∧ resident (sPop id) 1 < maxRes (sPop id) 1 ∧ heldOn (sPop id) 0 1 (fun x => x.ltag == 5) < 1
    ∧ freeCtx (sPop id) 0 1 = some 2 ∧ 1 ≤ heldOn (sPop fun p => { p with ltag := 5 }) 0 1 (fun x => x.ltag == 5) := by decide +kernel

/-- R256: the second member of the population, in context 2. -/
theorem test_placement : (spOf 2 (exec (.memberPlacement 1 5) (sPop id))).map (fun p => (p.ctx, p.pc, p.rdG 1, p.rdG 2, p.rdG 3))
    = some (.live, pc0, 0, 2, 77) := by decide +kernel

/-- Two VFs on half tile 0, VF 1 on it since time 0; no save area is within the segment. -/
def sSl (t : Nat) : State :=
  let f := { fn1 with ctlNew := { fn1.ctlNew with saveoff := 0x200000000 }, ctlAct := { fn1.ctlAct with saveoff := 0x200000000 } }
  { dev 1 sp0 { sp0 with ctx := .stopped } with fns := [(0, fn0), (1, f), (2, f)], refTimer := t }

/-- VF 1 is to give the half tile up. -/
def sVac : State := { sSl 200000 with fns := [(0, fn0), (1, { fn1 with ctlNew := { fn1.ctlNew with halves := 0 } }), (2, fn1)] }
theorem wit_slice : sliceOk (sSl 200000) 0 1 = true ∧ sliceOk (sSl 200000) 0 2 = true ∧ (getHalf (sSl 0) 0).vf = 1 ∧ mayEnter (sSl 200000) 0 1 2 = true
    ∧ halfIdle (stopHalf (setHalf (sSl 200000) 0 { getHalf (sSl 200000) 0 with next := some 2 }) 0 1) 1 0 = true
    ∧ (sSl 1000).refTimer - (getHalf (sSl 1000) 0).since < 115200 ∧ (getHalf (sSl 1000) 0).since / 1800000 = (sSl 1000).refTimer / 1800000
    ∧ (let s := { sSl 1801000 with refWas := 1800500, halves := [(0, ⟨1, defaultTrowel, none, 1799000, [], false⟩)] }
      s.refTimer - (getHalf s 0).since < 115200 ∧ s.refWas / 1800000 = s.refTimer / 1800000)
    ∧ bitN (getFn sVac 1).ctlNew.halves 0 = false := by decide +kernel

/-- VF 3 has a share of 128 of 256 and work that is due as the window nears its end. -/
def sDue : State := { sSl 1700000 with halves := [(0, ⟨1, defaultTrowel, none, 0, [(3, 900000)], false⟩)] }
theorem wit_slice_due : 0 < (((dueNow sDue 0).filter fun p => p.1 != 2).map (·.2)).sum
    ∧ 1800000 - sDue.refTimer % 1800000 < (((dueNow sDue 0).filter fun p => p.1 != 2).map (·.2)).sum + mget 0 (dueNow sDue 0) 2 ∧ sliceMust sDue 0 = none := by decide +kernel

/-- VF 2 has to come in now: 50,000 counts are due to it and 100,000 are left. -/
def sMust : State := { sSl 1700000 with halves := [(0, ⟨1, defaultTrowel, none, 0, [(2, 50000)], false⟩)] }
theorem wit_slice_must : sliceMust sMust 0 = some 2 ∧ sliceOver sMust 0 = true ∧ mayEnter sMust 0 1 2 = true ∧ (2, 50000) ∈ dueNow sMust 0
    ∧ 1800000 - sMust.refTimer % 1800000 ≤ 50000 + 115200 := by decide +kernel

/-- R255, R273: the slice passes to VF 2, or is renewed; before its shortest length nothing changes; R279: a half tile that leaves HALVES is vacated. -/
theorem test_slice : getHalf (stAfter (exec (.sliceEnd 0 2) (sSl 200000))) 0 = ⟨2, defaultTrowel, none, 200000, [], false⟩
    ∧ getHalf (stAfter (exec (.sliceEnd 0 1) (sSl 200000))) 0 = ⟨1, defaultTrowel, none, 200000, [], false⟩
    ∧ getHalf (stAfter (exec (.sliceEnd 0 2) (sSl 1000))) 0 = ⟨1, defaultTrowel, none, 0, [], false⟩
    ∧ (getHalf (stAfter (exec (.sliceEnd 0 1) sVac)) 0).next = some 0 := by decide +kernel

/-! Rings, tokens, registers. -/

/-- A terminal ring of VF 1 and the device ring, both in host memory, 16 places. -/
def ring0 : Ring := { Ring.reset with base := 0x5000, ctl := BitVec.ofNat 64 (4 + 3 * 2 ^ 16 + 2 ^ 40), held := [(termRec 9 8 7 1 0 0, none)] }

/-- The device with a record to write. -/
def sRg : State := { usr id with fns := [(0, fn0), (1, { fn1 with tring := ring0 })] }
def sRd : State := { usr id with fns := [(0, { fn0 with dring := ring0 }), (1, fn1)] }
theorem wit_ring : ((getFn sRg 1).ring .terminal).room = true ∧ ((getFn sRg 1).ring .terminal).slotLoc sRg 1 = some ⟨.host, 0x5000⟩ ∧ ringTurnOk sRg 3 = true
    ∧ ((getFn sRd 0).ring .device).room = true ∧ ((getFn sRd 0).ring .device).slotLoc sRd 0 = some ⟨.host, 0x5000⟩ := by decide +kernel

/-- R262, R268: the record's words and one message with the ring's vector. -/
theorem test_ring : let s := stAfter (exec (.ringRecordWrite 1 .terminal) sRg)
    rdN s ⟨.host, 0x5000⟩ 32 = 8 * 2 ^ 64 + 7 * 2 ^ 128 + (9 + 2 ^ 8) * 2 ^ 192 ∧ s.msix = [⟨1, 3⟩] ∧ (getFn s 1).tring.pidx = 1 := by decide +kernel

/-- Spoke 1 waits in slot 0 of core 0 for an answer of the host. -/
def sPr : State :=
  let s := usr fun p => { p with park := .fault 0 }
  { s with cores := s.cores.map fun c => (c.1, { c.2 with waiters := [(0, ⟨0, some ⟨1, 0, 0, 1, [.spoke 0 1 1], [], true, false, termRec 1 0x800000000 pc0 1 1 0⟩⟩)] }) }
theorem wit_page_request : (getSlot State.reset (tokCore 0) (tokSlot 0)).w = none
    ∧ (getSlot sPr 0 0).w = some ⟨1, 0, 0, 1, [.spoke 0 1 1], [], true, false, termRec 1 0x800000000 pc0 1 1 0⟩ ∧ (getSlot sPr 0 0).gen = tokGen 0
    ∧ (getSp sPr 0 1 1).park = .fault 0 := by decide +kernel
theorem test_page_request : (spOf 1 (exec (.pageRequestResponse 0 .success) sPr)).map (fun p => (p.park, p.owed)) = some (.none, [])
    ∧ (spOf 1 (exec (.pageRequestResponse 0 .invalid) sPr)).map (fun p => p.owed.map (·.code)) = some [.hostDenied] := by decide +kernel
theorem wit_tokens : tokBad (2 ^ 54) = true ∧ tokBad 5 = false := by decide
theorem test_wake_register : (stAfter (exec (.wakeRegisterWrite 1 5) (usr id))).mesh.map (fun m => (m.core, m.wake, m.vf)) = [(5, true, 1)]
    ∧ (getFn (stAfter (exec (.wakeRegisterWrite 1 (2 ^ 54)) (usr id))) 1).regerr = 1 := by decide +kernel
theorem test_invgo : (stAfter (exec (.invgoWrite 1 0x7000) (usr id))).invals.map (fun i => (i.vf, i.lo, i.len)) = [(1, 0, 0)] := by decide +kernel
theorem test_cidx : (stAfter (exec (.ringCidxWrite 1 .terminal 5) sRg)).msix = [⟨1, 3⟩] ∧ (stAfter (exec (.ringCidxWrite 1 .terminal 0) sRg)).msix = [] := by decide +kernel

/-! The host and the links. -/

theorem wit_host : ((1 : Word) <<< 40) &&& ~~~(0x800000000000003F : Word) ≠ 0 ∧ (0x8000000000000001 : Word) &&& ~~~(0x800000000000003F : Word) = 0
    ∧ (getFn State.reset 1).quiesced = true ∧ ctlBad (usr id) 1 ((getFn (usr id) 1).ctlNew.put 1 0x2000000) = false
    ∧ isResident (usr id) 1 = true ∧ isResident State.reset 1 = false ∧ ctlBad State.reset 1 ((getFn State.reset 1).ctlNew.put 1 0x2000000) = false
    ∧ ((getFn State.reset 1).ctlNew.put 1 0x2000000).halves = 0 := by decide +kernel
theorem wit_agents : agentLoc { usr id with ctrl := { Ctrl.reset with port := 1 } } (.host 0x100) 64 = some ⟨.hbm, 0x100⟩ ∧ agentLoc (usr id) (.host 0x100) 64 = none
    ∧ agentLoc { usr id with binds := [(1024 + 7, 1)] } (.peer 1 7 0x100) 64 = some ⟨.hbm, 0x100⟩ ∧ agentLoc (usr id) (.peer 1 7 0x100) 64 = none
    ∧ 5 ∈ ({ usr id with cxl := [5] } : State).cxl := by decide +kernel
theorem wit_links : (getLink State.reset 3).up = true ∧ (getLink State.reset 3).fails < 8 ∧ 8 ≤ (getLink { State.reset with links := [(3, ⟨true, 0, 8⟩)] } 3).fails := by
  decide +kernel
theorem wit_bucket : 0 < fieldN (getFn (usr id) 1).ctlAct.sched 40 9 := by decide +kernel

/-- R286: GO of the PF and of a VF. R277: PTROOT is 16 KiB aligned. -/
theorem test_featdrv : (getFn (stAfter (exec (.featdrvWrite 0 0x8000000000000001) State.reset)) 0).quiesced = false
    ∧ (getFn (stAfter (exec (.featdrvWrite 1 0x8000000000000001) State.reset)) 1).quiesced = true := by decide +kernel
theorem test_register : (getFn (stAfter (exec (.registerWrite 1 0 0x18 8 0x8000) (usr id))) 1).ptroot = 0x8000
    ∧ (getFn (stAfter (exec (.registerWrite 1 0 0x18 8 0x8001) (usr id))) 1).regerr = 1 := by decide +kernel
theorem test_agent : let s := stAfter (exec (.hostMemoryAccess (.host 0x100) (.fetchAdd 8 5)) { usr id with hbm := wrNat hbm0 0x100 8 7, ctrl := { Ctrl.reset with port := 1 } }); hbmN s 0x100 8 = 12 := by decide +kernel
theorem test_snoop : (stAfter (exec (.cxlCacheSnoop 5 false) { usr id with cxl := [5, 9] })).cxl = [9]
    ∧ (stAfter (exec (.atsInvalidationRequest 1 0 4096) { usr id with ats := [(2 ^ 52, 0), (2 ^ 52 + 1, 0)] })).ats = [(2 ^ 52 + 1, 0)] := by decide +kernel
theorem test_flit : mget 0 (stAfter (exec (.flitCrcFailure 3) State.reset)).ctrl.live (4 * 2 ^ 32 + 3 * 2 ^ 16) = 1 := by
  show mget 0 (stAfter (execFlitCrcFailure 3 State.reset)).ctrl.live _ = 1
  unfold execFlitCrcFailure
  generalize Config.oneOf _ = b
  cases b <;> decide +kernel

/-- A load from the memory of peer device 7 on its way. -/
def reqPeer : Req := ⟨0, .load 3 false, 8, [⟨0, ⟨.peer, 7 * 2 ^ 40⟩, 0, false⟩], [], true, false, [], pc0, pc0 + 1, 0⟩
theorem wit_peer_reset : let s := { usr id with binds := [(1031, 1)] }
    mhas s.binds (1 * 1024 + 7) = true ∧ (∀ x ∈ reqPeer.accs, x.loc.sp = .peer ∧ x.loc.a / 2 ^ 40 = 7) ∧ reqPeer.id < s.nextId ∧ reqCut s 1 reqPeer = false := by decide +kernel

/-- R285: an access that was under way ends with SEGMENT, be the pair bound again; one that comes later does not. -/
theorem test_peer_ended : let s := stAfter (exec (.peerResetNotice 7) { usr id with binds := [(1031, 1)] })
    reqCut { s with binds := [(1031, 1)] } 1 reqPeer = true ∧ reqCut { s with binds := [(1031, 1)] } 1 { reqPeer with id := s.nextId } = false := by decide +kernel
theorem test_peer_reset : (stAfter (exec (.peerResetNotice 7) { State.reset with binds := [(1031, 1), (1032, 1)] })).binds = [(1032, 1)] := by decide +kernel
theorem test_bucket : mget 0 (getCore (stAfter (exec (.bucketRefill 0 []) (usr id))) 0).buckets 1 = 4096 := by decide +kernel

/-! The controller. -/

/-- The controller is at work on a command. -/
def sMb (code chunk : Nat) (arg : List Byte) : State :=
  { usr id with ctrl := { Ctrl.reset with busy := true, mcmd := BitVec.ofNat 64 (code + arg.length * 2 ^ 16 + chunk * 2 ^ 24), mdata := arg ++ List.replicate (224 - arg.length) 0 } }
theorem wit_mailbox : MbRuns (sMb 1 0 [2]) 1 1 0 ∧ MbRuns (sMb 2 1 (List.replicate 192 0)) 2 192 1 ∧ MbRuns (sMb 3 0 [1, 0, 7, 0, 2, 0]) 3 6 0 ∧ MbRuns (sMb 3 0 [1, 0, 7, 0, 2, 1]) 3 6 0
    ∧ MbRuns (sMb 4 0 (List.replicate 32 1)) 4 32 0 ∧ MbRuns (sMb 5 0 [5, 0, 0, 0]) 5 4 0 ∧ MbRuns (sMb 6 0 (List.replicate 16 0)) 6 16 0 ∧ MbRuns (sMb 7 0 []) 7 0 0
    ∧ counterIdxOk 5 0 = true := by unfold MbRuns; decide +kernel

/-- The last chunk of a service mask. -/
def sMask : State :=
  let s := sMb 2 3 (List.replicate 192 0)
  { s with ctrl := { s.ctrl with svcBuf := [(0, 1 :: List.replicate 191 0), (1, List.replicate 192 0), (2, List.replicate 192 0)] } }
theorem wit_mask : MbRuns sMask 2 192 3 ∧ (mset sMask.ctrl.svcBuf 3 (mbArg sMask)).length = 4 := by unfold MbRuns; decide +kernel
theorem test_portset : (stAfter (exec .portset (sMb 1 0 [2]))).ctrl.portNext = 2 ∧ (stAfter (exec .portset (sMb 1 0 [4]))).ctrl.reply = some (2, [], 0) := by decide +kernel
theorem test_svcmask : (stAfter (exec .svcmask (sMb 2 1 (List.replicate 192 0)))).ctrl.reply = some (0, [], 0) := by decide +kernel
theorem test_counters : (stAfter (exec .counters (sMb 5 0 [5, 0, 0, 0]))).ctrl.reply.isSome = true ∧ (stAfter (exec .counters (sMb 5 0 [6, 0, 0, 0]))).ctrl.reply = some (2, [], 0) := by
  decide +kernel

/-- The reply of a command is ready. -/
def sRep : State := { sMb 1 0 [2] with ctrl := { (sMb 1 0 [2]).ctrl with reply := some (3, [], 0) } }
theorem wit_reply : sRep.ctrl.busy = true ∧ sRep.ctrl.reply = some (3, [], 0) := by decide +kernel
theorem test_reply : let s := stAfter (exec .mailboxReply sRep); s.ctrl.busy = false ∧ fieldN s.ctrl.mstat 8 8 = 3 ∧ s.msix.length = 1 := by decide +kernel
theorem test_lifetime : mget 0 (stAfter (exec (.lifetimeCounterUpdate [(1, 2)] []) { State.reset with ctrl := { Ctrl.reset with live := [(65538, 5)] } })).ctrl.nv 65538 = 605 := by
  decide +kernel
theorem test_power : (stAfter (exec .orderlyPowerDown (usr id))).power = false ∧ (stAfter (exec .powerOn { usr id with power := false })).hbm = [] := by decide +kernel
theorem test_clock : (stAfter (exec (.clockThrottle 900) State.reset)).clk = 900 ∧ (stAfter (exec (.clockRestore 1200) { State.reset with clk := 900 })).clk = 1200 := by decide +kernel
theorem wit_d3hot : (∀ f < 64, (getFn State.reset f).quiesced = true) ∧ (getFn (usr id) 1).quiesced = false := by decide +kernel
theorem test_d3hot : (stAfter (exec .d3hotRequest State.reset)).d3hot = true ∧ (stAfter (exec .d3hotRequest (usr id))).d3hot = false := by decide +kernel
theorem test_flr : (getFn (stAfter (exec (.functionLevelReset 1) (sK 1 sigAdd))) 1).quiesced = true ∧ (stAfter (exec (.functionLevelReset 1) (sK 1 sigAdd))).queues = [] := by
  decide +kernel
theorem test_resets : (stAfter (exec (.warmRestart true) (usr id))).hbm = [] ∧ (stAfter (exec .deviceReset (usr id))).cores = [] := by decide +kernel

/-! Steps. -/

/-- The device with a NOP at the PC of spoke 1, core 0 next. -/
def sStep : State := { dev 0 Spoke.reset sp0 with agenda := [.issue 0] }
theorem wit_step : let s0 := heldOut { sStep with tick := sStep.tick + 1, agenda := [], lastCore := 0 } 0
    let p := getSp (chosen s0 0 1 1) 0 1 1
    vfOf s0 0 = 1 ∧ sliceForced s0 0 = none ∧ pick s0 0 1 = some (1, 1) ∧ startsPair p = false ∧ p.ctx = .live ∧ blocked p = false ∧ p.owed = [] ∧ p.want = none
      ∧ decodeWord (lineSlot p.line.line (slotOf p.pc)) = .ok .nop := by decide +kernel

/-- The same with a pair at the PC. -/
def sPair : State := { dev 0 Spoke.reset { sp0 with line := { sp0.line with line := line0 ||| 0x400 } } with agenda := [.issue 0] }
theorem wit_pair : let s0 := heldOut { sPair with tick := sPair.tick + 1, agenda := [], lastCore := 0 } 0
    let u := chosen s0 0 1 1
    let p := getSp u 0 1 1
    let s1 := withCur u 0 1 1 p.pc (nextPc (nextPc p.pc)) true true false
    sliceForced s0 0 = none ∧ pick s0 0 1 = some (1, 1) ∧ startsPair p = true ∧ failsWord s1 .nop = false
      ∧ (match precheck s1 [.nop, .nop] with | .ok _ => true | _ => false) = true := by decide +kernel
theorem test_step : (spOf 1 (step sStep)).map (·.pc) = some (pc0 + 1) := by decide +kernel
theorem test_pair : (spOf 1 (step sPair)).map (·.pc) = some (pc0 + 2) := by decide +kernel
theorem wit_mems : memsOk sStep = true ∧ (match step sStep with | .next t => memsOk t | _ => false) = true := by decide +kernel

/-! Words that the spec writes out, of every family (their places are in the entries of the instruction reference). -/

/-- The words of a list decode to their instructions, which are well formed and encode to the same words. -/
def decodes (l : List (BitVec 96 × Instr)) : Bool := l.all fun p => decodeWord p.1 == .ok p.2 && p.2.wf && encode p.2 == some p.1
theorem test_decode_scalar : decodes [(0x004028620000000000000000, .addRrr (.loc 5) (r 3) (r 4)), (0x00414A801800000000000000, .addRrr (.remote 9 (r 12)) (r 20) (r 0)),
    (0x020051548000000000000000, .orRrr (.loc 10) (r 10) ⟨9, true⟩), (0x064858000001000000003FC0, .lea (.loc 11) none 0x3FC0),
    (0x018871800000000000000060, .remRri (.loc 14) (r 12) 96 false), (0x02C8CB20000000000000003D, .shlRri (.loc 25) (r 25) 61),
    (0x014028C38000000000000000, .divRrr (.loc 5) (r 6) (r 7) false), (0x05C828000000000000001234, .li (.loc 5) 0x1234), (0x058028C00000000000000000, .mov (.loc 5) (r 6)),
    (0x00C028C38000000000000000, .mulRrr (.loc 5) (r 6) (r 7)), (0x008899800000000000000100, .subRri (.loc 19) (r 12) 256)] = true := by decide +kernel
theorem test_decode_control : decodes [(0x201800000000FFFFFFFFFFF8, .br ⟨0x1FFFFFFFFFFF, 0⟩), (0x205801400001000000000013, .bc (r 10) true ⟨2, 3⟩),
    (0x20D8F8000000000000000008, .call 31 ⟨1, 0⟩), (0x210003E00000000000000000, .ret (r 31)), (0x215801800000FFFFFFFFFFF8, .loop 12 ⟨0x1FFFFFFFFFFF, 0⟩),
    (0x2180FA600000000000000000, .dcallReg 31 (r 19)), (0x2198F8000000000000000010, .dcallLabel 31 ⟨2, 0⟩), (0x21C000000000000000000000, .dret),
    (0x220000000000000000000000, .spend)] = true := by decide +kernel
theorem test_decode_memory : decodes [(0x401440C00002000000000004, .ld true 8 (r 6) .w false 4), (0x401038C00003000000000010, .ld false 7 (r 6) .d false 0x10),
    (0x401029C00013000000000000, .ldS 5 (r 14) 0), (0x405001258003000000000000, .st false (r 9) (r 11) .d 0), (0x405001C0800B000000000000, .stF (r 14) (r 1) 0),
    (0x409001C00003000000000000, .empty (r 14) 0), (0x40F000000004000000000000, .fence .sy), (0x413000000000000000000003, .pgrp 3), (0x417000000000000000000000, .publ),
    (0x418001E80000000000000000, .roinv (r 15) (r 16)), (0x4210A22A8003000000000000, .aadd false 20 (r 17) (r 21) .d 0),
    (0x43D028C39002000000000008, .acas false 5 (r 6) (r 7) (r 8) .w 8)] = true := by decide +kernel
theorem test_decode_sync : decodes [(0x600000A00000000000000000, .wake (r 5)), (0x604028030000000000000000, .ibpop 5 6), (0x608000A30000000000000000, .ibreplay (r 5) (r 6)),
    (0x620001868000000000000000, .spstart (r 12) (r 13) (r 0)), (0x630071800000000000000000, .spreap 14 (r 12)), (0x640800000000000000000003, .gbar 3),
    (0x644800000000000000000003, .garrive 3), (0x660000620000000000000000, .semsig (r 3) (r 4)), (0x664028C38001000000000000, .semwait .le 5 (r 6) (r 7)),
    (0x668000620000000000000000, .tlsig (r 3) (r 4)), (0x66C028C38000000000000000, .tlwait 5 (r 6) (r 7)), (0x670029200000000000000000, .ptest 5 false 9),
    (0x670028200001000000000000, .ptest 5 true 1), (0x680841250000000000000001, .lend 8 (r 9) (r 10) 1), (0x684001000000000000000000, .unlend (r 8)),
    (0x688028C00000000000000000, .domq 5 (r 6))] = true := by decide +kernel
theorem test_decode_engines : decodes [(0x802841458003 * 2 ^ 48 + 0xC1000, .mldw .e4m3 false false false 8 .q0 (r 10) (r 11) 256 48),
    (0x80289B260010000000181000, .mldw .fp4 true false false 19 .q0 (r 25) (r 12) 256 96), (0x806849459830000000000000, .mmul .fp4 true true false 9 .q0 (r 10) (r 11) (r 12)),
    (0x80A8538D9C06000000005000, .mdrain .bf16 .rne false 10 .q0 (r 28) (r 27) (r 14) 256 1), (0x80E843878000000000001000, .mzero 8 .q0 (r 28) (r 15) 256),
    (0x812829459803 * 2 ^ 48 + 0xC1000, .spcmp .e4m3 false 5 (r 10) (r 11) (r 12) 256 48), (0x8228896CAA00000000000000, .lyt 17 (r 11) (r 25) 21),
    (0x8268B2800000000000000000, .lytq 22 20), (0x840002000006000000000000, .cpsetReg 6 (r 16)), (0x840800000002000000001000, .cpsetImm 2 4096),
    (0x8468A0000000000000000000, .cpgo 20), (0x84A8A8018000000000000000, .cpgath 21 (w 3)), (0x85282A800000000000000000, .cpcancel 5 (r 20)),
    (0x860028C00000000000000000, .waitany 5 (r 6)), (0x864002600000000000000000, .waitall (r 19)), (0x8680A2600000000000000000, .tagff 20 (r 19)),
    (0x86C000A00000000000000000, .tagclr (r 5)), (0x882849600001000000000000, .coll .ag 9 (r 11)), (0x884069800000000000000000, .lease 13 (r 12)),
    (0x888001A00000000000000000, .unlease (r 13)), (0x8A0000620000000000000000, .trload (r 3) (r 4)), (0x8A4000000000000000000000, .trseal)] = true := by decide +kernel
theorem test_decode_vectors : decodes [(0xA02008418000000000000000, .vadd .rne false 0 1 (w 2) (w 3)), (0xA0E00841880C000000000000, .vfma .rne true 1 1 (w 2) (w 3) (w 4)),
    (0xA82028200000000000000000, .vredadd 0 5 (w 1)), (0xAC20128A8000000000000000, .vrng 0 0 2 (r 20) (r 21)), (0xC02020C00000000000000000, .vld false 0 4 (r 6) 0),
    (0xC02420C00000000000000000, .vld true 0 4 (r 6) 0), (0xC06000C20000000000000040, .vst false 0 (r 6) (w 4) 0x40), (0xC0A008C10000000000000000, .vgath false 0 1 (r 6) (w 2) 0),
    (0xC42018200000000000000086, .vcvt .bf16 .f32 .rne false 0 3 (w 1)), (0xC46028200000000000000000, .vqnt .fp4 0 5 (w 1)), (0xC62008418000000000000000, .kand 1 2 3),
    (0xC6E028400000000000000000, .kpop 5 2)] = true := by decide +kernel
theorem test_decode_system : decodes [(0xE03000000000000000000000, .nop), (0xE07000000000000000000003, .trap 3), (0xE0B000000000000000000000, .tret),
    (0xE0F0D0000000000000000008, .rds 26 8), (0xE13000A00000000000000009, .wrs (r 5) 9), (0xE17000A30000000000000000, .tinv (r 5) (r 6)),
    (0xE1B000000000000000000000, .bkpt), (0xFFF000000000000000000000, .ill)] = true := by decide +kernel

/-- R359: ILL with other fields; R73: FMT 7, an opcode that is not assigned; R71: a reserved bit of ADD. -/
theorem wit_refused : decodeWord 0xFFFFFFFFFFFFFFFFFFFFFFFF = .ok .ill ∧ fieldN (0x007828620000000000000000 : BitVec 96) 83 3 = 7
    ∧ permits (fieldN (0x007828620000000000000000 : BitVec 96) 86 10) 7 = false ∧ permits (fieldN (0xE2F000000000000000000000 : BitVec 96) 86 10) 6 = false
    ∧ permits 0x28E 4 = true ∧ permits 0x28E 0 = false := by decide +kernel
theorem test_refused : decodeWord 0x007828620000000000000000 = .bad .illegalOp ∧ decodeWord 0xE2F000000000000000000000 = .bad .illegalOp
    ∧ decodeWord 0x004028620001000000000000 = .bad .illegalField := by decide +kernel

/-! WellFormed: an ill-formed term for each check, and the nearest well-formed one. -/

theorem test_wf_fields : [Instr.bfx (.loc 1) (r 1) 60 5, .bfx (.loc 1) (r 1) 0 0, .bfi (.loc 1) (r 1) (r 2) 1 64, .sext (.loc 1) (r 1) 65, .sext (.loc 1) (r 1) 0].all (!·.wf) = true
    ∧ [Instr.bfx (.loc 1) (r 1) 60 4, .bfi (.loc 1) (r 1) (r 2) 0 64, .sext (.loc 1) (r 1) 64].all (·.wf) = true := by decide
theorem test_wf_branches : [Instr.br ⟨0, 5⟩, .bc (r 1) true ⟨0, 5⟩, .call 1 ⟨0, 6⟩, .loop 1 ⟨0, 7⟩, .dcallLabel 1 ⟨0, 5⟩].all (!·.wf) = true
    ∧ Instr.wf (.br ⟨0, 4⟩) = true := by decide
theorem test_wf_sync : [Instr.ld false 1 (r 1) .d true 0, .pgrp 0, .pgrp 9, .ibpop 0 1, .ibpop 1 0, .ibpop 1 1, .ptest 1 true 8, .cancel 1 0, .cancel 1 1,
    .lend 1 (r 1) (r 2) 0, .lend 1 (r 1) (r 2) 3].all (!·.wf) = true ∧ [Instr.ld false 1 (r 1) .w true 0, .pgrp 8, .ibpop 1 2, .ptest 1 true 7].all (·.wf) = true := by decide
theorem test_wf_engines : [Instr.mldw .f32 false false false 1 .q0 (r 1) (r 2) 16 16, .mldw .i8 true false false 1 .q0 (r 1) (r 2) 16 16,
    .mldw .e4m3 false true true 1 .q0 (r 1) (r 2) 16 16, .mldw .bf16 false true false 1 .q0 (r 1) (r 2) 16 16, .mldw .e4m3 false false false 1 .q0 (r 1) (r 2) 272 16,
    .mldw .e4m3 false false false 1 .q0 (r 1) (r 2) 16 8, .mldw .e4m3 false false false 1 .q0 (r 1) (r 2) 16 64, .mmul .i32 false false false 1 .q0 (r 1) (r 2) (r 3),
    .mmul .bf16 true false false 1 .q0 (r 1) (r 2) (r 3), .mdrain .u8 .rne false 1 .q0 (r 1) (r 2) (r 3) 16 0, .mdrain .bf16 .rne false 1 .q0 (r 1) (r 2) (r 3) 8 0,
    .mzero 1 .q0 (r 1) (r 2) 0, .spcmp .bf16 false 1 (r 1) (r 2) (r 3) 16 16, .spcmp .i8 true 1 (r 1) (r 2) (r 3) 16 16, .lyt 1 (r 1) (r 2) 31, .lytq 1 31, .cpgo 0,
    .cpgath 0 (w 1), .cpscat 0 (w 1)].all (!·.wf) = true ∧ [Instr.mldw .e4m3 false true false 1 .all (r 1) (r 2) 512 192, .lytq 1 30, .cpgo 1].all (·.wf) = true := by decide
theorem test_wf_vectors : [Instr.vcvt .u8 .u8 .rne false 0 1 (w 1), .vqnt .bf16 0 1 (w 1)].all (!·.wf) = true
    ∧ [Instr.vcvt .u8 .f32 .rne false 0 1 (w 1), .vqnt .e5m2 0 1 (w 1)].all (·.wf) = true := by decide
theorem test_wf_trload : Instr.wf (.trload ⟨1, true⟩ (r 2)) = false ∧ Instr.wf (.trload (r 1) ⟨2, true⟩) = false ∧ Instr.wf (.trload (r 1) (r 2)) = true := by decide

/-! SHAKE256 (R3; FIPS 202 gives 46B9DD2B…C4BE for the empty message). -/

theorem test_shake : (shake256 []).toNat % 2 ^ 32 = 0x2BDDB946 ∧ (shake256 []).toNat / 2 ^ 496 = 0xBEC4 := by decide +kernel

/-! What engines compute: a device with bytes 1 to 8 at 0x4000, sixteen 2 at 0x3000, and in the latch of quadrant 0 a column of 16 weights, each 3. -/

/-- Weights of 16 rows and one column in INT8. -/
def desc16 : LDesc := ⟨.i8, false, false, .q0, 16, 1⟩

/-- The first row of AB of tile 0. -/
def ab0 : Word := 0x8000001000020000

/-- The device. -/
def sEng : State := { sP with hbm := wrBytes (wrBytes hbm0 0x3000 (List.replicate 16 2)) 0x4000 [1, 2, 3, 4, 5, 6, 7, 8], latches := [(0, ⟨desc16, List.replicate 16 [3], []⟩)] }

/-- An MMUL of one row over HBM, an MDRAIN, an MLDW of 4 by 2 and an SPCMP of 4 by 2. -/
def cMmul (mods : Nat) : Cmd := { cmd4 with op := .mmul, wdesc := some desc16, mods := mods, imm := 0, a := 0x3000, b := ab0, c := 1 }
def cDrain : Cmd := { cmd4 with op := .mdrain, mods := 5, imm := 0x10, a := ab0, b := 0x5000, c := 1 }
def cLoad (mods : Nat) (a : Word) : Cmd := { cmd4 with op := .mldw, mods := mods, imm := 2 * 16 + 4 * 2 ^ 14, a := a, b := 2 }
def cComp : Cmd := { cmd4 with op := .spcmp, mods := 3, imm := 2 * 16 + 4 * 2 ^ 14, a := 0x4000, b := 0x5000, c := 2 + 2 * 2 ^ 20 }

/-- The four bytes of that row of AB. -/
def abLocs : List Loc := (List.range 4).map fun i => ⟨.tb, 1572864 + i⟩
theorem wit_mmul : (cMmul 5).op = .mmul ∧ weights sEng (cMmul 5) desc16 = some (List.replicate 16 [3], [])
    ∧ engRead sEng (cMmul 5) ((cMmul 5).opnd sEng 0) 0x3000 (actLen (cMmul 5).fmt 16 (cMmul 5).sc) = .ok (List.replicate 16 2)
    ∧ (cMmul 5).mod5 = false ∧ (cMmul 37).mod5 = true ∧ engRead sEng (cMmul 5) { (cMmul 5).opnd sEng 1 with wr := false } ab0.toNat 4 = .ok [0, 0, 0, 0]
    ∧ Places sEng (cMmul 5) ((cMmul 5).opnd sEng 1) ab0.toNat 4 abLocs := by unfold Places; decide +kernel
theorem wit_mdrain : engRead sEng cDrain (cDrain.opnd sEng 0) ab0.toNat (4 * cDrain.n) = .ok [0, 0, 0, 0]
    ∧ Places sEng cDrain (cDrain.opnd sEng 1) 0x5000 (cDrain.n * cDrain.fmt.width / 8) [⟨.hbm, 0x5000⟩] := by unfold Places; decide +kernel
theorem wit_mzero : Places sP cmdM (cmdM.opnd sP 0) cmdM.a.toNat (4 * cmdM.n) abLocs := by unfold Places; decide +kernel

/-- R188: sixteen products of 2 and 3 make 96, in AB. -/
theorem test_mmul : (match runOne sEng (cMmul 5) with | .ok y => tbByte sEng y.2 1572864 == 96 && y.2.done == 1 | _ => false) = true
    ∧ (match runOne { sEng with tb := wrNat [] 1572864 4 (2 ^ 32 - 100) } (cMmul 5) with | .ok y => y.2.ovl.map (·.2) == [0xFC, 0xFF, 0xFF, 0xFF] | _ => false) = true
    ∧ (match runOne { sEng with tb := wrNat [] 1572864 4 (2 ^ 32 - 100) } (cMmul 37) with | .ok y => tbByte sEng y.2 1572864 == 96 | _ => false) = true := by decide +kernel

/-- R189: −100 in FP32 accumulators as INT32 bits is −100 in INT8. -/
theorem test_mdrain : (match runOne { sEng with tb := wrNat [] 1572864 4 (2 ^ 32 - 100) } cDrain with | .ok y => y.2.out == [(⟨.hbm, 0x5000⟩, 156)] | _ => false) = true := by
  decide +kernel

/-- The rows of the images at 0x4000: dense, transposed, sparse with the nibbles of 0x4004, and one whose nibbles are not ascending. -/
def row2 (i : Nat) : List Byte := [BitVec.ofNat 8 (2 * i + 1), BitVec.ofNat 8 (2 * i + 2)]
def row4 (i : Nat) : List Byte := (List.range 4).map fun j => BitVec.ofNat 8 (2 * i + 1 + j)
theorem wit_mldw : (cLoad 3 0x4000).mod6 = false ∧ (cLoad 3 0x4000).mod5 = false ∧ (cLoad 3 0x4000).sc = false
    ∧ (∀ i < (cLoad 3 0x4000).k, engRead sEng (cLoad 3 0x4000) ((cLoad 3 0x4000).opnd sEng 0) (0x4000 + i * 2) (rowBytes .e4m3 2) = .ok (row2 i)) := by decide +kernel
theorem wit_mldw_t : (cLoad 67 0x4000).mod6 = true
    ∧ (∀ i < (cLoad 67 0x4000).n, engRead sEng (cLoad 67 0x4000) ((cLoad 67 0x4000).opnd sEng 0) (0x4000 + i * 2) (rowBytes .e4m3 4) = .ok (row4 i)) := by decide +kernel

/-- The device with ascending nibbles behind two rows of a sparse image. -/
def sSp : State := { sEng with hbm := wr sEng.hbm 0x4004 0x94 }
theorem wit_mldw_sp : (cLoad 35 0x4000).mod5 = true ∧ (cLoad 35 0x4000).k % 4 = 0
    ∧ (∀ i < (cLoad 35 0x4000).k / 2, engRead sSp (cLoad 35 0x4000) ((cLoad 35 0x4000).opnd sSp 0) (0x4000 + i * 2) (rowBytes .e4m3 2) = .ok (row2 i))
    ∧ engRead sSp (cLoad 35 0x4000) ((cLoad 35 0x4000).opnd sSp 0) 0x4004 1 = .ok [0x94] ∧ (∀ n < 2, (elems 4 2 [0x94]).getD n 0 % 4 < (elems 4 2 [0x94]).getD n 0 / 4)
    ∧ engRead sEng (cLoad 35 0x4000) ((cLoad 35 0x4000).opnd sEng 0) 0x4004 1 = .ok [5] ∧ (elems 4 2 [5]).getD 0 0 / 4 ≤ (elems 4 2 [5]).getD 0 0 % 4 := by decide +kernel

/-- R183, R187: the dense and the transposed image; of the sparse one column 0 has its values in rows 0 and 1 and column 1 in rows 1 and 2 of the group; a bad nibble. -/
theorem test_mldw : (runOne sEng (cLoad 3 0x4000)).toOption.bind (·.2.lat.map (·.codes)) = some [[1, 2], [3, 4], [5, 6], [7, 8]]
    ∧ (runOne sEng (cLoad 67 0x4000)).toOption.bind (·.2.lat.map (·.codes)) = some [[1, 3], [2, 4], [3, 5], [4, 6]]
    ∧ (runOne sSp (cLoad 35 0x4000)).toOption.bind (·.2.lat.map (·.codes)) = some [[1, 0], [3, 2], [0, 4], [0, 0]]
    ∧ (match runOne sEng (cLoad 35 0x4000) with | .error e => e == badLatch | _ => false) = true := by decide +kernel
theorem wit_spcmp : cComp.k % 4 = 0 ∧ cComp.sc = false
    ∧ (∀ k < cComp.k, engRead sEng cComp (cComp.opnd sEng 0) (0x4000 + k * 2) (rowBytes .e4m3 2) = .ok (row2 k)) := by decide +kernel

/-- R191: of 1, 3, 5, 7 and 2, 4, 6, 8 the last two of each column are kept, with the nibbles 2 and 3. -/
theorem test_spcmp : (match runOne sEng cComp with | .ok y => y.2.done == 4 && (List.range 5).map (fun i => (y.2.out.find? (·.1.a == 0x5000 + i)).map (·.2))
    == [some 5, some 6, some 7, some 8, some 0xEE] | _ => false) = true := by decide +kernel
theorem wit_pack : 2 * 4 % 8 = 0 ∧ (∀ x ∈ [1, 15], x < 2 ^ 4) := by decide
theorem wit_write_all : (match engWriteAll sEng cComp (cComp.opnd sEng 1) [(0x5002, [9])] with | .ok _ => true | _ => false) = true
    ∧ Places sEng cComp (cComp.opnd sEng 1) 0x5000 2 [⟨.hbm, 0x5000⟩, ⟨.hbm, 0x5001⟩] := by unfold Places; decide +kernel

/-- The command of the test LYT. -/
def cLyt : Cmd := sZ.cmds.headD cmd4
theorem wit_lyt : cLyt.op = .lyt ∧ lReason cLyt.lw = none ∧ 1 < lEsz cLyt.lw ∧ lUnit cLyt.lw = 1 ∧ lWidth cLyt.lw = 8 ∧ lSource cLyt.lw 2 = 2
    ∧ engRead sZ cLyt (cLyt.opnd sZ 0) 0x1002 1 = .ok [0x33] ∧ Places sZ cLyt (cLyt.opnd sZ 1) 0x2002 1 [⟨.hbm, 0x2002⟩] := by unfold Places; decide +kernel
theorem wit_lyt_order : lRank cLyt.lw = 1 ∧ lPerm cLyt.lw 0 = 0 ∧ lRev cLyt.lw 0 = false ∧ 5 < lSize cLyt.lw 0 := by decide +kernel
theorem wit_copy_unit : cmd7.op.isCopy = true ∧ 0 < cmd7.clen ∧ engRead (sV cmd7) cmd7 (cmd7.opnd (sV cmd7) 0) 0x1001 1 = .ok [0xAB]
    ∧ Places (sV cmd7) cmd7 (cmd7.opnd (sV cmd7) 1) 0x2001 1 [⟨.hbm, 0x2001⟩] := by unfold Places; decide +kernel

/-- A collective of two ranks in INT32 with blocks of one element, on a lease of engine 2, its peer device 7. -/
def cCol (op : Nat) : Cmd :=
  { cmd4 with op := .coll, mods := op, idx := [0, 7], desc := [2 + 3 * 2 ^ 16, 0x3000, 2 + 9 * 2 ^ 42, 0x4000, 0x5000, 1, 0, 0] }

/-- The device with that collective at work, and with the peer's connection gone. -/
def sCol (op : Nat) : State := { sEng with cmds := [cCol op], engines := [(2, ⟨3, some (1, 500), false⟩)], binds := [(1031, 1)] }
def sCut : State := { sCol 2 with binds := [] }
theorem wit_coll : getCmd (sCol 2) 4 = some (cCol 2) ∧ collNext (sCol 2) (cCol 2) = true ∧ leaseCurrent (sCol 2) 1 (((cCol 2).desc.getD 0 0)) = true ∧ (cCol 2).done = 0
    ∧ (cCol 2).fail = none ∧ collNext (sCol 2) { cCol 2 with fail := some (.segment, 0x5000, 2) } = true ∧ collCut (sCol 2) (cCol 2) = false ∧ collCut sCut (cCol 2) = true ∧ leaseCurrent { sCol 2 with refTimer := 500 } 1 (((cCol 2).desc.getD 0 0)) = false
    ∧ engRead (sCol 2) (cCol 2) (collSrc (cCol 2)) (collSrc (cCol 2)).lo (collSrc (cCol 2)).len = .ok [1, 2, 3, 4, 5, 6, 7, 8]
    ∧ collSrcs (cCol 2) [1, 2, 3, 4, 5, 6, 7, 8] [(1, [1, 0, 0, 0, 2, 0, 0, 0])] = some [[1, 2, 3, 4, 5, 6, 7, 8], [1, 0, 0, 0, 2, 0, 0, 0]]
    ∧ (match engWrite (sCol 2) (cCol 2) (collDst (cCol 2)) (collDst (cCol 2)).lo
        (collResult (cCol 2) [[1, 2, 3, 4, 5, 6, 7, 8], [1, 0, 0, 0, 2, 0, 0, 0]]).1 with
      | .ok x => (outCut x.1 { x.2 with flags := 0, done := 1, st := .running }).isNone | _ => false) = true := by decide +kernel

/-- R239: an all-reduce adds both blocks, a reduce-scatter the rank's own, an all-gather joins them, a broadcast copies the root's. -/
theorem test_coll : (collResult (cCol 2) [[1, 2, 3, 4, 5, 6, 7, 8], [1, 0, 0, 0, 2, 0, 0, 0]]).1 = [2, 2, 3, 4, 7, 6, 7, 8]
    ∧ (collResult (cCol 0) [[1, 2, 3, 4, 5, 6, 7, 8], [1, 0, 0, 0, 2, 0, 0, 0]]).1 = [2, 2, 3, 4] ∧ (collResult (cCol 1) [[1, 2, 3, 4], [9, 9, 9, 9]]).1 = [1, 2, 3, 4, 9, 9, 9, 9]
    ∧ (collResult (cCol 3) [[1, 2, 3, 4], []]).1 = [1, 2, 3, 4] := by decide +kernel
theorem test_coll_complete : let s := stAfter (exec (.collComplete 4 .ok [(1, [1, 0, 0, 0, 2, 0, 0, 0])]) (sCol 2))
    hbmN s 0x5000 8 = 0x0807060704030202 ∧ (getSp s 0 1 1).g[7] = ⟨0, true, .no⟩ ∧ s.cmds = [] := by decide +kernel

/-- The formats of reductions: BF16 1 is less than 2, their sum 3; +Inf and −Inf give the NaN with INV; −0 and −0 give −0. -/
theorem test_red : redOp .bf16 0 0x3F80 0x4000 = (0x4040, 0) ∧ redOp .bf16 1 0x3F80 0x4000 = (0x4000, 0) ∧ redOp .bf16 2 0x3F80 0x4000 = (0x3F80, 0)
    ∧ redOp .bf16 0 0x7F80 0xFF80 = (0x7FC0, fInv) ∧ redOp .bf16 0 0x8000 0x8000 = (0x8000, 0) ∧ redOp .bf16 1 0 0x8000 = (0, 0) := by decide +kernel

/-! What goes before what. -/

/-- Spoke 1 waits for a plain load, and the second of the pair is to issue. -/
def sLate : State :=
  let s := usr fun p => { regs [(1, 5), (2, 7), (4, 0x10000)] p with outst := [⟨9, .load 8 false, 8, [⟨0, ⟨.hbm, 0x1000⟩, 0, false⟩], [], true, false, [], pc0, pc0 + 2, 0x1000⟩] }
  { s with cur := { s.cur with paired := true, checked := true } }

/-- R137: the remote write of a second of a pair waits for the first; it is sent when the spoke no longer waits. -/
theorem test_send_held : let s := stAfter (exec (.addRrr (.remote 3 (r 4)) (r 1) (r 2)) sLate)
    s.mesh = [] ∧ (getSp s 0 1 1).sends = [⟨0, 0, 1, 3, false, 0, 1, 1, 12, 0⟩] ∧ (heldOut s 0).mesh = [] := by decide +kernel
theorem test_send_released : (heldOut (usr fun p => { p with sends := [⟨0, 0, 1, 3, false, 0, 1, 1, 12, 0⟩] }) 0).mesh = [⟨1, 0, 1, 3, false, 0, 1, 1, 12, 0⟩] := by
  decide +kernel

/-- R415: the handle of a lease that is being given back is current no more. -/
theorem test_unlease_back : let s := { sX id with engines := [(2, ⟨3, some (1, 500), true⟩)] }
    leaseIs s 1 2 3 = true ∧ (stAfter (exec (.unlease (r 14)) s)).engines.length = 1 := by decide +kernel

/-- R227: transfers of a VF that has left the core count on its channel. -/
theorem test_in_flight : inFlight { usr id with saved := [(2 * 65536, { CoreCtx.reset with xids := [4, 5] })] } 0 = 2 := by decide +kernel

/-- R16, R261: a spoke that finds no fault waiter has not issued. -/
theorem test_slots_idle : let s := usr id
    (settleRetry { s with cores := s.cores.map fun c => (c.1, { c.2 with waiters := (List.range 64).map fun i => (i, ⟨0, some (w1 false)⟩) }) }
      ⟨.notPresent, 0x1001000000, 1, false, false, false⟩).cur.idle = true := by decide +kernel

/-- R285: bytes for a peer whose binding has ended are not made visible. -/
theorem test_out_cut : (drainOut (usr id) { cmdM with out := [(⟨.peer, 7 * 2 ^ 40⟩, 1)] }).peer = [] := by decide +kernel

/-- R199: a vector access whose lanes come to the device's path seals. -/
theorem test_lane_path : Instr.seals { sp0 with win := [cmd4], g := (sp0.wrG 3 0x3FFFFFFFFFFFF000).g, v := (sp0.wrV 1 (Vector.replicate 32 0x1000)).v } 1 (.vgath true 0 2 (r 3) ⟨1, false⟩ 0) = true
    ∧ Instr.seals { sp0 with win := [cmd4], g := (sp0.wrG 3 0x3FFFFFFFFFFFF000).g } 1 (.vgath true 0 2 (r 3) ⟨1, false⟩ 0) = false := by decide +kernel

end Sys2Proof.Tests
end

section
/-! Bytes of memory: what a read returns after a write, and what a write leaves (R8). -/

namespace Sys2Proof

open Machine

/-! One byte. -/

/-- A byte that is not the written one reads as before. -/
theorem rdLoc_wrLoc_ne (s : State) {l m : Loc} (b : Byte) (h : l ≠ m) : rdLoc (wrLoc s l b) m = rdLoc s m := by
  obtain ⟨sp, a⟩ := l
  obtain ⟨tp, x⟩ := m
  cases sp <;> cases tp <;> simp_all [rdLoc, wrLoc, rd_wr]

/-- A written byte reads back, but in the state window, which holds no bytes. -/
theorem rdLoc_wrLoc_same (s : State) {l : Loc} (b : Byte) (h : l.sp ≠ .stw) : rdLoc (wrLoc s l b) l = b := by
  obtain ⟨sp, a⟩ := l
  cases sp <;> simp_all [rdLoc, wrLoc, rd_wr]

/-! Stretches of bytes as numbers. -/

/-- The numbers that equal bytes make. -/
theorem rdN_congr {s t : State} {l : Loc} {n : Nat} (h : ∀ m, inside l m n → rdLoc t m = rdLoc s m) : rdN t l n = rdN s l n := by
  induction n generalizing l with
  | zero => rfl
  | succ n ih =>
    have hl : rdLoc t l = rdLoc s l := h l ⟨rfl, le_rfl, by omega⟩
    have hr : rdN t (l.plus 1) n = rdN s (l.plus 1) n := ih fun m hm => by
      obtain ⟨h1, h2, h3⟩ := hm
      simp only [Loc.plus] at h1 h2 h3
      exact h m ⟨h1, by omega, by omega⟩
    rw [rdN, rdN, hl, hr]

theorem SameMem.rdN {s t : State} (h : SameMem s t) (l : Loc) (n : Nat) : rdN t l n = rdN s l n := rdN_congr fun m _ => h m

theorem SameMem.trans {s t u : State} (h : SameMem s t) (k : SameMem t u) : SameMem s u := fun m => (k m).trans (h m)

theorem SameMem.sameBut {s t u : State} {l : Loc} {n : Nat} (h : SameMem s t) (k : SameBut t u l n) : SameBut s u l n :=
  fun m hm => (k m hm).trans (h m)

theorem SameBut.sameMem {s t u : State} {l : Loc} {n : Nat} (h : SameBut s t l n) (k : SameMem t u) : SameBut s u l n :=
  fun m hm => (k m).trans (h m hm)

/-- States with the same memories read the same. -/
theorem sameMem_of_fields {s t : State} (h1 : t.hbm = s.hbm) (h2 : t.host = s.host) (h3 : t.peer = s.peer) (h4 : t.scr = s.scr)
    (h5 : t.tb = s.tb) : SameMem s t := fun m => by unfold rdLoc; rw [h1, h2, h3, h4, h5]

/-- One byte more makes 256 times as many numbers. -/
theorem two_pow_bytes_succ (n : Nat) : 2 ^ (8 * (n + 1)) = 256 * 2 ^ (8 * n) := by
  rw [Nat.mul_succ, pow_add]
  omega

/-- A number of `n` bytes is below 256 to the `n`. -/
theorem rdN_lt (s : State) (l : Loc) (n : Nat) : rdN s l n < 2 ^ (8 * n) := by
  induction n generalizing l with
  | zero => simp [rdN]
  | succ n ih =>
    have hb := (rdLoc s l).isLt
    have hr := ih (l.plus 1)
    rw [rdN, two_pow_bytes_succ]
    omega

/-- Bytes outside a written stretch read as before. -/
theorem wrN_sameBut (s : State) (l : Loc) (n x : Nat) : SameBut s (wrN s l n x) l n := by
  induction n generalizing s l x with
  | zero => exact fun m _ => rfl
  | succ n ih =>
    intro m hm
    have hne : l ≠ m := fun e => hm (e ▸ ⟨rfl, le_rfl, by omega⟩)
    have hout : ¬ inside (l.plus 1) m n := fun ⟨h1, h2, h3⟩ => by
      simp only [Loc.plus] at h1 h2 h3
      exact hm ⟨h1, by omega, by omega⟩
    rw [wrN, ih _ _ _ m hout, rdLoc_wrLoc_ne s _ hne]

/-- A written number reads back. -/
theorem rdN_wrN (s : State) {l : Loc} (n x : Nat) (h : l.sp ≠ .stw) : rdN (wrN s l n x) l n = x % 2 ^ (8 * n) := by
  induction n generalizing s l x with
  | zero => simp [rdN, Nat.mod_one]
  | succ n ih =>
    have hout : ¬ inside (l.plus 1) l n := fun ⟨_, h2, _⟩ => by
      simp only [Loc.plus] at h2
      omega
    rw [rdN, wrN, ih (l := l.plus 1) _ _ h, wrN_sameBut _ _ _ _ l hout, rdLoc_wrLoc_same s _ h, BitVec.toNat_ofNat,
      two_pow_bytes_succ, Nat.mod_mul]

/-- A number that is read fits a word of its size. -/
theorem toNat_ofNat_rdN (s : State) (l : Loc) {n w : Nat} (h : 8 * n ≤ w) : (BitVec.ofNat w (rdN s l n)).toNat = rdN s l n := by
  rw [BitVec.toNat_ofNat, Nat.mod_eq_of_lt (lt_of_lt_of_le (rdN_lt s l n) (Nat.pow_le_pow_right (by decide) h))]

/-- The low bytes of a number that is read. -/
theorem rdN_mod (s : State) (l : Loc) {n k : Nat} (h : n ≤ k) : rdN s l k % 2 ^ (8 * n) = rdN s l n := by
  induction n generalizing l k with
  | zero => simp [rdN, Nat.mod_one]
  | succ n ih =>
    obtain ⟨k, rfl⟩ : ∃ j, k = j + 1 := ⟨k - 1, by omega⟩
    have hb := (rdLoc s l).isLt
    rw [rdN, rdN, ← ih (l.plus 1) (k := k) (by omega),
      two_pow_bytes_succ, Nat.mod_mul,
      show ((rdLoc s l).toNat + 256 * rdN s (l.plus 1) k) % 256 = (rdLoc s l).toNat by omega,
      show ((rdLoc s l).toNat + 256 * rdN s (l.plus 1) k) / 256 = rdN s (l.plus 1) k by omega]

/-- The bytes from some way on of a number that is read. -/
theorem rdN_div (s : State) (l : Loc) (i n : Nat) : rdN s l (i + n) / 2 ^ (8 * i) = rdN s (l.plus i) n := by
  induction i generalizing l with
  | zero => simp [Loc.plus]
  | succ i ih =>
    have hb := (rdLoc s l).isLt
    rw [show i + 1 + n = (i + n) + 1 by omega, rdN,
      two_pow_bytes_succ, ← Nat.div_div_eq_div_mul,
      show ((rdLoc s l).toNat + 256 * rdN s (l.plus 1) (i + n)) / 256 = rdN s (l.plus 1) (i + n) by omega, ih]
    simp only [Loc.plus, Nat.add_assoc, Nat.add_comm 1 i]

/-- The bytes of a place within its 64-byte line. -/
theorem memLine_bits (s : State) (l : Loc) {n : Nat} (h : l.a % 64 + n ≤ 64) :
    bitsN (memLine s l).toNat (8 * (l.a % 64)) (8 * n) = rdN s l n := by
  have hat : Loc.plus ⟨l.sp, l.a / 64 * 64⟩ (l.a % 64) = l := by
    obtain ⟨sp, a⟩ := l
    simp only [Loc.plus, Loc.mk.injEq, true_and]
    omega
  have hdiv := rdN_div s ⟨l.sp, l.a / 64 * 64⟩ (l.a % 64) (64 - l.a % 64)
  rw [hat, show l.a % 64 + (64 - l.a % 64) = 64 by omega] at hdiv
  rw [bitsN, memLine, toNat_ofNat_rdN s _ (by decide), hdiv, rdN_mod s l (by omega)]

/-- Settles O10, by the rules for the write of a number and for the bytes outside it. -/
theorem readAfterWrite : Obligations.ReadAfterWrite := by
  unfold Obligations.ReadAfterWrite
  exact fun s l n x h => ⟨rdN_wrN s n x h, wrN_sameBut s l n x⟩

end Sys2Proof
end

section
/-! What an access of a spoke does at its reply (R22, R134, R243, R325): the registers, the elements, the request performed first, and the reply. -/

namespace Sys2Proof

open Machine

/-! The spokes and memories after an update. -/

/-- States with the same cores, contexts and residents have the same spokes. -/
theorem getSp_of_fields {s t : State} (h1 : t.cores = s.cores) (h2 : t.saved = s.saved) (h3 : t.halves = s.halves)
    (h4 : t.ctrl = s.ctrl) (c n v : Nat) : getSp t c n v = getSp s c n v := by
  unfold getSp getCtx getCore vfOf isSvc getHalf
  rw [h1, h2, h3, h4]

@[simp] theorem getSp_wrN (s : State) (l : Loc) (n x c m v : Nat) : getSp (wrN s l n x) c m v = getSp s c m v :=
  getSp_of_fields (by simp) (by simp) (by simp) (by simp) c m v

theorem modSp_sameMem (s : State) (c n v : Nat) (f : Spoke → Spoke) : SameMem s (modSp s c n v f) :=
  sameMem_of_fields (by simp) (by simp) (by simp) (by simp) (by simp)

/-- A stop that takes effect changes the state of the context alone. -/
theorem tryStop_cases (s : State) (c n v : Nat) :
    tryStop s c n v = s ∨ tryStop s c n v = modSp s c n v fun p => { p with ctx := .stopped, stopReq := false } :=
  (ite_eq_or_eq _ _ _).symm

theorem tryStop_sameMem (s : State) (c n v : Nat) : SameMem s (tryStop s c n v) := by
  rcases tryStop_cases s c n v with h | h <;> rw [h]
  · exact fun _ => rfl
  · exact modSp_sameMem s c n v _

@[simp] theorem getSp_tryStop_outst (s : State) (c n v : Nat) : (getSp (tryStop s c n v) c n v).outst = (getSp s c n v).outst := by
  rcases tryStop_cases s c n v with h | h <;> simp [h]

@[simp] theorem getSp_tryStop_g (s : State) (c n v : Nat) : (getSp (tryStop s c n v) c n v).g = (getSp s c n v).g := by
  rcases tryStop_cases s c n v with h | h <;> simp [h]

/-! General registers. -/

theorem rdG_of_g {p q : Spoke} (h : q.g = p.g) (r : Fin 32) : q.rdG r = p.rdG r := by simp only [Spoke.rdG, h]

/-- A register after a write of one: g0 keeps reading zero (R15). -/
theorem rdG_wrG (p : Spoke) (d r : Fin 32) (x : Word) : (p.wrG d x).rdG r = if r = d ∧ r ≠ 0 then x else p.rdG r := by
  by_cases hd : d = 0
  · subst hd
    rw [if_neg fun h => h.2 h.1]
    simp [Spoke.wrG]
  by_cases hr : r = d
  · subst hr
    simp [Spoke.wrG, Spoke.rdG, hd]
  · have hne : d.val ≠ r.val := fun e => hr (Fin.ext e).symm
    simp [Spoke.wrG, Spoke.rdG, hd, hr, hne]

@[simp] theorem wrG_outst (p : Spoke) (d : Fin 32) (x : Word) : (p.wrG d x).outst = p.outst := (wrG_calm d x p).2.2

/-- The register of a load or atomic is filled where the access still holds it (R22, R134). -/
theorem fillReq_eq {s : State} {c n v : Nat} {r : Req} {d : Fin 32} (x : Word)
    (h : r.plain = true ∨ (d ≠ 0 ∧ (getSp s c n v).pendG d = .load r.id)) :
    fillReq s (.spoke c n v) r d x = modSp s c n v fun p => p.wrG d x := by
  have hf : (if r.plain then (getSp s c n v).wrG d x
      else if d ≠ 0 ∧ (getSp s c n v).pendG d = .load r.id then (getSp s c n v).wrG d x else getSp s c n v)
      = (getSp s c n v).wrG d x := by
    split
    · rfl
    next hp => exact if_pos (h.resolve_left hp)
  exact congrArg (setSp s c n v) hf

/-! Elements of an access. -/

/-- An element of a store that no kick page takes is written to its place (R245). -/
theorem putElem_ordinary {x : LaneAcc} (s : State) (n : Nat) (h : Ordinary x.loc) : putElem s n x = wrN s x.loc n x.data := by
  obtain ⟨-, h⟩ := h
  unfold putElem
  split
  next hs => rw [h.resolve_left (fun k => k hs)]
  · rfl

/-- An element of a store at a kick page is a write of the kick register (R243, R245). -/
theorem putElem_kick {x : LaneAcc} {fn : Nat} (s : State) (n : Nat) (h : x.loc.sp = .host) (hk : Config.kickFn (x.loc.a / 4096) = some fn) :
    putElem s n x = kick s fn (x.loc.a % 4096) n (BitVec.ofNat 64 x.data) := by
  unfold putElem
  rw [h, hk]

/-- Away from the read-only path an element that no kick page takes is read from its place. -/
theorem getElem1_ordinary {l : Loc} (s : State) (tile v n : Nat) (h : Ordinary l) : getElem1 s tile v n false l = (s, rdN s l n) := by
  obtain ⟨-, h⟩ := h
  unfold getElem1
  rw [if_neg (by simp)]
  split
  next hs => rw [h.resolve_left (fun k => k hs)]
  · rfl

/-- At a kick page it is WIDX that is read (R243). -/
theorem getElem1_kick {l : Loc} {fn : Nat} (s : State) (tile v n : Nat) (h : l.sp = .host) (hk : Config.kickFn (l.a / 4096) = some fn) :
    getElem1 s tile v n false l = (s, kickLoad s fn (l.a % 4096) n) := by
  unfold getElem1
  rw [if_neg (by simp), h, hk]

/-- What the read-only path leaves of a state: all but the read cache and the lines held coherently. -/
theorem rcLine_state (s : State) (t v : Nat) (l : Loc) : ∃ rc cx, (rcLine s t v l).1 = { s with rcache := rc, cxl := cx } := by
  unfold rcLine
  split
  · split
    · exact ⟨_, _, rfl⟩
    · exact ⟨s.rcache, s.cxl, rfl⟩
  · exact ⟨_, _, rfl⟩

theorem getElem1_state (s : State) (tile v n : Nat) (ro : Bool) (l : Loc) :
    ∃ rc cx, (getElem1 s tile v n ro l).1 = { s with rcache := rc, cxl := cx } := by
  cases ro with
  | true => exact rcLine_state s tile v l
  | false =>
    refine ⟨s.rcache, s.cxl, ?_⟩
    unfold getElem1
    split
    · contradiction
    · split
      · split <;> rfl
      · rfl

theorem getElem1_sameMem (s : State) (tile v n : Nat) (ro : Bool) (l : Loc) : SameMem s (getElem1 s tile v n ro l).1 := by
  obtain ⟨rc, cx, h⟩ := getElem1_state s tile v n ro l
  rw [h]
  exact fun _ => rfl

theorem getSp_getElem1 (s : State) (tile w n : Nat) (ro : Bool) (l : Loc) (c m v : Nat) :
    getSp (getElem1 s tile w n ro l).1 c m v = getSp s c m v := by
  obtain ⟨rc, cx, h⟩ := getElem1_state s tile w n ro l
  rw [h]
  rfl

/-- An element that is read has the bytes of its size. -/
theorem getElem1_lt (s : State) (tile v n : Nat) (ro : Bool) (l : Loc) : (getElem1 s tile v n ro l).2 < 2 ^ (8 * n) := by
  have hbits (x i : Nat) : bitsN x i (8 * n) < 2 ^ (8 * n) := Nat.mod_lt _ (by positivity)
  unfold getElem1
  split
  · exact hbits _ _
  · split
    · split
      · unfold kickLoad
        split
        · positivity
        · exact hbits _ _
      · exact rdN_lt s l n
    · exact rdN_lt s l n

/-- The line that the read-only path serves: the held one unless it is evicted, the one of memory where none is held (R112). -/
theorem rcLine_held {s : State} {t : Nat} {l : Loc} {r : RLine} (v : Nat) (h : rfind s t l = some r) (he : Config.evict s.tick l.a = false) :
    (rcLine s t v l).2 = r.line := by simp [rcLine, h, he]

theorem rcLine_missed {s : State} {t : Nat} {l : Loc} (v : Nat) (h : rfind s t l = none) : (rcLine s t v l).2 = memLine s l := by
  simp [rcLine, h]

/-- What an element of a load reads (R11, R112, R243). -/
theorem getElem1_readsAs (s : State) (tile v n : Nat) (x : LaneAcc) : ReadsAs s tile n x (getElem1 s tile v n x.ro x.loc).2 := by
  refine ⟨fun hr ho => ?_, fun hr hs fn hk => ?_, fun hr hn => ⟨fun l hl he => ?_, fun hl => ?_⟩⟩
  · rw [hr, getElem1_ordinary s tile v n ho]
  · rw [hr, getElem1_kick s tile v n hs hk]
  · rw [hr]
    exact congrArg (fun z : Line => bitsN z.toNat (8 * (x.loc.a % 64)) (8 * n)) (rcLine_held v hl he)
  · rw [hr]
    exact (congrArg (fun z : Line => bitsN z.toNat (8 * (x.loc.a % 64)) (8 * n)) (rcLine_missed v hl)).trans (memLine_bits s x.loc hn)

/-- Stage 2 depends on the functions alone. -/
theorem stage2N_of_fns {s t : State} (h : t.fns = s.fns) (v p n : Nat) : stage2N t v p n = stage2N s v p n := by
  unfold stage2N stage2 getFn
  rw [h]

/-- WIDX is read from the functions and HBM alone. -/
theorem kickLoad_of_fields {s t : State} (h1 : t.fns = s.fns) (h2 : SameMem s t) (fn off n : Nat) : kickLoad t fn off n = kickLoad s fn off n := by
  unfold kickLoad readKick queueDesc
  rw [stage2N_of_fns h1]
  simp only [getFn, qWord, hbmN, h1, h2.rdN]

/-- What an element reads does not depend on the spokes. -/
theorem ReadsAs.of_modSp {s : State} {c m v tile n y : Nat} {f : Spoke → Spoke} {x : LaneAcc} (h : ReadsAs (modSp s c m v f) tile n x y) :
    ReadsAs s tile n x y := by
  have hm := modSp_sameMem s c m v f
  simpa only [ReadsAs, rfind, rlines, modSp_rcache, modSp_tick, hm.rdN, kickLoad_of_fields (modSp_fns s c m v f) hm] using h

/-! A request with nothing before it. -/

/-- Where no earlier request meets the places, none goes first (R130 item 2). -/
theorem goFirst_of_none {rs : List Req} {ps : List (Loc × Nat)} (h : ∀ r ∈ rs, ∀ p ∈ ps, reqMeets p.1 p.2 r = false) :
    goFirst rs ps = [] := by
  have hfold : rs.foldr (fun r x => if x.2.any fun p => reqMeets p.1 p.2 r then (r :: x.1, Req.places r ++ x.2) else x)
      (([] : List Req), ps) = ([], ps) := by
    induction rs with
    | nil => rfl
    | cons r rs ih =>
      have hr : (ps.any fun p => reqMeets p.1 p.2 r) = false := by simpa using h r (by simp)
      rw [List.foldr_cons, ih fun q hq => h q (by simp [hq])]
      simp only [hr, Bool.false_eq_true, if_false]
  unfold goFirst
  rw [hfold]

/-- A request that no earlier one holds back is performed at once. -/
theorem performInOrder_first {s : State} {c n v : Nat} {r : Req} {x : LaneAcc} (ha : r.accs = [x]) (hg : MayGo (getSp s c n v) r x) :
    performInOrder s (.spoke c n v) r = perform s (.spoke c n v) r := by
  have hnone : goFirst ((getSp s c n v).outst.filter fun q => decide (q.id < r.id)) (Req.places r) = [] := by
    refine goFirst_of_none fun q hq p hp => ?_
    obtain ⟨y, ⟨hy, hro⟩, rfl⟩ : ∃ y, (y ∈ r.accs ∧ y.ro = false) ∧ (y.loc, r.n) = p := by simpa [Req.places] using hp
    obtain rfl : y = x := by simpa [ha] using hy
    have hfirst := List.filter_eq_nil_iff.1 (hg hro) q (List.mem_of_mem_filter hq)
    have hid := (List.mem_filter.1 hq).2
    simpa [hid] using hfirst
  unfold performInOrder flushBefore
  rw [show (ownerSp s (.spoke c n v)) = getSp s c n v from rfl, hnone]
  rfl

/-! The reply. -/

/-- A reply with no fault performs its request, in its order; then a stop that was asked for takes effect. -/
theorem exec_memoryReply_ok {s : State} {core sp idx : Nat} {r : Req} {x : LaneAcc} (hi : (getSp s core sp (vfOf s core)).outst[idx]? = some r)
    (ha : r.accs = [x]) (hs : sp < 16) (hg : MayGo (getSp s core sp (vfOf s core)) r x) (hc : reqCut s (vfOf s core) r = false) :
    exec (.memoryReply core sp idx .ok) s = .next (tryStop (perform s (.spoke core sp (vfOf s core)) r) core sp (vfOf s core)) := by
  rw [← performInOrder_first ha hg]
  show execMemoryReply core sp idx .ok s = _
  simp only [execMemoryReply, if_neg (show ¬ sp ≥ 16 by omega), hi, hc, Bool.false_eq_true, if_false, replyFault, replyDone]

/-- The state in which a request is no longer outstanding. -/
def dropped (s : State) (c n v : Nat) (r : Req) : State := modSp s c n v fun p => dropReq p r.id

theorem dropped_sameMem (s : State) (c n v : Nat) (r : Req) : SameMem s (dropped s c n v r) := modSp_sameMem s c n v _

@[simp] theorem getSp_dropped (s : State) (c n v : Nat) (r : Req) : getSp (dropped s c n v r) c n v = dropReq (getSp s c n v) r.id :=
  getSp_modSp s c n v _

theorem pendG_dropped (s : State) (c n v : Nat) (r : Req) (d : Fin 32) : (getSp (dropped s c n v r) c n v).pendG d = (getSp s c n v).pendG d := by
  rw [getSp_dropped]
  rfl

/-- A load is performed: its element is read and its register filled (R22). -/
theorem perform_load {s : State} {c n v : Nat} {r : Req} {d : Fin 32} {sx : Bool} {x : LaneAcc} (hk : r.kind = .load d sx) (ha : r.accs = [x])
    (hf : r.plain = true ∨ (d ≠ 0 ∧ (getSp s c n v).pendG d = .load r.id)) :
    perform s (.spoke c n v) r =
      let y := getElem1 (dropped s c n v r) (tileOf c) v r.n x.ro x.loc
      modSp y.1 c n v fun p => p.wrG d (if sx then sext64 (8 * r.n) y.2 else BitVec.ofNat 64 y.2) := by
  have hpend : (getSp (getElem1 (dropped s c n v r) (tileOf c) v r.n x.ro x.loc).1 c n v).pendG d = (getSp s c n v).pendG d := by
    rw [getSp_getElem1, pendG_dropped]
  unfold perform
  rw [hk, ha]
  exact fillReq_eq (s := (getElem1 (dropped s c n v r) (tileOf c) v r.n x.ro x.loc).1) _ (by rwa [hpend])

/-- A store is performed: its element is written (R245). -/
theorem perform_store {s : State} {c n v : Nat} {r : Req} {x : LaneAcc} (hk : r.kind = .store) (ha : r.accs = [x]) :
    perform s (.spoke c n v) r = putElem (dropped s c n v r) r.n x := by
  unfold perform
  rw [hk, ha]
  rfl

/-- The state in which the result of an atomic on an old value is written at its place; no result writes nothing (R325). -/
def atomicPut (s : State) (op : AtOp) (l : Loc) (n o b e : Nat) : State :=
  match atOp op n o b e with
  | some y => wrN s l n y
  | none => s

theorem getSp_atomicPut (s : State) (op : AtOp) (l : Loc) (n o b e c m v : Nat) : getSp (atomicPut s op l n o b e) c m v = getSp s c m v := by
  unfold atomicPut
  split
  · exact getSp_wrN ..
  · rfl

theorem atomicPut_sameBut (s : State) (op : AtOp) (l : Loc) (n o b e : Nat) : SameBut s (atomicPut s op l n o b e) l n := by
  unfold atomicPut
  split
  · exact wrN_sameBut _ _ _ _
  · exact fun _ _ => rfl

/-- An atomic is performed: the result is written, if there is one, and the register filled with the old value (R325). -/
theorem perform_atomic {s : State} {c n v : Nat} {r : Req} {op : AtOp} {d : Fin 32} {b e : Nat} {x : LaneAcc} (hk : r.kind = .atomic op d b e)
    (ha : r.accs = [x]) (hf : r.plain = true ∨ (d ≠ 0 ∧ (getSp s c n v).pendG d = .load r.id)) :
    perform s (.spoke c n v) r =
      modSp (atomicPut (dropped s c n v r) op x.loc r.n (rdN s x.loc r.n) b e) c n v fun p => p.wrG d (BitVec.ofNat 64 (rdN s x.loc r.n)) := by
  rw [← (dropped_sameMem s c n v r).rdN]
  unfold perform
  rw [hk, ha]
  refine fillReq_eq (s := atomicPut (dropped s c n v r) op x.loc r.n (rdN (dropped s c n v r) x.loc r.n) b e) _ ?_
  rwa [getSp_atomicPut, pendG_dropped]

/-! Values. -/

/-- Sign extension of the low bits of a number (R322, R361). -/
theorem sext64_eq (w x : Nat) : sext64 w x = (BitVec.ofNat w x).signExtend 64 := by
  unfold sext64 BitVec.signExtend
  rw [BitVec.toInt_eq_toNat_cond, BitVec.toNat_ofNat]
  have hhalf : x % 2 ^ w < 2 ^ (w - 1) ↔ 2 * (x % 2 ^ w) < 2 ^ w := by
    cases w with
    | zero => simp [Nat.mod_one]
    | succ w => rw [Nat.add_sub_cancel, pow_succ]; omega
  by_cases h : x % 2 ^ w < 2 ^ (w - 1)
  · rw [if_pos h, if_pos (hhalf.1 h), BitVec.ofInt_natCast]
  · rw [if_neg h, if_neg (mt hhalf.2 h)]

/-- The value that a load fills its register with, by the number that it has read. -/
theorem loadValue_eq (n w : Nat) (sx : Bool) (h : w < 2 ^ (8 * n)) :
    (if sx then sext64 (8 * n) w else BitVec.ofNat 64 w)
      = (let y := BitVec.ofNat (8 * n) w; if sx then y.signExtend 64 else y.zeroExtend 64) := by
  cases sx with
  | true => exact sext64_eq _ _
  | false =>
    refine BitVec.eq_of_toNat_eq ?_
    simp [Nat.mod_eq_of_lt h]

/-- Settles O30: the request is performed at once, its element is read as `ReadsAs` says, and the fill of the register is all that follows. -/
theorem loadPerformed : Obligations.LoadPerformed := by
  unfold Obligations.LoadPerformed
  intro s core sp idx r d sx x v p hi hk ha hs hg hc hf
  let y := getElem1 (dropped s core sp v r) (tileOf core) v r.n x.ro x.loc
  have hp : perform s (.spoke core sp v) r = modSp y.1 core sp v fun q => q.wrG d (if sx then sext64 (8 * r.n) y.2 else BitVec.ofNat 64 y.2) :=
    perform_load hk ha hf
  have hsp : getSp y.1 core sp v = dropReq p r.id := by rw [getSp_getElem1, getSp_dropped]
  refine ⟨_, y.2, exec_memoryReply_ok hi ha hs hg hc, (getElem1_readsAs _ _ v _ _).of_modSp, ?_, ?_, fun g => ?_⟩
  · rw [hp]
    exact ((dropped_sameMem s core sp v r).trans (getElem1_sameMem _ _ _ _ _ _)).trans ((modSp_sameMem _ _ _ _ _).trans (tryStop_sameMem _ _ _ _))
  · rw [getSp_tryStop_outst, hp, getSp_modSp, wrG_outst, hsp]
    rfl
  · rw [rdG_of_g (getSp_tryStop_g ..), hp, getSp_modSp, rdG_wrG, hsp, loadValue_eq _ _ _ (getElem1_lt ..)]
    rfl

end Sys2Proof
end

section
/-! Stores and atomics at their reply (R245, R325). -/

namespace Sys2Proof

open Machine

/-! The results of atomics. -/

/-- The number that is written where an atomic has a result, the old one where it has none. -/
theorem rdN_atomicPut (s : State) (op : AtOp) {l : Loc} (n o b e : Nat) (h : l.sp ≠ .stw) :
    rdN (atomicPut s op l n o b e) l n = ((atOp op n o b e).map (· % 2 ^ (8 * n))).getD (rdN s l n) := by
  unfold atomicPut
  split
  next y hy => rw [hy, rdN_wrN s n y h]; rfl
  next hn => rw [hn]; rfl

/-- The sign of a number of `n` bytes, as the atomics take it (R325). -/
theorem signed_toNat {n : Nat} (hn : 0 < n) (x : BitVec (8 * n)) :
    (if x.toNat < 2 ^ (8 * n) / 2 then (x.toNat : Int) else (x.toNat : Int) - (2 ^ (8 * n) : Nat)) = x.toInt := by
  obtain ⟨k, rfl⟩ : ∃ k, n = k + 1 := ⟨n - 1, by omega⟩
  have hpow := two_pow_bytes_succ k
  rw [BitVec.toInt_eq_toNat_cond]
  by_cases h : x.toNat < 2 ^ (8 * (k + 1)) / 2
  · rw [if_pos h, if_pos (by omega)]
  · rw [if_neg h, if_neg (by omega)]

/-- What an atomic writes over the numbers of its bytes is what it writes over words of its width (R325). -/
theorem atOp_eq_atomicNew {n : Nat} (hn : 0 < n) (op : AtOp) (o b c : BitVec (8 * n)) :
    ((atOp op n o.toNat b.toNat c.toNat).map (· % 2 ^ (8 * n))).getD o.toNat = (atomicNew op o b c).toNat := by
  have hmod (x : BitVec (8 * n)) : x.toNat % 2 ^ (8 * n) = x.toNat := Nat.mod_eq_of_lt x.isLt
  have hchoice (p : Prop) [Decidable p] (x y : BitVec (8 * n)) :
      (if p then x.toNat else y.toNat) % 2 ^ (8 * n) = (if p then x else y).toNat := by split <;> exact hmod _
  cases op with
  | add => simp [atOp, atomicNew]
  | band => simpa [atOp, atomicNew] using hmod (o &&& b)
  | bor => simpa [atOp, atomicNew] using hmod (o ||| b)
  | bxor => simpa [atOp, atomicNew] using hmod (o ^^^ b)
  | swp => simp [atOp, atomicNew]
  | cas =>
    by_cases h : o = c
    · simp [atOp, atomicNew, h]
    · simp [atOp, atomicNew, h, BitVec.toNat_inj]
  | min u => cases u with
    | true => simpa [atOp, atomicNew, BitVec.ult] using hchoice (b.toNat < o.toNat) b o
    | false =>
      simpa only [atOp, atomicNew, signed_toNat hn, BitVec.slt, decide_eq_true_eq, Option.map_some, Option.getD_some]
        using hchoice (b.toInt < o.toInt) b o
  | max u => cases u with
    | true => simpa [atOp, atomicNew, BitVec.ult] using hchoice (o.toNat < b.toNat) b o
    | false =>
      simpa only [atOp, atomicNew, signed_toNat hn, BitVec.slt, decide_eq_true_eq, Option.map_some, Option.getD_some]
        using hchoice (o.toInt < b.toInt) b o

theorem sizeBytes_pos (sz : Size) : 0 < sizeBytes sz := by cases sz <;> decide

/-- The reply of a store that no kick page takes. -/
theorem store_replied {s : State} {c n v : Nat} {r : Req} {x : LaneAcc} (hk : r.kind = .store) (ha : r.accs = [x]) (ho : Ordinary x.loc) :
    let t := tryStop (perform s (.spoke c n v) r) c n v
    rdN t x.loc r.n = x.data % 2 ^ (8 * r.n) ∧ SameBut s t x.loc r.n
      ∧ (getSp t c n v).outst = (getSp s c n v).outst.filter (·.id != r.id) ∧ (getSp t c n v).g = (getSp s c n v).g := by
  have hp : perform s (.spoke c n v) r = wrN (dropped s c n v r) x.loc r.n x.data := by rw [perform_store hk ha, putElem_ordinary _ _ ho]
  have hstop := tryStop_sameMem (perform s (.spoke c n v) r) c n v
  refine ⟨?_, ?_, ?_, ?_⟩
  · rw [hstop.rdN, hp, rdN_wrN _ _ _ ho.1]
  · refine SameBut.sameMem ?_ hstop
    rw [hp]
    exact (dropped_sameMem s c n v r).sameBut (wrN_sameBut _ _ _ _)
  · rw [getSp_tryStop_outst, hp, getSp_wrN, getSp_dropped]
    rfl
  · rw [getSp_tryStop_g, hp, getSp_wrN, getSp_dropped]
    rfl

/-- The reply of an atomic. -/
theorem atomic_replied {s : State} {c n v : Nat} {r : Req} {op : AtOp} {d : Fin 32} {b e : Nat} {x : LaneAcc} (hk : r.kind = .atomic op d b e)
    (ha : r.accs = [x]) (hl : x.loc.sp ≠ .stw) (hn : 0 < r.n) (hb : b < 2 ^ (8 * r.n)) (he : e < 2 ^ (8 * r.n))
    (hf : r.plain = true ∨ (d ≠ 0 ∧ (getSp s c n v).pendG d = .load r.id)) :
    let t := tryStop (perform s (.spoke c n v) r) c n v
    let old := rdN s x.loc r.n
    SameBut s t x.loc r.n
      ∧ rdN t x.loc r.n = (atomicNew op (BitVec.ofNat (8 * r.n) old) (BitVec.ofNat (8 * r.n) b) (BitVec.ofNat (8 * r.n) e)).toNat
      ∧ ∀ g : Fin 32, (getSp t c n v).rdG g = if g = d ∧ g ≠ 0 then BitVec.ofNat 64 old else (getSp s c n v).rdG g := by
  intro t old
  have hp := perform_atomic hk ha hf
  have hdrop := dropped_sameMem s c n v r
  have hend : SameMem (atomicPut (dropped s c n v r) op x.loc r.n old b e) t := by
    refine SameMem.trans ?_ (tryStop_sameMem _ _ _ _)
    rw [hp]
    exact modSp_sameMem _ _ _ _ _
  refine ⟨(hdrop.sameBut (atomicPut_sameBut _ _ _ _ _ _ _)).sameMem hend, ?_, fun g => ?_⟩
  · have hnat {y : Nat} (h : y < 2 ^ (8 * r.n)) : (BitVec.ofNat (8 * r.n) y).toNat = y := by rw [BitVec.toNat_ofNat, Nat.mod_eq_of_lt h]
    rw [hend.rdN, rdN_atomicPut _ _ _ _ _ _ hl, hdrop.rdN, ← atOp_eq_atomicNew hn, hnat hb, hnat he, hnat (rdN_lt s x.loc r.n)]
  · rw [rdG_of_g (getSp_tryStop_g _ _ _ _), hp, getSp_modSp, rdG_wrG, getSp_atomicPut, getSp_dropped]
    rfl

/-- Settles O31: the request is performed at once, by the rule for a store, for a kick page or for an atomic. -/
theorem storesAndAtomicsPerformed : Obligations.StoresAndAtomicsPerformed := by
  unfold Obligations.StoresAndAtomicsPerformed
  refine ⟨fun s core sp idx r x hi hk ha hs hg hc hro => ⟨fun ho => ?_, fun fn hh hfn => ?_⟩,
    fun s core sp idx r op d b c x sz hi hk ha hs hl hro hg hc hn hb he hf => ?_⟩
  · exact ⟨_, exec_memoryReply_ok hi ha hs (fun _ => hg) hc, store_replied hk ha ho⟩
  · rw [exec_memoryReply_ok hi ha hs (fun _ => hg) hc, perform_store hk ha, putElem_kick _ _ hh hfn]
    rfl
  · exact ⟨_, exec_memoryReply_ok hi ha hs (fun _ => hg) hc, atomic_replied hk ha hl (hn ▸ sizeBytes_pos sz) hb he hf⟩

end Sys2Proof
end

section
/-! What the host writes into the registers of a function (R11, R12, R276 to R278, R286). -/

namespace Sys2Proof

open Machine

/-! Functions after an update. -/

theorem getFn_modFn (s : State) (f : Nat) (g : Fn → Fn) (k : Nat) : getFn (modFn s f g) k = if f = k then g (getFn s f) else getFn s k :=
  mget_mset _ _ _ _ _

@[simp] theorem getFn_modFn_same (s : State) (f : Nat) (g : Fn → Fn) : getFn (modFn s f g) f = g (getFn s f) := mget_mset_same _ _ _ _

theorem getFn_modFn_ne (s : State) {f k : Nat} (g : Fn → Fn) (h : f ≠ k) : getFn (modFn s f g) k = getFn s k := mget_mset_ne _ _ _ h

theorem getFn_of_fns {s t : State} (h : t.fns = s.fns) (k : Nat) : getFn t k = getFn s k := by
  unfold getFn
  rw [h]

/-- A read of a map whose values have been changed in place, by a change that leaves the default. -/
theorem mget_map {α : Type} {d : α} {f : Nat × α → Nat × α} (g : α → α) (hd : g d = d) (hf : ∀ p, f p = (p.1, g p.2))
    (m : List (Nat × α)) (k : Nat) : mget d (m.map f) k = g (mget d m k) := by
  induction m with
  | nil => exact hd.symm
  | cons p m ih =>
    rw [List.map_cons, hf, mget, mget, ih]
    exact (apply_ite g _ _ _).symm

theorem bitN_eq_getLsbD {w : Nat} (x : BitVec w) (i : Nat) : bitN x i = x.getLsbD i := by
  rw [bitN, BitVec.getLsbD, Nat.testBit_eq_decide_div_mod_eq]
  rfl

/-! FEATDRV (R286). -/

/-- Whether the PF runs once the writes of GO are looked at: it has left QUIESCED before, or its GO is written. -/
def pfRuns (s : State) : Bool := !(getFn s 0).quiesced || bitN (getFn s 0).featdrv 63

/-- A function whose GO is written leaves QUIESCED. -/
def withGo (f : Fn) : Fn := if bitN f.featdrv 63 then { f with quiesced := false } else f

@[simp] theorem withGo_featdrv (f : Fn) : (withGo f).featdrv = f.featdrv := by unfold withGo; split <;> rfl

theorem withGo_quiesced (f : Fn) : (withGo f).quiesced = (f.quiesced && !bitN f.featdrv 63) := by
  unfold withGo
  cases h : bitN f.featdrv 63 <;> simp

@[simp] theorem withGo_withGo (f : Fn) : withGo (withGo f) = withGo f := by
  cases h : bitN f.featdrv 63 <;> simp [withGo, h]

/-- Once the PF runs every function whose GO is written leaves QUIESCED, and until then none does. -/
theorem getFn_leaveQuiesced (s : State) (k : Nat) : getFn (leaveQuiesced s) k = if pfRuns s then withGo (getFn s k) else getFn s k := by
  have hmap (t : State) : getFn { t with fns := t.fns.map fun p => if bitN p.2.featdrv 63 then (p.1, { p.2 with quiesced := false }) else p } k
      = withGo (getFn t k) :=
    mget_map withGo rfl (fun p => (apply_ite (Prod.mk p.1) _ _ _).symm) _ _
  unfold leaveQuiesced
  cases hb : bitN (getFn s 0).featdrv 63 with
  | false =>
    simp only [hb, Bool.false_eq_true, if_false, pfRuns, Bool.or_false]
    cases hq : (getFn s 0).quiesced with
    | true => simp
    | false => simpa using hmap s
  | true =>
    have hpf (j : Nat) : getFn (setFn s 0 { getFn s 0 with quiesced := false }) j = if j = 0 then withGo (getFn s 0) else getFn s j := by
      by_cases hj : j = 0
      · subst hj
        simp [getFn, setFn, withGo] at hb ⊢
        simp [hb]
      · simp [getFn, setFn, mget_mset, Ne.symm hj, hj]
    have hquiet : (getFn (setFn s 0 { getFn s 0 with quiesced := false }) 0).quiesced = false := by rw [hpf, if_pos rfl, withGo_quiesced, hb]; simp
    simp only [hb, if_true, hquiet, Bool.false_eq_true, if_false, pfRuns, Bool.or_true]
    rw [hmap, hpf]
    split
    next hk => rw [hk, withGo_withGo]
    · rfl

/-- A write of FEATDRV with a reserved bit is discarded. -/
theorem writeFeat_reserved {s : State} {fn : Nat} {w : Word} (h : w &&& ~~~featDev ≠ 0) : writeFeat s fn w = regErr s fn := if_pos h

/-- A write of FEATDRV of a quiesced function sets the features; with GO the function runs, a VF once the PF does (R286). -/
theorem writeFeat_quiesced {s : State} {fn : Nat} {w : Word} (h : w &&& ~~~featDev = 0) (hq : (getFn s fn).quiesced = true) :
    (getFn (writeFeat s fn w) fn).featdrv = w
      ∧ (getFn (writeFeat s fn w) fn).quiesced = !(w.getLsbD 63 && (fn == 0 || !(getFn s 0).quiesced || (getFn s 0).featdrv.getLsbD 63)) := by
  have hw : writeFeat s fn w = leaveQuiesced (modFn s fn fun f => { f with featdrv := w }) := by
    unfold writeFeat
    rw [if_neg (not_not_intro h), hq]
    rfl
  rw [hw, getFn_leaveQuiesced, getFn_modFn_same, ← bitN_eq_getLsbD, ← bitN_eq_getLsbD]
  have hpf : (bitN w 63 && pfRuns (modFn s fn fun f => { f with featdrv := w }))
      = (bitN w 63 && (fn == 0 || !(getFn s 0).quiesced || bitN (getFn s 0).featdrv 63)) := by
    unfold pfRuns
    by_cases h0 : fn = 0
    · subst h0
      cases hb : bitN w 63 <;> simp [hb]
    · have hb : (fn == 0) = false := beq_eq_false_iff_ne.2 h0
      simp [getFn_modFn_ne s _ h0, hb]
  rw [← hpf]
  cases pfRuns (modFn s fn fun f => { f with featdrv := w }) with
  | false => simp [hq]
  | true => simp [withGo_quiesced, hq]

/-! Words of a register page (R11, R277). -/

/-- A write of a whole word leaves nothing of the old one. -/
theorem widen_word (cur w : Word) {off : Nat} (h : off % 8 = 0) : widen cur w off 8 = w := by
  have hmask : BitVec.ofNat 64 ((2 ^ (8 * 8) - 1) * 2 ^ (8 * 0)) = BitVec.allOnes 64 := by decide
  unfold widen
  dsimp only
  rw [h, hmask, BitVec.not_allOnes, BitVec.and_zero, BitVec.zero_or, BitVec.and_allOnes, Nat.mul_zero, BitVec.shiftLeft_zero]

/-- A write of a whole word of a register page reaches its register. -/
theorem exec_registerWrite_page (s : State) {fn off : Nat} (w : Word) (hf : fn ≤ 63) (ho : off < 4096) (h : off % 8 = 0) :
    exec (.registerWrite fn 0 off 8 w) s = .next (writeReg s fn off w) := by
  show execRegisterWrite fn 0 off 8 w s = _
  have hin : ¬ ((0 : Nat) ≠ 0 ∨ fn > 63 ∨ off ≥ 4096) := by omega
  simp only [execRegisterWrite, if_neg hin, widen_word _ _ h]
  simp [h]

/-- A base address register takes an aligned address and discards any other. -/
theorem writeBase_eq (s : State) (fn : Nat) (w : Word) (al : Nat) (f : Fn → Fn) :
    writeBase s fn w al f = if w.toNat % al = 0 then modFn s fn f else regErr s fn := ite_not _ _ _

/-- The registers of a page that hold a word: their offsets, alignments and fields (R277). -/
def fieldTable (w : Word) : List (Nat × Nat × (Fn → Fn)) :=
  [(0x18, 16384, fun f => { f with ptroot := w }), (0x20, 8192, fun f => { f with dombase := w }),
    (0x28, 16384, fun f => { f with qtbase := w }), (0x30, 1, fun f => { f with spmap := w }), (0x40, 1, fun f => { f with invva := w }),
    (0x48, 1, fun f => { f with invlen := w })]

/-- A write of one of these registers sets its field, where the address is aligned. -/
theorem writeReg_field (s : State) (fn : Nat) (w : Word) :
    ∀ e ∈ fieldTable w, writeReg s fn e.1 w = if w.toNat % e.2.1 = 0 then modFn s fn e.2.2 else regErr s fn := by
  have hone : w.toNat % 1 = 0 := Nat.mod_one _
  simp only [fieldTable, List.forall_mem_cons]
  exact ⟨writeBase_eq .., writeBase_eq .., writeBase_eq .., (if_pos hone).symm, (if_pos hone).symm, (if_pos hone).symm, by simp⟩

/-- Each of them is a word of the page. -/
theorem fieldTable_offsets (w : Word) : ∀ e ∈ fieldTable w, e.1 < 4096 ∧ e.1 % 8 = 0 := by simp [fieldTable]

/-! Control blocks (R278). -/

/-- Bits of a word from a place on. -/
theorem ofNat_fieldN {n : Nat} (x : BitVec n) (lo w : Nat) : BitVec.ofNat w (fieldN x lo w) = x.extractLsb' lo w := by
  refine BitVec.eq_of_toNat_eq ?_
  rw [BitVec.toNat_ofNat, BitVec.extractLsb'_toNat, fieldN, bitsN, Nat.mod_mod, Nat.shiftRight_eq_div_pow]

/-- The words of HALVES after one of them is replaced. -/
theorem halves_put (x : BitVec 768) (w : Word) {i j : Nat} (hi : i < 12) (hj : j < 12) :
    ((x &&& ~~~((BitVec.allOnes 64).zeroExtend 768 <<< (64 * i))) ||| (w.zeroExtend 768 <<< (64 * i))).extractLsb' (64 * j) 64
      = if j = i then w else x.extractLsb' (64 * j) 64 := by
  have hones (k : Nat) : (BitVec.allOnes 64).getLsbD k = decide (k < 64) := BitVec.getLsbD_allOnes
  refine BitVec.eq_of_getLsbD_eq fun k hk => ?_
  have hin : 64 * j + k < 768 := by omega
  simp only [BitVec.getLsbD_extractLsb', BitVec.getLsbD_or, BitVec.getLsbD_and, BitVec.getLsbD_not, BitVec.getLsbD_shiftLeft,
    BitVec.getLsbD_setWidth, hones, hk, hin, decide_true, Bool.true_and]
  rcases lt_trichotomy j i with h | h | h
  · have hlow : 64 * j + k < 64 * i := by omega
    simp [hlow, h.ne, hk]
  · subst h
    simp [hk, show k < 768 by omega]
  · have hhigh : 64 ≤ 64 * j + k - 64 * i := by omega
    simp [Nat.not_lt.2 hhigh, h.ne', hk, BitVec.getLsbD_of_ge w _ hhigh]

/-- The words of a control block from the fourth on are those of HALVES. -/
theorem word_of_ge (c : Ctl) {j : Nat} (h4 : 4 ≤ j) (h : j < 16) : c.word j = c.halves.extractLsb' (64 * (j - 4)) 64 := by
  rw [← ofNat_fieldN]
  unfold Ctl.word
  split
  iterate 4 contradiction
  exact if_pos h

/-- A control block with one word replaced has that word, and the others as before. -/
theorem word_put (c : Ctl) (w : Word) {i j : Nat} (hi : i < 16) (hj : j < 16) : (c.put i w).word j = if j = i then w else c.word j := by
  rcases lt_or_ge i 4 with hi4 | hi4
  · rcases lt_or_ge j 4 with hj4 | hj4
    · interval_cases i <;> interval_cases j <;> rfl
    · rw [word_of_ge _ hj4 hj, word_of_ge _ hj4 hj, if_neg (by omega)]
      interval_cases i <;> rfl
  · have hput : c.put i w = { c with halves := (c.halves &&& ~~~((BitVec.allOnes 64).zeroExtend 768 <<< (64 * (i - 4))))
        ||| (w.zeroExtend 768 <<< (64 * (i - 4))) } := by
      unfold Ctl.put
      split
      iterate 4 contradiction
      rfl
    rw [hput]
    rcases lt_or_ge j 4 with hj4 | hj4
    · rw [if_neg (by omega)]
      interval_cases j <;> rfl
    · rw [word_of_ge _ hj4 hj, word_of_ge _ hj4 hj, halves_put _ _ (by omega) (by omega)]
      exact if_congr (by omega) rfl rfl

/-! What leaves the control blocks as they are. -/

/-- Two states with the same control blocks, as written and in force. -/
def SameCtls (s t : State) : Prop := ∀ f, (getFn t f).ctlNew = (getFn s f).ctlNew ∧ (getFn t f).ctlAct = (getFn s f).ctlAct

theorem SameCtls.refl (s : State) : SameCtls s s := fun _ => ⟨rfl, rfl⟩

theorem SameCtls.trans {s t u : State} (h : SameCtls s t) (k : SameCtls t u) : SameCtls s u :=
  fun f => ⟨(k f).1.trans (h f).1, (k f).2.trans (h f).2⟩

theorem SameCtls.of_fns {s t : State} (h : t.fns = s.fns) : SameCtls s t := fun f => by rw [getFn_of_fns h]; exact ⟨rfl, rfl⟩

theorem SameCtls.modFn {s : State} {f : Nat} {g : Fn → Fn} (h : ∀ x, (g x).ctlNew = x.ctlNew ∧ (g x).ctlAct = x.ctlAct) : SameCtls s (modFn s f g) :=
  fun k => by
    rw [getFn_modFn]
    split
    next hk => rw [← hk]; exact h _
    · exact ⟨rfl, rfl⟩

theorem SameCtls.foldl {β : Type} {f : State → β → State} (h : ∀ s x, SameCtls s (f s x)) (l : List β) (s : State) : SameCtls s (l.foldl f s) := by
  induction l generalizing s with
  | nil => exact .refl s
  | cons x l ih => exact (h s x).trans (ih _)

theorem wrLoc_sameCtls (s : State) (l : Loc) (b : Byte) : SameCtls s (wrLoc s l b) := .of_fns (wrLoc_fns s l b)

theorem imageWrite_sameCtls (s : State) (stamp off : Nat) (ps : List (Loc × Nat)) : SameCtls s (imageWrite s stamp off ps) := by
  induction ps generalizing s off with
  | nil => exact .refl s
  | cons p ps ih => exact (SameCtls.foldl (fun s i => wrLoc_sameCtls s _ _) _ s).trans (ih _ _)

theorem setImage_sameCtls (s : State) (i : Nat) (x : Image) (p : Spoke) : SameCtls s (setImage s i x p) := by
  unfold setImage
  split
  · exact .refl s
  · split
    · exact imageWrite_sameCtls { s with images := _, nextId := _ } _ _ _
    · exact .refl s

theorem modOwner_sameCtls (s : State) (o : Owner) (f : Spoke → Spoke) : SameCtls s (modOwner s o f) := by
  cases o with
  | spoke c n v => exact .of_fns (modSp_fns s c n v f)
  | image i =>
    unfold modOwner
    dsimp only
    split
    · exact setImage_sameCtls s _ _ _
    · exact .refl s
  | gone => exact .refl s

theorem freeSlot_sameCtls (s : State) (c i : Nat) : SameCtls s (freeSlot s c i) := by
  unfold freeSlot
  dsimp only
  split
  · exact .refl s
  · exact SameCtls.trans (t := setSlot s c i _) (.refl s) (.modFn fun _ => ⟨rfl, rfl⟩)

theorem leaveCmd_sameCtls (s : State) (c id : Nat) : SameCtls s (leaveCmd s c id) := by
  refine SameCtls.foldl (fun s i => ?_) _ s
  split
  · exact .refl s
  · dsimp only
    split
    · exact .refl s
    · split
      · exact freeSlot_sameCtls s c i
      · exact .refl s

/-- A byte of an engine at a kick page is a write that is not 8 bytes wide: it is discarded and counted (R243). -/
theorem engStore_sameCtls (s : State) (l : Loc) (b : Byte) : SameCtls s (engStore s l b) := by
  unfold engStore
  split
  · split
    · rw [kick, if_pos (.inl (by decide))]
      exact .modFn fun _ => ⟨rfl, rfl⟩
    · exact wrLoc_sameCtls s l b
  · exact wrLoc_sameCtls s l b

theorem drainOut_sameCtls (s : State) (c : Cmd) : SameCtls s (drainOut s c) :=
  SameCtls.foldl (f := fun s (x : Loc × Byte) => engStore s x.1 x.2) (fun s x => engStore_sameCtls s x.1 x.2) _ s

theorem settlePanes_sameCtls (s : State) (c : Cmd) : SameCtls s (settlePanes s c).1 := by
  unfold settlePanes
  dsimp only
  split
  · split <;> exact .refl s
  · split <;> exact .refl s
  · exact .refl s

theorem publish_sameCtls (s : State) (o : Mem) : SameCtls s (publish s o) := SameCtls.foldl (fun s _ => wrLoc_sameCtls s _ _) o s

theorem giveKeep_sameCtls (s : State) (o : Owner) (g : Nat) (ks : List Snap) : SameCtls s (giveKeep s o g ks) := by
  unfold giveKeep
  split
  · exact .refl s
  · split
    · exact .refl s
    · exact modOwner_sameCtls s o _

theorem report_sameCtls (s : State) (c : Cmd) (w : Word) (bad : Option FaultCode) : SameCtls s (report s c w bad) := by
  unfold report
  split <;> exact modOwner_sameCtls s _ _

theorem finish_sameCtls (s : State) (c : Cmd) (w : Word) (bad : Option FaultCode) : SameCtls s (finish s c w bad) := by
  have hpanes : SameCtls s (settlePanes (drainOut s c) c).1 := (drainOut_sameCtls s c).trans (settlePanes_sameCtls _ c)
  unfold finish
  dsimp only
  refine SameCtls.trans ?_ (report_sameCtls _ c w bad)
  refine SameCtls.trans ?_ (giveKeep_sameCtls _ _ _ _)
  refine SameCtls.trans ?_ (modOwner_sameCtls _ _ _)
  split
  · exact hpanes.trans (publish_sameCtls _ _)
  · exact hpanes

theorem collFail_sameCtls (s : State) (c : Cmd) (code : FaultCode) (va : Word) (acc : Nat) : SameCtls s (collFail s c code va acc) :=
  finish_sameCtls s _ _ _

theorem leaveCmd_collFail_sameCtls (s : State) (c : Cmd) (code : FaultCode) : SameCtls s (collFail (leaveCmd s c.core c.id) c code 0 0) :=
  SameCtls.trans (leaveCmd_sameCtls s c.core c.id) (collFail_sameCtls (leaveCmd s c.core c.id) c code 0 0)

theorem endLease_sameCtls (s : State) (e : Nat) : SameCtls s (endLease s e) := by
  have hfold (mine : List Cmd) : SameCtls s (mine.foldl (fun s c => collFail (leaveCmd s c.core c.id) c .lease 0 0) s) :=
    SameCtls.foldl (fun s c => leaveCmd_collFail_sameCtls s c .lease) mine s
  unfold endLease
  split
  · exact .refl s
  · exact fun f => hfold _ f

theorem loseLeases_sameCtls (s : State) (v : Nat) : SameCtls s (loseLeases s v) := by
  unfold loseLeases
  split
  · exact .refl s
  · refine SameCtls.foldl (fun s e => ?_) _ s
    split
    · split
      · exact endLease_sameCtls s e
      · exact .refl s
    · exact .refl s

/-! A write of a word of the control space (R278). -/

/-- A block with empty HALVES takes effect at once where its VF is resident nowhere (log 99). -/
theorem emptyBlock_ctls (s : State) (v : Nat) :
    (getFn (emptyBlock s v) v).ctlNew = (getFn s v).ctlNew
      ∧ (getFn (emptyBlock s v) v).ctlAct
        = if isResident s v = false ∧ (getFn s v).ctlNew.halves = 0 then (getFn s v).ctlNew else (getFn s v).ctlAct := by
  unfold emptyBlock
  by_cases h : isResident s v = false ∧ (getFn s v).ctlNew.halves = 0
  · obtain ⟨hnew, hact⟩ := loseLeases_sameCtls (forgetHalves (modFn s v fun f => { f with ctlAct := f.ctlNew }) v fun _ => true) v v
    have hfn : getFn (forgetHalves (modFn s v fun f => { f with ctlAct := f.ctlNew }) v fun _ => true) v
        = { getFn s v with ctlAct := (getFn s v).ctlNew } := 
      getFn_modFn_same s v fun f => { f with ctlAct := f.ctlNew }
    rw [if_pos (by simpa using h), if_pos h, hnew, hact, hfn]
    exact ⟨rfl, rfl⟩
  · rw [if_neg (by simpa using h), if_neg h]
    exact ⟨rfl, rfl⟩

/-- A write of a word of a VF's block that R278 admits. -/
theorem exec_registerWrite_ctl (s : State) {v i : Nat} (w : Word) (h0 : 0 < v) (hv : v ≤ 63) (hi : i < 16)
    (hb : ctlBad s v ((getFn s v).ctlNew.put i w) = false) :
    exec (.registerWrite 0 4 (256 * v + 8 * i) 8 w) s
      = .next (emptyBlock (modFn s v fun f => { f with ctlNew := (getFn s v).ctlNew.put i w }) v) := by
  have hoff : (256 * v + 8 * i) % 8 = 0 := by omega
  have hin : ¬ ((0 : Nat) ≠ 0 ∨ 256 * v + 8 * i ≥ 16384) := by omega
  have hvf : (256 * v + 8 * i) / 256 = v := by omega
  have hword : (256 * v + 8 * i) % 256 / 8 = i := by omega
  show execRegisterWrite 0 4 (256 * v + 8 * i) 8 w s = _
  simp only [execRegisterWrite, if_neg hin, widen_word _ _ hoff, writeCtl, hvf, hword, hb, if_neg (show ¬ (v = 0 ∨ i ≥ 16) by omega)]
  simp [hoff]

/-- After it the block has the word written, and is in force at once where it has empty HALVES and its VF is resident nowhere (log 99). -/
theorem emptyBlock_put (s : State) {v i : Nat} (w : Word) (hi : i < 16) :
    let b := (getFn s v).ctlNew.put i w
    let t := emptyBlock (modFn s v fun f => { f with ctlNew := b }) v
    (getFn t v).ctlAct = (if isResident s v = false ∧ b.halves = 0 then b else (getFn s v).ctlAct)
      ∧ ∀ j < 16, (getFn t v).ctlNew.word j = if j = i then w else (getFn s v).ctlNew.word j := by
  intro b t
  obtain ⟨hnew, hact⟩ := emptyBlock_ctls (modFn s v fun f => { f with ctlNew := b }) v
  rw [getFn_modFn_same] at hnew hact
  exact ⟨hact, fun j hj => by rw [hnew]; exact word_put _ w hi hj⟩

end Sys2Proof
end

section
/-! The host's agents, what the host takes back, the links, the peers and the buckets (R145, R267, R281, R283, R285). -/

namespace Sys2Proof

open Machine

/-! Agents (R145, R283, R285). -/

/-- An agent reaches HBM alone. -/
theorem agentLoc_hbm {s : State} {g : Agent} {n : Nat} {l : Loc} (h : agentLoc s g n = some l) : l.sp = .hbm := by
  cases g with
  | host addr =>
    obtain ⟨-, rfl⟩ : _ ∧ _ = l := by simpa [agentLoc] using h
    rfl
  | peer v dev addr =>
    obtain ⟨-, a, -, rfl⟩ : _ ∧ ∃ a, _ ∧ _ = l := by simpa [agentLoc] using h
    rfl

/-- The host's range of HBM is decoded with CXLMEM acknowledged and a port trained as CXL (log 62). -/
theorem agentLoc_host (s : State) (a n : Nat) :
    agentLoc s (.host a) n = if a + n ≤ Config.hbmSize ∧ feature s 0 2 = true ∧ s.ctrl.port ≠ 0 then some ⟨.hbm, a⟩ else none := rfl

theorem exec_hostMemoryAccess_some {s : State} {g : Agent} {e : AgentAcc} {l : Loc} (h : agentLoc s g (agentLen e) = some l) :
    exec (.hostMemoryAccess g e) s = .next (agentDo s l e) := by
  show execHostMemoryAccess g e s = _
  rw [execHostMemoryAccess, h]

theorem exec_hostMemoryAccess_none {s : State} {g : Agent} {e : AgentAcc} (h : agentLoc s g (agentLen e) = none) :
    exec (.hostMemoryAccess g e) s = .next s := by
  show execHostMemoryAccess g e s = _
  rw [execHostMemoryAccess, h]

/-- Bytes written to HBM leave every byte outside them. -/
theorem wrBytes_hbm_sameBut (s : State) {l : Loc} (bs : List Byte) (h : l.sp = .hbm) :
    SameBut s { s with hbm := wrBytes s.hbm l.a bs } l bs.length := by
  intro m hm
  unfold rdLoc
  split
  next hs =>
    refine rd_wrBytes_out _ _ _ _ ?_
    by_contra hin
    exact hm ⟨hs.trans h.symm, by omega, by omega⟩
  all_goals rfl

/-- The atomic accesses of an agent and what they leave at a place (R145). -/
def agentTable (s : State) (l : Loc) (n v c : Nat) : List (AgentAcc × Nat) :=
  [(.fetchAdd n v, rdN s l n + v), (.swap n v, v), (.cas n c v, if rdN s l n = c then v else rdN s l n)]

theorem agentTable_len (s : State) (l : Loc) (n v c : Nat) : ∀ e ∈ agentTable s l n v c, agentLen e.1 = n := by simp [agentTable, agentLen]

/-- An atomic access of an agent leaves its result at its place and every other byte as before. -/
theorem agentDo_atomic (s : State) {l : Loc} (n v c : Nat) (h : l.sp ≠ .stw) :
    ∀ e ∈ agentTable s l n v c, rdN (agentDo s l e.1) l n = e.2 % 2 ^ (8 * n) ∧ SameBut s (agentDo s l e.1) l n := by
  have hput (y : Nat) : rdN (wrN s l n y) l n = y % 2 ^ (8 * n) ∧ SameBut s (wrN s l n y) l n := ⟨rdN_wrN s n y h, wrN_sameBut s l n y⟩
  have hcas : rdN (agentDo s l (.cas n c v)) l n = (if rdN s l n = c then v else rdN s l n) % 2 ^ (8 * n)
      ∧ SameBut s (agentDo s l (.cas n c v)) l n := by
    unfold agentDo
    dsimp only
    split
    · exact hput v
    · exact ⟨(Nat.mod_eq_of_lt (rdN_lt s l n)).symm, fun _ _ => rfl⟩
  simp only [agentTable, List.forall_mem_cons]
  exact ⟨hput _, hput _, hcas, by simp⟩

/-! What the host takes back (R267, R283). -/

theorem rlines_rdrop (s : State) (t u : Nat) (p : RLine → Bool) :
    rlines (rdrop s t p) u = if t = u then (rlines s t).filter fun r => !p r else rlines s u := mget_mset _ _ _ _ _

/-- Lines that a test names are in no read cache that has been cleaned of them, or that held none. -/
theorem rlines_foldl_rdrop (p : RLine → Bool) (ts : List Nat) (s : State) (u : Nat) (h : u ∈ ts ∨ ∀ r ∈ rlines s u, p r = false) :
    ∀ r ∈ rlines (ts.foldl (fun s t => rdrop s t p) s) u, p r = false := by
  induction ts generalizing s with
  | nil => simpa using h
  | cons t ts ih =>
    refine ih _ ?_
    rw [rlines_rdrop]
    by_cases htu : t = u
    · subst htu
      simp
    · simpa [htu, Ne.symm htu] using h

/-- A map that does not list a key gives the default. -/
theorem mget_of_not_mem {α : Type} (d : α) {m : List (Nat × α)} {k : Nat} (h : k ∉ m.map (·.1)) : mget d m k = d := by
  induction m with
  | nil => rfl
  | cons p m ih =>
    rw [List.map_cons, List.mem_cons, not_or] at h
    rw [mget, if_neg (Ne.symm h.1), ih h.2]

/-- A host line that is given up is in no read cache (R283). -/
theorem rlines_dropHostLine (s : State) (line u : Nat) : ∀ r ∈ rlines (dropHostLine s line) u, ¬ (r.sp = .host ∧ r.a = line) := by
  have hclean : u ∈ s.rcache.map (·.1) ∨ ∀ r ∈ rlines s u, (r.sp == .host && r.a == line) = false := by
    by_cases hu : u ∈ s.rcache.map (·.1)
    · exact .inl hu
    · right
      rw [rlines, mget_of_not_mem _ hu]
      simp
  intro r hr
  have hp := rlines_foldl_rdrop (fun r => r.sp == .host && r.a == line) _ s u hclean r hr
  simpa using hp

/-- The translations that the host has taken back are held no more (R267). -/
theorem ats_taken_back (s : State) (fn a n : Nat) :
    ∃ t, exec (.atsInvalidationRequest fn a n) s = .next t
      ∧ ∀ p ∈ t.ats, ¬ (p.1 / 2 ^ 52 = fn ∧ p.1 % 2 ^ 52 * 4096 < a + n ∧ a < p.1 % 2 ^ 52 * 4096 + 4096) := by
  refine ⟨_, rfl, fun p hp => ?_⟩
  have hkept := (List.mem_filter.1 hp).2
  rintro ⟨hfn, hlo, hhi⟩
  simp only [hfn, hlo, hhi, beq_self_eq_true, decide_true, Bool.and_self, Bool.not_true, Bool.false_eq_true] at hkept

/-- A snooped line is given up, or kept with no effect (R283). -/
theorem snoop_gives_up {s : State} {line : Nat} (h : line ∈ s.cxl) :
    ∃ t, exec (.cxlCacheSnoop line false) s = .next t ∧ line ∉ t.cxl ∧ ∀ tile, ∀ r ∈ rlines t tile, ¬ (r.sp = .host ∧ r.a = line) := by
  refine ⟨{ dropHostLine s line with cxl := s.cxl.filter (· != line) }, ?_, by simp, fun tile => rlines_dropHostLine s line tile⟩
  show execCxlCacheSnoop line false s = _
  simp [execCxlCacheSnoop, h]

/-! Links and peers (R285). -/

/-- A CRC failure of a link that is up: the count of one flit goes on or begins anew, and behind eight the link goes down. -/
theorem exec_flitCrcFailure {s : State} {link : Nat} (hl : link < 48) (hu : (getLink s link).up = true) :
    ∃ n sq, n ≤ (getLink s link).fails + 1 ∧ exec (.flitCrcFailure link) s = if n > 8
      then .next (endBinds { s with links := mset s.links link ⟨false, sq, 0⟩ } fun k => Config.linkOf (k % 1024) == link)
      else .next (countLife { s with links := mset s.links link ⟨true, sq, n⟩ } 4 link 0) := by
  refine ⟨if Config.oneOf s.tick then (getLink s link).fails + 1 else 1,
    if Config.oneOf s.tick then (getLink s link).seq else (getLink s link).seq + 1, by split <;> omega, ?_⟩
  show execFlitCrcFailure link s = _
  unfold execFlitCrcFailure
  dsimp only
  rw [if_neg (by simp [hu, hl])]

/-- A failed replay of a flit, up to eight of them: it is counted, and the link stays up. -/
theorem flit_replayed {s : State} {link : Nat} (hl : link < 48) (hu : (getLink s link).up = true) (hf : (getLink s link).fails < 8) :
    ∃ t, exec (.flitCrcFailure link) s = .next t ∧ (getLink t link).up = true ∧ t.binds = s.binds
      ∧ mget 0 t.ctrl.live (4 * 2 ^ 32 + link * 2 ^ 16) = mget 0 s.ctrl.live (4 * 2 ^ 32 + link * 2 ^ 16) + 1 := by
  obtain ⟨n, sq, hn, he⟩ := exec_flitCrcFailure hl hu
  rw [if_neg (by omega)] at he
  exact ⟨_, he, congrArg Link.up (mget_mset_same _ _ _ _), rfl, mget_mset_same _ _ _ _⟩

/-- Where the link goes down it takes its connections with it. -/
theorem flit_lost {s : State} {link : Nat} (hl : link < 48) (hu : (getLink s link).up = true) :
    ∃ t, exec (.flitCrcFailure link) s = .next t
      ∧ ((getLink t link).up = false → ∀ p ∈ t.binds, Config.linkOf (p.1 % 1024) ≠ link) := by
  obtain ⟨n, sq, -, he⟩ := exec_flitCrcFailure hl hu
  by_cases hn : n > 8
  · rw [if_pos hn] at he
    refine ⟨_, he, fun _ p hp => ?_⟩
    simpa using (List.mem_filter.1 hp).2
  · rw [if_neg hn] at he
    refine ⟨_, he, fun hdown => ?_⟩
    have hup : (getLink (countLife { s with links := mset s.links link ⟨true, sq, n⟩ } 4 link 0) link).up = true :=
      congrArg Link.up (mget_mset_same _ _ _ _)
    exact absurd (hup.symm.trans hdown) (by decide)

/-- What a command loses with its peers leaves its number, its state and its panes. -/
theorem loseBytes_keeps (s : State) (gone : Nat → Bool) (c : Cmd) :
    ((loseBytes s gone c).id, (loseBytes s gone c).st, (loseBytes s gone c).ovl) = (c.id, c.st, c.ovl) := by
  unfold loseBytes
  dsimp only
  split <;> rfl

/-- A map in which one value is set at several keys. -/
theorem mget_foldl_mset {α : Type} (d x : α) (ks : List Nat) (m : List (Nat × α)) (k : Nat) (h : k ∈ ks ∨ mget d m k = x) :
    mget d (ks.foldl (fun m k => mset m k x) m) k = x := by
  induction ks generalizing m with
  | nil => simpa using h
  | cons j ks ih =>
    refine ih _ ?_
    rw [mget_mset]
    by_cases hj : j = k
    · exact .inr (if_pos hj)
    · rw [if_neg hj]
      exact h.imp_left fun hk => (List.mem_cons.1 hk).resolve_left (Ne.symm hj)

/-- An access made over a connection that has ended is not performed, be the pair bound again. -/
theorem reqCut_endBinds {s : State} {gone : Nat → Bool} {v : Nat} {r : Req} {x : LaneAcc} (hx : x ∈ r.accs) (hp : x.loc.sp = .peer)
    (hb : mhas s.binds (v * 1024 + x.loc.a / 2 ^ 40) = true) (hg : gone (v * 1024 + x.loc.a / 2 ^ 40) = true) (hid : r.id < s.nextId)
    (bs : List (Nat × Nat)) : reqCut { endBinds s gone with binds := bs } v r = true := by
  have hkey : v * 1024 + x.loc.a / 2 ^ 40 ∈ (s.binds.map (·.1)).filter gone := by
    obtain ⟨p, hp, he⟩ : ∃ p ∈ s.binds, (p.1 == v * 1024 + x.loc.a / 2 ^ 40) = true := List.any_eq_true.1 hb
    exact List.mem_filter.2 ⟨List.mem_map.2 ⟨p, hp, by simpa using he⟩, hg⟩
  have hended : mget 0 (endBinds s gone).ended (v * 1024 + x.loc.a / 2 ^ 40) = s.nextId := mget_foldl_mset 0 s.nextId _ _ _ (.inl hkey)
  refine List.any_eq_true.2 ⟨x, hx, ?_⟩
  dsimp only
  rw [hended]
  simp [hp, hid]

/-- A peer's reset notice ends its connections and the accesses under way over them; memory and the commands' states stay. -/
theorem peer_reset (s : State) (dev : Nat) :
    ∃ t, exec (.peerResetNotice dev) s = .next t ∧ t.binds = s.binds.filter (fun p => p.1 % 1024 != dev) ∧ SameMem s t
      ∧ (t.cmds.map fun c => (c.id, c.st, c.ovl)) = s.cmds.map (fun c => (c.id, c.st, c.ovl))
      ∧ ∀ v r x, mhas s.binds (v * 1024 + dev) = true → dev < 1024 → x ∈ r.accs → x.loc.sp = .peer → x.loc.a / 2 ^ 40 = dev →
        r.id < s.nextId → ∀ bs, reqCut { t with binds := bs } v r = true := by
  refine ⟨dropPeer s dev, rfl, rfl, fun _ => rfl, ?_, fun v r x hb hd hx hp hdev hid bs => ?_⟩
  · show List.map _ (List.map _ s.cmds) = _
    rw [List.map_map]
    exact List.map_congr_left fun c _ => loseBytes_keeps _ _ c
  · subst hdev
    exact reqCut_endBinds hx hp hb (by simp; omega) hid bs

/-! Buckets (R281). -/

/-- The value that a map made of a list of keys gives a key of the list. -/
theorem mget_map_keys {α : Type} (d : α) (f : Nat → α) {ks : List Nat} {k : Nat} (h : k ∈ ks) : mget d (ks.map fun j => (j, f j)) k = f k := by
  induction ks with
  | nil => simp at h
  | cons j ks ih =>
    rw [List.map_cons, mget]
    by_cases hj : j = k
    · rw [if_pos hj, hj]
    · rw [if_neg hj, ih ((List.mem_cons.1 h).resolve_left (Ne.symm hj))]

/-- BWSHARE in 256ths of a bucket of 65536 bytes. -/
theorem bw_quota (n : Nat) : n * 65536 / 256 = n * 256 := by omega

/-- A refill: a VF's quota and its share of the idle ones, in multiples of 64 bytes (R281). -/
theorem bucket_refilled (s : State) (core : Nat) (idle : List Nat) :
    ∃ t, exec (.bucketRefill core idle) s = .next t ∧
      let bw (v : Nat) : Nat := fieldN (getFn s v).ctlAct.sched 40 9
      let vfs := (List.range 64).filter fun v => v != 0 && decide (0 < bw v)
      let total := ((vfs.filter (! idle.contains ·)).map bw).sum
      let spare := ((vfs.filter (idle.contains ·)).map fun v => bw v * 256).sum
      ∀ v, 0 < v → v < 64 → 0 < bw v →
        mget 0 (getCore t core).buckets v = if v ∈ idle then 0 else bw v * 256 + spare * bw v / total / 64 * 64 := by
  refine ⟨_, rfl, ?_⟩
  intro bw vfs total spare v h0 h64 hbw
  have hv : v ∈ vfs := by simp [vfs, h64, hbw, h0.ne']
  show mget 0 (getCore (setCore s core _) core).buckets v = _
  rw [getCore_setCore]
  refine (mget_map_keys 0 _ hv).trans ?_
  by_cases hi : v ∈ idle
  · rw [if_pos hi, if_pos (List.contains_iff_mem.2 hi)]
  · have hle : bw v ≤ total := List.le_sum_of_mem (List.mem_map_of_mem (List.mem_filter.2 ⟨hv, by simpa using hi⟩))
    rw [if_neg hi, if_neg (mt List.contains_iff_mem.1 hi)]
    show bw v * 65536 / 256 + ((vfs.filter (idle.contains ·)).map fun v => bw v * 65536 / 256).sum * bw v / max total 1 / 64 * 64 = _
    rw [Nat.max_eq_left (by omega)]
    simp only [bw_quota]
    rfl

/-- Settles O59, clause by clause: the registers, the agents, what the host takes back, the links, the peers, the buckets. -/
theorem hostAndLinks : Obligations.HostAndLinks := by
  unfold Obligations.HostAndLinks
  refine ⟨fun s fn w => ⟨fun h => ?_, fun h hq => ⟨_, rfl, writeFeat_quiesced h hq⟩, fun hf e he => ?_, fun v i h0 hv hi hb => ?_⟩,
    fun s g a n v c dev bs l => ⟨fun h1 h2 h3 => ?_, fun h => ?_, rfl, fun e => exec_hostMemoryAccess_none, fun h => ?_, fun h e he => ?_⟩,
    fun s fn a n line => ⟨ats_taken_back s fn a n, snoop_gives_up, rfl⟩,
    fun s link dev core idle => ⟨flit_replayed, fun hl hu _ => flit_lost hl hu, peer_reset s dev, bucket_refilled s core idle⟩⟩
  · exact congrArg _ (writeFeat_reserved h)
  · obtain ⟨hlt, halign⟩ := fieldTable_offsets w e he
    rw [exec_registerWrite_page s w hf hlt halign, writeReg_field s fn w e he]
  · exact ⟨_, exec_registerWrite_ctl s w h0 hv hi hb, emptyBlock_put s w hi⟩
  · rw [agentLoc_host, if_pos ⟨h3, h1, h2⟩]
  · rw [agentLoc_host, if_neg]
    rintro ⟨hn, hfeat, hport⟩
    rcases h with h | h | h
    · simp [hfeat] at h
    · exact hport h
    · omega
  · refine ⟨_, exec_hostMemoryAccess_some h, wrBytes_hbm_sameBut s bs (agentLoc_hbm h), fun i => ?_⟩
    exact rd_wrBytes_in s.hbm l.a bs i i.isLt
  · have hl : l.sp ≠ .stw := by rw [agentLoc_hbm h]; decide
    exact ⟨_, exec_hostMemoryAccess_some ((congrArg (agentLoc s g) (agentTable_len s l n v c e he)).trans h), agentDo_atomic s n v c hl e he⟩

end Sys2Proof
end

section
/-! What the reads of an instruction's sources leave (R15, R21). -/

namespace Sys2Proof

open Machine

/-! Consuming reads (R21). -/

/-- A consumed register is empty, every other one as it was; g0 is never consumed (R15). -/
theorem fullR_clrR (p : Spoke) (x r : Reg) (h : r ≠ .g 0) : (p.clrR x).fullR r = if r = x then false else p.fullR r := by
  cases x with
  | g a =>
    cases r with
    | g b =>
      have hb : b ≠ 0 := fun e => h (e ▸ rfl)
      by_cases ha : a = 0
      · simp [Spoke.clrR, Spoke.clrG, Spoke.fullR, ha, hb]
      · by_cases e : b = a
        · subst e; simp [Spoke.clrR, Spoke.clrG, Spoke.fullR, Spoke.fullG, hb]
        · have hv : a.val ≠ b.val := fun k => e (Fin.ext k).symm
          simp [Spoke.clrR, Spoke.clrG, Spoke.fullR, Spoke.fullG, ha, e, hv]
    | v b =>
      rw [if_neg (by simp)]
      unfold Spoke.clrR Spoke.clrG
      dsimp only
      split <;> rfl
  | v a =>
    cases r with
    | g b => rfl
    | v b =>
      by_cases e : b = a
      · subst e; simp [Spoke.clrR, Spoke.clrV, Spoke.fullR, Spoke.fullV]
      · have hv : a.val ≠ b.val := fun k => e (Fin.ext k).symm
        simp [Spoke.clrR, Spoke.clrV, Spoke.fullR, Spoke.fullV, e, hv]

/-- Exactly the sources with SYN are empty after the reads. -/
theorem fullR_consume (us : List Use) (p : Spoke) (r : Reg) (h : r ≠ .g 0) :
    (p.consume us).fullR r = if ⟨r, true⟩ ∈ us then false else p.fullR r := by
  induction us generalizing p with
  | nil => rfl
  | cons u us ih =>
    obtain ⟨x, b⟩ := u
    show (Spoke.consume (if b then p.clrR x else p) us).fullR r = _
    rw [ih]
    cases b with
    | false => simp
    | true =>
      rw [if_pos rfl, fullR_clrR p x r h]
      by_cases e : r = x <;> simp [e]

/-- A vector register keeps its value when it is consumed. -/
theorem val_v_consume (us : List Use) (p : Spoke) (r : Fin 8) : (p.consume us).v[r].val = p.v[r].val :=
  consume_induct (P := fun q => q.v[r].val = p.v[r].val) us p rfl fun q x h => by
    rw [← h]
    cases x with
    | g a => unfold Spoke.clrR Spoke.clrG; dsimp only; split <;> rfl
    | v a =>
      by_cases e : a = r
      · subst e; simp [Spoke.clrR, Spoke.clrV]
      · have hv : a.val ≠ r.val := fun k => e (Fin.ext k)
        simp [Spoke.clrR, Spoke.clrV, hv]

theorem fullR_countIssue (s : State) (r : Reg) : (curSp (countIssue s)).fullR r = (curSp s).fullR r := by
  rw [curSp_countIssue]; cases r <;> rfl

theorem v_countIssue (s : State) : (curSp (countIssue s)).v = (curSp s).v := by rw [curSp_countIssue]

theorem fullR_taken (i : Instr) (s : State) (r : Reg) (h : r ≠ .g 0) :
    (curSp (taken i s)).fullR r = if ⟨r, true⟩ ∈ Instr.uses i then false else (curSp s).fullR r := by
  simp only [taken, curSp_modCur, fullR_consume _ _ r h, fullR_countIssue]

/-- A written register ends full, waiting for nothing (R22). -/
theorem g_wrG_same (p : Spoke) {r : Fin 32} (x : Word) (h : r ≠ 0) : (p.wrG r x).g[r] = ⟨x, true, .no⟩ := by
  simp [Spoke.wrG, h]

/-- Settles O12: the reads keep values, each source with SYN ends empty, and the write of a destination comes behind them. -/
theorem synConsumes : Obligations.SynConsumes := by
  unfold Obligations.SynConsumes
  refine fun i s => ⟨fun r => ?_, fun r => ?_, fun r h => fullR_taken i s r h, fun r x h => ?_, fun r x => ?_⟩
  · simp [taken]
  · simp only [taken, curSp_modCur, val_v_consume, v_countIssue]
  · rw [curSp_modCur, g_wrG_same _ x h]
  · simp [Spoke.wrV]

end Sys2Proof
end

section
/-! The park on an empty source, and one step of a core (R16, R19, R45, R60, R199). -/

namespace Sys2Proof

open Machine

/-! The park on an empty source (R19). -/

/-- Every instruction word is issued: its meaning is run behind the checks of R73. -/
theorem exec_word {i : Instr} (s : State) (h : i.isWord = true) : ∃ body, exec i s = .next (issue i s body) := by
  cases i with
  | divideEnd | memoryReply | lineArrival | inboxMessageArrival | inboxHeldDelivery | meshMessageAccept | wakeDelivery | hubLoadExchange | paneGrant
  | copySlotGrant | matrixCommandStart | matrixCommandComplete | layoutCommandStart | layoutCommandComplete | engineTranslationFault
  | transferCompletion | copyBarrierArrival | collComplete | leaseAnswer | leaseExpiry | invalidationAck | kickWrite | dispatchPacket
  | barrierAndPacket | barrierOrPacket | graphPacket | signalPacket | packetCompletion | memberPlacement | sliceEnd | ringRecordWrite
  | pageRequestResponse | hostMemoryAccess | wakeRegisterWrite | invgoWrite | ringCidxWrite | featdrvWrite | registerWrite | portset | svcmask
  | peerbind | quote | counters | fwload | ident | mailboxReply | functionLevelReset | warmRestart | deviceReset | powerOn
  | orderlyPowerDown | lifetimeCounterUpdate | bucketRefill | flitCrcFailure | peerResetNotice | clockThrottle | d3hotRequest | cxlCacheSnoop
  | atsInvalidationRequest | clockRestore => cases h
  | _ => exact ⟨_, rfl⟩

/-- A unit with an empty source, behind the seal too, has not issued and parks on it. -/
theorem precheck_empty {i : Instr} {s : State} {r : Reg} (h : firstEmpty (curSp s) [i] = some r) :
    let s1 := sealWin s s.cur.core s.cur.sp s.cur.vf s.cur.pc
    (curSp s1).owed = [] → firstEmpty (curSp s1) [i] = some r →
      precheck s [i] = .error (haltIdle (modCur s1 fun p => { p with park := parkOn r })) := by
  intro s1 ho hr
  have hseal : (unitSeals s [i] || (firstEmpty (curSp s) [i]).isSome) = true := by simp [h]
  unfold precheck
  dsimp only
  rw [if_pos hseal]
  unfold presence
  rw [if_neg (by simpa using ho), hr]

/-- With no window open there is nothing to seal. -/
theorem sealWin_nil {s : State} {c n v : Nat} (rpc : Word) (h : (getSp s c n v).win = []) : sealWin s c n v rpc = s := by
  unfold sealWin
  dsimp only
  rw [h]

/-- An instruction whose unit has not passed its checks leaves what the checks have left. -/
theorem issue_unchecked {i : Instr} {s t : State} {body : State → Ending} (hw : wordFault s i = none) (hc : s.cur.checked = false)
    (h : precheck s [i] = .error t) : issue i s body = t := by
  unfold issue
  rw [hw, if_neg (by simp [hc]), h]

/-- A spoke that waits for a register alone is in the rotation when the register is full. -/
theorem inRotation_parkOn {s : State} {c n v : Nat} {r : Reg} (hl : (getSp s c n v).ctx = .live) (hd : (getSp s c n v).divs = [])
    (ho : (getSp s c n v).outst.any (·.plain) = false) (hp : (getSp s c n v).park = parkOn r) : inRotation s c n v = (getSp s c n v).fullR r := by
  unfold inRotation
  dsimp only
  rw [hp, hl, hd, ho]
  cases r <;> exact Bool.true_and _

/-- Settles O11: the check of a unit with an empty source parks the spoke in a state marked as no issue, and the park's end is the register's presence. -/
theorem emptySourceParks : Obligations.EmptySourceParks := by
  unfold Obligations.EmptySourceParks
  refine ⟨fun i s r hi hw hc => ⟨fun hr ho hr' => ?_, fun hwin => sealWin_nil _ hwin⟩, fun s c n v r hl hd ho hp => inRotation_parkOn hl hd ho hp⟩
  obtain ⟨body, hx⟩ := exec_word s hi
  refine ⟨_, ?_, rfl, fun c n v u => if_pos rfl⟩
  rw [hx, issue_unchecked hw hc (precheck_empty hr ho hr')]

/-! One cadence slot (R16, R45, R60). -/

/-- A spoke at an unpaired word issues that word alone (R64). -/
theorem issueUnit_single {s : State} {c n v : Nat} (h : startsPair (getSp s c n v) = false) :
    issueUnit s c n v = issueWord (withCur s c n v (getSp s c n v).pc (nextPc (getSp s c n v).pc) false false false)
      (lineSlot (getSp s c n v).line.line (slotOf (getSp s c n v).pc)) := by
  unfold issueUnit
  rw [if_neg]
  rintro ⟨h1, h2, h3⟩
  simp [startsPair, h1, h2, h3] at h

theorem issueWord_ok {w : BitVec 96} {i : Instr} (s : State) (h : decodeWord w = .ok i) : issueWord s w = exec i s := by
  unfold issueWord
  rw [h]

/-- A spoke that can issue has its slot for its unit (R16). -/
theorem issueSpoke_issuable {s : State} {c n v : Nat} (h : Issuable (getSp s c n v)) : issueSpoke s c n v = issueUnit s c n v := by
  obtain ⟨-, -, ho, hw⟩ := h
  unfold issueSpoke
  dsimp only
  rw [ho, hw]
  rfl

/-- The issue of a core whose cadence chooses a spoke that can issue. -/
theorem issueNow_picked {s : State} {c n t : Nat} (hp : pick s c (vfOf s c) = some (n, t))
    (hi : Issuable (getSp (chosen s c n t) c n (vfOf s c))) :
    issueNow s c = onNext (issueUnit (chosen s c n t) c n (vfOf s c)) fun x => .next (issued c n (vfOf s c) t x) := by
  rw [← issueSpoke_issuable hi]
  obtain ⟨hl, hb, -, -⟩ := hi
  unfold issueNow
  dsimp only
  rw [hp]
  exact if_pos ⟨hl, by simpa [chosen] using hb⟩

/-- A step whose act is the issue of a core with no slice change due. -/
theorem step_issue {s : State} {c : Nat} {r : List Act} (hp : s.power = true) (ha : s.agenda = .issue c :: r) (hc : c < Config.numCores)
    (hf : sliceForced (heldOut { s with tick := s.tick + 1, agenda := r, lastCore := c } c) c = none) :
    step s = issueNow (heldOut { s with tick := s.tick + 1, agenda := r, lastCore := c } c) c := by
  have hstep : step s = act { s with tick := s.tick + 1, agenda := r } (.issue c) := by
    unfold step
    dsimp only
    rw [ha]
  have hact : act { s with tick := s.tick + 1, agenda := r } (.issue c) = issueCore { s with tick := s.tick + 1, agenda := r, lastCore := c } c := by
    unfold act
    rw [if_neg (by simp [hp])]
    exact if_pos hc
  rw [hstep, hact]
  unfold issueCore
  dsimp only
  rw [hf]

/-- Settles O5: the step is the issue of the chosen spoke, its unit one word, and the word the instruction it decodes to. -/
theorem stepRunsDecoded : Obligations.StepRunsDecoded := by
  unfold Obligations.StepRunsDecoded
  intro s c n t r i hpow hag hc s0 v u p hf hpick hi hpair hdec
  rw [step_issue hpow hag hc hf, issueNow_picked hpick hi, issueUnit_single hpair, issueWord_ok _ hdec]

end Sys2Proof
end

section
/-! How a ready instruction ends, and the results of group 000 (R27, R71, R324 to R405). -/

namespace Sys2Proof

open Machine

/-! Ends of a ready instruction. -/

/-- A ready instruction whose meaning ends in a state completes with it, unless its spoke would park behind an open window. -/
theorem completes_done {i : Instr} {s t : State} {body : State → Ending} (h : Ready i s) (hx : exec i s = .next (issue i s body))
    (hb : body (taken i s) = .done t) (hp : (curSp s).win = [] ∨ blocked (curSp t) = false) : Completes i s t := by
  have hp' : (curSp s).win = [] ∨ (body (taken i s)).parks = false := by rw [hb]; exact hp
  unfold Completes
  rw [hx, issue_ready h body hp', hb]

/-- A ready instruction whose meaning fails traps. -/
theorem traps_err {i : Instr} {s : State} {body : State → Ending} {code : FaultCode} {va : Word} {acc : Nat} (h : Ready i s)
    (hx : exec i s = .next (issue i s body)) (hb : body (taken i s) = .err code va acc) : Traps i s code va acc := by
  unfold Traps
  rw [hx, issue_ready h body (.inr (by rw [hb]; rfl)), hb]

/-! What the reads of the sources leave of the issuing spoke and of the device. -/

theorem wordFault_wf {i : Instr} {s : State} (h : wordFault s i = none) : i.wf = true := by
  unfold wordFault at h
  split at h
  · cases h
  · simp_all

@[simp] theorem dom_taken (i : Instr) (s : State) : (curSp (taken i s)).dom = (curSp s).dom := by
  obtain ⟨g, v, w, h⟩ := curSp_taken i s
  rw [h]

@[simp] theorem blocked_taken (i : Instr) (s : State) : blocked (curSp (taken i s)) = blocked (curSp s) := by
  obtain ⟨g, v, w, h⟩ := curSp_taken i s
  rw [h]
  rfl

@[simp] theorem countIssue_ctrl (s : State) : (countIssue s).ctrl = s.ctrl := by unfold countIssue; split <;> simp

@[simp] theorem countIssue_fns (s : State) : (countIssue s).fns = s.fns := by unfold countIssue; split <;> simp

@[simp] theorem taken_ctrl (i : Instr) (s : State) : (taken i s).ctrl = s.ctrl := by simp [taken]

@[simp] theorem taken_fns (i : Instr) (s : State) : (taken i s).fns = s.fns := by simp [taken]

@[simp] theorem isSvc_taken (i : Instr) (s : State) (c : Nat) : isSvc (taken i s) c = isSvc s c := by simp [isSvc]

@[simp] theorem inPart_taken (i : Instr) (s : State) (v c : Nat) : inPart (taken i s) v c = inPart s v c := by
  simp [inPart, inHalves, getFn]

/-! Remote destinations (R27, R71). -/

/-- The checks of a handle do not depend on what the reads of the sources consume. -/
theorem remoteTarget_taken (i : Instr) (s : State) (x : Word) : remoteTarget (taken i s) x = remoteTarget s x := by
  simp [remoteTarget]

/-- A spoke that waits for nothing sends its message at once. -/
theorem sendReg_free {s : State} {c n v fc fn fv : Nat} {r : Fin 32} {x : Word} {late : Bool} (h : blocked (getSp s fc fn fv) = false) :
    sendReg s c n v r x fc fn fv late = sendMsg s ⟨0, c, n, r.val, false, fc, fn, v, x, (getSp s fc fn fv).ltag⟩ := by
  unfold sendReg
  exact if_neg (by simp [h])

@[simp] theorem curSp_sendMsg (s : State) (m : Msg) : curSp (sendMsg s m) = curSp s := rfl

/-- A scalar ALU instruction delivers its value: to the register, or to the spoke of the handle (R27, R71). -/
theorem delivers_aluEnd {i : Instr} {s : State} {d : Dst} {f : State → Word} {x : Word} (h : Ready i s) (hx : exec i s = alu i d f s)
    (hv : f (taken i s) = x) : Delivers i s d x := by
  cases d with
  | loc r => exact writes_doneG h hx (by rw [hv]; rfl)
  | remote r k =>
    have hb : aluEnd (taken i s) (.remote r k) (f (taken i s)) = match remoteTarget s (src s k) with
        | .error f => .err f 0 0
        | .ok (c, n, v) => .done (sendReg (taken i s) c n v r x s.cur.core s.cur.sp s.cur.vf s.cur.late) := by
      rw [hv]
      unfold aluEnd
      simp only [src_taken, remoteTarget_taken, taken_cur]
      rfl
    show Sends i s r k x
    unfold Sends
    cases ht : remoteTarget s (src s k) with
    | error f => exact traps_err h hx (by rw [hb, ht])
    | ok y =>
      refine completes_done h hx (by rw [hb, ht]) ?_
      rcases h.window with hw | ⟨-, hfree⟩
      · exact .inl hw
      · right
        have hcalm : blocked (curSp (taken i s)) = false := by rw [blocked_taken, hfree]
        rw [sendReg_free (by simpa [curSp] using hcalm)]
        exact hcalm

/-! The tables of group 000. -/

/-- A row of a table of group 000: the instruction ends as `en` says, with the value of the row. -/
def AluRow (en : State → Dst → Word → Ending) (s : State) (d : Dst) (p : Instr × Word) : Prop :=
  ∃ f : State → Word, exec p.1 s = .next (issue p.1 s fun t => en t d (f t)) ∧ f (taken p.1 s) = p.2

/-- The two forms of an operation are rows of the table where the operation is the model's. -/
theorem aluRow_forms {en : State → Dst → Word → Ending} {s : State} {d : Dst} {rrr rri : Instr} {a b : Src} {m : BitVec 48} {f : Word → Word}
    (op : Word → Word → Word) (h1 : exec rrr s = .next (issue rrr s fun t => en t d (op (src t a) (src t b))))
    (h2 : exec rri s = .next (issue rri s fun t => en t d (op (src t a) (imm64 m)))) (hf : ∀ z, op (src s a) z = f z) :
    ∀ p ∈ forms rrr rri f (src s b) (m.signExtend 64), AluRow en s d p := by
  intro p hp
  rcases List.mem_cons.1 hp with rfl | hp
  · exact ⟨_, h1, by simp [hf]⟩
  · obtain rfl := List.mem_singleton.1 hp
    exact ⟨_, h2, by simp [hf, imm64]⟩

/-- The high half of a number of 128 bits, as signed numbers have it. -/
theorem ofInt_high (y : BitVec 128) : BitVec.ofInt 64 (y.toInt / 2 ^ 64) = y.extractLsb' 64 64 := by
  refine BitVec.eq_of_toNat_eq ?_
  have hy := y.isLt
  rw [BitVec.toNat_ofInt, BitVec.extractLsb'_toNat, Nat.shiftRight_eq_div_pow, BitVec.toInt_eq_toNat_cond]
  split <;> omega

/-- A product of 64-bit signed numbers is a 128-bit signed number. -/
theorem toInt_mul_wide (x z : Word) : (x.signExtend 128 * z.signExtend 128).toInt = x.toInt * z.toInt := by
  have hbound (y : Word) : |y.toInt| ≤ 2 ^ 63 := by
    have h1 := BitVec.le_toInt y
    have h2 := BitVec.toInt_lt (x := y)
    exact abs_le.2 ⟨by simpa using h1, by simpa using h2.le⟩
  have hprod : |x.toInt * z.toInt| ≤ 2 ^ 63 * 2 ^ 63 := by
    rw [abs_mul]
    exact mul_le_mul (hbound x) (hbound z) (abs_nonneg _) (by positivity)
  obtain ⟨hlo, hhi⟩ := abs_le.1 hprod
  rw [BitVec.toInt_mul, BitVec.toInt_signExtend_of_le (by decide), BitVec.toInt_signExtend_of_le (by decide)]
  exact Int.bmod_eq_of_le (by norm_num at hlo ⊢; omega) (by norm_num at hhi ⊢; omega)

/-- The high half of a product, of unsigned or of signed factors (R380). -/
theorem mulhVal_eq (u : Bool) (x z : Word) :
    mulhVal u x z = (let wide (y : Word) : BitVec 128 := if u then y.zeroExtend 128 else y.signExtend 128
      (wide x * wide z).extractLsb' 64 64) := by
  cases u with
  | true =>
    refine BitVec.eq_of_toNat_eq ?_
    have hlt : x.toNat * z.toNat < 2 ^ 128 :=
      calc x.toNat * z.toNat < 2 ^ 64 * 2 ^ 64 := Nat.mul_lt_mul'' x.isLt z.isLt
        _ = 2 ^ 128 := by norm_num
    have hwide (y : Word) : y.toNat % 2 ^ 128 = y.toNat := Nat.mod_eq_of_lt (y.isLt.trans (by decide))
    simp only [mulhVal, if_true, BitVec.extractLsb'_toNat, Nat.shiftRight_eq_div_pow, BitVec.toNat_mul, BitVec.toNat_ofNat,
      BitVec.truncate_eq_setWidth, BitVec.toNat_setWidth, hwide, Nat.mod_eq_of_lt hlt]
  | false => exact (congrArg (fun y => BitVec.ofInt 64 (y / 2 ^ 64)) (toInt_mul_wide x z)).symm.trans (ofInt_high _)

/-- One word is below another exactly where the other is not at most it, unsigned or signed. -/
theorem below_eq_not_le (u : Bool) (x z : Word) :
    (if u then z.ult x else z.slt x) = !(if u then decide (x.toNat ≤ z.toNat) else decide (x.toInt ≤ z.toInt)) := by
  cases u <;> simp [BitVec.ult, BitVec.slt, ← decide_not]

/-- MIN takes its first operand where that is at most the second (R372). -/
theorem minVal_eq (u : Bool) (x z : Word) :
    minVal u x z = if (if u then decide (x.toNat ≤ z.toNat) else decide (x.toInt ≤ z.toInt)) then x else z := by
  unfold minVal
  rw [below_eq_not_le]
  simp only [Bool.not_eq_true', ← Bool.not_eq_true, ite_not]

/-- MAX takes its first operand where the second is at most it (R372). -/
theorem maxVal_eq (u : Bool) (x z : Word) :
    maxVal u x z = if (if u then decide (z.toNat ≤ x.toNat) else decide (z.toInt ≤ x.toInt)) then x else z := by
  unfold maxVal
  rw [below_eq_not_le]
  simp only [Bool.not_eq_true', ← Bool.not_eq_true, ite_not]

/-- CMP answers whether its condition holds (R341). -/
theorem cmpVal_eq (c : CmpCond) (x z : Word) :
    cmpVal c x z = if (match c with
      | .eq => decide (x = z) | .ne => decide (x ≠ z) | .lt => decide (x.toInt < z.toInt) | .le => decide (x.toInt ≤ z.toInt)
      | .ge => decide (z.toInt ≤ x.toInt) | .ltu => decide (x.toNat < z.toNat) | .leu => decide (x.toNat ≤ z.toNat)) then 1 else 0 := by
  cases c <;> simp [cmpVal, cmpHolds, BitVec.slt, BitVec.sle, BitVec.ult, BitVec.ule]

/-- The arithmetic and the logic of group 000 are rows. -/
theorem arith_rows (s : State) (d : Dst) (a b : Src) (m : BitVec 48) (u : Bool) (c : CmpCond) :
    ∀ p ∈ arithTable s d a b m u c ++ logicTable s d a b m, AluRow aluEnd s d p := by
  simp only [arithTable, logicTable, List.forall_mem_append]
  refine ⟨⟨⟨⟨⟨⟨⟨?_, ?_⟩, ?_⟩, ?_⟩, ?_⟩, ?_⟩, ?_⟩, ⟨⟨⟨⟨⟨⟨?_, ?_⟩, ?_⟩, ?_⟩, ?_⟩, ?_⟩, ?_⟩, ?_⟩
  · exact aluRow_forms (· + ·) rfl rfl fun _ => rfl
  · exact aluRow_forms (· - ·) rfl rfl fun _ => rfl
  · exact aluRow_forms (· * ·) rfl rfl fun _ => rfl
  · exact aluRow_forms (mulhVal u) rfl rfl (mulhVal_eq u _)
  · exact aluRow_forms (minVal u) rfl rfl (minVal_eq u _)
  · exact aluRow_forms (maxVal u) rfl rfl (maxVal_eq u _)
  · exact aluRow_forms (cmpVal c) rfl rfl (cmpVal_eq c _)
  · exact aluRow_forms (· &&& ·) rfl rfl fun _ => rfl
  · exact aluRow_forms (· ||| ·) rfl rfl fun _ => rfl
  · exact aluRow_forms (· ^^^ ·) rfl rfl fun _ => rfl
  · exact aluRow_forms (fun x z => x &&& ~~~z) rfl rfl fun _ => rfl
  · exact aluRow_forms shlVal rfl rfl fun _ => rfl
  · exact aluRow_forms shrVal rfl rfl fun _ => rfl
  · exact aluRow_forms sraVal rfl rfl fun _ => rfl
  · exact aluRow_forms rotVal rfl rfl fun _ => rfl

/-- The quotient towards zero (R351). -/
theorem divVal_eq (u : Bool) (x z : Word) :
    divVal u x z = if z = 0 then BitVec.allOnes 64 else if u then x / z else x.sdiv z := by
  unfold divVal
  by_cases hz : z = 0
  · rw [if_pos hz, if_pos hz]
  · rw [if_neg hz, if_neg hz]
    cases u with
    | true =>
      show BitVec.ofNat 64 (x.toNat / z.toNat) = x / z
      rw [← BitVec.toNat_udiv, BitVec.ofNat_toNat, BitVec.setWidth_eq]
    | false => exact BitVec.eq_of_toInt_eq ((BitVec.toInt_ofInt ..).trans (BitVec.toInt_sdiv ..).symm)

/-- The remainder (R389). -/
theorem remVal_eq (u : Bool) (x z : Word) : remVal u x z = if z = 0 then x else if u then x % z else x.srem z := by
  unfold remVal
  by_cases hz : z = 0
  · rw [if_pos hz, if_pos hz]
  · rw [if_neg hz, if_neg hz]
    cases u with
    | true =>
      show BitVec.ofNat 64 (x.toNat % z.toNat) = x % z
      rw [← BitVec.toNat_umod, BitVec.ofNat_toNat, BitVec.setWidth_eq]
    | false =>
      show BitVec.ofInt 64 (x.toInt.tmod z.toInt) = x.srem z
      rw [← BitVec.toInt_srem, BitVec.ofInt_toInt]

/-- The divisions of group 000 are rows that end in the start of a division. -/
theorem div_rows (s : State) (d : Dst) (a b : Src) (m : BitVec 48) (u : Bool) : ∀ p ∈ divTable s d a b m u, AluRow divStart s d p := by
  simp only [divTable, List.forall_mem_append]
  refine ⟨?_, ?_⟩
  · exact aluRow_forms (divVal u) rfl rfl (divVal_eq u _)
  · exact aluRow_forms (remVal u) rfl rfl (remVal_eq u _)

end Sys2Proof
end

section
/-! Moves, bit fields and counts, remote results, divisions (R17, R27, R71, R334, R340, R351, R364, R367, R379, R385, R389, R393, R395). -/

namespace Sys2Proof

open Machine

/-! Moves. -/

/-- LIH puts its immediate on top of the low 48 bits (R367). -/
theorem lihVal_eq (x : Word) (n : BitVec 16) : lihVal x n = n ++ x.extractLsb' 0 48 := by
  refine BitVec.eq_of_toNat_eq ?_
  have hn := n.isLt
  have hlow : x.toNat % 2 ^ 48 < 2 ^ 48 := Nat.mod_lt _ (by positivity)
  rw [BitVec.toNat_append, ← Nat.shiftLeft_add_eq_or_of_lt (BitVec.isLt _), lihVal, BitVec.toNat_ofNat, BitVec.extractLsb'_toNat,
    Nat.shiftRight_zero, Nat.shiftLeft_eq]
  omega

/-- The moves of group 000 are rows. -/
theorem move_rows (s : State) (d : Dst) (a : Src) (m : BitVec 48) (n : BitVec 16) : ∀ p ∈ moveTable s d a m n, AluRow aluEnd s d p := by
  simp only [moveTable, List.forall_mem_cons, List.not_mem_nil, false_implies, implies_true, and_true]
  refine ⟨?_, ?_, ?_, ?_, ?_⟩
  · exact ⟨_, rfl, src_taken ..⟩
  · exact ⟨_, rfl, rfl⟩
  · exact ⟨fun t => lihVal (src t a) n, rfl, by simp [lihVal_eq]⟩
  · exact ⟨fun t => leaVal t (some a) m, rfl, by simp [leaVal, imm64]⟩
  · exact ⟨fun t => leaVal t none m, rfl, by simp [leaVal, imm64, lineOf]⟩

/-- Settles O18: a row of the table of moves delivers its value, and SEL writes the one it selects. -/
theorem moveResults : Obligations.MoveResults := by
  unfold Obligations.MoveResults
  refine fun s d r a b c m n => ⟨fun p hp h => ?_, fun h => ?_⟩
  · obtain ⟨f, hx, hv⟩ := move_rows s d a m n p hp
    exact delivers_aluEnd h hx hv
  · refine writes_doneG h (body := fun t => doneG t r (if src t a ≠ 0 then src t b else src t c)) rfl ?_
    simp only [src_taken, ne_eq, ite_not]

/-! Bit fields (R334, R395). -/

theorem getLsbD_ofNat64 (x : Nat) {k : Nat} (hk : k < 64) : (BitVec.ofNat 64 x).getLsbD k = x.testBit k := by
  rw [BitVec.getLsbD_ofNat]
  simp [hk]

/-- A bit of a field is the bit of the word at its place. -/
theorem testBit_fieldN (x : Word) (lo w k : Nat) : (fieldN x lo w).testBit k = (decide (k < w) && x.getLsbD (lo + k)) := by
  unfold fieldN bitsN
  rw [Nat.testBit_mod_two_pow, Nat.testBit_div_two_pow, Nat.add_comm k lo]
  rfl

/-- Where a field of a number is replaced, every other bit stays. -/
theorem testBit_replace (x y lo w k : Nat) (hy : y < 2 ^ w) :
    (x - bitsN x lo w * 2 ^ lo + y * 2 ^ lo).testBit k = if lo ≤ k ∧ k < lo + w then y.testBit (k - lo) else x.testBit k := by
  have hsplit : x = x / 2 ^ (lo + w) * 2 ^ (lo + w) + bitsN x lo w * 2 ^ lo + x % 2 ^ lo := by
    have h1 := Nat.div_add_mod x (2 ^ lo)
    have h2 := Nat.div_add_mod (x / 2 ^ lo) (2 ^ w)
    rw [Nat.div_div_eq_div_mul, ← pow_add] at h2
    unfold bitsN
    calc x = 2 ^ lo * (x / 2 ^ lo) + x % 2 ^ lo := h1.symm
      _ = 2 ^ lo * (2 ^ w * (x / 2 ^ (lo + w)) + x / 2 ^ lo % 2 ^ w) + x % 2 ^ lo := by rw [h2]
      _ = _ := by rw [pow_add]; ring
  have hlow : x % 2 ^ lo < 2 ^ lo := Nat.mod_lt _ (by positivity)
  have hval : x - bitsN x lo w * 2 ^ lo + y * 2 ^ lo = 2 ^ lo * (2 ^ w * (x / 2 ^ (lo + w)) + y) + x % 2 ^ lo := by
    have hring : 2 ^ lo * (2 ^ w * (x / 2 ^ (lo + w)) + y) = x / 2 ^ (lo + w) * 2 ^ (lo + w) + y * 2 ^ lo := by rw [pow_add]; ring
    rw [hring]
    omega
  rw [hval, Nat.testBit_two_pow_mul_add _ hlow]
  by_cases h1 : k < lo
  · rw [if_pos h1, if_neg (by omega), Nat.testBit_mod_two_pow]
    simp [h1]
  · rw [if_neg h1, Nat.testBit_two_pow_mul_add _ hy]
    by_cases h2 : k - lo < w
    · rw [if_pos h2, if_pos (by omega)]
    · rw [if_neg h2, if_neg (by omega), Nat.testBit_div_two_pow]
      congr 1
      omega

/-- Sign extension repeats the top bit of the field (R395). -/
theorem getLsbD_sextVal (x : Word) {w : BitVec 7} (h0 : w.toNat ≠ 0) (h64 : w.toNat ≤ 64) {k : Nat} (hk : k < 64) :
    (sextVal x w).getLsbD k = x.getLsbD (min k (w.toNat - 1)) := by
  rw [sextVal, sext64_eq, BitVec.getLsbD_signExtend]
  by_cases h : k < w.toNat
  · rw [if_pos h, Nat.min_eq_left (by omega)]
    simp [h, hk]
  · rw [if_neg h, Nat.min_eq_right (by omega), BitVec.msb_eq_getLsbD_last]
    simp [hk, Nat.pos_of_ne_zero h0]

/-! Bit counts (R340, R385). -/

/-- The zeros above the top bit of a word. -/
theorem clz_spec (x : Word) : ∃ n ≤ 64, clzVal x = BitVec.ofNat 64 n ∧ x.toNat < 2 ^ (64 - n) ∧ (n < 64 → 2 ^ (63 - n) ≤ x.toNat) := by
  unfold clzVal
  by_cases h : x.toNat = 0
  · rw [if_pos h, h]
    exact ⟨64, le_rfl, rfl, by decide, fun k => absurd k (by decide)⟩
  · rw [if_neg h]
    have hlt : Nat.log2 x.toNat < 64 := (Nat.log2_lt h).2 x.isLt
    refine ⟨63 - Nat.log2 x.toNat, by omega, rfl, ?_, fun _ => ?_⟩
    · rw [show 64 - (63 - Nat.log2 x.toNat) = Nat.log2 x.toNat + 1 by omega]
      exact Nat.lt_log2_self
    · rw [show 63 - (63 - Nat.log2 x.toNat) = Nat.log2 x.toNat by omega]
      exact Nat.log2_self_le h

/-- A number whose low bits are all clear is a multiple of their power. -/
theorem mod_two_pow_of_bits {x n : Nat} (h : ∀ j < n, x.testBit j = false) : x % 2 ^ n = 0 := by
  refine Nat.eq_of_testBit_eq fun j => ?_
  rw [Nat.testBit_mod_two_pow, Nat.zero_testBit]
  by_cases hj : j < n
  · rw [h j hj, Bool.and_false]
  · simp [hj]

theorem bitN_eq_testBit {w : Nat} (x : BitVec w) (i : Nat) : bitN x i = x.toNat.testBit i := by
  rw [bitN, Nat.testBit_eq_decide_div_mod_eq]
  rfl

/-- The zeros below the lowest bit of a word. -/
theorem ctz_spec (x : Word) :
    ∃ n ≤ 64, ctzVal x = BitVec.ofNat 64 n ∧ x.toNat % 2 ^ n = 0 ∧ (n < 64 → x.toNat / 2 ^ n % 2 = 1) := by
  unfold ctzVal
  cases hf : (List.range 64).find? (bitN x ·) with
  | none =>
    refine ⟨64, le_rfl, rfl, mod_two_pow_of_bits fun j hj => ?_, fun k => absurd k (by decide)⟩
    simpa [bitN_eq_testBit] using List.find?_eq_none.1 hf j (List.mem_range.2 hj)
  | some n =>
    obtain ⟨hbit, hn, hlow⟩ := List.find?_range_eq_some.1 hf
    refine ⟨n, by simpa using (List.mem_range.1 hn).le, rfl, mod_two_pow_of_bits fun j hj => ?_, fun _ => by simpa [bitN] using hbit⟩
    simpa [bitN_eq_testBit] using hlow j hj

/-- The count of the set bits of a number goes through its bits from the lowest. -/
theorem popCount_eq_countP (n x : Nat) : popCount n x = (List.range n).countP fun k => x.testBit k := by
  induction n generalizing x with
  | zero => rfl
  | succ n ih =>
    rw [popCount, ih, List.range_succ_eq_map, List.countP_cons, List.countP_map]
    have htail : (fun k => x.testBit k) ∘ Nat.succ = fun k => (x / 2).testBit k := funext fun k => Nat.testBit_succ x k
    rw [htail, Nat.testBit_zero]
    rcases Nat.mod_two_eq_zero_or_one x with h | h <;> simp [h, Nat.add_comm]

/-- Settles O19: each instruction delivers its model value, whose bits or count the lemmas above give. -/
theorem fieldAndCountResults : Obligations.FieldAndCountResults := by
  unfold Obligations.FieldAndCountResults
  refine ⟨fun s d a b lo w => ⟨fun h => ?_, fun h => ?_, fun h => ?_⟩, fun s d a => ⟨fun h => ?_, fun h => ?_, fun h => ?_⟩⟩
  · refine ⟨bfxVal (src s a) lo w, delivers_aluEnd h (f := fun t => bfxVal (src t a) lo w) rfl (by simp), fun k hk => ?_⟩
    rw [bfxVal, getLsbD_ofNat64 _ hk, testBit_fieldN]
  · refine ⟨bfiVal (src s a) (src s b) lo w, delivers_aluEnd h (f := fun t => bfiVal (src t a) (src t b) lo w) rfl (by simp), fun k hk => ?_⟩
    have hlow : fieldN (src s a) 0 w.toNat < 2 ^ w.toNat := Nat.mod_lt _ (by positivity)
    rw [bfiVal, getLsbD_ofNat64 _ hk]
    refine (testBit_replace _ _ lo.toNat w.toNat k hlow).trans ?_
    by_cases hin : lo.toNat ≤ k ∧ k < lo.toNat + w.toNat
    · have hk' : k - lo.toNat < w.toNat := by omega
      rw [if_pos hin, if_pos hin, testBit_fieldN, Nat.zero_add, decide_eq_true hk', Bool.true_and]
    · rw [if_neg hin, if_neg hin]
      rfl
  · have hw := wordFault_wf h.word
    refine ⟨sextVal (src s a) w, delivers_aluEnd h (f := fun t => sextVal (src t a) w) rfl (by simp), fun k hk => ?_⟩
    simp only [Instr.wf, Bool.and_eq_true, bne_iff_ne, decide_eq_true_eq] at hw
    exact getLsbD_sextVal _ hw.1 hw.2 hk
  · obtain ⟨n, hn, hv, hspec⟩ := clz_spec (src s a)
    exact ⟨n, hn, delivers_aluEnd h (f := fun t => clzVal (src t a)) rfl (by simpa using hv), hspec⟩
  · obtain ⟨n, hn, hv, hspec⟩ := ctz_spec (src s a)
    exact ⟨n, hn, delivers_aluEnd h (f := fun t => ctzVal (src t a)) rfl (by simpa using hv), hspec⟩
  · exact delivers_aluEnd h (f := fun t => popcVal (src t a)) rfl (by rw [src_taken, popcVal, popCount_eq_countP]; rfl)

end Sys2Proof
end

section
/-! Remote results and divisions (R17, R27, R67, R71, R137, R351, R389). -/

namespace Sys2Proof

open Machine

/-- A handle that fails its checks traps a division too (R27, R351). -/
theorem traps_divStart {i : Instr} {s : State} {r : Fin 32} {k : Src} {x : Word} {f : FaultCode} (h : Ready i s)
    (hrow : AluRow divStart s (.remote r k) (i, x)) (ht : remoteTarget s (src s k) = .error f) : Traps i s f 0 0 := by
  obtain ⟨g, hx, -⟩ := hrow
  refine traps_err h hx ?_
  show divStart _ _ _ = _
  unfold divStart
  simp only [src_taken, remoteTarget_taken, ht]
  rfl

/-- The checks of a handle, one by one (R27). -/
theorem remoteTarget_checks (s : State) (x : Word) :
    let svc := isSvc s s.cur.core
    let core := fieldN x 0 16
    let v := if svc then fieldN x 20 6 else s.cur.vf
    let bad := fieldN x 26 38 ≠ 0 ∨ (svc = false ∧ fieldN x 20 6 ≠ 0) ∨ (svc = true ∧ fieldN x 20 6 = 0) ∨ 6143 < core
    let denied := (fieldN x 16 4 = 0 ∧ (curSp s).dom ≠ kernelDom) ∨ (inPart s v core = false ∧ isSvc s core = false)
    (bad → remoteTarget s x = .error .illegalField) ∧ (¬ bad → denied → remoteTarget s x = .error .domainWrite)
      ∧ (¬ bad → ¬ denied → remoteTarget s x = .ok (core, fieldN x 16 4, v)) := by
  intro svc core v bad denied
  have hbad : (fieldN x 26 38 ≠ 0 ∨ (fieldN x 20 6 ≠ 0 ∧ ¬ svc) ∨ (fieldN x 20 6 = 0 ∧ svc) ∨ core > 6143) ↔ bad := by
    simp only [bad, Bool.not_eq_true, and_comm, gt_iff_lt]
  have hpart : (¬ inPart s v core ∧ ¬ isSvc s core) ↔ (inPart s v core = false ∧ isSvc s core = false) := by simp only [Bool.not_eq_true]
  refine ⟨fun hb => if_pos (hbad.2 hb), fun hb hd => (if_neg (mt hbad.1 hb)).trans ?_, fun hb hd => (if_neg (mt hbad.1 hb)).trans ?_⟩
  · by_cases hhub : fieldN x 16 4 = 0 ∧ (curSp s).dom ≠ kernelDom
    · exact if_pos hhub
    · exact (if_neg hhub).trans (if_pos (hpart.2 (hd.resolve_left hhub)))
  · obtain ⟨hhub, hin⟩ := not_or.1 hd
    exact (if_neg hhub).trans (if_neg (mt hpart.1 hin))

/-- Settles O20: the rows deliver to a remote destination as `Sends` says, and the checks of a handle are tried in their order. -/
theorem remoteResults : Obligations.RemoteResults := by
  unfold Obligations.RemoteResults
  intro s r h a b m u c
  refine ⟨fun p hp hr => ?_, fun p hp hr f hf => traps_divStart hr (div_rows s _ a b m u p hp) hf, ?_⟩
  · obtain ⟨f, hx, hv⟩ := arith_rows s (.remote r h) a b m u c p hp
    exact delivers_aluEnd hr hx hv
  · exact remoteTarget_checks s (src s h)

/-! Divisions. -/

/-- What a division that issues leaves with its spoke: a result owed to the register, or to the spoke of the handle (R17). -/
theorem completes_divStart {i : Instr} {s : State} {d : Dst} {r : Fin 32} {k : Option (Nat × Nat × Nat)} {x : Word} (h : Ready i s)
    (hw : (curSp s).win = []) (hrow : AluRow divStart s d (i, x))
    (hd : divStart (taken i s) d x = doneP (taken i s) fun q => { q with divs := q.divs ++ [⟨r, k, x, s.cur.late⟩] }) :
    CompletesWith i s fun q => { q with divs := q.divs ++ [⟨r, k, x, s.cur.late⟩] } := by
  obtain ⟨g, hx, hv⟩ := hrow
  exact completes_done h hx (by rw [hv]; exact hd) (.inl hw)

/-- A stop that takes effect keeps the rest of the spoke. -/
theorem getSp_tryStop (s : State) (c n v : Nat) :
    ∃ x b, getSp (tryStop s c n v) c n v = { getSp s c n v with ctx := x, stopReq := b } := by
  rcases tryStop_cases s c n v with h | h <;> rw [h]
  · exact ⟨_, _, rfl⟩
  · exact ⟨_, _, getSp_modSp ..⟩

@[simp] theorem tryStop_mesh (s : State) (c n v : Nat) : (tryStop s c n v).mesh = s.mesh := by
  rcases tryStop_cases s c n v with h | h <;> simp [h]

theorem sendMsg_sameMem (s : State) (m : Msg) : SameMem s (sendMsg s m) := fun _ => rfl

@[simp] theorem getSp_sendMsg (s : State) (m : Msg) (c n v : Nat) : getSp (sendMsg s m) c n v = getSp s c n v := rfl

/-- A register message goes into the mesh, or is held with its spoke behind the first of a pair (R137). -/
theorem sendReg_cases (s : State) (c n v : Nat) (r : Fin 32) (x : Word) (fc fn fv : Nat) (late : Bool) :
    let m : Msg := ⟨0, c, n, r.val, false, fc, fn, v, x, (getSp s fc fn fv).ltag⟩
    let held := late && blocked (getSp s fc fn fv)
    (held = false ∧ sendReg s c n v r x fc fn fv late = sendMsg s m)
      ∨ (held = true ∧ sendReg s c n v r x fc fn fv late = modSp s fc fn fv fun p => { p with sends := p.sends ++ [m] }) := by
  intro m held
  cases h : held with
  | false => exact .inl ⟨rfl, if_neg (by simpa [held] using h)⟩
  | true => exact .inr ⟨rfl, if_pos h⟩

/-- The end of a division. -/
theorem exec_divideEnd {s : State} {core sp : Nat} {x : DivPend} {l : List DivPend} (h : (getSp s core sp (vfOf s core)).divs = x :: l) :
    exec (.divideEnd core sp) s = .next (tryStop (divWrite (modSp s core sp (vfOf s core) fun p => { p with divs := l }) core sp (vfOf s core) x)
      core sp (vfOf s core)) := by
  show execDivideEnd core sp s = _
  unfold execDivideEnd
  dsimp only
  rw [h]

/-- A local division at its end fills its register and no other. -/
theorem getSp_divWrite_local (s : State) (c n v : Nat) (d : Fin 32) (x : Word) (late : Bool) :
    getSp (divWrite s c n v ⟨d, none, x, late⟩) c n v = (getSp s c n v).wrG d x := getSp_modSp ..

theorem divWrite_sameMem (s : State) (c n v : Nat) (x : DivPend) : SameMem s (divWrite s c n v x) := by
  obtain ⟨d, remote, y, late⟩ := x
  cases remote with
  | none => exact modSp_sameMem s c n v _
  | some k =>
    obtain ⟨rc, rn, rv⟩ := k
    show SameMem s (sendReg s rc rn rv d y c n v late)
    rcases sendReg_cases s rc rn rv d y c n v late with ⟨-, h⟩ | ⟨-, h⟩ <;> rw [h]
    · exact sendMsg_sameMem s _
    · exact modSp_sameMem s c n v _

/-- Settles O21: a row of the table of divisions leaves its result owed, and DIVIDE_END writes it, sends it or holds it. -/
theorem divisions : Obligations.Divisions := by
  unfold Obligations.Divisions
  constructor
  · refine fun s r h a b m u hw => ⟨fun p hp hr => ?_, fun p hp hr k hk => ?_⟩
    · exact completes_divStart hr hw (div_rows s (.loc r) a b m u p hp) (by simp [divStart])
    · exact completes_divStart hr hw (div_rows s (.remote r h) a b m u p hp) (by simp [divStart, remoteTarget_taken, hk])
  intro s core sp x l p hp
  let v := vfOf s core
  let u := modSp s core sp v fun q => { q with divs := l }
  have hu : getSp u core sp v = { p with divs := l } := getSp_modSp ..
  obtain ⟨y, z, hstop⟩ := getSp_tryStop (divWrite u core sp v x) core sp v
  have hmem : SameMem s (tryStop (divWrite u core sp v x) core sp v) :=
    ((modSp_sameMem s core sp v _).trans (divWrite_sameMem u core sp v x)).trans (tryStop_sameMem _ core sp v)
  obtain ⟨d, remote, val, late⟩ := x
  cases remote with
  | none =>
    rw [getSp_divWrite_local, hu] at hstop
    refine ⟨_, exec_divideEnd hp, ?_, hmem, fun r => ?_⟩
    · exact (congrArg Spoke.divs hstop).trans (wrG_calm ..).2.1
    · exact (congrArg (Spoke.rdG · r) hstop).trans (rdG_wrG { p with divs := l } d r val)
  | some k =>
    obtain ⟨c, n, w⟩ := k
    rcases sendReg_cases u c n w d val core sp v late with ⟨hheld, h⟩ | ⟨hheld, h⟩
    all_goals have hd := congrArg (getSp · core sp v) h
    · rw [getSp_sendMsg, hu] at hd
      rw [show getSp (divWrite u core sp v ⟨d, some (c, n, w), val, late⟩) core sp v = _ from hd] at hstop
      rw [hu] at hheld
      refine ⟨_, exec_divideEnd hp, congrArg Spoke.divs hstop, hmem, fun _ => ?_, fun hh => ?_, (congrArg Spoke.g hstop :)⟩
      · rw [tryStop_mesh]
        refine (congrArg State.mesh h).trans ?_
        rw [hu]
        simp [sendMsg, u]
      · exact absurd (hheld.symm.trans hh) (by decide)
    · rw [getSp_modSp, hu] at hd
      rw [show getSp (divWrite u core sp v ⟨d, some (c, n, w), val, late⟩) core sp v = _ from hd] at hstop
      rw [hu] at hheld
      refine ⟨_, exec_divideEnd hp, congrArg Spoke.divs hstop, hmem, fun hh => ?_, fun _ => ⟨?_, (congrArg Spoke.sends hstop :)⟩,
        (congrArg Spoke.g hstop :)⟩
      · exact absurd (hheld.symm.trans hh) (by decide)
      · rw [tryStop_mesh]
        refine (congrArg State.mesh h).trans ?_
        simp [u]

end Sys2Proof
end

section
/-! Frames of the spokes: what an operation makes of every spoke, wherever it stands. -/

namespace Sys2Proof

open Machine

/-- An operation has left what is issuing, the VF of every core, and every spoke in a relation to what it was. -/
structure SpFrame (R : Spoke → Spoke → Prop) (s t : State) : Prop where
  cur : t.cur = s.cur
  vf : ∀ c, vfOf t c = vfOf s c
  sp : ∀ c n v, R (getSp s c n v) (getSp t c n v)

namespace SpFrame

variable {R : Spoke → Spoke → Prop} {s t u : State}

theorem refl (hr : ∀ p, R p p) (s : State) : SpFrame R s s := ⟨rfl, fun _ => rfl, fun _ _ _ => hr _⟩

theorem trans (hr : ∀ {p q r}, R p q → R q r → R p r) (h : SpFrame R s t) (k : SpFrame R t u) : SpFrame R s u :=
  ⟨k.cur.trans h.cur, fun c => (k.vf c).trans (h.vf c), fun c n v => hr (h.sp c n v) (k.sp c n v)⟩

theorem mono {Q : Spoke → Spoke → Prop} (h : SpFrame R s t) (hq : ∀ p q, R p q → Q p q) : SpFrame Q s t :=
  ⟨h.cur, h.vf, fun c n v => hq _ _ (h.sp c n v)⟩

theorem foldl {β : Type} (hr : ∀ p, R p p) (ht : ∀ {p q r}, R p q → R q r → R p r) {f : State → β → State} (l : List β)
    (hf : ∀ s x, SpFrame R s (f s x)) (s : State) : SpFrame R s (l.foldl f s) := by
  induction l generalizing s with
  | nil => exact refl hr s
  | cons x l ih => exact (hf s x).trans ht (ih _)

end SpFrame

/-- Every spoke as it was. -/
abbrev SpKept : State → State → Prop := SpFrame Eq

theorem SpKept.trans {s t u : State} (h : SpKept s t) (k : SpKept t u) : SpKept s u := SpFrame.trans Eq.trans h k

theorem SpKept.foldl {β : Type} {f : State → β → State} (l : List β) (hf : ∀ s x, SpKept s (f s x)) (s : State) : SpKept s (l.foldl f s) :=
  SpFrame.foldl (fun _ => rfl) Eq.trans l hf s

theorem SpKept.getSp {s t : State} (h : SpKept s t) (c n v : Nat) : getSp t c n v = Machine.getSp s c n v := (h.sp c n v).symm

/-- A state with the same cores, contexts and residents. -/
theorem spKept_of_fields {s t : State} (h1 : t.cores = s.cores) (h2 : t.saved = s.saved) (h3 : t.halves = s.halves) (h4 : t.ctrl = s.ctrl)
    (h5 : t.cur = s.cur) : SpKept s t := ⟨h5, fun c => by unfold vfOf isSvc getHalf; rw [h3, h4], fun c n v => (getSp_of_fields h1 h2 h3 h4 c n v).symm⟩

theorem getCtx_live {s : State} {c v : Nat} (h : vfOf s c = v) : getCtx s c v = (getCore s c).ctx := if_pos h

theorem getCtx_saved {s : State} {c v : Nat} (h : vfOf s c ≠ v) : getCtx s c v = mget CoreCtx.reset s.saved (v * 65536 + c) := if_neg h

/-- A context that is written is read at its own place or at one that names the same. -/
theorem getCtx_setCtx_cases (s : State) (c v d w : Nat) (x : CoreCtx) :
    getCtx (setCtx s c v x) d w = x ∧ getCtx s d w = getCtx s c v ∨ getCtx (setCtx s c v x) d w = getCtx s d w := by
  by_cases hv : vfOf s c = v
  · rw [show setCtx s c v x = setCore s c { getCore s c with ctx := x } from if_pos hv]
    by_cases hw : vfOf s d = w
    · rw [getCtx_live (s := setCore s c _) hw, getCtx_live hw, getCtx_live hv]
      by_cases hc : c = d
      · subst hc
        exact .inl ⟨by rw [getCore_setCore], rfl⟩
      · exact .inr (by rw [getCore_setCore_ne s _ hc])
    · exact .inr (by rw [getCtx_saved (s := setCore s c _) hw, getCtx_saved hw]; rfl)
  · rw [show setCtx s c v x = { s with saved := mset s.saved (v * 65536 + c) x } from if_neg hv]
    by_cases hw : vfOf s d = w
    · exact .inr ((getCtx_live hw : getCtx { s with saved := mset s.saved (v * 65536 + c) x } d w = (getCore s d).ctx).trans (getCtx_live hw).symm)
    · have hd : getCtx { s with saved := mset s.saved (v * 65536 + c) x } d w
          = mget CoreCtx.reset (mset s.saved (v * 65536 + c) x) (w * 65536 + d) := getCtx_saved hw
      rw [hd, getCtx_saved hw, getCtx_saved hv, mget_mset]
      by_cases hk : v * 65536 + c = w * 65536 + d
      · exact .inl ⟨if_pos hk, by rw [hk]⟩
      · exact .inr (if_neg hk)

theorem getSp_hub (s : State) (c v : Nat) : getSp s c 0 v = (getCore s c).hub := rfl

theorem getSp_ctx (s : State) {n : Nat} (c v : Nat) (h : n ≠ 0) : getSp s c n v = mget Spoke.reset (getCtx s c v).spokes n := if_neg h

/-- A spoke that is written is read at its own place or at one that names the same. -/
theorem getSp_setSp_cases (s : State) (c n v d m w : Nat) (x : Spoke) :
    getSp (setSp s c n v x) d m w = x ∧ getSp s d m w = getSp s c n v ∨ getSp (setSp s c n v x) d m w = getSp s d m w := by
  by_cases hn : n = 0
  · subst hn
    rw [show setSp s c 0 v x = setCore s c { getCore s c with hub := x } from rfl]
    by_cases hc : c = d
    · subst hc
      by_cases hm : m = 0
      · subst hm
        exact .inl ⟨by rw [getSp_hub, getCore_setCore], rfl⟩
      · right
        rw [getSp_ctx _ _ _ hm, getSp_ctx _ _ _ hm]
        unfold getCtx
        rw [getCore_setCore]
        rfl
    · right
      unfold getSp getCtx
      rw [getCore_setCore_ne s _ hc]
      rfl
  · rw [show setSp s c n v x = setCtx s c v { getCtx s c v with spokes := mset (getCtx s c v).spokes n x } from if_neg hn]
    by_cases hm : m = 0
    · subst hm
      exact .inr (by rw [getSp_hub, getSp_hub, hub_setCtx])
    · rw [getSp_ctx _ _ _ hm, getSp_ctx _ _ _ hm, getSp_ctx _ _ _ hn]
      rcases getCtx_setCtx_cases s c v d w { getCtx s c v with spokes := mset (getCtx s c v).spokes n x } with ⟨h, k⟩ | h
      · rw [h, k]
        dsimp only
        rw [mget_mset]
        by_cases e : n = m
        · exact .inl ⟨if_pos e, by rw [e]⟩
        · exact .inr (if_neg e)
      · exact .inr (by rw [h])

/-- An update of one spoke that keeps every spoke in a relation. -/
theorem spFrame_modSp {R : Spoke → Spoke → Prop} (hr : ∀ p, R p p) {f : Spoke → Spoke} (hf : ∀ p, R p (f p)) (s : State) (c n v : Nat) :
    SpFrame R s (modSp s c n v f) := by
  refine ⟨by simp, fun d => by simp [modSp], fun d m w => ?_⟩
  rcases getSp_setSp_cases s c n v d m w (f (getSp s c n v)) with ⟨h, k⟩ | h
  · rw [modSp, h, k]
    exact hf _
  · rw [modSp, h]
    exact hr _

/-- An update of a core that leaves its spokes. -/
theorem spKept_modCore {f : Core → Core} (hf : ∀ k, (f k).hub = k.hub ∧ (f k).ctx = k.ctx) (s : State) (c : Nat) : SpKept s (modCore s c f) := by
  obtain ⟨hh, hc⟩ := hf (getCore s c)
  have hcore (d : Nat) : (getCore (modCore s c f) d).hub = (getCore s d).hub ∧ (getCore (modCore s c f) d).ctx = (getCore s d).ctx := by
    by_cases e : c = d
    · subst e
      rw [modCore, getCore_setCore]
      exact ⟨hh, hc⟩
    · rw [modCore, getCore_setCore_ne s _ e]
      exact ⟨rfl, rfl⟩
  refine ⟨rfl, fun _ => rfl, fun d m w => ?_⟩
  have hctx : getCtx (modCore s c f) d w = getCtx s d w := by
    unfold getCtx
    rw [(hcore d).2]
    rfl
  unfold getSp
  rw [hctx, (hcore d).1]

/-- An update of a core's context that leaves its spokes. -/
theorem spKept_modCtx {f : CoreCtx → CoreCtx} (hf : ∀ x, (f x).spokes = x.spokes) (s : State) (c v : Nat) : SpKept s (modCtx s c v f) := by
  refine ⟨by simp, fun d => by simp [modCtx], fun d m w => ?_⟩
  have hspokes : (getCtx (modCtx s c v f) d w).spokes = (getCtx s d w).spokes := by
    rcases getCtx_setCtx_cases s c v d w (f (getCtx s c v)) with ⟨h, k⟩ | h
    · rw [modCtx, h, k, hf]
    · rw [modCtx, h]
  have hhub : (getCore (modCtx s c v f) d).hub = (getCore s d).hub := hub_setCtx ..
  unfold getSp
  rw [hspokes, hhub]

/-! Images, groups, fault slots. -/

theorem spKept_wrLoc (s : State) (l : Loc) (b : Byte) : SpKept s (wrLoc s l b) :=
  spKept_of_fields (by simp) (by simp) (by simp) (by simp) (by simp)

theorem spKept_imageWrite (s : State) (stamp off : Nat) (ps : List (Loc × Nat)) : SpKept s (imageWrite s stamp off ps) := by
  induction ps generalizing s off with
  | nil => exact SpFrame.refl (fun _ => rfl) s
  | cons p ps ih =>
    refine SpKept.trans (SpKept.foldl (List.range p.2) (f := fun s i => wrLoc s (p.1.plus i) (Config.imageByte stamp (off + i))) ?_ s) (ih _ _)
    exact fun s i => spKept_wrLoc s _ _

theorem spKept_setImage (s : State) (i : Nat) (x : Image) (p : Spoke) : SpKept s (setImage s i x p) := by
  unfold setImage
  split
  · exact SpFrame.refl (fun _ => rfl) s
  · split
    · refine SpKept.trans ?_ (spKept_imageWrite _ _ _ _)
      exact spKept_of_fields rfl rfl rfl rfl rfl
    · exact spKept_of_fields rfl rfl rfl rfl rfl

/-- A function applied to the spokes of a context. -/
def mapCtx (f : Spoke → Spoke) (x : CoreCtx) : CoreCtx := { x with spokes := x.spokes.map fun p => (p.1, f p.2) }

/-- A list mapped under its keys: what a key is read as. -/
theorem mget_map_key {α : Type} {d : α} {g : Nat → α → α} (hd : ∀ k, g k d = d) (m : List (Nat × α)) (k : Nat) :
    mget d (m.map fun p => (p.1, g p.1 p.2)) k = g k (mget d m k) := by
  induction m with
  | nil => exact (hd k).symm
  | cons p m ih =>
    rw [List.map_cons, mget, mget]
    dsimp only
    by_cases h : p.1 = k
    · rw [if_pos h, if_pos h, h]
    · rw [if_neg h, if_neg h, ih]

/-- A function applied to every spoke of a VF that is no image. -/
def mapLive (s : State) (v : Nat) (f : Spoke → Spoke) : State :=
  { s with
    cores := s.cores.map fun p => (p.1, if vfOf s p.1 = v then { p.2 with ctx := mapCtx f p.2.ctx } else p.2)
    saved := s.saved.map fun p => (p.1, if p.1 / 65536 = v then mapCtx f p.2 else p.2) }

/-- A function reaches every spoke of a VF: those in images, then the others. -/
theorem mapSpokes_eq (s : State) (v : Nat) (f : Spoke → Spoke) :
    mapSpokes s v f = mapLive (s.images.foldl (fun s p => if p.2.vf = v then setImage s p.1 p.2 (f p.2.sp) else s) s) v f := by
  have hpair {α : Type} (p : Nat × α) (b : Prop) [Decidable b] (x : α) : (if b then (p.1, x) else p) = (p.1, if b then x else p.2) := by
    split <;> rfl
  unfold mapSpokes mapLive
  simp only [hpair]
  rfl

theorem getCore_mapLive (s : State) (v : Nat) (f : Spoke → Spoke) (d : Nat) :
    getCore (mapLive s v f) d = if vfOf s d = v then { getCore s d with ctx := mapCtx f (getCore s d).ctx } else getCore s d :=
  mget_map_key (d := Core.reset) (g := fun c k => if vfOf s c = v then { k with ctx := mapCtx f k.ctx } else k) (fun c => by split <;> rfl) s.cores d

/-- A context after a function has been applied to the spokes of a VF. -/
theorem getCtx_mapLive (s : State) (v : Nat) (f : Spoke → Spoke) (d w : Nat) :
    getCtx (mapLive s v f) d w = if (if vfOf s d = w then w else (w * 65536 + d) / 65536) = v then mapCtx f (getCtx s d w) else getCtx s d w := by
  by_cases hw : vfOf s d = w
  · rw [getCtx_live (s := mapLive s v f) hw, getCtx_live hw, if_pos hw, getCore_mapLive, hw]
    split <;> rfl
  · rw [getCtx_saved (s := mapLive s v f) hw, getCtx_saved hw, if_neg hw]
    exact mget_map_key (g := fun k x => if k / 65536 = v then mapCtx f x else x) (fun c => by split <;> rfl) s.saved _

/-- A spoke after a function has been applied to those of a VF; the hub spokes are of no VF. -/
theorem getSp_mapLive {f : Spoke → Spoke} (hf : f Spoke.reset = Spoke.reset) (s : State) (v d m w : Nat) :
    getSp (mapLive s v f) d m w
      = if m ≠ 0 ∧ (if vfOf s d = w then w else (w * 65536 + d) / 65536) = v then f (getSp s d m w) else getSp s d m w := by
  by_cases hm : m = 0
  · subst hm
    rw [if_neg (fun h => h.1 rfl), getSp_hub, getSp_hub, getCore_mapLive]
    split <;> rfl
  · rw [getSp_ctx _ _ _ hm, getSp_ctx _ _ _ hm, getCtx_mapLive]
    by_cases hv : (if vfOf s d = w then w else (w * 65536 + d) / 65536) = v
    · rw [if_pos hv, if_pos ⟨hm, hv⟩]
      exact mget_map_key (g := fun _ => f) (fun _ => hf) _ _
    · rw [if_neg hv, if_neg fun h => hv h.2]

theorem getSp_mapLive_cases {f : Spoke → Spoke} (hf : f Spoke.reset = Spoke.reset) (s : State) (v d m w : Nat) :
    getSp (mapLive s v f) d m w = f (getSp s d m w) ∨ getSp (mapLive s v f) d m w = getSp s d m w := by
  rw [getSp_mapLive hf]
  exact ite_eq_or_eq _ _ _

theorem spKept_images (s : State) (v : Nat) (f : Spoke → Spoke) :
    SpKept s (s.images.foldl (fun s p => if p.2.vf = v then setImage s p.1 p.2 (f p.2.sp) else s) s) :=
  SpKept.foldl _ (fun s p => by split; exacts [spKept_setImage .., SpFrame.refl (fun _ => rfl) s]) s

/-- A function applied to every spoke of a VF keeps each in a relation that it keeps. -/
theorem spFrame_mapSpokes {R : Spoke → Spoke → Prop} (hr : ∀ p, R p p) {f : Spoke → Spoke} (hf : ∀ p, R p (f p)) (h0 : f Spoke.reset = Spoke.reset)
    (s : State) (v : Nat) : SpFrame R s (mapSpokes s v f) := by
  have h := spKept_images s v f
  rw [mapSpokes_eq]
  refine ⟨h.cur, h.vf, fun d m w => ?_⟩
  rcases getSp_mapLive_cases h0 _ v d m w with e | e <;> rw [e, h.getSp]
  · exact hf _
  · exact hr _

/-- A spoke after a function has been applied to those of a VF. -/
theorem getSp_mapSpokes {f : Spoke → Spoke} (h0 : f Spoke.reset = Spoke.reset) (s : State) (v m w : Nat) {d : Nat} (hd : d < 65536) :
    getSp (mapSpokes s v f) d m w = if m ≠ 0 ∧ w = v then f (getSp s d m w) else getSp s d m w := by
  have h := spKept_images s v f
  have hkey : (w * 65536 + d) / 65536 = w := by omega
  rw [mapSpokes_eq, getSp_mapLive h0, h.getSp, hkey, ite_self]

/-- What a phase flip can change of a member: its slots and its park (R39). -/
def GrpFrame (p q : Spoke) : Prop := ∃ gs pk, q = { p with gslots := gs, park := pk }

theorem GrpFrame.refl (p : Spoke) : GrpFrame p p := ⟨_, _, rfl⟩

theorem GrpFrame.trans {p q r : Spoke} (h : GrpFrame p q) (k : GrpFrame q r) : GrpFrame p r := by
  obtain ⟨gs, pk, rfl⟩ := h
  obtain ⟨gs', pk', rfl⟩ := k
  exact ⟨gs', pk', rfl⟩

theorem grpFrame_flipSpoke (tag g : Nat) (p : Spoke) : GrpFrame p (flipSpoke tag g p) := by
  unfold flipSpoke
  split
  · exact .refl p
  · exact ⟨_, _, rfl⟩

/-- A free context is a member of no group. -/
theorem slotOfGrp_reset (tag g : Nat) : slotOfGrp Spoke.reset tag g = none := by
  unfold slotOfGrp
  split
  · rfl
  · exact List.find?_eq_none.2 fun i _ => by fin_cases i <;> simp [Spoke.reset, GSlot.none]

theorem flipSpoke_reset (tag g : Nat) : flipSpoke tag g Spoke.reset = Spoke.reset := by
  unfold flipSpoke
  rw [slotOfGrp_reset]

theorem spFrame_tryFlip (s : State) (v tag g : Nat) : SpFrame GrpFrame s (tryFlip s v tag g) := by
  unfold tryFlip
  dsimp only
  split
  · have h := spFrame_mapSpokes GrpFrame.refl (grpFrame_flipSpoke tag g) (flipSpoke_reset tag g) s v
    exact ⟨h.cur, h.vf, h.sp⟩
  · exact SpFrame.refl GrpFrame.refl s

theorem spFrame_flips (s : State) (v tag g : Nat) : SpFrame GrpFrame s (flips s v tag g) :=
  (spFrame_tryFlip s v tag g).trans GrpFrame.trans (spFrame_tryFlip _ v tag g)

theorem spFrame_grpLeave (s : State) (v tag g : Nat) (arrived : Bool) : SpFrame GrpFrame s (grpLeave s v tag g arrived) := by
  refine SpFrame.trans GrpFrame.trans ?_ (spFrame_flips _ v tag g)
  exact ⟨rfl, fun _ => rfl, fun _ _ _ => .refl _⟩

theorem spKept_setSlot (s : State) (c i : Nat) (w : WSlot) : SpKept s (setSlot s c i w) :=
  spKept_modCore (f := fun k => { k with waiters := mset k.waiters i w }) (fun _ => ⟨rfl, rfl⟩) s c

theorem spKept_modFn (s : State) (f : Nat) (g : Fn → Fn) : SpKept s (modFn s f g) := spKept_of_fields rfl rfl rfl rfl rfl

theorem spKept_freeSlot (s : State) (c i : Nat) : SpKept s (freeSlot s c i) := by
  unfold freeSlot
  dsimp only
  split
  · exact spKept_setSlot ..
  · exact (spKept_setSlot ..).trans (spKept_modFn ..)

theorem spKept_leaveSlots (s : State) (c : Nat) (drop : Waiter → Waiter) : SpKept s (leaveSlots s c drop) := by
  refine SpKept.foldl _ (fun s i => ?_) s
  split
  · exact SpFrame.refl (fun _ => rfl) s
  · dsimp only
    split
    · exact SpFrame.refl (fun _ => rfl) s
    · split
      · exact spKept_freeSlot ..
      · exact spKept_setSlot ..

theorem spKept_leaveOwner (s : State) (o : Owner) : SpKept s (leaveOwner s o) :=
  SpKept.foldl _ (fun s c => spKept_leaveSlots s c _) s

end Sys2Proof
end

section
/-! The end of a spoke (R36, R40, R100, R398, R402). -/

namespace Sys2Proof

open Machine

/-! What leaves the registers of every spoke. -/

/-- The general registers of a spoke as they were. -/
def SameG (p q : Spoke) : Prop := q.g = p.g

theorem SameG.refl (p : Spoke) : SameG p p := Eq.refl p.g

theorem SameG.trans {p q r : Spoke} (h : SameG p q) (k : SameG q r) : SameG p r := Eq.trans k h

theorem SpKept.frame {R : Spoke → Spoke → Prop} {s t : State} (h : SpKept s t) (hr : ∀ p, R p p) : SpFrame R s t :=
  h.mono fun p _ e => e ▸ hr p

theorem spKept_publish (s : State) (o : Mem) : SpKept s (publish s o) := SpKept.foldl _ (fun s _ => spKept_wrLoc s _ _) s

/-- The close of a publish group touches no spoke but its own (R119). -/
theorem spFrame_pubClose {R : Spoke → Spoke → Prop} (hr : ∀ p, R p p) (ht : ∀ {p q r}, R p q → R q r → R p r) (hf : ∀ p : Spoke, R p { p with pub := none })
    (s : State) (c n v : Nat) : SpFrame R s (pubClose s c n v) := by
  unfold pubClose
  split
  · exact SpFrame.refl hr s
  next g _ =>
    have hpub : SpKept s (match getPub s g with | some p => publish s p.ovl | none => s) := by
      split
      · exact spKept_publish ..
      · exact SpFrame.refl (fun _ => rfl) s
    refine SpFrame.trans ht ?_ (spFrame_modSp hr hf _ c n v)
    have h := hpub.frame hr
    exact ⟨h.cur, h.vf, h.sp⟩

theorem spFrame_leaveGroups (s : State) (c n v : Nat) : SpFrame GrpFrame s (leaveGroups s c n v) := by
  unfold leaveGroups
  refine SpFrame.trans GrpFrame.trans (spFrame_modSp GrpFrame.refl (f := fun p => { p with gslots := Vector.replicate 4 GSlot.none }) (fun p => ⟨_, _, rfl⟩) s c n v) ?_
  refine SpFrame.foldl GrpFrame.refl GrpFrame.trans _ (fun s g => ?_) _
  split
  · exact spFrame_grpLeave ..
  · exact SpFrame.refl GrpFrame.refl s

theorem sameG_spendClose (s : State) (c n v : Nat) : SpFrame SameG s (spendClose s c n v) := by
  have hgrp : SpFrame SameG (pubClose s c n v) (leaveGroups (pubClose s c n v) c n v) :=
    (spFrame_leaveGroups _ c n v).mono fun _ _ ⟨_, _, e⟩ => by rw [e]; rfl
  unfold spendClose
  refine SpFrame.trans SameG.trans ?_ (spFrame_modSp SameG.refl (by intro _; rfl) _ c n v)
  exact (spFrame_pubClose SameG.refl SameG.trans (fun _ => rfl) s c n v).trans SameG.trans hgrp

theorem spKept_dropHeld (s : State) (c n v : Nat) : SpKept s (dropHeld s c n v) := by
  unfold dropHeld dropMsgs
  refine SpKept.trans ?_ (spKept_modCore (by intro _; exact ⟨rfl, rfl⟩) _ c)
  exact spKept_modCtx (f := fun x => { x with inbox := x.inbox.filter fun m => !(!m.wake && m.sp == n) }) (fun _ => rfl) s c v

/-! The kill of an owner with no command and no group. -/

theorem spKept_takeBack (s : State) (k : Park) : SpKept s (takeBack s k) := by
  unfold takeBack
  split
  · exact spKept_of_fields rfl rfl rfl rfl rfl
  · exact SpFrame.refl (fun _ => rfl) s

/-- The loads of a spoke that ends are dropped, its other accesses are nobody's; no register changes. -/
theorem sameG_flushEnd (s : State) (c n v : Nat) : SpFrame SameG s (flushEnd s (.spoke c n v)) := by
  have h := spFrame_modSp SameG.refl (f := fun p => { p with outst := [] }) (fun _ => rfl) s c n v
  exact ⟨h.cur, h.vf, h.sp⟩

/-- An owner that no command and no rewritten group belongs to is killed with no register changed. -/
theorem sameG_killOwner {s : State} {c n v : Nat} (hc : s.cmds.any (·.owner == .spoke c n v) = false)
    (hg : s.tgrps.any (·.2.owner == .spoke c n v) = false) : SpFrame SameG s (killOwner s (.spoke c n v)) := by
  let o := Owner.spoke c n v
  let s1 := flushEnd (keepOrder s o (ownFirst s o)) o
  have h1 : SpFrame SameG s s1 := by
    have h := sameG_flushEnd (keepOrder s o (ownFirst s o)) c n v
    exact ⟨h.cur, h.vf, h.sp⟩
  have htg : s1.tgrps.filter (·.2.owner == o) = [] := by
    have e : s1.tgrps = s.tgrps := modSp_tgrps ..
    rw [e]
    simpa [o] using hg
  have hcm : s1.cmds.filter (·.owner == o) = [] := by
    have e : s1.cmds = s.cmds.map fun c => if c.owner = o then { c with after := (ownFirst s o).filter (· < c.po) } else c := modSp_cmds ..
    rw [e, List.filter_eq_nil_iff]
    intro d hd
    obtain ⟨x, hx, rfl⟩ := List.mem_map.1 hd
    have hne : x.owner ≠ o := by simpa [o] using List.any_eq_false.1 hc x hx
    simp [hne]
  unfold killOwner
  dsimp only
  rw [htg]
  dsimp only [List.foldl_nil]
  rw [hcm]
  refine SpFrame.trans SameG.trans h1 ?_
  refine SpKept.frame (SpKept.trans ?_ (spKept_leaveOwner _ o)) SameG.refl
  refine SpKept.trans ?_ (spKept_takeBack _ _)
  exact spKept_of_fields rfl rfl rfl rfl rfl

/-! SPEND (R398). -/

theorem settle_went (s t : State) : settle s (.went t) = t := rfl

theorem spendReady_iff {s : State} {c n v : Nat} (h : spendReady s c n v = true) :
    s.cmds.any (·.owner == .spoke c n v) = false ∧ s.tgrps.any (·.2.owner == .spoke c n v) = false := by
  simp only [spendReady, Bool.and_eq_true, Bool.not_eq_true'] at h
  exact ⟨h.1.1, h.1.2⟩

/-- SPEND seals a window: where it is ready, none is open (R199). -/
theorem win_nil_of_ready {i : Instr} {s : State} (h : Ready i s) (hk : Instr.sealsKind i = true) (he : Instr.isEngine i = false) :
    (curSp s).win = [] := by
  rcases h.window with hw | ⟨hs, -⟩
  · exact hw
  · by_contra hw
    simp [unitSeals, Instr.seals, hk, he, hw] at hs

/-- A wait for the end of a spoke that nothing holds up any more ends at once (R36). -/
theorem waitOn_spend {t : State} {c n v : Nat} (hcur : t.cur.core = c ∧ t.cur.sp = n ∧ t.cur.vf = v) (hr : spendReady t c n v = true)
    (hp : (getSp t c n v).pub = none) : waitOn t .spend = spendEnd (modSp t c n v fun p => { p with park := .none }) c n v := by
  obtain ⟨rfl, rfl, rfl⟩ := hcur
  have hwait : waitReady t t.cur.core t.cur.sp t.cur.vf .spend = true := by simp [waitReady, hp, hr]
  have hkeep : spendReady (modSp t t.cur.core t.cur.sp t.cur.vf fun p => { p with park := .none }) t.cur.core t.cur.sp t.cur.vf = true := by
    simpa [spendReady] using hr
  have hpub : (getSp (modSp t t.cur.core t.cur.sp t.cur.vf fun p => { p with park := .none }) t.cur.core t.cur.sp t.cur.vf).pub.isSome = false := by
    simp [hp]
  unfold waitOn
  rw [if_pos hwait]
  unfold waitDone
  simp only [hpub, Bool.false_eq_true, if_false, hkeep, if_true]

/-- Settles O26: the wait of SPEND is over as it begins, and neither it nor what went before has written a register. -/
theorem spendEnds : Obligations.SpendEnds := by
  unfold Obligations.SpendEnds
  intro s h hsp hpub t hr hp
  have hwin := win_nil_of_ready h rfl rfl
  have hg0 : (curSp (taken .spend s)).g = (curSp s).g := by
    have huses : Instr.uses .spend = [] := rfl
    rw [taken, countIssue_nil hwin, huses, curSp_modCur]
    rfl
  have hclose : SpFrame SameG (taken .spend s) t := sameG_spendClose _ _ _ _
  have hcur : t.cur = s.cur := hclose.cur.trans (taken_cur _ _)
  obtain ⟨hc, hg⟩ := spendReady_iff hr
  let u := modSp t s.cur.core s.cur.sp s.cur.vf fun p => { p with park := .none }
  let x := dropHeld (killOwner u (.spoke s.cur.core s.cur.sp s.cur.vf)) s.cur.core s.cur.sp s.cur.vf
  have hend : waitOn t .spend = modSp x s.cur.core s.cur.sp s.cur.vf fun p =>
      { p with ctx := .ended, endKilled := false, endFault := false, stopReq := false, park := .none, owed := [] } :=
    waitOn_spend ⟨by rw [hcur], by rw [hcur], by rw [hcur]⟩ hr hp
  have hx : SpFrame SameG (taken .spend s) x := by
    have hu : SpFrame SameG t u := spFrame_modSp SameG.refl (by intro _; rfl) t _ _ _
    have hkill : SpFrame SameG u (killOwner u (.spoke s.cur.core s.cur.sp s.cur.vf)) := sameG_killOwner (by simpa [u] using hc) (by simpa [u] using hg)
    have hdrop := (spKept_dropHeld (killOwner u (.spoke s.cur.core s.cur.sp s.cur.vf)) s.cur.core s.cur.sp s.cur.vf).frame SameG.refl
    exact SpFrame.trans SameG.trans (SpFrame.trans SameG.trans (SpFrame.trans SameG.trans hclose hu) hkill) hdrop
  have hbody : exec .spend s = .next (waitOn t .spend) := by
    have hpub' : (curSp (taken .spend s)).pub.isNone = true := by
      obtain ⟨g, v, w, e⟩ := curSp_taken .spend s
      rw [e, hpub]
      rfl
    have hx : exec .spend s = .next (issue .spend s fun u => if u.cur.sp = 0 then .fail .illegalField
        else .went (waitOn (if (curSp u).pub.isNone then spendClose u u.cur.core u.cur.sp u.cur.vf else u) .spend)) := rfl
    rw [hx, issue_closed h hwin, taken_cur, if_neg hsp, hpub', if_pos rfl, settle_went]
  refine ⟨_, hbody, ?_, ?_, ?_⟩
  · rw [hend, getSp_modSp]
  · rw [hend, getSp_modSp]
    simp [reapWord]
  · have htk : getSp (taken .spend s) s.cur.core s.cur.sp s.cur.vf = curSp (taken .spend s) := by rw [curSp, taken_cur]
    rw [hend, getSp_modSp]
    exact Eq.trans (hx.sp s.cur.core s.cur.sp s.cur.vf) (by rw [htk, hg0])

end Sys2Proof
end

section
/-! Replies that report a fault (R22, R264, R284, R285). -/

namespace Sys2Proof

open Machine

/-- A vector read at a place after a write, place and index as numbers of one kind. -/
theorem getElem_set_fin {α : Type} {n : Nat} (v : Vector α n) (d g : Fin n) (x : α) : (v.set d x)[g] = if d = g then x else v[g] := by
  by_cases h : d = g
  · subst h; simp
  · have hv : d.val ≠ g.val := fun e => h (Fin.ext e)
    simp [h, hv]

/-- A general register that was emptied, full again where it waits for nothing. -/
def refilled (x : GReg) : GReg := if x.pend = .no then { x with full := true } else x

theorem refilled_free {x : GReg} (h : x.pend = .no) : refilled x = ⟨x.val, true, .no⟩ := by
  unfold refilled
  rw [if_pos h, h]

theorem refilled_twice (x : GReg) : refilled (refilled x) = refilled x := by
  unfold refilled
  by_cases h : x.pend = .no
  · rw [if_pos h, if_pos h]
  · rw [if_neg h, if_neg h]

/-- The refill of one register changes no other. -/
theorem g_refill (p : Spoke) (u : Reg) {g : Fin 32} (hg : g ≠ 0) : (refill p u).g[g] = if u = .g g then refilled p.g[g] else p.g[g] := by
  cases u with
  | v d =>
    rw [if_neg (by simp)]
    unfold refill
    dsimp only
    split <;> rfl
  | g d =>
    by_cases hd : d = g
    · subst hd
      have hpend : p.pendG d = p.g[d].pend := if_neg hg
      have hfull : p.fullG d = p.g[d].full := by simp [Spoke.fullG, hg]
      rw [if_pos rfl]
      unfold refill refilled
      dsimp only
      rw [hpend, hfull]
      by_cases hp : p.g[d].pend = .no
      · rw [if_pos hp, hp]
        cases hf : p.g[d].full
        · exact (getElem_set_fin ..).trans (if_pos rfl)
        · have hself : p.g[d] = ⟨p.g[d].val, true, .no⟩ := by rw [← hf, ← hp]
          exact hself
      · have hno : (p.g[d].pend == Pend.no) = false := beq_eq_false_iff_ne.2 hp
        rw [if_neg hp, hno, Bool.and_false]
        rfl
    · rw [if_neg (by simp [hd])]
      unfold refill
      dsimp only
      split
      · exact (getElem_set_fin ..).trans (if_neg hd)
      · rfl

theorem g0_refill (p : Spoke) (u : Reg) : (refill p u).g[(0 : Fin 32)] = p.g[(0 : Fin 32)] := by
  cases u with
  | v d =>
    unfold refill
    dsimp only
    split <;> rfl
  | g d =>
    unfold refill
    dsimp only
    split
    next h =>
      have hd : d ≠ 0 := by
        rintro rfl
        simp [Spoke.fullG] at h
      exact (getElem_set_fin ..).trans (if_neg hd)
    next => rfl

/-- The registers that an access had emptied, after all of them are refilled. -/
theorem g_refills (us : List Reg) (p : Spoke) {g : Fin 32} (hg : g ≠ 0) :
    (us.foldl refill p).g[g] = if .g g ∈ us then refilled p.g[g] else p.g[g] := by
  induction us generalizing p with
  | nil => simp
  | cons u us ih =>
    rw [List.foldl_cons, ih, g_refill p u hg]
    by_cases hu : u = .g g
    · rw [if_pos hu, refilled_twice, if_pos (List.mem_cons.2 (.inl hu.symm)), ite_self]
    · have hmem : Reg.g g ∈ u :: us ↔ Reg.g g ∈ us := List.mem_cons.trans (or_iff_right fun e => hu e.symm)
      simp only [if_neg hu, hmem]

theorem g0_refills (us : List Reg) (p : Spoke) : (us.foldl refill p).g[(0 : Fin 32)] = p.g[(0 : Fin 32)] := by
  induction us generalizing p with
  | nil => rfl
  | cons u us ih => rw [List.foldl_cons, ih, g0_refill]

@[simp] theorem refill_outst (p : Spoke) (u : Reg) : (refill p u).outst = p.outst := by
  cases u <;> (unfold refill; dsimp only; split <;> rfl)

theorem refills_outst (us : List Reg) (p : Spoke) : (us.foldl refill p).outst = p.outst := by
  induction us generalizing p with
  | nil => rfl
  | cons u us ih => rw [List.foldl_cons, ih, refill_outst]

theorem unPend_outst (p : Spoke) (r : Req) : (unPend p r).outst = p.outst := by
  unfold unPend
  split
  · split <;> rfl
  · split <;> rfl
  · split <;> rfl
  · rfl

/-- A register that the failed access does not hold keeps waiting for what it waits for. -/
theorem g_unPend_ne (p : Spoke) (r : Req) {g : Fin 32} (h : p.pendG g ≠ .load r.id) : (unPend p r).g[g] = p.g[g] := by
  have hkeep (d : Fin 32) : (if d ≠ 0 ∧ p.pendG d = .load r.id then { p with g := p.g.set d { p.g[d] with pend := .no } } else p).g[g] = p.g[g] := by
    split
    next hd =>
      refine (getElem_set_fin ..).trans (if_neg ?_)
      rintro rfl
      exact h hd.2
    next => rfl
  unfold unPend
  split
  · exact hkeep _
  · exact hkeep _
  · split <;> rfl
  · rfl

/-- The destination of the failed access waits for nothing any more. -/
theorem g_unPend_dest {p : Spoke} {r : Req} {d : Fin 32} {sx : Bool} (hk : r.kind = .load d sx) (hd : d ≠ 0) (hp : p.pendG d = .load r.id) :
    (unPend p r).g[d] = { p.g[d] with pend := .no } := by
  unfold unPend
  rw [hk]
  dsimp only
  rw [if_pos ⟨hd, hp⟩]
  exact (getElem_set_fin ..).trans (if_pos rfl)

/-- Settles O32: the reply ends in its trap alone, and `unPend` and the refills make the registers what the clauses say. -/
theorem replyFaults : Obligations.ReplyFaults := by
  unfold Obligations.ReplyFaults
  intro s core sp idx st r f v p q t hi hs hf
  have hq : q = r.eaten.foldl refill (unPend (dropReq p r.id) r) := rfl
  refine ⟨?_, ?_, fun d sx hk hd hp => ?_, fun g hg he hp => ?_, fun g he hp => ?_⟩
  · show execMemoryReply core sp idx st s = _
    unfold execMemoryReply
    dsimp only
    rw [if_neg (by omega), hi]
    dsimp only
    rw [hf]
    rfl
  · rw [hq, refills_outst, unPend_outst]
    rfl
  · rw [hq, g_refills _ _ hd, g_unPend_dest (p := dropReq p r.id) hk hd hp]
    by_cases he : Reg.g d ∈ r.eaten
    · rw [if_pos he, refilled_free rfl, List.contains_iff_mem.2 he, Bool.or_true]
      rfl
    · rw [if_neg he, show r.eaten.contains (Reg.g d) = false by simpa using he, Bool.or_false]
      rfl
  · have hpend : p.g[g].pend = .no := (if_neg hg : p.pendG g = p.g[g].pend) ▸ hp
    have hne : (dropReq p r.id).pendG g ≠ .load r.id := fun e => by cases hp.symm.trans e
    rw [hq, g_refills _ _ hg, g_unPend_ne _ _ hne, if_pos he]
    exact refilled_free hpend
  · have hne : (dropReq p r.id).pendG g ≠ .load r.id := hp
    by_cases hg : g = 0
    · subst hg
      rw [hq, g0_refills, g_unPend_ne _ _ hne]
      rfl
    · rw [hq, g_refills _ _ hg, g_unPend_ne _ _ hne, if_neg he]
      rfl

end Sys2Proof
end

section
/-! Presence words: who a fill serves, and the accesses that read, fill and clear (R25, R26, R354). -/

namespace Sys2Proof

open Machine

/-! The split of the waiters at a word (R26). -/

/-- A waiter that a fill of a word can serve: a load that waits there. -/
def servable (here : BankWaiter → Bool) (a : Nat) (w : BankWaiter) : Bool := w.loc == ⟨.scr, a⟩ && here w && BankWait.isLd w.want

/-- The first waiter decides the split: an LD.S ends it, an LD.F is served and it goes on, any other waiter stays. -/
theorem splitServe_cons (here : BankWaiter → Bool) (a : Nat) (w : BankWaiter) (ws : List BankWaiter) :
    let x := splitServe here a ws
    (servable here a w = true ∧ (∃ d, w.want = .ldS d) ∧ splitServe here a (w :: ws) = ([w], ws, true))
      ∨ (servable here a w = true ∧ (∃ d, w.want = .ldF d) ∧ splitServe here a (w :: ws) = (w :: x.1, x.2.1, x.2.2))
      ∨ (servable here a w = false ∧ splitServe here a (w :: ws) = (x.1, w :: x.2.1, x.2.2)) := by
  intro x
  rw [splitServe]
  by_cases h : w.loc = ⟨.scr, a⟩ ∧ here w = true
  · have hs : servable here a w = BankWait.isLd w.want := by simp [servable, h.1, h.2]
    rw [if_pos h, hs]
    cases hw : w.want with
    | ldS d => exact .inl ⟨rfl, ⟨d, rfl⟩, rfl⟩
    | ldF d => exact .inr (.inl ⟨rfl, ⟨d, rfl⟩, rfl⟩)
    | bar | sem | tl => exact .inr (.inr ⟨rfl, rfl⟩)
  · rw [if_neg h]
    refine .inr (.inr ⟨?_, rfl⟩)
    by_contra hs
    simp only [servable, Bool.not_eq_false, Bool.and_eq_true, beq_iff_eq] at hs
    exact h hs.1

/-- The waiters served come first among those that could be, and the others keep their order. -/
theorem splitServe_filter (here : BankWaiter → Bool) (a : Nat) (ws : List BankWaiter) :
    let x := splitServe here a ws
    ws.filter (servable here a) = x.1 ++ x.2.1.filter (servable here a)
      ∧ (ws.filter fun w => !servable here a w) = x.2.1.filter (fun w => !servable here a w) ∧ List.Sublist x.2.1 ws := by
  induction ws with
  | nil => exact ⟨rfl, rfl, .refl _⟩
  | cons w ws ih =>
    obtain ⟨h1, h2, h3⟩ := ih
    rcases splitServe_cons here a w ws with ⟨hs, -, e⟩ | ⟨hs, -, e⟩ | ⟨hs, e⟩
    · rw [e]
      exact ⟨by simp [hs], by simp [hs], List.sublist_cons_self w ws⟩
    · rw [e]
      exact ⟨by simp [hs, h1], by simp [hs, h2], h3.cons w⟩
    · rw [e]
      exact ⟨by simp [hs, h1], by simp [hs, h2], h3.cons_cons w⟩

/-- A fill that no LD.S consumes serves every LD.F that waits. -/
theorem splitServe_kept (here : BankWaiter → Bool) (a : Nat) (ws : List BankWaiter) (h : (splitServe here a ws).2.2 = false) :
    (splitServe here a ws).2.1.filter (servable here a) = [] ∧ ∀ w ∈ (splitServe here a ws).1, ∃ d, w.want = .ldF d := by
  induction ws with
  | nil => exact ⟨rfl, fun w hw => by cases hw⟩
  | cons w ws ih =>
    rcases splitServe_cons here a w ws with ⟨-, -, e⟩ | ⟨-, hw, e⟩ | ⟨hs, e⟩
    · rw [e] at h
      cases h
    · rw [e] at h ⊢
      exact ⟨(ih h).1, List.forall_mem_cons.2 ⟨hw, (ih h).2⟩⟩
    · rw [e] at h ⊢
      exact ⟨by simpa [hs] using (ih h).1, (ih h).2⟩

/-- A fill that an LD.S consumes serves it last. -/
theorem splitServe_consumed (here : BankWaiter → Bool) (a : Nat) (ws : List BankWaiter) (h : (splitServe here a ws).2.2 = true) :
    ∃ l w d, (splitServe here a ws).1 = l ++ [w] ∧ w.want = .ldS d ∧ ∀ y ∈ l, ∃ d, y.want = .ldF d := by
  induction ws with
  | nil => cases h
  | cons w ws ih =>
    rcases splitServe_cons here a w ws with ⟨-, ⟨d, hw⟩, e⟩ | ⟨-, hw, e⟩ | ⟨-, e⟩
    · rw [e]
      exact ⟨[], w, d, rfl, hw, fun y hy => by cases hy⟩
    · rw [e] at h ⊢
      obtain ⟨l, y, d, hl, hy, hall⟩ := ih h
      exact ⟨w :: l, y, d, by rw [hl]; rfl, hy, List.forall_mem_cons.2 ⟨hw, hall⟩⟩
    · rw [e] at h ⊢
      exact ih h

/-! The place that the checks of an access give. -/

/-- A resolved access has its place by the leaf, on a target type that its path admits. -/
theorem resolve_ok {s : State} {c v : Nat} {va : Word} {need : Option Bool} {acc : Nat} {ok : Nat → Bool} {r : Res}
    (h : resolve s c v va need acc ok = .ok r) :
    pathTT (pathOf va) (pteTT r.leaf) = true ∧ ok (pteTT r.leaf) = true ∧ partition s v r.leaf (placeOf c va r.leaf r.bits) = some r.loc := by
  unfold resolve at h
  split at h
  · cases h
  · cases h
  next e bits _ =>
    dsimp only at h
    split at h
    · cases h
    next hb =>
      split at h
      · cases h
      · split at h
        · cases h
        next l hl =>
          cases h
          refine ⟨?_, ?_, hl⟩
          all_goals
            by_contra hp
            simp [placeBad, hp] at hb

theorem mapped_ok {s : State} {c v : Nat} {d : BitVec 8} {ls : List Lend} {va : Word} {n : Nat} {w : Bool} {acc : Nat} {ok : Nat → Bool} {r : Res}
    (h : mapped s c v d ls va n w acc ok = .ok r) : resolve s c v va (some w) acc ok = .ok r := by
  unfold mapped at h
  split at h
  · cases h
  next hr =>
    split at h
    · cases h
    · cases h
      exact hr

/-- On the scratchpad path the place lies in a scratchpad (R106). -/
theorem mapped_scr {s : State} {c v : Nat} {d : BitVec 8} {ls : List Lend} {va : Word} {n : Nat} {w : Bool} {acc : Nat} {ok : Nat → Bool} {r : Res}
    (h : mapped s c v d ls va n w acc ok = .ok r) (hp : pathOf va = 3) : r.loc.sp = .scr := by
  obtain ⟨htt, -, hpart⟩ := resolve_ok (mapped_ok h)
  have h2 : pteTT r.leaf = 2 := by simpa [hp, pathTT] using htt
  have hplace : (placeOf c va r.leaf r.bits).sp = .scr := by simp [placeOf, h2]
  have hkept : r.loc = placeOf c va r.leaf r.bits := by
    unfold partition at hpart
    simp only [h2] at hpart
    by_cases hin : isSvc s ((placeOf c va r.leaf r.bits).a / 65536) || ownsHalf s v (halfOf ((placeOf c va r.leaf r.bits).a / 65536))
    · simpa [hin] using hpart.symm
    · simp [hin] at hpart
  rw [hkept, hplace]

theorem scalarAts_ok {t : State} {va : Word} {n : Nat} {w : Bool} {acc : Nat} {paths : List Nat} {r : Res} (h : scalarAts t va n w acc paths = .ok r) :
    scalar t va n w acc paths = .ok r := by
  unfold scalarAts at h
  split at h
  · cases h
  next hr =>
    split at h
    · cases h
    · cases h
      exact hr

theorem scalar_scr {t : State} {va : Word} {n : Nat} {w : Bool} {acc : Nat} {r : Res} (h : scalar t va n w acc [3] = .ok r) : r.loc.sp = .scr := by
  unfold scalar at h
  split at h
  · cases h
  next hpre =>
    refine mapped_scr h ?_
    by_contra hp
    simp [scalarPre, hp] at hpre

/-- A place of a scratchpad, written out. -/
theorem loc_scr {l : Loc} (h : l.sp = .scr) : (⟨.scr, l.a⟩ : Loc) = l := by
  obtain ⟨sp, a⟩ := l
  cases h
  rfl

/-! The release of the waiters that a fill serves (R26). -/

/-- A spoke that a bank has answered with a value: its park is over, and a register that has the value keeps it. -/
def Answered (x : Word) (p q : Spoke) : Prop :=
  (p.park = .none → q.park = .none) ∧ ∀ d : Fin 32, d ≠ 0 → p.g[d] = ⟨x, true, .no⟩ → q.g[d] = ⟨x, true, .no⟩

theorem Answered.refl (x : Word) (p : Spoke) : Answered x p p := ⟨id, fun _ _ h => h⟩

theorem Answered.trans {x : Word} {p q r : Spoke} (h : Answered x p q) (k : Answered x q r) : Answered x p r :=
  ⟨k.1 ∘ h.1, fun d hd e => k.2 d hd (h.2 d hd e)⟩

/-- What a bank does to the spoke whose want it answers. -/
def answer (w : BankWait) (x : Word) (p : Spoke) : Spoke :=
  match w with
  | .ldF d | .ldS d | .sem _ d _ | .tl d _ => { p with park := .none }.wrG d x
  | .bar => { p with park := .none }

theorem releaseBank_onChip {s : State} {w : BankWaiter} {c n v : Nat} (x : Word) (h : w.owner = .spoke c n v) :
    releaseBank s w x = modSp s c n v (answer w.want x) := by
  unfold releaseBank
  rw [h]
  rfl

theorem g_wrG (p : Spoke) (d g : Fin 32) (x : Word) : (p.wrG d x).g[g] = if d = g ∧ g ≠ 0 then ⟨x, true, .no⟩ else p.g[g] := by
  unfold Spoke.wrG
  by_cases hd : d = 0
  · subst hd
    rw [if_pos rfl, if_neg fun h => h.2 h.1.symm]
  · rw [if_neg hd]
    refine (getElem_set_fin ..).trans ?_
    by_cases hg : d = g
    · rw [if_pos hg, if_pos ⟨hg, hg ▸ hd⟩]
    · rw [if_neg hg, if_neg fun h => hg h.1]

theorem answer_park (w : BankWait) (x : Word) (p : Spoke) : (answer w x p).park = .none := by
  cases w with
  | ldF d | ldS d | sem _ d _ | tl d _ => exact (wrG_calm ..).1
  | bar => rfl

theorem answered_answer (w : BankWait) (x : Word) (p : Spoke) : Answered x p (answer w x p) := by
  refine ⟨fun _ => answer_park w x p, fun d hd h => ?_⟩
  have hwr (r : Fin 32) : (({ p with park := .none } : Spoke).wrG r x).g[d] = ⟨x, true, .no⟩ := by
    rw [g_wrG]
    split
    · rfl
    · exact h
  cases w with
  | ldF r | ldS r | sem _ r _ | tl r _ => exact hwr r
  | bar => exact h

theorem answered_releases {ws : List BankWaiter} (h : ∀ w ∈ ws, OnChip w) (s : State) (x : Word) :
    SpFrame (Answered x) s (ws.foldl (fun s w => releaseBank s w x) s) := by
  induction ws generalizing s with
  | nil => exact SpFrame.refl (Answered.refl x) s
  | cons w ws ih =>
    obtain ⟨hw, hws⟩ := List.forall_mem_cons.1 h
    obtain ⟨c, n, v, ho⟩ := hw
    refine SpFrame.trans Answered.trans ?_ (ih hws _)
    show SpFrame (Answered x) s (releaseBank s w x)
    rw [releaseBank_onChip x ho]
    exact spFrame_modSp (Answered.refl x) (answered_answer w.want x) s c n v

/-- Each load that is served goes on with the value in its register. -/
theorem releases_answer {ws : List BankWaiter} (h : ∀ w ∈ ws, OnChip w) (s : State) (x : Word) {w : BankWaiter} (hw : w ∈ ws) {c n v : Nat}
    (ho : w.owner = .spoke c n v) :
    let t := ws.foldl (fun s w => releaseBank s w x) s
    (getSp t c n v).park = .none ∧ ∀ d : Fin 32, d ≠ 0 → w.want = .ldF d ∨ w.want = .ldS d → (getSp t c n v).g[d] = ⟨x, true, .no⟩ := by
  induction ws generalizing s with
  | nil => cases hw
  | cons y ws ih =>
    obtain ⟨-, hws⟩ := List.forall_mem_cons.1 h
    rcases List.mem_cons.1 hw with rfl | hw
    · obtain ⟨hpark, hg⟩ := (answered_releases hws (releaseBank s w x) x).sp c n v
      rw [List.foldl_cons]
      rw [releaseBank_onChip x ho, getSp_modSp] at hpark hg
      rw [releaseBank_onChip x ho]
      refine ⟨hpark (answer_park ..), fun d hd hwant => hg d hd ?_⟩
      rcases hwant with e | e <;> rw [e] <;> exact (g_wrG ..).trans (if_pos ⟨rfl, hd⟩)
    · exact ih hws _ hw

/-- The releases of waiters on the device change no byte, no presence and no other waiter. -/
theorem releases_rest {ws : List BankWaiter} (h : ∀ w ∈ ws, OnChip w) (s : State) (x : Word) :
    let t := ws.foldl (fun s w => releaseBank s w x) s
    SameMem s t ∧ t.full = s.full ∧ t.waiters = s.waiters := by
  induction ws generalizing s with
  | nil => exact ⟨fun _ => rfl, rfl, rfl⟩
  | cons w ws ih =>
    obtain ⟨hw, hws⟩ := List.forall_mem_cons.1 h
    obtain ⟨c, n, v, ho⟩ := hw
    obtain ⟨h1, h2, h3⟩ := ih hws (releaseBank s w x)
    rw [releaseBank_onChip x ho] at h1 h2 h3
    rw [List.foldl_cons, releaseBank_onChip x ho]
    exact ⟨SameMem.trans (modSp_sameMem s c n v _) h1, h2.trans (modSp_full ..), h3.trans (modSp_waiters ..)⟩

@[simp] theorem present_setPresent (s : State) (a : Nat) (b : Bool) : present (setPresent s a b) a = b := by
  unfold present setPresent
  simp [mget_mput]

theorem setPresent_sameMem (s : State) (a : Nat) (b : Bool) : SameMem s (setPresent s a b) := fun _ => rfl

theorem hereNow_wrN (s : State) (l : Loc) (n x : Nat) : hereNow (wrN s l n x) = hereNow s := by
  funext w
  simp only [hereNow, isSvc, getHalf, wrN_ctrl, wrN_halves]
  cases w.owner <;> simp [ownerVf]

/-- ST.F at the bank: the word is written and filled, and each waiter served goes on with it (R25, R26). -/
theorem storeF_spec (t : State) {l : Loc} (x : Word) (hl : l.sp = .scr) (hon : ∀ w ∈ (splitServe (hereNow t) l.a t.waiters).1, OnChip w) :
    let y := splitServe (hereNow t) l.a t.waiters
    let u := storeF t l.a x.toNat
    rdN u l 8 = x.toNat ∧ SameBut t u l 8 ∧ present u l.a = !y.2.2 ∧ u.waiters = y.2.1
      ∧ ∀ w ∈ y.1, ∀ c n v d, w.owner = .spoke c n v → w.want = .ldF d ∨ w.want = .ldS d →
        (getSp u c n v).park = .none ∧ (d ≠ 0 → (getSp u c n v).g[d] = ⟨x, true, .no⟩) := by
  intro y u
  have hstw : l.sp ≠ .stw := by rw [hl]; decide
  have hval : rdN (wrN t l 8 x.toNat) l 8 = x.toNat := by rw [rdN_wrN t 8 x.toNat hstw, Nat.mod_eq_of_lt x.isLt]
  let s1 : State := { setPresent (wrN t l 8 x.toNat) l.a (!y.2.2) with waiters := y.2.1 }
  have hu : u = y.1.foldl (fun s w => releaseBank s w x) s1 := by
    show fillWord (wrN t ⟨.scr, l.a⟩ 8 x.toNat) l.a = _
    unfold fillWord
    rw [loc_scr hl, hval, hereNow_wrN, wrN_waiters, BitVec.ofNat_toNat, BitVec.setWidth_eq]
  obtain ⟨hmem, hfull, hws⟩ := releases_rest hon s1 x
  rw [← hu] at hmem hfull hws
  have hs1 : SameMem (wrN t l 8 x.toNat) s1 := fun _ => rfl
  refine ⟨?_, ?_, ?_, hws, fun w hw c n v d ho hwant => ?_⟩
  · rw [(hs1.trans hmem).rdN, hval]
  · exact (wrN_sameBut t l 8 x.toNat).sameMem (hs1.trans hmem)
  · unfold present
    rw [hfull]
    exact present_setPresent (wrN t l 8 x.toNat) l.a (!y.2.2)
  · rw [hu]
    obtain ⟨hp, hg⟩ := releases_answer hon s1 x hw ho
    exact ⟨hp, fun hd => hg d hd hwant⟩

/-! The four forms. -/

/-- LD.F and LD.S: the data where the word is present, a park at the bank where it is not (R25, R26). -/
theorem completes_presenceLoad {i : Instr} {s : State} {d : Fin 32} {a : Src} {disp : BitVec 48} {takes : Bool} {r : Res} (h : Ready i s)
    (hw : (curSp s).win = []) (hx : exec i s = .next (issue i s fun t => presenceLoad t d (src t a + imm64 disp) takes))
    (hr : scalarAts (taken i s) (src s a + disp.signExtend 64) 8 false 1 [3] = .ok r) :
    let t := flushAt (noteAcc (taken i s) (src s a + disp.signExtend 64) r) r.loc 8
    if present t r.loc.a then
      Completes i s (modCur (if takes then setPresent t r.loc.a false else t) fun p => p.wrG d (BitVec.ofNat 64 (rdN t r.loc 8)))
    else Completes i s (bankPark t r.loc (if takes then .ldS d else .ldF d)) := by
  intro t
  have hb : presenceLoad (taken i s) d (src (taken i s) a + imm64 disp) takes = if present t r.loc.a then
      doneG (if takes then setPresent t r.loc.a false else t) d (BitVec.ofNat 64 (rdN t r.loc 8))
      else .done (bankPark t r.loc (if takes then .ldS d else .ldF d)) := by
    unfold presenceLoad
    rw [src_taken, imm64, hr]
  split
  next hp => exact completes_done h hx (by rw [hb, if_pos hp]; rfl) (.inl hw)
  next hp => exact completes_done h hx (by rw [hb, if_neg hp]) (.inl hw)

/-- Settles O33: the split by its first waiter, and each form by what it makes of the word at the bank. -/
theorem presenceWords : Obligations.PresenceWords := by
  unfold Obligations.PresenceWords
  refine ⟨fun here a ws => ?_, fun s d a disp r => ?_, fun s a b disp r => ?_⟩
  · obtain ⟨h1, h2, h3⟩ := splitServe_filter here a ws
    exact ⟨h1, h2, h3, splitServe_kept here a ws, splitServe_consumed here a ws⟩
  · simp only [List.forall_mem_cons, List.not_mem_nil, false_implies, implies_true, and_true]
    exact ⟨fun h hw hr => completes_presenceLoad (takes := false) h hw rfl hr, fun h hw hr => completes_presenceLoad (takes := true) h hw rfl hr⟩
  · intro va hw
    constructor
    · intro h hr t y hon
      refine ⟨_, completes_done h rfl ?_ (.inl hw), storeF_spec t (src s b) (scalar_scr (scalarAts_ok hr)) hon⟩
      dsimp only
      rw [src_taken, src_taken, imm64, hr]
    · intro h hr t
      refine ⟨_, completes_done h rfl ?_ (.inl hw), setPresent_sameMem t r.loc.a false, present_setPresent t r.loc.a false⟩
      dsimp only
      rw [src_taken, imm64, hr]

end Sys2Proof
end

section
/-! FENCE, PGRP and PUBL: each goes on at once or waits, and what a publication makes of memory (R118, R119, R135). -/

namespace Sys2Proof

open Machine

/-! What an update of a spoke leaves: all of the device but the cores and the saved contexts. -/

theorem setCtx_rest (s : State) (c v : Nat) (x : CoreCtx) : ∃ a b, setCtx s c v x = { s with cores := a, saved := b } := by
  unfold setCtx
  split
  · exact ⟨_, _, rfl⟩
  · exact ⟨_, _, rfl⟩

theorem setSp_rest (s : State) (c n v : Nat) (x : Spoke) : ∃ a b, setSp s c n v x = { s with cores := a, saved := b } := by
  unfold setSp
  split
  · exact ⟨_, _, rfl⟩
  · exact setCtx_rest ..

theorem modCur_rest (s : State) (f : Spoke → Spoke) : ∃ a b, modCur s f = { s with cores := a, saved := b } := setSp_rest ..

theorem countIssue_rest (s : State) : ∃ a b, countIssue s = { s with cores := a, saved := b } := by
  unfold countIssue
  split
  · exact ⟨_, _, rfl⟩
  · exact modCur_rest ..

/-- The reads of the sources leave all of the device but the cores and the saved contexts. -/
theorem taken_rest (i : Instr) (s : State) : ∃ a b, taken i s = { s with cores := a, saved := b } := by
  obtain ⟨a, b, h⟩ := countIssue_rest s
  obtain ⟨c, d, k⟩ := modCur_rest (countIssue s) fun p => p.consume (Instr.uses i)
  exact ⟨c, d, by rw [taken, k, h]⟩

@[simp] theorem outst_taken (i : Instr) (s : State) : (curSp (taken i s)).outst = (curSp s).outst := by
  obtain ⟨g, v, w, e⟩ := curSp_taken i s
  rw [e]

@[simp] theorem pub_taken (i : Instr) (s : State) : (curSp (taken i s)).pub = (curSp s).pub := by
  obtain ⟨g, v, w, e⟩ := curSp_taken i s
  rw [e]

@[simp] theorem panesHeld_taken (i : Instr) (s : State) (o : Owner) : panesHeld (taken i s) o = panesHeld s o := by
  obtain ⟨a, b, e⟩ := taken_rest i s
  rw [e]
  rfl

@[simp] theorem pubDone_taken (i : Instr) (s : State) (g : Nat) : pubDone (taken i s) g = pubDone s g := by
  obtain ⟨a, b, e⟩ := taken_rest i s
  rw [e]
  rfl

@[simp] theorem paneShare_taken (i : Instr) (s : State) (t v : Nat) : paneShare (taken i s) t v = paneShare s t v := by
  obtain ⟨a, b, e⟩ := taken_rest i s
  rw [e]
  rfl

/-! The waits as they begin (R20). -/

/-- A wait whose end has come does what its end does; any other parks the spoke (R20). -/
theorem waitOn_eq (t : State) (w : Wait) :
    waitOn t w = if waitReady t t.cur.core t.cur.sp t.cur.vf w then waitDone t t.cur.core t.cur.sp t.cur.vf w else parked (.wait w) t := rfl

theorem waitOn_fence (t : State) (sc : Scope) :
    waitOn t (.fence sc) = parked (if (curSp t).outst.all fun r => !fenceWaits sc t.cur.core r then .none else .wait (.fence sc)) t := by
  rw [apply_ite (fun k => parked k t)]
  rfl

theorem waitOn_pgrpHold (t : State) (n : Nat) :
    waitOn t (.pgrpHold n) = if panesHeld t (curOwner t) then pgrpAsk (parked .none t) t.cur.core t.cur.sp t.cur.vf n else parked (.wait (.pgrpHold n)) t := rfl

theorem waitOn_publ {t : State} {g : Nat} (h : (curSp t).pub = some g) :
    waitOn t .publ = if pubDone t g then pubClose (parked .none t) t.cur.core t.cur.sp t.cur.vf else parked (.wait .publ) t := by
  have hready : waitReady t t.cur.core t.cur.sp t.cur.vf .publ = pubDone t g := by
    show (match (curSp t).pub with | some g => pubDone t g | none => true) = _
    rw [h]
  rw [waitOn_eq, hready]
  rfl

theorem completes_fence {s : State} {sc : Scope} (hw : (curSp s).win = []) (h : Ready (.fence sc) s) :
    Completes (.fence sc) s
      (parked (if (curSp s).outst.all fun r => !fenceWaits sc s.cur.core r then .none else .wait (.fence sc)) (taken (.fence sc) s)) := by
  refine completes_done h (body := fun t => .done (waitOn t (.fence sc))) rfl ?_ (.inl hw)
  rw [waitOn_fence, outst_taken, taken_cur]

theorem completes_pgrp {s : State} {n : BitVec 4} (hw : (curSp s).win = []) (h : Ready (.pgrp n) s) (hp : (curSp s).pub = none)
    (hn : n.toNat ≤ paneShare s (tileOf s.cur.core) s.cur.vf) :
    Completes (.pgrp n) s (if panesHeld s (curOwner s) then pgrpAsk (parked .none (taken (.pgrp n) s)) s.cur.core s.cur.sp s.cur.vf n.toNat
      else parked (.wait (.pgrpHold n.toNat)) (taken (.pgrp n) s)) := by
  refine completes_done h (body := fun t => if n.toNat > paneShare t (tileOf t.cur.core) t.cur.vf ∨ (curSp t).pub.isSome then .fail .illegalField
    else .done (waitOn t (.pgrpHold n.toNat))) rfl ?_ (.inl hw)
  have hok : ¬ (n.toNat > paneShare s (tileOf s.cur.core) s.cur.vf ∨ (none : Option Nat).isSome) := by simpa using hn
  rw [paneShare_taken, taken_cur, pub_taken, hp, if_neg hok, waitOn_pgrpHold, curOwner, taken_cur, panesHeld_taken]
  rfl

theorem completes_publ {s : State} {g : Nat} (hw : (curSp s).win = []) (h : Ready .publ s) (hg : (curSp s).pub = some g) :
    Completes .publ s (if pubDone s g then pubClose (parked .none (taken .publ s)) s.cur.core s.cur.sp s.cur.vf
      else parked (.wait .publ) (taken .publ s)) := by
  refine completes_done h (body := fun t => if (curSp t).pub.isNone then .fail .illegalField else .done (waitOn t .publ)) rfl ?_ (.inl hw)
  rw [pub_taken, hg, if_neg (by simp), waitOn_publ (by rw [pub_taken, hg]), pubDone_taken, taken_cur]

/-! What each wait is for. -/

theorem isLoad_iff (r : Req) : Req.isLoad r = true ↔ (∃ d x, r.kind = .load d x) ∨ ∃ d, r.kind = .vload d := by
  unfold Req.isLoad
  cases r.kind <;> simp

/-- A fence waits for every load and for each access within its reach, and for no fetch of a line (R135). -/
theorem fenceWaits_iff (sc : Scope) (core : Nat) (r : Req) :
    fenceWaits sc core r = true ↔ r.plain = false ∧ (Req.isLoad r = true
      ∨ ∃ x ∈ r.accs, scopeHas sc core x.loc = true ∨ sc = .sy ∧ (x.loc.sp = .host ∨ x.loc.sp = .peer)) := by
  simp only [fenceWaits, Bool.and_eq_true, Bool.or_eq_true, Bool.not_eq_true', List.any_eq_true, beq_iff_eq]
  refine and_congr_right fun _ => ?_
  rw [or_assoc]
  refine or_congr_right ⟨?_, ?_⟩
  · rintro (⟨x, hx, h⟩ | ⟨hs, x, hx, h⟩)
    exacts [⟨x, hx, .inl h⟩, ⟨x, hx, .inr ⟨hs, h⟩⟩]
  · rintro ⟨x, hx, h | ⟨hs, h⟩⟩
    exacts [.inl ⟨x, hx, h⟩, .inr ⟨hs, x, hx, h⟩]

theorem pubDone_iff (s : State) (g : Nat) :
    pubDone s g = true ↔ (∀ c ∈ s.cmds, c.pub ≠ some g) ∧ ∀ t ∈ s.tgrps, t.2.pub ≠ some g := by
  simp [pubDone]

/-- Where no command of the spoke belongs to a rewritten group, each that writes a tile buffer holds its panes once it runs (R118). -/
theorem panesHeld_iff {s : State} {o : Owner} (h : ∀ c ∈ s.cmds, c.owner = o → c.grp = none) :
    panesHeld s o = true ↔ ∀ c ∈ s.cmds, c.owner = o → Cmd.writesTb c = true → c.st = .running ∨ c.st = .parked ∨ c.st = .done := by
  unfold panesHeld
  rw [List.all_eq_true]
  refine forall₂_congr fun c hc => ?_
  by_cases ho : c.owner = o
  · rw [h c hc ho]
    simp [ho, imp_iff_not_or, or_assoc]
  · simp [ho]

/-! What a publication makes of the bytes (R119). -/

/-- Bytes published at distinct places of the tile buffers: each holds what was published, the others what they held. -/
theorem rdLoc_publish (ovl : Mem) (hd : ovl.Pairwise fun p q => p.1 ≠ q.1) (s : State) (a : Nat) :
    rdLoc (publish s ovl) ⟨.tb, a⟩ = match ovl.find? (·.1 == a) with | some p => p.2 | none => rdLoc s ⟨.tb, a⟩ := by
  unfold publish
  induction ovl generalizing s with
  | nil => rfl
  | cons p ovl ih =>
    obtain ⟨hp, hd⟩ := List.pairwise_cons.1 hd
    rw [List.foldl_cons, ih hd]
    by_cases e : p.1 = a
    · have hnone : ovl.find? (·.1 == a) = none := List.find?_eq_none.2 fun q hq => by simpa [← e] using (hp q hq).symm
      rw [hnone, List.find?_cons_of_pos (by simpa using e), e]
      exact rdLoc_wrLoc_same s p.2 fun h => by cases h
    · rw [List.find?_cons_of_neg (by simpa using e), rdLoc_wrLoc_ne s p.2 fun h => e (congrArg Loc.a h)]

theorem rdLoc_publish_ne (ovl : Mem) (s : State) {l : Loc} (h : l.sp ≠ .tb) : rdLoc (publish s ovl) l = rdLoc s l := by
  unfold publish
  induction ovl generalizing s with
  | nil => rfl
  | cons p ovl ih => rw [List.foldl_cons, ih, rdLoc_wrLoc_ne s p.2 fun e => h (congrArg Loc.sp e).symm]

theorem publish_rest (ovl : Mem) (s : State) : (publish s ovl).full = s.full ∧ (publish s ovl).pubs = s.pubs := by
  unfold publish
  induction ovl generalizing s with
  | nil => exact ⟨rfl, rfl⟩
  | cons p ovl ih => simpa using ih (wrLoc s ⟨.tb, p.1⟩ p.2)

/-- A spoke's group publishes its bytes, and it and its reservation are gone. -/
theorem pubClose_eq {s : State} {c n v g : Nat} {x : PubGrp} (h : (getSp s c n v).pub = some g) (hx : getPub s g = some x) :
    pubClose s c n v = modSp { publish s x.ovl with pubs := s.pubs.filter (·.1 != g) } c n v fun p => { p with pub := none } := by
  unfold pubClose
  rw [h]
  dsimp only
  rw [hx, (publish_rest x.ovl s).2]

/-! Back in the rotation. -/

/-- What keeps a spoke out of the rotation is the wait it is parked on. -/
theorem inRotation_wait {s : State} {c n v : Nat} {w : Wait} (hl : (getSp s c n v).ctx = .live) (hd : (getSp s c n v).divs = [])
    (ho : (getSp s c n v).outst.any (·.plain) = false) (hp : (getSp s c n v).park = .wait w) : inRotation s c n v = waitReady s c n v w := by
  simp [inRotation, hl, hd, ho, hp]

theorem wakeUp_wait {s : State} {c n v : Nat} {w : Wait} (hp : (getSp s c n v).park = .wait w) :
    wakeUp s c n v = waitDone (modSp s c n v keepEaten) c n v w := by
  have hk : (getSp (modSp s c n v keepEaten) c n v).park = .wait w := by rw [getSp_modSp, ← hp]; rfl
  unfold wakeUp
  dsimp only
  rw [hk]

/-- Settles O34: each wait by what it is for, and the publication byte by byte. -/
theorem fencesAndGroups : Obligations.FencesAndGroups := by
  unfold Obligations.FencesAndGroups
  refine ⟨fun s sc n g hw => ⟨completes_fence hw, completes_pgrp hw, completes_publ hw⟩, fun sc core r => ?_,
    fun s o g => ⟨pubDone_iff s g, panesHeld_iff⟩, fun s c n v g x h hx hd => ?_, fun s c n v => ?_⟩
  · intro tileHas
    rw [fenceWaits_iff, isLoad_iff, or_assoc]
    refine and_congr_right fun _ => or_congr_right (or_congr_right (exists_congr fun x => and_congr_right fun _ => ?_))
    cases sc with
    | sp => simp [scopeHas]
    | co => simp [scopeHas]
    | ti =>
      simp only [scopeHas, tileOf, tileHas, Bool.or_eq_true, Bool.and_eq_true, beq_iff_eq, reduceCtorEq, false_and, or_false]
      exact or_iff_right_of_imp fun ⟨hs, hc⟩ => .inl ⟨hs, congrArg (· / 16) hc⟩
    | dv => simp [scopeHas, or_assoc]
    | sy => cases hs : x.loc.sp <;> simp [scopeHas, hs]
  · rw [pubClose_eq h hx]
    have hmem : SameMem (publish s x.ovl) (modSp { publish s x.ovl with pubs := s.pubs.filter (·.1 != g) } c n v fun p => { p with pub := none }) :=
      modSp_sameMem { publish s x.ovl with pubs := s.pubs.filter (·.1 != g) } c n v _
    refine ⟨fun a => (hmem _).trans (rdLoc_publish _ hd s a), fun l hl => (hmem l).trans (rdLoc_publish_ne _ s hl), ?_, ?_, ?_⟩
    · exact (modSp_full ..).trans (publish_rest x.ovl s).1
    · rw [getSp_modSp]
    · exact modSp_pubs ..
  · intro p back hl hd ho
    refine ⟨fun sc hp => ⟨?_, ?_⟩, fun k hp => ⟨?_, ?_⟩, fun g hg hp => ⟨?_, ?_⟩⟩
    · rw [inRotation_wait hl hd ho hp]
      simp [waitReady, fenceClear, p]
    · rw [wakeUp_wait hp]; rfl
    · rw [inRotation_wait hl hd ho hp]
      rfl
    · rw [wakeUp_wait hp]; rfl
    · rw [inRotation_wait hl hd ho hp]
      simp only [waitReady]
      rw [hg]
    · rw [wakeUp_wait hp]; rfl

end Sys2Proof
end

section
/-! The register-only instructions: each is a change of its spoke's own registers, and leaves the rest of the device (R15, R21, R170, R323). -/

namespace Sys2Proof

open Machine

/-! A change of the issuing spoke alone. -/

/-- The state changes in its issuing spoke alone, and there within a relation. -/
structure CurFrame (R : Spoke → Spoke → Prop) (s t : State) : Prop where
  rest : ∃ a b, t = { s with cores := a, saved := b }
  others : ∀ c n v, c < 65536 → ¬ (s.cur.core = c ∧ s.cur.sp = n ∧ (s.cur.sp = 0 ∨ s.cur.vf = v)) → getSp t c n v = getSp s c n v
  own : R (curSp s) (curSp t)

namespace CurFrame

variable {R : Spoke → Spoke → Prop} {s t u : State}

theorem refl (hr : ∀ p, R p p) (s : State) : CurFrame R s s := ⟨⟨_, _, rfl⟩, fun _ _ _ _ _ => rfl, hr _⟩

theorem cur (h : CurFrame R s t) : t.cur = s.cur := by
  obtain ⟨a, b, e⟩ := h.rest
  rw [e]

theorem trans (hr : ∀ {p q r}, R p q → R q r → R p r) (h : CurFrame R s t) (k : CurFrame R t u) : CurFrame R s u := by
  obtain ⟨a, b, e⟩ := h.rest
  obtain ⟨c, d, f⟩ := k.rest
  refine ⟨⟨c, d, by rw [f, e]⟩, fun x n v hx hn => ?_, hr h.own k.own⟩
  rw [k.others x n v hx (by rw [h.cur]; exact hn), h.others x n v hx hn]

theorem modCur {f : Spoke → Spoke} (hf : ∀ p, R p (f p)) (hc : s.cur.core < 65536) : CurFrame R s (modCur s f) :=
  ⟨modCur_rest s f, fun _ _ _ hx hn => getSp_modCur_ne s f hc hx hn, by rw [curSp_modCur]; exact hf _⟩

end CurFrame

/-! What a register-only instruction may change of its spoke. -/

/-- The frame of a register-only instruction: the registers that it names, the PC, the line, and the count of the window. -/
structure RegFrame (i : Instr) (p q : Spoke) : Prop where
  rest : ∃ g v k fl pc want second line ahead w, q = { p with
    g := g, v := v, k := k, flags := fl, pc := pc, want := want, second := second, line := line, ahead := ahead, wcount := w }
  g : ∀ r : Fin 32, Reg.g r ∉ Instr.dests i → ⟨.g r, true⟩ ∉ Instr.uses i → q.g[r] = p.g[r]
  v : ∀ r : Fin 8, Reg.v r ∉ Instr.dests i → ⟨.v r, true⟩ ∉ Instr.uses i → q.v[r] = p.v[r]
  k : i.writesK = false → q.k = p.k
  flags : i.setsFlags = false → q.flags = p.flags
  grow : p.flags ||| q.flags = q.flags

namespace RegFrame

variable {i : Instr} {p q r : Spoke}

/-- A change that touches no register and no flag. -/
theorem of_place (hq : ∃ pc want second line ahead w, q = { p with
    pc := pc, want := want, second := second, line := line, ahead := ahead, wcount := w }) : RegFrame i p q := by
  obtain ⟨pc, want, second, line, ahead, w, rfl⟩ := hq
  exact ⟨⟨_, _, _, _, _, _, _, _, _, _, rfl⟩, fun _ _ _ => rfl, fun _ _ _ => rfl, fun _ => rfl, fun _ => rfl, BitVec.or_self⟩

theorem refl (i : Instr) (p : Spoke) : RegFrame i p p := of_place ⟨_, _, _, _, _, _, rfl⟩

theorem trans (h : RegFrame i p q) (h' : RegFrame i q r) : RegFrame i p r := by
  refine ⟨?_, fun x hd hu => (h'.g x hd hu).trans (h.g x hd hu), fun x hd hu => (h'.v x hd hu).trans (h.v x hd hu),
    fun e => (h'.k e).trans (h.k e), fun e => (h'.flags e).trans (h.flags e), ?_⟩
  · obtain ⟨_, _, _, _, _, _, _, _, _, _, e⟩ := h.rest
    obtain ⟨_, _, _, _, _, _, _, _, _, _, e'⟩ := h'.rest
    exact ⟨_, _, _, _, _, _, _, _, _, _, by rw [e', e]⟩
  · rw [← h'.grow, ← h.grow, ← BitVec.or_assoc, ← BitVec.or_assoc, BitVec.or_self]

theorem wrG {d : Fin 32} (x : Word) (hd : Reg.g d ∈ Instr.dests i) (p : Spoke) : RegFrame i p (p.wrG d x) := by
  have hrest : ∃ g, p.wrG d x = { p with g := g } := by
    unfold Spoke.wrG
    split
    exacts [⟨_, rfl⟩, ⟨_, rfl⟩]
  have hg (r : Fin 32) (hr : Reg.g r ∉ Instr.dests i) : (p.wrG d x).g[r] = p.g[r] := by
    rw [g_wrG, if_neg]
    rintro ⟨rfl, -⟩
    exact hr hd
  obtain ⟨g, e⟩ := hrest
  rw [e] at hg ⊢
  exact ⟨⟨_, _, _, _, _, _, _, _, _, _, rfl⟩, fun r hr _ => hg r hr, fun _ _ _ => rfl, fun _ => rfl, fun _ => rfl, BitVec.or_self⟩

theorem wrV {d : Fin 8} (x : Vector Lane 32) (hd : Reg.v d ∈ Instr.dests i) (p : Spoke) : RegFrame i p (p.wrV d x) := by
  refine ⟨⟨_, _, _, _, _, _, _, _, _, _, rfl⟩, fun _ _ _ => rfl, fun r hr _ => ?_, fun _ => rfl, fun _ => rfl, BitVec.or_self⟩
  have hne : d ≠ r := fun e => hr (e ▸ hd)
  exact (getElem_set_fin p.v d r _).trans (if_neg hne)

theorem setK (k : Vector Lane 4) (hk : i.writesK = true) (p : Spoke) : RegFrame i p { p with k := k } :=
  ⟨⟨_, _, _, _, _, _, _, _, _, _, rfl⟩, fun _ _ _ => rfl, fun _ _ _ => rfl, fun e => absurd (hk.symm.trans e) Bool.noConfusion, fun _ => rfl,
    BitVec.or_self⟩

theorem orFlags {f : BitVec 5} (hf : i.setsFlags = false → f = 0) (p : Spoke) : RegFrame i p (p.orFlags f) := by
  refine ⟨⟨_, _, _, _, _, _, _, _, _, _, rfl⟩, fun _ _ _ => rfl, fun _ _ _ => rfl, fun _ => rfl, fun e => ?_, ?_⟩
  · rw [hf e]
    exact BitVec.or_zero
  · show p.flags ||| (p.flags ||| f) = p.flags ||| f
    rw [← BitVec.or_assoc, BitVec.or_self]

theorem pointAt (p : Spoke) (pc : Word) (k : EntryKind) : RegFrame i p (pointAt p pc k) := by
  refine of_place ?_
  unfold Machine.pointAt
  split
  exacts [⟨_, _, _, _, _, _, rfl⟩, ⟨_, _, _, _, _, _, rfl⟩]

/-- A source that is consumed changes in its presence alone (R21). -/
theorem clrR {x : Reg} (hx : ⟨x, true⟩ ∈ Instr.uses i) (p : Spoke) : RegFrame i p (p.clrR x) := by
  cases x with
  | g a =>
    show RegFrame i p (p.clrG a)
    unfold Spoke.clrG
    split
    · exact refl i p
    · refine ⟨⟨_, _, _, _, _, _, _, _, _, _, rfl⟩, fun r _ hr => ?_, fun _ _ _ => rfl, fun _ => rfl, fun _ => rfl, BitVec.or_self⟩
      have hne : a ≠ r := fun e => hr (e ▸ hx)
      exact (getElem_set_fin p.g a r _).trans (if_neg hne)
  | v a =>
    refine ⟨⟨_, _, _, _, _, _, _, _, _, _, rfl⟩, fun _ _ _ => rfl, fun r _ hr => ?_, fun _ => rfl, fun _ => rfl, BitVec.or_self⟩
    have hne : a ≠ r := fun e => hr (e ▸ hx)
    exact (getElem_set_fin p.v a r _).trans (if_neg hne)

/-- The reads of the sources change the presence of those that are consumed (R21). -/
theorem consume {us : List Use} (hu : ∀ u ∈ us, u ∈ Instr.uses i) (p : Spoke) : RegFrame i p (p.consume us) := by
  induction us generalizing p with
  | nil => exact refl i p
  | cons u us ih =>
    obtain ⟨hu, hus⟩ := List.forall_mem_cons.1 hu
    obtain ⟨x, b⟩ := u
    cases b with
    | true => exact (clrR hu p).trans (ih hus (p.clrR x))
    | false => exact ih hus p

end RegFrame

/-! From the body of an instruction to its completion. -/

/-- The meaning of an instruction on the state in which its sources are read: it completes, with a change of its own registers. -/
def RegBody (i : Instr) (s : State) : Prop :=
  ∃ body t, exec i s = .next (issue i s body) ∧ body (taken i s) = .done t ∧ CurFrame (RegFrame i) (taken i s) t

theorem regFrame_taken (i : Instr) {s : State} (hc : s.cur.core < 65536) : CurFrame (RegFrame i) s (taken i s) := by
  have hcount : CurFrame (RegFrame i) s (countIssue s) := by
    unfold countIssue
    split
    · exact .refl (RegFrame.refl i) s
    · exact .modCur (fun p => .of_place ⟨_, _, _, _, _, _, rfl⟩) hc
  exact CurFrame.trans RegFrame.trans hcount (.modCur (RegFrame.consume fun _ h => h) (by rw [countIssue_cur]; exact hc))

/-- An instruction with such a meaning changes its own registers, and moves on. -/
theorem regFrame_exec {i : Instr} {s t : State} (hb : RegBody i s) (h : Ready i s) (hc : s.cur.core < 65536) (hx : exec i s = .next t) :
    CurFrame (RegFrame i) s t := by
  obtain ⟨body, u, hi, hu, hframe⟩ := hb
  have hsu : CurFrame (RegFrame i) s u := CurFrame.trans RegFrame.trans (regFrame_taken i hc) hframe
  have hcalm : (curSp s).win = [] ∨ blocked (curSp u) = false := by
    refine h.window.imp_right fun hw => ?_
    obtain ⟨_, _, _, _, _, _, _, _, _, _, e⟩ := hsu.own.rest
    rw [e]
    exact hw.2
  have hdone := completes_done h hi hu hcalm
  unfold Completes at hdone
  rw [hx] at hdone
  cases hdone
  unfold settle
  dsimp only
  split
  · exact hsu
  · exact CurFrame.trans RegFrame.trans hsu (.modCur (fun p => .pointAt p _ .seq) (by rw [hsu.cur]; exact hc))

section Bodies

variable {i : Instr} {s : State}

theorem regBody_doneP {f : State → Spoke → Spoke} (hc : s.cur.core < 65536) (hx : exec i s = .next (issue i s fun t => doneP t (f t)))
    (hf : ∀ t p, RegFrame i p (f t p)) : RegBody i s :=
  ⟨_, _, hx, rfl, .modCur (hf _) (by rw [taken_cur]; exact hc)⟩

theorem regBody_doneG {d : Fin 32} {f : State → Word} (hc : s.cur.core < 65536) (hx : exec i s = .next (issue i s fun t => doneG t d (f t)))
    (hd : Reg.g d ∈ Instr.dests i) : RegBody i s :=
  regBody_doneP hc (f := fun t p => p.wrG d (f t)) hx fun t => RegFrame.wrG (f t) hd

/-- Lanes whose operation sets no flag set none (R419). -/
theorem laneFlags_zero (p : Spoke) (km : Fin 4) {f : Fin 32 → Lane × BitVec 5} (h : ∀ j, (f j).2 = 0) : laneFlags p km f = 0 := by
  unfold laneFlags
  simp [h]

theorem regBody_doneV {km : Fin 4} {d : Fin 8} {f : State → Fin 32 → Lane × BitVec 5} (hc : s.cur.core < 65536)
    (hx : exec i s = .next (issue i s fun t => doneV t km d (f t))) (hd : Reg.v d ∈ Instr.dests i)
    (hf : i.setsFlags = true ∨ ∀ t j, (f t j).2 = 0) : RegBody i s := by
  refine regBody_doneP hc (f := fun t p => (p.wrV d (laneMix p km d (f t))).orFlags (laneFlags p km (f t))) hx fun t p => ?_
  refine (RegFrame.wrV _ hd p).trans (RegFrame.orFlags (fun e => ?_) _)
  rcases hf with hs | hz
  · rw [hs] at e
    cases e
  · exact laneFlags_zero p km (hz t)

theorem regBody_wrV {d : Fin 8} {f : State → Spoke → Vector Lane 32} (hc : s.cur.core < 65536)
    (hx : exec i s = .next (issue i s fun t => doneP t fun p => p.wrV d (f t p))) (hd : Reg.v d ∈ Instr.dests i) : RegBody i s :=
  regBody_doneP hc (f := fun t p => p.wrV d (f t p)) hx fun t p => RegFrame.wrV (f t p) hd p

theorem regBody_doneK {d : Fin 4} {f : State → Lane} (hc : s.cur.core < 65536) (hx : exec i s = .next (issue i s fun t => doneK t d (f t)))
    (hk : i.writesK = true) : RegBody i s :=
  regBody_doneP hc (f := fun t p => { p with k := p.k.set d (f t) }) hx fun t p => RegFrame.setK _ hk p

/-- A reduction writes a general register and sets flags (R174, R435). -/
theorem regBody_reduce {d : Fin 32} {x : State → Word} {f : State → BitVec 5} (hc : s.cur.core < 65536)
    (hx : exec i s = .next (issue i s fun t => doneP t fun p => (p.wrG d (x t)).orFlags (f t))) (hd : Reg.g d ∈ Instr.dests i)
    (hs : i.setsFlags = true) : RegBody i s := by
  refine regBody_doneP hc (f := fun t p => (p.wrG d (x t)).orFlags (f t)) hx fun t p => ?_
  exact (RegFrame.wrG _ hd p).trans (.orFlags (fun e => absurd (hs.symm.trans e) Bool.noConfusion) _)

/-- A quantisation writes a vector register and sets flags (R175, R434). -/
theorem regBody_quantise {d : Fin 8} {x : State → Vector Lane 32} {f : State → BitVec 5} (hc : s.cur.core < 65536)
    (hx : exec i s = .next (issue i s fun t => doneP t fun p => (p.wrV d (x t)).orFlags (f t))) (hd : Reg.v d ∈ Instr.dests i)
    (hs : i.setsFlags = true) : RegBody i s := by
  refine regBody_doneP hc (f := fun t p => (p.wrV d (x t)).orFlags (f t)) hx fun t p => ?_
  exact (RegFrame.wrV _ hd p).trans (.orFlags (fun e => absurd (hs.symm.trans e) Bool.noConfusion) _)

/-- A comparison of lanes writes a mask register and sets flags (R425). -/
theorem regBody_compare {x : State → Spoke → Vector Lane 4} {f : State → Spoke → BitVec 5} (hc : s.cur.core < 65536)
    (hx : exec i s = .next (issue i s fun t => doneP t fun p => { p with k := x t p }.orFlags (f t p))) (hk : i.writesK = true)
    (hs : i.setsFlags = true) : RegBody i s := by
  refine regBody_doneP hc hx fun t p => ?_
  have hset : RegFrame i p { p with k := x t p } := RegFrame.setK _ hk p
  exact hset.trans (.orFlags (fun e => absurd (hs.symm.trans e) Bool.noConfusion) _)

end Bodies

/-- Each register-only instruction has such a meaning. -/
theorem regBody_of_regOnly {i : Instr} {s : State} (hi : i.regOnly = true) (hc : s.cur.core < 65536) : RegBody i s := by
  have hsc (d : Fin 32) : Reg.g d ∈ [Reg.g d] := List.mem_singleton_self _
  have hve (d : Fin 8) : Reg.v d ∈ [Reg.v d] := List.mem_singleton_self _
  cases i with
  | addRrr d a b | subRrr d a b | mulRrr d a b | andRrr d a b | orRrr d a b | xorRrr d a b | andnRrr d a b | shlRrr d a b | shrRrr d a b
    | sraRrr d a b | rotRrr d a b | addRri d a b | subRri d a b | mulRri d a b | andRri d a b | orRri d a b | xorRri d a b | andnRri d a b
    | shlRri d a b | shrRri d a b | sraRri d a b | rotRri d a b | lih d a b | lea d a b | sext d a b =>
    cases d with
    | loc r => exact regBody_doneG hc rfl (hsc r)
    | remote r k => cases hi
  | mulhRrr d a b u | minRrr d a b u | maxRrr d a b u | cmpRrr d a b u | mulhRri d a b u | minRri d a b u | maxRri d a b u | cmpRri d a b u
    | bfx d a b u =>
    cases d with
    | loc r => exact regBody_doneG hc rfl (hsc r)
    | remote r k => cases hi
  | clz d a | ctz d a | popc d a | mov d a | li d a =>
    cases d with
    | loc r => exact regBody_doneG hc rfl (hsc r)
    | remote r k => cases hi
  | bfi d a b c e =>
    cases d with
    | loc r => exact regBody_doneG hc rfl (hsc r)
    | remote r k => cases hi
  | sel d a b c => exact regBody_doneG hc rfl (hsc d)
  | vext d a b | ptest d a b => exact regBody_doneG hc rfl (hsc d)
  | kpop d a => exact regBody_doneG hc rfl (hsc d)
  | vadd rnd sat km d a b | vsub rnd sat km d a b | vmul rnd sat km d a b => exact regBody_doneV hc rfl (hve d) (.inl rfl)
  | vfma rnd sat km d a b c => exact regBody_doneV hc rfl (hve d) (.inl rfl)
  | vcvt df sf rnd sat km d a => exact regBody_doneV hc rfl (hve d) (.inl rfl)
  | viadd sat km d a b | vimul sat km d a b => exact regBody_doneV hc rfl (hve d) (.inl rfl)
  | vmin km d a b | vmax km d a b => exact regBody_doneV hc rfl (hve d) (.inl rfl)
  | vexp2 km d a | vrcp km d a | vrsq km d a => exact regBody_doneV hc rfl (hve d) (.inl rfl)
  | vand km d a b | vor km d a b | vxor km d a b | vshl km d a b | vshr km d a b | vperm km d a b =>
    exact regBody_doneV hc rfl (hve d) (.inr fun _ _ => rfl)
  | vabs km d a | vneg km d a | vbcast km d a => exact regBody_doneV hc rfl (hve d) (.inr fun _ _ => rfl)
  | vrng w km d a b => exact regBody_doneV hc rfl (hve d) (.inr fun _ _ => rfl)
  | vsel d a b k => exact regBody_wrV hc rfl (hve d)
  | vins d a b l => exact regBody_wrV hc rfl (hve d)
  | kand d a b | kor d a b => exact regBody_doneK hc rfl rfl
  | knot d a => exact regBody_doneK hc rfl rfl
  | vredadd km d a | vredmax km d a => exact regBody_reduce hc rfl (hsc d) rfl
  | vcmp c km d a b => exact regBody_compare hc rfl rfl rfl
  | vqnt f km d a => exact regBody_quantise hc rfl (hve d) rfl
  | nop => exact ⟨_, _, rfl, rfl, .refl (RegFrame.refl _) _⟩
  | _ => exact Bool.noConfusion hi

/-- Settles O38: the frame of the body, with the reads before it and the move of the PC behind it. -/
theorem registerFrame : Obligations.RegisterFrame := by
  unfold Obligations.RegisterFrame
  intro i s t hi h hcore hx k p q
  have hc : s.cur.core < 65536 := lt_trans hcore (by decide)
  have hf := regFrame_exec (regBody_of_regOnly hi hc) h hc hx
  refine ⟨?_, fun c n v hc' hn => hf.others c n v hc' fun ⟨h1, h2, h3⟩ => hn ⟨h1.symm, h2.symm, ?_⟩, ?_, hf.own.g, hf.own.v, hf.own.k, hf.own.flags, hf.own.grow⟩
  · obtain ⟨a, b, e⟩ := hf.rest
    rw [e]
  · exact h3.imp (fun e => h2 ▸ e) Eq.symm
  · obtain ⟨_, _, _, _, _, _, _, _, _, _, e⟩ := hf.own.rest
    show curSp t = _
    simp only [q, e]
    rfl

end Sys2Proof
end

section
/-! Messages: sent by WAKE, popped, looped back, delivered, held and lost (R28 to R33, R263, R358). -/

namespace Sys2Proof

open Machine

/-! The inboxes behind an update of a spoke. -/

/-- A spoke that is written changes a core's context in its spokes alone. -/
theorem getCtx_setSp (s : State) (c n v d w : Nat) (p : Spoke) :
    ∃ sps, getCtx (setSp s c n v p) d w = { getCtx s d w with spokes := sps } := by
  by_cases hn : n = 0
  · have hset : setSp s c n v p = setCore s c { getCore s c with hub := p } := if_pos hn
    rw [hset]
    by_cases hw : vfOf s d = w
    · rw [getCtx_live (s := setCore s c _) hw, getCtx_live hw]
      by_cases hc : c = d
      · subst hc
        rw [getCore_setCore]
        exact ⟨_, rfl⟩
      · rw [getCore_setCore_ne s _ hc]
        exact ⟨_, rfl⟩
    · rw [getCtx_saved (s := setCore s c _) hw, getCtx_saved hw]
      exact ⟨_, rfl⟩
  · have hset : setSp s c n v p = setCtx s c v { getCtx s c v with spokes := mset (getCtx s c v).spokes n p } := if_neg hn
    rw [hset]
    rcases getCtx_setCtx_cases s c v d w { getCtx s c v with spokes := mset (getCtx s c v).spokes n p } with ⟨h, k⟩ | h
    · rw [h, k]
      exact ⟨_, rfl⟩
    · rw [h]
      exact ⟨_, rfl⟩

@[simp] theorem inbox_modSp (s : State) (c n v d w : Nat) (f : Spoke → Spoke) : (getCtx (modSp s c n v f) d w).inbox = (getCtx s d w).inbox := by
  obtain ⟨sps, e⟩ := getCtx_setSp s c n v d w (f (getSp s c n v))
  rw [modSp, e]

/-! Delivery (R29). -/

/-- A register can take a message: it is empty and waits for nothing. -/
def Takes (p : Spoke) (r : Fin 32) : Prop := p.fullG r = false ∧ p.pendG r = .no

/-- What a delivery does to any spoke: registers alone change, and no register becomes one that can take a message. -/
def Delivered (p q : Spoke) : Prop := (∃ g, q = { p with g := g }) ∧ ∀ r, Takes q r → Takes p r

theorem Delivered.refl (p : Spoke) : Delivered p p := ⟨⟨_, rfl⟩, fun _ => id⟩

theorem Delivered.trans {p q r : Spoke} (h : Delivered p q) (k : Delivered q r) : Delivered p r := by
  obtain ⟨⟨g, rfl⟩, h⟩ := h
  obtain ⟨⟨g', rfl⟩, k⟩ := k
  exact ⟨⟨g', rfl⟩, fun r => h r ∘ k r⟩

/-- A written register can take no message. -/
theorem not_takes_wrG (p : Spoke) (d : Fin 32) (x : Word) : ¬ Takes (p.wrG d x) d := by
  rintro ⟨hf, -⟩
  by_cases hd : d = 0
  · simp [Spoke.fullG, hd] at hf
  · simp [Spoke.fullG, Spoke.wrG, hd] at hf

theorem delivered_wrG (p : Spoke) (d : Fin 32) (x : Word) : Delivered p (p.wrG d x) := by
  refine ⟨?_, fun r hr => ?_⟩
  · unfold Spoke.wrG
    split
    exacts [⟨_, rfl⟩, ⟨_, rfl⟩]
  · by_cases e : d = r
    · exact absurd (e ▸ hr) (not_takes_wrG p d x)
    · have hg : (p.wrG d x).g[r] = p.g[r] := (g_wrG ..).trans (if_neg fun h => e h.1)
      unfold Takes Spoke.fullG Spoke.pendG at hr ⊢
      rwa [hg] at hr

theorem canDeliver_iff (s : State) (v : Nat) (m : Msg) :
    canDeliver s v m = true ↔ m.wake = false ∧ vfOf s m.core = v ∧ (getSp s m.core m.sp v).ctx = .live ∧ Takes (getSp s m.core m.sp v) (regN m.reg) := by
  simp [canDeliver, Takes, and_assoc]

/-- What cannot be delivered cannot be after other deliveries. -/
theorem canDeliver_mono {s t : State} (h : SpFrame Delivered s t) {v : Nat} {m : Msg} (hm : canDeliver t v m = true) : canDeliver s v m = true := by
  obtain ⟨hw, hv, hl, ht⟩ := (canDeliver_iff t v m).1 hm
  obtain ⟨⟨g, e⟩, hk⟩ := h.sp m.core m.sp v
  exact (canDeliver_iff s v m).2 ⟨hw, (h.vf _).symm.trans hv, by rw [e] at hl; exact hl, hk _ ht⟩

theorem spFrame_deliver (s : State) (v : Nat) (m : Msg) : SpFrame Delivered s (deliver s v m) :=
  spFrame_modSp Delivered.refl (fun p => delivered_wrG p _ _) s _ _ _

/-- A delivered message fills its register, which can take no other (R29). -/
theorem canDeliver_deliver (s : State) (v : Nat) (m : Msg) : canDeliver (deliver s v m) v m = false := by
  by_contra h
  obtain ⟨-, -, -, ht⟩ := (canDeliver_iff ..).1 (Bool.eq_true_of_not_eq_false h)
  rw [deliver, getSp_modSp] at ht
  exact not_takes_wrG _ _ _ ht

/-- One step of the delivery of held messages (R29). -/
def deliverStep (c v : Nat) (s : State) (m : Msg) : State :=
  if canDeliver s v m then deliver (modCtx s c v fun x => { x with inbox := x.inbox.erase m }) v m else s

theorem spFrame_deliverStep (c v : Nat) (s : State) (m : Msg) : SpFrame Delivered s (deliverStep c v s m) := by
  unfold deliverStep
  split
  · have h : SpKept s (modCtx s c v fun x => { x with inbox := x.inbox.erase m }) := spKept_modCtx (by intro _; rfl) s c v
    exact SpFrame.trans Delivered.trans (h.frame Delivered.refl) (spFrame_deliver _ v m)
  · exact .refl Delivered.refl s

theorem inbox_deliverStep (c v : Nat) (s : State) (m : Msg) : ∀ x ∈ (getCtx (deliverStep c v s m) c v).inbox, x ∈ (getCtx s c v).inbox := by
  intro x hx
  unfold deliverStep at hx
  split at hx
  · rw [deliver, inbox_modSp, modCtx, getCtx_setCtx] at hx
    exact List.mem_of_mem_erase hx
  · exact hx

theorem canDeliver_deliverStep (c v : Nat) (s : State) (m : Msg) : canDeliver (deliverStep c v s m) v m = false := by
  unfold deliverStep
  split
  · exact canDeliver_deliver _ v m
  next h => exact Bool.eq_false_iff.2 h

theorem spFrame_deliverHeld (s : State) (c v : Nat) : SpFrame Delivered s (deliverHeld s c v) :=
  SpFrame.foldl Delivered.refl Delivered.trans _ (spFrame_deliverStep c v) s

/-- None of the messages of a list can be delivered once each has had its turn, and what is left was there before. -/
theorem deliverSteps_done (c v : Nat) (l : List Msg) (s : State) :
    (∀ m ∈ l, canDeliver (l.foldl (deliverStep c v) s) v m = false)
      ∧ ∀ m ∈ (getCtx (l.foldl (deliverStep c v) s) c v).inbox, m ∈ (getCtx s c v).inbox := by
  induction l generalizing s with
  | nil => exact ⟨List.forall_mem_nil _, fun _ h => h⟩
  | cons x l ih =>
    obtain ⟨h1, h2⟩ := ih (deliverStep c v s x)
    have hrest := SpFrame.foldl Delivered.refl Delivered.trans l (spFrame_deliverStep c v) (deliverStep c v s x)
    refine ⟨List.forall_mem_cons.2 ⟨?_, h1⟩, fun m hm => inbox_deliverStep c v s x m (h2 m hm)⟩
    by_contra h
    exact absurd (canDeliver_mono hrest (Bool.eq_true_of_not_eq_false h)) (by rw [canDeliver_deliverStep]; decide)

/-- No held message that could be delivered is left to be popped (R29). -/
theorem held_after_delivery (s : State) (c v : Nat) : ∀ m ∈ (getCtx (deliverHeld s c v) c v).inbox, canDeliver (deliverHeld s c v) v m = false := by
  intro m hm
  obtain ⟨h1, h2⟩ := deliverSteps_done c v (getCtx s c v).inbox s
  exact h1 m (h2 m hm)

/-! The instructions. -/

theorem taken_sameMem (i : Instr) (s : State) : SameMem s (taken i s) := by
  obtain ⟨a, b, e⟩ := taken_rest i s
  rw [e]
  exact fun _ => rfl

@[simp] theorem taken_mesh (i : Instr) (s : State) : (taken i s).mesh = s.mesh := by
  obtain ⟨a, b, e⟩ := taken_rest i s
  rw [e]

@[simp] theorem taken_nextId (i : Instr) (s : State) : (taken i s).nextId = s.nextId := by
  obtain ⟨a, b, e⟩ := taken_rest i s
  rw [e]

theorem hubOnly_taken {i : Instr} {s : State} (h0 : s.cur.sp = 0) (hk : (curSp s).dom = kernelDom) : hubOnly (taken i s) = true := by
  simp [hubOnly, h0, hk]

/-- WAKE sends its token (R263, R437). -/
theorem completes_wake {s : State} {a : Src} (h : Ready (.wake a) s) (hbad : tokBad (src s a) = false)
    (hden : (curSp s).dom = kernelDom ∨ srwrDenied (taken (.wake a) s) s.cur.vf (curSp s).dom 11 = none)
    (hin : isSvc s s.cur.core = true ∨ inPart s s.cur.vf (tokCore (src s a)) = true ∨ isSvc s (tokCore (src s a)) = true) :
    Completes (.wake a) s (sendMsg (taken (.wake a) s)
      (wakeMsg (src s a) s.cur.core s.cur.sp (if isSvc s s.cur.core then 0 else s.cur.vf))) := by
  have hcalm : (curSp s).win = [] ∨ blocked (curSp (sendMsg (taken (.wake a) s)
      (wakeMsg (src s a) s.cur.core s.cur.sp (if isSvc s s.cur.core then 0 else s.cur.vf)))) = false := by
    rw [curSp_sendMsg, blocked_taken]
    exact h.window.imp_right And.right
  refine completes_done h rfl ?_ hcalm
  have hden' : (if (curSp s).dom = kernelDom then none else srwrDenied (taken (.wake a) s) s.cur.vf (curSp s).dom 11) = none := by
    split
    · rfl
    next hn => exact hden.resolve_left hn
  have hin' : ¬ (¬ isSvc s s.cur.core = true ∧ ¬ inPart s s.cur.vf (tokCore (src s a)) = true ∧ ¬ isSvc s (tokCore (src s a)) = true) := by
    rintro ⟨h1, h2, h3⟩
    rcases hin with h | h | h
    exacts [h1 h, h2 h, h3 h]
  dsimp only
  rw [src_taken, hbad, if_neg Bool.false_ne_true, dom_taken, taken_cur, hden']
  dsimp only
  rw [isSvc_taken, inPart_taken, isSvc_taken, if_neg hin']

/-- A context whose spokes stay is written with every spoke as it was. -/
theorem spKept_setCtx {s : State} {c v : Nat} {x : CoreCtx} (hx : x.spokes = (getCtx s c v).spokes) : SpKept s (setCtx s c v x) := by
  have h := spKept_modCtx (f := fun y => { x with spokes := y.spokes }) (by intro _; rfl) s c v
  have e : { x with spokes := (getCtx s c v).spokes } = x := by rw [← hx]
  rwa [modCtx, e] at h

/-- A pop leaves a spoke unblocked: it has delivered, and has written registers. -/
theorem ibpop_calm {i : Instr} {s u : State} (hr : Ready i s) (hu : SpFrame Delivered (taken i s) u) (h v : Fin 32) (x y : Word) :
    (curSp s).win = [] ∨ blocked (curSp (modCur u fun p => (p.wrG h x).wrG v y)) = false := by
  refine hr.window.imp_right fun hw => ?_
  have hcur : curSp u = getSp u (taken i s).cur.core (taken i s).cur.sp (taken i s).cur.vf := by rw [curSp, hu.cur]
  obtain ⟨⟨g, e⟩, -⟩ := ((hu.sp (taken i s).cur.core (taken i s).cur.sp (taken i s).cur.vf).trans (delivered_wrG _ h x)).trans (delivered_wrG _ v y)
  rw [curSp_modCur, hcur, e]
  exact (blocked_taken i s).trans hw.2

/-- What IBPOP answers once the held messages have been delivered (R32, R358). -/
theorem exec_ibpop_body {s : State} {h v : Fin 32} (h0 : s.cur.sp = 0) (hk : (curSp s).dom = kernelDom) :
    let t := deliverHeld (taken (.ibpop h v) s) s.cur.core s.cur.vf
    let x := getCtx t s.cur.core s.cur.vf
    ∃ body, exec (.ibpop h v) s = .next (issue (.ibpop h v) s body)
      ∧ (x.inbox = [] → body (taken (.ibpop h v) s) = doneP t fun p => (p.wrG h (BitVec.allOnes 64)).wrG v 0)
      ∧ ∀ m r, x.inbox = m :: r → body (taken (.ibpop h v) s)
          = doneP (setCtx t s.cur.core s.cur.vf { x with inbox := r }) fun p => (p.wrG h m.header).wrG v m.val := by
  intro t x
  refine ⟨_, rfl, fun hnil => ?_, fun m r hm => ?_⟩ <;> dsimp only <;> rw [hubOnly_taken h0 hk, Bool.not_true, if_neg Bool.false_ne_true, taken_cur]
  · rw [hnil]
  · rw [hm]

theorem waitOn_loopback (t : State) (h x : Word) :
    waitOn t (.loopback h x) = if loopRoom (getCtx t t.cur.core t.cur.vf) then inboxArrive (parked .none t) (replayMsg t.cur.core t.cur.vf h x)
      else parked (.wait (.loopback h x)) t := rfl

/-- Settles O44: the answer of each, with the deliveries that come before a pop. -/
theorem messagesSent : Obligations.MessagesSent := by
  unfold Obligations.MessagesSent
  intro s a b h v k
  refine ⟨fun hr => ?_, fun hr h0 hk => ?_, fun hr hw h0 hk hf hz => ?_⟩
  · intro tok hbad hden hin
    refine ⟨_, completes_wake hr hbad hden hin, SameMem.trans (taken_sameMem _ s) (sendMsg_sameMem _ _), ?_⟩
    simp only [sendMsg, taken_mesh, taken_nextId]
    rfl
  · intro t x
    obtain ⟨body, hx, hempty, holdest⟩ := exec_ibpop_body (h := h) (v := v) h0 hk
    have hframe : SpFrame Delivered (taken (.ibpop h v) s) t := spFrame_deliverHeld _ _ _
    refine ⟨fun hnil => ?_, held_after_delivery _ _ _, fun m r hm => ?_⟩
    · exact completes_done hr hx (hempty hnil) (ibpop_calm hr hframe h v _ _)
    · have hpop : SpKept t (setCtx t k.core k.vf { x with inbox := r }) := spKept_setCtx rfl
      exact completes_done hr hx (holdest m r hm) (ibpop_calm hr (SpFrame.trans Delivered.trans hframe (hpop.frame Delivered.refl)) h v _ _)
  · intro t
    refine completes_done hr rfl ?_ (.inl hw)
    have hok : ¬ (fieldN (src s a) 30 34 ≠ 0 ∨ fieldN (src s a) 0 4 = 0 ∧ bitN (src s a) 9 = true) := not_or.2 ⟨not_not.2 hf, hz⟩
    dsimp only
    rw [hubOnly_taken h0 hk, Bool.not_true, if_neg Bool.false_ne_true, src_taken, src_taken, if_neg hok, waitOn_loopback, taken_cur]

/-! Arrival (R28 to R31). -/

theorem exec_inboxMessageArrival {s : State} {idx : Nat} {m : Msg} (hm : s.mesh[idx]? = some m) (hf : (s.mesh.take idx).any (sameLane m) = false) :
    exec (.inboxMessageArrival idx) s = .next (inboxArrive { s with mesh := dropAt s.mesh idx } m) := by
  show execInboxMessageArrival idx s = _
  unfold execInboxMessageArrival
  rw [hm]
  exact if_neg (by rw [hf]; decide)

theorem inboxArrive_lost {s : State} {m : Msg} (h : msgLost s m = true) : inboxArrive s m = dropMsgs s m.core 1 := if_pos h

/-- Behind no message at the port, a message is taken (R31). -/
theorem inboxArrive_portNil {s : State} {m : Msg} (h : msgLost s m = false) (hp : (getCtx s m.core (msgCtx s m)).port = []) :
    inboxArrive s m = inboxTake s m.core (msgCtx s m) m := by
  unfold inboxArrive
  simp only [h, hp]
  rfl

/-- Where every entry that it could take is occupied, a message waits at the port (R31). -/
theorem inboxArrive_full {s : State} {m : Msg} (h : msgLost s m = false) (hr : inboxRoom (getCtx s m.core (msgCtx s m)) m = false) :
    inboxArrive s m = setCtx s m.core (msgCtx s m) { getCtx s m.core (msgCtx s m) with port := (getCtx s m.core (msgCtx s m)).port ++ [m] } := by
  have htake : inboxTake s m.core (msgCtx s m) m
      = setCtx s m.core (msgCtx s m) { getCtx s m.core (msgCtx s m) with port := (getCtx s m.core (msgCtx s m)).port ++ [m] } := by
    unfold inboxTake
    simp only [hr]
    rfl
  unfold inboxArrive
  rw [if_neg (by rw [h]; decide)]
  dsimp only
  rw [htake, ite_self]

theorem inboxTake_delivers {s : State} {c v : Nat} {m : Msg} (hr : inboxRoom (getCtx s c v) m = true) (hd : canDeliver s v m = true)
    (hh : heldFor (getCtx s c v) m = false) : inboxTake s c v m = deliver s v m := by
  unfold inboxTake
  simp only [hr, hd, hh]
  rfl

theorem inboxTake_holds {s : State} {c v : Nat} {m : Msg} (hr : inboxRoom (getCtx s c v) m = true)
    (h : canDeliver s v m = false ∨ heldFor (getCtx s c v) m = true) :
    inboxTake s c v m = touchSave (alarm (setCtx s c v { getCtx s c v with inbox := (getCtx s c v).inbox ++ [m] }) c v ((getCtx s c v).inbox.length + 1)) c v := by
  have hn : (canDeliver s v m && !heldFor (getCtx s c v) m) = false := by rcases h with h | h <;> simp [h]
  unfold inboxTake
  simp only [hr, Bool.true_and, hn]
  rfl

/-- The state of a core on the chip has no place in the save area. -/
theorem touchSave_resident {s : State} {c v : Nat} (h : vfOf s c = v) : touchSave s c v = s := by
  unfold touchSave
  split
  · rfl
  · exact if_pos (.inl h)

theorem vfOf_modOwner (s : State) (o : Owner) (f : Spoke → Spoke) (d : Nat) : vfOf (modOwner s o f) d = vfOf s d := by
  unfold modOwner
  split
  · simp [modSp]
  · dsimp only
    split
    · exact (spKept_setImage ..).vf d
    · rfl
  · rfl

theorem vfOf_storeF (s : State) (a x d : Nat) : vfOf (storeF s a x) d = vfOf s d := by
  have hrel (ws : List BankWaiter) (y : Word) (t : State) : vfOf (ws.foldl (fun s w => releaseBank s w y) t) d = vfOf t d := by
    induction ws generalizing t with
    | nil => rfl
    | cons w ws ih => exact (ih _).trans (vfOf_modOwner ..)
  unfold storeF fillWord
  dsimp only
  rw [hrel]
  simp [vfOf, isSvc, getHalf, setPresent]

theorem wake_of_canDeliver {s : State} {v : Nat} {m : Msg} (h : canDeliver s v m = true) : m.wake = false := ((canDeliver_iff s v m).1 h).1

/-- A message that is not lost names a register other than 0 (R30). -/
theorem regN_ne_zero {s : State} {m : Msg} (h : msgLost s m = false) (hw : m.wake = false) (hr : m.reg < 32) : regN m.reg ≠ 0 := by
  have h0 : m.reg ≠ 0 := by
    intro e
    simp [msgLost, hw, e] at h
  intro e
  have : m.reg % 32 = 0 := congrArg Fin.val e
  omega

/-- Settles O45: the branches of an arrival in the order of R30 and R31, and the two later events. -/
theorem messagesDelivered : Obligations.MessagesDelivered := by
  unfold Obligations.MessagesDelivered
  refine ⟨fun s idx m hm hf => ?_, fun s core vf idx m hm hc hd hf => ?_, fun s core vf idx m hm hf hl hr => ?_⟩
  · intro u v x
    have hx := exec_inboxMessageArrival hm hf
    refine ⟨fun hl => ?_, fun hl hp hr hd hh hreg => ?_, fun hl hp hd hr => ?_, fun hl hr => ?_, ?_⟩
    · rw [hx, inboxArrive_lost hl]
    · rw [hx, inboxArrive_portNil hl hp, inboxTake_delivers hr hd hh]
      have hne : regN m.reg ≠ 0 := regN_ne_zero hl (wake_of_canDeliver hd) hreg
      refine ⟨_, rfl, modSp_mesh .., ?_⟩
      rw [deliver, getSp_modSp]
      exact ⟨(rdG_wrG ..).trans (if_pos ⟨rfl, hne⟩), by simp [Spoke.fullG, Spoke.wrG, hne]⟩
    · intro y
      rw [hx, inboxArrive_portNil hl hp, inboxTake_holds hr hd]
      refine ⟨fun hlt => ⟨?_, touchSave_resident ∘ (vfOf_setCtx ..).trans⟩, fun hge hv => ?_⟩
      · have hocc : (getCtx u m.core v).inbox.length + 1 < 48 := by show x.inbox.length + 1 < 48; omega
        rw [alarm, if_pos hocc]
      · have hy : vfOf y m.core = v := (vfOf_setCtx ..).trans hv
        have hocc : ¬ (getCtx u m.core v).inbox.length + 1 < 48 := by show ¬ x.inbox.length + 1 < 48; omega
        rw [alarm, if_neg hocc, if_pos hy, touchSave_resident ((vfOf_storeF ..).trans hy)]
    · rw [hx, inboxArrive_full hl hr]
    · unfold inboxRoom
      split <;> simp
  · show execInboxHeldDelivery core vf idx s = _
    unfold execInboxHeldDelivery
    dsimp only
    rw [hm]
    exact if_pos (by rw [hd, hf]; rfl)
  · show execMeshMessageAccept core vf idx s = _
    unfold execMeshMessageAccept
    dsimp only
    rw [hm]
    dsimp only
    rw [hf, hl, hr]
    rfl

end Sys2Proof
end

section
/-! Fault waiters, wake messages and the load exchange (R34, R260, R261, R263). -/

namespace Sys2Proof

open Machine

/-! The slots of fault waiters behind an update (R260). -/

/-- A spoke that is written changes a core in its hub and its context alone. -/
theorem getCore_setSp (s : State) (c n v d : Nat) (p : Spoke) :
    ∃ hub ctx, getCore (setSp s c n v p) d = { getCore s d with hub := hub, ctx := ctx } := by
  have hcore (k : Core) : getCore (setCore s c k) d = if c = d then k else getCore s d := by
    by_cases h : c = d
    · subst h
      rw [getCore_setCore, if_pos rfl]
    · rw [getCore_setCore_ne s _ h, if_neg h]
  unfold setSp
  split
  · rw [hcore]
    split
    next h => exact ⟨_, _, by rw [← h]⟩
    · exact ⟨_, _, rfl⟩
  · unfold setCtx
    split
    · rw [hcore]
      split
      next h => exact ⟨_, _, by rw [← h]⟩
      · exact ⟨_, _, rfl⟩
    · exact ⟨_, _, rfl⟩

@[simp] theorem getSlot_modSp (s : State) (c n v : Nat) (f : Spoke → Spoke) (d i : Nat) : getSlot (modSp s c n v f) d i = getSlot s d i := by
  obtain ⟨hub, ctx, e⟩ := getCore_setSp s c n v d (f (getSp s c n v))
  rw [getSlot, modSp, e]
  rfl

@[simp] theorem getSlot_setCtx (s : State) (c v : Nat) (x : CoreCtx) (d i : Nat) : getSlot (setCtx s c v x) d i = getSlot s d i := by
  unfold setCtx getSlot
  split
  · by_cases h : c = d
    · subst h
      rw [getCore_setCore]
    · rw [getCore_setCore_ne s _ h]
  · rfl

@[simp] theorem getSlot_modFn (s : State) (k : Nat) (f : Fn → Fn) (d i : Nat) : getSlot (modFn s k f) d i = getSlot s d i := rfl

@[simp] theorem getSlot_setSlot (s : State) (c i : Nat) (w : WSlot) (j : Nat) : getSlot (setSlot s c i w) c j = if j = i then w else getSlot s c j := by
  unfold getSlot setSlot modCore
  rw [getCore_setCore]
  by_cases h : j = i
  · subst h
    simp
  · rw [if_neg h]
    exact mget_mset_ne _ _ _ fun e => h e.symm

theorem getFn_setSlot (s : State) (c i : Nat) (w : WSlot) (k : Nat) : getFn (setSlot s c i w) k = getFn s k := rfl

theorem getFn_modSp (s : State) (c n v : Nat) (f : Spoke → Spoke) (k : Nat) : getFn (modSp s c n v f) k = getFn s k := getFn_of_fns (modSp_fns ..) k

/-! NOT_PRESENT joins or takes a slot (R261). -/

/-- Whether a waiter is that of a fault: its VF, page, path and access kind (R261). -/
def sameFault (v : Nat) (e : FErr) (w : Waiter) : Bool := w.vf == v && w.page == bitsN e.va.toNat 15 42 && w.path == pathOf e.va && w.acc == e.acc

theorem slotWith_some {s : State} {c i : Nat} {p : Waiter → Bool} (hi : i < 64) (h : ∃ w, (getSlot s c i).w = some w ∧ p w = true)
    (hj : ∀ j < i, ∀ w, (getSlot s c j).w = some w → p w = false) : slotWith s c p = some i := by
  refine List.find?_range_eq_some.2 ⟨?_, List.mem_range.2 hi, fun j hlt => ?_⟩
  · obtain ⟨w, hw, hp⟩ := h
    rw [hw]
    exact hp
  · cases hw : (getSlot s c j).w with
    | none => rfl
    | some w =>
      show (!p w) = true
      rw [hj j hlt w hw]
      rfl

theorem slotWith_none {s : State} {c : Nat} {p : Waiter → Bool} (h : ∀ j < 64, ∀ w, (getSlot s c j).w = some w → p w = false) :
    slotWith s c p = none := by
  refine List.find?_eq_none.2 fun j hj => ?_
  cases hw : (getSlot s c j).w with
  | none => exact Bool.false_ne_true
  | some w => exact Bool.eq_false_iff.1 (h j (List.mem_range.1 hj) w hw)

/-- What a waiter's park leaves a spoke with: its token, and its PC and registers as they were (R261). -/
theorem retryFault_taken {s s1 : State} {c n v i : Nat} {e : FErr} {pc : Word}
    (h : takeWaiter s c v (.owner (.spoke c n v)) e pc (getSp s c n v).dom = some (s1, i)) :
    retryFault s c n v e pc = modSp s1 c n v fun p => { p with park := .fault i, ftok := tokenOf c i (getSlot s1 c i).gen, fva := e.va } := by
  unfold retryFault
  dsimp only
  rw [h]

theorem parks_fault {s s1 : State} {c n v i : Nat} {e : FErr} (hk : SpKept s s1) (hg : (getSlot s1 c i).gen = (getSlot s c i).gen) :
    let t := modSp s1 c n v fun p => { p with park := .fault i, ftok := tokenOf c i (getSlot s1 c i).gen, fva := e.va }
    let q := getSp t c n v
    q.park = .fault i ∧ q.ftok = tokenOf c i (getSlot s c i).gen ∧ q.pc = (getSp s c n v).pc ∧ q.g = (getSp s c n v).g
      ∧ (getSlot t c i).gen = (getSlot s c i).gen := by
  intro t q
  have hq : q = { getSp s c n v with park := .fault i, ftok := tokenOf c i (getSlot s c i).gen, fva := e.va } := by
    show getSp (modSp s1 c n v _) c n v = _
    rw [getSp_modSp, hk.getSp, hg]
  rw [hq]
  exact ⟨rfl, rfl, rfl, rfl, (congrArg WSlot.gen (getSlot_modSp ..)).trans hg⟩

/-- The state in which a faulter has joined the waiter of a slot. -/
def joined (s : State) (c i v : Nat) (who : Faulter) : State :=
  modFn (setSlot s c i { getSlot s c i with w := (getSlot s c i).w.map fun w => w.join who }) v fun f => { f with rring := { f.rring with
    held := f.rring.held.map fun p => if p.2 = some (c, i) then ({ p.1 with merge := p.1.merge + 1 }, p.2) else p } }

theorem takeWaiter_joins {s : State} {c v i : Nat} {who : Faulter} {e : FErr} {pc : Word} {dom : BitVec 8} (h : slotWith s c (sameFault v e) = some i) :
    takeWaiter s c v who e pc dom = some (joined s c i v who, i) := by
  unfold takeWaiter
  dsimp only
  change slotWith s c (fun w => w.vf == v && w.page == bitsN e.va.toNat 15 42 && w.path == pathOf e.va && w.acc == e.acc) = _ at h
  rw [h]
  rfl

/-- The record and the waiter of a fault that takes a slot (R261, R267). -/
def faultRec (s : State) (c i : Nat) (e : FErr) (pc : Word) (dom : BitVec 8) : RingRec :=
  ⟨tokenOf c i (getSlot s c i).gen, e.va, pc, FaultCode.notPresent.num, e.acc, e.mal, e.perm, dom, 1, 0, false⟩

def faultWaiter (s : State) (c i v : Nat) (e : FErr) (pc : Word) (dom : BitVec 8) : Waiter :=
  ⟨v, bitsN e.va.toNat 15 42, pathOf e.va, e.acc, [], [], e.host, false, faultRec s c i e pc dom⟩

/-- The state in which a fault has taken a free slot, with its record for the ring unless the host is asked. -/
def slotTaken (s : State) (c i v : Nat) (who : Faulter) (e : FErr) (pc : Word) (dom : BitVec 8) : State :=
  let s1 := setSlot s c i ⟨(getSlot s c i).gen, some ((faultWaiter s c i v e pc dom).join who)⟩
  if e.host then s1
  else modFn s1 v fun f => { f with rring := { f.rring with held := f.rring.held ++ [(faultRec s c i e pc dom, some (c, i))] } }

theorem takeWaiter_takes {s : State} {c v i : Nat} {who : Faulter} {e : FErr} {pc : Word} {dom : BitVec 8}
    (h : slotWith s c (sameFault v e) = none) (hf : slotFree s c = some i) :
    takeWaiter s c v who e pc dom = some (slotTaken s c i v who e pc dom, i) := by
  unfold takeWaiter slotTaken
  dsimp only
  change slotWith s c (fun w => w.vf == v && w.page == bitsN e.va.toNat 15 42 && w.path == pathOf e.va && w.acc == e.acc) = _ at h
  rw [h]
  dsimp only
  rw [hf]
  dsimp only
  by_cases hh : e.host = true
  · rw [if_pos hh, if_pos hh]
    rfl
  · rw [if_neg hh, if_neg hh]
    rfl

theorem takeWaiter_full {s : State} {c v : Nat} {who : Faulter} {e : FErr} {pc : Word} {dom : BitVec 8}
    (h : slotWith s c (sameFault v e) = none) (hf : slotFree s c = none) : takeWaiter s c v who e pc dom = none := by
  unfold takeWaiter
  dsimp only
  change slotWith s c (fun w => w.vf == v && w.page == bitsN e.va.toNat 15 42 && w.path == pathOf e.va && w.acc == e.acc) = _ at h
  rw [h]
  dsimp only
  rw [hf]

theorem spKept_joined (s : State) (c i v : Nat) (who : Faulter) : SpKept s (joined s c i v who) := (spKept_setSlot ..).trans (spKept_modFn ..)

theorem getSlot_joined (s : State) (c i v : Nat) (who : Faulter) (j : Nat) :
    getSlot (joined s c i v who) c j = if j = i then { getSlot s c i with w := (getSlot s c i).w.map fun w => w.join who } else getSlot s c j :=
  getSlot_setSlot ..

theorem spKept_slotTaken (s : State) (c i v : Nat) (who : Faulter) (e : FErr) (pc : Word) (dom : BitVec 8) :
    SpKept s (slotTaken s c i v who e pc dom) := by
  unfold slotTaken
  dsimp only
  split
  · exact spKept_setSlot ..
  · exact (spKept_setSlot ..).trans (spKept_modFn ..)

theorem getSlot_slotTaken (s : State) (c i v : Nat) (who : Faulter) (e : FErr) (pc : Word) (dom : BitVec 8) (j : Nat) :
    getSlot (slotTaken s c i v who e pc dom) c j
      = if j = i then ⟨(getSlot s c i).gen, some ((faultWaiter s c i v e pc dom).join who)⟩ else getSlot s c j := by
  unfold slotTaken
  dsimp only
  split
  · exact getSlot_setSlot ..
  · exact getSlot_setSlot ..

theorem rring_slotTaken (s : State) (c i v : Nat) (who : Faulter) (e : FErr) (pc : Word) (dom : BitVec 8) :
    (getFn (slotTaken s c i v who e pc dom) v).rring.held
      = (getFn s v).rring.held ++ if e.host then [] else [(faultRec s c i e pc dom, some (c, i))] := by
  unfold slotTaken
  dsimp only
  split
  · rw [List.append_nil, getFn_setSlot]
  · rw [getFn_modFn, if_pos rfl, getFn_setSlot]

/-! WAKE (R263). -/

theorem exec_wakeDelivery {s : State} {core vf idx : Nat} {m : Msg} (hm : (getCtx s core vf).inbox[idx]? = some m) (hw : m.wake = true)
    (hi : wakeIs s core m.val m.vf = true → ∀ w, (getSlot s core (tokSlot m.val)).w = some w → hasImage w = false) :
    exec (.wakeDelivery core vf idx) s
      = .next (wakeAct (setCtx s core vf { getCtx s core vf with inbox := dropAt (getCtx s core vf).inbox idx }) core m.val m.vf) := by
  show execWakeDelivery core vf idx s = _
  unfold execWakeDelivery
  dsimp only
  rw [hm]
  dsimp only
  refine if_neg ?_
  rw [hw]
  cases hs : wakeIs s core m.val m.vf with
  | false => simp
  | true =>
    cases hx : (getSlot s core (tokSlot m.val)).w with
    | none => simp
    | some w => simp [hi hs w hx]

theorem wakeIs_setCtx (s : State) (c v : Nat) (x : CoreCtx) (core : Nat) (tok : Word) (vf : Nat) :
    wakeIs (setCtx s c v x) core tok vf = wakeIs s core tok vf := by
  unfold wakeIs
  rw [getSlot_setCtx]

/-- A wake message whose waiter does not stand is counted (R263). -/
theorem wakeDelivery_stale {s : State} {core vf idx : Nat} {m : Msg} (hm : (getCtx s core vf).inbox[idx]? = some m) (hw : m.wake = true)
    (hs : wakeIs s core m.val m.vf = false) : exec (.wakeDelivery core vf idx) s
      = .next (countStale (setCtx s core vf { getCtx s core vf with inbox := dropAt (getCtx s core vf).inbox idx }) core) := by
  rw [exec_wakeDelivery hm hw fun h => by rw [hs] at h; cases h]
  unfold wakeAct
  rw [wakeIs_setCtx, hs]
  rfl

@[simp] theorem getSlot_freeSlot (s : State) (c i : Nat) : (getSlot (freeSlot s c i) c i).w = none := by
  unfold freeSlot
  dsimp only
  split <;> simp

/-- One that stands is freed, and its waiter goes on (R263). -/
theorem wakeSlot_one {s : State} {core i c n v : Nat} {w : Waiter} (hw : (getSlot s core i).w = some w) (ho : w.owners = [.spoke c n v])
    (hc : w.cmds = []) (hp : (getSp s c n v).park = .fault i) :
    (getSlot (wakeSlot s core i) core i).w = none ∧ (getSp (wakeSlot s core i) c n v).park = .none := by
  have hwake : wakeSlot s core i = modSp (freeSlot s core i) c n v fun p => if p.park = .fault i then { p with park := .none } else p := by
    unfold wakeSlot
    rw [hw]
    dsimp only
    rw [ho, hc]
    rfl
  rw [hwake]
  refine ⟨by rw [getSlot_modSp, getSlot_freeSlot], ?_⟩
  rw [getSp_modSp, (spKept_freeSlot s core i).getSp, if_pos hp]

/-! Load exchange (R34). -/

theorem mem_of_mem_topOf (q : List (Nat × Nat)) (n : Nat) : ∀ x ∈ topOf q n, x ∈ q := fun _ hx =>
  (List.mergeSort_perm q _).mem_iff.1 (List.mem_of_mem_take hx)

theorem topOf_nodup {q : List (Nat × Nat)} (h : q.Nodup) (n : Nat) : (topOf q n).Nodup :=
  ((List.mergeSort_perm q _).nodup_iff.2 h).sublist (List.take_sublist ..)

/-- Members taken out of a list of distinct members and put behind it lose none. -/
theorem filter_out_perm {q x : List (Nat × Nat)} (hq : q.Nodup) (hx : x.Nodup) (hs : ∀ e ∈ x, e ∈ q) : ((q.filter fun e => !x.contains e) ++ x).Perm q := by
  have hin : (q.filter fun e => x.contains e).Perm x := by
    refine (List.perm_ext_iff_of_nodup (hq.filter _) hx).2 fun e => ?_
    rw [List.mem_filter, List.contains_iff_mem]
    exact ⟨And.right, fun h => ⟨hs e h, h⟩⟩
  exact ((hin.symm.append_left _).trans List.perm_append_comm).trans (List.filter_append_perm _ q)

theorem hubq_hubMove {s : State} {core nb : Nat} (hc : core < 65536) (hn : nb < 65536) (hne : core ≠ nb) (hq : (getCtx s core (vfOf s core)).hubq.Nodup) :
    ((getCtx (hubMove core s nb) core (vfOf s core)).hubq ++ (getCtx (hubMove core s nb) nb (vfOf s core)).hubq).Perm
      ((getCtx s core (vfOf s core)).hubq ++ (getCtx s nb (vfOf s core)).hubq) := by
  unfold hubMove
  dsimp only
  split
  · generalize hx : topOf _ _ = x
    have hsub : ∀ e ∈ x, e ∈ (getCtx s core (vfOf s core)).hubq := fun e he => List.mem_of_mem_filter (mem_of_mem_topOf _ _ e (hx ▸ he))
    have hnodup : x.Nodup := hx ▸ topOf_nodup (hq.filter _) _
    have hperm := filter_out_perm hq hnodup hsub
    have hne' : ¬ (nb = core ∧ vfOf s core = vfOf s core) := fun h => hne h.1.symm
    have hne'' : ¬ (core = nb ∧ vfOf s core = vfOf s core) := fun h => hne h.1
    unfold modCtx
    rw [getCtx_setCtx, getCtx_setCtx_ne _ _ hn hc hne', getCtx_setCtx, getCtx_setCtx_ne _ _ hc hn hne'']
    dsimp only
    exact ((List.perm_append_comm.append_left _).trans (by rw [← List.append_assoc])).trans (hperm.append_right _)
  · exact .refl _

/-- Whether a wake message names a waiter that stands (R263). -/
theorem wakeIs_iff (s : State) (core : Nat) (tok : Word) (vf : Nat) :
    wakeIs s core tok vf = true ↔ (getSlot s core (tokSlot tok)).gen = tokGen tok
      ∧ ∃ w, (getSlot s core (tokSlot tok)).w = some w ∧ (vf = 0 ∨ w.vf = vf % 64) := by
  simp [wakeIs, Option.any_eq_true]

/-- A waiter is held that a fault would join exactly where its VF, page, path and access kind are the fault's (R261). -/
theorem sameFault_iff (v : Nat) (e : FErr) (w : Waiter) : sameFault v e w = true ↔
    w.vf = v ∧ w.page = e.va.toNat / 2 ^ 15 % 2 ^ 42 ∧ w.path = e.va.toNat / 2 ^ 61 ∧ w.acc = e.acc := by
  simp [sameFault, bitsN, pathOf, and_assoc]

/-- Settles O46: a fault by the slot that it finds, a wake message by the waiter that it names, an exchange by what it moves. -/
theorem wakesAndExchange : Obligations.WakesAndExchange := by
  unfold Obligations.WakesAndExchange
  refine ⟨fun s c n v e pc => ?_, fun s core vf idx m w => ?_, fun s core h => ?_, fun s core nb hc hn hne _ => ?_⟩
  · intro p t q held token parks
    have hheld (i : Nat) (h : ¬ held i) (w : Waiter) (hw : (getSlot s c i).w = some w) : sameFault v e w = false := by
      by_contra hs
      exact h ⟨w, hw, (sameFault_iff v e w).1 (Bool.eq_true_of_not_eq_false hs)⟩
    refine ⟨fun i w hi hh hj hw => ?_, fun i hi hj hfree hlow => ?_, fun hj hfull => ?_⟩
    · have hwith : slotWith s c (sameFault v e) = some i := by
        obtain ⟨y, hy, hys⟩ := hh
        exact slotWith_some hi ⟨y, hy, (sameFault_iff v e y).2 hys⟩ fun j hlt => hheld j (hj j hlt)
      have ht : t = _ := retryFault_taken (takeWaiter_joins hwith)
      have hgen : (getSlot (joined s c i v (.owner (.spoke c n v))) c i).gen = (getSlot s c i).gen := by rw [getSlot_joined, if_pos rfl]
      refine ⟨?_, ?_, fun j hne => ?_, ?_⟩
      · simp only [parks, q, ht]
        exact parks_fault (spKept_joined ..) hgen
      · rw [ht, getSlot_modSp, getSlot_joined, if_pos rfl, hw]
        rfl
      · rw [ht, getSlot_modSp, getSlot_joined, if_neg hne]
      · rw [ht, getFn_modSp, joined, getFn_modFn, if_pos rfl, getFn_setSlot]
    · have hnone : slotWith s c (sameFault v e) = none := slotWith_none fun j hlt => hheld j (hj j hlt)
      have hlowest : slotFree s c = some i := List.find?_range_eq_some.2 ⟨by simp [hfree], List.mem_range.2 hi, fun j hlt => by
        simpa [Option.isSome_iff_ne_none] using hlow j hlt⟩
      have ht : t = _ := retryFault_taken (takeWaiter_takes hnone hlowest)
      have hgen : (getSlot (slotTaken s c i v (.owner (.spoke c n v)) e pc p.dom) c i).gen = (getSlot s c i).gen := by
        rw [getSlot_slotTaken, if_pos rfl]
      refine ⟨?_, fun j hne => ?_, ⟨(faultWaiter s c i v e pc p.dom).join (.owner (.spoke c n v)), ?_, rfl, rfl, rfl, rfl, rfl, rfl, rfl⟩, ?_⟩
      · simp only [parks, q, ht]
        exact parks_fault (spKept_slotTaken ..) hgen
      · rw [ht, getSlot_modSp, getSlot_slotTaken, if_neg hne]
      · rw [ht, getSlot_modSp, getSlot_slotTaken, if_pos rfl]
      · rw [ht, getFn_modSp, rring_slotTaken]
        rfl
    · have hnone : slotWith s c (sameFault v e) = none := slotWith_none fun j hlt => hheld j (hj j hlt)
      have hfree : slotFree s c = none := List.find?_eq_none.2 fun j hlt => by simpa using hfull j (List.mem_range.1 hlt)
      show retryFault s c n v e pc = _
      unfold retryFault
      dsimp only
      rw [takeWaiter_full hnone hfree]
  · intro x u i hm hw
    refine ⟨fun hnone => wakeDelivery_stale hm hw ?_, fun hsome hbad => wakeDelivery_stale hm hw ?_, fun c n v hsome ho hc hg hv hp => ?_⟩
    · refine Bool.eq_false_iff.2 fun h => ?_
      obtain ⟨-, y, hy, -⟩ := (wakeIs_iff ..).1 h
      exact absurd (hnone.symm.trans hy) (Option.some_ne_none y).symm
    · refine Bool.eq_false_iff.2 fun h => ?_
      obtain ⟨hgen, y, hy, hvf⟩ := (wakeIs_iff ..).1 h
      have hyw : w = y := Option.some.inj (hsome.symm.trans hy)
      rcases hbad with hb | ⟨h0, hb⟩
      · exact hb hgen
      · exact hvf.elim h0 (hyw ▸ hb)
    · have hstands : wakeIs s core m.val m.vf = true := (wakeIs_iff ..).2 ⟨hg, w, hsome, hv⟩
      have himage (y : Waiter) (hy : (getSlot s core i).w = some y) : hasImage y = false := by
        rw [← Option.some.inj (hsome.symm.trans hy), hasImage, ho]
        rfl
      have hact : wakeAct u core m.val m.vf = wakeSlot u core i := by
        unfold wakeAct
        rw [wakeIs_setCtx, hstands]
        rfl
      refine ⟨_, exec_wakeDelivery hm hw fun _ => himage, ?_⟩
      rw [hact]
      exact wakeSlot_one ((congrArg WSlot.w (getSlot_setCtx ..)).trans hsome) ho hc hp
  · show execHubLoadExchange core s = _
    exact if_neg (by rw [h]; decide)
  · intro v hq
    exact hubq_hubMove (lt_trans hc (by decide)) (lt_trans hn (by decide)) hne hq

end Sys2Proof
end

section
/-! What the accesses of a hub spoke leave: its core's context, the residents, and the control blocks. -/

namespace Sys2Proof

open Machine

/-! A key that is set twice. -/

theorem mdel_mins {α : Type} (m : List (Nat × α)) (k : Nat) (x : α) (h : ∀ p ∈ m, p.1 ≠ k) : mdel (mins m k x) k = m := by
  induction m with
  | nil => simp [mins, mdel]
  | cons p m ih =>
    obtain ⟨hp, hm⟩ := List.forall_mem_cons.1 h
    have hself : mdel m k = m := List.filter_eq_self.2 fun q hq => by simpa using hm q hq
    unfold mins
    split
    · simp [mdel, hp, show m.filter (fun q => q.1 != k) = m from hself]
    · simp [mdel, hp, show (mins m k x).filter (fun q => q.1 != k) = m from ih hm]

theorem mset_mset {α : Type} (m : List (Nat × α)) (k : Nat) (x y : α) : mset (mset m k x) k y = mset m k y := by
  unfold mset
  rw [mdel_mins _ _ _ fun p hp => by simpa [mdel] using (List.mem_filter.1 hp).2]

theorem keys_mins {α : Type} (m : List (Nat × α)) (k : Nat) (x y : α) : (mins m k x).map (·.1) = (mins m k y).map (·.1) := by
  induction m with
  | nil => rfl
  | cons p m ih =>
    unfold mins
    split
    · rfl
    · simp [ih]

/-- The keys of a list in which one is set do not depend on its value. -/
theorem keys_mset {α : Type} (m : List (Nat × α)) (k : Nat) (x y : α) : (mset m k x).map (·.1) = (mset m k y).map (·.1) := keys_mins _ _ _ _

/-! The frames. -/

/-- A change that leaves the cores, the contexts, the control blocks, the half tiles, the latches, the reference timer and the lists of commands and arrivals as they were. -/
structure Quiet (s t : State) : Prop where
  cores : t.cores = s.cores
  saved : t.saved = s.saved
  halves : t.halves = s.halves
  ctrl : t.ctrl = s.ctrl
  cur : t.cur = s.cur
  ctls : SameCtls s t
  barArrs : t.barArrs = s.barArrs
  cmds : t.cmds = s.cmds
  latches : t.latches = s.latches
  refTimer : t.refTimer = s.refTimer

namespace Quiet

variable {s t u : State}

theorem refl (s : State) : Quiet s s := ⟨rfl, rfl, rfl, rfl, rfl, .refl s, rfl, rfl, rfl, rfl⟩

theorem trans (h : Quiet s t) (k : Quiet t u) : Quiet s u :=
  ⟨k.cores.trans h.cores, k.saved.trans h.saved, k.halves.trans h.halves, k.ctrl.trans h.ctrl, k.cur.trans h.cur, h.ctls.trans k.ctls,
    k.barArrs.trans h.barArrs, k.cmds.trans h.cmds, k.latches.trans h.latches, k.refTimer.trans h.refTimer⟩

theorem foldl {β : Type} {f : State → β → State} (l : List β) (hf : ∀ s x, Quiet s (f s x)) (s : State) : Quiet s (l.foldl f s) := by
  induction l generalizing s with
  | nil => exact refl s
  | cons x l ih => exact (hf s x).trans (ih _)

theorem modFn {f : Nat} {g : Fn → Fn} (hg : ∀ x, (g x).ctlNew = x.ctlNew ∧ (g x).ctlAct = x.ctlAct) : Quiet s (modFn s f g) :=
  ⟨rfl, rfl, rfl, rfl, rfl, .modFn hg, rfl, rfl, rfl, rfl⟩

theorem wrLoc (s : State) (l : Loc) (b : Byte) : Quiet s (wrLoc s l b) :=
  ⟨by simp, by simp, by simp, by simp, by simp, wrLoc_sameCtls s l b, by simp, by simp, by simp, by simp⟩

theorem wrN (s : State) (l : Loc) (n x : Nat) : Quiet s (wrN s l n x) :=
  ⟨by simp, by simp, by simp, by simp, by simp, .of_fns (by simp), by simp, by simp, by simp, by simp⟩

end Quiet

/-! Kicks (R242, R243). -/

theorem quiet_setQWord (s : State) (a i : Nat) (x : Word) : Quiet s (setQWord s a i x) := .wrN ..

theorem quiet_setQ (s : State) (v q : Nat) (x : QueueSt) : Quiet s (setQ s v q x) := ⟨rfl, rfl, rfl, rfl, rfl, .of_fns rfl, rfl, rfl, rfl, rfl⟩

theorem quiet_dropKick (s : State) (f : Nat) : Quiet s (dropKick s f) := .modFn fun _ => ⟨rfl, rfl⟩

theorem quiet_regErr (s : State) (f : Nat) : Quiet s (regErr s f) := .modFn fun _ => ⟨rfl, rfl⟩

theorem quiet_queueErr (s : State) (v q code : Nat) (stops : Bool) : Quiet s (queueErr s v q code stops) := by
  unfold queueErr
  split
  · exact .refl s
  · dsimp only
    split
    · exact (quiet_setQWord ..).trans (quiet_setQWord ..)
    · exact quiet_setQWord ..

theorem quiet_kickRise (s : State) (v q a : Nat) : Quiet s (kickRise s v q a).1 := by
  unfold kickRise
  split
  · exact .refl s
  · have h : Quiet s (setQ (setQWord (setQWord (setQWord s a 1 (qWord s a 1 &&& ~~~(BitVec.ofNat 64 (2 ^ 9)))) a 2 0) a 3 0) v q ⟨true, false, []⟩) :=
      (((quiet_setQWord ..).trans (quiet_setQWord ..)).trans (quiet_setQWord ..)).trans (quiet_setQ ..)
    dsimp only
    split
    · exact h.trans (quiet_queueErr ..)
    · exact h

theorem quiet_wakeQueue (s : State) : Quiet s (wakeQueue s) := by
  unfold wakeQueue
  split
  · exact .refl s
  · split
    · exact quiet_setQ ..
    · exact .refl s

theorem quiet_kick (s : State) (fn off width : Nat) (w : Word) : Quiet s (kick s fn off width w) := by
  unfold kick
  dsimp only
  split
  · exact quiet_regErr ..
  split
  · exact quiet_dropKick ..
  split
  · exact quiet_dropKick ..
  next a _ =>
    split
    · exact ((quiet_setQ ..).trans (quiet_wakeQueue _)).trans (quiet_dropKick ..)
    · have h := quiet_kickRise s fn (off / 8) a
      split
      · exact h.trans (quiet_dropKick ..)
      split
      · exact h
      split
      · exact h.trans (quiet_queueErr ..)
      split
      · exact (h.trans (quiet_setQWord ..)).trans (quiet_setQ ..)
      · exact h.trans (quiet_setQWord ..)

/-- A change that leaves of the cores, the residents and the control blocks all but the hub spoke of one core. -/
structure HubFrame (c : Nat) (s t : State) : Prop where
  cur : t.cur = s.cur
  ctrl : t.ctrl = s.ctrl
  halves : t.halves = s.halves
  saved : t.saved = s.saved
  ctls : SameCtls s t
  cores : t.cores = s.cores ∨ ∃ p, t.cores = mset s.cores c { getCore s c with hub := p }

namespace HubFrame

variable {c : Nat} {s t u : State}

theorem of_fields (h1 : t.cores = s.cores) (h2 : t.saved = s.saved) (h3 : t.halves = s.halves) (h4 : t.ctrl = s.ctrl) (h5 : t.cur = s.cur)
    (h6 : SameCtls s t) : HubFrame c s t := ⟨h5, h4, h3, h2, h6, .inl h1⟩

theorem refl (c : Nat) (s : State) : HubFrame c s s := .of_fields rfl rfl rfl rfl rfl (.refl s)

theorem of_quiet (h : Quiet s t) : HubFrame c s t := .of_fields h.cores h.saved h.halves h.ctrl h.cur h.ctls

theorem getCore_of_cores (h : t.cores = s.cores) (d : Nat) : getCore t d = getCore s d := by rw [getCore, h, getCore]

theorem trans (h : HubFrame c s t) (k : HubFrame c t u) : HubFrame c s u := by
  refine ⟨k.cur.trans h.cur, k.ctrl.trans h.ctrl, k.halves.trans h.halves, k.saved.trans h.saved, h.ctls.trans k.ctls, ?_⟩
  rcases h.cores with hs | ⟨p, hs⟩
  · rcases k.cores with hk | ⟨q, hk⟩
    · exact .inl (hk.trans hs)
    · exact .inr ⟨q, by rw [hk, hs, getCore_of_cores hs]⟩
  · rcases k.cores with hk | ⟨q, hk⟩
    · exact .inr ⟨p, hk.trans hs⟩
    · refine .inr ⟨q, ?_⟩
      have hc : getCore t c = { getCore s c with hub := p } := by
        rw [getCore, hs]
        exact mget_mset_same ..
      rw [hk, hs, mset_mset, hc]

theorem foldl {β : Type} {f : State → β → State} (l : List β) (hf : ∀ s x, HubFrame c s (f s x)) (s : State) : HubFrame c s (l.foldl f s) := by
  induction l generalizing s with
  | nil => exact refl c s
  | cons x l ih => exact (hf s x).trans (ih _)

theorem modHub (s : State) (c v : Nat) (f : Spoke → Spoke) : HubFrame c s (modSp s c 0 v f) := ⟨rfl, rfl, rfl, rfl, .of_fns rfl, .inr ⟨_, rfl⟩⟩

theorem vf (h : HubFrame c s t) (d : Nat) : vfOf t d = vfOf s d := by
  unfold vfOf isSvc getHalf
  rw [h.ctrl, h.halves]

/-- The spokes beside the hub spoke are as they were. -/
theorem getSp (h : HubFrame c s t) (d n v : Nat) (hn : n ≠ 0) : getSp t d n v = Machine.getSp s d n v := by
  have hctx : (getCore t d).ctx = (getCore s d).ctx := by
    rcases h.cores with e | ⟨p, e⟩
    · rw [getCore_of_cores e]
    · rw [getCore, e, mget_mset]
      split
      next hd => rw [← hd]
      · rfl
  rw [getSp_ctx t d v hn, getSp_ctx s d v hn, getCtx, getCtx, h.vf, h.saved, hctx]

/-- Where the core is listed, the VFs that have contexts on each core are as they were. -/
theorem coresOf (h : HubFrame c s t) (hc : ∃ m x, s.cores = mset m c x) (v : Nat) : coresOf t v = coresOf s v := by
  have hkeys : t.cores.map (·.1) = s.cores.map (·.1) := by
    rcases h.cores with e | ⟨p, e⟩
    · rw [e]
    · obtain ⟨m, x, hm⟩ := hc
      rw [e, hm, mset_mset]
      exact keys_mset ..
  have hlist (u : State) : (u.cores.filter fun p => vfOf u p.1 = v).map (·.1) = (u.cores.map (·.1)).filter fun d => vfOf u d = v := by
    rw [List.filter_map]
    rfl
  unfold Machine.coresOf
  rw [hlist, hlist, hkeys, h.saved]
  simp only [h.vf]

/-- A VF has room for a spoke exactly where it had (R256). -/
theorem roomFor (h : HubFrame c s t) (hc : ∃ m x, s.cores = mset m c x) (v : Nat) : roomFor t v = roomFor s v := by
  have hheld (d : Nat) : heldOn t d v (fun _ => true) = heldOn s d v fun _ => true := by
    unfold heldOn
    simp only [h.getSp d _ v (Nat.succ_ne_zero _)]
  unfold Machine.roomFor resident maxRes
  simp only [hheld, h.coresOf hc, (h.ctls v).2]

end HubFrame

/-! Accesses of the hub spoke that are performed. -/

section Perform

variable {c : Nat}

theorem quiet_putElem (s : State) (n : Nat) (x : LaneAcc) : Quiet s (putElem s n x) := by
  unfold putElem
  split
  · split
    · exact quiet_kick ..
    · exact .wrN ..
  · exact .wrN ..

theorem quiet_getElem1 (s : State) (tile v n : Nat) (ro : Bool) (l : Loc) : Quiet s (getElem1 s tile v n ro l).1 := by
  obtain ⟨rc, cx, e⟩ := getElem1_state s tile v n ro l
  rw [e]
  exact ⟨rfl, rfl, rfl, rfl, rfl, .of_fns rfl, rfl, rfl, rfl, rfl⟩

theorem quiet_getLanes (tile v : Nat) (xs : List LaneAcc) (s : State) : Quiet s (getLanes tile v s xs).1 := by
  induction xs generalizing s with
  | nil => exact .refl s
  | cons x xs ih => exact (quiet_getElem1 ..).trans (ih _)

theorem hubFrame_perform (s : State) (v : Nat) (r : Req) : HubFrame c s (perform s (.spoke c 0 v) r) := by
  have h0 : HubFrame c s (modSp s c 0 v fun p => dropReq p r.id) := .modHub ..
  have hfill (t : State) (d : Fin 32) (x : Word) : HubFrame c t (fillReq t (.spoke c 0 v) r d x) :=
    .modHub t c v fun p => if r.plain then p.wrG d x else if d ≠ 0 ∧ p.pendG d = .load r.id then p.wrG d x else p
  unfold perform
  dsimp only [modOwner]
  split
  · split
    · exact h0
    · exact (h0.trans (.of_quiet (quiet_getElem1 ..))).trans (hfill ..)
  · exact h0.trans (.foldl _ (fun s x => HubFrame.of_quiet (quiet_putElem s r.n x)) _)
  · split
    · exact h0
    · refine HubFrame.trans ?_ (hfill ..)
      split
      · exact h0.trans (.of_quiet (.wrN ..))
      · exact h0
  · exact (h0.trans (.of_quiet (quiet_getLanes ..))).trans (.modHub ..)
  · exact h0.trans (.foldl _ (fun s x => HubFrame.of_quiet (quiet_putElem s r.n x)) _)

theorem hubFrame_performAll (s : State) (v : Nat) (rs : List Req) : HubFrame c s (performAll s (.spoke c 0 v) rs) :=
  .foldl rs (fun s r => by
    split
    · exact .refl c s
    · exact hubFrame_perform s v r) s

theorem quiet_noteTlb (s : State) (v va : Nat) (e : Word) (bits : Nat) : Quiet s (noteTlb s v va e bits) := by
  unfold noteTlb
  dsimp only
  split
  · exact .refl s
  · exact .modFn fun _ => ⟨rfl, rfl⟩

theorem quiet_noteDom (s : State) (v off : Nat) : Quiet s (noteDom s v off) := by
  unfold noteDom
  split
  · exact .refl s
  · split
    · exact .refl s
    · exact .modFn fun _ => ⟨rfl, rfl⟩

theorem quiet_noteRes (s : State) (v : Nat) (d : BitVec 8) (va : Word) (r : Res) : Quiet s (noteRes s v d va r) := by
  unfold noteRes
  dsimp only
  split
  · exact quiet_noteTlb ..
  · exact (quiet_noteTlb ..).trans (quiet_noteDom ..)

/-- An access of the hub spoke is noted, and what goes before it is performed. -/
theorem hubFrame_flushAt {s : State} (h0 : s.cur.sp = 0) (va : Word) (r : Res) (l : Loc) (n : Nat) :
    HubFrame s.cur.core s (flushAt (noteAcc s va r) l n) := by
  have hnote : HubFrame s.cur.core s (noteAcc s va r) := .of_quiet (quiet_noteRes ..)
  have howner : curOwner (noteAcc s va r) = .spoke s.cur.core 0 s.cur.vf := by rw [curOwner, hnote.cur, h0]
  refine hnote.trans ?_
  unfold flushAt flushMeets
  rw [howner]
  exact hubFrame_performAll ..

end Perform

end Sys2Proof
end

section
/-! Spoke control by the hub (R33, R45, R48 to R51, R399 to R402). -/

namespace Sys2Proof

open Machine

/-! The target (R399, R400). -/

/-- A target that passes the checks is a spoke of the core beside the hub spoke, in a state that is permitted. -/
theorem ctlTarget_ok {t : State} {h : Word} {ok : Ctx → Bool} {n : Nat} (he : ctlTarget t h ok = .ok n) :
    n ≠ 0 ∧ ok (getSp t t.cur.core n t.cur.vf).ctx = true := by
  unfold ctlTarget at he
  dsimp only at he
  split at he
  · cases he
  split at he
  · cases he
  next hn =>
    split at he
    next hok =>
      cases he
      exact ⟨fun e => hn (.inr (.inr e)), hok⟩
    · cases he

/-- The reads of the hub's sources leave the other spokes as they were. -/
theorem getSp_taken (i : Instr) {s : State} {n : Nat} (h0 : s.cur.sp = 0) (hc : s.cur.core < 65536) (hn : n ≠ 0) (v : Nat) :
    getSp (taken i s) s.cur.core n v = getSp s s.cur.core n v :=
  (regFrame_taken i hc).others _ _ _ hc fun h => hn (h.2.1.symm.trans h0)

theorem taken_lists (i : Instr) {s : State} (h0 : s.cur.sp = 0) : ∃ m x, (taken i s).cores = mset m s.cur.core x := by
  have h : (modCur (countIssue s) fun p => p.consume (Instr.uses i))
      = setSp (countIssue s) s.cur.core 0 s.cur.vf ((curSp (countIssue s)).consume (Instr.uses i)) := by
    rw [modCur, setCur, countIssue_cur, h0]
  exact ⟨(countIssue s).cores, _, congrArg State.cores h⟩

/-! A context is taken (R48, R273). -/

theorem saveSlot_rest (s : State) (v h k : Nat) : ∃ im id m, saveSlot s v h k = { s with savedImg := im, nextId := id, hbm := m } := by
  unfold saveSlot
  split
  · exact ⟨_, _, _, rfl⟩
  · exact ⟨_, _, _, rfl⟩

/-- What leaves a context free for the resident VF is the writing of a save area. -/
theorem makeRoom_rest (s : State) (c n v : Nat) : ∃ im id m, makeRoom s c n v = { s with savedImg := im, nextId := id, hbm := m } := by
  unfold makeRoom
  generalize s.saved.filter _ = l
  induction l generalizing s with
  | nil => exact ⟨_, _, _, rfl⟩
  | cons p l ih =>
    rw [List.foldl_cons]
    split
    · exact ih s
    · obtain ⟨im, id, m, e⟩ := saveSlot_rest s (p.1 / 65536) (halfOf c) (coreSlot c n)
      obtain ⟨im', id', m', e'⟩ := ih (saveSlot s (p.1 / 65536) (halfOf c) (coreSlot c n))
      exact ⟨im', id', m', by rw [e', e]⟩

/-- Where no other VF has a spoke in the context, nothing is written. -/
theorem makeRoom_free {s : State} {c n v : Nat} (h : ∀ w, w ≠ v → (getSp s c n w).ctx = .free) : makeRoom s c n v = s := by
  unfold makeRoom
  have hl : ∀ p ∈ s.saved.filter (fun p => p.1 % 65536 == c && p.1 / 65536 != v), p.1 / 65536 ≠ v := by
    intro p hp
    have := (List.mem_filter.1 hp).2
    simp only [Bool.and_eq_true, bne_iff_ne] at this
    exact this.2
  generalize s.saved.filter _ = l at hl
  induction l with
  | nil => rfl
  | cons p l ih =>
    obtain ⟨hp, hl⟩ := List.forall_mem_cons.1 hl
    rw [List.foldl_cons, if_pos (by rw [h _ hp]; rfl)]
    exact ih hl

theorem getSp_occupy (s : State) (c n v : Nat) (p : Spoke) : getSp (occupy s c n v p) c n v = p := getSp_setSp ..

theorem setSp_sameMem (s : State) (c n v : Nat) (p : Spoke) : SameMem s (setSp s c n v p) := by
  obtain ⟨a, b, e⟩ := setSp_rest s c n v p
  rw [e]
  exact fun _ => rfl

theorem rdLoc_occupy {s : State} {c n v : Nat} {p : Spoke} {l : Loc} (h : l.sp ≠ .hbm) : rdLoc (occupy s c n v p) l = rdLoc s l := by
  obtain ⟨im, id, m, e⟩ := makeRoom_rest s c n v
  rw [occupy, setSp_sameMem _ c n v p l, e]
  obtain ⟨sp, a⟩ := l
  cases sp
  case hbm => exact absurd rfl h
  all_goals rfl

/-! SPSTART (R401). -/

theorem eq_of_ite_ok {α ε : Type} {P : Prop} [Decidable P] {e : ε} {a b : α} (h : (if P then Except.error e else .ok a) = .ok b) : a = b := by
  split at h
  · cases h
  · exact Except.ok.inj h

theorem readStart_ok {t u : State} {va : Word} {r : StartRec} (h : readStart t va = .ok (u, r)) : ∃ x, u = flushAt (noteAcc t va x) x.loc 64 := by
  unfold readStart at h
  split at h
  · cases h
  split at h
  · cases h
  next x _ => exact ⟨x, (congrArg Prod.fst (eq_of_ite_ok h)).symm⟩

/-- The registers of a started spoke (R35, R401). -/
theorem startSpoke_spec (s : State) (v : Nat) (pc : Word) (k : EntryKind) (r : StartRec) :
    let p := startSpoke s v pc k r
    p.ctx = .live ∧ p.pc = pc ∧ p.want = some k ∧ p.ltag = r.tag ∧ p.tperm = r.tperm ∧ (∀ j : Fin 32, p.g[j].full = true) ∧ p.rdG 30 = r.sp
      ∧ (∀ j : Fin 6, p.rdG ⟨j.val + 1, by omega⟩ = r.seeds.getD j.val 0) ∧ p.k[0] = 0xFFFFFFFF := by
  intro p
  refine ⟨rfl, rfl, rfl, rfl, rfl, fun j => ?_, ?_, fun j => ?_, rfl⟩
  · simp [p, startSpoke, startRegs]
  · simp [p, startSpoke, startRegs, Spoke.rdG]
  · have hj : (⟨j.val + 1, by omega⟩ : Fin 32) ≠ 0 := fun e => Nat.succ_ne_zero _ (congrArg Fin.val e)
    have hle : 1 ≤ j.val + 1 ∧ j.val + 1 ≤ 6 := by omega
    simp [p, startSpoke, startRegs, Spoke.rdG, hj, hle]

theorem withRoom_of {t : State} {e : Ending} (h : roomFor t t.cur.vf = true) : withRoom t e = e := if_pos h

/-! SPSTOP and SPRESUME (R45, R50). -/

/-- A spoke with nothing to finish stops at the request (R45, R200). -/
theorem requestStop_idle {s : State} {c n v : Nat} (hn : n ≠ 0) (hl : (getSp s c n v).ctx = .live) (hd : (getSp s c n v).divs = [])
    (ho : (getSp s c n v).outst = []) (hw : (getSp s c n v).owed = []) (hwin : (getSp s c n v).win = []) (hp : (getSp s c n v).park = .none) :
    (getSp (requestStop s c n v) c n v).ctx = .stopped := by
  let s1 := modCtx s c v fun x => { x with slice := x.slice.filter (· != n) }
  have hkept : SpKept s s1 := spKept_modCtx (by intro _; rfl) s c v
  have hsp : getSp s1 c n v = getSp s c n v := hkept.getSp c n v
  have hreq : requestStop s c n v = tryStop (modSp s1 c n v fun p => { p with stopReq := true }) c n v := by
    unfold requestStop
    rw [if_neg hn]
    exact if_pos (by rw [hsp, hl])
  rw [hreq]
  unfold tryStop
  dsimp only
  rw [getSp_modSp, hsp]
  simp [hl, hd, ho, hw, hwin, hp]

/-- The tags of a core serve a spoke without moving its PC or its state. -/
theorem spFrame_serveTag (s : State) (c v n : Nat) : SpFrame (fun p q => q.ctx = p.ctx ∧ q.pc = p.pc) s (serveTag s c v n) := by
  have hr : ∀ p : Spoke, p.ctx = p.ctx ∧ p.pc = p.pc := fun _ => ⟨rfl, rfl⟩
  have ht {p q r : Spoke} (h : q.ctx = p.ctx ∧ q.pc = p.pc) (k : r.ctx = q.ctx ∧ r.pc = q.pc) : r.ctx = p.ctx ∧ r.pc = p.pc :=
    ⟨k.1.trans h.1, k.2.trans h.2⟩
  have hserved {y : CoreCtx} (hy : y.spokes = (getCtx s c v).spokes) {f : Spoke → Spoke} (hf : ∀ p, (f p).ctx = p.ctx ∧ (f p).pc = p.pc) :
      SpFrame (fun p q => q.ctx = p.ctx ∧ q.pc = p.pc) s (modSp (setCtx s c v y) c n v f) :=
    SpFrame.trans ht ((spKept_setCtx hy).frame hr) (spFrame_modSp hr hf _ c n v)
  unfold serveTag
  dsimp only
  split
  · exact .refl hr s
  split
  · split
    · exact .refl hr s
    · refine hserved (y := (takeTag (getCtx s c v) _).2) (by rfl) fun p => ?_
      unfold Spoke.wrG
      split
      exacts [⟨rfl, rfl⟩, ⟨rfl, rfl⟩]
  · split
    · exact hserved (y := { getCtx s c v with tags := _ }) (by rfl) (by intro _; exact ⟨rfl, rfl⟩)
    · exact .refl hr s
  · exact .refl hr s

/-! SPREAP (R36, R402). -/

theorem spKept_dropPop (s : State) (v tag : Nat) : SpKept s (dropPop s v tag) := by
  unfold dropPop
  split
  · exact SpFrame.refl (fun _ => rfl) s
  · split
    · exact spKept_of_fields rfl rfl rfl rfl rfl
    · exact SpFrame.refl (fun _ => rfl) s

theorem spKept_setPop (s : State) (p : Pop) : SpKept s (setPop s p) := spKept_of_fields rfl rfl rfl rfl rfl

/-- A reaped context is free, and no other spoke changes. -/
theorem spKept_reap (s : State) (c n v : Nat) : SpKept (setSp s c n v Spoke.reset) (reap s c n v) := by
  unfold reap
  dsimp only
  split
  · exact SpFrame.refl (fun _ => rfl) _
  · split
    next q _ => exact SpKept.trans (spKept_setPop _ { q with reaped := q.reaped + 1 }) (spKept_dropPop _ _ _)
    · exact SpFrame.refl (fun _ => rfl) _

/-! Images (R48, R49). -/

theorem mapped_tt {s : State} {c v : Nat} {d : BitVec 8} {ls : List Lend} {va : Word} {n : Nat} {w : Bool} {acc : Nat} {r : Res}
    (h : mapped s c v d ls va n w acc (· == 0) = .ok r) : r.loc.sp = .hbm := by
  obtain ⟨-, htt, hpart⟩ := resolve_ok (mapped_ok h)
  have h0 : pteTT r.leaf = 0 := by simpa using htt
  simp only [partition, h0, if_true, Option.map_eq_some_iff] at hpart
  obtain ⟨a, -, ha⟩ := hpart
  rw [← ha]

theorem imagePages_hbm {t : State} {w : Bool} {ps : List (Nat × Nat)} {ls : List (Loc × Nat)} (h : imagePages t w ps = .ok ls) :
    ∀ p ∈ ls, p.1.sp = .hbm := by
  induction ps generalizing ls with
  | nil =>
    cases h
    exact List.forall_mem_nil _
  | cons p ps ih =>
    unfold imagePages at h
    split at h
    · cases h
    next x hx =>
      cases hr : imagePages t w ps with
      | error e => rw [hr] at h; cases h
      | ok r =>
        rw [hr] at h
        cases h
        exact List.forall_mem_cons.2 ⟨mapped_tt hx, ih hr⟩

/-- The pieces of an image lie in HBM (R400). -/
theorem imageAt_hbm {t : State} {va : Word} {w : Bool} {ls : List (Loc × Nat)} (h : imageAt t va w = .ok ls) : ∀ p ∈ ls, p.1.sp = .hbm := by
  unfold imageAt at h
  split at h
  · cases h
  · exact imagePages_hbm h

/-- The bytes of one piece of an image. -/
def pieceWrite (s : State) (stamp off : Nat) (p : Loc × Nat) : State :=
  (List.range p.2).foldl (fun s i => wrLoc s (p.1.plus i) (Config.imageByte stamp (off + i))) s

theorem imageWrite_cons (s : State) (stamp off : Nat) (p : Loc × Nat) (ps : List (Loc × Nat)) :
    imageWrite s stamp off (p :: ps) = imageWrite (pieceWrite s stamp off p) stamp (off + p.2) ps := rfl

theorem pieceWrite_spec {p : Loc × Nat} (hp : p.1.sp = .hbm) (s : State) (stamp off : Nat) :
    (∀ i < p.2, rdLoc (pieceWrite s stamp off p) (p.1.plus i) = Config.imageByte stamp (off + i))
      ∧ ∀ m, ¬ inside p.1 m p.2 → rdLoc (pieceWrite s stamp off p) m = rdLoc s m := by
  obtain ⟨l, n⟩ := p
  unfold pieceWrite
  dsimp only at hp ⊢
  induction n with
  | zero => exact ⟨fun _ h => absurd h (Nat.not_lt_zero _), fun _ _ => rfl⟩
  | succ n ih =>
    obtain ⟨h1, h2⟩ := ih
    rw [List.range_succ, List.foldl_append, List.foldl_cons, List.foldl_nil]
    have hst : (l.plus n).sp ≠ .stw := by
      show l.sp ≠ .stw
      rw [hp]
      decide
    refine ⟨fun i hi => ?_, fun m hm => ?_⟩
    · by_cases e : i = n
      · subst e
        exact rdLoc_wrLoc_same _ _ hst
      · have hne : l.plus n ≠ l.plus i := fun h => e (by
          have : l.a + n = l.a + i := congrArg Loc.a h
          omega)
        rw [rdLoc_wrLoc_ne _ _ hne, h1 i (by omega)]
    · have hne : l.plus n ≠ m := fun h => hm (by
        rw [← h]
        exact ⟨rfl, Nat.le_add_right _ _, by show l.a + n < l.a + (n + 1); omega⟩)
      rw [rdLoc_wrLoc_ne _ _ hne, h2 m fun hin => hm ⟨hin.1, hin.2.1, by have := hin.2.2; omega⟩]

theorem imageWrite_outside {ls : List (Loc × Nat)} (h : ∀ p ∈ ls, p.1.sp = .hbm) (s : State) (stamp off : Nat) (m : Loc)
    (hm : ∀ p ∈ ls, ¬ inside p.1 m p.2) : rdLoc (imageWrite s stamp off ls) m = rdLoc s m := by
  induction ls generalizing s off with
  | nil => rfl
  | cons p ls ih =>
    obtain ⟨hp, hl⟩ := List.forall_mem_cons.1 h
    obtain ⟨hmp, hml⟩ := List.forall_mem_cons.1 hm
    rw [imageWrite_cons, ih hl _ _ hml, (pieceWrite_spec hp s stamp off).2 m hmp]

theorem imageSame_congr {s t : State} (h : SameMem s t) (stamp off : Nat) (ls : List (Loc × Nat)) :
    imageSame t stamp off ls = imageSame s stamp off ls := by
  induction ls generalizing off with
  | nil => rfl
  | cons p ls ih =>
    obtain ⟨l, n⟩ := p
    simp only [imageSame, h _, ih]

/-- An image whose pieces lie apart stands as it was written. -/
theorem imageSame_imageWrite {ls : List (Loc × Nat)} (h : ∀ p ∈ ls, p.1.sp = .hbm) (hd : ApartPlaces ls) (s : State) (stamp off : Nat) :
    imageSame (imageWrite s stamp off ls) stamp off ls = true := by
  induction ls generalizing s off with
  | nil => rfl
  | cons p ls ih =>
    obtain ⟨hp, hl⟩ := List.forall_mem_cons.1 h
    obtain ⟨hpd, hd⟩ := List.pairwise_cons.1 hd
    rw [imageWrite_cons, imageSame, ih hl hd, Bool.and_true, List.all_eq_true]
    intro i hi
    have hlt := List.mem_range.1 hi
    have hout : ∀ q ∈ ls, ¬ inside q.1 (p.1.plus i) q.2 := by
      rintro q hq ⟨hsp, hlo, hhi⟩
      have hsp' : p.1.sp = q.1.sp := hsp
      have hlo' : q.1.a ≤ p.1.a + i := hlo
      have hhi' : p.1.a + i < q.1.a + q.2 := hhi
      rcases hpd q hq with h | h | h
      · exact h hsp'
      · omega
      · omega
    rw [imageWrite_outside hl _ _ _ _ hout, (pieceWrite_spec hp s stamp off).1 i hlt]
    exact beq_self_eq_true _

theorem imageWrite_cycles (s : State) (stamp off : Nat) (ls : List (Loc × Nat)) :
    (imageWrite s stamp off ls).cycles = s.cycles := by
  induction ls generalizing s off with
  | nil => rfl
  | cons p ls ih =>
    have hpiece : (pieceWrite s stamp off p).cycles = s.cycles := by
      unfold pieceWrite
      induction List.range p.2 generalizing s with
      | nil => rfl
      | cons i l ih' => exact (ih' _).trans (wrLoc_cycles ..)
    rw [imageWrite_cons, ih, hpiece]

/-- What changes owner leaves every spoke as it was. -/
theorem spKept_reown (s : State) (o o' : Owner) : SpKept s (reown s o o') := by
  have hcore (d : Nat) : ∃ ws, getCore (reown s o o') d = { getCore s d with waiters := ws } :=
    ⟨_, mget_map_key (d := Core.reset) (g := fun _ k => { k with waiters := k.waiters.map fun w =>
      (w.1, { w.2 with w := w.2.w.map fun x => { x with owners := x.owners.map fun y => if y = o then o' else y } }) }) (fun _ => rfl) s.cores d⟩
  refine ⟨rfl, fun _ => rfl, fun c n v => ?_⟩
  obtain ⟨ws, e⟩ := hcore c
  have hctx : getCtx (reown s o o') c v = getCtx s c v := by
    unfold getCtx
    rw [e]
    rfl
  unfold getSp
  rw [hctx, e]

end Sys2Proof
end

section
/-! The seven instructions of spoke control, each with its target (R399 to R402). -/

namespace Sys2Proof

open Machine

/-- What the checks of a target leave: the body of the instruction runs on it. -/
structure Targets (i : Instr) (s : State) (h : Word) (ok : Ctx → Bool) (n : Nat) : Prop where
  win : (curSp s).win = []
  hub : s.cur.sp = 0
  core : s.cur.core < 65536
  ready : Ready i s
  target : ctlTarget (taken i s) h ok = .ok n

namespace Targets

variable {i : Instr} {s : State} {h : Word} {ok : Ctx → Bool} {n : Nat}

theorem ne_zero (t : Targets i s h ok n) : n ≠ 0 := (ctlTarget_ok t.target).1

theorem getSp_eq (t : Targets i s h ok n) (v : Nat) : getSp (taken i s) s.cur.core n v = getSp s s.cur.core n v :=
  getSp_taken i t.hub t.core t.ne_zero v

theorem permitted (t : Targets i s h ok n) : ok (getSp s s.cur.core n s.cur.vf).ctx = true := by
  have := (ctlTarget_ok t.target).2
  rwa [taken_cur, t.getSp_eq] at this

/-- An instruction whose body ends well on its target completes. -/
theorem completes (t : Targets i s h ok n) {body : State → Ending} {x : State} (hx : exec i s = .next (issue i s body))
    (hb : body (taken i s) = .done x) : Completes i s x := completes_done t.ready hx hb (.inl t.win)

end Targets

/-- The state in which a target starts. -/
theorem spstart_started {s t : State} {a b c : Src} {n : Nat} {r : StartRec} (g : Targets (.spstart a b c) s (src s a) (· == .free) n)
    (hpc : pcOk (src s b) = true)
    (hr : (if c.reg = 0 then .ok (taken (.spstart a b c) s, StartRec.none) else readStart (taken (.spstart a b c) s) (src s c)) = Except.ok (t, r))
    (hroom : roomFor t s.cur.vf = true) : Completes (.spstart a b c) s (startAt t n (src s b) r) ∧ t.cur = s.cur := by
  have h0 : (taken (.spstart a b c) s).cur.sp = 0 := by rw [taken_cur, g.hub]
  have hframe : HubFrame s.cur.core (taken (.spstart a b c) s) t := by
    split at hr
    · cases hr
      exact .refl _ _
    · obtain ⟨x, rfl⟩ := readStart_ok hr
      have h := hubFrame_flushAt h0 (src s c) x x.loc 64
      rwa [taken_cur] at h
  have hroom' : roomFor (taken (.spstart a b c) s) (taken (.spstart a b c) s).cur.vf = true := by
    rw [taken_cur, ← hframe.roomFor (taken_lists _ g.hub), hroom]
  refine ⟨g.completes rfl ?_, hframe.cur.trans (taken_cur _ _)⟩
  dsimp only
  rw [src_taken, src_taken, src_taken, g.target]
  dsimp only
  rw [hpc, Bool.not_true, if_neg Bool.false_ne_true]
  split at hr
  next hc =>
    cases hr
    rw [if_pos hc, withRoom_of hroom']
  next hc =>
    rw [if_neg hc, hr]
    exact withRoom_of hroom'

theorem getSp_startAt (t : State) (n : Nat) (pc : Word) (r : StartRec) :
    ∃ u, getSp (startAt t n pc r) t.cur.core n t.cur.vf = startSpoke u t.cur.vf pc .start r := ⟨_, getSp_occupy ..⟩

/-- A resumed spoke is live, where it stood (R50). -/
theorem spresume_resumed {s : State} {a : Src} {n : Nat} (g : Targets (.spresume a) s (src s a) notFree n)
    (hst : (getSp s s.cur.core n s.cur.vf).ctx = .stopped) : ∃ x, Completes (.spresume a) s x ∧ (getSp x s.cur.core n s.cur.vf).ctx = .live
      ∧ (getSp x s.cur.core n s.cur.vf).pc = (getSp s s.cur.core n s.cur.vf).pc := by
  let t := modSp (taken (.spresume a) s) s.cur.core n s.cur.vf resumed
  have hserve := (spFrame_serveTag t s.cur.core s.cur.vf n).sp s.cur.core n s.cur.vf
  have hsp : getSp t s.cur.core n s.cur.vf = { getSp s s.cur.core n s.cur.vf with ctx := .live, stopReq := false } := by
    show getSp (modSp _ _ _ _ _) _ _ _ = _
    rw [getSp_modSp, g.getSp_eq]
    exact if_pos hst
  rw [hsp] at hserve
  refine ⟨_, g.completes rfl ?_, hserve.1, hserve.2⟩
  rw [src_taken, g.target, taken_cur]

/-- A killed spoke is ended, and reported so (R400, R402). -/
theorem spkill_killed {s : State} {a : Src} {n : Nat} (g : Targets (.spkill a) s (src s a) notFree n) :
    ∃ x, Completes (.spkill a) s x ∧ (getSp x s.cur.core n s.cur.vf).ctx = .ended
      ∧ reapWord (getSp x s.cur.core n s.cur.vf) = BitVec.ofNat 64 (2 ^ 62) := by
  have hdone : Completes (.spkill a) s (killSpoke (taken (.spkill a) s) s.cur.core n s.cur.vf) := by
    refine g.completes rfl ?_
    rw [src_taken, g.target, taken_cur]
  refine ⟨_, hdone, ?_⟩
  unfold killSpoke endSpoke
  dsimp only
  rw [getSp_setSp]
  exact ⟨rfl, by simp [reapWord, Spoke.reset]⟩

/-- A reaped context is free, and the hub has the word that says how its spoke ended (R402). -/
theorem spreap_reaped {s : State} {d : Fin 32} {a : Src} {n : Nat} (g : Targets (.spreap d a) s (src s a) notFree n)
    (he : (getSp s s.cur.core n s.cur.vf).ctx = .ended) : ∃ x, Completes (.spreap d a) s x ∧ getSp x s.cur.core n s.cur.vf = Spoke.reset
      ∧ (curSp x).rdG d = if d = 0 then 0 else reapWord (getSp s s.cur.core n s.cur.vf) := by
  let c := s.cur.core
  let v := s.cur.vf
  let t := modSp (taken (.spreap d a) s) c 0 v fun p => { p with park := .none }
  have hne : ¬ (c = c ∧ 0 = n ∧ ((0 : Nat) = 0 ∨ v = v)) := fun h => g.ne_zero h.2.1.symm
  have hsp : getSp t c n v = getSp s c n v := (getSp_setSp_ne _ _ g.core g.core hne).trans (g.getSp_eq v)
  have hdone : Completes (.spreap d a) s (modSp (reap t c n v) c 0 v fun p => p.wrG d (reapWord (getSp t c n v))) := by
    refine g.completes rfl ?_
    have hready : waitReady (taken (.spreap d a) s) c 0 v (.spreap d n) = true := by
      show ((getSp (taken (.spreap d a) s) c n v).ctx == .ended) = true
      rw [g.getSp_eq, he]
      rfl
    rw [src_taken, g.target]
    dsimp only
    rw [waitOn_eq, taken_cur, g.hub, if_pos hready]
    rfl
  have hcur : (modSp (reap t c n v) c 0 v fun p => p.wrG d (reapWord (getSp t c n v))).cur = s.cur := by
    rw [modSp_cur, (spKept_reap t c n v).cur, setSp_cur, modSp_cur, taken_cur]
  refine ⟨_, hdone, ?_, ?_⟩
  · refine (getSp_setSp_ne _ _ g.core g.core hne).trans ?_
    exact ((spKept_reap t c n v).getSp c n v).trans (getSp_setSp ..)
  · rw [curSp, hcur, g.hub, getSp_modSp, rdG_wrG, hsp]
    by_cases hd : d = 0
    · rw [if_pos hd, if_neg fun h => h.2 hd]
      simp [Spoke.rdG, hd]
    · rw [if_neg hd, if_pos ⟨rfl, hd⟩]

/-! SPSPILL and SPFILL. -/

/-- A spoke with no access under way and no held write is spilled as it stands. -/
theorem spill_still {s : State} {c n v : Nat} (ho : (getSp s c n v).outst = []) (hs : (getSp s c n v).sends = []) :
    sendHeld (flushAll s (.spoke c n v)) c n v = s := by
  have hflush : flushAll s (.spoke c n v) = s := by
    unfold flushAll
    rw [show (ownerSp s (.spoke c n v)).outst = [] from ho]
    rfl
  unfold sendHeld
  dsimp only
  rw [hflush, hs]
  rfl

/-- The image of a spoke, under a stamp. -/
def spillImage (t : State) (c n v : Nat) (va : Word) (ls : List (Loc × Nat)) (stamp : Nat) : Image :=
  ⟨imageOf (getSp t c n v), v, firstOf ls, c, va, ls, stamp, mget 0 t.cycles (16 * c + n)⟩

/-- The state in which a spoke has been spilled to an image. -/
def spilled (t : State) (c n v : Nat) (va : Word) (ls : List (Loc × Nat)) : State :=
  let t1 := imageWrite (bump t) t.nextId 0 ls
  let images := mset (t1.images.filter fun p => p.2.at' != firstOf ls) t.nextId (spillImage t1 c n v va ls t.nextId)
  setSp (reown { t1 with images := images } (.spoke c n v) (.image t.nextId)) c n v Spoke.reset

theorem spspill_spilled {s : State} {a b : Src} {n : Nat} {ls : List (Loc × Nat)} (g : Targets (.spspill a b) s (src s a) (· == .stopped) n)
    (hp : (getSp s s.cur.core n s.cur.vf).pub = none) (hl : imageAt (taken (.spspill a b) s) (src s b) true = .ok ls) :
    Completes (.spspill a b) s (spilled (sendHeld (flushAll (taken (.spspill a b) s) (.spoke s.cur.core n s.cur.vf)) s.cur.core n s.cur.vf)
      s.cur.core n s.cur.vf (src s b) ls) := by
  refine g.completes rfl ?_
  dsimp only
  rw [src_taken, src_taken, g.target]
  dsimp only
  rw [hl]
  dsimp only
  rw [taken_cur, g.getSp_eq, hp, if_neg (by decide)]
  cases ls <;> rfl

theorem spilled_spec (t : State) (c n v : Nat) (va : Word) (ls : List (Loc × Nat)) :
    getSp (spilled t c n v va ls) c n v = Spoke.reset
      ∧ mget Image.none (spilled t c n v va ls).images t.nextId
        = spillImage t c n v va ls t.nextId
      ∧ SameMem (imageWrite (bump t) t.nextId 0 ls) (spilled t c n v va ls) := by
  have hkept : getSp (imageWrite (bump t) t.nextId 0 ls) c n v = getSp t c n v := (spKept_imageWrite ..).getSp c n v
  refine ⟨getSp_setSp .., ?_, ?_⟩
  · unfold spilled
    dsimp only
    rw [setSp_images, spillImage, hkept, imageWrite_cycles]
    exact mget_mset_same ..
  · exact SameMem.trans (fun _ => rfl) (setSp_sameMem _ c n v Spoke.reset)

/-- The state in which a spoke has been filled from an image. -/
def filled (t : State) (c n v : Nat) (p : Nat × Image) : State :=
  let t1 := reown { t with images := mdel t.images p.1 } (.image p.1) (.spoke c n v)
  occupy { t1 with cycles := mset t1.cycles (16 * c + n) (max (mget 0 t1.cycles (16 * c + n)) p.2.cyc) } c n v p.2.sp

theorem filled_spec (t : State) (c n v : Nat) (p : Nat × Image) :
    getSp (filled t c n v p) c n v = p.2.sp ∧ (∀ l, l.sp ≠ .hbm → rdLoc (filled t c n v p) l = rdLoc t l)
      ∧ ((∀ w, w ≠ v → (getSp t c n w).ctx = .free) → SameMem t (filled t c n v p)) := by
  let t1 := reown { t with images := mdel t.images p.1 } (.image p.1) (.spoke c n v)
  let t2 := { t1 with cycles := mset t1.cycles (16 * c + n) (max (mget 0 t1.cycles (16 * c + n)) p.2.cyc) }
  have hkept : SpKept t t2 := by
    have h0 : SpKept t { t with images := mdel t.images p.1 } := spKept_of_fields rfl rfl rfl rfl rfl
    have h1 := h0.trans (spKept_reown { t with images := mdel t.images p.1 } (.image p.1) (.spoke c n v))
    exact h1.trans (spKept_of_fields rfl rfl rfl rfl rfl)
  refine ⟨getSp_occupy .., fun l hl => rdLoc_occupy hl, fun h => ?_⟩
  have hfree : makeRoom t2 c n v = t2 := makeRoom_free fun w hw => by rw [hkept.getSp]; exact h w hw
  show SameMem t (setSp (makeRoom t2 c n v) c n v p.2.sp)
  rw [hfree]
  exact SameMem.trans (fun _ => rfl) (setSp_sameMem t2 c n v p.2.sp)

/-- The image of a VF whose bytes stand at a place: the one that was written there, or one that has been copied there (R400). -/
def imageFound (t : State) (v : Nat) (ls : List (Loc × Nat)) : Option (Nat × Image) :=
  let same (p : Nat × Image) : Bool := p.2.vf == v && imageSame t p.2.stamp 0 ls
  (t.images.find? fun p => p.2.at' == firstOf ls && same p).or (t.images.find? same)

theorem imageFound_taken (i : Instr) (s : State) (v : Nat) (ls : List (Loc × Nat)) : imageFound (taken i s) v ls = imageFound s v ls := by
  have himages : (taken i s).images = s.images := by
    obtain ⟨x, y, e⟩ := taken_rest i s
    rw [e]
  unfold imageFound
  simp only [himages, imageSame_congr (taken_sameMem i s)]

/-- SPFILL finds the image of its address, or none (R400). -/
theorem spfill_body {s : State} {a b : Src} {n : Nat} {ls : List (Loc × Nat)} (g : Targets (.spfill a b) s (src s a) (· == .free) n)
    (hl : imageAt (taken (.spfill a b) s) (src s b) false = .ok ls) :
    ∃ body, exec (.spfill a b) s = .next (issue (.spfill a b) s body)
      ∧ (imageFound s s.cur.vf ls = none → body (taken (.spfill a b) s) = .err .softError (src s b) 1)
      ∧ ∀ p, imageFound s s.cur.vf ls = some p → body (taken (.spfill a b) s)
          = withRoom (taken (.spfill a b) s) (.done (filled (taken (.spfill a b) s) s.cur.core n s.cur.vf p)) := by
  have hfound : imageFound (taken (.spfill a b) s) (taken (.spfill a b) s).cur.vf ls = imageFound s s.cur.vf ls := by
    rw [imageFound_taken, taken_cur]
  refine ⟨_, rfl, fun hn => ?_, fun p hp => ?_⟩ <;> dsimp only <;> rw [src_taken, src_taken, g.target] <;> dsimp only <;> rw [hl] <;> dsimp only
  · change (match imageFound (taken (.spfill a b) s) (taken (.spfill a b) s).cur.vf ls with | none => _ | some p => _) = _
    rw [hfound, hn]
  · change (match imageFound (taken (.spfill a b) s) (taken (.spfill a b) s).cur.vf ls with | none => _ | some p => _) = _
    rw [hfound, hp, ← taken_cur (.spfill a b) s]
    rfl

/-- Settles O47: each instruction on its target, with the frames of what it does there. -/
theorem spokeControl : Obligations.SpokeControl := by
  unfold Obligations.SpokeControl
  intro s d a b c n hw h0 hcore
  have hc : s.cur.core < 65536 := lt_trans hcore (by decide)
  have targets {i : Instr} {ok : Ctx → Bool} (h : Ready i s ∧ ctlTarget (taken i s) (src s a) ok = .ok n) : Targets i s (src s a) ok n :=
    ⟨hw, h0, hc, h.1, h.2⟩
  intro k tgt at'
  refine ⟨fun h hpc t r hr hroom => ?_, fun h => ⟨?_, ?_⟩, fun h hst => spresume_resumed (targets h) hst, fun h => spkill_killed (targets h),
    fun h he => spreap_reaped (targets h) he, fun h hp ls hl => ?_, fun h ls hl => ?_⟩
  · obtain ⟨hdone, hcur⟩ := spstart_started (targets h) hpc hr hroom
    obtain ⟨u, hu⟩ := getSp_startAt t n (src s b) r
    rw [hcur] at hu
    refine ⟨_, hdone, ?_⟩
    simp only [at', k, hu]
    exact startSpoke_spec u s.cur.vf (src s b) .start r
  · refine (targets h).completes rfl ?_
    rw [src_taken, (targets h).target, taken_cur]
  · intro p hl hd ho hwd hwin hp
    have e : getSp (taken (.spstop a) s) k.core n k.vf = p := (targets h).getSp_eq _
    exact requestStop_idle (targets h).ne_zero (by rw [e, hl]) (by rw [e, hd]) (by rw [e, ho]) (by rw [e, hwd]) (by rw [e, hwin]) (by rw [e, hp])
  · intro t
    obtain ⟨hreset, himage, hmem⟩ := spilled_spec t k.core n k.vf (src s b) ls
    refine ⟨_, spspill_spilled (targets h) hp hl, hreset, himage, fun ho hs => ?_, fun hd => ⟨?_, fun m hm => ?_⟩⟩
    · have e := (targets h).getSp_eq s.cur.vf
      simp only [at', t]
      rw [spill_still (by rw [e]; exact ho) (by rw [e]; exact hs)]
      exact e
    · rw [imageSame_congr hmem, imageSame_imageWrite (imageAt_hbm hl) hd]
    · rw [hmem m]
      exact imageWrite_outside (imageAt_hbm hl) (bump t) _ _ m hm
  · intro same found
    obtain ⟨body, hx, hnone, hsome⟩ := spfill_body (targets h) hl
    refine ⟨fun hf => traps_err h.1 hx (hnone hf), fun m hm hroom => ?_⟩
    obtain ⟨hsp, hmem, hfree⟩ := filled_spec (taken (.spfill a b) s) k.core n k.vf m
    have htaken := taken_sameMem (.spfill a b) s
    have hdone : Completes (.spfill a b) s (filled (taken (.spfill a b) s) k.core n k.vf m) :=
      (targets h).completes hx ((hsome m hm).trans (withRoom_of (by rw [taken_cur]; exact hroom)))
    refine ⟨_, hdone, hsp, fun l hl => (hmem l hl).trans (htaken l), fun hv => SameMem.trans htaken (hfree fun w hw => ?_)⟩
    rw [(targets h).getSp_eq]
    exact hv w hw

end Sys2Proof
end

section
/-! Groups and scratch barriers (R39, R41, R42, R331). -/

namespace Sys2Proof

open Machine

/-! Groups (R39, R356). -/

theorem slotOfGrp_taken (i : Instr) (s : State) (g : Nat) :
    slotOfGrp (curSp (taken i s)) (curSp (taken i s)).ltag g = slotOfGrp (curSp s) (curSp s).ltag g := by
  obtain ⟨a, b, w, e⟩ := curSp_taken i s
  rw [e]
  rfl

theorem gslots_taken (i : Instr) (s : State) : (curSp (taken i s)).gslots = (curSp s).gslots := by
  obtain ⟨a, b, w, e⟩ := curSp_taken i s
  rw [e]

theorem ltag_taken (i : Instr) (s : State) : (curSp (taken i s)).ltag = (curSp s).ltag := by
  obtain ⟨a, b, w, e⟩ := curSp_taken i s
  rw [e]

/-- GBAR and GARRIVE in one: the park of a first arrival, and that of a spoke that has arrived. -/
def groupEnd (g : Nat) (first again : Fin 4 → Park) (t : State) : Ending :=
  match slotOfGrp (curSp t) (curSp t).ltag g with
  | none => .fail .illegalField
  | some i => if (curSp t).gslots[i].arrived then .done (parked (again i) t) else .done (arriveIn t i g (first i))

theorem groupEnd_spec {i : Instr} {s : State} {g : Nat} {first again : Fin 4 → Park} (h : Ready i s) (hw : (curSp s).win = [])
    (hx : exec i s = .next (issue i s (groupEnd g first again))) :
    (slotOfGrp (curSp s) (curSp s).ltag g = none → Traps i s .illegalField 0 0)
      ∧ ∀ j, slotOfGrp (curSp s) (curSp s).ltag g = some j →
        Completes i s (if (curSp s).gslots[j].arrived then parked (again j) (taken i s)
          else grpArrive (modCur (taken i s) fun p =>
            { p with gslots := p.gslots.set j { p.gslots[j] with arrived := true }, park := first j }) s.cur.vf (curSp s).ltag g) := by
  refine ⟨fun hn => traps_err h hx ?_, fun j hj => completes_done h hx ?_ (.inl hw)⟩
  · unfold groupEnd
    rw [slotOfGrp_taken, hn]
    rfl
  · unfold groupEnd
    rw [slotOfGrp_taken, hj]
    dsimp only
    rw [gslots_taken, ← apply_ite Ending.done]
    unfold arriveIn
    rw [taken_cur, ltag_taken]

/-- What a flip makes of a member (R39). -/
theorem flipSpoke_member {p : Spoke} {tag g : Nat} {i : Fin 4} (h : slotOfGrp p tag g = some i) :
    let q := flipSpoke tag g p
    q.gslots[i] = { p.gslots[i] with phase := !p.gslots[i].phase, arrived := p.park == .group i true }
      ∧ q.park = (if p.park = .group i true ∨ p.park = .group i false then .none else p.park) ∧ q.g = p.g ∧ q.pc = p.pc := by
  intro q
  have hq : q = { p with gslots := p.gslots.set i { p.gslots[i] with phase := !p.gslots[i].phase, arrived := p.park == .group i true }
                         park := if p.park == .group i true || p.park == .group i false then .none else p.park } := by
    show flipSpoke tag g p = _
    unfold flipSpoke
    rw [h]
  rw [hq]
  refine ⟨(getElem_set_fin ..).trans (if_pos rfl), ?_, rfl, rfl⟩
  simp only [Bool.or_eq_true, beq_iff_eq]

/-- The last arrival flips the phase of the group and of each member (R39). -/
theorem tryFlip_full {s : State} {v tag g : Nat} (h0 : (mget (⟨0, 0, false⟩ : Grp) s.grps (grpKey v tag g)).exp ≠ 0)
    (h1 : (mget (⟨0, 0, false⟩ : Grp) s.grps (grpKey v tag g)).exp ≤ (mget (⟨0, 0, false⟩ : Grp) s.grps (grpKey v tag g)).arr) :
    let x := mget (⟨0, 0, false⟩ : Grp) s.grps (grpKey v tag g)
    mget (⟨0, 0, false⟩ : Grp) (tryFlip s v tag g).grps (grpKey v tag g) = ⟨x.exp, rearrivals s v tag g, !x.phase⟩
      ∧ ∀ c n, c < 65536 → n ≠ 0 → getSp (tryFlip s v tag g) c n v = flipSpoke tag g (getSp s c n v) := by
  unfold tryFlip
  dsimp only
  rw [if_pos ⟨h0, h1⟩]
  refine ⟨mget_mset_same .., fun c n hc hn => ?_⟩
  exact (getSp_mapSpokes (flipSpoke_reset tag g) s v n v hc).trans (if_pos ⟨hn, rfl⟩)

/-! Barriers (R41, R331). -/

theorem barCheck_scr {t : State} {va : Word} {w : Bool} {r : Res} (h : barCheck t va w = .ok r) : r.loc.sp = .scr := by
  unfold barCheck at h
  dsimp only at h
  split at h
  · cases h
  · exact scalar_scr h

/-- The words of a barrier that is set up (R331). -/
theorem barrier_set {t : State} {l : Loc} (hl : l.sp ≠ .stw) {x y : Nat} (hx : x < 2 ^ 32) (hy : y < 2 ^ 32) :
    let u := wrN t l 16 (x + y * 2 ^ 32)
    rdN u l 4 = x ∧ rdN u (l.plus 4) 4 = y ∧ rdN u (l.plus 8) 8 = 0 ∧ SameBut t u l 16 := by
  intro u
  have hall : rdN u l 16 = x + y * 2 ^ 32 := by
    rw [rdN_wrN t 16 _ hl, Nat.mod_eq_of_lt]
    omega
  have hlow : rdN u l 8 = x + y * 2 ^ 32 := by
    rw [← rdN_mod u l (show 8 ≤ 16 by decide), hall, Nat.mod_eq_of_lt]
    omega
  refine ⟨?_, ?_, ?_, wrN_sameBut t l 16 _⟩
  · rw [← rdN_mod u l (show 4 ≤ 8 by decide), hlow]
    omega
  · rw [← rdN_div u l 4 4, hlow]
    omega
  · rw [← rdN_div u l 8 8, hall]
    omega

/-- Two neighbouring words that are written (R331). -/
theorem rdN_two_words {t : State} {l : Loc} (hl : l.sp ≠ .stw) {x y : Nat} (hx : x < 2 ^ 32) (hy : y < 2 ^ 32) :
    let u := wrN (wrN t (l.plus 8) 4 x) (l.plus 12) 4 y
    rdN u (l.plus 8) 4 = x ∧ rdN u (l.plus 12) 4 = y ∧ SameBut t u (l.plus 8) 8 := by
  intro u
  have hout {m : Loc} (h : ¬ inside (l.plus 12) m 4) : rdLoc u m = rdLoc (wrN t (l.plus 8) 4 x) m := wrN_sameBut _ _ _ _ m h
  refine ⟨?_, ?_, fun m hm => ?_⟩
  · rw [rdN_congr (t := u) (s := wrN t (l.plus 8) 4 x) fun m hm => hout fun h => ?_, rdN_wrN t 4 x (l := l.plus 8) hl, Nat.mod_eq_of_lt (by omega)]
    obtain ⟨-, -, hlt⟩ := hm
    obtain ⟨-, hle, -⟩ := h
    have hlt' : m.a < l.a + 8 + 4 := hlt
    have hle' : l.a + 12 ≤ m.a := hle
    omega
  · rw [rdN_wrN _ 4 y (l := l.plus 12) hl, Nat.mod_eq_of_lt (by omega)]
  · have h12 : ¬ inside (l.plus 12) m 4 := fun ⟨hs, hlo, hhi⟩ => hm ⟨hs, by
      have : l.a + 12 ≤ m.a := hlo
      show l.a + 8 ≤ m.a
      omega, by
      have : m.a < l.a + 12 + 4 := hhi
      show m.a < l.a + 8 + 8
      omega⟩
    have h8 : ¬ inside (l.plus 8) m 4 := fun ⟨hs, hlo, hhi⟩ => hm ⟨hs, hlo, by
      have : m.a < l.a + 8 + 4 := hhi
      show m.a < l.a + 8 + 8
      omega⟩
    exact (hout h12).trans (wrN_sameBut _ _ _ _ m h8)

/-- The release of the waiters at a barrier that are on the device (R41). -/
theorem releaseAt_bar {s : State} {l : Loc} (h : ∀ w ∈ s.waiters, w.loc = l → OnChip w) :
    let u := releaseAt s l 0 fun w => w == .bar
    SameMem s u ∧ ∀ z ∈ u.waiters, z.loc = l → z.want = .bar → hereNow s z = false := by
  let go := s.waiters.filter fun w => w.loc == l && hereNow s w && w.want == .bar
  let s1 : State := { s with waiters := s.waiters.filter fun w => !(w.loc == l && hereNow s w && w.want == .bar) }
  have hon : ∀ w ∈ go, OnChip w := by
    intro w hw
    obtain ⟨hmem, hb⟩ := List.mem_filter.1 hw
    simp only [Bool.and_eq_true, beq_iff_eq] at hb
    exact h w hmem hb.1.1
  obtain ⟨hmem, -, hws⟩ := releases_rest hon s1 0
  refine ⟨fun m => hmem m, fun z hz hl hb => ?_⟩
  have hz' : z ∈ s1.waiters := hws ▸ hz
  have := (List.mem_filter.1 hz').2
  simpa [hl, hb] using this

/-- An arrival at a barrier: it flips where both counts are full, and counts otherwise (R41, R331). -/
theorem barArrive_spec {t : State} {l : Loc} (hl : l.sp ≠ .stw) (y : Nat) (hon : ∀ w ∈ t.waiters, w.loc = l → OnChip w) :
    let w := rdN t (l.plus 8) 4
    let arr := min (w % 2 ^ 31 + 1) 0x7FFFFFFF
    let bytes := min (rdN t (l.plus 12) 4 + y % 2 ^ 32) 0xFFFFFFFF
    let u := barArrive t l y
    SameBut t u (l.plus 8) 8
      ∧ if rdN t l 4 ≤ arr ∧ rdN t (l.plus 4) 4 ≤ bytes then
          rdN u (l.plus 8) 4 = (1 - w / 2 ^ 31) * 2 ^ 31 ∧ rdN u (l.plus 12) 4 = 0
            ∧ ∀ z ∈ u.waiters, z.loc = l → z.want = .bar → hereNow t z = false
        else rdN u (l.plus 8) 4 = arr + w / 2 ^ 31 * 2 ^ 31 ∧ rdN u (l.plus 12) 4 = bytes := by
  intro w arr bytes u
  have hw : w < 2 ^ 32 := rdN_lt t (l.plus 8) 4
  by_cases hfull : rdN t l 4 ≤ arr ∧ rdN t (l.plus 4) 4 ≤ bytes
  · rw [if_pos hfull]
    have hflip : (1 - w / 2 ^ 31) * 2 ^ 31 < 2 ^ 32 := by
      have : 1 - w / 2 ^ 31 ≤ 1 := Nat.sub_le ..
      omega
    obtain ⟨h8, h12, hsame⟩ := rdN_two_words (t := t) hl hflip (show 0 < 2 ^ 32 by decide)
    let t2 := wrN (wrN t (l.plus 8) 4 ((1 - w / 2 ^ 31) * 2 ^ 31)) (l.plus 12) 4 0
    have hu : u = releaseAt t2 l 0 fun w => w == .bar := if_pos hfull
    have hws : t2.waiters = t.waiters := by simp [t2]
    have hhere : hereNow t2 = hereNow t := by rw [hereNow_wrN, hereNow_wrN]
    obtain ⟨hmem, hgone⟩ := releaseAt_bar (s := t2) (l := l) (by rw [hws]; exact hon)
    rw [hu]
    exact ⟨hsame.sameMem hmem, (hmem.rdN _ _).trans h8, (hmem.rdN _ _).trans h12, by rw [← hhere]; exact hgone⟩
  · rw [if_neg hfull]
    have harr : arr + w / 2 ^ 31 * 2 ^ 31 < 2 ^ 32 := by
      have : arr ≤ 0x7FFFFFFF := min_le_right ..
      have : w / 2 ^ 31 ≤ 1 := by omega
      omega
    have hbytes : bytes < 2 ^ 32 := lt_of_le_of_lt (min_le_right ..) (by decide)
    obtain ⟨h8, h12, hsame⟩ := rdN_two_words (t := t) hl harr hbytes
    have hu : u = wrN (wrN t (l.plus 8) 4 (arr + w / 2 ^ 31 * 2 ^ 31)) (l.plus 12) 4 bytes := if_neg hfull
    rw [hu]
    exact ⟨hsame, h8, h12⟩

/-- Settles O48: an arrival in a group and the flip that it can make, and each instruction on a barrier. -/
theorem groupsAndBarriers : Obligations.GroupsAndBarriers := by
  unfold Obligations.GroupsAndBarriers
  refine ⟨fun s g hw => ?_, fun s v tag g => ?_, fun s a b n r => ?_⟩
  · simp only [List.forall_mem_cons, List.not_mem_nil, false_implies, implies_true, and_true]
    exact ⟨fun h => groupEnd_spec h hw rfl, fun h => groupEnd_spec h hw rfl⟩
  · intro none' x t
    refine ⟨fun h => if_neg fun hf => ?_, fun h0 h1 => ?_⟩
    · exact h.elim hf.1 (Nat.not_lt.2 hf.2)
    · obtain ⟨hgrp, hsp⟩ := tryFlip_full h0 h1
      refine ⟨hgrp, fun c n i hc hn hi => ?_⟩
      intro p q
      have hq : q = flipSpoke tag g p := hsp c n hc hn
      rw [hq]
      exact flipSpoke_member hi
  · intro y
    have hy : y < 2 ^ 32 := Nat.mod_lt _ (by decide)
    have hstw {t : State} {va : Word} {w : Bool} (h : barCheck t va w = .ok r) : r.loc.sp ≠ .stw := by rw [barCheck_scr h]; decide
    refine ⟨fun h hr => ?_, fun h hr => ?_, fun h hw hr => ?_⟩
    · intro x t
      refine ⟨fun hx => traps_err h rfl ?_, fun hx => ?_⟩
      · dsimp only
        rw [src_taken, src_taken, hr]
        exact if_pos hx
      · refine ⟨_, completes_done h rfl ?_ (.inl (win_nil_of_ready h rfl rfl)), barrier_set (t := t) (hstw hr) (Nat.mod_lt _ (by decide)) hy⟩
        dsimp only
        rw [src_taken, src_taken, src_taken, hr]
        exact if_neg hx
    · intro t w arr bytes hon
      have hspec := barArrive_spec (hstw hr) y hon
      rw [show y % 2 ^ 32 = y from Nat.mod_eq_of_lt hy] at hspec
      refine ⟨_, completes_done h rfl ?_ (.inl (win_nil_of_ready h rfl rfl)), hspec⟩
      rw [src_taken, src_taken, hr]
    · intro t
      refine completes_done h rfl ?_ (.inl hw)
      dsimp only
      rw [src_taken, src_taken, hr]
      exact (apply_ite Ending.done ..).symm

end Sys2Proof
end

section
/-! Copies: slots and identifiers, tags, the watermark, completions and their arrivals (R225 to R236). -/

namespace Sys2Proof

open Machine

/-! The context of a channel behind what a command does to its spoke. -/

/-- A change that leaves of each context all but its spokes, and of each spoke its park. -/
structure ChanFrame (s t : State) : Prop where
  sp : SpFrame (fun p q => q.park = p.park) s t
  ctx : ∀ d w, ∃ sps, getCtx t d w = { getCtx s d w with spokes := sps }
  barArrs : t.barArrs = s.barArrs

theorem getCtx_of_fields {s t : State} (h1 : t.cores = s.cores) (h2 : t.saved = s.saved) (h3 : t.halves = s.halves) (h4 : t.ctrl = s.ctrl) (d w : Nat) :
    getCtx t d w = getCtx s d w := by
  unfold getCtx getCore vfOf isSvc getHalf
  rw [h1, h2, h3, h4]

namespace ChanFrame

variable {s t u : State}

theorem of_fields (h1 : t.cores = s.cores) (h2 : t.saved = s.saved) (h3 : t.halves = s.halves) (h4 : t.ctrl = s.ctrl) (h5 : t.cur = s.cur)
    (h6 : t.barArrs = s.barArrs) : ChanFrame s t :=
  ⟨(spKept_of_fields h1 h2 h3 h4 h5).frame fun _ => rfl, fun d w => ⟨_, getCtx_of_fields h1 h2 h3 h4 d w⟩, h6⟩

theorem refl (s : State) : ChanFrame s s := .of_fields rfl rfl rfl rfl rfl rfl

theorem trans (h : ChanFrame s t) (k : ChanFrame t u) : ChanFrame s u := by
  refine ⟨SpFrame.trans (fun h k => k.trans h) h.sp k.sp, fun d w => ?_, k.barArrs.trans h.barArrs⟩
  obtain ⟨a, e⟩ := h.ctx d w
  obtain ⟨b, f⟩ := k.ctx d w
  exact ⟨b, by rw [f, e]⟩

theorem of_quiet (h : Quiet s t) : ChanFrame s t := .of_fields h.cores h.saved h.halves h.ctrl h.cur h.barArrs

theorem modSp {f : Spoke → Spoke} (hf : ∀ p, (f p).park = p.park) (s : State) (c n v : Nat) : ChanFrame s (modSp s c n v f) :=
  ⟨spFrame_modSp (R := fun p q => q.park = p.park) (fun _ => rfl) hf s c n v, fun d w => getCtx_setSp s c n v d w _, by simp⟩

end ChanFrame

theorem quiet_imageWrite (ls : List (Loc × Nat)) (s : State) (stamp off : Nat) : Quiet s (imageWrite s stamp off ls) := by
  induction ls generalizing s off with
  | nil => exact .refl s
  | cons p ls ih =>
    rw [imageWrite_cons]
    exact Quiet.trans (Quiet.foldl _ (fun s i => .wrLoc s _ _) s) (ih _ _)

theorem quiet_setImage (s : State) (i : Nat) (x : Image) (p : Spoke) : Quiet s (setImage s i x p) := by
  unfold setImage
  split
  · exact .refl s
  · split
    · refine Quiet.trans ?_ (quiet_imageWrite _ _ _ _)
      exact ⟨rfl, rfl, rfl, rfl, rfl, .of_fns rfl, rfl, rfl, rfl, rfl⟩
    · exact ⟨rfl, rfl, rfl, rfl, rfl, .of_fns rfl, rfl, rfl, rfl, rfl⟩

/-- An owner is updated on the device, or in its image. -/
theorem modOwner_cases (s : State) (o : Owner) (f : Spoke → Spoke) : (∃ c n v, modOwner s o f = modSp s c n v f) ∨ Quiet s (modOwner s o f) := by
  cases o with
  | spoke c n v => exact .inl ⟨c, n, v, rfl⟩
  | image i =>
    refine .inr ?_
    unfold modOwner
    dsimp only
    split
    · exact quiet_setImage ..
    · exact .refl s
  | gone => exact .inr (.refl s)

theorem chanFrame_modOwner {f : Spoke → Spoke} (hf : ∀ p, (f p).park = p.park) (s : State) (o : Owner) : ChanFrame s (modOwner s o f) := by
  rcases modOwner_cases s o f with ⟨c, n, v, e⟩ | h
  · rw [e]
    exact .modSp hf s c n v
  · exact .of_quiet h

theorem quiet_engStore (s : State) (l : Loc) (b : Byte) : Quiet s (engStore s l b) := by
  unfold engStore
  split
  · split
    · exact quiet_kick ..
    · exact .wrLoc ..
  · exact .wrLoc ..

theorem quiet_drainOut (s : State) (c : Cmd) : Quiet s (drainOut s c) :=
  Quiet.foldl (f := fun s (x : Loc × Byte) => engStore s x.1 x.2) _ (fun s x => quiet_engStore s x.1 x.2) s

theorem quiet_publish (s : State) (o : Mem) : Quiet s (publish s o) := .foldl _ (fun s _ => .wrLoc s _ _) s

theorem quiet_settlePanes (s : State) (c : Cmd) : Quiet s (settlePanes s c).1 := by
  unfold settlePanes
  dsimp only
  split
  · split
    · exact ⟨rfl, rfl, rfl, rfl, rfl, .of_fns rfl, rfl, rfl, rfl, rfl⟩
    · exact .refl s
  · split
    · exact ⟨rfl, rfl, rfl, rfl, rfl, .of_fns rfl, rfl, rfl, rfl, rfl⟩
    · exact .refl s
  · exact .refl s

/-! Tags (R232, R233). -/

theorem getLsbD_bitW {t j : Nat} (hj : j < 64) : (bitW t).getLsbD j = (j == t) := by
  unfold bitW
  rw [BitVec.getLsbD_ofNat, decide_eq_true hj, Bool.true_and, Nat.testBit_two_pow, Bool.beq_eq_decide_eq]
  exact decide_eq_decide.2 eq_comm

/-- What serving the tags can change of a context: its spokes, and the bits that they take. -/
def TagFrame (x y : CoreCtx) : Prop := ∃ sps tags tagerr, y = { x with spokes := sps, tags := tags, tagerr := tagerr }

theorem tagFrame_serveTag (s : State) (c v n : Nat) : TagFrame (getCtx s c v) (getCtx (serveTag s c v n) c v) := by
  have hset (y : CoreCtx) (f : Spoke → Spoke) (hy : TagFrame (getCtx s c v) y) : TagFrame (getCtx s c v) (getCtx (modSp (setCtx s c v y) c n v f) c v) := by
    obtain ⟨sps, e⟩ := getCtx_setSp (setCtx s c v y) c n v c v (f (getSp (setCtx s c v y) c n v))
    obtain ⟨sps', tags, tagerr, rfl⟩ := hy
    rw [modSp, e, getCtx_setCtx]
    exact ⟨_, _, _, rfl⟩
  unfold serveTag
  dsimp only
  split
  · exact ⟨_, _, _, rfl⟩
  split
  · split
    · exact ⟨_, _, _, rfl⟩
    · exact hset _ _ ⟨_, _, _, rfl⟩
  · split
    · exact hset _ _ ⟨_, _, _, rfl⟩
    · exact ⟨_, _, _, rfl⟩
  · exact ⟨_, _, _, rfl⟩

theorem serveTag_rest (s : State) (c v n : Nat) : (serveTag s c v n).cmds = s.cmds ∧ (serveTag s c v n).barArrs = s.barArrs := by
  unfold serveTag
  dsimp only
  split
  · exact ⟨rfl, rfl⟩
  split
  · split
    · exact ⟨rfl, rfl⟩
    · simp
  · split
    · simp
    · exact ⟨rfl, rfl⟩
  · exact ⟨rfl, rfl⟩

theorem serveTags_rest (s : State) (c v : Nat) : TagFrame (getCtx s c v) (getCtx (serveTags s c v) c v)
    ∧ (serveTags s c v).cmds = s.cmds ∧ (serveTags s c v).barArrs = s.barArrs := by
  unfold serveTags
  induction List.range 16 generalizing s with
  | nil => exact ⟨⟨_, _, _, rfl⟩, rfl, rfl⟩
  | cons n l ih =>
    obtain ⟨⟨sps, tags, tagerr, e⟩, h1, h2⟩ := ih (serveTag s c v n)
    obtain ⟨k1, k2⟩ := serveTag_rest s c v n
    obtain ⟨sps', tags', tagerr', e'⟩ := tagFrame_serveTag s c v n
    refine ⟨⟨sps, tags, tagerr, ?_⟩, h1.trans k1, h2.trans k2⟩
    rw [List.foldl_cons, e, e']

/-- A park on tags (R233). -/
def Park.onTags : Park → Prop
  | .tagAny _ _ | .tagAll _ => True
  | _ => False

theorem serveTag_unparked {s : State} {c v n : Nat} (h : ¬ Park.onTags (getSp s c n v).park) : serveTag s c v n = s := by
  unfold serveTag
  dsimp only
  split
  · rfl
  · split
    next e => rw [e] at h; exact absurd trivial h
    next e => rw [e] at h; exact absurd trivial h
    · rfl

/-- With no spoke parked on tags there is none to serve. -/
theorem serveTags_unparked {s : State} {c v : Nat} (h : ∀ n < 16, ¬ Park.onTags (getSp s c n v).park) : serveTags s c v = s := by
  have hl (l : List Nat) (hl : ∀ n ∈ l, n < 16) : l.foldl (fun s n => serveTag s c v n) s = s := by
    induction l with
    | nil => rfl
    | cons n l ih =>
      obtain ⟨hn, hl⟩ := List.forall_mem_cons.1 hl
      rw [List.foldl_cons, serveTag_unparked (h n hn), ih hl]
  exact hl _ fun n hn => List.mem_range.1 hn

/-! The watermark (R235). -/

theorem foldl_min_spec (l : List Nat) (a : Nat) : l.foldl min a ≤ a ∧ (∀ i ∈ l, l.foldl min a ≤ i) ∧ (l.foldl min a ∈ l ∨ l.foldl min a = a) := by
  induction l generalizing a with
  | nil => exact ⟨le_refl a, List.forall_mem_nil _, .inr rfl⟩
  | cons b l ih =>
    obtain ⟨h1, h2, h3⟩ := ih (min a b)
    rw [List.foldl_cons]
    refine ⟨h1.trans (min_le_left a b), List.forall_mem_cons.2 ⟨h1.trans (min_le_right a b), h2⟩, ?_⟩
    rcases h3 with h | h
    · exact .inl (List.mem_cons_of_mem b h)
    · rcases min_choice a b with e | e
      · exact .inr (h.trans e)
      · exact .inl (List.mem_cons.2 (.inl (h.trans e)))

/-- The watermark is the lowest identifier in flight, or the next where none is. -/
theorem watermark_spec (x : CoreCtx) : watermark x ≤ x.nextXid ∧ (∀ i ∈ x.xids, watermark x ≤ i) ∧ (watermark x ∈ x.xids ∨ watermark x = x.nextXid) :=
  foldl_min_spec x.xids x.nextXid

/-- It does not fall as identifiers leave the channel. -/
theorem watermark_mono {x y : CoreCtx} (hn : y.nextXid = x.nextXid) (hx : ∀ i ∈ y.xids, i ∈ x.xids) : watermark x ≤ watermark y := by
  obtain ⟨h1, h2, -⟩ := watermark_spec x
  obtain ⟨-, -, h3⟩ := watermark_spec y
  rcases h3 with h | h
  · exact h2 _ (hx _ h)
  · rw [h, hn]
    exact h1

/-- It stands as a transfer takes the next identifier. -/
theorem watermark_take (x : CoreCtx) : watermark { x with nextXid := x.nextXid + 1, xids := x.xids ++ [x.nextXid] } = watermark x := by
  have hmin (l : List Nat) (a b : Nat) : min (l.foldl min a) b = l.foldl min (min a b) := by
    induction l generalizing a with
    | nil => rfl
    | cons i l ih => rw [List.foldl_cons, List.foldl_cons, ih, min_right_comm]
  unfold watermark
  rw [List.foldl_append]
  exact (hmin _ _ _).trans (by rw [min_eq_right (Nat.le_succ _)])

end Sys2Proof
end

section
/-! The events of copies (R227 to R236). -/

namespace Sys2Proof

open Machine

/-! A slot and an identifier (R227, R232). -/

/-- The context in which a copy has its identifier and its tag is armed. -/
def slotCtx (x : CoreCtx) (c : Cmd) : CoreCtx :=
  let y := { x with nextXid := x.nextXid + 1, xids := x.xids ++ [x.nextXid] }
  if (c.cp 6).toNat / 64 % 2 = 0 then armTag y ((c.cp 6).toNat % 64) else y

/-- Whether a copy has a tag, and it is this one (R231). -/
def hasTag (c : Cmd) (j : Nat) : Bool := !bitN (c.cp 6) 6 && j == (c.cp 6).toNat % 64

theorem hasTag_iff (c : Cmd) (j : Nat) : hasTag c j = (decide ((c.cp 6).toNat / 64 % 2 = 0) && j == (c.cp 6).toNat % 64) := by
  have h : (!bitN (c.cp 6) 6) = decide ((c.cp 6).toNat / 64 % 2 = 0) := by
    unfold bitN
    rcases Nat.mod_two_eq_zero_or_one ((c.cp 6).toNat / 64) with h | h <;> simp [h]
  rw [hasTag, h]

/-- The state in which a copy has its slot, before its register has the identifier. -/
def slotHeld (s : State) (c : Cmd) : State :=
  setCmd (setCtx s c.core c.vf (slotCtx (getCtx s c.core c.vf) c)) { c with xid := (getCtx s c.core c.vf).nextXid, st := .queued }

theorem takeSlot_eq (s : State) (c : Cmd) :
    takeSlot s c = fillPend (slotHeld s c) c.owner c.reg (.cmd c.id) (BitVec.ofNat 64 (getCtx s c.core c.vf).nextXid) := rfl

theorem slotCtx_spokes (x : CoreCtx) (c : Cmd) : (slotCtx x c).spokes = x.spokes := by
  unfold slotCtx
  split <;> rfl

theorem slotCtx_spec (x : CoreCtx) (c : Cmd) :
    (slotCtx x c).nextXid = x.nextXid + 1 ∧ (slotCtx x c).xids = x.xids ++ [x.nextXid] ∧ watermark (slotCtx x c) = watermark x ∧ (slotCtx x c).tagerr = x.tagerr
      ∧ ∀ j < 64, mget 0 (slotCtx x c).tagCnt j = mget 0 x.tagCnt j + (hasTag c j).toNat
        ∧ (slotCtx x c).tags.getLsbD j = (x.tags.getLsbD j && !hasTag c j) := by
  simp only [hasTag_iff]
  unfold slotCtx
  dsimp only
  split
  next h =>
    refine ⟨rfl, rfl, watermark_take x, rfl, fun j hj => ⟨?_, ?_⟩⟩
    · show mget 0 (mset x.tagCnt _ (mget 0 x.tagCnt _ + 1)) j = _
      rw [mget_mset, decide_eq_true h, Bool.true_and]
      by_cases e : (c.cp 6).toNat % 64 = j
      · simp [e]
      · have e' : (j == (c.cp 6).toNat % 64) = false := beq_eq_false_iff_ne.2 fun h => e h.symm
        rw [if_neg e, e']
        rfl
    · show (x.tags &&& ~~~(bitW _)).getLsbD j = _
      rw [BitVec.getLsbD_and, BitVec.getLsbD_not, getLsbD_bitW hj, decide_eq_true h]
      simp [hj]
  next h =>
    refine ⟨rfl, rfl, watermark_take x, rfl, fun j hj => ?_⟩
    rw [decide_eq_false h]
    simp

/-- The register of an owner that is filled changes no context but in its spokes. -/
theorem getCtx_fillPend (s : State) (o : Owner) (r : Fin 32) (w : Pend) (x : Word) (d v : Nat) :
    ∃ sps, getCtx (fillPend s o r w x) d v = { getCtx s d v with spokes := sps } := by
  unfold fillPend
  rcases modOwner_cases s o fun p => if r ≠ 0 ∧ p.pendG r = w then p.wrG r x else p with ⟨c, n, u, e⟩ | h
  · rw [e]
    exact getCtx_setSp ..
  · exact ⟨_, getCtx_of_fields h.cores h.saved h.halves h.ctrl d v⟩

theorem getCtx_takeSlot (s : State) (c : Cmd) :
    ∃ sps, getCtx (takeSlot s c) c.core c.vf = { slotCtx (getCtx s c.core c.vf) c with spokes := sps } := by
  have hheld : getCtx (slotHeld s c) c.core c.vf = slotCtx (getCtx s c.core c.vf) c := getCtx_setCtx ..
  rw [takeSlot_eq]
  obtain ⟨sps, e⟩ := getCtx_fillPend (slotHeld s c) c.owner c.reg (.cmd c.id) (BitVec.ofNat 64 (getCtx s c.core c.vf).nextXid) c.core c.vf
  exact ⟨sps, by rw [e, hheld]⟩

/-- The identifier reaches the register that waits for it (R227). -/
theorem takeSlot_fills {s : State} {c : Cmd} {k n v : Nat} (ho : c.owner = .spoke k n v) (hr : c.reg ≠ 0)
    (hp : (getSp s k n v).pendG c.reg = .cmd c.id) :
    (getSp (takeSlot s c) k n v).g[c.reg] = ⟨BitVec.ofNat 64 (getCtx s c.core c.vf).nextXid, true, .no⟩ := by
  have hkept : SpKept s (slotHeld s c) := SpKept.trans (spKept_setCtx (slotCtx_spokes ..)) (spKept_of_fields rfl rfl rfl rfl rfl)
  rw [takeSlot_eq, ho]
  unfold fillPend modOwner
  dsimp only
  rw [getSp_modSp, hkept.getSp, if_pos ⟨hr, hp⟩]
  exact (g_wrG ..).trans (if_pos ⟨rfl, hr⟩)

/-! The end of a transfer (R228 to R231, R236). -/

/-- The context of a channel that a transfer has left (R232, R235). -/
def leftCtx (x : CoreCtx) (c : Cmd) (bad : Bool) : CoreCtx :=
  let y := { x with xids := x.xids.filter (· != c.xid) }
  if (c.cp 6).toNat / 64 % 2 = 0 then relTag y ((c.cp 6).toNat % 64) bad else y

theorem leftCtx_spec (x : CoreCtx) (c : Cmd) (bad : Bool) :
    (leftCtx x c bad).xids = x.xids.filter (· != c.xid) ∧ (leftCtx x c bad).nextXid = x.nextXid
      ∧ ∀ j < 64, mget 0 (leftCtx x c bad).tagCnt j = mget 0 x.tagCnt j - (hasTag c j).toNat
        ∧ (leftCtx x c bad).tags.getLsbD j = (x.tags.getLsbD j || (hasTag c j && decide (mget 0 x.tagCnt j ≤ 1)))
        ∧ (leftCtx x c bad).tagerr.getLsbD j = (x.tagerr.getLsbD j || (hasTag c j && bad)) := by
  simp only [hasTag_iff]
  unfold leftCtx
  dsimp only
  split
  next h =>
    refine ⟨rfl, rfl, fun j hj => ?_⟩
    rw [decide_eq_true h, Bool.true_and]
    unfold relTag
    dsimp only
    by_cases e : (c.cp 6).toNat % 64 = j
    · have e' : (j == j) = true := beq_self_eq_true j
      rw [e, mget_mset_same, e']
      refine ⟨rfl, ?_, ?_⟩
      · by_cases hn : mget 0 x.tagCnt j - 1 = 0
        · rw [if_pos hn, BitVec.getLsbD_or, getLsbD_bitW hj, e', decide_eq_true (show mget 0 x.tagCnt j ≤ 1 by omega)]
          rfl
        · rw [if_neg hn, decide_eq_false (show ¬ mget 0 x.tagCnt j ≤ 1 by omega)]
          simp
      · cases bad with
        | true => exact (BitVec.getLsbD_or ..).trans (by rw [getLsbD_bitW hj, e']; rfl)
        | false => simp
    · have e' : (j == (c.cp 6).toNat % 64) = false := beq_eq_false_iff_ne.2 fun h => e h.symm
      rw [mget_mset_ne _ _ _ e, e']
      refine ⟨rfl, ?_, ?_⟩
      · split
        · rw [BitVec.getLsbD_or, getLsbD_bitW hj, e']
          rfl
        · simp
      · cases bad with
        | true => exact (BitVec.getLsbD_or ..).trans (by rw [getLsbD_bitW hj, e']; rfl)
        | false => simp
  next h =>
    refine ⟨rfl, rfl, fun j hj => ?_⟩
    rw [decide_eq_false h]
    simp

/-- The state in which a transfer has left, before its channel and its barrier know. -/
def copyGone (s : State) (c : Cmd) : State :=
  let s1 := drainOut s c
  let y := settlePanes s1 c
  modOwner (delCmd (if y.2.pub.isNone && y.2.grp.isNone then publish y.1 y.2.ovl else y.1) c.id) c.owner fun p => dropSnap p c.snap

theorem chanFrame_delCmd (s : State) (id : Nat) : ChanFrame s (delCmd s id) := .of_fields rfl rfl rfl rfl rfl rfl

theorem chanFrame_copyGone (s : State) (c : Cmd) : ChanFrame s (copyGone s c) := by
  have h1 : Quiet s (settlePanes (drainOut s c) c).1 := (quiet_drainOut s c).trans (quiet_settlePanes _ c)
  unfold copyGone
  dsimp only
  refine ChanFrame.trans ?_ (chanFrame_modOwner (f := fun p => dropSnap p c.snap) (fun _ => rfl) _ _)
  refine ChanFrame.trans ?_ (chanFrame_delCmd _ c.id)
  split
  · exact .of_quiet (h1.trans (quiet_publish ..))
  · exact .of_quiet h1

theorem modOwner_cmds (s : State) (o : Owner) (f : Spoke → Spoke) : (modOwner s o f).cmds = s.cmds := by
  rcases modOwner_cases s o f with ⟨c, n, v, e⟩ | h
  · rw [e, modSp_cmds]
  · exact h.cmds

theorem getCmd_copyGone (s : State) (c : Cmd) : ∀ x ∈ (copyGone s c).cmds, x.id ≠ c.id := by
  intro x hx
  unfold copyGone at hx
  rw [modOwner_cmds] at hx
  simpa using (List.mem_filter.1 hx).2

theorem chanDone_eq (s : State) (c : Cmd) (bad : Bool) :
    chanDone s c bad = serveTags (modCtx s c.core c.vf fun x => leftCtx x c bad) c.core c.vf := rfl

theorem quiet_chanRecord (s : State) (c : Cmd) (code : Nat) (va : Word) (acc : Nat) : Quiet s (chanRecord s c code va acc) := by
  unfold chanRecord postTerm postDrop
  refine Quiet.modFn fun f => ?_
  dsimp only
  split <;> exact ⟨rfl, rfl⟩

/-- What completion adds behind the channel: a record, and an arrival. -/
theorem finishCopy_rest (s : State) (c : Cmd) (bad : Option FaultCode) (n : Nat) (l : Option Loc) :
    let u := chanDone (copyGone s c) c (bad.isSome || c.cancel)
    let t := finishCopy s c bad n l
    getCtx t c.core c.vf = getCtx u c.core c.vf ∧ t.cmds = u.cmds
      ∧ t.barArrs = u.barArrs ++ (match l with | some a => [⟨a, min n 0xFFFFFFFF, c.vf, c.ltag⟩] | none => []) := by
  intro u t
  have hrec (b : Bool) (code : Nat) (va : Word) (acc : Nat) : Quiet u (if b then chanRecord u c code va acc else u) := by
    split
    · exact quiet_chanRecord ..
    · exact .refl u
  have h := hrec ((bad.isSome || c.cancel) && bitN (c.cp 6) 6) (match bad with | some f => f.num | none => 0) (if bad.isSome then c.errVa else 0)
    (if bad.isSome then c.errAcc else 5)
  have hctx := getCtx_of_fields h.cores h.saved h.halves h.ctrl c.core c.vf
  cases l with
  | none => exact ⟨hctx, h.cmds, h.barArrs.trans (List.append_nil _).symm⟩
  | some a => exact ⟨hctx, h.cmds, congrArg (· ++ _) h.barArrs⟩

/-- The channel and the tags behind a transfer that has left (R232, R233, R235). -/
theorem chanDone_spec (s : State) (c : Cmd) (bad : Bool) :
    TagFrame (leftCtx (getCtx s c.core c.vf) c bad) (getCtx (chanDone s c bad) c.core c.vf)
      ∧ (chanDone s c bad).cmds = s.cmds ∧ (chanDone s c bad).barArrs = s.barArrs
      ∧ ((∀ n < 16, ¬ Park.onTags (getSp s c.core n c.vf).park) → getCtx (chanDone s c bad) c.core c.vf = leftCtx (getCtx s c.core c.vf) c bad) := by
  let s1 := modCtx s c.core c.vf fun x => leftCtx x c bad
  have hctx : getCtx s1 c.core c.vf = leftCtx (getCtx s c.core c.vf) c bad := getCtx_setCtx ..
  have hspokes (x : CoreCtx) : (leftCtx x c bad).spokes = x.spokes := by
    unfold leftCtx
    dsimp only
    split <;> rfl
  obtain ⟨h1, h2, h3⟩ := serveTags_rest s1 c.core c.vf
  rw [hctx] at h1
  refine ⟨h1, h2.trans (modCtx_cmds ..), h3.trans (modCtx_barArrs ..), fun h => ?_⟩
  have hkept : SpKept s s1 := spKept_modCtx hspokes s c.core c.vf
  rw [chanDone_eq, serveTags_unparked fun n hn => by rw [hkept.getSp]; exact h n hn]
  exact hctx

/-- What a completion leaves: the command and its identifier gone, its arrival on the way, its tag released. -/
theorem finishCopy_spec (s : State) (c : Cmd) (bad : Option FaultCode) (n : Nat) (l : Option Loc) :
    let t := finishCopy s c bad n l
    let isBad := bad.isSome || c.cancel
    TagFrame (leftCtx (getCtx s c.core c.vf) c isBad) (getCtx t c.core c.vf) ∧ getCmd t c.id = none
      ∧ t.barArrs = s.barArrs ++ (match l with | some a => [⟨a, min n 0xFFFFFFFF, c.vf, c.ltag⟩] | none => [])
      ∧ ((∀ i < 16, ¬ Park.onTags (getSp s c.core i c.vf).park) →
        ∃ sps, getCtx t c.core c.vf = { leftCtx (getCtx s c.core c.vf) c isBad with spokes := sps }) := by
  intro t isBad
  have hgone := chanFrame_copyGone s c
  obtain ⟨sps, hctx⟩ := hgone.ctx c.core c.vf
  have hleft : leftCtx (getCtx (copyGone s c) c.core c.vf) c isBad = { leftCtx (getCtx s c.core c.vf) c isBad with spokes := sps } := by
    rw [hctx]
    unfold leftCtx
    dsimp only
    split <;> rfl
  obtain ⟨h1, h2, h3, h4⟩ := chanDone_spec (copyGone s c) c isBad
  obtain ⟨k1, k2, k3⟩ := finishCopy_rest s c bad n l
  rw [hleft] at h1 h4
  refine ⟨?_, ?_, ?_, fun h => ⟨sps, ?_⟩⟩
  · obtain ⟨a, b, d, e⟩ := h1
    exact ⟨a, b, d, k1.trans e⟩
  · refine List.find?_eq_none.2 fun x hx => ?_
    rw [k2, h2] at hx
    simpa using getCmd_copyGone s c x hx
  · rw [k3, h3, hgone.barArrs]
  · rw [k1]
    exact h4 fun i hi => by rw [hgone.sp.sp]; exact h i hi

/-! The bytes of a copy (R225). -/

/-- A row's address, as the copy forms it and modulo 2^64 (R346). -/
theorem row_address (base stride : Word) (c : Cmd) (i : Nat) (on : Bool) :
    base + BitVec.ofInt 64 ((if on then c.cidx i else (i : Int)) * stride.toInt)
      = base + (if on then (c.idx.getD i 0).signExtend 64 else BitVec.ofNat 64 i) * stride := by
  congr 1
  rw [BitVec.ofInt_mul, BitVec.ofInt_toInt]
  congr 1
  cases on with
  | true => rfl
  | false => exact BitVec.ofInt_natCast ..

theorem copyRow_source (c : Cmd) (i : Nat) : (copyRow c i).1
    = (c.cp 0 + (if c.op == .cpgath then (c.idx.getD i 0).signExtend 64 else BitVec.ofNat 64 i) * c.cp 4).toNat := by
  rw [← row_address]
  simp only [copyRow, Cmd.cstr, beq_iff_eq]

theorem copyRow_dest (c : Cmd) (i : Nat) : (copyRow c i).2
    = (c.cp 1 + (if c.op == .cpscat then (c.idx.getD i 0).signExtend 64 else BitVec.ofNat 64 i) * c.cp 5).toNat := by
  rw [← row_address]
  simp only [copyRow, Cmd.cstr, beq_iff_eq]

/-- An entry of a finite map after an insertion of a key that it lacks. -/
theorem find?_mins {α : Type} (m : List (Nat × α)) (k j : Nat) (b : α) (h : ∀ p ∈ m, p.1 ≠ k) :
    ((mins m k b).find? (·.1 == j)).map (·.2) = if k = j then some b else (m.find? (·.1 == j)).map (·.2) := by
  induction m with
  | nil => by_cases hj : k = j <;> simp [mins, hj]
  | cons p r ih =>
    have hp : p.1 ≠ k := h p (by simp)
    have ih := ih fun q hq => h q (by simp [hq])
    by_cases hk : k < p.1
    · rw [mins, if_pos hk]
      by_cases hj : k = j <;> simp [hj]
    · rw [mins, if_neg hk]
      by_cases hj : p.1 = j
      · have hne : k ≠ j := fun e => hp (hj.trans e.symm)
        simp [hj, hne]
      · have hb : (p.1 == j) = false := beq_eq_false_iff_ne.2 hj
        simp only [List.find?_cons, hb]
        exact ih

/-- An entry of a finite map after a write: the written one at its key, the old one elsewhere. -/
theorem find?_mset {α : Type} (m : List (Nat × α)) (k j : Nat) (b : α) :
    ((mset m k b).find? (·.1 == j)).map (·.2) = if k = j then some b else (m.find? (·.1 == j)).map (·.2) := by
  rw [mset, find?_mins _ _ _ _ (mdel_ne m k)]
  by_cases hj : k = j
  · rw [if_pos hj, if_pos hj]
  · rw [if_neg hj, if_neg hj, mdel, List.find?_filter]
    congr 2
    funext p
    by_cases hp : p.1 = j
    · have hne : j ≠ k := fun e => hj e.symm
      simp [hp, hne]
    · simp [hp]

/-- A byte written at one place: to a pane, or to those that are not visible yet (R114, R128). -/
theorem puts_one (s : State) (c : Cmd) (l : Loc) (b : Byte) : Puts s c (engPut (s, c) [l] [b]).2 [l] [b] := by
  unfold engPut engPut
  dsimp only
  by_cases h : l.sp = .tb
  · rw [if_pos h]
    refine ⟨by simp [h], fun p hp _ => ?_, fun a ha => ?_⟩
    · obtain rfl : p = (l, b) := by simpa using hp
      simp only [tbByte, paneByte, find?_mset, if_true]
      rfl
    · have hne : l.a ≠ a := ha l (List.mem_singleton_self l) h
      simp only [tbByte, paneByte, find?_mset, if_neg hne]
      rfl
  · rw [if_neg h]
    refine ⟨by simp [h], fun p hp hs => ?_, fun a _ => rfl⟩
    obtain rfl : p = (l, b) := by simpa using hp
    exact absurd hs h

theorem engLocs_one {s : State} {c : Cmd} {o : Opnd} {x : Int} {ls : List Loc} (h : engLocs s c o x 1 = .ok ls) : ∃ l, ls = [l] := by
  unfold engLocs at h
  split at h
  · cases h
  next l _ =>
    cases h
    exact ⟨l, rfl⟩

theorem copyUnit_byte {s : State} {c : Cmd} {i b : Nat} {x : Byte} {ls : List Loc} (hb : b < c.clen)
    (hr : engRead s c (c.opnd s 0) ((copyRow c i).1 + b : Nat) 1 = .ok [x]) (hw : engLocs s c (c.opnd s 1) ((copyRow c i).2 + b : Nat) 1 = .ok ls) :
    ∃ d, copyUnit s c (i * c.clen + b) = .ok (s, d) ∧ d.done = c.done ∧ Puts s c d ls [x] := by
  have hpos : 0 < c.clen := Nat.zero_lt_of_lt hb
  have hat : copyAt c (i * c.clen + b) = ((copyRow c i).1 + b, (copyRow c i).2 + b) := by
    unfold copyAt
    rw [Nat.mul_comm, Nat.mul_add_div hpos, Nat.div_eq_of_lt hb, Nat.mul_add_mod, Nat.mod_eq_of_lt hb]
    rfl
  obtain ⟨l, rfl⟩ := engLocs_one hw
  have hput : ∃ d, engPut (s, c) [l] [x] = (s, d) ∧ d.done = c.done := by
    unfold engPut engPut
    dsimp only
    split <;> exact ⟨_, rfl, rfl⟩
  obtain ⟨d, hd, hdone⟩ := hput
  have hputs := puts_one s c l x
  rw [hd] at hputs
  refine ⟨d, ?_, hdone, hputs⟩
  unfold copyUnit engWrite
  rw [hat, hr]
  dsimp only
  rw [show [x].length = 1 from rfl, hw]
  exact congrArg Except.ok hd

/-! Completion and its fault. -/

theorem mayStart_running {s : State} {c : Cmd} (h : c.st = .running) : mayStart s c = false := by
  simp [mayStart, h]

/-- A transfer that runs to its end completes (R228, R230). -/
theorem exec_transferCompletion {s : State} {id : Nat} {c : Cmd} {x : State × Cmd} {l : Option Loc} (hc : getCmd s id = some c) (hop : c.op.isCopy = true)
    (hcancel : c.cancel = false) (hst : c.st = .running) (hend : c.atEnd = false) (hrun : runAll s c = (x, none)) (hbar : barAt x.1 x.2 = .ok l)
    (hcut : outCut x.1 x.2 = none) (hfail : x.2.fail = none) : exec (.transferCompletion id .ok) s = .next (finishCopy x.1 x.2 none x.2.bytes l) := by
  have hfilter : (getCmd s id).filter (·.op.isCopy) = some c := by rw [hc]; simp [Option.filter, hop]
  have hclose : copyClose x.1 (cutFail x.1 x.2) l = finishCopy x.1 x.2 none x.2.bytes l := by
    unfold cutFail
    rw [hcut]
    dsimp only
    unfold copyClose
    rw [hfail]
  have hcomplete : copyComplete s c .ok = copyClose x.1 (cutFail x.1 x.2) l := by
    unfold copyComplete
    rw [hend, hcancel, if_neg Bool.false_ne_true, if_neg Bool.false_ne_true, if_neg (not_not.2 hst)]
    dsimp only [engPart]
    rw [if_pos rfl, hrun]
    dsimp only
    rw [hbar]
  show execTransferCompletion id .ok s = _
  unfold execTransferCompletion
  rw [hfilter]
  dsimp only
  rw [if_neg (by rw [hcancel]; exact fun h => Bool.false_ne_true h.1), mayStart_running hst, if_neg Bool.false_ne_true, hc]
  dsimp only
  rw [hcomplete, hclose]

/-- One whose barrier is not present parks (R97, R236). -/
theorem exec_engineTranslationFault {s : State} {id : Nat} {c : Cmd} {x : State × Cmd} {e : FErr} (hc : getCmd s id = some c) (hop : c.op.isCopy = true)
    (hcancel : c.cancel = false) (hst : c.st = .running) (hend : c.atEnd = false) (hrun : runAll s c = (x, none)) (hbar : barAt x.1 x.2 = .error e)
    (hcode : e.code = .notPresent) (hgrp : c.grp = none) : exec (.engineTranslationFault id) s = .next (engPark x.1 x.2 e) := by
  have hcoll : c.op ≠ .coll := by
    intro h
    rw [h] at hop
    cases hop
  have hnext : engNext s c = (x, some e) := by
    unfold engNext
    rw [hrun]
    dsimp only
    rw [if_pos hop, hbar]
  have hlatch : ¬ (e = badLatch ∨ c.cancel = true) := by
    rintro (h | h)
    · rw [h] at hcode
      cases hcode
    · rw [hcancel] at h
      cases h
  show execEngineTranslationFault id s = _
  unfold execEngineTranslationFault
  rw [hc]
  dsimp only
  rw [if_neg fun h => hcoll h.1, if_neg fun h => hcoll h.1, if_pos hst]
  unfold engFault
  rw [hend, if_neg Bool.false_ne_true, hnext]
  dsimp only
  rw [if_neg hlatch, if_pos hcode, hgrp]

/-- Settles O54: a slot by the context that it makes, a completion by the context that it leaves, a byte by the row that it is in. -/
theorem copyEvents : Obligations.CopyEvents := by
  unfold Obligations.CopyEvents
  refine ⟨fun s core c r hw hroom => ?_, fun s id c x hc hop hcancel hst hend hrun => ?_, fun s c bad n l => ?_, fun s idx a ha => ?_,
    fun s c i b x ls hop hb => ?_⟩
  · have hcore : c.core = core := by
      have : c ∈ slotWaiters s core := by rw [hw]; exact List.mem_cons_self
      have := (List.mem_filter.1 this).2
      simp only [Bool.and_eq_true, beq_iff_eq] at this
      exact this.1
    intro vf
    subst hcore
    obtain ⟨sps, e⟩ := getCtx_takeSlot s c
    obtain ⟨h1, h2, h3, h4, h5⟩ := slotCtx_spec (getCtx s c.core c.vf) c
    refine ⟨?_, by rw [e]; exact h1, by rw [e]; exact h2, ?_, fun k n v ho hr hp => takeSlot_fills ho hr hp⟩
    · show execCopySlotGrant c.core vf s = _
      unfold execCopySlotGrant
      rw [hw]
      exact if_pos ⟨rfl, hroom⟩
    · intro x y arms
      have hy : y = { slotCtx (getCtx s c.core c.vf) c with spokes := sps } := e
      rw [hy]
      exact ⟨h3, h4, h5⟩
  · exact ⟨fun l hbar hcut hfail => exec_transferCompletion hc hop hcancel hst hend hrun hbar hcut hfail,
      fun e hbar hcode hgrp => exec_engineTranslationFault hc hop hcancel hst hend hrun hbar hcode hgrp⟩
  · intro t
    obtain ⟨⟨sps, tags, tagerr, hctx⟩, hcmd, hbar, hfree⟩ := finishCopy_spec s c bad n l
    obtain ⟨hx, hn, hj⟩ := leftCtx_spec (getCtx s c.core c.vf) c (bad.isSome || c.cancel)
    have hxids : (getCtx t c.core c.vf).xids = (getCtx s c.core c.vf).xids.filter (· != c.xid) := by rw [hctx]; exact hx
    have hnext : (getCtx t c.core c.vf).nextXid = (getCtx s c.core c.vf).nextXid := by rw [hctx]; exact hn
    obtain ⟨w1, w2, w3⟩ := watermark_spec (getCtx t c.core c.vf)
    refine ⟨by rw [hxids]; simp, hcmd, hbar, ?_⟩
    intro x y frees
    refine ⟨hxids, hnext, watermark_mono hnext fun i hi => ?_, w2, w1, w3, fun j hlt => ?_, fun hp j hlt => ?_⟩
    · rw [hxids] at hi
      exact List.mem_of_mem_filter hi
    · show mget 0 (getCtx t c.core c.vf).tagCnt j = _
      rw [hctx]
      exact (hj j hlt).1
    · have hoff : ∀ i < 16, ¬ Park.onTags (getSp s c.core i c.vf).park := fun i hi hon => by
        have hpark := hp i hi
        revert hpark hon
        cases (getSp s c.core i c.vf).park <;> exact fun hon hpark => nomatch hon, hpark
      obtain ⟨sps', e⟩ := hfree hoff
      show (getCtx t c.core c.vf).tags.getLsbD j = _ ∧ (getCtx t c.core c.vf).tagerr.getLsbD j = _
      rw [e]
      exact (hj j hlt).2
  · show execCopyBarrierArrival idx s = _
    unfold execCopyBarrierArrival
    rw [ha]
    rfl
  · intro row from' dest hr hp
    have hne : c.op ≠ .lyt := by
      intro h
      rw [h] at hop
      cases hop
    have hunit : unitOf s c (i * c.clen + b) = copyUnit s c (i * c.clen + b) := if_neg hne
    rw [hunit]
    have h1 : (copyRow c i).1 = row (c.op == .cpgath) (c.cp 0) (c.cp 4) := copyRow_source c i
    have h2 : (copyRow c i).2 = row (c.op == .cpscat) (c.cp 1) (c.cp 5) := copyRow_dest c i
    refine copyUnit_byte hb ?_ ?_
    · rw [h1]
      exact hr
    · rw [h2]
      exact hp.1

end Sys2Proof
end

section
/-! Slices of half tiles (R255, R273, R278 to R280): what stays as it is while one changes. -/

namespace Sys2Proof

open Machine

/-- A change that leaves the half tiles, the latches, the reference timer and the control blocks as they were. -/
structure SliceFrame (s t : State) : Prop where
  halves : t.halves = s.halves
  latches : t.latches = s.latches
  refTimer : t.refTimer = s.refTimer
  ctls : SameCtls s t

namespace SliceFrame

variable {s t u : State}

theorem refl (s : State) : SliceFrame s s := ⟨rfl, rfl, rfl, .refl s⟩

theorem trans (h : SliceFrame s t) (k : SliceFrame t u) : SliceFrame s u :=
  ⟨k.halves.trans h.halves, k.latches.trans h.latches, k.refTimer.trans h.refTimer, h.ctls.trans k.ctls⟩

theorem foldl {β : Type} {f : State → β → State} (l : List β) (hf : ∀ s x, SliceFrame s (f s x)) (s : State) : SliceFrame s (l.foldl f s) := by
  induction l generalizing s with
  | nil => exact refl s
  | cons x l ih => exact (hf s x).trans (ih _)

theorem ite {P : Prop} [Decidable P] (h : SliceFrame s t) (k : SliceFrame s u) : SliceFrame s (if P then t else u) := by
  split
  exacts [h, k]

theorem of_quiet (h : Quiet s t) : SliceFrame s t := ⟨h.halves, h.latches, h.refTimer, h.ctls⟩

/-- A change of nothing but lists that a slice has no part in. -/
theorem of_fields (h1 : t.halves = s.halves) (h2 : t.latches = s.latches) (h3 : t.refTimer = s.refTimer) (h4 : t.fns = s.fns) : SliceFrame s t :=
  ⟨h1, h2, h3, .of_fns h4⟩

theorem setCtx (s : State) (c v : Nat) (x : CoreCtx) : SliceFrame s (setCtx s c v x) := .of_fields (by simp) (by simp) (by simp) (by simp)

theorem setSp (s : State) (c n v : Nat) (p : Spoke) : SliceFrame s (setSp s c n v p) := .of_fields (by simp) (by simp) (by simp) (by simp)

theorem modCtx (s : State) (c v : Nat) (f : CoreCtx → CoreCtx) : SliceFrame s (modCtx s c v f) := .setCtx ..

theorem modSp (s : State) (c n v : Nat) (f : Spoke → Spoke) : SliceFrame s (modSp s c n v f) := .setSp ..

theorem modOwner (s : State) (o : Owner) (f : Spoke → Spoke) : SliceFrame s (modOwner s o f) := by
  rcases modOwner_cases s o f with ⟨c, n, v, e⟩ | h
  · rw [e]
    exact .modSp ..
  · exact .of_quiet h

end SliceFrame

/-! What a VF has under way reaches its banks. -/

theorem sliceFrame_perform (s : State) (o : Owner) (r : Req) : SliceFrame s (perform s o r) := by
  have h0 : SliceFrame s (modOwner s o fun p => dropReq p r.id) := .modOwner ..
  have hput (l : List LaneAcc) : SliceFrame s (l.foldl (fun s x => putElem s r.n x) (modOwner s o fun p => dropReq p r.id)) :=
    h0.trans (.foldl l (fun s x => .of_quiet (quiet_putElem s r.n x)) _)
  unfold perform fillReq
  dsimp only
  split
  · split
    · exact h0
    · exact (h0.trans (.of_quiet (quiet_getElem1 ..))).trans (.modOwner ..)
  · exact hput _
  · split
    · exact h0
    · refine SliceFrame.trans ?_ (.modOwner ..)
      split
      · exact h0.trans (.of_quiet (.wrN ..))
      · exact h0
  · exact (h0.trans (.of_quiet (quiet_getLanes ..))).trans (.modOwner ..)
  · exact hput _

theorem sliceFrame_performAll (s : State) (o : Owner) (rs : List Req) : SliceFrame s (performAll s o rs) :=
  .foldl rs (fun s r => by
    split
    · exact .refl s
    · exact sliceFrame_perform s o r) s

theorem sliceFrame_flushOrphans (s : State) (p : Orphan → Bool) : SliceFrame s (flushOrphans s p) := by
  have h0 : SliceFrame s { s with orphans := s.orphans.filter fun x => !p x } := .of_fields rfl rfl rfl rfl
  exact h0.trans (.foldl (f := fun s (x : Orphan) => perform s .gone x.req) _ (fun s x => sliceFrame_perform s .gone x.req) _)

theorem sliceFrame_releaseAt (s : State) (l : Loc) (x : Word) (p : BankWait → Bool) : SliceFrame s (releaseAt s l x p) := by
  unfold releaseAt
  dsimp only
  refine SliceFrame.trans ?_ (.foldl _ (fun s w => ?_) _)
  · exact .of_fields rfl rfl rfl rfl
  · exact .modOwner ..

theorem sliceFrame_barArrive (s : State) (l : Loc) (bytes : Nat) : SliceFrame s (barArrive s l bytes) := by
  have hwr (x y : Nat) : SliceFrame s (wrN (wrN s (l.plus 8) 4 x) (l.plus 12) 4 y) := .of_quiet (Quiet.trans (.wrN ..) (.wrN ..))
  unfold barArrive
  dsimp only
  split
  · exact (hwr _ _).trans (sliceFrame_releaseAt ..)
  · exact hwr _ _

theorem sliceFrame_setCmd (s : State) (c : Cmd) : SliceFrame s (setCmd s c) := .of_fields rfl rfl rfl rfl

theorem sliceFrame_drainCmds (s : State) (v : Nat) (hit : Loc → Bool) : SliceFrame s (drainCmds s v hit) := by
  unfold drainCmds
  dsimp only
  refine SliceFrame.trans ?_ (.foldl _ (fun s a => ?_) _)
  · refine SliceFrame.trans (.foldl _ (fun s c => ?_) s) (.of_fields rfl rfl rfl rfl)
    exact SliceFrame.trans (.of_quiet (quiet_drainOut ..)) (sliceFrame_setCmd ..)
  · exact sliceFrame_barArrive ..

theorem sliceFrame_drainVf (s : State) (v : Nat) : SliceFrame s (drainVf s v) := by
  unfold drainVf drainPart
  dsimp only
  exact (SliceFrame.foldl _ (fun s o => sliceFrame_performAll ..) s).trans ((sliceFrame_flushOrphans ..).trans (sliceFrame_drainCmds ..))

theorem sliceFrame_heldOut (s : State) (c : Nat) : SliceFrame s (heldOut s c) := by
  refine .foldl _ (fun s n => ?_) s
  unfold sendHeld
  dsimp only
  split
  · exact .refl s
  · refine SliceFrame.trans (.setSp ..) (.foldl (f := sendMsg) _ (fun s m => ?_) _)
    exact .of_fields rfl rfl rfl rfl

/-! Collectives whose lease ends (R237, R282). -/

theorem sliceFrame_leaveCmd (s : State) (c id : Nat) : SliceFrame s (leaveCmd s c id) := by
  refine .foldl _ (fun s i => ?_) s
  split
  · exact .refl s
  · dsimp only
    split
    · exact .refl s
    · split
      · unfold freeSlot
        dsimp only
        split
        · exact .of_fields rfl rfl rfl rfl
        · exact SliceFrame.trans (t := setSlot s c i _) (.of_fields rfl rfl rfl rfl) (.of_quiet (.modFn fun _ => ⟨rfl, rfl⟩))
      · exact .of_fields rfl rfl rfl rfl

theorem sliceFrame_giveKeep (s : State) (o : Owner) (g : Nat) (ks : List Snap) : SliceFrame s (giveKeep s o g ks) := by
  unfold giveKeep
  split
  · exact .refl s
  · split
    · exact sliceFrame_setCmd ..
    · exact .modOwner ..

theorem sliceFrame_report (s : State) (c : Cmd) (w : Word) (bad : Option FaultCode) : SliceFrame s (report s c w bad) := by
  unfold report
  split
  · exact .modOwner ..
  · exact .modOwner ..

theorem sliceFrame_finish (s : State) (c : Cmd) (w : Word) (bad : Option FaultCode) : SliceFrame s (finish s c w bad) := by
  have hpanes : Quiet s (settlePanes (drainOut s c) c).1 := (quiet_drainOut s c).trans (quiet_settlePanes _ c)
  unfold finish
  dsimp only
  refine SliceFrame.trans ?_ (sliceFrame_report ..)
  refine SliceFrame.trans ?_ (sliceFrame_giveKeep ..)
  refine SliceFrame.trans ?_ (.modOwner ..)
  refine SliceFrame.trans ?_ (t := ite _ _ _) (.of_fields rfl rfl rfl rfl)
  split
  · exact .of_quiet (hpanes.trans (quiet_publish ..))
  · exact .of_quiet hpanes

theorem sliceFrame_endLease (s : State) (e : Nat) : SliceFrame s (endLease s e) := by
  unfold endLease
  split
  · exact .refl s
  · exact (SliceFrame.foldl _ (fun s c => (sliceFrame_leaveCmd ..).trans (sliceFrame_finish ..)) s).trans (.of_fields rfl rfl rfl rfl)

theorem sliceFrame_loseLeases (s : State) (v : Nat) : SliceFrame s (loseLeases s v) := by
  unfold loseLeases
  split
  · exact .refl s
  · refine .foldl _ (fun s e => ?_) s
    split
    · split
      · exact sliceFrame_endLease ..
      · exact .refl s
    · exact .refl s

/-! Spokes stop and run again (R45, R50, R273). -/

theorem sliceFrame_requestStop (s : State) (c n v : Nat) : SliceFrame s (requestStop s c n v) := by
  have hstop (s : State) : SliceFrame s (tryStop s c n v) := by
    unfold tryStop
    exact .ite (.setSp ..) (.refl s)
  unfold requestStop
  exact SliceFrame.trans (t := ite _ _ _) (.ite (.refl s) (.modCtx ..)) (.ite ((SliceFrame.modSp ..).trans (hstop _)) (.refl _))

theorem sliceFrame_stopHalf (s : State) (h v : Nat) : SliceFrame s (stopHalf s h v) := by
  refine .foldl _ (fun s c => .foldl _ (fun s n => ?_) s) s
  unfold sliceStop
  dsimp only
  split
  · exact (sliceFrame_requestStop ..).trans (.modCtx ..)
  · exact .refl s

theorem sliceFrame_serveTag (s : State) (c v n : Nat) : SliceFrame s (serveTag s c v n) := by
  unfold serveTag
  dsimp only
  split
  · exact .refl s
  · split
    · split
      · exact .refl s
      · exact (SliceFrame.setCtx ..).trans (.modSp ..)
    · split
      · exact (SliceFrame.setCtx ..).trans (.modSp ..)
      · exact .refl s
    · exact .refl s

theorem sliceFrame_resumeCore (v : Nat) (s : State) (c : Nat) : SliceFrame s (resumeCore v s c) := by
  unfold resumeCore
  exact (SliceFrame.modCtx ..).trans (.foldl _ (fun s n => (SliceFrame.modSp ..).trans (sliceFrame_serveTag ..)) _)

/-! Contexts are needed again, images are forgotten (R48, R280). -/

theorem sliceFrame_needCtxs (v : Nat) (s : State) (c : Nat) : SliceFrame s (needCtxs v s c) := by
  refine .foldl _ (fun s n => ?_) s
  split
  · exact .refl s
  · obtain ⟨im, id, m, e⟩ := makeRoom_rest s c n v
    rw [e]
    exact .of_fields rfl rfl rfl rfl

theorem sliceFrame_forgetHalves (s : State) (v : Nat) (gone : Nat → Bool) : SliceFrame s (forgetHalves s v gone) := .of_fields rfl rfl rfl rfl

end Sys2Proof
end

section
/-! Slice changes (R255, R273, R278 to R280). -/

namespace Sys2Proof

open Machine

/-! Half tiles read after a write. -/

theorem getHalf_setHalf (s : State) (h k : Nat) (x : Half) : getHalf (setHalf s h x) k = if h = k then x else getHalf s k := mget_mset ..

theorem getHalf_of_halves {s t : State} (e : t.halves = s.halves) (h : Nat) : getHalf t h = getHalf s h := by rw [getHalf, e, getHalf]

/-- A half tile with a VF is listed. -/
theorem mem_halves_of_vf {s : State} {h : Nat} (hv : (getHalf s h).vf ≠ 0) : h ∈ s.halves.map (·.1) := by
  revert hv
  unfold getHalf
  induction s.halves with
  | nil => exact fun hv => absurd rfl hv
  | cons p r ih =>
    intro hv
    by_cases hp : p.1 = h
    · exact List.mem_cons.2 (.inl hp.symm)
    · rw [mget, if_neg hp] at hv
      exact List.mem_cons_of_mem _ (ih hv)

/-! The block of a slice start (R278, R279). -/

/-- A half tile that is being vacated: no VF follows by name (R279). -/
def vacated (x : Half) : Half := { x with next := some 0, vac := true }

theorem vacate_spec (s : State) (v k : Nat) : (∀ h, getHalf (vacate s v k) h = if k = h then vacated (getHalf s h) else getHalf s h)
    ∧ (vacate s v k).refTimer = s.refTimer ∧ SameCtls s (vacate s v k) := by
  have hstop := sliceFrame_stopHalf (setHalf s k (vacated (getHalf s k))) k v
  refine ⟨fun h => ?_, hstop.refTimer, SameCtls.trans (.of_fns rfl) hstop.ctls⟩
  show getHalf (stopHalf (setHalf s k (vacated (getHalf s k))) k v) h = _
  rw [getHalf_of_halves hstop.halves, getHalf_setHalf]
  split
  next e => rw [e]
  · rfl

theorem vacate_foldl (v : Nat) (l : List Nat) (s : State) :
    let t := l.foldl (fun s h => vacate s v h) s
    (∀ h, getHalf t h = if h ∈ l then vacated (getHalf s h) else getHalf s h) ∧ t.refTimer = s.refTimer ∧ SameCtls s t := by
  induction l generalizing s with
  | nil => exact ⟨fun h => by simp, rfl, .refl s⟩
  | cons k l ih =>
    obtain ⟨h1, h2, h3⟩ := ih (vacate s v k)
    obtain ⟨k1, k2, k3⟩ := vacate_spec s v k
    refine ⟨fun h => ?_, h2.trans k2, k3.trans h3⟩
    show getHalf (l.foldl _ (vacate s v k)) h = _
    rw [h1, k1]
    by_cases hk : k = h
    · rw [if_pos hk, if_pos (List.mem_cons.2 (.inl hk.symm))]
      split <;> rfl
    · rw [if_neg hk]
      exact if_congr (List.mem_cons.trans (or_iff_right fun e => hk e.symm)).symm rfl rfl

/-- The block takes effect, and each half tile of the VF that it gives up is vacated. -/
theorem takeBlock_spec {s : State} {v : Nat} (hv : v ≠ 0) :
    let t := takeBlock s v
    t.refTimer = s.refTimer ∧ (getFn t v).ctlAct = (getFn s v).ctlNew
      ∧ ∀ h, getHalf t h = if bitN (getFn s v).ctlNew.halves h = false ∧ (getHalf s h).vf = v then vacated (getHalf s h) else getHalf s h := by
  let s1 := modFn s v fun f => { f with ctlAct := f.ctlNew }
  let left := (s1.halves.map (·.1)).filter fun h => !inHalves s1 v h && (getHalf s1 h).vf == v
  let s2 := forgetHalves s1 v fun h => !inHalves s1 v h && !((getHalf s1 h).vf == v)
  intro t
  have hfn : getFn s1 v = { getFn s v with ctlAct := (getFn s v).ctlNew } := getFn_modFn_same s v _
  have hin (h : Nat) : inHalves s1 v h = bitN (getFn s v).ctlNew.halves h := by rw [inHalves, hfn]
  obtain ⟨h1, h3, h4⟩ := vacate_foldl v left s2
  have hlose := sliceFrame_loseLeases (left.foldl (fun s h => vacate s v h) s2) v
  have hforget := sliceFrame_forgetHalves s1 v fun h => !inHalves s1 v h && !((getHalf s1 h).vf == v)
  refine ⟨hlose.refTimer.trans h3, ?_, fun h => ?_⟩
  · show (getFn (loseLeases _ v) v).ctlAct = _
    rw [(hlose.ctls v).2, (h4 v).2, (hforget.ctls v).2, hfn]
  · show getHalf (loseLeases _ v) h = _
    rw [getHalf_of_halves hlose.halves, h1]
    refine if_congr ⟨fun hm => ?_, fun hm => ?_⟩ rfl rfl
    · have hb := (List.mem_filter.1 hm).2
      rw [hin] at hb
      obtain ⟨hbit, hvf⟩ := Bool.and_eq_true_iff.1 hb
      exact ⟨by simpa using hbit, beq_iff_eq.1 hvf⟩
    · refine List.mem_filter.2 ⟨mem_halves_of_vf (s := s) (by rw [hm.2]; exact hv), ?_⟩
      rw [hin, hm.1]
      exact beq_iff_eq.2 hm.2

/-! The half tile passes (R273). -/

theorem emptyBlock_rest (s : State) (v : Nat) : (emptyBlock s v).halves = s.halves ∧ (emptyBlock s v).latches = s.latches := by
  unfold emptyBlock
  split
  · have h := sliceFrame_loseLeases (forgetHalves (modFn s v fun f => { f with ctlAct := f.ctlNew }) v fun _ => true) v
    exact ⟨h.halves, h.latches⟩
  · exact ⟨rfl, rfl⟩

/-- What a half tile that passes leaves behind: the outgoing VF's state is saved, what it had under way performed, its latches are cleared (R181, R203). -/
def cleared (s : State) (h out vin : Nat) : State :=
  let s0 := (halfCores s h).foldl heldOut s
  let s1 := if out = 0 then s0 else drainVf s0 out
  clearHalf (saveHalf (swapImage ((halfCores s1 h).foldl (swapCore out vin) s1) h out vin) out h) h

theorem passHalf_spec (s : State) (h out vin : Nat) : let t := passHalf s h out vin
    (∃ d, getHalf t h = ⟨vin, defaultTrowel, none, s.refTimer, d, false⟩) ∧ ∀ p ∈ t.latches, ¬ (p.1 / 4 = h / 2 ∧ p.1 % 4 / 2 = h % 2) := by
  let s0 := (halfCores s h).foldl heldOut s
  let s1 := if out = 0 then s0 else drainVf s0 out
  let s2 := saveHalf (swapImage ((halfCores s1 h).foldl (swapCore out vin) s1) h out vin) out h
  let s3 := setHalf (clearHalf s2 h) h ⟨vin, defaultTrowel, none, s1.refTimer, dueNow s h, false⟩
  let s4 := if out = 0 then s3 else emptyBlock (if inHalves s3 out h then s3 else forgetHalves s3 out (· == h)) out
  let s5 := (halfCores s4 h).foldl (needCtxs vin) s4
  let s6 := (halfCores s4 h).foldl (resumeCore vin) s5
  intro t
  have ht : t = s6 := rfl
  have h1 : SliceFrame s s1 :=
    (SliceFrame.foldl _ (fun s c => sliceFrame_heldOut s c) s).trans (.ite (.refl s0) (sliceFrame_drainVf s0 out))
  have h4 : s4.halves = s3.halves ∧ s4.latches = s3.latches := by
    have hforget : SliceFrame s3 (if inHalves s3 out h then s3 else forgetHalves s3 out (· == h)) := .ite (.refl s3) (sliceFrame_forgetHalves ..)
    obtain ⟨ha, hb⟩ := emptyBlock_rest (if inHalves s3 out h then s3 else forgetHalves s3 out (· == h)) out
    show (if out = 0 then s3 else _).halves = _ ∧ (if out = 0 then s3 else _).latches = _
    split
    · exact ⟨rfl, rfl⟩
    · exact ⟨ha.trans hforget.halves, hb.trans hforget.latches⟩
  have h6 : SliceFrame s4 s6 :=
    (SliceFrame.foldl _ (fun s c => sliceFrame_needCtxs vin s c) s4).trans (.foldl _ (fun s c => sliceFrame_resumeCore vin s c) s5)
  rw [ht]
  refine ⟨⟨dueNow s h, ?_⟩, fun p hp => ?_⟩
  · rw [getHalf_of_halves (h6.halves.trans h4.1), getHalf_setHalf, if_pos rfl, h1.refTimer]
  · rw [h6.latches.trans h4.2] at hp
    have hmine := (List.mem_filter.1 hp).2
    simp only [Bool.not_eq_true', Bool.and_eq_false_iff, beq_eq_false_iff_ne] at hmine
    exact not_and_or.2 hmine

end Sys2Proof
end

section
/-! Placement of members (R255, R256) and the events of slices (R273, R278 to R280). -/

namespace Sys2Proof

open Machine

/-! The core of the next member. -/

/-- The first of a rising list that passes a test is the least. -/
theorem find?_least {l : List Nat} (hl : l.Pairwise (· < ·)) {p : Nat → Bool} {c : Nat} (hc : l.find? p = some c) {d : Nat} (hd : d ∈ l)
    (hp : p d = true) : c ≤ d := by
  obtain ⟨-, as, bs, rfl, has⟩ := List.find?_eq_some_iff_append.1 hc
  rcases List.mem_append.1 hd with h | h
  · have := has d h
    rw [hp] at this
    cases this
  · rcases List.mem_cons.1 h with rfl | h
    · exact Nat.le_refl _
    · exact Nat.le_of_lt ((List.pairwise_cons.1 (List.pairwise_append.1 hl).2.1).1 d h)

theorem popCores_rising (s : State) (p : Pop) : (popCores s p).Pairwise (· < ·) := List.Pairwise.filter _ List.pairwise_lt_range

theorem dealCore_spec {s : State} {p : Pop} {c : Nat} (hc : dealCore s p = some c) : c ∈ popCores s p ∧ dealable s p c = true
    ∧ ∀ d ∈ popCores s p, dealable s p d = true →
      (p.lastCore < c ∧ (p.lastCore < d → c ≤ d)) ∨ (c ≤ p.lastCore ∧ d ≤ p.lastCore ∧ c ≤ d) := by
  have hrise := popCores_rising s p
  have hor : ((popCores s p).filter fun c => decide (c > p.lastCore)).find? (dealable s p) = some c
      ∨ (((popCores s p).filter fun c => decide (c > p.lastCore)).find? (dealable s p) = none
        ∧ ((popCores s p).filter fun c => decide (c ≤ p.lastCore)).find? (dealable s p) = some c) := by
    have h := hc
    rw [dealCore, List.find?_append] at h
    exact Option.or_eq_some_iff.1 h
  rcases hor with h | ⟨hnone, h⟩
  · obtain ⟨hin, hlast⟩ := List.mem_filter.1 (List.mem_of_find?_eq_some h)
    refine ⟨hin, List.find?_some h, fun d hd hp => .inl ⟨of_decide_eq_true hlast, fun hlt => ?_⟩⟩
    exact find?_least (hrise.filter _) h (List.mem_filter.2 ⟨hd, decide_eq_true hlt⟩) hp
  · obtain ⟨hin, hlast⟩ := List.mem_filter.1 (List.mem_of_find?_eq_some h)
    refine ⟨hin, List.find?_some h, fun d hd hp => ?_⟩
    have hle : d ≤ p.lastCore := Nat.le_of_not_lt fun hlt =>
      List.find?_eq_none.1 hnone d (List.mem_filter.2 ⟨hd, decide_eq_true hlt⟩) hp
    exact .inr ⟨of_decide_eq_true hlast, hle, find?_least (hrise.filter _) h (List.mem_filter.2 ⟨hd, decide_eq_true hle⟩) hp⟩

/-! The next member is dealt. -/

/-- The population behind the deal of its next member. -/
def dealt (p : Pop) (c : Nat) : Pop := { p with nextIdx := p.nextIdx + 1, lastCore := c }

theorem getPop_setPop (s : State) (p : Pop) : getPop (setPop s p) p.vf p.tag = some p := (find?_mset ..).trans (if_pos rfl)

theorem getPop_of_pops {s t : State} (h : t.pops = s.pops) (v tag : Nat) : getPop t v tag = getPop s v tag := by rw [getPop, h, getPop]

/-- Where a population's next member need not wait, it is dealt to the next core. -/
theorem dealOne_eq {s : State} {v tag c : Nat} {p : Pop} (hp : getPop s v tag = some p) (hk : p.killed = false) (hn : p.nextIdx < p.size)
    (hc : dealCore s p = some c) (hres : 92160 ≤ maxRes s v ∨ resident s v < maxRes s v) :
    dealOne s v tag = if heldOn s c v (fun x => x.ltag == tag) ≥ p.quota then
        some (modCtx (setPop s (dealt p c)) c v fun x => { x with hubq := x.hubq ++ [(p.nextIdx, tag)] })
      else match freeCtx s c v with
        | none => none
        | some n => some (occupy (setPop s (dealt p c)) c n v (startSpoke (setPop s (dealt p c)) v p.entry .launch (memberRec s p p.nextIdx c n))) := by
  have hgo : ¬ (p.killed || decide (p.nextIdx ≥ p.size) || (decide (maxRes s v < 92160) && decide (resident s v ≥ maxRes s v))) = true := by
    simp only [hk, Bool.false_or, Bool.or_eq_true, Bool.and_eq_true, decide_eq_true_eq]
    omega
  unfold dealOne
  rw [hp]
  dsimp only
  rw [hc]
  exact if_neg hgo

theorem exec_memberPlacement {s t : State} {v tag : Nat} (h : dealOne s v tag = some t) : exec (.memberPlacement v tag) s = .next t := by
  show execMemberPlacement v tag s = _
  rw [execMemberPlacement, h]
  rfl

/-- Beyond QUOTA the member waits in the hub queue (R256). -/
theorem memberPlacement_waits {s : State} {v tag c : Nat} {p : Pop} (hd : dealOne s v tag
    = some (modCtx (setPop s (dealt p c)) c v fun x => { x with hubq := x.hubq ++ [(p.nextIdx, tag)] })) (hv : p.vf = v) (ht : p.tag = tag) :
    ∃ t, exec (.memberPlacement v tag) s = .next t ∧ (getCtx t c v).hubq = (getCtx s c v).hubq ++ [(p.nextIdx, tag)]
      ∧ getPop t v tag = some (dealt p c) := by
  refine ⟨_, exec_memberPlacement hd, ?_, ?_⟩
  · exact congrArg CoreCtx.hubq (getCtx_setCtx ..)
  · rw [getPop_of_pops (modCtx_pops ..), ← hv, ← ht]
    exact getPop_setPop s (dealt p c)

/-- A member starts in its context with its registers set (R35, R38). -/
theorem memberPlacement_starts {s : State} {v tag c n : Nat} {p : Pop} (hd : dealOne s v tag
    = some (occupy (setPop s (dealt p c)) c n v (startSpoke (setPop s (dealt p c)) v p.entry .launch (memberRec s p p.nextIdx c n))))
    (hv : p.vf = v) (ht : p.tag = tag) :
    ∃ t, exec (.memberPlacement v tag) s = .next t ∧ getPop t v tag = some (dealt p c)
      ∧ ∃ u, getSp t c n v = startSpoke u v p.entry .launch (memberRec s p p.nextIdx c n) := by
  refine ⟨_, exec_memberPlacement hd, ?_, _, getSp_occupy ..⟩
  have hpops (x : Spoke) : (occupy (setPop s (dealt p c)) c n v x).pops = (setPop s (dealt p c)).pops := by
    obtain ⟨im, id, m, e⟩ := makeRoom_rest (setPop s (dealt p c)) c n v
    rw [occupy, setSp_pops, e]
  rw [getPop_of_pops (hpops _), ← hv, ← ht]
  exact getPop_setPop s (dealt p c)

/-! When a slice ends (R255). -/

theorem sliceOk_over {s : State} {h v : Nat} (hover : sliceOver s h = false) : sliceOk s h v = false := by simp [sliceOk, hover]

theorem sliceMust_over {s : State} {h : Nat} (hover : sliceOver s h = false) : sliceMust s h = none := by simp [sliceMust, hover]

/-- No slice ends for a VF behind whose slice the shares that are due do not fit. -/
theorem sliceOk_tight {s : State} {h v : Nat} (h0 : v ≠ 0) (hpos : 0 < (((dueNow s h).filter fun p => p.1 != v).map (·.2)).sum)
    (hlt : 1800000 - s.refTimer % 1800000 < (((dueNow s h).filter fun p => p.1 != v).map (·.2)).sum + mget 0 (dueNow s h) v) :
    sliceOk s h v = false := by
  unfold sliceOk
  dsimp only
  generalize (((dueNow s h).filter fun p => p.1 != v).map (·.2)).sum = others at hpos hlt
  have hfit : ¬ others + max (mget 0 (dueNow s h) v) (min minSlice (window - s.refTimer % window)) ≤ window - s.refTimer % window := fun hle =>
    absurd (Nat.lt_of_lt_of_le hlt ((Nat.add_le_add_left (Nat.le_max_left ..) others).trans hle)) (Nat.lt_irrefl _)
  simp [h0, hfit, Nat.pos_iff_ne_zero.1 hpos]

/-- A slice change that neither has begun nor is allowed nor has to come about does nothing. -/
theorem exec_sliceEnd_idle {s : State} {h vf : Nat} (h1 : (getHalf s h).next ≠ some vf) (h2 : sliceOk s h vf = false) (h3 : sliceMust s h ≠ some vf) :
    exec (.sliceEnd h vf) s = .next s := if_pos (.inr (.inr (.inr ⟨h1, by simp [h2], h3⟩)))

/-- Who has to come in is due, may enter, and does so behind a slice that is over. -/
theorem sliceMust_spec {s : State} {h v : Nat} (hv : sliceMust s h = some v) : sliceOver s h = true ∧ mayEnter s h (getHalf s h).vf v = true
    ∧ ∃ n, (v, n) ∈ (dueNow s h).filter fun p => p.1 != (getHalf s h).vf && decide (0 < p.2) := by
  unfold sliceMust at hv
  dsimp only at hv
  split at hv
  · cases hv
  next hc =>
    simp only [Bool.or_eq_true, not_or, Bool.not_eq_true', Bool.not_eq_false] at hc
    obtain ⟨p, hp, rfl⟩ := Option.map_eq_some_iff.1 hv
    have hmem : p ∈ ((dueNow s h).filter fun p => p.1 != (getHalf s h).vf && decide (0 < p.2)).filter fun p => mayEnter s h (getHalf s h).vf p.1 := by
      rcases Option.or_eq_some_iff.1 hp with hf | ⟨-, hf⟩
      · exact List.mem_of_find?_eq_some hf
      · exact List.mem_of_head? hf
    obtain ⟨hdue, hmay⟩ := List.mem_filter.1 hmem
    exact ⟨hc.2, hmay, p.2, hdue⟩

/-- With no more left than a shortest slice before the shares that are due, one of those that can enter has to. -/
theorem sliceMust_some {s : State} {h : Nat}
    (hmay : ∃ p ∈ (dueNow s h).filter (fun p => p.1 != (getHalf s h).vf && decide (0 < p.2)), mayEnter s h (getHalf s h).vf p.1 = true)
    (hover : sliceOver s h = true)
    (hleft : 1800000 - s.refTimer % 1800000
      ≤ (((dueNow s h).filter fun p => p.1 != (getHalf s h).vf && decide (0 < p.2)).map (·.2)).sum + 115200) : ∃ v, sliceMust s h = some v := by
  obtain ⟨p, hp, hq⟩ := hmay
  unfold sliceMust
  dsimp only
  generalize (dueNow s h).filter (fun p => p.1 != (getHalf s h).vf && decide (0 < p.2)) = due at hp hleft ⊢
  have hne : due.isEmpty = false := by
    cases due with
    | nil => cases hp
    | cons x r => rfl
  have hnot : ¬ (due.map (·.2)).sum + minSlice < window - s.refTimer % window := Nat.not_lt.2 hleft
  rw [if_neg (by simp [hne, hnot, hover])]
  have hready : p ∈ due.filter fun p => mayEnter s h (getHalf s h).vf p.1 := List.mem_filter.2 ⟨hp, hq⟩
  generalize due.filter (fun p => mayEnter s h (getHalf s h).vf p.1) = ready at hready ⊢
  cases ready with
  | nil => cases hready
  | cons x r => cases (x :: r).find? fun p => sliceOk s h p.1 <;> exact ⟨_, rfl⟩

/-! A slice ends (R273, R279). -/

/-- What lets the slice of a half tile end for a VF. -/
def sliceMay (s : State) (h vf : Nat) : Prop := (getHalf s h).next = some vf ∨ sliceOk s h vf = true ∨ sliceMust s h = some vf

/-- A slice end that is not refused. -/
theorem sliceEnd_goes {s : State} {h vf : Nat} (hh : h < 768) (hv : vf ≤ 63) (henter : vf = (getHalf s h).vf ∨ mayEnter s h (getHalf s h).vf vf = true)
    (hmay : sliceMay s h vf) : ¬ (h ≥ 768 ∨ vf > 63 ∨ (vf ≠ (getHalf s h).vf ∧ ¬ mayEnter s h (getHalf s h).vf vf)
      ∨ ((getHalf s h).next ≠ some vf ∧ ¬ sliceOk s h vf ∧ sliceMust s h ≠ some vf)) := by
  rintro (h1 | h1 | ⟨hne, hno⟩ | ⟨h1, h2, h3⟩)
  · omega
  · omega
  · exact henter.elim hne hno
  · exact hmay.elim h1 fun h => h.elim h2 h3

/-- The same VF begins a new slice at once, under its block; a half tile that the block gives up is vacated. -/
theorem sliceEnd_again {s : State} {h vf : Nat} (hh : h < 768) (hv : vf ≤ 63) (hout : vf = (getHalf s h).vf) (h0 : vf ≠ 0) (hmay : sliceMay s h vf) :
    ∃ t, exec (.sliceEnd h vf) s = .next t ∧ (getFn t vf).ctlAct = (getFn s vf).ctlNew
      ∧ if bitN (getFn s vf).ctlNew.halves h then getHalf t h = { getHalf s h with next := none, since := s.refTimer, due := dueNow s h, vac := false }
        else (getHalf t h).next = some 0 ∧ (getHalf t h).vf = vf := by
  let s0 := takeBlock s vf
  let s1 := setHalf s0 h { getHalf s0 h with next := none, since := s.refTimer, due := dueNow s h, vac := false }
  obtain ⟨-, hctl, hhalf⟩ := takeBlock_spec (s := s) h0
  have hin : inHalves s0 vf h = bitN (getFn s vf).ctlNew.halves h := by rw [inHalves, hctl]
  have hexec : exec (.sliceEnd h vf) s
      = .next (if !inHalves s0 vf h then s0 else (halfCores s1 h).foldl (resumeCore vf) s1) := by
    show execSliceEnd h vf s = _
    unfold execSliceEnd
    dsimp only
    rw [if_neg (sliceEnd_goes hh hv (.inl hout) hmay), if_pos hout, if_neg h0]
    exact (apply_ite _ _ _ _).symm
  cases hb : bitN (getFn s vf).ctlNew.halves h with
  | false =>
    have hx : getHalf s0 h = vacated (getHalf s h) := (hhalf h).trans (if_pos ⟨hb, hout.symm⟩)
    rw [hin, hb] at hexec
    refine ⟨s0, hexec, hctl, ?_⟩
    rw [hx]
    exact ⟨rfl, hout.symm⟩
  | true =>
    have hx : getHalf s0 h = getHalf s h := (hhalf h).trans (if_neg fun e => by rw [hb] at e; cases e.1)
    have hframe : SliceFrame s1 ((halfCores s1 h).foldl (resumeCore vf) s1) := .foldl _ (fun s c => sliceFrame_resumeCore vf s c) s1
    rw [hin, hb] at hexec
    refine ⟨_, hexec, ((hframe.ctls vf).2).trans hctl, ?_⟩
    show getHalf ((halfCores s1 h).foldl (resumeCore vf) s1) h = _
    rw [getHalf_of_halves hframe.halves, getHalf_setHalf, if_pos rfl, hx]

/-- Once the outgoing VF has come to rest the half tile passes, its latches cleared and its rules the default ones. -/
theorem sliceEnd_passes {s : State} {h vf : Nat} (hh : h < 768) (hv : vf ≤ 63) (hne : vf ≠ (getHalf s h).vf)
    (henter : mayEnter s h (getHalf s h).vf vf = true) (hmay : sliceMay s h vf) :
    let s1 := setHalf s h { getHalf s h with next := some vf }
    let s2 := if (getHalf s h).vf = 0 then s1 else stopHalf s1 h (getHalf s h).vf
    (getHalf s h).vf = 0 ∨ halfIdle s2 (getHalf s h).vf h = true →
      ∃ t d, exec (.sliceEnd h vf) s = .next t ∧ getHalf t h = ⟨vf, defaultTrowel, none, s.refTimer, d, false⟩
        ∧ ∀ p ∈ t.latches, ¬ (p.1 / 4 = h / 2 ∧ p.1 % 4 / 2 = h % 2) := by
  intro s1 s2 hidle
  let s3 := if vf ≠ 0 ∧ ¬ isResident s2 vf then takeBlock s2 vf else s2
  have hexec : exec (.sliceEnd h vf) s = .next (passHalf s3 h (getHalf s h).vf vf) := by
    show execSliceEnd h vf s = _
    unfold execSliceEnd
    dsimp only
    rw [if_neg (sliceEnd_goes hh hv (.inr henter) hmay), if_neg hne]
    refine if_neg fun e => ?_
    rcases hidle with h0 | hi
    · exact e.1 h0
    · exact e.2 hi
  have h2 : s2.refTimer = s.refTimer := (SliceFrame.ite (.refl s1) (sliceFrame_stopHalf s1 h (getHalf s h).vf)).refTimer
  have h3 : s3.refTimer = s.refTimer := by
    show (if vf ≠ 0 ∧ ¬ isResident s2 vf then takeBlock s2 vf else s2).refTimer = _
    split
    next hc => exact (takeBlock_spec hc.1).1.trans h2
    · exact h2
  obtain ⟨⟨d, hd⟩, hl⟩ := passHalf_spec s3 h (getHalf s h).vf vf
  exact ⟨_, d, hexec, by rw [hd, h3], hl⟩

/-- Settles O57: the core dealt to is the least that follows in the rotation; behind a slice start stands the block as written; a slice that is not over ends for nobody; a half tile that passes is cleared. -/
theorem placementAndSlices : Obligations.PlacementAndSlices := by
  unfold Obligations.PlacementAndSlices
  refine ⟨fun s p c hc => dealCore_spec hc, fun s v tag c p hp hv ht hk hn hc hres => ?_, fun s h vf hh hvf => ?_⟩
  · have hdeal := dealOne_eq hp hk hn hc hres
    refine ⟨fun hq => ?_, fun n hq hfree hseeds => ?_⟩
    · rw [if_pos hq] at hdeal
      exact memberPlacement_waits hdeal hv ht
    · rw [if_neg (Nat.not_le.2 hq), hfree] at hdeal
      obtain ⟨t, he, hpop, u, hsp⟩ := memberPlacement_starts hdeal hv ht
      refine ⟨t, he, hpop, ?_⟩
      intro q
      have hq : q = startSpoke u v p.entry .launch (memberRec s p p.nextIdx c n) := hsp
      obtain ⟨hctx, hpc, hwant, htag, hperm, -, hrsp, hseed, hmask⟩ := startSpoke_spec u v p.entry .launch (memberRec s p p.nextIdx c n)
      rw [hq]
      refine ⟨hctx, hpc, hwant, htag.trans ht, hperm, hmask, ?_, hseed 0, hseed 1, hseed 2, hseed 3, hseed 4, hseed 5⟩
      rw [hrsp, ← hv]
      rfl
  · intro out x may
    refine ⟨fun hout h0 hm => sliceEnd_again hh hvf hout h0 hm, fun hnext h0 hshort hwin => ?_, ?_, ?_, ?_⟩
    · have hover : sliceOver s h = false := by
        have hlt : ¬ (s.refTimer - x.since ≥ minSlice) := Nat.not_le.2 hshort
        unfold sliceOver
        simp only [Bool.or_eq_false_iff, Bool.and_eq_false_iff, beq_eq_false_iff_ne, bne_eq_false_iff_eq, decide_eq_false_iff_not]
        exact ⟨⟨h0, hlt⟩, hwin⟩
      exact exec_sliceEnd_idle hnext (sliceOk_over hover) (by rw [sliceMust_over hover]; exact nofun)
    · intro others h0 hnext hmust hpos hlt
      exact exec_sliceEnd_idle hnext (sliceOk_tight h0 hpos hlt) hmust
    · intro due
      refine ⟨fun v hv => ?_, fun hmay hover hleft => sliceMust_some hmay hover hleft⟩
      obtain ⟨hover, hmay, n, hn⟩ := sliceMust_spec hv
      have hne := (List.mem_filter.1 hn).2
      rw [Bool.and_eq_true, bne_iff_ne] at hne
      exact ⟨hne.1, hmay, ⟨n, hn⟩, hover⟩
    · exact fun hne henter hm hidle => sliceEnd_passes hh hvf hne henter hm hidle

end Sys2Proof
end

section

/-!
The word of a well-formed instruction decodes to it (R68, R73, R74, R76, R77): what each field of the word holds, one lemma per
form of an opcode, and the rows of the encoding tables put together from them.
-/

namespace Sys2Proof

open Machine

/-- The decoder of an opcode's group, which stands in its three highest bits (R76). -/
def groupDecoder : Nat → Raw → Nat → DecRes
  | 0 => decodeAlu | 1 => decodeCtl | 2 => decodeMem | 3 => decodeSync | 4 => decodeTile | 5 => decodeVecA | 6 => decodeVecM
  | _ => decodeSys

theorem decodeRaw_eq {r : Raw} (h : (r.op != 0x3FF && r.fmt != 7) = true) :
    decodeRaw r = groupDecoder (r.op.toNat / 128) r r.op.toNat := by
  rw [Bool.and_eq_true, bne_iff_ne, bne_iff_ne] at h
  obtain ⟨hill, hfmt⟩ := h
  unfold decodeRaw
  rw [if_neg hill, if_neg hfmt]
  dsimp only
  generalize r.op.toNat / 128 = g
  rcases g with _ | _ | _ | _ | _ | _ | _ | g <;> simp [groupDecoder]

/-- A word is decoded by its group's decoder, unless its opcode is ILL's or its format is 7. -/
theorem decodeRaw_of_group {r : Raw} {i : Instr} (op : BitVec 10) (ho : r.op = op) (h : (op != 0x3FF && r.fmt != 7) = true)
    (hd : groupDecoder (op.toNat / 128) r op.toNat = .ok i) : decodeRaw r = .ok i := by
  subst ho
  exact (decodeRaw_eq h).trans hd

theorem and_ok {a b : Bool} (ha : a = true) (hb : b = true) : (a && b) = true := Bool.and_eq_true_iff.2 ⟨ha, hb⟩

theorem or_ok_left {a b : Bool} (ha : a = true) : (a || b) = true := Bool.or_eq_true_iff.2 (.inl ha)

theorem or_ok_right {a b : Bool} (hb : b = true) : (a || b) = true := Bool.or_eq_true_iff.2 (.inr hb)

theorem fieldsOk_ok {c : Bool} {i j : Instr} (hc : c = true) (hi : i = j) (hw : j.wf = true) : fieldsOk c i = .ok j := by
  subst hi; simp [fieldsOk, hc, hw]

theorem only_ok {r : Raw} {f : BitVec 3} {d : DecRes} {j : Instr} (hf : r.fmt = f) (h : d = .ok j) : only r f d = .ok j := by
  rw [only, if_pos hf, h]

theorem coded_ok {α : Type} {x : Option α} {k : α → DecRes} {a : α} {j : Instr} (hx : x = some a) (h : k a = .ok j) : coded x k = .ok j := by
  rw [hx]; exact h

@[simp] theorem vOf_fv (x : Fin 8) : vOf (fv x) = x := by
  simp only [vOf, fv, BitVec.toNat_ofNat]; ext; simp

@[simp] theorem kOf_fk (x : Fin 4) : kOf (fk x) = x := by
  simp only [kOf, fk, BitVec.toNat_ofNat]; ext; simp

@[simp] theorem isV_fv (x : Fin 8) : isV (fv x) = true := by have := x.isLt; simp [isV, fv]; omega
@[simp] theorem isK_fk (x : Fin 4) : isK (fk x) = true := by have := x.isLt; simp [isK, fk]; omega

theorem Fmt.code_lt (f : Fmt) : f.code < 16 := by cases f <;> decide
theorem Quad.code_lt (q : Quad) : q.code < 16 := by cases q <;> decide
theorem Rnd.code_lt (q : Rnd) : q.code < 4 := by cases q <;> decide

@[simp] theorem fmtOf_code (f : Fmt) : fmtOf f.code = some f := by cases f <;> rfl
@[simp] theorem quadOf_code (f : Quad) : quadOf f.code = some f := by cases f <;> rfl

/-! Fields that hold a number (R74, R418). -/

/-- A number that fits its field is read back from it. -/
theorem toNat_ofNat_field {w n : Nat} (x : BitVec n) (h : n ≤ w) : (BitVec.ofNat w x.toNat).toNat = x.toNat := by
  rw [BitVec.toNat_ofNat, Nat.mod_eq_of_lt (Nat.lt_of_lt_of_le x.isLt (Nat.pow_le_pow_right two_pos h))]

/-- Nothing stands above a number that is written alone into a field. -/
theorem field_high {w n : Nat} (x : BitVec n) (h : n ≤ w) : ((BitVec.ofNat w x.toNat).toNat / 2 ^ n == 0) = true := by
  rw [toNat_ofNat_field x h, Nat.div_eq_of_lt x.isLt]; rfl

/-- A number written alone into a field is read back from it. -/
theorem field_read {w n : Nat} (x : BitVec n) (h : n ≤ w) : BitVec.ofNat n (BitVec.ofNat w x.toNat).toNat = x := by
  rw [toNat_ofNat_field x h, BitVec.ofNat_toNat, BitVec.setWidth_eq]

/-- Two numbers side by side in a field: each is read back, and nothing stands above them. -/
theorem field_pair {w a b : Nat} (x : BitVec a) (y : BitVec b) (h : a + b ≤ w) :
    let z := (BitVec.ofNat w (x.toNat + y.toNat * 2 ^ a)).toNat
    BitVec.ofNat a z = x ∧ BitVec.ofNat b (z / 2 ^ a) = y ∧ (z / 2 ^ (a + b) == 0) = true := by
  intro z
  have hx := x.isLt
  have hlt : x.toNat + y.toNat * 2 ^ a < 2 ^ (a + b) := by
    have := Nat.mul_le_mul_right (2 ^ a) (Nat.succ_le_of_lt y.isLt)
    rw [Nat.pow_add, Nat.mul_comm (2 ^ a)]; rw [Nat.succ_mul] at this; omega
  have hz : z = x.toNat + y.toNat * 2 ^ a := by
    show (BitVec.ofNat w _).toNat = _
    rw [BitVec.toNat_ofNat, Nat.mod_eq_of_lt (Nat.lt_of_lt_of_le hlt (Nat.pow_le_pow_right two_pos h))]
  rw [hz]
  refine ⟨?_, ?_, ?_⟩
  · apply BitVec.eq_of_toNat_eq
    rw [BitVec.toNat_ofNat, Nat.add_mul_mod_self_right, Nat.mod_eq_of_lt hx]
  · rw [Nat.add_mul_div_right _ _ (Nat.two_pow_pos a), Nat.div_eq_of_lt hx, Nat.zero_add, BitVec.ofNat_toNat, BitVec.setWidth_eq]
  · rw [Nat.div_eq_of_lt hlt]; rfl

/-- A flag written alone into MOD. -/
theorem field_flag (u : Bool) : ((BitVec.ofNat 9 u.toNat).toNat / 2 == 0) = true ∧ ((BitVec.ofNat 9 u.toNat).toNat / 2 ^ 0 % 2 == 1) = u := by
  cases u <;> exact ⟨rfl, rfl⟩

/-- A rounding mode is read back from the low bits of a field (R74). -/
theorem rndOf_of {n : Nat} {rnd : Rnd} (h : n % 4 = rnd.code) : rndOf n = rnd := by
  unfold rndOf
  rw [h]
  cases rnd <;> rfl

/-- MOD of a vector instruction with .SAT: rounding, .SAT and KM (R418, R420). -/
theorem field_rndSatKm (rnd : Rnd) (sat : Bool) (km : Fin 4) :
    let m := (BitVec.ofNat 9 (rnd.code + 4 * sat.toNat + 8 * km.val)).toNat
    m % 4 = rnd.code ∧ (m / 2 ^ 2 % 2 == 1) = sat ∧ m / 8 % 4 = km.val ∧ m / 32 = 0 := by
  have hk := km.isLt
  have hs := sat.toNat_lt
  have hr := rnd.code_lt
  simp only [BitVec.toNat_ofNat]
  refine ⟨by omega, beq_one_of_toNat _ _ (by omega), by omega, by omega⟩

/-- MOD of the other vector instructions: KM and FAM, the lowest bits zero (R418). -/
theorem field_kmFam (km : Fin 4) (fam : Nat) (h : fam < 16) :
    let m := (BitVec.ofNat 9 (8 * km.val + 32 * fam)).toNat
    m % 8 = 0 ∧ m / 8 % 4 = km.val ∧ m / 32 = fam := by
  have hk := km.isLt
  simp only [BitVec.toNat_ofNat]
  omega

/-- MOD of a matrix command: the format and three flags (R185). -/
theorem field_fmtFlags (f : Fmt) (a b c : Bool) :
    let m := (BitVec.ofNat 9 (f.code + 16 * a.toNat + 32 * b.toNat + 64 * c.toNat)).toNat
    m % 16 = f.code ∧ (m / 2 ^ 4 % 2 == 1) = a ∧ (m / 2 ^ 5 % 2 == 1) = b ∧ (m / 2 ^ 6 % 2 == 1) = c ∧ (m / 2 ^ 7 == 0) = true := by
  have hf := f.code_lt
  have ha := a.toNat_lt
  have hb := b.toNat_lt
  have hc := c.toNat_lt
  simp only [BitVec.toNat_ofNat]
  refine ⟨by omega, beq_one_of_toNat _ _ (by omega), beq_one_of_toNat _ _ (by omega), beq_one_of_toNat _ _ (by omega), ?_⟩
  rw [beq_iff_eq]; omega

/-- IMM48 of a matrix command: a quadrant code and two numbers (R185). -/
theorem field_quadNK {b : Nat} (c : Nat) (hc : c < 16) (n : BitVec 10) (k : BitVec b) (hb : b ≤ 10) :
    let m := (BitVec.ofNat 48 (c + 16 * n.toNat + 2 ^ 14 * k.toNat)).toNat
    m % 16 = c ∧ BitVec.ofNat 10 (m / 16) = n ∧ BitVec.ofNat b (m / 2 ^ 14) = k ∧ (m / 2 ^ (14 + b) == 0) = true := by
  have hn := n.isLt
  have hk : k.toNat < 2 ^ b := k.isLt
  have hb' : 2 ^ b ≤ 2 ^ 10 := Nat.pow_le_pow_right two_pos hb
  intro m
  have hm : m = c + 16 * n.toNat + 2 ^ 14 * k.toNat := by
    show (BitVec.ofNat 48 _).toNat = _
    rw [BitVec.toNat_ofNat]; omega
  rw [hm]
  refine ⟨by omega, ?_, ?_, ?_⟩
  · apply BitVec.eq_of_toNat_eq
    rw [BitVec.toNat_ofNat]; omega
  · have : (c + 16 * n.toNat + 2 ^ 14 * k.toNat) / 2 ^ 14 = k.toNat := by omega
    rw [this, BitVec.ofNat_toNat, BitVec.setWidth_eq]
  · have : (c + 16 * n.toNat + 2 ^ 14 * k.toNat) / 2 ^ 14 = k.toNat := by omega
    rw [Nat.pow_add, ← Nat.div_div_eq_div_mul, this, Nat.div_eq_of_lt hk]; rfl

/-- A target is read back from IMM48 (R58). -/
theorem field_target (t : BrTarget) : (⟨BitVec.ofNat 45 (t.imm.toNat / 8), BitVec.ofNat 3 t.imm.toNat⟩ : BrTarget) = t := by
  obtain ⟨h1, h2, -⟩ := field_pair (w := 48) t.slot t.off (by decide)
  have e : t.imm = BitVec.ofNat 48 (t.slot.toNat + t.off.toNat * 2 ^ 3) := by rw [Nat.add_comm]; rfl
  rw [e, h1]
  exact congrArg (BrTarget.mk · t.slot) h2

/-- An opcode of one format: `hd` says what its group's decoder does at it, which is true by `rfl` at an opcode written out. -/
theorem decodeRaw_only {r : Raw} {D : Raw → DecRes} {j : Instr} (op : BitVec 10) (f : BitVec 3)
    (hd : ∀ R, groupDecoder (op.toNat / 128) R op.toNat = only R f (D R)) (hne : (op != 0x3FF && f != 7) = true)
    (ho : r.op = op) (hf : r.fmt = f) (hD : D r = .ok j) : decodeRaw r = .ok j := by
  subst ho hf
  rw [decodeRaw_eq hne, hd, only, if_pos rfl, hD]

/-- An opcode of one format whose decoder checks the fields and then reads them. -/
theorem decodeRaw_fields {r : Raw} {C : Raw → Bool} {I : Raw → Instr} {j : Instr} (op : BitVec 10) (f : BitVec 3)
    (hd : ∀ R, groupDecoder (op.toNat / 128) R op.toNat = only R f (fieldsOk (C R) (I R))) (hne : (op != 0x3FF && f != 7) = true)
    (ho : r.op = op) (hf : r.fmt = f) (hc : C r = true) (hi : I r = j) (hw : j.wf = true) : decodeRaw r = .ok j :=
  decodeRaw_only op f hd hne ho hf (fieldsOk_ok hc hi hw)

/-- An opcode of two formats. -/
theorem decodeRaw_either {r : Raw} {D D' : Raw → DecRes} {j : Instr} (op : BitVec 10) (f f' : BitVec 3)
    (hd : ∀ R, groupDecoder (op.toNat / 128) R op.toNat = either R f (D R) f' (D' R)) (hne : (op != 0x3FF && r.fmt != 7) = true)
    (ho : r.op = op) (hD : (r.fmt = f ∧ D r = .ok j) ∨ (r.fmt ≠ f ∧ r.fmt = f' ∧ D' r = .ok j)) : decodeRaw r = .ok j := by
  subst ho
  rw [decodeRaw_eq hne, hd, either]
  rcases hD with ⟨hf, h⟩ | ⟨hf, hf', h⟩
  · rw [if_pos hf, h]
  · rw [if_neg hf, if_pos hf', h]

theorem decodeLd_ld {r : Raw} {sz : Size} {sx : Bool} (hm : r.mod = BitVec.ofNat 9 (sz.code + 4 * sx.toNat)) :
    decodeLd r = fieldsOk (r.mem && r.noB && r.noC) (.ld r.rlx r.gd r.ga sz sx r.imm) := by
  unfold decodeLd
  rw [Raw.mb, hm]
  cases sz <;> cases sx <;> simp [Size.code, sizeOf2]

@[simp] theorem eRRR_op (op : BitVec 10) (m : Nat) (d : Dst) (a b : Src) : (eRRR op m d a b).op = op := by cases d <;> rfl
@[simp] theorem eRRR_fmt (op : BitVec 10) (m : Nat) (d : Dst) (a b : Src) : (eRRR op m d a b).fmt = 0 := by cases d <;> rfl
@[simp] theorem eRRI_op (op : BitVec 10) (m : Nat) (d : Dst) (a : Src) (x : BitVec 48) : (eRRI op m d a x).op = op := by cases d <;> rfl
@[simp] theorem eRRI_fmt (op : BitVec 10) (m : Nat) (d : Dst) (a : Src) (x : BitVec 48) : (eRRI op m d a x).fmt = 1 := by cases d <;> rfl
@[simp] theorem eRRR_dest (op : BitVec 10) (m : Nat) (d : Dst) (a b : Src) : (eRRR op m d a b).dest = d := by cases d <;> rfl
@[simp] theorem eRRI_dest (op : BitVec 10) (m : Nat) (d : Dst) (a : Src) (x : BitVec 48) : (eRRI op m d a x).dest = d := by cases d <;> rfl
@[simp] theorem eRRR_alu (op : BitVec 10) (m : Nat) (d : Dst) (a b : Src) : (eRRR op m d a b).alu = true := by cases d <;> rfl
@[simp] theorem eRRI_alu (op : BitVec 10) (m : Nat) (d : Dst) (a : Src) (x : BitVec 48) : (eRRI op m d a x).alu = true := by cases d <;> rfl

@[simp] theorem eRRR_i0 (op : BitVec 10) (m : Nat) (d : Dst) (a b : Src) : (eRRR op m d a b).i0 = true := by cases d <;> rfl
@[simp] theorem eRRI_noB (op : BitVec 10) (m : Nat) (d : Dst) (a : Src) (x : BitVec 48) : (eRRI op m d a x).noB = true := by cases d <;> rfl

/-- Both forms of an operation of group 000: on registers here, on an immediate in `decodeRaw_eRRI` (R68, R76). -/
theorem decodeRaw_eRRR {M : Raw → Bool} {k : Raw → Dst → Src → Src → Instr} {k' : Raw → Dst → Src → BitVec 48 → Instr} {j : Instr}
    {m : Nat} {d : Dst} {a b : Src} (op : BitVec 10) (hd : ∀ R, groupDecoder (op.toNat / 128) R op.toNat = aluRR R (M R) (k R) (k' R))
    (hne : (op != 0x3FF) = true) (hm : M (eRRR op m d a b) = true) (hi : k (eRRR op m d a b) d a b = j) (hw : j.wf = true) :
    decodeRaw (eRRR op m d a b) = .ok j := by
  have h : ((eRRR op m d a b).op != 0x3FF && (eRRR op m d a b).fmt != 7) = true := by rw [eRRR_op, eRRR_fmt, hne]; rfl
  rw [decodeRaw_eq h, eRRR_op, hd, aluRR, either, eRRR_fmt, if_pos rfl, eRRR_alu, hm, eRRR_dest]
  exact fieldsOk_ok (eRRR_i0 op m d a b) hi hw

theorem decodeRaw_eRRI {M : Raw → Bool} {k : Raw → Dst → Src → Src → Instr} {k' : Raw → Dst → Src → BitVec 48 → Instr} {j : Instr}
    {m : Nat} {d : Dst} {a : Src} {x : BitVec 48} (op : BitVec 10) (hd : ∀ R, groupDecoder (op.toNat / 128) R op.toNat = aluRR R (M R) (k R) (k' R))
    (hne : (op != 0x3FF) = true) (hm : M (eRRI op m d a x) = true) (hi : k' (eRRI op m d a x) d a x = j) (hw : j.wf = true) :
    decodeRaw (eRRI op m d a x) = .ok j := by
  have h : ((eRRI op m d a x).op != 0x3FF && (eRRI op m d a x).fmt != 7) = true := by rw [eRRI_op, eRRI_fmt, hne]; rfl
  rw [decodeRaw_eq h, eRRI_op, hd, aluRR, either, eRRI_fmt, if_neg (by decide), if_pos rfl, eRRI_alu, hm, eRRI_dest]
  exact fieldsOk_ok (eRRI_noB op m d a x) hi hw

/-- MOD of an access: size and one flag (R74, R325). -/
theorem field_size (sz : Size) (u : Bool) :
    let m := (BitVec.ofNat 9 (sz.code + 4 * u.toNat)).toNat
    sizeOf2 m = sz ∧ (m / 2 ^ 2 % 2 == 1) = u ∧ (m / 8 == 0) = true := by
  cases sz <;> cases u <;> exact ⟨rfl, rfl, rfl⟩

theorem field_sizeOnly (sz : Size) : sizeOf2 (BitVec.ofNat 9 sz.code).toNat = sz ∧ ((BitVec.ofNat 9 sz.code).toNat / 4 == 0) = true := by
  cases sz <;> exact ⟨rfl, rfl⟩

theorem decodeLd_ldF {r : Raw} (hm : r.mod = 11) (hc : (r.mem && r.noB && r.noC && !r.rlx) = true) : decodeLd r = .ok (.ldF r.gd r.ga r.imm) := by
  unfold decodeLd
  rw [hm]
  exact fieldsOk_ok (by simpa using hc) rfl rfl

theorem decodeLd_ldS {r : Raw} (hm : r.mod = 19) (hc : (r.mem && r.noB && r.noC && !r.rlx) = true) : decodeLd r = .ok (.ldS r.gd r.ga r.imm) := by
  unfold decodeLd
  rw [hm]
  exact fieldsOk_ok (by simpa using hc) rfl rfl

theorem decodeSt_st {r : Raw} {sz : Size} (hm : r.mod = BitVec.ofNat 9 sz.code) (hc : (r.mem && r.noD && r.noC) = true) :
    decodeSt r = .ok (.st r.rlx r.ga r.gb sz r.imm) := by
  unfold decodeSt
  rw [Raw.mb, hm]
  cases sz <;> exact fieldsOk_ok (by simpa [Size.code] using hc) rfl rfl

theorem decodeSt_stF {r : Raw} (hm : r.mod = 11) (hc : (r.mem && r.noD && r.noC && !r.rlx) = true) : decodeSt r = .ok (.stF r.ga r.gb r.imm) := by
  unfold decodeSt
  rw [hm]
  exact fieldsOk_ok (by simpa using hc) rfl rfl

/-- An atomic whose MOD holds nothing but its size (R76, R325). -/
theorem decodeRaw_atomic {k : Bool → Fin 32 → Src → Src → Size → BitVec 48 → Instr} {rlx : Bool} {d : Fin 32} {a b : Src} {sz : Size}
    {x : BitVec 48}
    (op : BitVec 10)
    (hd : ∀ R, groupDecoder (op.toNat / 128) R op.toNat = atomic R R.szOnly false (k R.rlx R.gd R.ga R.gb (sizeOf2 R.mod.toNat) R.imm))
    (hne : (op != 0x3FF) = true) (hw : (k rlx d a b sz x).wf = true) :
    decodeRaw ((eMEM op rlx sz.code d a x).setB b) = .ok (k rlx d a b sz x) :=
  decodeRaw_fields op 2 hd (and_ok hne rfl) rfl rfl (and_ok (and_ok rfl (field_sizeOnly sz).2) rfl)
    (congrArg (k rlx d a b · x) (field_sizeOnly sz).1) hw

/-- An atomic whose MOD holds its size and the unsigned flag (R76, R325). -/
theorem decodeRaw_minMax {k : Bool → Bool → Fin 32 → Src → Src → Size → BitVec 48 → Instr} {rlx u : Bool} {d : Fin 32} {a b : Src}
    {sz : Size} {x : BitVec 48} (op : BitVec 10)
    (hd : ∀ R, groupDecoder (op.toNat / 128) R op.toNat
      = atomic R (R.mod.toNat / 8 == 0) false (k R.rlx (R.mb 2) R.gd R.ga R.gb (sizeOf2 R.mod.toNat) R.imm))
    (hne : (op != 0x3FF) = true) (hw : (k rlx u d a b sz x).wf = true) :
    decodeRaw ((eMEM op rlx (sz.code + 4 * u.toNat) d a x).setB b) = .ok (k rlx u d a b sz x) := by
  obtain ⟨hsz, hu, hz⟩ := field_size sz u
  exact decodeRaw_fields op 2 hd (and_ok hne rfl) rfl rfl (and_ok (and_ok rfl hz) rfl) (congrArg₂ (k rlx · d a b · x) hu hsz) hw

theorem Raw.km_eq {r : Raw} {km : Fin 4} (h : r.mod.toNat / 8 % 4 = km.val) : r.km = km := Fin.ext h

theorem Raw.noFam_of {r : Raw} (h : r.mod.toNat / 32 = 0) : r.noFam = true := by rw [Raw.noFam, h]; rfl

theorem field_satKm (sat : Bool) (km : Fin 4) :
    let m := (BitVec.ofNat 9 (4 * sat.toNat + 8 * km.val)).toNat
    m % 4 = 0 ∧ (m / 2 ^ 2 % 2 == 1) = sat ∧ m / 8 % 4 = km.val ∧ m / 32 = 0 := by
  simpa [Rnd.code] using field_rndSatKm .rne sat km

theorem Raw.kmSat_of {r : Raw} (h : r.mod.toNat % 4 = 0) (h' : r.mod.toNat / 32 = 0) : r.kmSat = true := by rw [Raw.kmSat, h, h']; rfl

theorem Raw.kmOnly_of {r : Raw} (h : r.mod.toNat % 8 = 0) (h' : r.mod.toNat / 32 = 0) : r.kmOnly = true := by rw [Raw.kmOnly, h, h']; rfl

@[simp] theorem vsrc_fv (a : VSrc) : (⟨vOf (fv a.reg), a.syn⟩ : VSrc) = a := by rw [vOf_fv]

/-- A vector instruction: its registers, MOD and the immediate are checked field by field (R418). -/
theorem decodeRaw_vec {r : Raw} {D A B C M O : Raw → Bool} {I : Raw → Instr} {j : Instr} (op : BitVec 10)
    (hd : ∀ R, groupDecoder (op.toNat / 128) R op.toNat = vec R (D R) (A R) (B R) (C R) (M R) (O R) (I R)) (hne : (op != 0x3FF) = true)
    (ho : r.op = op) (hf : r.fmt = 4) (hp : r.plain = true) (hD : D r = true) (hA : A r = true) (hB : B r = true) (hC : C r = true)
    (hM : M r = true) (hO : O r = true) (hi : I r = j) (hw : j.wf = true) : decodeRaw r = .ok j := by
  refine decodeRaw_fields op 4 hd (and_ok hne rfl) ho hf ?_ hi hw
  rw [hp, hD, hA, hB, hC, hM, hO]
  rfl

section
variable {rnd : Rnd} {sat : Bool} {km : Fin 4} {d : Fin 8} {a b c : VSrc}

/-- Two vector sources, rounding and .SAT. -/
theorem decodeRaw_rndSat {k : Rnd → Bool → Fin 4 → Fin 8 → VSrc → VSrc → Instr} (op : BitVec 10)
    (hd : ∀ R, groupDecoder (op.toNat / 128) R op.toNat = vec R (isV R.dst && isV R.sa && isV R.sb && R.noC) true true true R.noFam R.i0
      (k (rndOf R.mod.toNat) (R.mb 2) R.km R.vd R.va R.vb))
    (hne : (op != 0x3FF) = true) (hw : (k rnd sat km d a b).wf = true) :
    decodeRaw (((eVEC op (rnd.code + 4 * sat.toNat + 8 * km.val) (fv d)).setVA a).setVB b) = .ok (k rnd sat km d a b) := by
  obtain ⟨hr, hs, hk, hz⟩ := field_rndSatKm rnd sat km
  refine decodeRaw_vec op hd hne rfl rfl rfl (and_ok (and_ok (and_ok (isV_fv d) (isV_fv a.reg)) (isV_fv b.reg)) rfl) rfl rfl rfl
    (Raw.noFam_of hz) rfl ?_ hw
  congr 1
  exacts [rndOf_of hr, Raw.km_eq hk, vOf_fv d, vsrc_fv a, vsrc_fv b]

/-- Two vector sources and nothing but KM in MOD. -/
theorem decodeRaw_km2 {k : Fin 4 → Fin 8 → VSrc → VSrc → Instr} (op : BitVec 10)
    (hd : ∀ R, groupDecoder (op.toNat / 128) R op.toNat = vec R (isV R.dst && isV R.sa && isV R.sb && R.noC) true true true R.kmOnly R.i0
      (k R.km R.vd R.va R.vb))
    (hne : (op != 0x3FF) = true) (hw : (k km d a b).wf = true) :
    decodeRaw (((eVEC op (8 * km.val) (fv d)).setVA a).setVB b) = .ok (k km d a b) := by
  obtain ⟨hl, hk, hz⟩ := field_kmFam km 0 (by decide)
  refine decodeRaw_vec op hd hne rfl rfl rfl (and_ok (and_ok (and_ok (isV_fv d) (isV_fv a.reg)) (isV_fv b.reg)) rfl) rfl rfl rfl
    (Raw.kmOnly_of hl hz) rfl ?_ hw
  congr 1
  exacts [Raw.km_eq hk, vOf_fv d, vsrc_fv a, vsrc_fv b]

/-- One vector source and nothing but KM in MOD. -/
theorem decodeRaw_km1 {k : Fin 4 → Fin 8 → VSrc → Instr} (op : BitVec 10)
    (hd : ∀ R, groupDecoder (op.toNat / 128) R op.toNat = vec R (isV R.dst && isV R.sa && R.noB && R.noC) true true true R.kmOnly R.i0
      (k R.km R.vd R.va))
    (hne : (op != 0x3FF) = true) (hw : (k km d a).wf = true) :
    decodeRaw ((eVEC op (8 * km.val) (fv d)).setVA a) = .ok (k km d a) := by
  obtain ⟨hl, hk, hz⟩ := field_kmFam km 0 (by decide)
  refine decodeRaw_vec op hd hne rfl rfl rfl (and_ok (and_ok (and_ok (isV_fv d) (isV_fv a.reg)) rfl) rfl) rfl rfl rfl
    (Raw.kmOnly_of hl hz) rfl ?_ hw
  congr 1
  exacts [Raw.km_eq hk, vOf_fv d, vsrc_fv a]

/-- Two vector sources and .SAT. -/
theorem decodeRaw_kmSat {k : Bool → Fin 4 → Fin 8 → VSrc → VSrc → Instr} (op : BitVec 10)
    (hd : ∀ R, groupDecoder (op.toNat / 128) R op.toNat = vec R (isV R.dst && isV R.sa && isV R.sb && R.noC) true true true R.kmSat R.i0
      (k (R.mb 2) R.km R.vd R.va R.vb))
    (hne : (op != 0x3FF) = true) (hw : (k sat km d a b).wf = true) :
    decodeRaw (((eVEC op (4 * sat.toNat + 8 * km.val) (fv d)).setVA a).setVB b) = .ok (k sat km d a b) := by
  obtain ⟨hr, hs, hk, hz⟩ := field_satKm sat km
  refine decodeRaw_vec op hd hne rfl rfl rfl (and_ok (and_ok (and_ok (isV_fv d) (isV_fv a.reg)) (isV_fv b.reg)) rfl) rfl rfl rfl
    (Raw.kmSat_of hr hz) rfl ?_ hw
  congr 1
  exacts [Raw.km_eq hk, vOf_fv d, vsrc_fv a, vsrc_fv b]

end

/-- An operation of group 000 with the unsigned flag in MOD. -/
theorem decodeRaw_eRRR_flag {k : Dst → Src → Src → Bool → Instr} {k' : Dst → Src → BitVec 48 → Bool → Instr} {d : Dst} {a b : Src}
    {u : Bool} (op : BitVec 10) (hd : ∀ R, groupDecoder (op.toNat / 128) R op.toNat
      = aluRR R (R.mod.toNat / 2 == 0) (fun d a b => k d a b (R.mb 0)) (fun d a x => k' d a x (R.mb 0)))
    (hne : (op != 0x3FF) = true) (hw : (k d a b u).wf = true) : decodeRaw (eRRR op u.toNat d a b) = .ok (k d a b u) :=
  decodeRaw_eRRR (M := fun R => R.mod.toNat / 2 == 0) (k := fun R d a b => k d a b (R.mb 0)) op hd hne (field_flag u).1
    (congrArg (k d a b) (field_flag u).2) hw

theorem decodeRaw_eRRI_flag {k : Dst → Src → Src → Bool → Instr} {k' : Dst → Src → BitVec 48 → Bool → Instr} {d : Dst} {a : Src}
    {x : BitVec 48} {u : Bool} (op : BitVec 10) (hd : ∀ R, groupDecoder (op.toNat / 128) R op.toNat
      = aluRR R (R.mod.toNat / 2 == 0) (fun d a b => k d a b (R.mb 0)) (fun d a x => k' d a x (R.mb 0)))
    (hne : (op != 0x3FF) = true) (hw : (k' d a x u).wf = true) : decodeRaw (eRRI op u.toNat d a x) = .ok (k' d a x u) :=
  decodeRaw_eRRI (M := fun R => R.mod.toNat / 2 == 0) (k' := fun R d a x => k' d a x (R.mb 0)) op hd hne (field_flag u).1
    (congrArg (k' d a x) (field_flag u).2) hw

/-- MOD of MDRAIN: the format, the rounding and .SAT (R185). -/
theorem field_fmtRndSat (f : Fmt) (rnd : Rnd) (sat : Bool) :
    let m := (BitVec.ofNat 9 (f.code + 16 * rnd.code + 64 * sat.toNat)).toNat
    m % 16 = f.code ∧ m / 16 % 4 = rnd.code ∧ (m / 2 ^ 6 % 2 == 1) = sat ∧ (m / 2 ^ 7 == 0) = true := by
  have hf := f.code_lt
  have hr := rnd.code_lt
  have hs := sat.toNat_lt
  simp only [BitVec.toNat_ofNat]
  refine ⟨by omega, by omega, beq_one_of_toNat _ _ (by omega), ?_⟩
  rw [beq_iff_eq]; omega

theorem field_fmtFlag (f : Fmt) (sc : Bool) :
    let m := (BitVec.ofNat 9 (f.code + 16 * sc.toNat)).toNat
    m % 16 = f.code ∧ (m / 2 ^ 4 % 2 == 1) = sc ∧ (m / 2 ^ 5 == 0) = true := by
  have hf := f.code_lt
  have hs := sc.toNat_lt
  simp only [BitVec.toNat_ofNat]
  refine ⟨by omega, beq_one_of_toNat _ _ (by omega), ?_⟩
  rw [beq_iff_eq]; omega

theorem field_quad (q : Quad) : quadOf ((BitVec.ofNat 48 q.code).toNat % 16) = some q ∧ ((BitVec.ofNat 48 q.code).toNat / 16 == 0) = true := by
  cases q <;> exact ⟨rfl, rfl⟩

theorem field_quadN (q : Quad) (n : BitVec 10) :
    let m := (BitVec.ofNat 48 (q.code + 16 * n.toNat)).toNat
    m % 16 = q.code ∧ BitVec.ofNat 10 (m / 16) = n ∧ (m / 2 ^ 14 == 0) = true := by
  obtain ⟨hq, hn, -, hz⟩ := field_quadNK q.code q.code_lt n (0 : BitVec 0) (by decide)
  exact ⟨hq, hn, hz⟩

theorem field_nk (n k : BitVec 10) :
    let m := (BitVec.ofNat 48 (16 * n.toNat + 2 ^ 14 * k.toNat)).toNat
    (m % 16 == 0) = true ∧ BitVec.ofNat 10 (m / 16) = n ∧ BitVec.ofNat 10 (m / 2 ^ 14) = k ∧ (m / 2 ^ 24 == 0) = true := by
  obtain ⟨h0, hn, hk, hz⟩ := field_quadNK 0 (by decide) n k (by decide)
  rw [Nat.zero_add] at h0 hn hk hz
  exact ⟨beq_iff_eq.2 h0, hn, hk, hz⟩

theorem field_fmtPair (df sf : Fmt) :
    let m := (BitVec.ofNat 48 (df.code + 16 * sf.code)).toNat
    m % 16 = df.code ∧ m / 16 % 16 = sf.code ∧ (m / 256 == 0) = true := by
  have hd := df.code_lt
  have hs := sf.code_lt
  simp only [BitVec.toNat_ofNat]
  refine ⟨by omega, by omega, ?_⟩
  rw [beq_iff_eq]; omega

theorem vcondOf_code (c : VCond) : vcondOf c.code = some c := by cases c <;> rfl
theorem VCond.code_lt (c : VCond) : c.code < 16 := by cases c <;> decide

theorem vec_ok {r : Raw} {d a b c m immOk : Bool} {i j : Instr} (hf : r.fmt = 4) (hp : r.plain = true) (hd : d = true) (ha : a = true)
    (hb : b = true) (hc : c = true) (hm : m = true) (hi : immOk = true) (h : i = j) (hw : j.wf = true) : vec r d a b c m immOk i = .ok j := by
  refine only_ok hf (fieldsOk_ok ?_ h hw)
  rw [hp, hd, ha, hb, hc, hm, hi]
  rfl

theorem tile_ok {r : Raw} {d a b c m immOk : Bool} {i j : Instr} (hf : r.fmt = 5) (hp : r.plain = true) (hd : (d || r.noD) = true)
    (ha : (a || r.noA) = true) (hb : (b || r.noB) = true) (hc : (c || r.noC) = true) (hm : m = true) (hi : immOk = true) (h : i = j)
    (hw : j.wf = true) : tile r d a b c immOk m i = .ok j := by
  refine only_ok hf (fieldsOk_ok ?_ h hw)
  rw [hp, hd, ha, hb, hc, hm, hi]
  rfl

theorem decodeRaw_sys {r : Raw} {d a b : Bool} {O : Raw → Bool} {I : Raw → Instr} {j : Instr} (op : BitVec 10)
    (hd : ∀ R, groupDecoder (op.toNat / 128) R op.toNat = sys R d a b (O R) R.m0 (I R)) (hne : (op != 0x3FF) = true)
    (ho : r.op = op) (hf : r.fmt = 6) (hp : r.plain = true) (hD : (d || r.noD) = true) (hA : (a || r.noA) = true)
    (hB : (b || r.noB) = true) (hC : r.noC = true) (hM : r.m0 = true) (hO : O r = true) (hi : I r = j) (hw : j.wf = true) :
    decodeRaw r = .ok j := by
  refine decodeRaw_fields op 6 hd (and_ok hne rfl) ho hf ?_ hi hw
  rw [hp, hD, hA, hB, hC, hM, hO]
  rfl

theorem field_coll (op : CollOp) : collOf (BitVec.ofNat 9 op.code).toNat = op ∧ ((BitVec.ofNat 9 op.code).toNat / 4 == 0) = true := by
  cases op <;> exact ⟨rfl, rfl⟩

theorem field_fam_high {n : Nat} {w : BitVec 2} (h : n / 32 = w.toNat) : (n / 128 == 0) = true := by
  have := w.isLt
  rw [beq_iff_eq]; omega

theorem field_fam_read {n : Nat} {w : BitVec 2} (h : n / 32 = w.toNat) : BitVec.ofNat 2 (n / 32) = w := by
  rw [h, BitVec.ofNat_toNat, BitVec.setWidth_eq]

/-- Each row of the encoding tables: the word of a well-formed instruction decodes to it (R76). -/
theorem decodeRaw_encodeRaw {i : Instr} {r : Raw} (hw : i.wf = true) (h : encodeRaw i = some r) : decodeRaw r = .ok i := by
  cases i with
  | addRrr d a b | subRrr d a b | mulRrr d a b | andRrr d a b | orRrr d a b | xorRrr d a b | andnRrr d a b | shlRrr d a b
  | shrRrr d a b | sraRrr d a b | rotRrr d a b =>
    obtain rfl := Option.some.inj h
    exact decodeRaw_eRRR (k' := fun _ => _) _ (fun _ => rfl) rfl rfl rfl rfl
  | addRri d a imm | subRri d a imm | mulRri d a imm | andRri d a imm | orRri d a imm | xorRri d a imm | andnRri d a imm
  | shlRri d a imm | shrRri d a imm | sraRri d a imm | rotRri d a imm =>
    obtain rfl := Option.some.inj h
    exact decodeRaw_eRRI (k := fun _ => _) _ (fun _ => rfl) rfl rfl rfl rfl
  | mulhRrr d a b u | divRrr d a b u | remRrr d a b u | minRrr d a b u | maxRrr d a b u =>
    obtain rfl := Option.some.inj h
    exact decodeRaw_eRRR_flag _ (fun _ => rfl) rfl rfl
  | mulhRri d a imm u | divRri d a imm u | remRri d a imm u | minRri d a imm u | maxRri d a imm u =>
    obtain rfl := Option.some.inj h
    exact decodeRaw_eRRI_flag _ (fun _ => rfl) rfl rfl
  | clz d a => cases d <;> exact Option.some.inj h ▸ decodeRaw_of_group 0x00F rfl rfl rfl
  | ctz d a => cases d <;> exact Option.some.inj h ▸ decodeRaw_of_group 0x010 rfl rfl rfl
  | popc d a => cases d <;> exact Option.some.inj h ▸ decodeRaw_of_group 0x011 rfl rfl rfl
  | cmpRrr d a b c =>
    exact Option.some.inj h ▸ decodeRaw_either 0x014 0 1 (fun _ => rfl) (and_ok rfl (by rw [eRRR_fmt]; rfl)) (eRRR_op ..)
      (.inl ⟨eRRR_fmt .., coded_ok (a := c) (by cases c <;> rfl) (fieldsOk_ok (and_ok (eRRR_alu ..) (eRRR_i0 ..)) (by rw [eRRR_dest]; rfl) hw)⟩)
  | cmpRri d a imm c =>
    exact Option.some.inj h ▸ decodeRaw_either 0x014 0 1 (fun _ => rfl) (and_ok rfl (by rw [eRRI_fmt]; rfl)) (eRRI_op ..)
      (.inr ⟨by rw [eRRI_fmt]; decide, eRRI_fmt .., coded_ok (a := c) (by cases c <;> rfl)
        (fieldsOk_ok (and_ok (eRRI_alu ..) (eRRI_noB ..)) (by rw [eRRI_dest]; rfl) hw)⟩)
  | sel d a b c => exact Option.some.inj h ▸ decodeRaw_of_group 0x015 rfl rfl rfl
  | mov d a => cases d <;> exact Option.some.inj h ▸ decodeRaw_of_group 0x016 rfl rfl rfl
  | li d imm => cases d <;> exact Option.some.inj h ▸ decodeRaw_of_group 0x017 rfl rfl rfl
  | lih d a imm =>
    exact Option.some.inj h ▸ decodeRaw_fields 0x018 1 (fun _ => rfl) rfl (eRRI_op ..) (eRRI_fmt ..)
      (and_ok (and_ok (and_ok (eRRI_alu ..) rfl) (eRRI_noB ..)) (field_high imm (by decide)))
        (by rw [eRRI_dest]; exact congrArg (Instr.lih d a) (field_read imm (by decide))) hw
  | lea d base imm =>
    cases base with
    | none =>
      cases d <;> exact Option.some.inj h ▸ decodeRaw_fields 0x019 1 (fun _ => rfl) rfl rfl rfl
        (and_ok (and_ok (and_ok rfl (field_flag true).1) rfl) (or_ok_right rfl)) (congrArg (Instr.lea _ · imm) (if_pos (field_flag true).2)) rfl
    | some a =>
      cases d <;> exact Option.some.inj h ▸ decodeRaw_fields 0x019 1 (fun _ => rfl) rfl rfl rfl
        (and_ok (and_ok (and_ok rfl (field_flag false).1) rfl) (or_ok_left (congrArg (!·) (field_flag false).2)))
        (congrArg (Instr.lea _ · imm) (if_neg (Bool.eq_false_iff.1 (field_flag false).2))) rfl
  | bfx d a lo w =>
    obtain ⟨hlo, hwd, hz⟩ := field_pair (w := 48) lo w (by decide)
    exact Option.some.inj h ▸ decodeRaw_fields 0x01A 1 (fun _ => rfl) rfl (eRRI_op ..) (eRRI_fmt ..)
      (and_ok (and_ok (and_ok (eRRI_alu ..) rfl) (eRRI_noB ..)) hz) (by rw [eRRI_dest]; exact congrArg₂ (Instr.bfx d a) hlo hwd) hw
  | bfi d a b lo w =>
    obtain ⟨hlo, hwd, hz⟩ := field_pair (w := 48) lo w (by decide)
    cases d <;> exact Option.some.inj h ▸ decodeRaw_fields 0x01B 1 (fun _ => rfl) rfl rfl rfl (and_ok rfl hz) (congrArg₂ (Instr.bfi _ a b) hlo
      hwd) hw
  | sext d a w =>
    exact Option.some.inj h ▸ decodeRaw_fields 0x01C 1 (fun _ => rfl) rfl (eRRI_op ..) (eRRI_fmt ..)
      (and_ok (and_ok (and_ok (eRRI_alu ..) rfl) (eRRI_noB ..)) (field_high w (by decide)))
        (by rw [eRRI_dest]; exact congrArg (Instr.sext d a) (field_read w (by decide))) hw
  | br t => exact Option.some.inj h ▸ decodeRaw_fields 0x080 3 (fun _ => rfl) rfl rfl rfl rfl (congrArg Instr.br (field_target t)) hw
  | bc a nz t =>
    exact Option.some.inj h ▸ decodeRaw_fields 0x081 3 (fun _ => rfl) rfl rfl rfl
      (and_ok (and_ok (and_ok (and_ok rfl (field_flag nz).1) rfl) rfl) rfl)
      (congrArg₂ (Instr.bc a) (field_flag nz).2 (field_target t)) hw
  | bri a => exact Option.some.inj h ▸ decodeRaw_of_group 0x082 rfl rfl rfl
  | call link t =>
    exact Option.some.inj h ▸ decodeRaw_fields 0x083 3 (fun _ => rfl) rfl rfl rfl rfl (congrArg (Instr.call link) (field_target t)) hw
  | ret a => exact Option.some.inj h ▸ decodeRaw_of_group 0x084 rfl rfl rfl
  | loop c t => exact Option.some.inj h ▸ decodeRaw_fields 0x085 3 (fun _ => rfl) rfl rfl rfl rfl (congrArg (Instr.loop c) (field_target t)) hw
  | dcallLabel link t =>
    exact Option.some.inj h ▸ decodeRaw_either 0x086 3 0 (fun _ => rfl) rfl rfl
      (.inl ⟨rfl, fieldsOk_ok rfl (congrArg (Instr.dcallLabel link) (field_target t)) hw⟩)
  | dcallReg link a => exact Option.some.inj h ▸ decodeRaw_of_group 0x086 rfl rfl rfl
  | dret => exact Option.some.inj h ▸ decodeRaw_of_group 0x087 rfl rfl rfl
  | spend => exact Option.some.inj h ▸ decodeRaw_of_group 0x088 rfl rfl rfl
  | ld rlx d a sz sx disp =>
    exact Option.some.inj h ▸ decodeRaw_only 0x100 2 (fun _ => rfl) rfl rfl rfl ((decodeLd_ld rfl).trans (fieldsOk_ok rfl rfl hw))
  | ldF d a disp => exact Option.some.inj h ▸ decodeRaw_only 0x100 2 (fun _ => rfl) rfl rfl rfl (decodeLd_ldF rfl rfl)
  | ldS d a disp => exact Option.some.inj h ▸ decodeRaw_only 0x100 2 (fun _ => rfl) rfl rfl rfl (decodeLd_ldS rfl rfl)
  | st rlx a b sz disp => exact Option.some.inj h ▸ decodeRaw_only 0x101 2 (fun _ => rfl) rfl rfl rfl (decodeSt_st rfl rfl)
  | stF a b disp => exact Option.some.inj h ▸ decodeRaw_only 0x101 2 (fun _ => rfl) rfl rfl rfl (decodeSt_stF rfl rfl)
  | empty a disp => exact Option.some.inj h ▸ decodeRaw_of_group 0x102 rfl rfl rfl
  | fence sc => cases sc <;> exact Option.some.inj h ▸ decodeRaw_of_group 0x103 rfl rfl rfl
  | pgrp n =>
    exact Option.some.inj h ▸ decodeRaw_sys 0x104 (fun _ => rfl) rfl rfl rfl rfl rfl rfl rfl rfl rfl (field_high n (by decide))
      (congrArg Instr.pgrp (field_read n (by decide))) hw
  | publ => exact Option.some.inj h ▸ decodeRaw_of_group 0x105 rfl rfl rfl
  | roinv a n => exact Option.some.inj h ▸ decodeRaw_of_group 0x106 rfl rfl rfl
  | aadd rlx d a b sz disp | aand rlx d a b sz disp | aor rlx d a b sz disp | axor rlx d a b sz disp
  | aswp rlx d a b sz disp =>
    obtain rfl := Option.some.inj h
    exact decodeRaw_atomic _ (fun _ => rfl) rfl rfl
  | amin rlx u d a b sz disp | amax rlx u d a b sz disp =>
    obtain rfl := Option.some.inj h
    exact decodeRaw_minMax _ (fun _ => rfl) rfl rfl
  | acas rlx d a b c sz disp =>
    exact Option.some.inj h ▸ decodeRaw_fields (C := fun R => R.mem && R.szOnly && (true || R.noC)) 0x10F 2 (fun _ => rfl) rfl rfl rfl
      (and_ok (and_ok rfl (field_sizeOnly sz).2) rfl) (congrArg (Instr.acas rlx d a b c · disp) (field_sizeOnly sz).1) rfl
  | wake a => exact Option.some.inj h ▸ decodeRaw_of_group 0x180 rfl rfl rfl
  | ibpop h v => exact Option.some.inj h ▸ decodeRaw_fields 0x181 0 (fun _ => rfl) rfl rfl rfl rfl rfl hw
  | ibreplay a b => exact Option.some.inj h ▸ decodeRaw_of_group 0x182 rfl rfl rfl
  | spstart a b c => exact Option.some.inj h ▸ decodeRaw_of_group 0x188 rfl rfl rfl
  | spstop a => exact Option.some.inj h ▸ decodeRaw_of_group 0x189 rfl rfl rfl
  | spresume a => exact Option.some.inj h ▸ decodeRaw_of_group 0x18A rfl rfl rfl
  | spkill a => exact Option.some.inj h ▸ decodeRaw_of_group 0x18B rfl rfl rfl
  | spreap d a => exact Option.some.inj h ▸ decodeRaw_of_group 0x18C rfl rfl rfl
  | spspill a b => exact Option.some.inj h ▸ decodeRaw_of_group 0x18D rfl rfl rfl
  | spfill a b => exact Option.some.inj h ▸ decodeRaw_of_group 0x18E rfl rfl rfl
  | gbar g =>
    exact Option.some.inj h ▸ decodeRaw_fields 0x190 1 (fun _ => rfl) rfl rfl rfl (and_ok rfl (field_high g (by decide)))
      (congrArg Instr.gbar (field_read g (by decide))) rfl
  | garrive g =>
    exact Option.some.inj h ▸ decodeRaw_fields 0x191 1 (fun _ => rfl) rfl rfl rfl (and_ok rfl (field_high g (by decide)))
      (congrArg Instr.garrive (field_read g (by decide))) rfl
  | barinit b a n => exact Option.some.inj h ▸ decodeRaw_of_group 0x192 rfl rfl rfl
  | bararr b n => exact Option.some.inj h ▸ decodeRaw_of_group 0x193 rfl rfl rfl
  | barwait b p => exact Option.some.inj h ▸ decodeRaw_of_group 0x194 rfl rfl rfl
  | semsig a b => exact Option.some.inj h ▸ decodeRaw_of_group 0x198 rfl rfl rfl
  | semwait c d a b => cases c <;> exact Option.some.inj h ▸ decodeRaw_of_group 0x199 rfl rfl rfl
  | tlsig a b => exact Option.some.inj h ▸ decodeRaw_of_group 0x19A rfl rfl rfl
  | tlwait d a b => exact Option.some.inj h ▸ decodeRaw_of_group 0x19B rfl rfl rfl
  | ptest d v r' =>
    exact Option.some.inj h ▸ decodeRaw_fields 0x19C 0 (fun _ => rfl) rfl rfl rfl (and_ok rfl (and_ok (field_flag v).1 rfl))
      (congrArg (Instr.ptest d · r') (field_flag v).2) hw
  | cancel d r' => exact Option.some.inj h ▸ decodeRaw_fields 0x19D 0 (fun _ => rfl) rfl rfl rfl rfl rfl hw
  | lend d a b mode =>
    exact Option.some.inj h ▸ decodeRaw_fields 0x1A0 1 (fun _ => rfl) rfl rfl rfl (and_ok rfl (field_high mode (by decide)))
      (congrArg (Instr.lend d a b) (field_read mode (by decide))) hw
  | unlend a => exact Option.some.inj h ▸ decodeRaw_of_group 0x1A1 rfl rfl rfl
  | domq d a => exact Option.some.inj h ▸ decodeRaw_of_group 0x1A2 rfl rfl rfl
  | mldw fmt sc sp2 t d q a b n k =>
    obtain rfl := Option.some.inj h
    obtain ⟨hf, hsc, hsp, ht, hz⟩ := field_fmtFlags fmt sc sp2 t
    obtain ⟨hq, hn, hk, hy⟩ := field_quadNK q.code q.code_lt n k (by decide)
    refine decodeRaw_only 0x200 5 (fun _ => rfl) rfl rfl rfl (coded_ok ((congrArg fmtOf hf).trans (fmtOf_code fmt))
      (coded_ok ((congrArg quadOf hq).trans (quadOf_code q)) (tile_ok rfl rfl rfl rfl rfl rfl hz hy ?_ hw)))
    congr 1
  | mmul fmt sc ovw sat d q a b c =>
    obtain rfl := Option.some.inj h
    obtain ⟨hf, hsc, hovw, hsat, hz⟩ := field_fmtFlags fmt sc ovw sat
    refine decodeRaw_only 0x201 5 (fun _ => rfl) rfl rfl rfl (coded_ok ((congrArg fmtOf hf).trans (fmtOf_code fmt))
      (coded_ok (field_quad q).1 (tile_ok rfl rfl rfl rfl rfl rfl hz (field_quad q).2 ?_ hw)))
    congr 1
  | mdrain fmt rnd sat d q a b c n adj =>
    obtain rfl := Option.some.inj h
    obtain ⟨hf, hr, hsat, hz⟩ := field_fmtRndSat fmt rnd sat
    obtain ⟨hq, hn, hk, hy⟩ := field_quadNK q.code q.code_lt n adj (by decide)
    refine decodeRaw_only 0x202 5 (fun _ => rfl) rfl rfl rfl (coded_ok ((congrArg fmtOf hf).trans (fmtOf_code fmt))
      (coded_ok ((congrArg quadOf hq).trans (quadOf_code q)) (tile_ok rfl rfl rfl rfl rfl rfl hz hy ?_ hw)))
    congr 1
    exact rndOf_of hr
  | mzero d q a b n =>
    obtain rfl := Option.some.inj h
    obtain ⟨hq, hn, hy⟩ := field_quadN q n
    refine decodeRaw_only 0x203 5 (fun _ => rfl) rfl rfl rfl (coded_ok ((congrArg quadOf hq).trans (quadOf_code q))
      (tile_ok rfl rfl rfl rfl rfl rfl rfl hy ?_ hw))
    congr 1
  | spcmp fmt sc d a b c n k =>
    obtain rfl := Option.some.inj h
    obtain ⟨hf, hsc, hz⟩ := field_fmtFlag fmt sc
    obtain ⟨hq, hn, hk, hy⟩ := field_nk n k
    refine decodeRaw_only 0x204 5 (fun _ => rfl) rfl rfl rfl (coded_ok ((congrArg fmtOf hf).trans (fmtOf_code fmt))
      (tile_ok rfl rfl rfl rfl rfl rfl hz (and_ok hq hy) ?_ hw))
    congr 1
  | lyt d a b l => exact Option.some.inj h ▸ decodeRaw_fields 0x208 5 (fun _ => rfl) rfl rfl rfl rfl rfl hw
  | lytq d l => exact Option.some.inj h ▸ decodeRaw_fields 0x209 5 (fun _ => rfl) rfl rfl rfl rfl rfl hw
  | cpsetReg r' a =>
    exact Option.some.inj h ▸ decodeRaw_either 0x210 0 1 (fun _ => rfl) rfl rfl
      (.inl ⟨rfl, only_ok rfl (fieldsOk_ok (and_ok rfl (field_high r' (by decide)))
        (congrArg (Instr.cpsetReg · a) (field_read r' (by decide))) hw)⟩)
  | cpsetImm r' imm =>
    exact Option.some.inj h ▸ decodeRaw_either 0x210 0 1 (fun _ => rfl) rfl rfl
      (.inr ⟨nofun, rfl, fieldsOk_ok (and_ok rfl (field_high r' (by decide))) (congrArg (Instr.cpsetImm · imm) (field_read r' (by decide))) hw⟩)
  | cpgo d => exact Option.some.inj h ▸ decodeRaw_fields 0x211 5 (fun _ => rfl) rfl rfl rfl rfl rfl hw
  | cpgath d v =>
    exact Option.some.inj h ▸ decodeRaw_fields 0x212 5 (fun _ => rfl) rfl rfl rfl (and_ok rfl (and_ok rfl (isV_fv v.reg)))
      (congrArg (Instr.cpgath d) (vsrc_fv v)) hw
  | cpscat d v =>
    exact Option.some.inj h ▸ decodeRaw_fields 0x213 5 (fun _ => rfl) rfl rfl rfl (and_ok rfl (and_ok rfl (isV_fv v.reg)))
      (congrArg (Instr.cpscat d) (vsrc_fv v)) hw
  | cpcancel d a => exact Option.some.inj h ▸ decodeRaw_of_group 0x214 rfl rfl rfl
  | waitany d a => exact Option.some.inj h ▸ decodeRaw_of_group 0x218 rfl rfl rfl
  | waitall a => exact Option.some.inj h ▸ decodeRaw_of_group 0x219 rfl rfl rfl
  | tagff d a => exact Option.some.inj h ▸ decodeRaw_of_group 0x21A rfl rfl rfl
  | tagclr a => exact Option.some.inj h ▸ decodeRaw_of_group 0x21B rfl rfl rfl
  | coll op d a =>
    exact Option.some.inj h ▸ decodeRaw_fields 0x220 5 (fun _ => rfl) rfl rfl rfl (and_ok rfl (field_coll op).2)
      (congrArg (Instr.coll · d a) (field_coll op).1) rfl
  | lease d a => exact Option.some.inj h ▸ decodeRaw_of_group 0x221 rfl rfl rfl
  | unlease a => exact Option.some.inj h ▸ decodeRaw_of_group 0x222 rfl rfl rfl
  | trload a b => exact Option.some.inj h ▸ decodeRaw_fields 0x228 0 (fun _ => rfl) rfl rfl rfl rfl rfl hw
  | trseal => exact Option.some.inj h ▸ decodeRaw_of_group 0x229 rfl rfl rfl
  | vadd rnd sat km d a b | vsub rnd sat km d a b | vmul rnd sat km d a b =>
    obtain rfl := Option.some.inj h
    exact decodeRaw_rndSat _ (fun _ => rfl) rfl rfl
  | vfma rnd sat km d a b c =>
    obtain rfl := Option.some.inj h
    obtain ⟨hr, hs, hk, hz⟩ := field_rndSatKm rnd sat km
    refine decodeRaw_vec 0x283 (fun _ => rfl) rfl rfl rfl rfl (isV_fv d) (isV_fv a.reg) (isV_fv b.reg) (isV_fv c.reg) (Raw.noFam_of hz) rfl ?_ hw
    congr 1
    exacts [rndOf_of hr, Raw.km_eq hk, vOf_fv d, vsrc_fv a, vsrc_fv b, vsrc_fv c]
  | vmin km d a b | vmax km d a b | vand km d a b | vor km d a b | vxor km d a b | vshl km d a b | vshr km d a b
  | vperm km d a b =>
    obtain rfl := Option.some.inj h
    exact decodeRaw_km2 _ (fun _ => rfl) rfl rfl
  | vabs km d a | vneg km d a | vexp2 km d a | vrcp km d a | vrsq km d a =>
    obtain rfl := Option.some.inj h
    exact decodeRaw_km1 _ (fun _ => rfl) rfl rfl
  | viadd sat km d a b | vimul sat km d a b =>
    obtain rfl := Option.some.inj h
    exact decodeRaw_kmSat _ (fun _ => rfl) rfl rfl
  | vcmp c km d a b =>
    obtain rfl := Option.some.inj h
    obtain ⟨hl, hk, hz⟩ := field_kmFam km c.code c.code_lt
    refine decodeRaw_only 0x290 4 (fun _ => rfl) rfl rfl rfl (coded_ok ((congrArg vcondOf hz).trans (vcondOf_code c))
      (vec_ok rfl rfl (isK_fk d) (isV_fv a.reg) (isV_fv b.reg) rfl (beq_iff_eq.2 hl) rfl ?_ hw))
    congr 1
    exacts [Raw.km_eq hk, kOf_fk d, vsrc_fv a, vsrc_fv b]
  | vsel d a b k =>
    obtain rfl := Option.some.inj h
    refine decodeRaw_vec 0x291 (fun _ => rfl) rfl rfl rfl rfl (isV_fv d) (isV_fv a.reg) (isV_fv b.reg) (and_ok (isK_fk k) rfl) rfl rfl ?_ hw
    congr 1
    exacts [vOf_fv d, vsrc_fv a, vsrc_fv b, kOf_fk k]
  | vredadd km d a =>
    obtain rfl := Option.some.inj h
    obtain ⟨hl, hk, hz⟩ := field_kmFam km 0 (by decide)
    refine decodeRaw_vec 0x2A0 (fun _ => rfl) rfl rfl rfl rfl rfl (isV_fv a.reg) rfl rfl (Raw.kmOnly_of hl hz) rfl ?_ hw
    congr 1
    exacts [Raw.km_eq hk, vsrc_fv a]
  | vredmax km d a =>
    obtain rfl := Option.some.inj h
    obtain ⟨hl, hk, hz⟩ := field_kmFam km 0 (by decide)
    refine decodeRaw_vec 0x2A1 (fun _ => rfl) rfl rfl rfl rfl rfl (isV_fv a.reg) rfl rfl (Raw.kmOnly_of hl hz) rfl ?_ hw
    congr 1
    exacts [Raw.km_eq hk, vsrc_fv a]
  | vrng w km d a b =>
    obtain rfl := Option.some.inj h
    obtain ⟨hl, hk, hz⟩ := field_kmFam km w.toNat (by omega)
    refine decodeRaw_vec 0x2B0 (fun _ => rfl) rfl rfl rfl rfl (isV_fv d) rfl rfl rfl (and_ok (beq_iff_eq.2 hl) (field_fam_high hz)) rfl ?_ hw
    congr 1
    exacts [field_fam_read hz, Raw.km_eq hk, vOf_fv d]
  | vld rlx km d a disp =>
    obtain rfl := Option.some.inj h
    obtain ⟨hl, hk, hz⟩ := field_kmFam km 0 (by decide)
    refine decodeRaw_fields 0x300 4 (fun _ => rfl) rfl rfl rfl (and_ok (and_ok rfl (Raw.kmOnly_of hl hz)) (and_ok (and_ok (isV_fv d) rfl) rfl))
      ?_ hw
    congr 1
    exacts [Raw.km_eq hk, vOf_fv d]
  | vst rlx km a s disp =>
    obtain rfl := Option.some.inj h
    obtain ⟨hl, hk, hz⟩ := field_kmFam km 0 (by decide)
    refine decodeRaw_fields 0x301 4 (fun _ => rfl) rfl rfl rfl (and_ok (and_ok rfl (Raw.kmOnly_of hl hz)) (and_ok (and_ok rfl (isV_fv s.reg))
      rfl)) ?_ hw
    congr 1
    exacts [Raw.km_eq hk, vsrc_fv s]
  | vgath rlx km d a i disp =>
    obtain rfl := Option.some.inj h
    obtain ⟨hl, hk, hz⟩ := field_kmFam km 0 (by decide)
    refine decodeRaw_fields 0x302 4 (fun _ => rfl) rfl rfl rfl (and_ok (and_ok rfl (Raw.kmOnly_of hl hz))
      (and_ok (and_ok (isV_fv d) (isV_fv i.reg)) rfl)) ?_ hw
    congr 1
    exacts [Raw.km_eq hk, vOf_fv d, vsrc_fv i]
  | vscat rlx km a i s disp =>
    obtain rfl := Option.some.inj h
    obtain ⟨hl, hk, hz⟩ := field_kmFam km 0 (by decide)
    refine decodeRaw_fields 0x303 4 (fun _ => rfl) rfl rfl rfl (and_ok (and_ok rfl (Raw.kmOnly_of hl hz)) (and_ok (and_ok rfl (isV_fv i.reg))
      (isV_fv s.reg))) ?_ hw
    congr 1
    exacts [Raw.km_eq hk, vsrc_fv i, vsrc_fv s]
  | vbcast km d a =>
    obtain rfl := Option.some.inj h
    obtain ⟨hl, hk, hz⟩ := field_kmFam km 0 (by decide)
    refine decodeRaw_vec 0x308 (fun _ => rfl) rfl rfl rfl rfl (isV_fv d) rfl rfl rfl (Raw.kmOnly_of hl hz) rfl ?_ hw
    congr 1
    exacts [Raw.km_eq hk, vOf_fv d]
  | vext d a lane =>
    obtain rfl := Option.some.inj h
    refine decodeRaw_vec 0x309 (fun _ => rfl) rfl rfl rfl rfl rfl (isV_fv a.reg) rfl rfl rfl (field_high lane (by decide)) ?_ hw
    congr 1
    exacts [vsrc_fv a, field_read lane (by decide)]
  | vins d a b lane =>
    obtain rfl := Option.some.inj h
    refine decodeRaw_vec 0x30A (fun _ => rfl) rfl rfl rfl rfl (isV_fv d) (isV_fv a.reg) rfl rfl rfl (field_high lane (by decide)) ?_ hw
    congr 1
    exacts [vOf_fv d, vsrc_fv a, field_read lane (by decide)]
  | vcvt dfmt sfmt rnd sat km d a =>
    obtain rfl := Option.some.inj h
    obtain ⟨hr, hs, hk, hz⟩ := field_rndSatKm rnd sat km
    obtain ⟨hdf, hsf, hy⟩ := field_fmtPair dfmt sfmt
    refine decodeRaw_only 0x310 4 (fun _ => rfl) rfl rfl rfl (coded_ok ((congrArg fmtOf hdf).trans (fmtOf_code dfmt))
      (coded_ok ((congrArg fmtOf hsf).trans (fmtOf_code sfmt))
        (vec_ok rfl rfl (isV_fv d) (isV_fv a.reg) rfl rfl (Raw.noFam_of hz) hy ?_ hw)))
    congr 1
    exacts [rndOf_of hr, Raw.km_eq hk, vOf_fv d, vsrc_fv a]
  | vqnt fmt km d a =>
    obtain rfl := Option.some.inj h
    obtain ⟨hl, hk, hz⟩ := field_kmFam km fmt.code fmt.code_lt
    refine decodeRaw_only 0x311 4 (fun _ => rfl) rfl rfl rfl (coded_ok ((congrArg fmtOf hz).trans (fmtOf_code fmt))
      (vec_ok rfl rfl (isV_fv d) (isV_fv a.reg) rfl rfl (beq_iff_eq.2 hl) rfl ?_ hw))
    congr 1
    exacts [Raw.km_eq hk, vOf_fv d, vsrc_fv a]
  | kand d a b =>
    obtain rfl := Option.some.inj h
    refine decodeRaw_vec 0x318 (fun _ => rfl) rfl rfl rfl rfl (isK_fk d) (and_ok (isK_fk a) rfl) (and_ok (isK_fk b) rfl) rfl rfl rfl ?_ hw
    congr 1
    exacts [kOf_fk d, kOf_fk a, kOf_fk b]
  | kor d a b =>
    obtain rfl := Option.some.inj h
    refine decodeRaw_vec 0x319 (fun _ => rfl) rfl rfl rfl rfl (isK_fk d) (and_ok (isK_fk a) rfl) (and_ok (isK_fk b) rfl) rfl rfl rfl ?_ hw
    congr 1
    exacts [kOf_fk d, kOf_fk a, kOf_fk b]
  | knot d a =>
    exact Option.some.inj h ▸ decodeRaw_vec 0x31A (fun _ => rfl) rfl rfl rfl rfl (isK_fk d) (and_ok (isK_fk a) rfl) rfl rfl rfl rfl
      (congrArg₂ Instr.knot (kOf_fk d) (kOf_fk a)) hw
  | kpop d a =>
    exact Option.some.inj h ▸ decodeRaw_vec 0x31B (fun _ => rfl) rfl rfl rfl rfl rfl (and_ok (isK_fk a) rfl) rfl rfl rfl rfl
      (congrArg (Instr.kpop d) (kOf_fk a)) hw
  | nop => exact Option.some.inj h ▸ decodeRaw_of_group 0x380 rfl rfl rfl
  | trap n =>
    exact Option.some.inj h ▸ decodeRaw_sys 0x381 (fun _ => rfl) rfl rfl rfl rfl rfl rfl rfl rfl rfl (field_high n (by decide))
      (congrArg Instr.trap (field_read n (by decide))) hw
  | tret => exact Option.some.inj h ▸ decodeRaw_of_group 0x382 rfl rfl rfl
  | rds d n =>
    exact Option.some.inj h ▸ decodeRaw_sys 0x383 (fun _ => rfl) rfl rfl rfl rfl rfl rfl rfl rfl rfl (field_high n (by decide))
      (congrArg (Instr.rds d) (field_read n (by decide))) hw
  | wrs a n =>
    exact Option.some.inj h ▸ decodeRaw_sys 0x384 (fun _ => rfl) rfl rfl rfl rfl rfl rfl rfl rfl rfl (field_high n (by decide))
      (congrArg (Instr.wrs a) (field_read n (by decide))) hw
  | tinv a b => exact Option.some.inj h ▸ decodeRaw_of_group 0x385 rfl rfl rfl
  | bkpt => exact Option.some.inj h ▸ decodeRaw_of_group 0x386 rfl rfl rfl
  | ill => exact Option.some.inj h ▸ rfl
  | _ => cases h

end Sys2Proof
end

section

/-!
What becomes of every word (R73, R76, R359): one that decodes is the word of a well-formed instruction, one whose opcode permits
its format decodes or raises ILLEGAL_FIELD, every other one raises ILLEGAL_OP, and the opcode of ILL is ILL alone.
-/

namespace Sys2Proof

open Machine


/-- The formats that an opcode permits, none for one that is not assigned (R76). -/
def formatsOf (op : Nat) : List Nat := opcodes.flatMap fun row => if row.1 ≤ op ∧ op ≤ row.2.1 then row.2.2 else []

theorem permits_eq (op fmt : Nat) : permits op fmt = decide (fmt ∈ formatsOf op) := by
  unfold permits formatsOf
  rw [Bool.eq_iff_iff]
  simp [List.mem_flatMap, and_assoc]

/-- A word and the instruction that it decodes to agree: the instruction is well-formed and the word is its word. -/
def Encodes (r : Raw) (j : Instr) : Prop := j.wf = true ∧ encodeRaw j = some r

/-- What becomes of a word whose format its opcode permits (R73 checks 5 and 6). -/
def FieldsFate (r : Raw) (d : DecRes) : Prop := (∀ j, d = .ok j → Encodes r j) ∧ ∀ f, d = .bad f → f = .illegalField

/-- What becomes of a word (R73 checks 1 to 6). -/
def Fate (r : Raw) (d : DecRes) : Prop :=
  (r.fmt.toNat ∈ formatsOf r.op.toNat → FieldsFate r d) ∧ (r.fmt.toNat ∉ formatsOf r.op.toNat → d = .bad .illegalOp)

theorem bad_ne_ok {f : FaultCode} {j : Instr} : DecRes.bad f ≠ .ok j := fun h => DecRes.noConfusion h

theorem fieldsFate_illegalField {r : Raw} : FieldsFate r (.bad .illegalField) :=
  ⟨fun _ h => absurd h bad_ne_ok, fun _ h => (DecRes.bad.inj h).symm⟩

theorem fieldsFate_fieldsOk {r : Raw} {c : Bool} {i : Instr} (h : c = true → encodeRaw i = some r) : FieldsFate r (fieldsOk c i) := by
  unfold fieldsOk
  split
  next hc =>
    rw [Bool.and_eq_true] at hc
    exact ⟨fun j hj => DecRes.ok.inj hj ▸ ⟨hc.2, h hc.1⟩, fun f hf => absurd hf.symm bad_ne_ok⟩
  next => exact fieldsFate_illegalField

theorem fieldsFate_coded {α : Type} {r : Raw} {x : Option α} {k : α → DecRes} (h : ∀ a, x = some a → FieldsFate r (k a)) :
    FieldsFate r (coded x k) := by
  cases x with
  | none => exact fieldsFate_illegalField
  | some a => exact h a rfl

theorem only_pos {r : Raw} {f : BitVec 3} {d : DecRes} (hf : r.fmt = f) : only r f d = d := if_pos hf

/-- An opcode of one format. -/
theorem fate_only {r : Raw} {f : BitVec 3} {d : DecRes} {op : BitVec 10} (ho : r.op.toNat = op.toNat) (hF : formatsOf op.toNat = [f.toNat])
    (h : r.fmt = f → FieldsFate r d) :
    Fate r (only r f d) := by
  unfold Fate only
  rw [ho, hF]
  simp only [List.mem_singleton, BitVec.toNat_inj]
  exact ⟨fun hf => by rw [if_pos hf]; exact h hf, fun hf => if_neg hf⟩

/-- An opcode of two formats. -/
theorem fate_either {r : Raw} {f f' : BitVec 3} {d d' : DecRes} {op : BitVec 10} (ho : r.op.toNat = op.toNat)
    (hF : formatsOf op.toNat = [f.toNat, f'.toNat])
    (h : r.fmt = f → FieldsFate r d) (h' : r.fmt = f' → FieldsFate r d') : Fate r (either r f d f' d') := by
  unfold Fate either
  rw [ho, hF]
  simp only [List.mem_cons, List.not_mem_nil, or_false, BitVec.toNat_inj]
  constructor
  · intro hf
    split
    next hf => exact h hf
    next hne => rw [if_pos (hf.resolve_left hne)]; exact h' (hf.resolve_left hne)
  · intro hf
    rw [if_neg fun e => hf (.inl e), if_neg fun e => hf (.inr e)]

/-- The fields that a form uses as they stand, the others zero. -/
def Raw.used (r : Raw) (op : BitVec 10) (fmt : BitVec 3) (rlx d a b c : Bool) (mod : BitVec 9) (imm : BitVec 48) : Raw :=
  { op := op, fmt := fmt, rlx := rlx, b81 := false, dk := false
    dst := if d then r.dst else 0, syna := a && r.syna, sa := if a then r.sa else 0, synb := b && r.synb, sb := if b then r.sb else 0
    sync := c && r.sync, sc := if c then r.sc else 0, mod := mod, imm := imm }

theorem Raw.plain_iff {r : Raw} : r.plain = true ↔ r.b81 = false ∧ r.rlx = false ∧ r.dk = false := by
  simp [Raw.plain, and_assoc]

theorem Raw.noA_iff {r : Raw} : r.noA = true ↔ r.sa = 0 ∧ r.syna = false := by simp [Raw.noA]
theorem Raw.noB_iff {r : Raw} : r.noB = true ↔ r.sb = 0 ∧ r.synb = false := by simp [Raw.noB]
theorem Raw.noC_iff {r : Raw} : r.noC = true ↔ r.sc = 0 ∧ r.sync = false := by simp [Raw.noC]
theorem Raw.noD_iff {r : Raw} : r.noD = true ↔ r.dst = 0 := by simp [Raw.noD]
theorem Raw.i0_iff {r : Raw} : r.i0 = true ↔ r.imm = 0 := by simp [Raw.i0]

theorem kept_or_zero {w : Nat} {c : Bool} {x : BitVec w} (h : c = true ∨ x = 0) : (if c then x else 0) = x := by
  rcases h with rfl | rfl
  · rfl
  · exact ite_self _

theorem flag_kept {c b : Bool} (h : c = true ∨ b = false) : (c && b) = b := by
  rcases h with rfl | rfl
  · exact Bool.true_and b
  · exact Bool.and_false c

/-- A form's checks leave a word with nothing but the fields that the form uses. -/
theorem Raw.eq_used {r : Raw} {op : BitVec 10} {fmt : BitVec 3} {rlx d a b c : Bool} {mod : BitVec 9} {imm : BitVec 48} (ho : r.op = op)
    (hf : r.fmt = fmt) (hp : r.b81 = false ∧ r.rlx = rlx ∧ r.dk = false) (hd : (d || r.noD) = true) (ha : (a || r.noA) = true)
    (hb : (b || r.noB) = true) (hc : (c || r.noC) = true) (hm : r.mod = mod) (hi : r.imm = imm) :
    r.used op fmt rlx d a b c mod imm = r := by
  rw [Bool.or_eq_true, Raw.noD_iff] at hd
  rw [Bool.or_eq_true, Raw.noA_iff] at ha
  rw [Bool.or_eq_true, Raw.noB_iff] at hb
  rw [Bool.or_eq_true, Raw.noC_iff] at hc
  rw [Raw.used, kept_or_zero hd, flag_kept (ha.imp id And.right), kept_or_zero (ha.imp id And.left), flag_kept (hb.imp id And.right),
    kept_or_zero (hb.imp id And.left), flag_kept (hc.imp id And.right), kept_or_zero (hc.imp id And.left)]
  obtain ⟨op, fmt, rlx, b81, dk, dst, syna, sa, synb, sb, sync, sc, mod, imm⟩ := r
  obtain ⟨rfl, rfl, rfl⟩ := hp
  subst ho hf hm hi
  rfl

/-! What a field holds, from the numbers read from it. -/

theorem Rnd.code_rndOf (n : Nat) : (rndOf n).code = n % 4 := by
  have h := Nat.mod_lt n (show 0 < 4 by decide)
  unfold rndOf
  generalize n % 4 = k at h ⊢
  match k, h with
  | 0, _ | 1, _ | 2, _ | 3, _ => rfl

theorem Size.code_sizeOf2 (n : Nat) : (sizeOf2 n).code = n % 4 := by
  have h := Nat.mod_lt n (show 0 < 4 by decide)
  unfold sizeOf2
  generalize n % 4 = k at h ⊢
  match k, h with
  | 0, _ | 1, _ | 2, _ | 3, _ => rfl

theorem CollOp.code_collOf (n : Nat) : (collOf n).code = n % 4 := by
  have h := Nat.mod_lt n (show 0 < 4 by decide)
  unfold collOf
  generalize n % 4 = k at h ⊢
  match k, h with
  | 0, _ | 1, _ | 2, _ | 3, _ => rfl

theorem Fmt.code_of_fmtOf {n : Nat} {f : Fmt} (h : fmtOf n = some f) : f.code = n := by
  unfold fmtOf at h
  split at h <;> cases h <;> rfl

theorem Quad.code_of_quadOf {n : Nat} {q : Quad} (h : quadOf n = some q) : q.code = n := by
  unfold quadOf at h
  split at h <;> cases h <;> rfl

theorem Scope.code_of_scopeOf {n : Nat} {c : Scope} (h : scopeOf n = some c) : c.code = n := by
  unfold scopeOf at h
  split at h <;> cases h <;> rfl

theorem CmpCond.code_of_cmpOf {n : Nat} {c : CmpCond} (h : cmpOf n = some c) : c.code = n := by
  unfold cmpOf at h
  split at h <;> cases h <;> rfl

theorem SemCond.code_of_semOf {n : Nat} {c : SemCond} (h : semOf n = some c) : c.code = n := by
  unfold semOf at h
  split at h <;> cases h <;> rfl

theorem VCond.code_of_vcondOf {n : Nat} {c : VCond} (h : vcondOf n = some c) : c.code = n := by
  unfold vcondOf at h
  split at h <;> cases h <;> rfl

theorem eq_ofNat_of_toNat {w n : Nat} {x : BitVec w} (h : x.toNat = n) : x = BitVec.ofNat w n := by
  rw [← h, BitVec.ofNat_toNat, BitVec.setWidth_eq]

theorem eq_ofNat_ofNat {w n : Nat} {x : BitVec w} (h : (x.toNat / 2 ^ n == 0) = true) : x = BitVec.ofNat w (BitVec.ofNat n x.toNat).toNat := by
  rw [beq_iff_eq, Nat.div_eq_zero_iff] at h
  refine eq_ofNat_of_toNat ?_
  rw [BitVec.toNat_ofNat, Nat.mod_eq_of_lt (h.resolve_left (Nat.two_pow_pos n).ne')]

theorem bit_toNat (n k : Nat) : (n / k % 2 == 1).toNat = n / k % 2 := toNat_beq_one _ (Nat.mod_lt _ two_pos)

section
variable {r : Raw}

theorem Raw.mod_flag (h : (r.mod.toNat / 2 == 0) = true) : r.mod = BitVec.ofNat 9 (r.mb 0).toNat := by
  rw [beq_iff_eq] at h
  refine eq_ofNat_of_toNat ?_
  rw [Raw.mb, bit_toNat]; omega

theorem Raw.mod_size (h : (r.mod.toNat / 8 == 0) = true) : r.mod = BitVec.ofNat 9 ((sizeOf2 r.mod.toNat).code + 4 * (r.mb 2).toNat) := by
  rw [beq_iff_eq] at h
  refine eq_ofNat_of_toNat ?_
  rw [Raw.mb, bit_toNat, Size.code_sizeOf2]; omega

theorem Raw.mod_sizeOnly (h : (r.mod.toNat / 4 == 0) = true) : r.mod = BitVec.ofNat 9 (sizeOf2 r.mod.toNat).code := by
  rw [beq_iff_eq] at h
  refine eq_ofNat_of_toNat ?_
  rw [Size.code_sizeOf2]; omega

theorem Raw.mod_rndSatKm (h : r.noFam = true) :
    r.mod = BitVec.ofNat 9 ((rndOf r.mod.toNat).code + 4 * (r.mb 2).toNat + 8 * r.km.val) := by
  rw [Raw.noFam, beq_iff_eq] at h
  refine eq_ofNat_of_toNat ?_
  rw [Raw.mb, bit_toNat, Rnd.code_rndOf, Raw.km]; dsimp only; omega

theorem Raw.mod_satKm (h : r.kmSat = true) : r.mod = BitVec.ofNat 9 (4 * (r.mb 2).toNat + 8 * r.km.val) := by
  rw [Raw.kmSat, Bool.and_eq_true, beq_iff_eq, beq_iff_eq] at h
  refine eq_ofNat_of_toNat ?_
  rw [Raw.mb, bit_toNat, Raw.km]; dsimp only; omega

theorem Raw.mod_km (h : r.kmOnly = true) : r.mod = BitVec.ofNat 9 (8 * r.km.val) := by
  rw [Raw.kmOnly, Bool.and_eq_true, beq_iff_eq, beq_iff_eq] at h
  refine eq_ofNat_of_toNat ?_
  rw [Raw.km]; dsimp only; omega

theorem Raw.mod_kmFam {n : Nat} (h : (r.mod.toNat % 8 == 0) = true) (hn : n = r.mod.toNat / 32) :
    r.mod = BitVec.ofNat 9 (8 * r.km.val + 32 * n) := by
  rw [beq_iff_eq] at h
  refine eq_ofNat_of_toNat ?_
  rw [Raw.km]; dsimp only; omega

theorem Raw.mod_fmtFlags {f : Fmt} (h : (r.mod.toNat / 2 ^ 7 == 0) = true) (hf : fmtOf (r.mod.toNat % 16) = some f) :
    r.mod = BitVec.ofNat 9 (f.code + 16 * (r.mb 4).toNat + 32 * (r.mb 5).toNat + 64 * (r.mb 6).toNat) := by
  rw [beq_iff_eq] at h
  refine eq_ofNat_of_toNat ?_
  rw [Raw.mb, Raw.mb, Raw.mb, bit_toNat, bit_toNat, bit_toNat, Fmt.code_of_fmtOf hf]; omega

theorem Raw.mod_fmtRndSat {f : Fmt} (h : (r.mod.toNat / 2 ^ 7 == 0) = true) (hf : fmtOf (r.mod.toNat % 16) = some f) :
    r.mod = BitVec.ofNat 9 (f.code + 16 * (rndOf (r.mod.toNat / 16)).code + 64 * (r.mb 6).toNat) := by
  rw [beq_iff_eq] at h
  refine eq_ofNat_of_toNat ?_
  rw [Raw.mb, bit_toNat, Rnd.code_rndOf, Fmt.code_of_fmtOf hf]; omega

theorem Raw.mod_fmtFlag {f : Fmt} (h : (r.mod.toNat / 2 ^ 5 == 0) = true) (hf : fmtOf (r.mod.toNat % 16) = some f) :
    r.mod = BitVec.ofNat 9 (f.code + 16 * (r.mb 4).toNat) := by
  rw [beq_iff_eq] at h
  refine eq_ofNat_of_toNat ?_
  rw [Raw.mb, bit_toNat, Fmt.code_of_fmtOf hf]; omega

theorem Raw.tgt_imm (r : Raw) : r.imm = r.tgt.imm := by
  refine eq_ofNat_of_toNat ?_
  have := r.imm.isLt
  simp only [Raw.tgt, BitVec.toNat_ofNat]
  omega

theorem Raw.imm_pair {a b : Nat} (h : (r.imm.toNat / 2 ^ (a + b) == 0) = true) :
    r.imm = BitVec.ofNat 48 ((BitVec.ofNat a r.imm.toNat).toNat + (BitVec.ofNat b (r.imm.toNat / 2 ^ a)).toNat * 2 ^ a) := by
  rw [beq_iff_eq, Nat.pow_add, ← Nat.div_div_eq_div_mul, Nat.div_eq_zero_iff] at h
  refine eq_ofNat_of_toNat ?_
  rw [BitVec.toNat_ofNat, BitVec.toNat_ofNat, Nat.mod_eq_of_lt (h.resolve_left (Nat.two_pow_pos b).ne'), Nat.mul_comm, Nat.mod_add_div]

theorem Raw.imm_nk {b c : Nat} (h : (r.imm.toNat / 2 ^ (14 + b) == 0) = true) (hc : c = r.imm.toNat % 16) :
    r.imm = BitVec.ofNat 48 (c + 16 * (BitVec.ofNat 10 (r.imm.toNat / 16)).toNat + 2 ^ 14 * (BitVec.ofNat b (r.imm.toNat / 2 ^ 14)).toNat) := by
  rw [beq_iff_eq, Nat.pow_add, ← Nat.div_div_eq_div_mul, Nat.div_eq_zero_iff] at h
  refine eq_ofNat_of_toNat ?_
  rw [BitVec.toNat_ofNat, BitVec.toNat_ofNat, Nat.mod_eq_of_lt (h.resolve_left (Nat.two_pow_pos b).ne')]
  omega

end

theorem fv_vOf {x : BitVec 5} (h : isV x = true) : fv (vOf x) = x := by
  rw [isV, decide_eq_true_iff] at h
  refine (eq_ofNat_of_toNat ?_).symm
  exact (Nat.mod_eq_of_lt h).symm

theorem fk_kOf {x : BitVec 5} (h : isK x = true) : fk (kOf x) = x := by
  rw [isK, decide_eq_true_iff] at h
  refine (eq_ofNat_of_toNat ?_).symm
  exact (Nat.mod_eq_of_lt h).symm

section
variable {r : Raw}

/-- A word of group 000 on registers is the one written from its own fields. -/
theorem eRRR_of {op : BitVec 10} {n : Nat} (ho : r.op.toNat = op.toNat) (hf : r.fmt = 0) (ha : r.alu = true) (hi : r.i0 = true)
    (hm : r.mod = BitVec.ofNat 9 n) : eRRR op n r.dest r.ga r.gb = r := by
  obtain ⟨op, fmt, rlx, b81, dk, dst, syna, sa, synb, sb, sync, sc, mod, imm⟩ := r
  simp only [Raw.alu, Raw.i0_iff, Bool.and_eq_true, Bool.not_eq_true', Bool.or_eq_true, Raw.noC_iff] at hf ha hi hm
  obtain ⟨⟨rfl, rfl⟩, hc⟩ := ha
  obtain rfl := BitVec.eq_of_toNat_eq ho
  subst hf hi hm
  cases dk with
  | true => rfl
  | false =>
    obtain ⟨rfl, rfl⟩ := hc.resolve_left Bool.false_ne_true
    rfl

/-- A word of group 000 on an immediate is the one written from its own fields. -/
theorem eRRI_setB_of {op : BitVec 10} {n : Nat} {x : BitVec 48} (ho : r.op.toNat = op.toNat) (hf : r.fmt = 1) (ha : r.alu = true)
    (hm : r.mod = BitVec.ofNat 9 n) (hx : r.imm = x) : (eRRI op n r.dest r.ga x).setB r.gb = r := by
  obtain ⟨op, fmt, rlx, b81, dk, dst, syna, sa, synb, sb, sync, sc, mod, imm⟩ := r
  simp only [Raw.alu, Bool.and_eq_true, Bool.not_eq_true', Bool.or_eq_true, Raw.noC_iff] at hf ha hm hx
  obtain ⟨⟨rfl, rfl⟩, hc⟩ := ha
  obtain rfl := BitVec.eq_of_toNat_eq ho
  subst hf hm hx
  cases dk with
  | true => rfl
  | false =>
    obtain ⟨rfl, rfl⟩ := hc.resolve_left Bool.false_ne_true
    rfl

theorem ga_of_noA (h : r.noA = true) : r.ga = ⟨0, false⟩ := by
  obtain ⟨h1, h2⟩ := Raw.noA_iff.1 h
  rw [Raw.ga, h1, h2]; rfl

theorem gb_of_noB (h : r.noB = true) : r.gb = ⟨0, false⟩ := by
  obtain ⟨h1, h2⟩ := Raw.noB_iff.1 h
  rw [Raw.gb, h1, h2]; rfl

theorem eRRI_of {op : BitVec 10} {n : Nat} {x : BitVec 48} (ho : r.op.toNat = op.toNat) (hf : r.fmt = 1) (ha : r.alu = true) (hb : r.noB = true)
    (hm : r.mod = BitVec.ofNat 9 n) (hx : r.imm = x) : eRRI op n r.dest r.ga x = r := by
  have e : eRRI op n r.dest r.ga x = (eRRI op n r.dest r.ga x).setB ⟨0, false⟩ := by cases r.dest <;> rfl
  rw [e, ← gb_of_noB hb, eRRI_setB_of ho hf ha hm hx]

theorem fate_aluRR {m : Bool} {k : Dst → Src → Src → Instr} {k' : Dst → Src → BitVec 48 → Instr} (op : BitVec 10) (n : Nat)
    (ho : r.op.toNat = op.toNat) (hF : formatsOf op.toNat = [0, 1]) (hm : m = true → r.mod = BitVec.ofNat 9 n)
    (he : ∀ d a b, encodeRaw (k d a b) = some (eRRR op n d a b)) (he' : ∀ d a x, encodeRaw (k' d a x) = some (eRRI op n d a x)) :
    Fate r (aluRR r m k k') := by
  refine fate_either ho hF (fun hf => fieldsFate_fieldsOk fun hc => ?_) (fun hf => fieldsFate_fieldsOk fun hc => ?_)
  · simp only [Bool.and_eq_true] at hc
    obtain ⟨⟨ha, hx⟩, hi⟩ := hc
    rw [he, eRRR_of ho hf ha hi (hm hx)]
  · simp only [Bool.and_eq_true] at hc
    obtain ⟨⟨ha, hx⟩, hb⟩ := hc
    rw [he', eRRI_of ho hf ha hb (hm hx) rfl]

/-- A word that its checks leave with the fields of a form is the word of that form. -/
theorem fieldsFate_used {C rlx d a b c : Bool} {i : Instr} {op : BitVec 10} {f : BitVec 3} {mod : BitVec 9} {imm : BitVec 48}
    (ho : r.op.toNat = op.toNat) (hf : r.fmt = f)
    (hC : C = true → (r.b81 = false ∧ r.rlx = rlx ∧ r.dk = false) ∧ (d || r.noD) = true ∧ (a || r.noA) = true ∧ (b || r.noB) = true ∧
      (c || r.noC) = true
      ∧ r.mod = mod ∧ r.imm = imm)
    (he : C = true → encodeRaw i = some (r.used op f rlx d a b c mod imm)) : FieldsFate r (fieldsOk C i) := by
  refine fieldsFate_fieldsOk fun hc => ?_
  obtain ⟨hp, hd, ha, hb, hc', hm, hi⟩ := hC hc
  rw [he hc, Raw.eq_used (BitVec.eq_of_toNat_eq ho) hf hp hd ha hb hc' hm hi]

theorem fate_used {C rlx : Bool} {i : Instr} {f : BitVec 3} {imm : BitVec 48} (op : BitVec 10) (d a b c : Bool) (mod : BitVec 9)
    (ho : r.op.toNat = op.toNat) (hF : formatsOf op.toNat = [f.toNat])
    (hC : C = true → (r.b81 = false ∧ r.rlx = rlx ∧ r.dk = false) ∧ (d || r.noD) = true ∧ (a || r.noA) = true ∧ (b || r.noB) = true ∧
      (c || r.noC) = true
      ∧ r.mod = mod ∧ r.imm = imm)
    (he : C = true → encodeRaw i = some (r.used op f rlx d a b c mod imm)) : Fate r (only r f (fieldsOk C i)) :=
  fate_only ho hF fun hf => fieldsFate_used ho hf hC he

theorem only_only {f : BitVec 3} {d : DecRes} : only r f (only r f d) = only r f d := by
  unfold only
  split <;> rfl

theorem fieldsFate_rrr {d a b c m : Bool} {i : Instr} {op : BitVec 10} {mod : BitVec 9} (ho : r.op.toNat = op.toNat) (hf : r.fmt = 0)
    (hm : m = true → r.mod = mod) (he : m = true → encodeRaw i = some (r.used op 0 false d a b c mod 0)) : FieldsFate r (rrr r d a b c m i) := by
  unfold rrr
  rw [only_pos hf]
  refine fieldsFate_used ho hf (fun hc => ?_) fun hc => he (Bool.and_eq_true_iff.1 hc).2
  simp only [Bool.and_eq_true, Raw.i0_iff] at hc
  obtain ⟨⟨⟨⟨⟨⟨hp, hi⟩, hd⟩, ha⟩, hb⟩, hc⟩, hx⟩ := hc
  exact ⟨Raw.plain_iff.1 hp, hd, ha, hb, hc, hm hx, hi⟩

theorem fate_rrr {d a b c m : Bool} {i : Instr} (op : BitVec 10) (mod : BitVec 9) (ho : r.op.toNat = op.toNat) (hF : formatsOf op.toNat = [0])
    (hm : m = true → r.mod = mod) (he : m = true → encodeRaw i = some (r.used op 0 false d a b c mod 0)) : Fate r (rrr r d a b c m i) := by
  have h := fate_only (f := 0) ho hF fun hf => fieldsFate_rrr ho hf hm he
  rwa [rrr, only_only] at h

theorem fate_sys {d a b immOk : Bool} {i : Instr} (op : BitVec 10) (imm : BitVec 48) (ho : r.op.toNat = op.toNat) (hF : formatsOf op.toNat = [6])
    (hi : immOk = true → r.imm = imm) (he : encodeRaw i = some (r.used op 6 false d a b false 0 imm)) :
    Fate r (sys r d a b immOk r.m0 i) := by
  refine fate_used op d a b false 0 ho hF (fun hc => ?_) fun _ => he
  simp only [Bool.and_eq_true] at hc
  obtain ⟨⟨⟨⟨⟨⟨hp, hx⟩, hd⟩, ha⟩, hb⟩, hc⟩, hm⟩ := hc
  exact ⟨Raw.plain_iff.1 hp, hd, ha, hb, hc, eq_of_beq hm, hi hx⟩

theorem fieldsFate_tile {d a b c immOk m : Bool} {i : Instr} {op : BitVec 10} {mod : BitVec 9} {imm : BitVec 48} (ho : r.op.toNat = op.toNat)
    (hf : r.fmt = 5) (hm : m = true → r.mod = mod) (hi : immOk = true → r.imm = imm)
    (he : m = true → encodeRaw i = some (r.used op 5 false d a b c mod imm)) : FieldsFate r (tile r d a b c immOk m i) := by
  unfold tile
  rw [only_pos hf]
  refine fieldsFate_used ho hf (fun hc => ?_) fun hc => he (Bool.and_eq_true_iff.1 hc).2
  simp only [Bool.and_eq_true] at hc
  obtain ⟨⟨⟨⟨⟨⟨hp, hx⟩, hd⟩, ha⟩, hb⟩, hc⟩, hm'⟩ := hc
  exact ⟨Raw.plain_iff.1 hp, hd, ha, hb, hc, hm hm', hi hx⟩

theorem fate_tile {d a b c immOk m : Bool} {i : Instr} (op : BitVec 10) (mod : BitVec 9) (imm : BitVec 48) (ho : r.op.toNat = op.toNat)
    (hF : formatsOf op.toNat = [5]) (hm : m = true → r.mod = mod) (hi : immOk = true → r.imm = imm)
    (he : m = true → encodeRaw i = some (r.used op 5 false d a b c mod imm)) : Fate r (tile r d a b c immOk m i) := by
  have h := fate_only (f := 5) ho hF fun hf => fieldsFate_tile ho hf hm hi he
  rwa [tile, only_only] at h

theorem formatsOf_eq_nil {op : Nat} (h : ∀ row ∈ opcodes, ¬ (row.1 ≤ op ∧ op ≤ row.2.1)) : formatsOf op = [] := by
  unfold formatsOf
  rw [List.flatMap_eq_nil_iff]
  exact fun row hr => if_neg (h row hr)

/-- An opcode in no row of the table is not assigned. -/
theorem fate_unassigned (h : ∀ row ∈ opcodes, ¬ (row.1 ≤ r.op.toNat ∧ r.op.toNat ≤ row.2.1)) : Fate r (.bad .illegalOp) := by
  unfold Fate
  rw [formatsOf_eq_nil h]
  exact ⟨nofun, fun _ => rfl⟩

theorem fate_aluR {k : Dst → Src → Instr} (op : BitVec 10) (ho : r.op.toNat = op.toNat) (hF : formatsOf op.toNat = [0])
    (he : ∀ d a, encodeRaw (k d a) = some (((rawOf op 0).setDst d).setA a)) : Fate r (aluR r k) := by
  refine fate_only ho hF fun hf => fieldsFate_fieldsOk fun hc => ?_
  simp only [Bool.and_eq_true] at hc
  obtain ⟨⟨⟨ha, hm⟩, hi⟩, hb⟩ := hc
  have e : eRRR op 0 r.dest r.ga r.gb = ((rawOf op 0).setDst r.dest).setA r.ga := by
    rw [gb_of_noB hb]; cases r.dest <;> rfl
  rw [he, ← e, eRRR_of ho hf ha hi (eq_of_beq hm)]

/-- An RRI word of group 000 whose encoder writes no more than an immediate beside destination and first source. -/
theorem fate_rri {C : Bool} {i : Instr} (op : BitVec 10) (x : BitVec 48) (ho : r.op.toNat = op.toNat) (hF : formatsOf op.toNat = [1])
    (hC : C = true → r.alu = true ∧ r.m0 = true ∧ r.noB = true ∧ r.imm = x) (he : encodeRaw i = some (eRRI op 0 r.dest r.ga x)) :
    Fate r (only r 1 (fieldsOk C i)) := by
  refine fate_only ho hF fun hf => fieldsFate_fieldsOk fun hc => ?_
  obtain ⟨ha, hm, hb, hx⟩ := hC hc
  rw [he, eRRI_of ho hf ha hb (eq_of_beq hm) hx]

theorem fate_fields {C : Bool} {i : Instr} {f : BitVec 3} (op : BitVec 10) (ho : r.op.toNat = op.toNat) (hF : formatsOf op.toNat = [f.toNat])
    (he : r.fmt = f → C = true → encodeRaw i = some r) : Fate r (only r f (fieldsOk C i)) :=
  fate_only ho hF fun hf => fieldsFate_fieldsOk (he hf)

theorem fate_alu (hg : r.op.toNat / 128 = 0) : Fate r (decodeAlu r r.op.toNat) := by
  unfold decodeAlu
  split
  next ho => exact fate_aluRR 0x001 0 ho rfl eq_of_beq (fun _ _ _ => rfl) fun _ _ _ => rfl
  next ho => exact fate_aluRR 0x002 0 ho rfl eq_of_beq (fun _ _ _ => rfl) fun _ _ _ => rfl
  next ho => exact fate_aluRR 0x003 0 ho rfl eq_of_beq (fun _ _ _ => rfl) fun _ _ _ => rfl
  next ho => exact fate_aluRR 0x004 _ ho rfl Raw.mod_flag (fun _ _ _ => rfl) fun _ _ _ => rfl
  next ho => exact fate_aluRR 0x005 _ ho rfl Raw.mod_flag (fun _ _ _ => rfl) fun _ _ _ => rfl
  next ho => exact fate_aluRR 0x006 _ ho rfl Raw.mod_flag (fun _ _ _ => rfl) fun _ _ _ => rfl
  next ho => exact fate_aluRR 0x007 0 ho rfl eq_of_beq (fun _ _ _ => rfl) fun _ _ _ => rfl
  next ho => exact fate_aluRR 0x008 0 ho rfl eq_of_beq (fun _ _ _ => rfl) fun _ _ _ => rfl
  next ho => exact fate_aluRR 0x009 0 ho rfl eq_of_beq (fun _ _ _ => rfl) fun _ _ _ => rfl
  next ho => exact fate_aluRR 0x00A 0 ho rfl eq_of_beq (fun _ _ _ => rfl) fun _ _ _ => rfl
  next ho => exact fate_aluRR 0x00B 0 ho rfl eq_of_beq (fun _ _ _ => rfl) fun _ _ _ => rfl
  next ho => exact fate_aluRR 0x00C 0 ho rfl eq_of_beq (fun _ _ _ => rfl) fun _ _ _ => rfl
  next ho => exact fate_aluRR 0x00D 0 ho rfl eq_of_beq (fun _ _ _ => rfl) fun _ _ _ => rfl
  next ho => exact fate_aluRR 0x00E 0 ho rfl eq_of_beq (fun _ _ _ => rfl) fun _ _ _ => rfl
  next ho => exact fate_aluR 0x00F ho rfl fun _ _ => rfl
  next ho => exact fate_aluR 0x010 ho rfl fun _ _ => rfl
  next ho => exact fate_aluR 0x011 ho rfl fun _ _ => rfl
  next ho => exact fate_aluRR 0x012 _ ho rfl Raw.mod_flag (fun _ _ _ => rfl) fun _ _ _ => rfl
  next ho => exact fate_aluRR 0x013 _ ho rfl Raw.mod_flag (fun _ _ _ => rfl) fun _ _ _ => rfl
  next ho =>
    refine fate_either (op := 0x014) ho rfl (fun hf => fieldsFate_coded fun c hx => fieldsFate_fieldsOk fun hc => ?_)
      fun hf => fieldsFate_coded fun c hx => fieldsFate_fieldsOk fun hc => ?_
    · obtain ⟨ha, hi⟩ := Bool.and_eq_true_iff.1 hc
      exact congrArg some (eRRR_of ho hf ha hi (eq_ofNat_of_toNat (CmpCond.code_of_cmpOf hx).symm))
    · obtain ⟨ha, hb⟩ := Bool.and_eq_true_iff.1 hc
      exact congrArg some (eRRI_of ho hf ha hb (eq_ofNat_of_toNat (CmpCond.code_of_cmpOf hx).symm) rfl)
  next ho => exact fate_rrr 0x015 0 ho rfl eq_of_beq fun _ => rfl
  next ho => exact fate_aluR 0x016 ho rfl fun _ _ => rfl
  next ho =>
    refine fate_fields 0x017 ho rfl fun hf hc => ?_
    simp only [Bool.and_eq_true] at hc
    obtain ⟨⟨⟨ha, hm⟩, hA⟩, hb⟩ := hc
    have e : eRRI 0x017 0 r.dest r.ga r.imm = { (rawOf 0x017 1).setDst r.dest with imm := r.imm } := by
      rw [ga_of_noA hA]; cases r.dest <;> rfl
    exact congrArg some (e.symm.trans (eRRI_of ho hf ha hb (eq_of_beq hm) rfl))
  next ho =>
    refine fate_rri 0x018 _ ho rfl (fun hc => ?_) rfl
    simp only [Bool.and_eq_true] at hc
    obtain ⟨⟨⟨ha, hm⟩, hb⟩, hx⟩ := hc
    exact ⟨ha, hm, hb, eq_ofNat_ofNat hx⟩
  next ho =>
    refine fate_fields 0x019 ho rfl fun hf hc => ?_
    simp only [Bool.and_eq_true, Bool.or_eq_true, Bool.not_eq_true'] at hc
    obtain ⟨⟨⟨ha, hm⟩, hb⟩, hn⟩ := hc
    have hr := eRRI_of (op := 0x019) ho hf ha hb (Raw.mod_flag hm) rfl
    cases hu : r.mb 0 with
    | false =>
      rw [hu] at hr
      exact congrArg some hr
    | true =>
      rw [hu, ga_of_noA (hn.resolve_left (by rw [hu]; decide))] at hr
      have e : eRRI 0x019 1 r.dest ⟨0, false⟩ r.imm = { (rawOf 0x019 1).setDst r.dest with mod := 1, imm := r.imm } := by
        cases r.dest <;> rfl
      exact congrArg some (e.symm.trans hr)
  next ho =>
    refine fate_rri 0x01A _ ho rfl (fun hc => ?_) rfl
    simp only [Bool.and_eq_true] at hc
    obtain ⟨⟨⟨ha, hm⟩, hb⟩, hx⟩ := hc
    exact ⟨ha, hm, hb, Raw.imm_pair hx⟩
  next ho =>
    refine fate_fields 0x01B ho rfl fun hf hc => ?_
    simp only [Bool.and_eq_true] at hc
    obtain ⟨⟨ha, hm⟩, hx⟩ := hc
    exact congrArg some (eRRI_setB_of ho hf ha (eq_of_beq hm) (Raw.imm_pair hx))
  next ho =>
    refine fate_rri 0x01C _ ho rfl (fun hc => ?_) rfl
    simp only [Bool.and_eq_true] at hc
    obtain ⟨⟨⟨ha, hm⟩, hb⟩, hx⟩ := hc
    exact ⟨ha, hm, hb, eq_ofNat_ofNat hx⟩
  next =>
    refine fate_unassigned ?_
    simp only [opcodes, List.forall_mem_cons, List.not_mem_nil, IsEmpty.forall_iff, implies_true, and_true, imp_false] at *
    omega

end

section
variable {r : Raw}

theorem Raw.mem_iff {r : Raw} : r.mem = true ↔ r.b81 = false ∧ r.rlx = r.rlx ∧ r.dk = false := by simp [Raw.mem]

theorem Raw.mod_coll (h : (r.mod.toNat / 4 == 0) = true) : r.mod = BitVec.ofNat 9 (collOf r.mod.toNat).code := by
  rw [beq_iff_eq] at h
  refine eq_ofNat_of_toNat ?_
  rw [CollOp.code_collOf]; omega

theorem Raw.imm_quad {c : Nat} (h : (r.imm.toNat / 16 == 0) = true) (hc : c = r.imm.toNat % 16) : r.imm = BitVec.ofNat 48 c := by
  rw [beq_iff_eq] at h
  refine eq_ofNat_of_toNat ?_
  omega

theorem Raw.imm_quadN {c : Nat} (h : (r.imm.toNat / 2 ^ 14 == 0) = true) (hc : c = r.imm.toNat % 16) :
    r.imm = BitVec.ofNat 48 (c + 16 * (BitVec.ofNat 10 (r.imm.toNat / 16)).toNat) := by
  rw [beq_iff_eq] at h
  refine eq_ofNat_of_toNat ?_
  rw [BitVec.toNat_ofNat]; omega

theorem Raw.imm_nk_zero (h : (r.imm.toNat % 16 == 0 && r.imm.toNat / 2 ^ 24 == 0) = true) :
    r.imm = BitVec.ofNat 48 (16 * (BitVec.ofNat 10 (r.imm.toNat / 16)).toNat + 2 ^ 14 * (BitVec.ofNat 10 (r.imm.toNat / 2 ^ 14)).toNat) := by
  obtain ⟨h0, h⟩ := Bool.and_eq_true_iff.1 h
  have e := Raw.imm_nk (r := r) (b := 10) h (beq_iff_eq.1 h0).symm
  rwa [Nat.zero_add] at e

theorem fieldsFate_ld (ho : r.op.toNat = 0x100) (hf : r.fmt = 2) : FieldsFate r (decodeLd r) := by
  unfold decodeLd
  dsimp only
  split
  next hp =>
    refine fieldsFate_used (op := 0x100) (d := true) (a := true) (b := false) (c := false) (rlx := r.rlx) ho hf (fun hc => ?_) fun _ => rfl
    simp only [Bool.and_eq_true, beq_iff_eq] at hc
    obtain ⟨⟨⟨hx, hm⟩, hb⟩, hc⟩ := hc
    exact ⟨Raw.mem_iff.1 hx, rfl, rfl, hb, hc, Raw.mod_size (by rw [beq_iff_eq]; omega), rfl⟩
  next =>
    split
    next hp =>
      refine fieldsFate_used (op := 0x100) (d := true) (a := true) (b := false) (c := false) (rlx := false) ho hf (fun hc => ?_) fun _ => rfl
      simp only [Bool.and_eq_true, beq_iff_eq, Bool.not_eq_true'] at hc
      obtain ⟨⟨⟨⟨⟨hx, hm⟩, hb⟩, hc⟩, hr⟩, hs⟩ := hc
      obtain ⟨h1, -, h2⟩ := Raw.mem_iff.1 hx
      exact ⟨⟨h1, hr, h2⟩, rfl, rfl, hb, hc, eq_ofNat_of_toNat (by omega), rfl⟩
    next =>
      split
      next hp =>
        refine fieldsFate_used (op := 0x100) (d := true) (a := true) (b := false) (c := false) (rlx := false) ho hf (fun hc => ?_) fun _ => rfl
        simp only [Bool.and_eq_true, beq_iff_eq, Bool.not_eq_true'] at hc
        obtain ⟨⟨⟨⟨⟨hx, hm⟩, hb⟩, hc⟩, hr⟩, hs⟩ := hc
        obtain ⟨h1, -, h2⟩ := Raw.mem_iff.1 hx
        exact ⟨⟨h1, hr, h2⟩, rfl, rfl, hb, hc, eq_ofNat_of_toNat (by omega), rfl⟩
      next => exact fieldsFate_illegalField

theorem fieldsFate_st (ho : r.op.toNat = 0x101) (hf : r.fmt = 2) : FieldsFate r (decodeSt r) := by
  unfold decodeSt
  dsimp only
  split
  next hp =>
    refine fieldsFate_used (op := 0x101) (d := false) (a := true) (b := true) (c := false) (rlx := r.rlx) ho hf (fun hc => ?_) fun _ => rfl
    simp only [Bool.and_eq_true, beq_iff_eq, Bool.not_eq_true'] at hc
    obtain ⟨⟨⟨⟨hx, hm⟩, hd⟩, hc⟩, hz⟩ := hc
    simp only [Raw.mb, beq_eq_false_iff_ne] at hz
    exact ⟨Raw.mem_iff.1 hx, hd, rfl, rfl, hc, Raw.mod_sizeOnly (by rw [beq_iff_eq]; omega), rfl⟩
  next =>
    split
    next hp =>
      refine fieldsFate_used (op := 0x101) (d := false) (a := true) (b := true) (c := false) (rlx := false) ho hf (fun hc => ?_) fun _ => rfl
      simp only [Bool.and_eq_true, beq_iff_eq, Bool.not_eq_true'] at hc
      obtain ⟨⟨⟨⟨⟨hx, hm⟩, hd⟩, hc⟩, hr⟩, hs⟩ := hc
      obtain ⟨h1, -, h2⟩ := Raw.mem_iff.1 hx
      exact ⟨⟨h1, hr, h2⟩, hd, rfl, rfl, hc, eq_ofNat_of_toNat (by omega), rfl⟩
    next => exact fieldsFate_illegalField

theorem fate_atomic {k : Bool → Fin 32 → Src → Src → Size → BitVec 48 → Instr} (op : BitVec 10) (ho : r.op.toNat = op.toNat)
    (hF : formatsOf op.toNat = [2]) (he : ∀ rlx d a b sz x, encodeRaw (k rlx d a b sz x) = some ((eMEM op rlx sz.code d a x).setB b)) :
    Fate r (atomic r r.szOnly false (k r.rlx r.gd r.ga r.gb (sizeOf2 r.mod.toNat) r.imm)) := by
  refine fate_used op true true true false _ ho hF (rlx := r.rlx) (fun hc => ?_) fun _ => he ..
  simp only [Bool.and_eq_true] at hc
  obtain ⟨⟨hp, hm⟩, hc⟩ := hc
  exact ⟨Raw.mem_iff.1 hp, rfl, rfl, rfl, hc, Raw.mod_sizeOnly hm, rfl⟩

theorem fate_minMax {k : Bool → Bool → Fin 32 → Src → Src → Size → BitVec 48 → Instr} (op : BitVec 10) (ho : r.op.toNat = op.toNat)
    (hF : formatsOf op.toNat = [2])
    (he : ∀ rlx u d a b sz x, encodeRaw (k rlx u d a b sz x) = some ((eMEM op rlx (sz.code + 4 * u.toNat) d a x).setB b)) :
    Fate r (atomic r (r.mod.toNat / 8 == 0) false (k r.rlx (r.mb 2) r.gd r.ga r.gb (sizeOf2 r.mod.toNat) r.imm)) := by
  refine fate_used op true true true false _ ho hF (rlx := r.rlx) (fun hc => ?_) fun _ => he ..
  simp only [Bool.and_eq_true] at hc
  obtain ⟨⟨hp, hm⟩, hc⟩ := hc
  exact ⟨Raw.mem_iff.1 hp, rfl, rfl, rfl, hc, Raw.mod_size hm, rfl⟩

theorem fate_ctl (hg : r.op.toNat / 128 = 1) : Fate r (decodeCtl r r.op.toNat) := by
  unfold decodeCtl
  split
  next ho =>
    refine fate_used 0x080 false false false false 0 ho rfl (fun hc => ?_) fun _ => rfl
    simp only [Bool.and_eq_true] at hc
    obtain ⟨⟨⟨⟨⟨hp, hm⟩, hd⟩, ha⟩, hb⟩, hc⟩ := hc
    exact ⟨Raw.plain_iff.1 hp, hd, ha, hb, hc, eq_of_beq hm, r.tgt_imm⟩
  next ho =>
    refine fate_used 0x081 false true false false _ ho rfl (fun hc => ?_) fun _ => rfl
    simp only [Bool.and_eq_true] at hc
    obtain ⟨⟨⟨⟨hp, hm⟩, hd⟩, hb⟩, hc⟩ := hc
    exact ⟨Raw.plain_iff.1 hp, hd, rfl, hb, hc, Raw.mod_flag hm, r.tgt_imm⟩
  next ho => exact fate_rrr 0x082 0 ho rfl eq_of_beq fun _ => rfl
  next ho =>
    refine fate_used 0x083 true false false false 0 ho rfl (fun hc => ?_) fun _ => rfl
    simp only [Bool.and_eq_true] at hc
    obtain ⟨⟨⟨⟨hp, hm⟩, ha⟩, hb⟩, hc⟩ := hc
    exact ⟨Raw.plain_iff.1 hp, rfl, ha, hb, hc, eq_of_beq hm, r.tgt_imm⟩
  next ho => exact fate_rrr 0x084 0 ho rfl eq_of_beq fun _ => rfl
  next ho =>
    refine fate_used (rlx := false) (imm := r.tgt.imm) 0x085 false true false false 0 ho rfl (fun hc => ?_) fun hc => ?_
    · simp only [Bool.and_eq_true] at hc
      obtain ⟨⟨⟨⟨⟨hp, hm⟩, hd⟩, -⟩, hb⟩, hc⟩ := hc
      exact ⟨Raw.plain_iff.1 hp, hd, rfl, hb, hc, eq_of_beq hm, r.tgt_imm⟩
    · simp only [Bool.and_eq_true, Bool.not_eq_true'] at hc
      obtain ⟨⟨⟨-, hs⟩, -⟩, -⟩ := hc
      rw [Raw.used, hs]
      rfl
  next ho =>
    refine fate_either (op := 0x086) ho rfl (fun hf => ?_) fun hf => ?_
    · refine fieldsFate_used (op := 0x086) (d := true) (a := false) (b := false) (c := false) (mod := 0) ho hf (fun hc => ?_) fun _ => rfl
      simp only [Bool.and_eq_true] at hc
      obtain ⟨⟨⟨⟨hp, hm⟩, ha⟩, hb⟩, hc⟩ := hc
      exact ⟨Raw.plain_iff.1 hp, rfl, ha, hb, hc, eq_of_beq hm, r.tgt_imm⟩
    · exact fieldsFate_rrr (op := 0x086) ho hf eq_of_beq fun _ => rfl
  next ho => exact fate_rrr 0x087 0 ho rfl eq_of_beq fun _ => rfl
  next ho => exact fate_rrr 0x088 0 ho rfl eq_of_beq fun _ => rfl
  next =>
    refine fate_unassigned ?_
    simp only [opcodes, List.forall_mem_cons, List.not_mem_nil, IsEmpty.forall_iff, implies_true, and_true, imp_false] at *
    omega

theorem fate_mem (hg : r.op.toNat / 128 = 2) : Fate r (decodeMem r r.op.toNat) := by
  unfold decodeMem
  split
  next ho => exact fate_only (op := 0x100) ho rfl fun hf => fieldsFate_ld ho hf
  next ho => exact fate_only (op := 0x101) ho rfl fun hf => fieldsFate_st ho hf
  next ho =>
    refine fate_used 0x102 false true false false 3 ho rfl (fun hc => ?_) fun _ => rfl
    simp only [Bool.and_eq_true] at hc
    obtain ⟨⟨⟨⟨hp, hm⟩, hd⟩, hb⟩, hc⟩ := hc
    exact ⟨Raw.plain_iff.1 hp, hd, rfl, hb, hc, eq_of_beq hm, rfl⟩
  next ho =>
    refine fate_only (op := 0x103) ho rfl fun hf => fieldsFate_coded fun c hx => ?_
    refine fieldsFate_used (op := 0x103) (d := false) (a := false) (b := false) (c := false) (imm := 0) ho hf (fun hc => ?_) fun _ => rfl
    simp only [Bool.and_eq_true] at hc
    obtain ⟨⟨⟨⟨⟨hp, hi⟩, hd⟩, ha⟩, hb⟩, hc⟩ := hc
    exact ⟨Raw.plain_iff.1 hp, hd, ha, hb, hc, eq_ofNat_of_toNat (Scope.code_of_scopeOf hx).symm, eq_of_beq hi⟩
  next ho => exact fate_sys 0x104 _ ho rfl (eq_ofNat_ofNat (n := 4)) rfl
  next ho => exact fate_sys 0x105 0 ho rfl eq_of_beq rfl
  next ho => exact fate_rrr 0x106 0 ho rfl eq_of_beq fun _ => rfl
  next ho => exact fate_atomic 0x108 ho rfl fun _ _ _ _ _ _ => rfl
  next ho => exact fate_atomic 0x109 ho rfl fun _ _ _ _ _ _ => rfl
  next ho => exact fate_atomic 0x10A ho rfl fun _ _ _ _ _ _ => rfl
  next ho => exact fate_atomic 0x10B ho rfl fun _ _ _ _ _ _ => rfl
  next ho => exact fate_minMax 0x10C ho rfl fun _ _ _ _ _ _ _ => rfl
  next ho => exact fate_minMax 0x10D ho rfl fun _ _ _ _ _ _ _ => rfl
  next ho => exact fate_atomic 0x10E ho rfl fun _ _ _ _ _ _ => rfl
  next ho =>
    refine fate_only (op := 0x10F) ho rfl fun hf => ?_
    refine fieldsFate_used (op := 0x10F) (d := true) (a := true) (b := true) (c := true) (rlx := r.rlx) ho hf (fun hc => ?_) fun _ => rfl
    simp only [Bool.and_eq_true] at hc
    obtain ⟨⟨hp, hm⟩, -⟩ := hc
    exact ⟨Raw.mem_iff.1 hp, rfl, rfl, rfl, rfl, Raw.mod_sizeOnly hm, rfl⟩
  next =>
    refine fate_unassigned ?_
    simp only [opcodes, List.forall_mem_cons, List.not_mem_nil, IsEmpty.forall_iff, implies_true, and_true, imp_false] at *
    omega

theorem fate_sync (hg : r.op.toNat / 128 = 3) : Fate r (decodeSync r r.op.toNat) := by
  unfold decodeSync
  split
  next ho => exact fate_rrr 0x180 0 ho rfl eq_of_beq fun _ => rfl
  next ho =>
    refine fate_rrr 0x181 0 ho rfl (fun hm => eq_of_beq (Bool.and_eq_true_iff.1 hm).1) fun hm => ?_
    rw [Raw.used, (Bool.not_eq_true' _).mp (Bool.and_eq_true_iff.1 hm).2]
    rfl
  next ho => exact fate_rrr 0x182 0 ho rfl eq_of_beq fun _ => rfl
  next ho => exact fate_rrr 0x188 0 ho rfl eq_of_beq fun _ => rfl
  next ho => exact fate_rrr 0x189 0 ho rfl eq_of_beq fun _ => rfl
  next ho => exact fate_rrr 0x18A 0 ho rfl eq_of_beq fun _ => rfl
  next ho => exact fate_rrr 0x18B 0 ho rfl eq_of_beq fun _ => rfl
  next ho => exact fate_rrr 0x18C 0 ho rfl eq_of_beq fun _ => rfl
  next ho => exact fate_rrr 0x18D 0 ho rfl eq_of_beq fun _ => rfl
  next ho => exact fate_rrr 0x18E 0 ho rfl eq_of_beq fun _ => rfl
  next ho =>
    refine fate_used 0x190 false false false false 0 ho rfl (fun hc => ?_) fun _ => rfl
    simp only [Bool.and_eq_true] at hc
    obtain ⟨⟨⟨⟨⟨⟨hp, hm⟩, hd⟩, ha⟩, hb⟩, hc⟩, hx⟩ := hc
    exact ⟨Raw.plain_iff.1 hp, hd, ha, hb, hc, eq_of_beq hm, eq_ofNat_ofNat hx⟩
  next ho =>
    refine fate_used 0x191 false false false false 0 ho rfl (fun hc => ?_) fun _ => rfl
    simp only [Bool.and_eq_true] at hc
    obtain ⟨⟨⟨⟨⟨⟨hp, hm⟩, hd⟩, ha⟩, hb⟩, hc⟩, hx⟩ := hc
    exact ⟨Raw.plain_iff.1 hp, hd, ha, hb, hc, eq_of_beq hm, eq_ofNat_ofNat hx⟩
  next ho => exact fate_rrr 0x192 0 ho rfl eq_of_beq fun _ => rfl
  next ho => exact fate_rrr 0x193 0 ho rfl eq_of_beq fun _ => rfl
  next ho => exact fate_rrr 0x194 0 ho rfl eq_of_beq fun _ => rfl
  next ho => exact fate_rrr 0x198 0 ho rfl eq_of_beq fun _ => rfl
  next ho =>
    refine fate_only (op := 0x199) ho rfl fun hf => fieldsFate_coded fun c hx => ?_
    exact fieldsFate_rrr (op := 0x199) ho hf (fun _ => eq_ofNat_of_toNat (SemCond.code_of_semOf hx).symm) fun _ => rfl
  next ho => exact fate_rrr 0x19A 0 ho rfl eq_of_beq fun _ => rfl
  next ho => exact fate_rrr 0x19B 0 ho rfl eq_of_beq fun _ => rfl
  next ho =>
    refine fate_rrr 0x19C _ ho rfl (fun hm => Raw.mod_flag (Bool.and_eq_true_iff.1 hm).1) fun hm => ?_
    rw [Raw.used, (Bool.not_eq_true' _).mp (Bool.and_eq_true_iff.1 hm).2]
    rfl
  next ho =>
    refine fate_rrr 0x19D 0 ho rfl (fun hm => eq_of_beq (Bool.and_eq_true_iff.1 hm).1) fun hm => ?_
    rw [Raw.used, (Bool.not_eq_true' _).mp (Bool.and_eq_true_iff.1 hm).2]
    rfl
  next ho =>
    refine fate_used 0x1A0 true true true false 0 ho rfl (fun hc => ?_) fun _ => rfl
    simp only [Bool.and_eq_true] at hc
    obtain ⟨⟨⟨hp, hm⟩, hc⟩, hx⟩ := hc
    exact ⟨Raw.plain_iff.1 hp, rfl, rfl, rfl, hc, eq_of_beq hm, eq_ofNat_ofNat hx⟩
  next ho => exact fate_rrr 0x1A1 0 ho rfl eq_of_beq fun _ => rfl
  next ho => exact fate_rrr 0x1A2 0 ho rfl eq_of_beq fun _ => rfl
  next =>
    refine fate_unassigned ?_
    simp only [opcodes, List.forall_mem_cons, List.not_mem_nil, IsEmpty.forall_iff, implies_true, and_true, imp_false] at *
    omega

theorem fate_tileGroup (hg : r.op.toNat / 128 = 4) : Fate r (decodeTile r r.op.toNat) := by
  unfold decodeTile
  split
  next ho =>
    refine fate_only (op := 0x200) ho rfl fun hf => fieldsFate_coded fun f hx => fieldsFate_coded fun q hq => ?_
    exact fieldsFate_tile (op := 0x200) ho hf (fun hm => Raw.mod_fmtFlags hm hx) (fun hi => Raw.imm_nk hi (Quad.code_of_quadOf hq)) fun _ => rfl
  next ho =>
    refine fate_only (op := 0x201) ho rfl fun hf => fieldsFate_coded fun f hx => fieldsFate_coded fun q hq => ?_
    exact fieldsFate_tile (op := 0x201) ho hf (fun hm => Raw.mod_fmtFlags hm hx) (fun hi => Raw.imm_quad hi (Quad.code_of_quadOf hq)) fun _ => rfl
  next ho =>
    refine fate_only (op := 0x202) ho rfl fun hf => fieldsFate_coded fun f hx => fieldsFate_coded fun q hq => ?_
    exact fieldsFate_tile (op := 0x202) ho hf (fun hm => Raw.mod_fmtRndSat hm hx) (fun hi => Raw.imm_nk hi (Quad.code_of_quadOf hq)) fun _ => rfl
  next ho =>
    refine fate_only (op := 0x203) ho rfl fun hf => fieldsFate_coded fun q hq => ?_
    exact fieldsFate_tile (op := 0x203) ho hf eq_of_beq (fun hi => Raw.imm_quadN hi (Quad.code_of_quadOf hq)) fun _ => rfl
  next ho =>
    refine fate_only (op := 0x204) ho rfl fun hf => fieldsFate_coded fun f hx => ?_
    exact fieldsFate_tile (op := 0x204) ho hf (fun hm => Raw.mod_fmtFlag hm hx) Raw.imm_nk_zero fun _ => rfl
  next ho =>
    refine fate_tile 0x208 0 0 ho rfl (fun hm => eq_of_beq (Bool.and_eq_true_iff.1 hm).1) eq_of_beq fun hm => ?_
    rw [Raw.used, (Bool.not_eq_true' _).mp (Bool.and_eq_true_iff.1 hm).2]
    rfl
  next ho =>
    refine fate_tile 0x209 0 0 ho rfl (fun hm => eq_of_beq (Bool.and_eq_true_iff.1 hm).1) eq_of_beq fun hm => ?_
    rw [Raw.used, (Bool.not_eq_true' _).mp (Bool.and_eq_true_iff.1 hm).2]
    rfl
  next ho =>
    refine fate_either (op := 0x210) ho rfl (fun hf => ?_) fun hf => ?_
    · exact fieldsFate_rrr (op := 0x210) ho hf (fun hm => eq_ofNat_ofNat hm) fun _ => rfl
    · refine fieldsFate_used (op := 0x210) (d := false) (a := false) (b := false) (c := false) ho hf (fun hc => ?_) fun _ => rfl
      simp only [Bool.and_eq_true] at hc
      obtain ⟨⟨⟨⟨⟨hp, hd⟩, ha⟩, hb⟩, hc⟩, hm⟩ := hc
      exact ⟨Raw.plain_iff.1 hp, hd, ha, hb, hc, eq_ofNat_ofNat hm, rfl⟩
  next ho => exact fate_tile 0x211 0 0 ho rfl eq_of_beq eq_of_beq fun _ => rfl
  next ho =>
    refine fate_tile 0x212 0 0 ho rfl (fun hm => eq_of_beq (Bool.and_eq_true_iff.1 hm).1) eq_of_beq fun hm => ?_
    exact congrArg (fun x => some { rawOf 0x212 5 with sb := x, synb := r.synb, dst := r.dst }) (fv_vOf (Bool.and_eq_true_iff.1 hm).2)
  next ho =>
    refine fate_tile 0x213 0 0 ho rfl (fun hm => eq_of_beq (Bool.and_eq_true_iff.1 hm).1) eq_of_beq fun hm => ?_
    exact congrArg (fun x => some { rawOf 0x213 5 with sb := x, synb := r.synb, dst := r.dst }) (fv_vOf (Bool.and_eq_true_iff.1 hm).2)
  next ho => exact fate_tile 0x214 0 0 ho rfl eq_of_beq eq_of_beq fun _ => rfl
  next ho => exact fate_rrr 0x218 0 ho rfl eq_of_beq fun _ => rfl
  next ho => exact fate_rrr 0x219 0 ho rfl eq_of_beq fun _ => rfl
  next ho => exact fate_rrr 0x21A 0 ho rfl eq_of_beq fun _ => rfl
  next ho => exact fate_rrr 0x21B 0 ho rfl eq_of_beq fun _ => rfl
  next ho => exact fate_tile 0x220 _ 0 ho rfl Raw.mod_coll eq_of_beq fun _ => rfl
  next ho => exact fate_rrr 0x221 0 ho rfl eq_of_beq fun _ => rfl
  next ho => exact fate_rrr 0x222 0 ho rfl eq_of_beq fun _ => rfl
  next ho => exact fate_rrr 0x228 0 ho rfl eq_of_beq fun _ => rfl
  next ho => exact fate_rrr 0x229 0 ho rfl eq_of_beq fun _ => rfl
  next =>
    refine fate_unassigned ?_
    simp only [opcodes, List.forall_mem_cons, List.not_mem_nil, IsEmpty.forall_iff, implies_true, and_true, imp_false] at *
    omega

theorem fate_sysGroup (hg : 7 ≤ r.op.toNat / 128) : Fate r (decodeSys r r.op.toNat) := by
  unfold decodeSys
  split
  next ho => exact fate_sys 0x380 0 ho rfl eq_of_beq rfl
  next ho => exact fate_sys 0x381 _ ho rfl (eq_ofNat_ofNat (n := 4)) rfl
  next ho => exact fate_sys 0x382 0 ho rfl eq_of_beq rfl
  next ho => exact fate_sys 0x383 _ ho rfl (eq_ofNat_ofNat (n := 4)) rfl
  next ho => exact fate_sys 0x384 _ ho rfl (eq_ofNat_ofNat (n := 4)) rfl
  next ho => exact fate_sys 0x385 0 ho rfl eq_of_beq rfl
  next ho => exact fate_sys 0x386 0 ho rfl eq_of_beq rfl
  next =>
    refine fate_unassigned ?_
    simp only [opcodes, List.forall_mem_cons, List.not_mem_nil, IsEmpty.forall_iff, implies_true, and_true, imp_false] at *
    omega

end

section
variable {r : Raw}

theorem fieldsFate_vec {D A B C M O : Bool} {i : Instr} (hf : r.fmt = 4)
    (he : r.plain = true → D = true → A = true → B = true → C = true → M = true → O = true → encodeRaw i = some r) :
    FieldsFate r (vec r D A B C M O i) := by
  unfold vec
  rw [only_pos hf]
  refine fieldsFate_fieldsOk fun hc => ?_
  simp only [Bool.and_eq_true] at hc
  obtain ⟨⟨⟨⟨⟨⟨hp, hd⟩, ha⟩, hb⟩, hc⟩, hm⟩, hi⟩ := hc
  exact he hp hd ha hb hc hm hi

theorem fate_vec {D A B C M O : Bool} {i : Instr} (op : BitVec 10) (ho : r.op.toNat = op.toNat) (hF : formatsOf op.toNat = [4])
    (he : r.fmt = 4 → r.plain = true → D = true → A = true → B = true → C = true → M = true → O = true → encodeRaw i = some r) :
    Fate r (vec r D A B C M O i) := by
  have h := fate_only (f := 4) ho hF fun hf => fieldsFate_vec hf (he hf)
  rwa [vec, only_only] at h

theorem vb_of_noB (h : r.noB = true) : r.vb = ⟨0, false⟩ := by
  obtain ⟨h1, h2⟩ := Raw.noB_iff.1 h
  rw [Raw.vb, h1, h2]; rfl

theorem vc_of_noC (h : r.noC = true) : r.vc = ⟨0, false⟩ := by
  obtain ⟨h1, h2⟩ := Raw.noC_iff.1 h
  rw [Raw.vc, h1, h2]; rfl

theorem isV_of_noB (h : r.noB = true) : isV r.sb = true := by rw [(Raw.noB_iff.1 h).1]; rfl

theorem isV_of_noC (h : r.noC = true) : isV r.sc = true := by rw [(Raw.noC_iff.1 h).1]; rfl

section
variable {op : BitVec 10} {n : Nat} {x : BitVec 5}

/-- A vector word is the one written from its own fields: three sources here, fewer below. -/
theorem eVEC_of (ho : r.op.toNat = op.toNat) (hf : r.fmt = 4) (hp : r.plain = true) (hd : x = r.dst) (ha : isV r.sa = true)
    (hb : isV r.sb = true) (hc : isV r.sc = true) (hm : r.mod = BitVec.ofNat 9 n) (hi : r.i0 = true) :
    (((eVEC op n x).setVA r.va).setVB r.vb).setVC r.vc = r := by
  have e := Raw.eq_used (d := true) (a := true) (b := true) (c := true) (BitVec.eq_of_toNat_eq ho) hf (Raw.plain_iff.1 hp) rfl rfl rfl rfl hm
    (eq_of_beq hi)
  simp only [eVEC, Raw.setVA, Raw.setVB, Raw.setVC, Raw.va, Raw.vb, Raw.vc, fv_vOf ha, fv_vOf hb, fv_vOf hc, hd]
  exact e

theorem eVEC2_of (ho : r.op.toNat = op.toNat) (hf : r.fmt = 4) (hp : r.plain = true) (hd : x = r.dst) (ha : isV r.sa = true)
    (hb : isV r.sb = true) (hc : r.noC = true) (hm : r.mod = BitVec.ofNat 9 n) (hi : r.i0 = true) :
    ((eVEC op n x).setVA r.va).setVB r.vb = r := by
  have e := eVEC_of ho hf hp hd ha hb (isV_of_noC hc) hm hi
  rw [vc_of_noC hc] at e
  exact e

theorem eVEC1_of (ho : r.op.toNat = op.toNat) (hf : r.fmt = 4) (hp : r.plain = true) (hd : x = r.dst) (ha : isV r.sa = true)
    (hb : r.noB = true) (hc : r.noC = true) (hm : r.mod = BitVec.ofNat 9 n) (hi : r.i0 = true) : (eVEC op n x).setVA r.va = r := by
  have e := eVEC2_of ho hf hp hd ha (isV_of_noB hb) hc hm hi
  rw [vb_of_noB hb] at e
  exact e

theorem eVEC2_setSC_of (ho : r.op.toNat = op.toNat) (hf : r.fmt = 4) (hp : r.plain = true) (hd : x = r.dst) (ha : isV r.sa = true)
    (hb : isV r.sb = true) (hc : r.sync = false) (hm : r.mod = BitVec.ofNat 9 n) (hi : r.i0 = true) :
    { ((eVEC op n x).setVA r.va).setVB r.vb with sc := r.sc } = r := by
  have e := Raw.eq_used (d := true) (a := true) (b := true) (c := true) (BitVec.eq_of_toNat_eq ho) hf (Raw.plain_iff.1 hp) rfl rfl rfl rfl hm
    (eq_of_beq hi)
  simp only [eVEC, Raw.setVA, Raw.setVB, Raw.va, Raw.vb, fv_vOf ha, fv_vOf hb, hd]
  rw [Raw.used, hc] at e
  exact e

end

theorem Raw.fam2 (h : (r.mod.toNat / 128 == 0) = true) : (BitVec.ofNat 2 (r.mod.toNat / 32)).toNat = r.mod.toNat / 32 := by
  rw [beq_iff_eq] at h
  rw [BitVec.toNat_ofNat]; omega

theorem fate_rndSat {k : Rnd → Bool → Fin 4 → Fin 8 → VSrc → VSrc → Instr} (op : BitVec 10) (ho : r.op.toNat = op.toNat)
    (hF : formatsOf op.toNat = [4]) (he : ∀ rnd sat km d a b,
      encodeRaw (k rnd sat km d a b) = some (((eVEC op (rnd.code + 4 * sat.toNat + 8 * km.val) (fv d)).setVA a).setVB b)) :
    Fate r (vec r (isV r.dst && isV r.sa && isV r.sb && r.noC) true true true r.noFam r.i0 (k (rndOf r.mod.toNat) (r.mb 2) r.km r.vd r.va r.vb))
      := by
  refine fate_vec op ho hF fun hf hp hv _ _ _ hm hi => ?_
  simp only [Bool.and_eq_true] at hv
  obtain ⟨⟨⟨hd, ha⟩, hb⟩, hc⟩ := hv
  exact (he ..).trans (congrArg some (eVEC2_of ho hf hp (fv_vOf hd) ha hb hc (Raw.mod_rndSatKm hm) hi))

theorem fate_km2 {k : Fin 4 → Fin 8 → VSrc → VSrc → Instr} (op : BitVec 10) (ho : r.op.toNat = op.toNat) (hF : formatsOf op.toNat = [4])
    (he : ∀ km d a b, encodeRaw (k km d a b) = some (((eVEC op (8 * km.val) (fv d)).setVA a).setVB b)) :
    Fate r (vec r (isV r.dst && isV r.sa && isV r.sb && r.noC) true true true r.kmOnly r.i0 (k r.km r.vd r.va r.vb)) := by
  refine fate_vec op ho hF fun hf hp hv _ _ _ hm hi => ?_
  simp only [Bool.and_eq_true] at hv
  obtain ⟨⟨⟨hd, ha⟩, hb⟩, hc⟩ := hv
  exact (he ..).trans (congrArg some (eVEC2_of ho hf hp (fv_vOf hd) ha hb hc (Raw.mod_km hm) hi))

theorem fate_km1 {k : Fin 4 → Fin 8 → VSrc → Instr} (op : BitVec 10) (ho : r.op.toNat = op.toNat) (hF : formatsOf op.toNat = [4])
    (he : ∀ km d a, encodeRaw (k km d a) = some ((eVEC op (8 * km.val) (fv d)).setVA a)) :
    Fate r (vec r (isV r.dst && isV r.sa && r.noB && r.noC) true true true r.kmOnly r.i0 (k r.km r.vd r.va)) := by
  refine fate_vec op ho hF fun hf hp hv _ _ _ hm hi => ?_
  simp only [Bool.and_eq_true] at hv
  obtain ⟨⟨⟨hd, ha⟩, hb⟩, hc⟩ := hv
  exact (he ..).trans (congrArg some (eVEC1_of ho hf hp (fv_vOf hd) ha hb hc (Raw.mod_km hm) hi))

theorem fate_kmSat {k : Bool → Fin 4 → Fin 8 → VSrc → VSrc → Instr} (op : BitVec 10) (ho : r.op.toNat = op.toNat)
    (hF : formatsOf op.toNat = [4])
    (he : ∀ sat km d a b, encodeRaw (k sat km d a b) = some (((eVEC op (4 * sat.toNat + 8 * km.val) (fv d)).setVA a).setVB b)) :
    Fate r (vec r (isV r.dst && isV r.sa && isV r.sb && r.noC) true true true r.kmSat r.i0 (k (r.mb 2) r.km r.vd r.va r.vb)) := by
  refine fate_vec op ho hF fun hf hp hv _ _ _ hm hi => ?_
  simp only [Bool.and_eq_true] at hv
  obtain ⟨⟨⟨hd, ha⟩, hb⟩, hc⟩ := hv
  exact (he ..).trans (congrArg some (eVEC2_of ho hf hp (fv_vOf hd) ha hb hc (Raw.mod_satKm hm) hi))

theorem fate_red {k : Fin 4 → Fin 32 → VSrc → Instr} (op : BitVec 10) (ho : r.op.toNat = op.toNat) (hF : formatsOf op.toNat = [4])
    (he : ∀ km d a, encodeRaw (k km d a) = some ((eVEC op (8 * km.val) (f5 d)).setVA a)) :
    Fate r (vec r true (isV r.sa) r.noB r.noC r.kmOnly r.i0 (k r.km r.gd r.va)) := by
  refine fate_vec op ho hF fun hf hp _ ha hb hc hm hi => ?_
  exact (he ..).trans (congrArg some (eVEC1_of ho hf hp rfl ha hb hc (Raw.mod_km hm) hi))

theorem fate_kk {k : Fin 4 → Fin 4 → Fin 4 → Instr} (op : BitVec 10) (ho : r.op.toNat = op.toNat) (hF : formatsOf op.toNat = [4])
    (he : ∀ d a b, encodeRaw (k d a b) = some { eVEC op 0 (fk d) with sa := fk a, sb := fk b }) :
    Fate r (vec r (isK r.dst) (isK r.sa && !r.syna) (isK r.sb && !r.synb) r.noC r.m0 r.i0 (k (kOf r.dst) (kOf r.sa) (kOf r.sb))) := by
  refine fate_vec op ho hF fun hf hp hd ha hb hc hm hi => ?_
  obtain ⟨ha, hsa⟩ := Bool.and_eq_true_iff.1 ha
  obtain ⟨hb, hsb⟩ := Bool.and_eq_true_iff.1 hb
  rw [Bool.not_eq_true'] at hsa hsb
  have e := Raw.eq_used (d := true) (a := true) (b := true) (c := false) (BitVec.eq_of_toNat_eq ho) hf (Raw.plain_iff.1 hp)
    rfl rfl rfl hc (eq_of_beq hm) (eq_of_beq hi)
  rw [he, fk_kOf hd, fk_kOf ha, fk_kOf hb]
  rw [Raw.used, hsa, hsb] at e
  exact congrArg some e

theorem Raw.imm_fmtPair {df sf : Fmt} (h : (r.imm.toNat / 256 == 0) = true) (hd : fmtOf (r.imm.toNat % 16) = some df)
    (hs : fmtOf (r.imm.toNat / 16 % 16) = some sf) : r.imm = BitVec.ofNat 48 (df.code + 16 * sf.code) := by
  rw [beq_iff_eq] at h
  refine eq_ofNat_of_toNat ?_
  rw [Fmt.code_of_fmtOf hd, Fmt.code_of_fmtOf hs]; omega

theorem fate_vecA (hg : r.op.toNat / 128 = 5) : Fate r (decodeVecA r r.op.toNat) := by
  unfold decodeVecA
  split
  next ho => exact fate_rndSat 0x280 ho rfl fun _ _ _ _ _ _ => rfl
  next ho => exact fate_rndSat 0x281 ho rfl fun _ _ _ _ _ _ => rfl
  next ho => exact fate_rndSat 0x282 ho rfl fun _ _ _ _ _ _ => rfl
  next ho =>
    refine fate_vec 0x283 ho rfl fun hf hp hd ha hb hc hm hi => ?_
    have e := eVEC_of (op := 0x283) ho hf hp rfl ha hb hc (Raw.mod_rndSatKm hm) hi
    rw [← fv_vOf hd] at e
    exact congrArg some e
  next ho => exact fate_km2 0x284 ho rfl fun _ _ _ _ => rfl
  next ho => exact fate_km2 0x285 ho rfl fun _ _ _ _ => rfl
  next ho => exact fate_km1 0x286 ho rfl fun _ _ _ => rfl
  next ho => exact fate_km1 0x287 ho rfl fun _ _ _ => rfl
  next ho => exact fate_kmSat 0x288 ho rfl fun _ _ _ _ _ => rfl
  next ho => exact fate_kmSat 0x289 ho rfl fun _ _ _ _ _ => rfl
  next ho => exact fate_km2 0x28A ho rfl fun _ _ _ _ => rfl
  next ho => exact fate_km2 0x28B ho rfl fun _ _ _ _ => rfl
  next ho => exact fate_km2 0x28C ho rfl fun _ _ _ _ => rfl
  next ho => exact fate_km2 0x28D ho rfl fun _ _ _ _ => rfl
  next ho => exact fate_km2 0x28E ho rfl fun _ _ _ _ => rfl
  next ho =>
    refine fate_only (op := 0x290) ho rfl fun hf => fieldsFate_coded fun c hx => ?_
    refine fieldsFate_vec hf fun hp hd ha hb hc hm hi => ?_
    have e := eVEC2_of (op := 0x290) ho hf hp rfl ha hb hc (Raw.mod_kmFam hm (VCond.code_of_vcondOf hx)) hi
    rw [← fk_kOf hd] at e
    exact congrArg some e
  next ho =>
    refine fate_vec 0x291 ho rfl fun hf hp hd ha hb hc hm hi => ?_
    obtain ⟨hc, hs⟩ := Bool.and_eq_true_iff.1 hc
    rw [Bool.not_eq_true'] at hs
    have e := eVEC2_setSC_of (op := 0x291) (n := 0) ho hf hp rfl ha hb hs (eq_of_beq hm) hi
    rw [← fv_vOf hd, ← fk_kOf hc] at e
    exact congrArg some e
  next ho => exact fate_km1 0x298 ho rfl fun _ _ _ => rfl
  next ho => exact fate_km1 0x299 ho rfl fun _ _ _ => rfl
  next ho => exact fate_km1 0x29A ho rfl fun _ _ _ => rfl
  next ho => exact fate_red 0x2A0 ho rfl fun _ _ _ => rfl
  next ho => exact fate_red 0x2A1 ho rfl fun _ _ _ => rfl
  next ho => exact fate_km2 0x2A8 ho rfl fun _ _ _ _ => rfl
  next ho =>
    refine fate_vec 0x2B0 ho rfl fun hf hp hd ha hb hc hm hi => ?_
    obtain ⟨hm, hz⟩ := Bool.and_eq_true_iff.1 hm
    have e := Raw.eq_used (op := 0x2B0) (d := true) (a := true) (b := true) (c := false) (BitVec.eq_of_toNat_eq ho) hf (Raw.plain_iff.1 hp) rfl
      rfl rfl hc
      (Raw.mod_kmFam hm (Raw.fam2 hz)) (eq_of_beq hi)
    rw [Raw.used, ← fv_vOf hd] at e
    exact congrArg some e
  next =>
    refine fate_unassigned ?_
    simp only [opcodes, List.forall_mem_cons, List.not_mem_nil, IsEmpty.forall_iff, implies_true, and_true, imp_false] at *
    omega

theorem fate_vecM (hg : r.op.toNat / 128 = 6) : Fate r (decodeVecM r r.op.toNat) := by
  unfold decodeVecM
  split
  next ho =>
    refine fate_fields 0x300 ho rfl fun hf hc => ?_
    simp only [Bool.and_eq_true] at hc
    obtain ⟨⟨hp, hm⟩, ⟨⟨hd, hb⟩, hc⟩⟩ := hc
    have e := Raw.eq_used (op := 0x300) (d := true) (a := true) (b := false) (c := false) (BitVec.eq_of_toNat_eq ho) hf (Raw.mem_iff.1 hp)
      rfl rfl hb hc (Raw.mod_km hm) rfl
    rw [Raw.used, ← fv_vOf hd] at e
    exact congrArg some e
  next ho =>
    refine fate_fields 0x301 ho rfl fun hf hc => ?_
    simp only [Bool.and_eq_true] at hc
    obtain ⟨⟨hp, hm⟩, ⟨⟨hd, hb⟩, hc⟩⟩ := hc
    have e := Raw.eq_used (op := 0x301) (d := false) (a := true) (b := true) (c := false) (BitVec.eq_of_toNat_eq ho) hf (Raw.mem_iff.1 hp)
      hd rfl rfl hc (Raw.mod_km hm) rfl
    rw [Raw.used, ← fv_vOf hb] at e
    exact congrArg some e
  next ho =>
    refine fate_fields 0x302 ho rfl fun hf hc => ?_
    simp only [Bool.and_eq_true] at hc
    obtain ⟨⟨hp, hm⟩, ⟨⟨hd, hb⟩, hc⟩⟩ := hc
    have e := Raw.eq_used (op := 0x302) (d := true) (a := true) (b := true) (c := false) (BitVec.eq_of_toNat_eq ho) hf (Raw.mem_iff.1 hp)
      rfl rfl rfl hc (Raw.mod_km hm) rfl
    rw [Raw.used, ← fv_vOf hd, ← fv_vOf hb] at e
    exact congrArg some e
  next ho =>
    refine fate_fields 0x303 ho rfl fun hf hc => ?_
    simp only [Bool.and_eq_true] at hc
    obtain ⟨⟨hp, hm⟩, ⟨⟨hd, hb⟩, hc⟩⟩ := hc
    have e := Raw.eq_used (op := 0x303) (d := false) (a := true) (b := true) (c := true) (BitVec.eq_of_toNat_eq ho) hf (Raw.mem_iff.1 hp)
      hd rfl rfl rfl (Raw.mod_km hm) rfl
    rw [Raw.used, ← fv_vOf hb, ← fv_vOf hc] at e
    exact congrArg some e
  next ho =>
    refine fate_vec 0x308 ho rfl fun hf hp hd _ hb hc hm hi => ?_
    have e := Raw.eq_used (op := 0x308) (d := true) (a := true) (b := false) (c := false) (BitVec.eq_of_toNat_eq ho) hf (Raw.plain_iff.1 hp)
      rfl rfl hb hc (Raw.mod_km hm) (eq_of_beq hi)
    rw [Raw.used, ← fv_vOf hd] at e
    exact congrArg some e
  next ho =>
    refine fate_vec 0x309 ho rfl fun hf hp _ ha hb hc hm hi => ?_
    have e := Raw.eq_used (op := 0x309) (d := true) (a := true) (b := false) (c := false) (BitVec.eq_of_toNat_eq ho) hf (Raw.plain_iff.1 hp)
      rfl rfl hb hc (eq_of_beq hm) (eq_ofNat_ofNat (n := 5) hi)
    rw [Raw.used, ← fv_vOf ha] at e
    exact congrArg some e
  next ho =>
    refine fate_vec 0x30A ho rfl fun hf hp hd ha _ hc hm hi => ?_
    have e := Raw.eq_used (op := 0x30A) (d := true) (a := true) (b := true) (c := false) (BitVec.eq_of_toNat_eq ho) hf (Raw.plain_iff.1 hp)
      rfl rfl rfl hc (eq_of_beq hm) (eq_ofNat_ofNat (n := 5) hi)
    rw [Raw.used, ← fv_vOf hd, ← fv_vOf ha] at e
    exact congrArg some e
  next ho =>
    refine fate_only (op := 0x310) ho rfl fun hf => fieldsFate_coded fun df hdf => fieldsFate_coded fun sf hsf => ?_
    refine fieldsFate_vec hf fun hp hd ha hb hc hm hi => ?_
    have e := Raw.eq_used (op := 0x310) (d := true) (a := true) (b := false) (c := false) (BitVec.eq_of_toNat_eq ho) hf (Raw.plain_iff.1 hp)
      rfl rfl hb hc (Raw.mod_rndSatKm hm) (Raw.imm_fmtPair hi hdf hsf)
    rw [Raw.used, ← fv_vOf hd, ← fv_vOf ha] at e
    exact congrArg some e
  next ho =>
    refine fate_only (op := 0x311) ho rfl fun hf => fieldsFate_coded fun f hx => ?_
    refine fieldsFate_vec hf fun hp hd ha hb hc hm hi => ?_
    exact congrArg some (eVEC1_of (op := 0x311) ho hf hp (fv_vOf hd) ha hb hc (Raw.mod_kmFam hm (Fmt.code_of_fmtOf hx)) hi)
  next ho => exact fate_kk 0x318 ho rfl fun _ _ _ => rfl
  next ho => exact fate_kk 0x319 ho rfl fun _ _ _ => rfl
  next ho =>
    refine fate_vec 0x31A ho rfl fun hf hp hd ha hb hc hm hi => ?_
    obtain ⟨ha, hsa⟩ := Bool.and_eq_true_iff.1 ha
    rw [Bool.not_eq_true'] at hsa
    have e := Raw.eq_used (op := 0x31A) (d := true) (a := true) (b := false) (c := false) (BitVec.eq_of_toNat_eq ho) hf (Raw.plain_iff.1 hp)
      rfl rfl hb hc (eq_of_beq hm) (eq_of_beq hi)
    rw [Raw.used, hsa, ← fk_kOf hd, ← fk_kOf ha] at e
    exact congrArg some e
  next ho =>
    refine fate_vec 0x31B ho rfl fun hf hp _ ha hb hc hm hi => ?_
    obtain ⟨ha, hsa⟩ := Bool.and_eq_true_iff.1 ha
    rw [Bool.not_eq_true'] at hsa
    have e := Raw.eq_used (op := 0x31B) (d := true) (a := true) (b := false) (c := false) (BitVec.eq_of_toNat_eq ho) hf (Raw.plain_iff.1 hp)
      rfl rfl hb hc (eq_of_beq hm) (eq_of_beq hi)
    rw [Raw.used, hsa, ← fk_kOf ha] at e
    exact congrArg some e
  next =>
    refine fate_unassigned ?_
    simp only [opcodes, List.forall_mem_cons, List.not_mem_nil, IsEmpty.forall_iff, implies_true, and_true, imp_false] at *
    omega

/-- The groups put together. -/
theorem fate_decodeRaw (h3 : r.op ≠ 0x3FF) (h7 : r.fmt ≠ 7) : Fate r (decodeRaw r) := by
  rw [decodeRaw_eq (by rw [Bool.and_eq_true, bne_iff_ne, bne_iff_ne]; exact ⟨h3, h7⟩)]
  match hg : r.op.toNat / 128 with
  | 0 => exact fate_alu hg
  | 1 => exact fate_ctl hg
  | 2 => exact fate_mem hg
  | 3 => exact fate_sync hg
  | 4 => exact fate_tileGroup hg
  | 5 => exact fate_vecA hg
  | 6 => exact fate_vecM hg
  | n + 7 => exact fate_sysGroup (by omega)

end

theorem decodeRaw_ill {r : Raw} (h : r.op = 0x3FF) : decodeRaw r = .ok .ill := if_pos h

theorem formatsOf_ill : formatsOf 0x3FF = [] := rfl

theorem not_mem_formatsOf_seven (op : Nat) : 7 ∉ formatsOf op := by
  unfold formatsOf
  rw [List.mem_flatMap]
  rintro ⟨row, hr, h⟩
  have h7 : ∀ row ∈ opcodes, 7 ∉ row.2.2 := by decide
  split at h
  · exact h7 row hr h
  · exact List.not_mem_nil h

/-- What becomes of every word but ILL's. -/
theorem fate_of_not_ill {r : Raw} (h3 : r.op ≠ 0x3FF) : Fate r (decodeRaw r) := by
  by_cases h7 : r.fmt = 7
  · refine ⟨fun h => absurd h ?_, fun _ => ?_⟩
    · rw [h7]; exact not_mem_formatsOf_seven _
    · rw [decodeRaw, if_neg h3, if_pos h7]
  · exact fate_decodeRaw h3 h7

theorem encodes_of_decodeRaw {r : Raw} {i : Instr} (h3 : r.op ≠ 0x3FF) (h : decodeRaw r = .ok i) : Encodes r i := by
  obtain ⟨hin, hout⟩ := fate_of_not_ill h3
  by_cases hf : r.fmt.toNat ∈ formatsOf r.op.toNat
  · exact (hin hf).1 i h
  · exact absurd ((hout hf).symm.trans h) bad_ne_ok

theorem decodeWord_encode {i : Instr} {w : BitVec 96} (hw : i.wf = true) (h : encode i = some w) : decodeWord w = .ok i := by
  obtain ⟨r, hr, rfl⟩ := Option.map_eq_some_iff.1 h
  rw [decodeWord, unpack_pack]
  exact decodeRaw_encodeRaw hw hr

/-- Settles O2, by the rows of the encoding tables. -/
theorem decodeEncode : Obligations.DecodeEncode := fun _ _ hw h => decodeWord_encode hw h

theorem unpack_op_toNat (w : BitVec 96) : (unpack w).op.toNat = fieldN w 86 10 := rfl

/-- Settles O3, by what becomes of a word, group by group. -/
theorem encodeDecode : Obligations.EncodeDecode := by
  unfold Obligations.EncodeDecode
  refine ⟨fun w i h => ?_, fun w => ⟨fun ho => ?_, fun ho hp => ?_, fun hp f hf => ?_⟩⟩
  · by_cases h3 : (unpack w).op = 0x3FF
    · obtain rfl := DecRes.ok.inj ((decodeRaw_ill h3).symm.trans h)
      exact ⟨rfl, fun hne => absurd rfl hne⟩
    · obtain ⟨hw, he⟩ := encodes_of_decodeRaw h3 h
      refine ⟨hw, fun _ => ?_⟩
      rw [encode, he, Option.map_some, pack_unpack]
  · exact decodeRaw_ill (BitVec.eq_of_toNat_eq ho)
  · rw [permits_eq, decide_eq_false_iff_not] at hp
    exact (fate_of_not_ill fun h => ho (congrArg BitVec.toNat h : (unpack w).op.toNat = _)).2 hp
  · rw [permits_eq, decide_eq_true_iff] at hp
    have h3 : (unpack w).op ≠ 0x3FF := by
      intro h
      rw [← unpack_op_toNat, h] at hp
      exact absurd hp (formatsOf_ill ▸ List.not_mem_nil)
    exact ((fate_of_not_ill h3).1 hp).2 f hf

/-- Settles O1: the words are decoded one by one. -/
theorem decodeWords : Obligations.DecodeWords := by
  unfold Obligations.DecodeWords
  decide

end Sys2Proof
end

section

/-!
The line (R52, R53): the bits of a slot, and the parity of a chunk as the exclusive OR of its bits.
-/

namespace Sys2Proof

open Machine

theorem lineSlot_getLsbD (l : Line) (k : Nat) {i : Nat} (h : i < 96) : (lineSlot l k).getLsbD i = l.getLsbD (32 + (96 * k + i)) := by
  rw [lineSlot, BitVec.getLsbD_ofNat, Nat.testBit_div_two_pow, BitVec.testBit_toNat, decide_eq_true h, Bool.true_and]
  congr 1
  omega

/-- The parity of the low bits of a number is the exclusive OR of these bits. -/
theorem xorBits_eq (n x : Nat) : xorBits n x = ((List.range n).map x.testBit).foldl xor false := by
  induction n generalizing x with
  | zero => rfl
  | succ n ih =>
    have hxor : ∀ (b : Bool) (l : List Bool), l.foldl xor (xor b false) = xor b (l.foldl xor false) := fun _ _ => List.foldl_assoc
    rw [List.range_succ_eq_map, List.map_cons, List.map_map, List.foldl_cons, Bool.false_xor, ← Bool.xor_false (x.testBit 0), hxor,
      Nat.testBit_zero, xorBits, ih, beq_eq_decide]
    exact congrArg _ (congrArg _ (List.map_congr_left fun i _ => (Nat.testBit_add_one x i).symm))

/-- The bits of a chunk of 30. -/
theorem chunk_bits (l : Line) (c : Nat) :
    (List.range 30).map (fieldN l (32 + 30 * c) 30).testBit = (List.range 30).map fun i => l.getLsbD (32 + (30 * c + i)) := by
  refine List.map_congr_left fun i hi => ?_
  rw [fieldN, bitsN, Nat.testBit_mod_two_pow, Nat.testBit_div_two_pow, decide_eq_true (List.mem_range.1 hi), Bool.true_and,
    BitVec.testBit_toNat]
  congr 1
  omega

/-- Settles O4, by the bits of a slot and of a chunk. -/
theorem lineParity : Obligations.LineParity := by
  unfold Obligations.LineParity
  refine fun l => ⟨fun k _ i hi => lineSlot_getLsbD l k hi, ?_⟩
  simp only [parityOk, List.all_eq_true, List.mem_range, beq_iff_eq, xorBits_eq, chunk_bits, bitN_eq_getLsbD]
  exact forall₂_congr fun c _ => eq_comm

end Sys2Proof
end

section

/-!
Transfers (R54 to R62, R333, R336, R349, R353, R368, R390): a transfer that is taken ends its instruction in `goTo`, which goes on
within the held line, enters another one, waits for it, or faults.
-/

namespace Sys2Proof

open Machine

@[simp] theorem taken_line (i : Instr) (s : State) : (curSp (taken i s)).line = (curSp s).line := by
  obtain ⟨g, v, w, h⟩ := curSp_taken i s
  rw [h]

@[simp] theorem taken_dom (i : Instr) (s : State) : (curSp (taken i s)).dom = (curSp s).dom := by
  obtain ⟨g, v, w, h⟩ := curSp_taken i s
  rw [h]

@[simp] theorem taken_drs (i : Instr) (s : State) : (curSp (taken i s)).drs = (curSp s).drs := by
  obtain ⟨g, v, w, h⟩ := curSp_taken i s
  rw [h]

@[simp] theorem taken_lends (i : Instr) (s : State) : (curSp (taken i s)).lends = (curSp s).lends := by
  obtain ⟨g, v, w, h⟩ := curSp_taken i s
  rw [h]

@[simp] theorem taken_blocked (i : Instr) (s : State) : blocked (curSp (taken i s)) = blocked (curSp s) := by
  obtain ⟨g, v, w, h⟩ := curSp_taken i s
  rw [h]
  rfl

@[simp] theorem taken_rdG (i : Instr) (s : State) (r : Fin 32) : (curSp (taken i s)).rdG r = (curSp s).rdG r := src_taken i s ⟨r, false⟩

/-- The instructions of the table end in the transfer that it names, when it is taken. -/
theorem transfer_body {s : State} {l c : Fin 32} {a : Src} {nz : Bool} {b : BrTarget} {e : Instr × EntryKind × Word × (State → State) × Bool}
    (he : e ∈ transferTable s l c a nz b) (ht : e.2.2.2.2 = true) :
    ∃ body, exec e.1 s = .next (issue e.1 s body) ∧ body (taken e.1 s) = goTo (taken e.1 s) e.2.1 e.2.2.1 e.2.2.2.1 := by
  simp only [transferTable, List.mem_cons, List.not_mem_nil, or_false] at he
  rcases he with rfl | rfl | rfl | rfl | rfl | rfl | rfl | rfl
  · exact ⟨_, rfl, by rw [taken_cur]⟩
  · exact ⟨_, rfl, by rw [src_taken, if_pos ht, taken_cur]⟩
  · exact ⟨_, rfl, by rw [goReg, src_taken, if_pos ht]⟩
  · exact ⟨_, rfl, by rw [linkPc, taken_cur]⟩
  · exact ⟨_, rfl, by rw [goReg, src_taken, if_pos ht]⟩
  · obtain ⟨h0, h1⟩ := of_decide_eq_true ht
    exact ⟨_, rfl, by dsimp only; rw [taken_rdG, taken_cur, if_neg h0, if_pos (sub_ne_zero.2 h1)]⟩
  · have hd := Nat.not_le.2 (of_decide_eq_true ht)
    exact ⟨_, rfl, by rw [dcallTo, taken_drs, if_neg hd, if_neg (by simp), taken_dom, linkPc, taken_cur]⟩
  · obtain ⟨hd, hp⟩ := Bool.and_eq_true_iff.1 ht
    have hd := Nat.not_le.2 (of_decide_eq_true hd)
    exact ⟨_, rfl, by rw [dcallTo, taken_drs, if_neg hd, src_taken, if_neg (by simp [hp]), taken_dom, linkPc, taken_cur]⟩

/-- What completes with a transfer of the table leaves what its spoke waits for. -/
theorem transfer_blocked {s : State} {l c : Fin 32} {a : Src} {nz : Bool} {b : BrTarget}
    {e : Instr × EntryKind × Word × (State → State) × Bool} (he : e ∈ transferTable s l c a nz b) (x : State) :
    blocked (curSp (e.2.2.2.1 x)) = blocked (curSp x) := by
  have hw (r : Fin 32) (y : Word) : blocked (curSp (modCur x fun q => q.wrG r y)) = blocked (curSp x) := by
    rw [curSp_modCur, blocked]
    obtain ⟨h1, h2, h3⟩ := wrG_calm r y (curSp x)
    rw [h1, h2, h3, blocked]
  simp only [transferTable, List.mem_cons, List.not_mem_nil, or_false] at he
  rcases he with rfl | rfl | rfl | rfl | rfl | rfl | rfl | rfl
  · rfl
  · rfl
  · rfl
  · exact hw ..
  · rfl
  · exact hw ..
  · rw [← hw l (nextPc s.cur.pc), curSp_modCur, curSp_modCur]; rfl
  · rw [← hw l (nextPc s.cur.pc), curSp_modCur, curSp_modCur]; rfl

/-- Every transfer of the table enters as a branch or as a DCALL. -/
theorem transfer_kind {s : State} {l c : Fin 32} {a : Src} {nz : Bool} {b : BrTarget}
    {e : Instr × EntryKind × Word × (State → State) × Bool} (he : e ∈ transferTable s l c a nz b) : e.2.1 = .branch ∨ e.2.1 = .dcall := by
  simp only [transferTable, List.mem_cons, List.not_mem_nil, or_false] at he
  rcases he with rfl | rfl | rfl | rfl | rfl | rfl | rfl | rfl <;> simp

/-- A transfer within the held line (R54, R60). -/
theorem goTo_within {s : State} {k : EntryKind} {target : Word} (i : Instr) (f : State → State) (h : Within s k target) :
    goTo (taken i s) k target f = .went (f (jumpTo target (taken i s))) := by
  obtain ⟨hp, hs, ha, hc⟩ := h
  unfold goTo
  dsimp only
  rw [taken_line, if_pos ⟨hp, by simp [hs], ha⟩, hc]
  rfl

/-- A transfer into another line that the read cache serves (R59, R62). -/
theorem goTo_enters {u t : State} {k : EntryKind} {target : Word} {r : Res} (f : State → State) (h : Elsewhere u target r)
    (hl : lineHit u u.cur.core r = true) (ht : enterLine u u.cur.core u.cur.sp u.cur.vf target k 0 0 = .ok t) :
    goTo u k target f = .went (f t) := by
  obtain ⟨hn, hr⟩ := h
  unfold goTo
  dsimp only
  rw [if_neg (by simpa using hn), hr]
  simp only [hl, ht, Bool.not_true, Bool.false_eq_true, if_false]

/-- A transfer into another line that the read cache does not serve (R59). -/
theorem goTo_waits {u : State} {k : EntryKind} {target : Word} {r : Res} (f : State → State) (h : Elsewhere u target r)
    (hl : lineHit u u.cur.core r = false) : goTo u k target f = .held (.fetch target) := by
  obtain ⟨hn, hr⟩ := h
  unfold goTo
  dsimp only
  rw [if_neg (by simpa using hn), hr]
  simp only [hl, Bool.not_false, if_true]

/-- A transfer within the held line to a slot with its TGT bit clear (R56). -/
theorem goTo_noTarget {s : State} {k : EntryKind} {target : Word} (i : Instr) (f : State → State) (hk : k = .branch ∨ k = .dcall)
    (hp : (curSp s).line.present = true) (hs : (curSp s).line.stale = false) (ha : lineOf target = (curSp s).line.addr)
    (ht : lineTgt (curSp s).line.line (slotOf target) = false) : goTo (taken i s) k target f = .err .target target 0 := by
  have hc : entryCode k (curSp s).line.line (slotOf target) false true = some .target := by
    rcases hk with rfl | rfl <;> simp [entryCode, ht]
  unfold goTo
  dsimp only
  rw [taken_line, if_pos ⟨hp, by simp [hs], ha⟩, hc]

/-- A ready instruction that ends in a transfer made: no window is open, or nothing is waited for after it. -/
theorem goes_of_went {i : Instr} {s t : State} {body : State → Ending} (h : Ready i s) (hx : exec i s = .next (issue i s body))
    (hb : body (taken i s) = .went t) (hw : (curSp s).win = [] ∨ blocked (curSp t) = false) : Goes i s t := by
  rw [Goes, hx, issue_ready h body (by rw [hb]; exact hw), hb]
  rfl

/-- A ready instruction that ends in a terminal fault. -/
theorem traps_of_err {i : Instr} {s : State} {body : State → Ending} {code : FaultCode} {va : Word} {acc : Nat} (h : Ready i s)
    (hx : exec i s = .next (issue i s body)) (hb : body (taken i s) = .err code va acc) : Traps i s code va acc := by
  rw [Traps, hx, issue_ready h body (by rw [hb]; exact .inr rfl), hb]

/-- A ready instruction that ends as it was once its sources are read. -/
theorem completes_of_done {i : Instr} {s : State} {body : State → Ending} (h : Ready i s) (hx : exec i s = .next (issue i s body))
    (hb : body (taken i s) = .done (taken i s)) : Completes i s (taken i s) := by
  have hw : (curSp s).win = [] ∨ (Ending.done (taken i s)).parks = false :=
    h.window.imp id fun hw => (taken_blocked i s).trans hw.2
  rw [Completes, hx, issue_ready h body (by rw [hb]; exact hw), hb]

@[simp] theorem jumpTo_blocked (target : Word) (s : State) : blocked (curSp (jumpTo target s)) = blocked (curSp s) := by
  rw [jumpTo, curSp_modCur]
  rfl

/-- A jump of a ready instruction leaves its spoke waiting for nothing, where a window is open. -/
theorem jump_calm {i : Instr} {s : State} (h : Ready i s) (target : Word) :
    (curSp s).win = [] ∨ blocked (curSp (jumpTo target (taken i s))) = false :=
  h.window.imp id fun hw => by rw [jumpTo_blocked, taken_blocked]; exact hw.2

/-- Settles O22, by the transfer within the held line. -/
theorem transfersWithin : Obligations.TransfersWithin := by
  unfold Obligations.TransfersWithin
  intro s l c a nz b e he ht h hwith
  obtain ⟨body, hx, hb⟩ := transfer_body he ht
  rw [goTo_within _ _ hwith] at hb
  exact goes_of_went h hx hb (by rw [transfer_blocked he]; exact jump_calm h _)

/-- Settles O23, by the transfer to another line. -/
theorem transfersElsewhere : Obligations.TransfersElsewhere := by
  unfold Obligations.TransfersElsewhere
  intro s l c a nz b e he ht h r hr
  obtain ⟨body, hx, hb⟩ := transfer_body he ht
  have hcur := taken_cur e.1 s
  refine ⟨fun hl t henter hw => ?_, fun hl hw => ?_⟩
  · rw [goTo_enters _ hr (by rwa [hcur]) (by rwa [hcur])] at hb
    exact goes_of_went h hx hb (by rwa [transfer_blocked he])
  · rw [hx, issue_closed h hw, hb, goTo_waits _ hr (by rwa [hcur])]
    rfl

/-- Settles O24, instruction by instruction. -/
theorem transfersFaultOrFallThrough : Obligations.TransfersFaultOrFallThrough := by
  unfold Obligations.TransfersFaultOrFallThrough
  refine ⟨fun s l c a nz b => ⟨fun e he ht h hp hs ha htgt => ?_, ?_, fun h hd hpc => ?_, ?_⟩,
    fun s a c nz b => ⟨fun h hc => ?_, fun h hc => ?_, fun h hc => ?_⟩⟩
  · obtain ⟨body, hx, hb⟩ := transfer_body he ht
    exact traps_of_err h hx (hb.trans (goTo_noTarget _ _ (transfer_kind he) hp hs ha htgt))
  · have hbad (i : Instr) (hpc : pcOk (src s a) = false) : goReg (taken i s) .branch (src (taken i s) a) id = .err .target (src s a) 0 := by
      rw [src_taken, goReg, if_neg (by simp [hpc])]
    simp only [List.forall_mem_cons, List.not_mem_nil, IsEmpty.forall_iff, implies_true, and_true]
    exact ⟨fun h hpc => traps_of_err h rfl (hbad _ hpc), fun h hpc => traps_of_err h rfl (hbad _ hpc)⟩
  · refine traps_of_err h rfl ?_
    rw [dcallTo, taken_drs, if_neg (Nat.not_le.2 hd), src_taken, if_pos ⟨rfl, by simp [hpc]⟩]
  · have hfull (i : Instr) (target : Word) (chk : Bool) (hd : 16 ≤ (curSp s).drs.length) :
        dcallTo (taken i s) l target chk = .err .drsOverflow 0 0 := by
      rw [dcallTo, taken_drs, if_pos hd]
      rfl
    simp only [List.forall_mem_cons, List.not_mem_nil, IsEmpty.forall_iff, implies_true, and_true]
    exact ⟨fun h hd => traps_of_err h rfl (hfull _ _ _ hd), fun h hd => traps_of_err h rfl (hfull _ _ _ hd)⟩
  · exact completes_of_done h rfl (by rw [src_taken, hc]; rfl)
  · exact completes_of_done h rfl (by dsimp only; rw [taken_rdG, if_pos hc])
  · exact writes_doneG h rfl (by dsimp only; rw [taken_rdG, hc]; rfl)

end Sys2Proof
end

section

/-!
The fetch of a line (R55, R59, R62, R63): what it leaves of the state, and what an entry that passes its checks makes of the spoke.
-/

namespace Sys2Proof

open Machine

/-- The state differs in nothing but the read caches, the lines held coherently, the counters and the caches of the tables. -/
def Fetched (s t : State) : Prop :=
  ∃ rc cx n fs, t = { s with rcache := rc, cxl := cx, ctrl := { s.ctrl with live := n }, fns := fs }

namespace Fetched

variable {s t u : State}

theorem refl (s : State) : Fetched s s := ⟨_, _, _, _, rfl⟩

theorem trans (h : Fetched s t) (k : Fetched t u) : Fetched s u := by
  obtain ⟨_, _, _, _, rfl⟩ := h
  obtain ⟨_, _, _, _, rfl⟩ := k
  exact ⟨_, _, _, _, rfl⟩

theorem sameMem (h : Fetched s t) : SameMem s t := by
  obtain ⟨_, _, _, _, rfl⟩ := h
  exact fun _ => rfl

theorem spKept (h : Fetched s t) : SpKept s t := by
  obtain ⟨_, _, _, _, rfl⟩ := h
  exact ⟨rfl, fun _ => rfl, fun _ _ _ => rfl⟩

theorem foldl {β : Type} {f : State → β → State} (l : List β) (hf : ∀ s x, Fetched s (f s x)) (s : State) : Fetched s (l.foldl f s) := by
  induction l generalizing s with
  | nil => exact refl s
  | cons x l ih => exact (hf s x).trans (ih _)

end Fetched

theorem fetched_rdrop (s : State) (t : Nat) (p : RLine → Bool) : Fetched s (rdrop s t p) := ⟨_, _, _, _, rfl⟩

theorem fetched_rhold (s : State) (t v : Nat) (l : Loc) (x : Line) : Fetched s (rhold s t v l x) := ⟨_, _, _, _, rfl⟩

theorem fetched_countLife (s : State) (code idx bin : Nat) : Fetched s (countLife s code idx bin) := ⟨_, _, _, _, rfl⟩

theorem fetched_rcLine (s : State) (t v : Nat) (l : Loc) : Fetched s (rcLine s t v l).1 := by
  obtain ⟨rc, cx, h⟩ := rcLine_state s t v l
  rw [h]
  exact ⟨_, _, _, _, rfl⟩

theorem fetched_getLine (s : State) (c v : Nat) (l : Loc) (e1 e2 : Line) : Fetched s (getLine s c v l e1 e2).1 := by
  have hdrop := (fetched_rcLine s (tileOf c) v l).trans (fetched_rdrop _ (tileOf c) fun r => r.sp == l.sp && r.a == l.a / 64)
  have hcount := hdrop.trans (fetched_countLife _ 2 0 0)
  unfold getLine
  dsimp only
  split
  · exact hdrop.trans (fetched_rhold ..)
  · split
    · exact hcount.trans (fetched_rhold ..)
    · exact hcount

theorem fetched_noteTlb (s : State) (v va : Nat) (e : Word) (bits : Nat) : Fetched s (noteTlb s v va e bits) := by
  unfold noteTlb
  dsimp only
  split
  · exact Fetched.refl s
  · exact ⟨_, _, _, _, rfl⟩

theorem fetched_noteDom (s : State) (v off : Nat) : Fetched s (noteDom s v off) := by
  unfold noteDom
  split
  · exact Fetched.refl s
  · split
    · exact Fetched.refl s
    · exact ⟨_, _, _, _, rfl⟩

theorem fetched_noteFetch (s : State) (v : Nat) (pc : Word) (r : Res) : Fetched s (noteFetch s v pc r) :=
  (((fetched_noteTlb s v _ _ _).trans (fetched_noteDom _ v _)).trans (fetched_noteDom _ v _)).trans (fetched_noteDom _ v _)

theorem fetched_readWanted (s : State) (c n v : Nat) (pc : Word) (r : Res) (e1 e2 : Line) : Fetched s (readWanted s c n v pc r e1 e2).1 := by
  unfold readWanted
  split
  · split
    · exact Fetched.refl s
    · exact fetched_getLine ..
  · exact (fetched_noteFetch ..).trans (fetched_getLine ..)

/-- A spoke that has entered a line, whose place and page are given (R62). -/
def entered (pc : Word) (r : Res) (l : Line) (stale : Bool) (q : Spoke) : Spoke :=
  { q with pc := pc, dom := pteDT r.leaf, want := none, ahead := none, second := false
           line := ⟨lineOf pc, l, true, stale, (lineOf pc).toNat / 2 ^ r.bits * 2 ^ r.bits, 2 ^ r.bits, r.loc.a⟩ }

/-- A line is entered where it has been read and passes its checks. -/
theorem enterLine_of_checks {s : State} {c n v : Nat} {pc : Word} {k : EntryKind} {e1 e2 : Line} {r : Res} {l : Line}
    (hb : badEntry k pc = false) (hr : lineRes s c n v pc = .ok r) (hl : (readWanted s c n v pc r e1 e2).2 = some l)
    (hc : lineCode k l (slotOf pc) (crossing (getSp s c n v) pc r.leaf) (pteE r.leaf) = none) :
    enterLine s c n v pc k e1 e2 = .ok (modSp (readWanted s c n v pc r e1 e2).1 c n v
      (entered pc r l ((aheadAt (getSp s c n v) pc).any (·.stale)))) := by
  unfold enterLine
  simp only [hb, hr, Bool.false_eq_true, if_false]
  generalize readWanted s c n v pc r e1 e2 = x at hl
  obtain ⟨s1, y⟩ := x
  obtain rfl : y = some l := hl
  simp only [hc]
  rfl

/-- An entry that has succeeded has changed its spoke and what a fetch leaves. -/
theorem enterLine_ok {s t : State} {c n v : Nat} {pc : Word} {k : EntryKind} {e1 e2 : Line} (h : enterLine s c n v pc k e1 e2 = .ok t) :
    ∃ s1 r l b, Fetched s s1 ∧ t = modSp s1 c n v (entered pc r l b) := by
  unfold enterLine at h
  dsimp only at h
  split at h
  · cases h
  · split at h
    · cases h
    next r hr =>
      have hf := fetched_readWanted s c n v pc r e1 e2
      generalize readWanted s c n v pc r e1 e2 = x at h hf
      split at h
      · cases h
      next s1 l =>
        split at h
        · cases h
        · exact ⟨s1, r, l, _, hf, (Except.ok.inj h).symm⟩

/-- The issuing spoke after an entry: at the target, in the domain of its page. -/
theorem curSp_enterLine {s t : State} {pc : Word} {k : EntryKind} {e1 e2 : Line}
    (h : enterLine s s.cur.core s.cur.sp s.cur.vf pc k e1 e2 = .ok t) : ∃ r l b, curSp t = entered pc r l b (curSp s) := by
  obtain ⟨s1, r, l, b, hf, rfl⟩ := enterLine_ok h
  refine ⟨r, l, b, ?_⟩
  unfold curSp
  rw [modSp_cur, hf.spKept.cur, getSp_modSp, hf.spKept.getSp]

end Sys2Proof
end

section

/-!
Domain calls and returns (R87 to R90, R349, R353).
-/

namespace Sys2Proof

open Machine

/-- A bit of a number that is put together of bits. -/
theorem testBit_sum_bits (n : Nat) (f : Fin n → Bool) (i : Fin n) :
    ((List.finRange n).map fun j => (f j).toNat * 2 ^ j.val).sum.testBit i.val = f i := by
  induction n with
  | zero => exact i.elim0
  | succ n ih =>
    have hsum : ((List.finRange (n + 1)).map fun j => (f j).toNat * 2 ^ j.val).sum
        = 2 * ((List.finRange n).map fun j => (f j.succ).toNat * 2 ^ j.val).sum + (f 0).toNat := by
      rw [List.finRange_succ, List.map_cons, List.sum_cons, List.map_map, Nat.add_comm, ← List.sum_map_mul_left]
      simp [Function.comp_def, Nat.pow_succ, Nat.mul_comm, Nat.mul_left_comm]
    rw [hsum]
    refine Fin.cases ?_ (fun j => ?_) i
    · cases f 0 <;> simp [Nat.testBit_zero]
    · rw [Fin.val_succ, Nat.testBit_add_one, Nat.mul_add_div two_pos, Nat.div_eq_of_lt (by cases f 0 <;> decide), Nat.add_zero, ih]

theorem callMask_getLsbD (caller : BitVec 8) (p : Spoke) (i : Fin 8) :
    (callMask caller p).getLsbD i.val = (p.lends[i].st == .pending && p.lends[i].lender == caller) := by
  rw [callMask, BitVec.getLsbD_ofNat, decide_eq_true i.isLt, Bool.true_and]
  exact testBit_sum_bits 8 (fun i => p.lends[i].st == .pending && p.lends[i].lender == caller) i

/-- A write of a general register leaves the rest of the spoke. -/
theorem wrG_rest (p : Spoke) (r : Fin 32) (x : Word) : ∃ g, p.wrG r x = { p with g := g } := by
  unfold Spoke.wrG
  split
  · exact ⟨_, rfl⟩
  · exact ⟨_, rfl⟩

/-- The lends and the record of a call, and its link register (R87, R88, R349). -/
theorem dcallEnd_eq (caller : BitVec 8) (ret : Word) (link : Fin 32) (p : Spoke) :
    ∃ g, (p.wrG link ret).g = g ∧ dcallEnd caller ret link p =
      { p with g := g, lends := p.lends.map (callLend caller p.dom), drs := p.drs ++ [⟨caller, ret, callMask caller p, false⟩] } := by
  obtain ⟨g, h⟩ := wrG_rest p link ret
  exact ⟨g, by rw [h], by rw [dcallEnd, h]; rfl⟩

theorem callLend_own {caller : BitVec 8} {l : Lend} (callee : BitVec 8) (h : l.st = .pending) (hl : l.lender = caller) :
    callLend caller callee l = { l with st := .opened, lendee := callee } := by rw [callLend, if_neg (by simp [h]), if_pos hl]

theorem callLend_other {caller : BitVec 8} {l : Lend} (callee : BitVec 8) (h : l.st = .pending) (hl : l.lender ≠ caller) :
    callLend caller callee l = Lend.none := by rw [callLend, if_neg (by simp [h]), if_neg hl]

theorem callLend_settled {l : Lend} (caller callee : BitVec 8) (h : l.st ≠ .pending) : callLend caller callee l = l := if_pos h

/-- A DRET whose record is a CALL record ends in the transfer to the return PC (R353). -/
theorem dret_body {s : State} {e : DRec} (he : (curSp s).drs.getLast? = some e) (ht : e.trap = false) :
    ∃ body, exec .dret s = .next (issue .dret s body)
      ∧ body (taken .dret s) = goTo (taken .dret s) .dret e.ret fun x => modCur x (dretEnd e (curSp s).dom) :=
  ⟨_, rfl, by dsimp only; rw [taken_drs, he]; dsimp only; rw [if_neg (by simp [ht]), taken_dom]⟩

theorem dretEnd_lends (e : DRec) (d : BitVec 8) (p : Spoke) (i : Fin 8) : (dretEnd e d p).lends[i] = retLend e d i p.lends[i] := by
  simp only [dretEnd, Fin.getElem_fin, Vector.getElem_ofFn]

/-- A return made: the PC and the domain of the state entered, the record popped, the lends that it names closed or freed (R89, R353). -/
theorem dret_returns {s x : State} {e : DRec} (h : Ready .dret s) (he : (curSp s).drs.getLast? = some e) (ht : e.trap = false)
    (hw : (curSp s).win = [] ∨ blocked (curSp x) = false) (hdrs : (curSp x).drs = (curSp s).drs) (hlends : (curSp x).lends = (curSp s).lends)
    (hgo : ∀ f, goTo (taken .dret s) .dret e.ret f = .went (f x)) :
    ∃ t, Goes .dret s t ∧ (curSp t).pc = (curSp x).pc ∧ (curSp t).dom = (curSp x).dom ∧ (curSp t).drs = (curSp s).drs.dropLast
      ∧ ∀ i : Fin 8, (curSp t).lends[i] = retLend e (curSp s).dom i (curSp s).lends[i] := by
  obtain ⟨body, hx, hb⟩ := dret_body he ht
  refine ⟨_, goes_of_went h hx (hb.trans (hgo _)) (hw.imp id fun hw => by rwa [curSp_modCur]), ?_⟩
  rw [curSp_modCur]
  exact ⟨rfl, rfl, congrArg List.dropLast hdrs, fun i => by rw [dretEnd_lends, hlends]⟩

/-- Settles O25: the call by what it makes of its spoke, the return by its transfer. -/
theorem callsAndLends : Obligations.CallsAndLends := by
  unfold Obligations.CallsAndLends
  refine ⟨fun caller ret link p => ?_, fun s e h he ht => ?_⟩
  · obtain ⟨g, hg, hq⟩ := dcallEnd_eq caller ret link p
    have hl (i : Fin 8) : (dcallEnd caller ret link p).lends[i] = callLend caller p.dom p.lends[i] := by
      rw [hq]
      exact Vector.getElem_map ..
    dsimp only
    refine ⟨⟨⟨caller, ret, callMask caller p, false⟩, by rw [hq], rfl, rfl, rfl, fun i => ?_⟩,
      fun i ⟨hi, hc⟩ => ?_, fun i hi hc => ?_, fun i hi => ?_, ?_⟩
    · rw [callMask_getLsbD, Bool.and_eq_true, beq_iff_eq, beq_iff_eq]
    · rw [hl, callLend_own _ hi hc]
    · rw [hl, callLend_other _ hi hc]
    · rw [hl, callLend_settled _ _ hi]
    · rw [rdG_of_g (p := p.wrG link ret) (by rw [hq, hg]), rdG_wrG]
      by_cases h0 : link = 0 <;> simp [h0, Spoke.rdG]
  · simp only [← bitN_eq_getLsbD]
    have hcur := taken_cur .dret s
    refine ⟨fun hwith => ?_, fun r hr => ⟨fun hl t henter hw => ?_, fun hl hw => ?_⟩⟩
    · have hj : curSp (jumpTo e.ret (taken .dret s)) = _ := curSp_modCur ..
      have hret := dret_returns h he ht (jump_calm h e.ret) (by rw [hj, taken_drs]) (by rw [hj, taken_lends]) fun f => goTo_within _ f hwith
      rw [hj, taken_dom] at hret
      exact hret
    · rw [← hcur] at hl henter
      obtain ⟨r', l, b, hq⟩ := curSp_enterLine henter
      have hret := dret_returns h he ht hw (by rw [hq, entered, taken_drs]) (by rw [hq, entered, taken_lends]) fun f => goTo_enters f hr hl henter
      rw [show (curSp t).pc = e.ret by rw [hq]; rfl] at hret
      exact hret
    · obtain ⟨body, hx, hb⟩ := dret_body he ht
      rw [hx, issue_closed h hw, hb, goTo_waits _ hr (by rwa [hcur])]
      rfl

end Sys2Proof
end

section

/-!
ROINV (R60, R112, R113): the lines that it takes out of the read cache, and the ranges that it refuses.
-/

namespace Sys2Proof

open Machine

theorem rcache_staleTile (s : State) (t : Nat) (p : LineBuf → Bool) : (staleTile s t p).rcache = s.rcache := by
  unfold staleTile
  induction List.range 16 generalizing s with
  | nil => rfl
  | cons i l ih => rw [List.foldl_cons, ih]; rfl

theorem rlines_roDrop (s : State) (t : Nat) (all : Bool) (ps : List (Loc × Nat)) :
    rlines (roDrop s t all ps) t = (rlines s t).filter fun r => !(all || lineIn ps r.sp r.a) := by
  rw [roDrop, rlines, rcache_staleTile]
  exact (rlines_rdrop ..).trans (if_pos rfl)

theorem rlines_taken (i : Instr) (s : State) (t : Nat) : rlines (taken i s) t = rlines s t := by
  obtain ⟨a, b, h⟩ := taken_rest i s
  rw [h]
  rfl

/-- A range lies whole in a path that ROINV may name (R113). -/
def rangeFits (va k : Nat) : Prop := va / 2 ^ 61 ≤ 1 ∧ va / 2 ^ 57 % 16 = 0 ∧ va + k - 1 < 2 ^ 64 ∧ (va + k - 1) / 2 ^ 57 = va / 2 ^ 57

theorem not_rangeFits_iff (va : Word) (k : Nat) : ¬ rangeFits va.toNat k ↔
    pathOf va > 1 ∨ fieldN va 57 4 ≠ 0 ∨ va.toNat + k - 1 ≥ 2 ^ 64 ∨ (va.toNat + k - 1) / 2 ^ 57 ≠ va.toNat / 2 ^ 57 := by
  rw [rangeFits, not_and_or, not_and_or, not_and_or, Nat.not_le, Nat.not_lt]
  exact Iff.rfl

/-- A ready instruction that parks nothing behind an open window completes with what its meaning makes of the state. -/
theorem completes_closed {i : Instr} {s t : State} {body : State → Ending} (h : Ready i s) (hw : (curSp s).win = [])
    (hx : exec i s = .next (issue i s body)) (hb : body (taken i s) = .done t) : Completes i s t := by
  rw [Completes, hx, issue_closed h hw, hb, countIssue_nil hw]

/-- Settles O35, by the lines that stay. -/
theorem readCacheInvalidated : Obligations.ReadCacheInvalidated := by
  unfold Obligations.ReadCacheInvalidated
  intro s a n
  dsimp only
  intro h hw
  have hcur := taken_cur (.roinv a n) s
  refine ⟨fun hk => ⟨completes_closed h hw rfl ?_, ?_⟩, fun h0 hk hfit => ⟨completes_closed h hw rfl ?_, ?_⟩,
    fun hk => traps_of_err h rfl ?_, fun h0 hk hfit => traps_of_err h rfl ?_⟩
  · simp only [src_taken, hcur, hk, if_true]
  · simp [rlines_roDrop]
  · have hno := (not_rangeFits_iff (src s a) (src s n).toNat).not.1 (not_not.2 hfit)
    simp only [src_taken, hcur, h0.ne', if_false, Nat.not_lt.2 hk, hno]
  · rw [rlines_roDrop, rlines_taken]
    rfl
  · simp only [src_taken, hcur, hk, if_true, (Nat.zero_lt_of_lt hk).ne', if_false]
    rfl
  · have hno := (not_rangeFits_iff (src s a) (src s n).toNat).1 hfit
    simp only [src_taken, hcur, h0.ne', if_false, Nat.not_lt.2 hk, hno, if_true]

end Sys2Proof
end

section

/-!
The issue of a pair (R64, R67, R199): a step of a core at the first slot of a pair issues the one instruction and then the other.
-/

namespace Sys2Proof

open Machine

theorem onNext_onNext (o : Host.Outcome State Fault Refusal) (f g : State → Host.Outcome State Fault Refusal) :
    onNext (onNext o f) g = onNext o fun x => onNext (f x) g := by cases o <;> rfl

theorem isTret_of_ne {w : BitVec 96} {i : Instr} (h : decodeWord w = .ok i) (hi : i ≠ .tret) : isTret w = false := by
  unfold isTret
  rw [h]
  split
  next heq => exact absurd (DecRes.ok.inj heq) hi
  next => rfl

/-- The unit at the first slot of a pair is the pair (R64). -/
theorem issueUnit_pair {s : State} {c n v : Nat} (h : startsPair (getSp s c n v) = true) :
    issueUnit s c n v = issuePair s c n v (getSp s c n v).pc (lineSlot (getSp s c n v).line.line (slotOf (getSp s c n v).pc))
      (lineSlot (getSp s c n v).line.line (slotOf (getSp s c n v).pc + 1)) := by
  rw [startsPair, Bool.and_eq_true, Bool.and_eq_true, decide_eq_true_iff, Bool.not_eq_true'] at h
  obtain ⟨⟨hj, hl⟩, hs⟩ := h
  exact if_pos ⟨hj, hl, by rw [hs]; decide⟩

/-- A pair whose words pass and whose sources are present issues both (R67). -/
theorem issuePair_clean {s s2 : State} {c n v : Nat} {pc : Word} {w1 w2 : BitVec 96} {i j : Instr} (h1 : decodeWord w1 = .ok i)
    (h2 : decodeWord w2 = .ok j) (hi : failsWord (withCur s c n v pc (nextPc (nextPc pc)) true true false) i = false)
    (hj : failsWord (withCur s c n v pc (nextPc (nextPc pc)) true true false) j = false)
    (hp : precheck (withCur s c n v pc (nextPc (nextPc pc)) true true false) [i, j] = .ok s2) :
    issuePair s c n v pc w1 w2 = issueBoth { s2 with cur := { s2.cur with checked := true } } c n v pc w1 w2 := by
  simp only [issuePair, h1, h2, hi, hj, hp, Bool.or_self, Bool.false_eq_true, if_false]

/-- A pair whose window has been sealed, and that owes no trap, issues both (R199, R202). -/
theorem issueSealed_calm {s : State} {c n v : Nat} {pc : Word} {w1 : BitVec 96} {i : Instr} (w2 : BitVec 96) (h1 : decodeWord w1 = .ok i)
    (h : (getSp (sealWin s c n v pc) c n v).owed = []) : issueSealed s c n v pc w1 w2 =
      onNext (exec i { sealWin s c n v pc with cur := { (sealWin s c n v pc).cur with sealed := true } }) (issueSecond c n v pc w1 w2) := by
  unfold issueSealed
  dsimp only
  rw [h, issueTwo, issueWord_ok _ h1]
  rfl

/-- Settles O6: the step comes to the pair, and the pair to its two instructions. -/
theorem pairRuns : Obligations.PairRuns := by
  unfold Obligations.PairRuns
  intro s c n t r i j s2 hpow ha hc
  dsimp only
  intro hs hp hiss hpair h1 h2 hf1 hf2 hpre
  refine ⟨?_, fun howed => ?_, fun x hx hi => ?_⟩
  · rw [step_issue hpow ha hc hs, issueNow_picked hp hiss, issueUnit_pair hpair, issuePair_clean h1 h2 hf1 hf2 hpre,
      issueBoth, issueTwo, issueWord_ok _ h1, onNext_onNext]
    exact congrArg (onNext _) (funext fun y => apply_ite (onNext · _) _ _ _)
  · exact issueSealed_calm _ h1 howed
  · rw [issueSecond, if_neg (by rw [hx]; decide), issueWord_ok _ h2]
    simp only [isTret_of_ne h1 hi, Bool.false_and, Bool.false_eq_true, if_false]

end Sys2Proof
end

section

/-!
A line that arrives (R59, R60, R62, R63): what becomes of the spoke that waits for it, and what is read.
-/

namespace Sys2Proof

open Machine

/-- The translation of a fetch depends on no spoke. -/
theorem fetchLine_modSp (s : State) (c n v : Nat) (f : Spoke → Spoke) (d w : Nat) (pc : Word) :
    fetchLine (modSp s c n v f) d w pc = fetchLine s d w pc := by
  obtain ⟨a, b, h⟩ := setSp_rest s c n v (f (getSp s c n v))
  rw [modSp, h]
  rfl

/-- A spoke whose park is over. -/
def unpark (q : Spoke) : Spoke := { q with park := .none }

theorem lineRes_unpark (s : State) (c n v : Nat) (pc : Word) : lineRes (modSp s c n v unpark) c n v pc = lineRes s c n v pc := by
  unfold lineRes
  rw [getSp_modSp, fetchLine_modSp]
  rfl

/-- A wanted line in the domain of the spoke is entered, where no trap is owed (R62, R202). -/
theorem enterWanted_entered {s t : State} {c n v : Nat} {k : EntryKind} {e1 e2 : Line} {r : Res} (ho : (getSp s c n v).owed = [])
    (hr : lineRes s c n v (getSp s c n v).pc = .ok r) (hd : pteDT r.leaf = (getSp s c n v).dom)
    (ht : enterLine (modSp s c n v unpark) c n v (getSp s c n v).pc k e1 e2 = .ok t) : enterWanted s c n v k e1 e2 = t := by
  have ho' : (getSp (modSp s c n v unpark) c n v).owed = [] := by rw [getSp_modSp]; exact ho
  have ht' : enterLine (modSp s c n v fun p => { p with park := .none }) c n v (getSp s c n v).pc k e1 e2 = .ok t := ht
  unfold enterWanted
  simp only [hr, hd, bne_self_eq_false, Bool.false_eq_true, if_false]
  rw [show (getSp (modSp s c n v fun p => { p with park := .none }) c n v).owed = [] from ho', ht']
  rfl

/-- The line that a spoke at a line boundary waits for arrives (R62). -/
theorem lineArrival_wanted {s t : State} {c n : Nat} {k : EntryKind} {e1 e2 : Line} {r : Res} (hp : (getSp s c n (vfOf s c)).park = .line)
    (hk : (getSp s c n (vfOf s c)).want = some k) (ho : (getSp s c n (vfOf s c)).owed = [])
    (hr : lineRes s c n (vfOf s c) (getSp s c n (vfOf s c)).pc = .ok r) (hd : pteDT r.leaf = (getSp s c n (vfOf s c)).dom)
    (ht : enterLine (modSp s c n (vfOf s c) unpark) c n (vfOf s c) (getSp s c n (vfOf s c)).pc k e1 e2 = .ok t) :
    exec (.lineArrival c n e1 e2) s = .next (tryStop t c n (vfOf s c)) := by
  show execLineArrival c n e1 e2 s = _
  unfold execLineArrival
  simp only [hp, hk]
  rw [enterWanted_entered ho hr hd ht]

/-- A page of the spoke's own domain is no crossing (R55). -/
theorem crossing_same {p : Spoke} {e : Word} (pc : Word) (h : pteDT e = p.dom) : crossing p pc e = false := by
  rw [crossing, h, bne_self_eq_false, Bool.false_and]

/-- What an entry leaves of the memories. -/
theorem entered_sameMem {s s1 : State} (h : Fetched s s1) (c n v : Nat) (f : Spoke → Spoke) : SameMem s (tryStop (modSp s1 c n v f) c n v) :=
  (h.sameMem.trans (modSp_sameMem s1 c n v f)).trans (tryStop_sameMem _ c n v)

/-- The line that a transfer waits for arrives and is held for it (R57, R59). -/
theorem lineArrival_fetch {s : State} {c n : Nat} {target : Word} {e1 e2 : Line} {r : Res} {l : Line}
    (hp : (getSp s c n (vfOf s c)).park = .fetch target) (hr : fetchLine s c (vfOf s c) target = .ok r)
    (hl : (getLine (noteFetch (modSp s c n (vfOf s c) unpark) (vfOf s c) target r) c (vfOf s c) r.loc e1 e2).2 = some l) :
    exec (.lineArrival c n e1 e2) s
      = .next (tryStop (getLine (noteFetch (modSp s c n (vfOf s c) unpark) (vfOf s c) target r) c (vfOf s c) r.loc e1 e2).1 c n (vfOf s c)) := by
  show execLineArrival c n e1 e2 s = _
  unfold execLineArrival
  simp only [hp, hr]
  rw [show (modSp s c n (vfOf s c) fun q => { q with park := .none }) = modSp s c n (vfOf s c) unpark from rfl]
  generalize getLine (noteFetch (modSp s c n (vfOf s c) unpark) (vfOf s c) target r) c (vfOf s c) r.loc e1 e2 = x at hl ⊢
  obtain ⟨s1, y⟩ := x
  obtain rfl : y = some l := hl
  rfl

/-- The line that has been asked for ahead arrives (R60). -/
theorem lineArrival_ahead {s : State} {c n : Nat} {a : Ahead} {e1 e2 : Line} (hp : (getSp s c n (vfOf s c)).park = .none)
    (ha : (getSp s c n (vfOf s c)).ahead = some a) (hl : a.line = none) (he : a.err = none) :
    exec (.lineArrival c n e1 e2) s = .next (readAhead s c n (vfOf s c) a e1 e2) := by
  show execLineArrival c n e1 e2 s = _
  unfold execLineArrival
  simp only [hp, ha, hl, he]
  rfl

theorem lineArrival_idle {s : State} {c n : Nat} (e1 e2 : Line) (hp : (getSp s c n (vfOf s c)).park = .none)
    (ha : (getSp s c n (vfOf s c)).ahead = none) : exec (.lineArrival c n e1 e2) s = .next s := by
  show execLineArrival c n e1 e2 s = _
  unfold execLineArrival
  simp only [hp, ha]

/-- What has been asked for ahead, once its line has been read (R63). -/
def aheadRead (a : Ahead) : Option Line → Ahead
  | some l => { a with line := some l }
  | none => { a with err := some (errAt .lineParity a.pc 0) }

theorem readAhead_eq (s : State) (c n v : Nat) (a : Ahead) (e1 e2 : Line) :
    readAhead s c n v a e1 e2 =
      modSp (getLine s c v a.loc e1 e2).1 c n v fun q => { q with ahead := some (aheadRead a (getLine s c v a.loc e1 e2).2) } := by
  unfold readAhead readFor
  generalize getLine s c v a.loc e1 e2 = x
  obtain ⟨s1, _ | l⟩ := x <;> rfl

/-! The read of a line (R59, R63). -/

theorem memLine_fetched {s t : State} (h : Fetched s t) (l : Loc) : memLine t l = memLine s l := by
  rw [memLine, h.sameMem.rdN, memLine]

/-- A line through the read cache is that of memory or a held one. -/
theorem rcLine_source (s : State) (t v : Nat) (l : Loc) :
    (rcLine s t v l).2 = memLine s l ∨ ∃ r, rfind s t l = some r ∧ (rcLine s t v l).2 = r.line := by
  cases hf : rfind s t l with
  | none => exact .inl (rcLine_missed v hf)
  | some r =>
    cases he : Config.evict s.tick l.a with
    | false => exact .inr ⟨r, rfl, rcLine_held v hf he⟩
    | true =>
      left
      unfold rcLine
      rw [hf]
      simp only [he, if_true]
      exact memLine_fetched (fetched_rdrop ..) l

/-- The first copy is taken where its parity holds, else the second where its own does (R63). -/
theorem getLine_first {s : State} {c v : Nat} {l : Loc} {e1 : Line} (e2 : Line)
    (h : parityOk ((rcLine s (tileOf c) v l).2 ^^^ e1) = true) : (getLine s c v l e1 e2).2 = some ((rcLine s (tileOf c) v l).2 ^^^ e1) := by
  unfold getLine
  simp only [h, if_true]

theorem getLine_second {s : State} {c v : Nat} {l : Loc} {e1 : Line} (e2 : Line)
    (h : parityOk ((rcLine s (tileOf c) v l).2 ^^^ e1) = false) :
    (getLine s c v l e1 e2).2 = if parityOk (memLine s l ^^^ e2) then some (memLine s l ^^^ e2) else none := by
  have hm : memLine (countLife (rdrop (rcLine s (tileOf c) v l).1 (tileOf c) fun r => r.sp == l.sp && r.a == l.a / 64) 2 0 0) l = memLine s l :=
    memLine_fetched (((fetched_rcLine ..).trans (fetched_rdrop ..)).trans (fetched_countLife ..)) l
  unfold getLine
  simp only [h, Bool.false_eq_true, if_false, hm]
  split <;> rfl

theorem rfind_rhold (s : State) (t v : Nat) (l : Loc) (x : Line) : rfind (rhold s t v l x) t l = some ⟨l.sp, l.a / 64, x⟩ := by
  rw [rfind, rlines, rhold, mget_mset, if_pos rfl]
  exact List.find?_cons_of_pos (by simp)

/-- A line that has been read is held in the read cache (R59, R112). -/
theorem rfind_getLine {s : State} {c v : Nat} {l : Loc} {e1 e2 : Line} {y : Line} (h : (getLine s c v l e1 e2).2 = some y) :
    ∃ x, rfind (getLine s c v l e1 e2).1 (tileOf c) l = some x ∧ x.line = y := by
  unfold getLine at h ⊢
  dsimp only at h ⊢
  split at h
  next hp =>
    rw [if_pos hp]
    exact ⟨_, rfind_rhold .., Option.some.inj h⟩
  next hp =>
    rw [if_neg hp]
    split at h
    next hq =>
      rw [if_pos hq]
      exact ⟨_, rfind_rhold .., Option.some.inj h⟩
    next => cases h

theorem rfind_tryStop (s : State) (c n v t : Nat) (l : Loc) : rfind (tryStop s c n v) t l = rfind s t l := by
  have h : (tryStop s c n v).rcache = s.rcache := by rcases tryStop_cases s c n v with h | h <;> simp [h]
  rw [rfind, rlines, h]
  rfl

end Sys2Proof
end

section

/-!
An acknowledged invalidation (R60, R85, R112, R270, R408): what is left of the cached tables, the read caches and the line buffers, and
that what follows brings none of it back.
-/

namespace Sys2Proof

open Machine

/-! The VF of every core stays the same while what is under way reaches its banks. -/

/-- Every core has the VF that it had. -/
structure SameVf (s t : State) : Prop where
  vf : ∀ c, vfOf t c = vfOf s c

namespace SameVf

variable {s t u : State}

theorem refl (s : State) : SameVf s s := ⟨fun _ => rfl⟩

theorem trans (h : SameVf s t) (k : SameVf t u) : SameVf s u := ⟨fun c => (k.vf c).trans (h.vf c)⟩

theorem foldl {β : Type} {f : State → β → State} (l : List β) (hf : ∀ s x, SameVf s (f s x)) (s : State) : SameVf s (l.foldl f s) := by
  induction l generalizing s with
  | nil => exact refl s
  | cons x l ih => exact (hf s x).trans (ih _)

theorem of_quiet (h : Quiet s t) : SameVf s t := ⟨fun c => by unfold vfOf isSvc getHalf; rw [h.halves, h.ctrl]⟩

theorem modOwner (s : State) (o : Owner) (f : Spoke → Spoke) : SameVf s (modOwner s o f) := ⟨vfOf_modOwner s o f⟩

end SameVf

theorem sameVf_perform (s : State) (o : Owner) (r : Req) : SameVf s (perform s o r) := by
  have h0 : SameVf s (modOwner s o fun p => dropReq p r.id) := .modOwner ..
  have hput (l : List LaneAcc) : SameVf s (l.foldl (fun s x => putElem s r.n x) (modOwner s o fun p => dropReq p r.id)) :=
    h0.trans (.foldl l (fun s x => .of_quiet (quiet_putElem s r.n x)) _)
  unfold perform fillReq
  dsimp only
  split
  · split
    · exact h0
    · exact (h0.trans (.of_quiet (quiet_getElem1 ..))).trans (.modOwner ..)
  · exact hput _
  · split
    · exact h0
    · refine SameVf.trans ?_ (.modOwner ..)
      split
      · exact h0.trans (.of_quiet (.wrN ..))
      · exact h0
  · exact (h0.trans (.of_quiet (quiet_getLanes ..))).trans (.modOwner ..)
  · exact hput _

theorem sameVf_performAll (s : State) (o : Owner) (rs : List Req) : SameVf s (performAll s o rs) :=
  .foldl rs (fun s r => by
    split
    · exact .refl s
    · exact sameVf_perform s o r) s

theorem sameVf_flushOrphans (s : State) (p : Orphan → Bool) : SameVf s (flushOrphans s p) := by
  have h0 : SameVf s { s with orphans := s.orphans.filter fun x => !p x } := ⟨fun _ => rfl⟩
  exact h0.trans (.foldl (f := fun s (x : Orphan) => perform s .gone x.req) _ (fun s x => sameVf_perform s .gone x.req) _)

theorem sameVf_releaseAt (s : State) (l : Loc) (x : Word) (p : BankWait → Bool) : SameVf s (releaseAt s l x p) := by
  unfold releaseAt
  dsimp only
  refine SameVf.trans ?_ (.foldl _ (fun s w => .modOwner ..) _)
  exact ⟨fun _ => rfl⟩

theorem sameVf_barArrive (s : State) (l : Loc) (bytes : Nat) : SameVf s (barArrive s l bytes) := by
  have hwr (x y : Nat) : SameVf s (wrN (wrN s (l.plus 8) 4 x) (l.plus 12) 4 y) := .of_quiet (Quiet.trans (.wrN ..) (.wrN ..))
  unfold barArrive
  dsimp only
  split
  · exact (hwr _ _).trans (sameVf_releaseAt ..)
  · exact hwr _ _

theorem sameVf_drainCmds (s : State) (v : Nat) (hit : Loc → Bool) : SameVf s (drainCmds s v hit) := by
  unfold drainCmds
  dsimp only
  refine SameVf.trans ?_ (.foldl _ (fun s a => sameVf_barArrive ..) _)
  refine SameVf.trans (.foldl _ (fun s c => ?_) s) ⟨fun _ => rfl⟩
  exact SameVf.trans (.of_quiet (quiet_drainOut ..)) ⟨fun _ => rfl⟩

theorem sameVf_drainPart (s : State) (v : Nat) (pick : List Req → List Req) (hit : Loc → Bool) : SameVf s (drainPart s v pick hit) := by
  unfold drainPart
  dsimp only
  exact (SameVf.foldl _ (fun s o => sameVf_performAll ..) s).trans ((sameVf_flushOrphans ..).trans (sameVf_drainCmds ..))

theorem sameVf_readFor (s : State) (o : Owner) (c v : Nat) (a : Ahead) (e1 e2 : Line) : SameVf s (readFor s o c v a e1 e2) := by
  have hf : SameVf s (getLine s c v a.loc e1 e2).1 := ⟨(fetched_getLine s c v a.loc e1 e2).spKept.vf⟩
  unfold readFor
  generalize getLine s c v a.loc e1 e2 = x at hf
  obtain ⟨s1, _ | l⟩ := x
  · exact hf.trans (.modOwner ..)
  · exact hf.trans (.modOwner ..)

theorem sameVf_readAsked (s : State) (v lo len : Nat) : SameVf s (readAsked s v lo len) :=
  .foldl _ (fun s o => by
    split
    · exact .refl s
    · split
      · exact sameVf_readFor ..
      · exact .refl s) s

theorem sameVf_modFn (s : State) (v : Nat) (f : Fn → Fn) : SameVf s (modFn s v f) := ⟨fun _ => rfl⟩

/-- What learning of an acknowledgement does to the one who waits for it. -/
def wakeTinv (id : Nat) (p : Spoke) : Spoke := if p.park = .tinv id then { p with park := .none } else p

/-- The stop that an acknowledgement lets a spoke come to. -/
def ackStop (s : State) : Owner → State
  | .spoke c n v => tryStop s c n v
  | _ => s

/-- The completion word of an invalidation that the host has asked for. -/
def ackWord (s : State) : Option Nat → State
  | some a => wrN s ⟨.host, a⟩ 8 1
  | none => s

theorem ackInval_eq (s : State) (r : Inval) : ackInval s r = ackWord (ackStop (modOwner s r.owner (wakeTinv r.id)) r.owner) r.host := by
  obtain ⟨id, vf, lo, len, owner, host⟩ := r
  cases owner <;> cases host <;> rfl

/-- A relation that each part of an acknowledgement's notice keeps holds over the whole. -/
theorem ackInval_rel {R : State → State → Prop} (hr : ∀ s, R s s) (ht : ∀ {s t u}, R s t → R t u → R s u) {r : Inval}
    (hwake : ∀ s, R s (modOwner s r.owner (wakeTinv r.id))) (hstop : ∀ s c n v, R s (tryStop s c n v))
    (hword : ∀ s a, R s (wrN s ⟨.host, a⟩ 8 1)) (s : State) : R s (ackInval s r) := by
  have h2 (s : State) (o : Owner) : R s (ackStop s o) := by
    unfold ackStop
    split
    · exact hstop ..
    · exact hr s
  have h3 (s : State) (a : Option Nat) : R s (ackWord s a) := by
    unfold ackWord
    split
    · exact hword ..
    · exact hr s
  rw [ackInval_eq]
  exact ht (ht (hwake s) (h2 _ _)) (h3 _ _)

/-- A line buffer that is present is marked stale, and a line that has been read ahead (R60). -/
def staleAll (q : Spoke) : Spoke := staleLine (·.present) (staleAhead (fun _ => true) q)

/-- The hub spokes of the cores on which a VF is resident. -/
def staleHubs (s : State) (v : Nat) (u : State) : State :=
  { u with cores := u.cores.map fun p => if vfOf s p.1 = v then (p.1, { p.2 with hub := staleAll p.2.hub }) else p }

theorem staleVf_eq (s : State) (v : Nat) : staleVf s v = staleHubs s v (mapSpokes s v staleAll) := rfl

/-! What the update of spokes and images, and a completion word, leave of the tables and the read caches. -/

/-- The functions and the invalidations are as they were, and no line has come into a read cache. -/
structure NothingCached (s t : State) : Prop where
  fns : t.fns = s.fns
  invals : t.invals = s.invals
  lines : ∀ u, ∀ x ∈ rlines t u, x ∈ rlines s u

namespace NothingCached

variable {s t u : State}

theorem of_fields (h1 : t.fns = s.fns) (h2 : t.invals = s.invals) (h3 : t.rcache = s.rcache) : NothingCached s t :=
  ⟨h1, h2, fun u x hx => by rwa [rlines, h3] at hx⟩

theorem refl (s : State) : NothingCached s s := of_fields rfl rfl rfl

theorem trans (h : NothingCached s t) (k : NothingCached t u) : NothingCached s u :=
  ⟨k.fns.trans h.fns, k.invals.trans h.invals, fun w x hx => h.lines w x (k.lines w x hx)⟩

theorem foldl {β : Type} {f : State → β → State} (l : List β) (hf : ∀ s x, NothingCached s (f s x)) (s : State) :
    NothingCached s (l.foldl f s) := by
  induction l generalizing s with
  | nil => exact refl s
  | cons x l ih => exact (hf s x).trans (ih _)

/-- A host line that is written leaves the read caches that hold it coherently (R283). -/
theorem wrLoc (s : State) (l : Loc) (b : Byte) : NothingCached s (wrLoc s l b) := by
  refine ⟨wrLoc_fns .., wrLoc_invals .., fun u x hx => ?_⟩
  unfold Machine.wrLoc at hx
  split at hx
  next => exact hx
  next =>
    rw [rlines] at hx
    dsimp only at hx
    split at hx
    · rw [mget_map (fun ls : List RLine => ls.filter fun r => !(r.sp == .host && r.a == l.a / 64)) rfl fun _ => rfl] at hx
      exact List.mem_of_mem_filter hx
    · exact hx
  next => exact hx
  next => exact hx
  next => exact hx
  next => exact hx

theorem wrN (s : State) (l : Loc) (n x : Nat) : NothingCached s (wrN s l n x) := by
  induction n generalizing s l x with
  | zero => exact refl s
  | succ n ih => exact (wrLoc ..).trans (ih ..)

theorem imageWrite (s : State) (stamp off : Nat) (ps : List (Loc × Nat)) : NothingCached s (imageWrite s stamp off ps) := by
  induction ps generalizing s off with
  | nil => exact refl s
  | cons p ps ih => exact (foldl _ (fun s i => wrLoc s _ _) s).trans (ih ..)

theorem setImage (s : State) (i : Nat) (x : Image) (p : Spoke) : NothingCached s (setImage s i x p) := by
  unfold Machine.setImage
  split
  · exact refl s
  · split
    · refine NothingCached.trans ?_ (imageWrite _ _ _ _)
      exact of_fields rfl rfl rfl
    · exact of_fields rfl rfl rfl

theorem modSp (s : State) (c n v : Nat) (f : Spoke → Spoke) : NothingCached s (modSp s c n v f) :=
  of_fields (modSp_fns ..) (by simp) (by simp)

theorem modOwner (s : State) (o : Owner) (f : Spoke → Spoke) : NothingCached s (modOwner s o f) := by
  cases o with
  | spoke c n v => exact modSp ..
  | image i =>
    unfold Machine.modOwner
    dsimp only
    split
    · exact setImage ..
    · exact refl s
  | gone => exact refl s

theorem tryStop (s : State) (c n v : Nat) : NothingCached s (tryStop s c n v) := by
  rcases tryStop_cases s c n v with h | h <;> rw [h]
  · exact refl s
  · exact modSp ..

theorem mapSpokes (s : State) (v : Nat) (f : Spoke → Spoke) : NothingCached s (mapSpokes s v f) := by
  unfold Machine.mapSpokes
  dsimp only
  refine NothingCached.trans (foldl s.images (fun s p => ?_) s) (of_fields rfl rfl rfl)
  split
  · exact setImage ..
  · exact refl s

theorem staleVf (s : State) (v : Nat) : NothingCached s (staleVf s v) := (mapSpokes s v staleAll).trans (of_fields rfl rfl rfl)

theorem ackInval (s : State) (r : Inval) : NothingCached s (ackInval s r) :=
  ackInval_rel refl trans (fun s => modOwner s r.owner _) tryStop (fun s _ => wrN s _ 8 1) s

end NothingCached

end Sys2Proof
end

section

/-!
An acknowledged invalidation: the line buffers of the VF's spokes, in the images too, and the read caches (R60, R112, R270).
-/

namespace Sys2Proof

open Machine

/-- A line buffer that holds a line is stale. -/
def Stale (p : Spoke) : Prop := p.line.present = true → p.line.stale = true

theorem stale_staleAll (p : Spoke) : Stale (staleAll p) := by
  unfold Stale staleAll staleLine
  split
  next => exact fun _ => rfl
  next h => exact fun hp => absurd hp h

/-- A change that leaves the line buffer. -/
def LineKept (p q : Spoke) : Prop := q.line = p.line

theorem LineKept.refl (p : Spoke) : LineKept p p := rfl

theorem LineKept.trans {p q r : Spoke} (h : LineKept p q) (k : LineKept q r) : LineKept p r := Eq.trans k h

theorem LineKept.stale {p q : Spoke} (h : LineKept p q) (hp : Stale p) : Stale q := by rwa [Stale, h]

theorem lineKept_wakeTinv (id : Nat) (p : Spoke) : LineKept p (wakeTinv id p) := by
  unfold wakeTinv
  split <;> rfl

theorem lineKept_ackInval (s : State) (r : Inval) : SpFrame LineKept s (ackInval s r) := by
  refine ackInval_rel (SpFrame.refl LineKept.refl) (SpFrame.trans LineKept.trans) (fun s => ?_) (fun s c n v => ?_) (fun s a => ?_) s
  · cases r.owner with
    | spoke c n v => exact spFrame_modSp LineKept.refl (lineKept_wakeTinv _) s c n v
    | image i =>
      unfold modOwner
      dsimp only
      split
      · exact (spKept_setImage ..).frame LineKept.refl
      · exact SpFrame.refl LineKept.refl s
    | gone => exact SpFrame.refl LineKept.refl s
  · rcases tryStop_cases s c n v with h | h <;> rw [h]
    · exact SpFrame.refl LineKept.refl s
    · exact spFrame_modSp LineKept.refl (by intro _; rfl) s c n v
  · exact SpFrame.mono (spKept_of_fields (by simp) (by simp) (by simp) (by simp) (by simp)) fun _ _ h => congrArg Spoke.line h.symm

theorem getCore_staleHubs (s : State) (v : Nat) (u : State) (c : Nat) : getCore (staleHubs s v u) c =
    if vfOf s c = v then { getCore u c with hub := staleAll (getCore u c).hub } else getCore u c := by
  have hpair (p : Nat × Core) : (if vfOf s p.1 = v then (p.1, { p.2 with hub := staleAll p.2.hub }) else p)
      = (p.1, if vfOf s p.1 = v then { p.2 with hub := staleAll p.2.hub } else p.2) := by
    split <;> rfl
  unfold staleHubs
  simp only [hpair]
  exact mget_map_key (d := Core.reset) (g := fun c k => if vfOf s c = v then { k with hub := staleAll k.hub } else k)
    (fun c => by split <;> rfl) u.cores c

theorem getCtx_staleHubs (s : State) (v : Nat) (u : State) (c w : Nat) : getCtx (staleHubs s v u) c w = getCtx u c w := by
  by_cases h : vfOf u c = w
  · rw [getCtx_live (s := staleHubs s v u) h, getCtx_live h, getCore_staleHubs]
    split <;> rfl
  · rw [getCtx_saved (s := staleHubs s v u) h, getCtx_saved h]
    rfl

/-- The spokes of a VF, and the hub spokes of its cores, after their line buffers have been marked stale. -/
theorem getSp_staleVf (s : State) {c n v : Nat} (hc : c < 65536) (h : n ≠ 0 ∨ vfOf s c = v) :
    getSp (staleVf s v) c n v = staleAll (getSp s c n v) := by
  have hm := getSp_mapSpokes (f := staleAll) rfl s v n v hc
  rw [staleVf_eq]
  by_cases hn : n = 0
  · subst hn
    rw [if_neg fun k => k.1 rfl] at hm
    rw [getSp_hub, getCore_staleHubs, if_pos (h.resolve_left fun k => k rfl), ← hm, getSp_hub]
  · rw [if_pos ⟨hn, rfl⟩] at hm
    rw [← hm, getSp_ctx _ _ _ hn, getSp_ctx _ _ _ hn, getCtx_staleHubs]

/-! Images. -/

theorem imageWrite_images (s : State) (stamp off : Nat) (ls : List (Loc × Nat)) : (imageWrite s stamp off ls).images = s.images := by
  have hpiece (xs : List Nat) (l : Loc) (off : Nat) (t : State) :
      (xs.foldl (fun s i => wrLoc s (l.plus i) (Config.imageByte stamp (off + i))) t).images = t.images := by
    induction xs generalizing t with
    | nil => rfl
    | cons i xs ih => rw [List.foldl_cons, ih, wrLoc_images]
  induction ls generalizing s off with
  | nil => rfl
  | cons p ls ih => exact (ih _ _).trans (hpiece ..)

/-- What a list of images holds once one of them has been written: what it held, and the new contents at its key. -/
theorem mem_setImage {s : State} {i : Nat} {x : Image} {p : Spoke} {q : Nat × Image} (h : q ∈ (setImage s i x p).images) :
    (q ∈ s.images ∧ (q = (i, x) → p = x.sp)) ∨ (q.2.vf = x.vf ∧ q.2.sp = p) := by
  have hset {y : Image} (h : q ∈ mset s.images i y) (hv : y.vf = x.vf) (hy : y.sp = p) :
      (q ∈ s.images ∧ (q = (i, x) → p = x.sp)) ∨ (q.2.vf = x.vf ∧ q.2.sp = p) := by
    rcases (mem_mins _ _ _ _).1 h with rfl | hq
    · exact .inr ⟨hv, hy⟩
    · exact .inl ⟨List.mem_of_mem_filter hq, fun e => absurd (congrArg Prod.fst e) (mdel_ne _ _ q hq)⟩
  unfold setImage at h
  split at h
  next hp => exact .inl ⟨h, fun _ => hp⟩
  next =>
    split at h
    · rw [imageWrite_images] at h
      exact hset h rfl rfl
    · exact hset h rfl rfl

/-- The images of a VF are stale. -/
def ImagesStale (s : State) (v : Nat) : Prop := ∀ q ∈ s.images, q.2.vf = v → Stale q.2.sp

theorem imagesStale_fold (v : Nat) (l : List (Nat × Image)) (s : State) (h : ∀ q ∈ s.images, q ∈ l ∨ (q.2.vf = v → Stale q.2.sp)) :
    ImagesStale (l.foldl (fun s p => if p.2.vf = v then setImage s p.1 p.2 (staleAll p.2.sp) else s) s) v := by
  induction l generalizing s with
  | nil => exact fun q hq => (h q hq).resolve_left List.not_mem_nil
  | cons a l ih =>
    refine ih _ fun q hq => ?_
    have hold (hq : q ∈ s.images) (ha : q = a → q.2.vf = v → Stale q.2.sp) : q ∈ l ∨ (q.2.vf = v → Stale q.2.sp) := by
      rcases h q hq with hl | hs
      · exact (List.mem_cons.1 hl).elim (fun e => .inr (ha e)) .inl
      · exact .inr hs
    dsimp only at hq
    split at hq
    next hv =>
      rcases mem_setImage hq with ⟨hq, hne⟩ | ⟨-, hsp⟩
      · refine hold hq fun e _ => ?_
        subst e
        rw [← hne rfl]
        exact stale_staleAll _
      · right
        rw [hsp]
        exact fun _ => stale_staleAll _
    next hv => exact hold hq fun e k => absurd (e ▸ k) hv

theorem imagesStale_staleVf (s : State) (v : Nat) : ImagesStale (staleVf s v) v :=
  imagesStale_fold v s.images s fun _ hq => .inl hq

theorem mem_of_mhas {α : Type} (d : α) {m : List (Nat × α)} {k : Nat} (h : mhas m k = true) : (k, mget d m k) ∈ m := by
  induction m with
  | nil => cases h
  | cons p m ih =>
    by_cases hp : p.1 = k
    · rw [mget, if_pos hp, ← hp]
      exact List.mem_cons_self
    · rw [mget, if_neg hp]
      refine List.mem_cons_of_mem _ (ih ?_)
      rw [mhas, List.any_cons, Bool.or_eq_true, beq_iff_eq] at h
      exact h.resolve_left hp

theorem imagesStale_ackInval {s : State} {v : Nat} (r : Inval) (h : ImagesStale s v) : ImagesStale (ackInval s r) v := by
  have hsame {s t : State} (e : t.images = s.images) : ImagesStale s v → ImagesStale t v := fun h q hq => h q (e ▸ hq)
  refine ackInval_rel (R := fun s t => ImagesStale s v → ImagesStale t v) (fun _ h => h) (fun h k hs => k (h hs)) (fun s => ?_)
    (fun s c n w => hsame ?_) (fun s a => hsame (wrN_images ..)) s h
  · cases r.owner with
    | spoke c n w => exact hsame (modSp_images ..)
    | image i =>
      unfold modOwner
      dsimp only
      split
      next hi =>
        intro hs q hq hv
        rcases mem_setImage hq with ⟨hq, -⟩ | ⟨hvf, hsp⟩
        · exact hs q hq hv
        · rw [hsp]
          exact (lineKept_wakeTinv _ _).stale (hs _ (mem_of_mhas Image.none hi) (hvf ▸ hv))
      next => exact id
    | gone => exact id
  · rcases tryStop_cases s c n w with e | e <;> simp [e]

/-! Read caches. -/

/-- The tiles whose read caches an invalidation of a VF reaches. -/
def invalTiles (s s1 : State) (v : Nat) : List Nat := (s1.rcache.map (·.1)).filter fun t => v = 0 ∨ (vfTiles s v).contains t

/-- A read cache that an invalidation reaches holds no line that it names, whichever tiles have lines. -/
theorem rlines_invalTiles (s s1 : State) {v tile : Nat} (p : RLine → Bool) (h : v = 0 ∨ tile ∈ vfTiles s v) :
    ∀ x ∈ rlines ((invalTiles s s1 v).foldl (fun s t => rdrop s t p) s1) tile, p x = false := by
  refine rlines_foldl_rdrop p _ s1 tile ?_
  by_cases hk : tile ∈ s1.rcache.map (·.1)
  · left
    rw [invalTiles, List.mem_filter]
    exact ⟨hk, decide_eq_true (h.imp id fun h => List.contains_iff_mem.2 h)⟩
  · right
    rw [rlines, mget_of_not_mem [] hk]
    exact fun _ hr => absurd hr List.not_mem_nil

/-- A line that holds no byte of any place holds none of some of them. -/
theorem lineIn_flatMap {α : Type} {l : List α} {f : α → List (Loc × Nat)} {sp : Space} {a : Nat} (h : lineIn (l.flatMap f) sp a = false)
    {e : α} (he : e ∈ l) : lineIn (f e) sp a = false := by
  rw [lineIn, List.any_eq_false] at h ⊢
  exact fun p hp => h p (List.mem_flatMap.2 ⟨e, he, hp⟩)

/-! The invalidation as a whole. -/

/-- What an invalidation has reached its bank for, before it removes anything. -/
def invalDrained (s : State) (v lo len : Nat) : State :=
  if len = 0 then drainVf (readAsked s v lo len) v else drainAt (readAsked s v lo len) v (invalPlaces s v lo len)

theorem sameVf_invalDrained (s : State) (v lo len : Nat) : SameVf s (invalDrained s v lo len) := by
  unfold invalDrained drainVf drainAt
  split
  · exact (sameVf_readAsked ..).trans (sameVf_drainPart ..)
  · exact (sameVf_readAsked ..).trans (sameVf_drainPart ..)

/-- The cached tables of a VF without what they hold of a range. -/
def dropTables (lo len : Nat) (f : Fn) : Fn :=
  { f with tlb := f.tlb.filter fun e => !invalMeets lo len e.lo (2 ^ e.bits)
           seen := f.seen.filter fun e => !invalMeets lo len e.lo (2 ^ e.bits), descs := [] }

/-- The read caches without the lines that an invalidation names. -/
def invalCleaned (s : State) (v lo len : Nat) : State :=
  (invalTiles s (invalDrained s v lo len) v).foldl (fun u t => rdrop u t fun r => len == 0 || lineIn (invalPlaces s v lo len) r.sp r.a)
    (invalDrained s v lo len)

theorem rlines_invalCleaned (s : State) {v tile : Nat} (lo len : Nat) {x : RLine} (h : v = 0 ∨ tile ∈ vfTiles s v)
    (hx : x ∈ rlines (invalCleaned s v lo len) tile) : (len == 0 || lineIn (invalPlaces s v lo len) x.sp x.a) = false :=
  rlines_invalTiles s (invalDrained s v lo len) (fun r => len == 0 || lineIn (invalPlaces s v lo len) r.sp r.a) h x hx

/-- The state whose read caches and cached tables an invalidation has gone through. -/
def invalTables (s : State) (v lo len : Nat) : State := modFn (invalCleaned s v lo len) v (dropTables lo len)

theorem invalidate_eq (s : State) (v lo len : Nat) : invalidate s v lo len = staleVf (invalTables s v lo len) v := by
  unfold invalidate invalTables invalCleaned invalTiles invalDrained
  rfl

theorem sameVf_invalTables (s : State) (v lo len : Nat) : SameVf s (invalTables s v lo len) :=
  ((sameVf_invalDrained s v lo len).trans (SameVf.foldl (f := fun u t => rdrop u t _) _ (fun _ _ => ⟨fun _ => rfl⟩) _)).trans (sameVf_modFn ..)

/-- The state in which an invalidation has done its work and is gone. -/
def invalDone (s : State) (idx : Nat) (r : Inval) : State :=
  { staleVf (invalTables s r.vf r.lo r.len) r.vf with invals := dropAt s.invals idx }

theorem exec_invalidationAck {s : State} {idx : Nat} {r : Inval} (h : s.invals[idx]? = some r) :
    exec (.invalidationAck idx) s = .next (ackInval (invalDone s idx r) r) := by
  show execInvalidationAck idx s = _
  unfold execInvalidationAck
  rw [h]
  dsimp only
  rw [invalidate_eq]
  rfl

section
variable (s : State) (idx : Nat) (r : Inval)

theorem getFn_acked : getFn (ackInval (invalDone s idx r) r) r.vf = dropTables r.lo r.len (getFn (invalCleaned s r.vf r.lo r.len) r.vf) := by
  have h : (staleVf (invalTables s r.vf r.lo r.len) r.vf).fns = (invalTables s r.vf r.lo r.len).fns := (NothingCached.staleVf ..).fns
  rw [getFn, (NothingCached.ackInval ..).fns, invalDone, h]
  exact mget_mset_same ..

theorem rlines_acked {tile : Nat} {x : RLine} (h : x ∈ rlines (ackInval (invalDone s idx r) r) tile) :
    x ∈ rlines (invalCleaned s r.vf r.lo r.len) tile :=
  (NothingCached.staleVf (invalTables s r.vf r.lo r.len) r.vf).lines tile x ((NothingCached.ackInval (invalDone s idx r) r).lines tile x h)

theorem stale_acked {c n : Nat} (hc : c < 65536) (h : n ≠ 0 ∨ vfOf s c = r.vf) :
    Stale (getSp (ackInval (invalDone s idx r) r) c n r.vf) := by
  have hvf := (sameVf_invalTables s r.vf r.lo r.len).vf c
  have hsp : getSp (invalDone s idx r) c n r.vf = staleAll (getSp (invalTables s r.vf r.lo r.len) c n r.vf) :=
    getSp_staleVf _ hc (h.imp id hvf.trans)
  exact ((lineKept_ackInval ..).sp c n r.vf).stale (hsp ▸ stale_staleAll _)

theorem imagesStale_acked : ImagesStale (ackInval (invalDone s idx r) r) r.vf :=
  imagesStale_ackInval r (imagesStale_staleVf (invalTables s r.vf r.lo r.len) r.vf)

end

/-- A line that passes its checks is entered, in the domain of the spoke (R62). -/
theorem lineArrival_entered {s : State} {c n v : Nat} {k : EntryKind} {e1 e2 : Line} {r : Res} {l : Line} (hv : vfOf s c = v)
    (hp : (getSp s c n v).park = .line) (hk : (getSp s c n v).want = some k) (ho : (getSp s c n v).owed = [])
    (hb : badEntry k (getSp s c n v).pc = false) (hr : lineRes s c n v (getSp s c n v).pc = .ok r)
    (hd : pteDT r.leaf = (getSp s c n v).dom) (hl : (readWanted (modSp s c n v unpark) c n v (getSp s c n v).pc r e1 e2).2 = some l)
    (hc : lineCode k l (slotOf (getSp s c n v).pc) false (pteE r.leaf) = none) :
    ∃ s1 y, Fetched (modSp s c n v unpark) s1
      ∧ exec (.lineArrival c n e1 e2) s = .next (tryStop (modSp s1 c n v (entered (getSp s c n v).pc r l y)) c n v) := by
  subst hv
  have hcross := crossing_same (p := getSp (modSp s c n (vfOf s c) unpark) c n (vfOf s c)) (getSp s c n (vfOf s c)).pc (e := r.leaf)
    (by rw [getSp_modSp]; exact hd)
  have hent := enterLine_of_checks hb ((lineRes_unpark ..).trans hr) hl (by rw [hcross]; exact hc)
  exact ⟨_, _, fetched_readWanted .., lineArrival_wanted hp hk ho hr hd hent⟩

/-- A line that a transfer waits for is in the read cache, and the spoke waits no longer (R57, R59). -/
theorem lineArrival_held {s : State} {c n v : Nat} {target : Word} {e1 e2 : Line} {r : Res} {l : Line} (hv : vfOf s c = v)
    (hp : (getSp s c n v).park = .fetch target) (hr : fetchLine s c v target = .ok r)
    (hl : (getLine (noteFetch (modSp s c n v unpark) v target r) c v r.loc e1 e2).2 = some l) :
    ∃ t, exec (.lineArrival c n e1 e2) s = .next t ∧ SameMem s t ∧ (getSp t c n v).park = .none ∧ (getSp t c n v).pc = (getSp s c n v).pc
      ∧ ∃ x, rfind t (tileOf c) r.loc = some x ∧ x.line = l := by
  subst hv
  have hf := (fetched_noteFetch (modSp s c n (vfOf s c) unpark) (vfOf s c) target r).trans (fetched_getLine _ c (vfOf s c) r.loc e1 e2)
  refine ⟨_, lineArrival_fetch hp hr hl,
    ((modSp_sameMem s c n (vfOf s c) unpark).trans hf.sameMem).trans (tryStop_sameMem _ c n (vfOf s c)), ?_⟩
  obtain ⟨x, b, hq⟩ := getSp_tryStop (getLine (noteFetch (modSp s c n (vfOf s c) unpark) (vfOf s c) target r) c (vfOf s c) r.loc e1 e2).1
    c n (vfOf s c)
  rw [hq, hf.spKept.getSp, getSp_modSp, rfind_tryStop]
  exact ⟨rfl, rfl, rfind_getLine hl⟩

/-- Settles O43: the arrival of a line case by case, the two copies of its read, and what an acknowledgement leaves. -/
theorem linesAndInvalidations : Obligations.LinesAndInvalidations := by
  unfold Obligations.LinesAndInvalidations
  refine ⟨fun s core sp e1 e2 t => ⟨fun k r hp hk ho hr hd ht => lineArrival_wanted hp hk ho hr hd ht, fun k r l hp hk ho hb hr hd hl hc => ?_,
    fun target r l hp hr hl => lineArrival_held rfl hp hr hl, fun a hp ha hl he => ?_, fun hp ha => lineArrival_idle e1 e2 hp ha⟩,
    fun s core v l e1 e2 => ⟨rcLine_source .., getLine_first e2, getLine_second e2⟩, fun s idx r hr => ?_⟩
  · obtain ⟨s1, y, hf, hx⟩ := lineArrival_entered rfl hp hk ho hb hr hd hl hc
    obtain ⟨x, b, hq⟩ := getSp_tryStop (modSp s1 core sp (vfOf s core) (entered (getSp s core sp (vfOf s core)).pc r l y)) core sp (vfOf s core)
    rw [getSp_modSp, hf.spKept.getSp, getSp_modSp] at hq
    refine ⟨_, hx, (modSp_sameMem s core sp (vfOf s core) unpark).trans (entered_sameMem hf _ _ _ _), ?_⟩
    dsimp only
    rw [hq]
    exact ⟨rfl, rfl, rfl, hd, rfl, rfl, rfl, rfl, rfl⟩
  · refine ⟨_, lineArrival_ahead hp ha hl he, ?_, ?_⟩
    · rw [readAhead_eq]
      exact (fetched_getLine ..).sameMem.trans (modSp_sameMem _ core sp (vfOf s core) _)
    · rw [readAhead_eq, getSp_modSp]
      cases (getLine s core (vfOf s core) a.loc e1 e2).2 <;> rfl
  · have hmeets {β : Type} (l : List β) (f : β → Bool) : ∀ e ∈ l.filter fun e => !f e, f e = false := fun e he => by
      simpa using (List.mem_filter.1 he).2
    refine ⟨_, exec_invalidationAck hr, (NothingCached.ackInval ..).invals, ?_, ?_, ?_, fun tile ht x hx => ?_,
      fun c n hc h => stale_acked s idx r ?_ h,
      fun i x hx hv => imagesStale_acked s idx r (i, x) hx hv⟩
    · rw [getFn_acked]
      exact hmeets _ _
    · rw [getFn_acked]
      rfl
    · rw [getFn_acked]
      exact hmeets _ _
    · have hout := rlines_invalCleaned s r.lo r.len ht (rlines_acked s idx r hx)
      rw [Bool.or_eq_false_iff, beq_eq_false_iff_ne] at hout
      exact ⟨hout.1, fun e he hm => lineIn_flatMap hout.2 (List.mem_filter.2 ⟨he, hm⟩)⟩
    · exact hc.trans (by decide)

end Sys2Proof
end

section
/-! What reading the sources leaves to the presence test, to a cancellation and to the checks of a domain (R91, R98, R101, R337, R386). -/

namespace Sys2Proof

open Machine

/-- An instruction that reads no source leaves every register of its spoke as it was. -/
theorem curSp_taken_unread {i : Instr} (hu : Instr.uses i = []) (s : State) : ∃ w, curSp (taken i s) = { curSp s with wcount := w } := by
  refine ⟨(curSp (countIssue s)).wcount, ?_⟩
  rw [taken, curSp_modCur, hu, ← curSp_countIssue]
  rfl

theorem curOwner_taken (i : Instr) (s : State) : curOwner (taken i s) = curOwner s := by rw [curOwner, taken_cur, curOwner]

theorem cmds_taken (i : Instr) (s : State) : (taken i s).cmds = s.cmds := by
  obtain ⟨a, b, h⟩ := taken_rest i s
  rw [h]

/-- What CANCEL can stop is what it could stop before the issue (R338). -/
theorem cancellable_taken {i : Instr} (hu : Instr.uses i = []) (s : State) (o : Owner) (r : Fin 32) :
    cancellable (taken i s) o (curSp (taken i s)) r = cancellable s o (curSp s) r := by
  obtain ⟨w, h⟩ := curSp_taken_unread hu s
  rw [h, cancellable, cmds_taken]
  rfl

/-- A resolved read has a leaf that allows reads: step 5 of R126 has been made. -/
theorem pteR_of_resolve {s : State} {c v : Nat} {va : Word} {acc : Nat} {ok : Nat → Bool} {r : Res}
    (h : resolve s c v va (some false) acc ok = .ok r) : pteR r.leaf = true := by
  unfold resolve at h
  split at h
  · cases h
  · cases h
  next e bits _ =>
    dsimp only at h
    split at h
    · cases h
    · split at h
      · cases h
      next hneed =>
        split at h
        · cases h
        · cases h
          simpa using hneed

/-! The word of DOMQ (R101, R352). -/

/-- A right is a number of two bits (R80). -/
theorem right_lt {s : State} {v : Nat} {d o : BitVec 8} {va k : Nat} (h : right s v d o va = some k) : k < 4 := by
  unfold right at h
  split at h
  · cases h
    split
    · decide
    · decide
  · split at h
    · cases h
      decide
    · split at h
      · cases h
        decide
      · obtain ⟨w, -, rfl⟩ := Option.map_eq_some_iff.1 h
        exact Nat.mod_lt _ (by decide)

/-- The first lend that covers a byte for reads, 0 where none does. -/
def lendIndex (p : Spoke) (va : Word) : Fin 8 := ((List.finRange 8).find? fun i => lendCovers p.dom va 1 false p.lends[i]).getD 0

/-- The answer of DOMQ for a byte of domain `o` with right `k`: the owner, the right, whether lends cover the byte, the index, and the mark of a valid answer. -/
def domqAnswer (o : BitVec 8) (k : Nat) (lr lw : Bool) (ix : Fin 8) : Word :=
  BitVec.ofNat 64 (o.toNat + k * 2 ^ 8 + lr.toNat * 2 ^ 10 + lw.toNat * 2 ^ 11 + ix.val * 2 ^ 12 + 2 ^ 15)

theorem domqAnswer_fields {k : Nat} (hk : k < 4) (o : BitVec 8) (lr lw : Bool) (ix : Fin 8) :
    fieldN (domqAnswer o k lr lw ix) 0 8 = o.toNat ∧ fieldN (domqAnswer o k lr lw ix) 8 2 = k ∧ bitN (domqAnswer o k lr lw ix) 15 = true
      ∧ bitN (domqAnswer o k lr lw ix) 10 = lr ∧ bitN (domqAnswer o k lr lw ix) 11 = lw := by
  have ho := o.isLt
  have hx := ix.isLt
  have hr := Bool.toNat_lt lr
  have hw := Bool.toNat_lt lw
  have hval : (domqAnswer o k lr lw ix).toNat
      = o.toNat + k * 2 ^ 8 + lr.toNat * 2 ^ 10 + lw.toNat * 2 ^ 11 + ix.val * 2 ^ 12 + 2 ^ 15 := by
    rw [domqAnswer, BitVec.toNat_ofNat]
    exact Nat.mod_eq_of_lt (by omega)
  have hbit {x : Nat} (b : Bool) (h : x = b.toNat) : (x == 1) = b := by
    rw [h]
    cases b
    · rfl
    · rfl
  simp only [fieldN, bitsN, bitN, hval]
  exact ⟨by omega, by omega, hbit true (by rw [Bool.toNat_true]; omega), hbit lr (by omega), hbit lw (by omega)⟩

section
variable {t : State} {va : Word}

theorem domqWord_badPath (h : pathBad va = true) : domqWord t va = 0 := if_pos h

theorem domqWord_unresolved {e : FErr} (h : pathBad va = false)
    (hr : resolve t t.cur.core t.cur.vf va (some false) 1 (fun _ => true) = .error e) : domqWord t va = 0 := by
  rw [domqWord, h, hr]
  rfl

theorem domqWord_unread {r : Res} (h : pathBad va = false) (hr : resolve t t.cur.core t.cur.vf va (some false) 1 (fun _ => true) = .ok r)
    (hk : right t t.cur.vf (curSp t).dom (pteDT r.leaf) va.toNat = none) : domqWord t va = 0 := by
  rw [domqWord, h, hr]
  simp only [Bool.false_eq_true, if_false, hk]

theorem domqWord_resolved {r : Res} {k : Nat} (h : pathBad va = false)
    (hr : resolve t t.cur.core t.cur.vf va (some false) 1 (fun _ => true) = .ok r)
    (hk : right t t.cur.vf (curSp t).dom (pteDT r.leaf) va.toNat = some k) :
    domqWord t va = domqAnswer (pteDT r.leaf) k ((curSp t).lends.toList.any (lendCovers (curSp t).dom va 1 false))
      ((curSp t).lends.toList.any (lendCovers (curSp t).dom va 1 true)) (lendIndex (curSp t) va) := by
  rw [domqWord, h, hr]
  simp only [Bool.false_eq_true, if_false, hk]
  rfl

end

/-! The five instructions. -/

section
variable {s : State}

theorem ptestWord_eq (p : Spoke) (x : Reg) : ptestWord p x = if p.fullR x then 1 else if p.pendR x = .no then 0 else 2 := by
  rw [ptestWord, ite_not]

/-- PTEST writes its answer for the register as it stands at the issue (R386). -/
theorem ptest_writes {d r : Fin 32} {v : Bool} (h : Ready (.ptest d v r) s) :
    Writes (.ptest d v r) s d (ptestWord (curSp s) (if v then .v ⟨r.val % 8, by omega⟩ else .g r)) := by
  refine writes_doneG h rfl ?_
  obtain ⟨w, hp⟩ := curSp_taken_unread (i := .ptest d v r) rfl s
  rw [hp]
  cases v
  · rfl
  · rfl

theorem pendG_taken_cancel (s : State) (d r : Fin 32) : (curSp (taken (.cancel d r) s)).pendG r = (curSp s).pendG r := by
  obtain ⟨w, hp⟩ := curSp_taken_unread (i := .cancel d r) rfl s
  rw [hp]
  rfl

section
variable {d r : Fin 32} (h : Ready (.cancel d r) s)
include h

/-- CANCEL of a register that waits for nothing answers 1 (R337). -/
theorem cancel_idle (hp : (curSp s).pendG r = .no) : Writes (.cancel d r) s d 1 :=
  writes_doneG h rfl (if_pos ((pendG_taken_cancel s d r).trans hp))

/-- CANCEL of a command that it cannot stop answers 2 (R338). -/
theorem cancel_late (hp : (curSp s).pendG r ≠ .no) (hc : cancellable s (curOwner s) (curSp s) r = none) : Writes (.cancel d r) s d 2 := by
  refine writes_doneG h rfl ((if_neg (by rwa [pendG_taken_cancel])).trans ?_)
  rw [curOwner_taken, cancellable_taken rfl, hc]

/-- CANCEL of a command that it can stop stops it and answers 0 (R338). -/
theorem cancel_stops {c : Cmd} (hp : (curSp s).pendG r ≠ .no) (hc : cancellable s (curOwner s) (curSp s) r = some c)
    (hw : (curSp s).win = [] ∨ blocked (curSp (cancelCmd (taken (.cancel d r) s) c)) = false) :
    Completes (.cancel d r) s (modCur (cancelCmd (taken (.cancel d r) s) c) fun q => q.wrG d 0) := by
  refine completes_done h rfl ((if_neg (by rwa [pendG_taken_cancel])).trans ?_) (hw.imp_right fun hb => ?_)
  · rw [curOwner_taken, cancellable_taken rfl, hc]
    rfl
  · obtain ⟨g, hg⟩ := wrG_rest (curSp (cancelCmd (taken (.cancel d r) s) c)) d 0
    rw [curSp_modCur, hg]
    exact hb

end

section
variable {d : Fin 32} {a b : Src} {m : BitVec 2} (h : Ready (.lend d a b m) s)
include h

/-- Check 1 of LEND: a length of 0 or above 2^40 (R91). -/
theorem lend_length (hn : (src s b).toNat = 0 ∨ 2 ^ 40 < (src s b).toNat) : Traps (.lend d a b m) s .illegalField 0 0 := by
  refine traps_of_err h rfl ?_
  dsimp only
  rw [src_taken, src_taken, if_pos hn]
  rfl

variable (h0 : 0 < (src s b).toNat) (h40 : (src s b).toNat ≤ 2 ^ 40) (hr : lendRangeBad (src s a) (src s b).toNat = false)
include h0 h40 hr

/-- LEND with no free entry (R91). -/
theorem lend_full (hf : freeLend (curSp s) = none) : Traps (.lend d a b m) s .lendFull 0 0 := by
  have hlen : ¬ ((src s b).toNat = 0 ∨ (src s b).toNat > 2 ^ 40) := by omega
  have hfree : freeLend (curSp (taken (.lend d a b m) s)) = none := by rw [freeLend, taken_lends]; exact hf
  refine traps_of_err h rfl ?_
  dsimp only
  rw [src_taken, src_taken, if_neg hlen, hr, if_neg Bool.false_ne_true, hfree]
  rfl

/-- LEND with its checks passed makes an entry that is pending, and answers its number (R91). -/
theorem lend_made {e : Fin 8} {os : List (BitVec 8 × Nat)} (hf : freeLend (curSp s) = some e)
    (hp : lendPages (taken (.lend d a b m) s) (pageParts (src s a).toNat (src s b).toNat) = .ok os)
    (ho : lendRights (taken (.lend d a b m) s) (curSp s).dom os = none) :
    Completes (.lend d a b m) s
      (modCur (notePages (taken (.lend d a b m) s) s.cur.vf (curSp s).dom (pageParts (src s a).toNat (src s b).toNat)) fun q =>
        { q with lends := q.lends.set e ⟨src s a, (src s b).toNat, m == 2, (curSp s).dom, 0, .pending, 0⟩ }.wrG d (BitVec.ofNat 64 e.val)) := by
  have hlen : ¬ ((src s b).toNat = 0 ∨ (src s b).toNat > 2 ^ 40) := by omega
  have hfree : freeLend (curSp (taken (.lend d a b m) s)) = some e := by rw [freeLend, taken_lends]; exact hf
  refine completes_done h rfl ?_ (.inl (win_nil_of_ready h rfl rfl))
  dsimp only
  rw [src_taken, src_taken, if_neg hlen, hr, if_neg Bool.false_ne_true, hfree]
  dsimp only
  rw [hp, taken_dom, taken_cur]
  dsimp only
  rw [ho]
  rfl

end

/-- The meaning of UNLEND for a number. -/
def unlendEnd (t : State) (x : Word) : Ending :=
  let l := (curSp t).lends[lendIdx x]
  if x.toNat ≥ 8 then .fail .illegalField
  else if l.st ≠ .free ∧ (l.lender ≠ (curSp t).dom ∨ l.st = .opened) then .fail .illegalField
  else if l.st = .pending then doneP t fun p => { p with lends := p.lends.set (lendIdx x) Lend.none }
  else .done (waitOn t (.unlend (lendIdx x)))

theorem exec_unlend (s : State) (a : Src) : exec (.unlend a) s = .next (issue (.unlend a) s fun t => unlendEnd t (src t a)) := rfl

/-- UNLEND of an entry that is free or closed waits until it is free, which may be now (R98, R416). -/
theorem unlendEnd_waits {t : State} {x : Word} (h8 : x.toNat < 8) (ho : (curSp t).lends[lendIdx x].st ≠ .opened)
    (hp : (curSp t).lends[lendIdx x].st ≠ .pending)
    (hl : (curSp t).lends[lendIdx x].st = .free ∨ (curSp t).lends[lendIdx x].lender = (curSp t).dom) :
    unlendEnd t x = .done (parked (if (curSp t).lends[lendIdx x].st = .free then .none else .wait (.unlend (lendIdx x))) t) := by
  have hmine : ¬ ((curSp t).lends[lendIdx x].st ≠ .free ∧ ((curSp t).lends[lendIdx x].lender ≠ (curSp t).dom
      ∨ (curSp t).lends[lendIdx x].st = .opened)) := by tauto
  have hready : waitReady t t.cur.core t.cur.sp t.cur.vf (.unlend (lendIdx x)) = ((curSp t).lends[lendIdx x].st == .free) := rfl
  simp only [unlendEnd, if_neg (Nat.not_le.2 h8), if_neg hmine, if_neg hp, waitOn_eq, hready, beq_iff_eq]
  split
  · rfl
  · rfl

section
variable {a : Src} (h : Ready (.unlend a) s)
include h

/-- UNLEND of a number that names no entry (R98). -/
theorem unlend_noEntry (h8 : 8 ≤ (src s a).toNat) : Traps (.unlend a) s .illegalField 0 0 := by
  refine traps_of_err h (exec_unlend s a) ?_
  rw [src_taken, unlendEnd, if_pos h8]
  rfl

variable (h8 : (src s a).toNat < 8)
include h8

/-- UNLEND of an entry of another lender, or of one that is open (R98). -/
theorem unlend_denied (hf : (curSp s).lends[lendIdx (src s a)].st ≠ .free)
    (hl : (curSp s).lends[lendIdx (src s a)].lender ≠ (curSp s).dom ∨ (curSp s).lends[lendIdx (src s a)].st = .opened) :
    Traps (.unlend a) s .illegalField 0 0 := by
  refine traps_of_err h (exec_unlend s a) ?_
  rw [src_taken, unlendEnd, taken_lends, taken_dom, if_neg (Nat.not_le.2 h8), if_pos ⟨hf, hl⟩]
  rfl

/-- UNLEND of a pending entry takes it back (R98). -/
theorem unlend_pending (hp : (curSp s).lends[lendIdx (src s a)].st = .pending)
    (hl : (curSp s).lends[lendIdx (src s a)].lender = (curSp s).dom) :
    CompletesWith (.unlend a) s fun q => { q with lends := q.lends.set (lendIdx (src s a)) Lend.none } := by
  refine completes_doneP h (exec_unlend s a) ?_ fun p => ⟨rfl, rfl, rfl⟩
  rw [src_taken, unlendEnd, taken_lends, taken_dom, if_neg (Nat.not_le.2 h8), if_neg (by rw [hp, hl]; simp), if_pos hp]

/-- UNLEND of a free entry is over at once (R416). -/
theorem unlend_free (hf : (curSp s).lends[lendIdx (src s a)].st = .free) :
    Completes (.unlend a) s (parked .none (taken (.unlend a) s)) := by
  refine completes_done h (exec_unlend s a) ?_ (h.window.imp_right fun hw => ?_)
  · rw [src_taken, unlendEnd_waits h8 (by rw [taken_lends, hf]; decide) (by rw [taken_lends, hf]; decide) (.inl (by rw [taken_lends, hf])),
      taken_lends, if_pos hf]
  · have hb := (blocked_taken (.unlend a) s).trans hw.2
    simp only [blocked, Bool.or_eq_false_iff] at hb
    simp only [parked, curSp_modCur, blocked, hb.1.2, hb.2]
    rfl

/-- UNLEND of a closed entry of its own parks until nothing relies on it (R98). -/
theorem unlend_closed (hc : (curSp s).lends[lendIdx (src s a)].st = .closed)
    (hl : (curSp s).lends[lendIdx (src s a)].lender = (curSp s).dom) (hw : (curSp s).win = []) :
    Completes (.unlend a) s (parked (.wait (.unlend (lendIdx (src s a)))) (taken (.unlend a) s)) := by
  refine completes_done h (exec_unlend s a) ?_ (.inl hw)
  rw [src_taken, unlendEnd_waits h8 (by rw [taken_lends, hc]; decide) (by rw [taken_lends, hc]; decide)
    (.inr (by rw [taken_lends, taken_dom, hl])), taken_lends, if_neg (by rw [hc]; decide)]

end

section
variable {d : Fin 32} {a : Src} (h : Ready (.domq d a) s)
include h

/-- DOMQ of an address on no path answers 0 and has used no table (R101). -/
theorem domq_badPath (hb : pathBad (src s a) = true) : Writes (.domq d a) s d 0 := by
  refine writes_doneG h rfl ?_
  dsimp only
  rw [src_taken, if_pos hb, domqWord_badPath hb]

/-- DOMQ answers its word, and what it has used stays cached (R85, R101). -/
theorem domq_answers (hb : pathBad (src s a) = false) :
    Completes (.domq d a) s (modCur (noteVa (taken (.domq d a) s) s.cur.vf (curSp s).dom (src s a)) fun q =>
      q.wrG d (domqWord (taken (.domq d a) s) (src s a))) := by
  refine completes_done h rfl ?_ (.inl (win_nil_of_ready h rfl rfl))
  dsimp only
  rw [src_taken, hb, if_neg Bool.false_ne_true, taken_dom, taken_cur]
  rfl

end

end

/-- Settles O50: each instruction by what it answers, the word of DOMQ by the step at which its walk ends. -/
theorem presenceTestAndLends : Obligations.PresenceTestAndLends := by
  unfold Obligations.PresenceTestAndLends
  intro s d r v a b m
  dsimp only
  refine ⟨fun h => ?_, fun h => ⟨cancel_idle h, cancel_late h, fun c hp hc hw => cancel_stops h hp hc hw⟩,
    fun h => ⟨lend_length h, lend_full h, fun e os h0 h40 hr hf hp ho => lend_made h h0 h40 hr hf hp ho⟩,
    fun h => ⟨unlend_noEntry h, unlend_denied h, unlend_pending h, unlend_free h, unlend_closed h⟩, fun h => ?_⟩
  · rw [← ptestWord_eq]
    exact ptest_writes h
  · have hdone {x : Word} (hb : pathBad (src s a) = false) (hx : domqWord (taken (.domq d a) s) (src s a) = x) := hx ▸ domq_answers h hb
    have hcur := taken_cur (.domq d a) s
    have hdom := taken_dom (.domq d a) s
    refine ⟨domq_badPath h, fun e hb hr => hdone hb (domqWord_unresolved hb (by rwa [hcur])), fun x o hb hr =>
      ⟨pteR_of_resolve hr, fun hk => ⟨_, hdone hb (domqWord_resolved hb (by rwa [hcur]) (by rwa [hcur, hdom])), ?_⟩,
        fun hk => hdone hb (domqWord_unread hb (by rwa [hcur]) (by rwa [hcur, hdom]))⟩⟩
    rw [taken_lends, hdom]
    exact domqAnswer_fields (right_lt hk) ..

end Sys2Proof
end

section
/-! The issue of an engine command: what it records, what waits for it, the lends that count it (R83, R94, R197, R198, R323). -/

namespace Sys2Proof

open Machine

/-- A ready engine command runs its meaning on the state in which its sources are read, though it parks its spoke behind an open window: its own entry is in that window (R199). -/
theorem issue_engine {i : Instr} {s : State} (h : Ready i s) (he : Instr.isEngine i = true) (body : State → Ending) :
    issue i s body = settle (countIssue s) (body (taken i s)) := by
  have hrun : runBody i (countIssue s) body = body (taken i s) := by
    unfold runBody
    rw [if_neg (by simpa using h.free)]
    rfl
  unfold issue
  rw [h.word]
  cases hc : s.cur.checked
  · simp only [Bool.false_eq_true, if_false, precheck_ready h hc, hrun, he, Bool.not_true, Bool.and_false, Bool.false_and]
  · simp only [if_true, hrun, he, Bool.not_true, Bool.and_false, Bool.false_and, Bool.false_eq_true, if_false]

theorem v_taken (i : Instr) (s : State) (r : Fin 8) : (curSp (taken i s)).v[r].val = (curSp s).v[r].val := by
  rw [taken, curSp_modCur, val_v_consume, v_countIssue]

/-- A row of the table of engine commands is the command, with what its sources read as before the issue (R197, R198). -/
theorem engineTable_body {s : State} {f : Fmt} {sc sp2 tr ovw sat : Bool} {rnd : Rnd} {q : Quad} {d l : Fin 32} {a b c : Src} {x : VSrc}
    {n k : BitVec 10} {adj : BitVec 8} {op : CollOp} {e : Instr × EngRight × CmdArgs}
    (he : e ∈ engineTable s f sc sp2 tr ovw sat rnd q d l a b c x n k adj op) :
    Instr.isEngine e.1 = true ∧ ∃ body, exec e.1 s = .next (issue e.1 s body) ∧ body (taken e.1 s) = engEnd (taken e.1 s) e.2.1 d e.2.2 := by
  simp only [engineTable, List.mem_cons, List.not_mem_nil, or_false] at he
  rcases he with rfl | rfl | rfl | rfl | rfl | rfl | rfl | rfl | rfl | rfl
  · exact ⟨rfl, _, rfl, by simp only [src_taken]⟩
  · exact ⟨rfl, _, rfl, by simp only [src_taken]⟩
  · exact ⟨rfl, _, rfl, by simp only [src_taken]⟩
  · exact ⟨rfl, _, rfl, by simp only [src_taken]⟩
  · exact ⟨rfl, _, rfl, by simp only [src_taken]⟩
  · exact ⟨rfl, _, rfl, by simp only [src_taken, taken_rdG]⟩
  · exact ⟨rfl, _, rfl, rfl⟩
  · exact ⟨rfl, _, rfl, by simp only [v_taken]⟩
  · exact ⟨rfl, _, rfl, by simp only [v_taken]⟩
  · exact ⟨rfl, _, rfl, by simp only [src_taken]⟩

/-- The lends that a command relies on from its issue are among its snapshot (R94). -/
theorem mem_snap_of_heldSnap {t : State} {c : Cmd} {z : Snap} (h : z ∈ heldSnap t c) : z ∈ c.snap := by
  unfold heldSnap at h
  split at h
  · exact h
  · exact List.mem_of_mem_filter h

/-- A lend of the snapshot is open to the executing domain (R94). -/
theorem open_of_mem_openLends {p : Spoke} {z : Snap} (h : z ∈ openLends p) :
    p.lends[z.entry].st = .opened ∧ p.lends[z.entry].lendee = p.dom := by
  obtain ⟨i, -, hi⟩ := List.mem_filterMap.1 h
  dsimp only at hi
  split at hi
  next ho =>
    cases hi
    exact ho
  · cases hi

theorem open_of_mem_mkCmd {t : State} {d : Fin 32} {x : CmdArgs} {z : Snap} (h : z ∈ (mkCmd t d x).snap) :
    (curSp t).lends[z.entry].st = .opened ∧ (curSp t).lends[z.entry].lendee = (curSp t).dom :=
  open_of_mem_openLends (mem_snap_of_heldSnap h)

/-- A register that is owed is empty, waits for what it is owed, and keeps its value (R23). -/
theorem owe_spec (p : Spoke) {d : Fin 32} (hd : d ≠ 0) (w : Pend) :
    (p.owe d w).fullG d = false ∧ (p.owe d w).pendG d = w ∧ (p.owe d w).rdG d = p.rdG d := by
  have hg : (p.owe d w).g[d] = { p.g[d] with full := false, pend := w } := by
    rw [Spoke.owe, if_neg hd]
    exact (getElem_set_fin ..).trans (if_pos rfl)
  simp [Spoke.fullG, Spoke.pendG, Spoke.rdG, hd, hg]

/-- Counting on lends touches no register (R94). -/
theorem holdSnap_regs (p : Spoke) (snap : List Snap) (r : Fin 32) :
    (holdSnap p snap).fullG r = p.fullG r ∧ (holdSnap p snap).pendG r = p.pendG r ∧ (holdSnap p snap).rdG r = p.rdG r := ⟨rfl, rfl, rfl⟩

/-- The state in which engine command `id` counts on its lends, with its register owed or its spoke parked, before it enters the window (R94, R197). -/
def engHeld (t : State) (id : Nat) (d : Fin 32) (x : CmdArgs) : State :=
  modCur (bump t) fun p => holdSnap (if d = 0 then { p with park := .cmd id } else p.owe d (.cmd id)) (mkCmd t d x).snap

/-- The state in which an engine command has entered the window (R197). -/
def engEntered (t : State) (d : Fin 32) (x : CmdArgs) : State :=
  let t2 := enterWin (engHeld t t.nextId d x) t.cur.core t.cur.sp t.cur.vf (mkCmd t d x) t.cur.succ
  if d = 0 then settleSync t2 t.nextId else t2

theorem engEnd_denied {t : State} {r : EngRight} {g : FaultCode} (d : Fin 32) (x : CmdArgs) (h : noEng t r = some g) :
    engEnd t r d x = .err g 0 0 := by
  rw [engEnd, h]
  rfl

theorem engEnd_enters {t : State} {r : EngRight} (d : Fin 32) (x : CmdArgs) (h : noEng t r = none) :
    engEnd t r d x = .done (engEntered t d x) := by
  rw [engEnd, h]
  rfl

/-- The register of a command is pending on it and keeps its value (R23, R197). -/
theorem engHeld_register (t : State) (id : Nat) {d : Fin 32} (x : CmdArgs) (hd : d ≠ 0) :
    (curSp (engHeld t id d x)).fullG d = false ∧ (curSp (engHeld t id d x)).pendG d = .cmd id
      ∧ (curSp (engHeld t id d x)).rdG d = (curSp t).rdG d := by
  obtain ⟨hfull, hpend, hval⟩ := holdSnap_regs ((curSp t).owe d (.cmd id)) (mkCmd t d x).snap d
  obtain ⟨hf, hp, hv⟩ := owe_spec (curSp t) hd (.cmd id)
  have hcur : curSp (engHeld t id d x) = holdSnap ((curSp t).owe d (.cmd id)) (mkCmd t d x).snap := by
    rw [engHeld, curSp_modCur, if_neg hd]
    rfl
  rw [hcur]
  exact ⟨hfull.trans hf, hpend.trans hp, hval.trans hv⟩

/-- An engine command of the table traps without its right, and else enters the window with what it records (R83, R197, R198). -/
theorem engine_issues (s : State) (f : Fmt) (sc sp2 tr ovw sat : Bool) (rnd : Rnd) (q : Quad) (d l : Fin 32) (a b c : Src) (x : VSrc)
    (n k : BitVec 10) (adj : BitVec 8) (op : CollOp) :
    ∀ e ∈ engineTable s f sc sp2 tr ovw sat rnd q d l a b c x n k adj op, Ready e.1 s →
      (∀ g, noEng (taken e.1 s) e.2.1 = some g → Traps e.1 s g 0 0)
        ∧ (noEng (taken e.1 s) e.2.1 = none → Completes e.1 s (engEntered (taken e.1 s) d e.2.2)) := by
  intro e he h
  obtain ⟨heng, body, hx, hb⟩ := engineTable_body he
  refine ⟨fun g hg => ?_, fun hg => ?_⟩
  · rw [Traps, hx, issue_engine h heng, hb, engEnd_denied d e.2.2 hg]
  · rw [Completes, hx, issue_engine h heng, hb, engEnd_enters d e.2.2 hg]

end Sys2Proof
end

section
/-! The rules of the Trowel: which of a table is tried, what a match says, and what a replacement is (R203 to R207, R212). -/

namespace Sys2Proof

open Machine

/-! The order of a table (R201). -/

/-- A log entry of an application of rule `k`, with the outcome given (R212). -/
def ruleLogged (s : State) (k : Nat) (w : List Cmd) (out : Nat) : State :=
  match w with
  | [] => s
  | c :: _ => modOwner s c.owner fun p => trLog p k out (w.map (·.pc))

theorem mapM_id_map_some (w : List Cmd) : (w.map some).mapM id = some w := by
  rw [List.mapM_map]
  exact (List.mapM_pure (m := Option) (f := id)).trans (by rw [List.map_id]; rfl)

theorem ruleMatches_invalid {s : State} {r : BitVec 256} (w : List Cmd) (h : bitN r 0 = false) : ruleMatches s r w = false := by
  simp [ruleMatches, ruleV, h]

/-- A rule that is not valid is passed over (R203, R204). -/
theorem tryRules_invalid {tab : List (Nat × BitVec 256)} {k : Nat} (h : bitN (mget 0 tab k) 0 = false) (s : State)
    (ws : List (Option Cmd)) (ks : List Nat) : tryRules s tab ws (k :: ks) = tryRules s tab ws ks := by
  rw [tryRules]
  dsimp only
  split
  · rfl
  · rw [ruleMatches_invalid _ h]
    rfl

theorem tryRules_append_invalid {tab : List (Nat × BitVec 256)} {js : List Nat} (h : ∀ j ∈ js, bitN (mget 0 tab j) 0 = false) (s : State)
    (ws : List (Option Cmd)) (ks : List Nat) : tryRules s tab ws (js ++ ks) = tryRules s tab ws ks := by
  induction js with
  | nil => rfl
  | cons j js ih => rw [List.cons_append, tryRules_invalid (h j (by simp)), ih fun i hi => h i (by simp [hi])]

/-- With no valid rule the entries stay as written (R203). -/
theorem tryRules_none {tab : List (Nat × BitVec 256)} {js : List Nat} (h : ∀ j ∈ js, bitN (mget 0 tab j) 0 = false) (s : State)
    (ws : List (Option Cmd)) : tryRules s tab ws js = (s, 0) := by
  rw [← List.append_nil js, tryRules_append_invalid h, tryRules]

/-- What a match of a rule is (R204). -/
theorem ruleMatches_iff {s : State} {r : BitVec 256} {w : List Cmd} : ruleMatches s r w = true ↔
    bitN r 0 = true ∧ w.length = ruleLen r ∧ (∀ x ∈ w.zipIdx, posMatches r x.2 x.1 = true) ∧ (∀ k < 3, conHolds s r k w = true)
      ∧ predHolds s (rulePred r) w = true ∧ (ruleInGrp r = true → ∀ c ∈ w, bitN c.perm 2 = true) := by
  simp only [ruleMatches, ruleV, Bool.and_eq_true, beq_iff_eq, List.all_eq_true, List.mem_range, Bool.or_eq_true, Bool.not_eq_true', and_assoc]
  have hor (b : Bool) (P : Prop) : (b = false ∨ P) ↔ (b = true → P) := by cases b <;> simp
  rw [hor]

/-- A rule that matches the entries at the front is applied, or logged as refused (R206, R207, R210, R212). -/
theorem tryRules_matched {s : State} {tab : List (Nat × BitVec 256)} {w : List Cmd} {k : Nat} (hm : ruleMatches s (mget 0 tab k) w = true)
    (rest : List (Option Cmd)) (ks : List Nat) :
    (classAllowed (mget 0 tab k) w = false →
      tryRules s tab (w.map some ++ rest) (k :: ks) = tryRules (ruleLogged s k w 1) tab (w.map some ++ rest) ks)
    ∧ (classAllowed (mget 0 tab k) w = true → resources s (mget 0 tab k) w = false →
      tryRules s tab (w.map some ++ rest) (k :: ks) = tryRules (ruleLogged s k w 3) tab (w.map some ++ rest) ks)
    ∧ (∀ cs, classAllowed (mget 0 tab k) w = true → resources s (mget 0 tab k) w = true → rewrite (mget 0 tab k) w = some cs →
      tryRules s tab (w.map some ++ rest) (k :: ks) = (dispatchGroup (ruleLogged s k w 0) k w cs, w.length)) := by
  have hlen : ruleLen (mget 0 tab k) = (w.map some).length := by
    obtain ⟨-, hlen, -⟩ := ruleMatches_iff.1 hm
    rw [List.length_map, hlen]
  rw [tryRules]
  dsimp only
  rw [hlen, List.take_left, mapM_id_map_some]
  dsimp only
  rw [hm]
  refine ⟨fun hc => ?_, fun hc hr => ?_, fun cs hc hr hcs => ?_⟩
  · rw [hc]
    cases w <;> rfl
  · rw [hc, hr]
    cases w <;> rfl
  · rw [hc, hr, hcs]
    cases w <;> rfl

/-- A table with one valid rule comes to that rule, and to nothing behind it (R201). -/
theorem range_around {tab : List (Nat × BitVec 256)} {k : Nat} (hk : k < 64) (h : ∀ j < 64, j ≠ k → bitN (mget 0 tab j) 0 = false) :
    ∃ js ks, List.range 64 = js ++ k :: ks ∧ (∀ j ∈ js, bitN (mget 0 tab j) 0 = false) ∧ ∀ j ∈ ks, bitN (mget 0 tab j) 0 = false := by
  obtain ⟨js, ks, e⟩ := List.append_of_mem (List.mem_range.2 hk)
  have hnd : (js ++ k :: ks).Nodup := e ▸ List.nodup_range
  have hlt (j : Nat) (hj : j ∈ js ++ k :: ks) : j < 64 := List.mem_range.1 (e ▸ hj)
  obtain ⟨-, hks, hdis⟩ := List.nodup_append.1 hnd
  refine ⟨js, ks, e, fun j hj => h j (hlt j (by simp [hj])) (hdis j hj k (by simp)), fun j hj => h j (hlt j (by simp [hj])) ?_⟩
  rintro rfl
  exact (List.nodup_cons.1 hks).1 hj

/-! What a position and a constraint of a match say (R204), and which class is allowed (R206). -/

section
variable {s : State} {r : BitVec 256} {w : List Cmd}

/-- A position matches a command by its opcode and MOD under their masks (R204). -/
theorem posMatches_iff (p : Nat) (c : Cmd) : posMatches r p c = true ↔
    (c.op.code ^^^ fieldN r (16 + 32 * p) 7) &&& fieldN r (23 + 32 * p) 7 = 0
      ∧ (c.mods ^^^ fieldN r (30 + 32 * p) 9) &&& fieldN r (39 + 32 * p) 9 = 0 := by
  simp only [posMatches, opAdmits, rulePos, ruleF, Bool.and_eq_true, beq_iff_eq]
  rw [Nat.add_right_comm 16 _ 7, Nat.add_right_comm 16 _ 14, Nat.add_right_comm 16 _ 23]
  rfl

/-- A constraint of type 1 asks for equal operand values (R204). -/
theorem conHolds_equal {k : Nat} (hc : conHolds s r k w = true) (ht : fieldN r (144 + 12 * k) 2 = 1) {c d : Cmd}
    (h1 : w[fieldN r (146 + 12 * k) 2]? = some c) (h2 : w[fieldN r (151 + 12 * k) 2]? = some d) :
    c.operand (fieldN r (148 + 12 * k) 3) = d.operand (fieldN r (153 + 12 * k) 3) := by
  simp only [conHolds, ruleCon, ruleF, Nat.add_zero, ht] at hc
  rw [Nat.add_right_comm 144 (12 * k) 2, Nat.add_right_comm 144 (12 * k) 7, Nat.add_right_comm 144 (12 * k) 4, Nat.add_right_comm 144 (12 * k) 9] at hc
  simp only [Nat.reduceAdd, h1, h2, one_ne_zero, if_false, if_true, beq_iff_eq] at hc
  exact hc

theorem classAllowed_iff : classAllowed r w = true ↔ fieldN r 4 2 = 0 ∨ (fieldN r 4 2 = 1 ∧ ∀ c ∈ w, bitN c.perm 2 = true)
    ∨ (fieldN r 4 2 = 2 ∧ ∀ c ∈ w, bitN c.perm 0 = true) ∨ (fieldN r 4 2 = 3 ∧ ∀ c ∈ w, bitN c.perm 1 = true) := by
  have hlt : fieldN r 4 2 < 4 := Nat.mod_lt _ (by decide)
  simp only [classAllowed, ruleClass, ruleF]
  generalize fieldN r 4 2 = x at *
  interval_cases x <;> simp

end

/-! The computed field of a replacement (R205). -/

/-- The exponent adjustment of an IMM48 is taken out and replaced (R205). -/
theorem bits_replaced (n : Nat) {a : Nat} (h : a < 2 ^ 8) : bitsN (n - bitsN n 14 8 * 2 ^ 14 + a * 2 ^ 14) 14 8 = a := by
  have hn := Nat.div_add_mod n (2 ^ 14)
  have hq := Nat.div_add_mod (n / 2 ^ 14) (2 ^ 8)
  have hr := Nat.mod_lt n (Nat.two_pow_pos 14)
  simp only [bitsN]
  generalize n / 2 ^ 14 = q at *
  generalize q % 2 ^ 8 = x at *
  omega

section
variable (w : List Cmd) (t c : Cmd)

/-- What the computed field of a replacement leaves as it was. -/
theorem applyGen_keeps (gen : Nat) :
    (applyGen gen w t c).op = c.op ∧ (applyGen gen w t c).mods = c.mods ∧ (applyGen gen w t c).owner = c.owner
      ∧ (applyGen gen w t c).dom = c.dom ∧ (applyGen gen w t c).snap = c.snap ∧ (applyGen gen w t c).a = c.a := by
  unfold applyGen
  dsimp only
  split
  · split <;> exact ⟨rfl, rfl, rfl, rfl, rfl, rfl⟩
  all_goals exact ⟨rfl, rfl, rfl, rfl, rfl, rfl⟩

theorem applyGen_b {gen : Nat} (h : gen ≠ 5) : (applyGen gen w t c).b = c.b := by
  unfold applyGen
  dsimp only
  split
  · split <;> rfl
  · rfl
  · rfl
  · rfl
  · exact absurd rfl h
  · rfl

theorem applyGen_c {gen : Nat} (h : gen ≠ 1) : (applyGen gen w t c).c = c.c ∧ (applyGen gen w t c).c2 = c.c2 := by
  unfold applyGen
  dsimp only
  split
  · exact absurd rfl h
  all_goals exact ⟨rfl, rfl⟩

theorem applyGen_imm {gen : Nat} (h : gen ∉ [2, 3, 4]) : (applyGen gen w t c).imm = c.imm := by
  unfold applyGen
  dsimp only
  split
  · split <;> rfl
  · exact absurd (by simp) h
  · exact absurd (by simp) h
  · exact absurd (by simp) h
  · rfl
  · rfl

/-- COMPOSE: the layout word of the two in sequence. -/
theorem applyGen_compose (y z : Cmd) (l : List Cmd) :
    lword (applyGen 1 (y :: z :: l) t c).c (applyGen 1 (y :: z :: l) t c).c2 = lCompose y.lw z.lw % 2 ^ 128 := by
  simp only [applyGen, lword, BitVec.toNat_ofNat]
  omega

/-- SBIAS: the exponent adjustment of the second command. -/
theorem applyGen_bias (y z : Cmd) (l : List Cmd) : bitsN (applyGen 2 (y :: z :: l) t c).imm 14 8 = bitsN z.imm 14 8 :=
  bits_replaced c.imm (Nat.mod_lt _ (Nat.two_pow_pos 8))

/-- ADJZERO: no exponent adjustment. -/
theorem applyGen_noBias : bitsN (applyGen 3 w t c).imm 14 8 = 0 :=
  bits_replaced c.imm (Nat.two_pow_pos 8)

/-- FUSEK: the code of the two quadrants of a column. -/
theorem applyGen_fuse : (c.imm % 16 = 0 → (applyGen 4 w t c).imm % 16 = 6) ∧ (c.imm % 16 = 1 → (applyGen 4 w t c).imm % 16 = 7) := by
  simp only [applyGen]
  refine ⟨fun h => ?_, fun h => ?_⟩
  · rw [if_pos h]
    omega
  · rw [if_neg (by omega)]
    omega

end

/-! What a replacement is (R205). -/

/-- The operand value that a selector of a rule names (R205). -/
def movedFrom (r : BitVec 256) (w : List Cmd) (at' : Nat) : Word :=
  match w[fieldN r (at' + 2) 2]? with
  | some d => d.operand (fieldN r at' 2)
  | none => 0

theorem moved_field (r : BitVec 256) (w : List Cmd) (at' : Nat) : moved w (fieldN r at' 4) = movedFrom r w at' := by
  have hhi : fieldN r at' 4 / 4 = fieldN r (at' + 2) 2 := by
    simp only [fieldN, bitsN, Nat.pow_add, ← Nat.div_div_eq_div_mul]
    omega
  have hlo : fieldN r at' 4 % 4 = fieldN r at' 2 := by
    simp only [fieldN, bitsN]
    omega
  rw [moved, hhi, hlo]
  rfl

theorem engOfCode_code {k : Nat} {op : EngOp} (h : engOfCode k = some op) : op.code = k := by
  simpa using List.find?_some h

/-- A template with the opcode, the MOD and the operand values that a rule gives, before its computed field. -/
def templated (r : BitVec 256) (k : Nat) (w : List Cmd) (t : Cmd) (op : EngOp) : Cmd :=
  let at' := 180 + 38 * k
  { t with op := op, mods := t.mods ^^^ fieldN r (at' + 9) 9, a := movedFrom r w (at' + 19), b := movedFrom r w (at' + 23)
           c := movedFrom r w (at' + 27), c2 := movedFrom r w (at' + 31), rep := fieldN r (at' + 35) 3 + 1 }

theorem replacement_position {r : BitVec 256} {k : Nat} {w : List Cmd} {q : Nat × Cmd} (h : replacement r k w = some q) :
    q.1 = fieldN r (180 + 38 * k) 2 := by
  unfold replacement at h
  dsimp only at h
  split at h
  · cases h
    rfl
  · cases h

/-- A replacement is made from the template that its rule names. -/
theorem replacement_some {r : BitVec 256} {k : Nat} {w : List Cmd} {p : Nat} {c t : Cmd} (h : replacement r k w = some (p, c))
    (ht : w[p]? = some t) : p = fieldN r (180 + 38 * k) 2 ∧ ∃ op, op.code = fieldN r (180 + 38 * k + 2) 7
      ∧ c = applyGen (fieldN r (180 + 38 * k + 35) 3) w t (templated r k w t op) := by
  unfold replacement at h
  dsimp only at h
  split at h
  next t' op ht' hop =>
    simp only [Option.some.injEq, Prod.mk.injEq] at h
    obtain ⟨rfl, rfl⟩ := h
    rw [ht] at ht'
    cases ht'
    refine ⟨rfl, op, engOfCode_code hop, ?_⟩
    simp only [templated, ← moved_field]
    rfl
  · cases h

/-- A result of a list of partial functions is the result at one of its places. -/
theorem exists_of_mem_mapM {α β : Type} {f : α → Option β} {l : List α} {ys : List β} (h : l.mapM f = some ys) {y : β} (hy : y ∈ ys) :
    ∃ x ∈ l, f x = some y := by
  induction l generalizing ys with
  | nil =>
    cases h
    cases hy
  | cons x l ih =>
    rw [List.mapM_cons] at h
    obtain ⟨z, hz, h⟩ := Option.bind_eq_some_iff.1 h
    obtain ⟨zs, hzs, h⟩ := Option.bind_eq_some_iff.1 h
    cases h
    rcases List.mem_cons.1 hy with rfl | hy
    · exact ⟨x, by simp, hz⟩
    · obtain ⟨x', hx', hf⟩ := ih hzs hy
      exact ⟨x', by simp [hx'], hf⟩

/-- The commands of a rewritten group are kept originals and replacements of its templates (R205, R208). -/
theorem mem_rewrite {r : BitVec 256} {w cs : List Cmd} (h : rewrite r w = some cs) {c : Cmd} (hc : c ∈ cs) :
    (∃ p, w[p]? = some c ∧ bitN r (6 + p) = true)
      ∨ ∃ k ≤ fieldN r 3 1, replacement r k w = some (fieldN r (180 + 38 * k) 2, c) := by
  unfold rewrite at h
  split at h
  · cases h
  next reps hreps =>
    cases h
    obtain ⟨x, hx, hcx⟩ := List.mem_flatMap.1 hc
    rcases List.mem_append.1 hcx with hk | hr
    · left
      split at hk
      next hkeep =>
        cases List.mem_singleton.1 hk
        exact ⟨x.2, List.mem_zipIdx_iff_getElem?.1 hx, hkeep⟩
      · cases hk
    · right
      obtain ⟨q, hq, rfl⟩ := List.mem_map.1 hr
      obtain ⟨k, hk, hrep⟩ := exists_of_mem_mapM hreps (List.mem_of_mem_filter hq)
      refine ⟨k, Nat.le_of_lt_succ (List.mem_range.1 hk), ?_⟩
      rw [hrep, ← replacement_position hrep]

end Sys2Proof
end

section
/-! A rewritten group: its commands in the queues, and the report of its originals at the commit (R208 to R211). -/

namespace Sys2Proof

open Machine

/-! The dispatch checks leave what a command is (R95, R186, R221). -/

/-- Whether the dispatch checks have passed. -/
def passed : Disp → Bool
  | .ok _ => true
  | _ => false

theorem mem_of_firstOf {l : List (Option Disp)} {d : Disp} (h : Machine.firstOf l = some d) : some d ∈ l := by
  induction l with
  | nil => cases h
  | cons x l ih =>
    cases x with
    | none => exact List.mem_cons_of_mem _ (ih h)
    | some y =>
      cases h
      exact List.mem_cons_self

theorem not_passed_of_needs {b : Bool} {code : FaultCode} {va : Word} : ∀ d, needs b code va = some d → passed d = false := by
  intro d h
  unfold needs at h
  split at h
  · cases h
  · cases h
    rfl

theorem not_passed_of_pageAt {s : State} {c : Cmd} {o : Opnd} {p : Nat × Nat} {d : Disp} (h : pageAt s c o p = .bad d) : passed d = false := by
  unfold pageAt at h
  dsimp only at h
  repeat' split at h
  all_goals cases h
  all_goals rfl

theorem not_passed_of_pagesAt {s : State} {c : Cmd} {o : Opnd} {ps : List (Nat × Nat)} {d : Disp} (h : pagesAt s c o ps = .error d) :
    passed d = false := by
  induction ps with
  | nil => cases h
  | cons p ps ih =>
    rw [pagesAt] at h
    split at h
    next hp =>
      cases h
      exact not_passed_of_pageAt hp
    · cases hr : pagesAt s c o ps with
      | ok x => rw [hr] at h; cases h
      | error e => rw [hr] at h; cases h; exact ih hr
    · exact ih h

theorem not_passed_of_opndAt {s : State} {c : Cmd} {o : Opnd} {d : Disp} (h : opndAt s c o = .error d) : passed d = false := by
  unfold opndAt at h
  split at h
  · cases h
    rfl
  · exact not_passed_of_pagesAt h

theorem not_passed_of_opndsAt {s : State} {c : Cmd} {os : List Opnd} {d : Disp} (h : opndsAt s c os = .error d) : passed d = false := by
  induction os with
  | nil => cases h
  | cons o os ih =>
    rw [opndsAt] at h
    split at h
    next ho =>
      cases h
      exact not_passed_of_opndAt ho
    · split at h
      next hr =>
        cases h
        exact ih hr
      · cases h

theorem not_passed_of_opndRights {s : State} {c : Cmd} {o : Opnd} {d : Disp} (h : opndRights s c o = some d) : passed d = false := by
  unfold opndRights at h
  split at h
  · cases h
  · obtain ⟨p, -, hp⟩ := List.exists_of_findSome?_eq_some h
    repeat' split at hp
    all_goals cases hp
    all_goals rfl

/-- The fields of a command that its dispatch checks leave. -/
def SameOrder (c d : Cmd) : Prop := d.op = c.op ∧ d.grp = c.grp ∧ d.reg = c.reg

/-- A command that has passed the common checks has learnt the tile-buffer bytes, panes and pages that it reaches, and nothing else. -/
theorem dispatchWith_ok {s : State} {c d : Cmd} {early late : List (Option Disp)} {order rights : List Opnd} {overlap : Bool}
    (h : dispatchWith s c early order late rights overlap = .ok d) (he : ∀ x, some x ∈ early → passed x = false)
    (hl : ∀ x, some x ∈ late → passed x = false) : SameOrder c d := by
  unfold dispatchWith at h
  split at h
  next x hx =>
    rw [h] at hx
    cases he _ (mem_of_firstOf hx)
  · split at h
    next x hx =>
      rw [h] at hx
      cases not_passed_of_opndsAt hx
    · split at h
      next x hx =>
        rw [h] at hx
        cases hl _ (mem_of_firstOf hx)
      · dsimp only at h
        split at h
        · cases h
        · split at h
          next x hx =>
            rw [h] at hx
            obtain ⟨o, -, ho⟩ := List.mem_map.1 (mem_of_firstOf hx)
            cases not_passed_of_opndRights ho
          · split at h
            · cases h
            · cases h
              exact ⟨rfl, rfl, rfl⟩

theorem not_passed_none (x : Disp) (h : some x ∈ ([] : List (Option Disp))) : passed x = false := by cases h

theorem not_passed_needs₁ {b : Bool} {code : FaultCode} {va : Word} (x : Disp) (h : some x ∈ [needs b code va]) : passed x = false :=
  not_passed_of_needs x (List.mem_singleton.1 h).symm

theorem not_passed_needs₂ {b b' : Bool} {code code' : FaultCode} {va va' : Word} (x : Disp)
    (h : some x ∈ [needs b code va, needs b' code' va']) : passed x = false := by
  rcases List.mem_cons.1 h with h | h
  · exact not_passed_of_needs x h.symm
  · exact not_passed_needs₁ x h

/-- The commands that a replacement can be: those of the matrix engine and LYT (R214, R321). -/
theorem op_of_shapeOk {c : Cmd} (h : shapeOk c = true) : c.op.isMatrix = true ∨ c.op = .lyt := by
  unfold shapeOk at h
  dsimp only at h
  cases ho : c.op
  case lyt => exact .inr rfl
  case mldw | mmul | mdrain | mzero | spcmp => exact .inl rfl
  all_goals
    rw [ho] at h
    cases h

theorem dispCheck_ok {s : State} {c d : Cmd} (hc : shapeOk c = true) (h : dispCheck s c = .ok d) : SameOrder c d := by
  have hop := op_of_shapeOk hc
  unfold dispCheck at h
  cases ho : c.op
  case mldw => rw [ho] at h; exact dispatchWith_ok h not_passed_needs₁ not_passed_needs₁
  case mmul =>
    rw [ho] at h
    dsimp only at h
    unfold dispMmul at h
    split at h
    · cases h
    · split at h
      · cases h
      · have hd := dispatchWith_ok h not_passed_needs₂ not_passed_needs₁
        exact hd
  case mdrain => rw [ho] at h; exact dispatchWith_ok h not_passed_needs₂ not_passed_needs₁
  case mzero => rw [ho] at h; exact dispatchWith_ok h not_passed_needs₂ not_passed_needs₁
  case spcmp =>
    rw [ho] at h
    dsimp only at h
    unfold dispSpcmp at h
    exact dispatchWith_ok h not_passed_needs₁ not_passed_none
  case lyt =>
    rw [ho] at h
    dsimp only at h
    unfold dispLyt at h
    exact dispatchWith_ok h not_passed_needs₂ not_passed_none
  all_goals simp [ho, EngOp.isMatrix] at hop

/-! The commands of a group in their queues (R208). -/

theorem noteRec_keeps (s : State) (c : Cmd) : (noteRec s c).tgrps = s.tgrps ∧ (noteRec s c).cmds = s.cmds := by
  unfold noteRec
  split
  · exact ⟨rfl, rfl⟩
  · exact ⟨rfl, rfl⟩

theorem isCopy_of_shapeOk {c : Cmd} (h : shapeOk c = true) : c.op.isCopy = false := by
  rcases op_of_shapeOk h with h | h
  · cases ho : c.op
    case cpgo | cpgath | cpscat => simp [ho, EngOp.isMatrix] at h
    all_goals rfl
  · rw [h]
    rfl

/-- A command of a group as it enters (R94, R180, R220). -/
def groupEntry (s : State) (c : Cmd) : Cmd := { c with snap := snapOf c (c.opnds s), st := .queued, tab := [] }

theorem sameOrder_groupEntry (s : State) (c : Cmd) : SameOrder c (groupEntry s c) := ⟨rfl, rfl, rfl⟩

theorem enter_of_grouped {s : State} {c : Cmd} {g : Nat} (hg : c.grp = some g) (hc : c.op.isCopy = false) :
    enter s c = noteRec { s with cmds := s.cmds ++ [groupEntry s c] } (groupEntry s c) := by
  unfold enter groupEntry
  simp only [hg, hc, Option.isSome_some, if_true, Bool.false_eq_true, if_false]
  split
  next hn => cases hn
  · rfl

/-- A command of a group enters behind the queues and changes no group (R180, R208). -/
theorem enter_grouped {s : State} {c : Cmd} {g : Nat} (hg : c.grp = some g) (hc : c.op.isCopy = false) :
    (enter s c).tgrps = s.tgrps ∧ (enter s c).cmds = s.cmds ++ [groupEntry s c] := by
  rw [enter_of_grouped hg hc]
  exact noteRec_keeps ..

/-- A command of a group as it stands in its queue: of the group, with no register (R208, R209). -/
def OfGroup (g : Nat) (c : Cmd) : Prop := c.grp = some g ∧ c.reg = 0

theorem OfGroup.of_same {g : Nat} {c d : Cmd} (h : OfGroup g c) (k : SameOrder c d) : OfGroup g d := by
  obtain ⟨-, hg, hr⟩ := k
  exact ⟨hg.trans h.1, hr.trans h.2⟩

theorem entersAll_cons {s t : State} {c : Cmd} {r : List Cmd} (h : entersAll s (c :: r) = some t) :
    shapeOk c = true ∧ ∃ d, dispCheck s c = .ok d ∧ entersAll (enter s d) r = some t := by
  rw [entersAll] at h
  split at h
  next hs =>
    split at h
    next d hd => exact ⟨hs, d, hd, h⟩
    · cases h
  · cases h

/-- A group whose commands all pass their checks stands in the queues (R208). -/
theorem enterGroup_eq_of_entersAll {s t : State} (g : Nat) {cs : List Cmd} (h : entersAll s cs = some t) : enterGroup s g cs = t := by
  induction cs generalizing s with
  | nil => cases h; rfl
  | cons c r ih =>
    obtain ⟨hs, d, hd, hr⟩ := entersAll_cons h
    rw [enterGroup, if_pos hs, hd]
    exact ih hr

/-- The commands that enter stand behind the queues in their order, and no group has changed (R208). -/
theorem entersAll_spec {s t : State} {g : Nat} {cs : List Cmd} (h : entersAll s cs = some t) (hcs : ∀ c ∈ cs, OfGroup g c) :
    t.tgrps = s.tgrps ∧ ∃ l, t.cmds = s.cmds ++ l ∧ l.map (·.op) = cs.map (·.op) ∧ ∀ c ∈ l, OfGroup g c := by
  induction cs generalizing s with
  | nil =>
    cases h
    exact ⟨rfl, [], (List.append_nil _).symm, rfl, fun _ hx => absurd hx List.not_mem_nil⟩
  | cons c r ih =>
    obtain ⟨hs, d, hd, hr⟩ := entersAll_cons h
    have hcd := dispCheck_ok hs hd
    have hc := hcs c List.mem_cons_self
    have hcr : ∀ x ∈ r, OfGroup g x := fun x hx => hcs x (List.mem_cons_of_mem c hx)
    have hcopy : d.op.isCopy = false := hcd.1 ▸ isCopy_of_shapeOk hs
    obtain ⟨ht, he⟩ := enter_grouped (s := s) (hc.of_same hcd).1 hcopy
    have hde := sameOrder_groupEntry s d
    obtain ⟨ht', l, hl, hop, hall⟩ := ih hr hcr
    refine ⟨ht'.trans ht, groupEntry s d :: l, ?_, ?_, List.forall_mem_cons.2 ⟨(hc.of_same hcd).of_same hde, hall⟩⟩
    · rw [hl, he, List.append_assoc]
      rfl
    · rw [List.map_cons, List.map_cons, hop, hde.1, hcd.1]

/-! A group as it is opened (R208, R209). -/

theorem numberCmds_keeps (s : State) (g po : Nat) (cs : List Cmd) :
    (numberCmds s g po cs).1.cmds = s.cmds ∧ (numberCmds s g po cs).1.tgrps = s.tgrps := by
  induction cs generalizing s with
  | nil => exact ⟨rfl, rfl⟩
  | cons c r ih => exact ih (bump s)

theorem numberCmds_ops (s : State) (g po : Nat) (cs : List Cmd) : (numberCmds s g po cs).2.map (·.op) = cs.map (·.op) := by
  induction cs generalizing s with
  | nil => rfl
  | cons c r ih => exact congrArg (c.op :: ·) (ih (bump s))

theorem numberCmds_ofGroup (s : State) (g po : Nat) (cs : List Cmd) : ∀ c ∈ (numberCmds s g po cs).2, OfGroup g c := by
  induction cs generalizing s with
  | nil => exact fun _ hx => absurd hx List.not_mem_nil
  | cons c r ih =>
    intro x hx
    rcases List.mem_cons.1 hx with rfl | hx
    · exact ⟨rfl, rfl⟩
    · exact ih (bump s) x hx

theorem foldl_modOwner_cmds {β : Type} (o : β → Owner) (f : β → Spoke → Spoke) (l : List β) (s : State) :
    (l.foldl (fun s x => modOwner s (o x) (f x)) s).cmds = s.cmds := by
  induction l generalizing s with
  | nil => rfl
  | cons x l ih => exact (ih _).trans (modOwner_cmds ..)

theorem groupOpen_cmds (s : State) (w : List Cmd) : (groupOpen s w).cmds = s.cmds := by
  have hfold := foldl_modOwner_cmds (·.1.owner) (fun c p => dropSnap (holdSnap p c.2.snap) c.1.snap) (w.zip (groupOrigs s w)) (bump s)
  unfold groupOpen
  dsimp only
  split
  · exact hfold
  · exact hfold

theorem groupStart_cmds (s : State) (k : Nat) (w cs : List Cmd) : (groupStart s k w cs).cmds = s.cmds := by
  have h := (numberCmds_keeps (groupOpen s w) s.nextId ((w.map (·.po)).foldl max 0) cs).1.trans (groupOpen_cmds s w)
  cases w with
  | nil => exact h
  | cons x l => exact h

theorem groupOrigs_ids (s : State) (w : List Cmd) : (groupOrigs s w).map (·.id) = w.map (·.id) := by
  unfold groupOrigs
  rw [List.map_map]
  rfl

/-- A group that has been opened: its rule, its originals, not yet running (R208). -/
theorem getTg_groupStart (s : State) (k : Nat) {w : List Cmd} (cs : List Cmd) (hw : w ≠ []) :
    ∃ g, getTg (groupStart s k w cs) s.nextId = some g ∧ g.rule = k ∧ g.origs.map (·.id) = w.map (·.id) ∧ g.held = false := by
  cases w with
  | nil => exact absurd rfl hw
  | cons x l => exact ⟨_, (find?_mset ..).trans (if_pos rfl), rfl, groupOrigs_ids s (x :: l), rfl⟩

theorem dispatchGroup_eq (s : State) (k : Nat) {w : List Cmd} (cs : List Cmd) (hw : w ≠ []) :
    dispatchGroup s k w cs = enterGroup (groupStart s k w cs) s.nextId (groupCmds s w cs) := by
  cases w with
  | nil => exact absurd rfl hw
  | cons x l => rfl

/-- A rewritten group whose commands all pass their checks stands in the queues in place of its originals (R208). -/
theorem dispatchGroup_entered {s t : State} {k : Nat} {w cs : List Cmd} (hw : w ≠ [])
    (h : entersAll (groupStart s k w cs) (groupCmds s w cs) = some t) :
    dispatchGroup s k w cs = t ∧ (∃ g, getTg t s.nextId = some g ∧ g.rule = k ∧ g.origs.map (·.id) = w.map (·.id) ∧ g.held = false)
      ∧ ∃ l, t.cmds = s.cmds ++ l ∧ l.map (·.op) = cs.map (·.op) ∧ ∀ c ∈ l, OfGroup s.nextId c := by
  obtain ⟨htg, l, hl, hop, hall⟩ := entersAll_spec h (numberCmds_ofGroup (groupOpen s w) s.nextId _ cs)
  refine ⟨(dispatchGroup_eq s k cs hw).trans (enterGroup_eq_of_entersAll _ h), ?_, l, ?_, hop.trans (numberCmds_ops ..), hall⟩
  · obtain ⟨g, hg, hrest⟩ := getTg_groupStart s k cs hw
    refine ⟨g, ?_, hrest⟩
    unfold getTg at hg ⊢
    rw [htg]
    exact hg
  · rw [hl, groupStart_cmds]

/-! The report of the originals (R208). -/

theorem modOwner_frame {R : Spoke → Spoke → Prop} (hr : ∀ p, R p p) {f : Spoke → Spoke} (hf : ∀ p, R p (f p)) (s : State) (o : Owner) :
    SpFrame R s (modOwner s o f) := by
  rcases modOwner_cases s o f with ⟨c, n, v, e⟩ | h
  · rw [e]
    exact spFrame_modSp hr hf s c n v
  · exact (spKept_of_fields h.cores h.saved h.halves h.ctrl h.cur).frame hr

theorem sameG_dropSnap (p : Spoke) (l : List Snap) : SameG p (dropSnap p l) := rfl

/-- The state of an original that is about to report: its lends go, its progress is whole (R94, R194, R208). -/
def origDone (s : State) (c : Cmd) : State :=
  modOwner s c.owner fun p =>
    let q := dropSnap p c.snap
    if c.op.isMatrix then { q with mprog := progWord { c with done := c.rows } false false } else q

theorem reportOrig_eq (fl : BitVec 5) (s : State) (c : Cmd) : reportOrig fl s c = report (origDone s c) c (c.okWord fl) none := rfl

theorem sameG_origDone (s : State) (c : Cmd) : SpFrame SameG s (origDone s c) := by
  refine modOwner_frame SameG.refl (fun p => ?_) s c.owner
  dsimp only
  split
  · exact sameG_dropSnap p c.snap
  · exact sameG_dropSnap p c.snap

theorem pendG_congr {p q : Spoke} {r : Fin 32} (h : q.g[r] = p.g[r]) : q.pendG r = p.pendG r := by
  unfold Spoke.pendG
  rw [h]

/-- A register keeps what it holds, unless it waits for command `c`. -/
def KeepsUnlessOwed (c : Cmd) (r : Fin 32) (p q : Spoke) : Prop := (c.reg = r → p.pendG r ≠ .cmd c.id) → q.g[r] = p.g[r]

theorem report_keeps (s : State) (c : Cmd) (w : Word) (r : Fin 32) : SpFrame (KeepsUnlessOwed c r) s (report s c w none) := by
  unfold report fillPend
  split
  · refine modOwner_frame (fun _ _ => rfl) (fun p hp => ?_) s c.owner
    split
    next h =>
      obtain ⟨-, hw⟩ := h
      rw [g_wrG]
      exact if_neg fun ⟨hr, _⟩ => hp hr (hr ▸ hw)
    · rfl
  · refine modOwner_frame (fun _ _ => rfl) (fun p _ => ?_) s c.owner
    dsimp only
    split
    · rfl
    · rfl

theorem reportOrig_keeps {fl : BitVec 5} {s : State} {c : Cmd} {r : Fin 32} {k n v : Nat} (h : c.reg = r → (getSp s k n v).pendG r ≠ .cmd c.id) :
    (getSp (reportOrig fl s c) k n v).g[r] = (getSp s k n v).g[r] := by
  have hg : (getSp (origDone s c) k n v).g[r] = (getSp s k n v).g[r] := congrArg (·[r]) ((sameG_origDone s c).sp k n v)
  exact ((report_keeps (origDone s c) c (c.okWord fl) r).sp k n v (pendG_congr hg ▸ h)).trans hg

/-- An original fills the register that waits for it (R208). -/
theorem reportOrig_fills {fl : BitVec 5} {s : State} {c : Cmd} {k n v : Nat} (ho : c.owner = .spoke k n v) (hr : c.reg ≠ 0)
    (hp : (getSp s k n v).pendG c.reg = .cmd c.id) : (getSp (reportOrig fl s c) k n v).g[c.reg] = ⟨c.okWord fl, true, .no⟩ := by
  have hg : (getSp (origDone s c) k n v).g[c.reg] = (getSp s k n v).g[c.reg] := congrArg (·[c.reg]) ((sameG_origDone s c).sp k n v)
  rw [reportOrig_eq, report, if_pos hr, fillPend, ho, modOwner, getSp_modSp, if_pos ⟨hr, (pendG_congr hg).trans hp⟩]
  exact (g_wrG ..).trans (if_pos ⟨rfl, hr⟩)

/-- A register that is full stays so while other originals report. -/
theorem reportOrigs_keep_full {fl : BitVec 5} {r : Fin 32} {k n v : Nat} {x : GReg} (hx : x.pend = .no) (l : List Cmd) (s : State)
    (h : (getSp s k n v).g[r] = x) : (getSp (l.foldl (reportOrig fl) s) k n v).g[r] = x := by
  induction l generalizing s with
  | nil => exact h
  | cons c l ih =>
    refine ih _ ((reportOrig_keeps fun _ he => ?_).trans h)
    unfold Spoke.pendG at he
    rw [h, hx] at he
    split at he
    · cases he
    · cases he

/-- Among originals of distinct registers each fills its own (R208). -/
theorem reportOrigs_fill {fl : BitVec 5} {c : Cmd} {k n v : Nat} (ho : c.owner = .spoke k n v) (hr : c.reg ≠ 0) (l : List Cmd) (s : State)
    (hp : (getSp s k n v).pendG c.reg = .cmd c.id) (hc : c ∈ l) (hreg : ∀ x ∈ l, x.id ≠ c.id → x.reg ≠ c.reg)
    (hid : ∀ x ∈ l, x.id = c.id → x = c) : (getSp (l.foldl (reportOrig fl) s) k n v).g[c.reg] = ⟨c.okWord fl, true, .no⟩ := by
  induction l generalizing s with
  | nil => cases hc
  | cons x l ih =>
    obtain ⟨hxreg, hlreg⟩ := List.forall_mem_cons.1 hreg
    obtain ⟨hxid, hlid⟩ := List.forall_mem_cons.1 hid
    rw [List.foldl_cons]
    by_cases hx : x.id = c.id
    · rw [hxid hx]
      exact reportOrigs_keep_full rfl l _ (reportOrig_fills ho hr hp)
    · have hcl : c ∈ l := (List.mem_cons.1 hc).resolve_left fun e => hx (e ▸ rfl)
      refine ih _ ?_ hcl hlreg hlid
      exact (pendG_congr (reportOrig_keeps fun e => absurd e (hxreg hx))).trans hp

/-- The state of a commit before the originals report: latches, panes and flags are there (R208). -/
def committed (s : State) (t : TrGrp) : State :=
  let s1 := { s with cmds := s.cmds.filter (·.grp != some t.id), tgrps := s.tgrps.filter (·.1 != t.id)
                     latches := t.latches.foldl (fun m p => mset m p.1 p.2) s.latches }
  let s2 := match t.pub.bind (getPub s1 ·) with
    | some p => { s1 with pubs := mset s1.pubs p.id { p with ovl := t.ovl.foldl (fun m x => mset m x.1 x.2) p.ovl } }
    | none => if t.pub.isSome then s1 else publish s1 t.ovl
  modOwner s2 t.owner fun p => p.orFlags t.flags

theorem commit_eq (s : State) (t : TrGrp) : commit s t = t.origs.foldl (reportOrig t.flags) (committed s t) := rfl

theorem sameG_committed (s : State) (t : TrGrp) : SpFrame SameG s (committed s t) := by
  refine SpFrame.trans SameG.trans ?_ (modOwner_frame SameG.refl (fun p => (rfl : SameG p (p.orFlags t.flags))) _ t.owner)
  refine SpKept.frame ?_ SameG.refl
  split
  · exact spKept_of_fields rfl rfl rfl rfl rfl
  · split
    · exact spKept_of_fields rfl rfl rfl rfl rfl
    · refine SpKept.trans ?_ (spKept_publish _ t.ovl)
      exact spKept_of_fields rfl rfl rfl rfl rfl

/-- At the commit an original fills the register that waits for it, as its own command would have (R208). -/
theorem commit_fills {s : State} {t : TrGrp} {c : Cmd} {k n v : Nat} (hc : c ∈ t.origs) (ho : c.owner = .spoke k n v) (hr : c.reg ≠ 0)
    (hp : (getSp s k n v).pendG c.reg = .cmd c.id) (hreg : ∀ x ∈ t.origs, x.id ≠ c.id → x.reg ≠ c.reg)
    (hid : ∀ x ∈ t.origs, x.id = c.id → x = c) : (getSp (commit s t) k n v).g[c.reg] = ⟨c.okWord t.flags, true, .no⟩ := by
  have hg : (getSp (committed s t) k n v).g[c.reg] = (getSp s k n v).g[c.reg] := congrArg (·[c.reg]) ((sameG_committed s t).sp k n v)
  rw [commit_eq]
  exact reportOrigs_fill ho hr t.origs _ ((pendG_congr hg).trans hp) hc hreg hid

end Sys2Proof
end

section
/-! The issues of the engines, as the specification states them. -/

namespace Sys2Proof

open Machine

/-- What an engine command records at issue, and what its register waits for (R83, R94, R197, R198). -/
theorem engIssue_records (i : Instr) (s : State) (d : Fin 32) (x : CmdArgs) :
    let t := taken i s
    let y := mkCmd t d x
    y.id = s.nextId ∧ y.dom = (curSp s).dom ∧ y.pc = s.cur.pc ∧ y.op = x.op ∧ y.st = .window
      ∧ (∀ z ∈ y.snap, (curSp s).lends[z.entry].st = .opened ∧ (curSp s).lends[z.entry].lendee = (curSp s).dom)
      ∧ (d ≠ 0 → (curSp (engHeld t s.nextId d x)).fullG d = false ∧ (curSp (engHeld t s.nextId d x)).pendG d = .cmd s.nextId
        ∧ (curSp (engHeld t s.nextId d x)).rdG d = (curSp s).rdG d) := by
  refine ⟨taken_nextId i s, taken_dom i s, congrArg Cur.pc (taken_cur i s), rfl, rfl, fun z hz => ?_, fun hd => ?_⟩
  · rw [← taken_lends i s, ← taken_dom i s]
    exact open_of_mem_mkCmd hz
  · rw [← taken_rdG i s]
    exact engHeld_register _ s.nextId x hd

/-- A table with one valid rule that matches: outcome 1 where its class is not allowed, 3 without its resources, 0 where it is applied (R206, R207, R212). -/
theorem tryRules_single {s : State} {tab : List (Nat × BitVec 256)} {w : List Cmd} {k : Nat} (rest : List (Option Cmd)) (hk : k < 64)
    (honly : ∀ j < 64, j ≠ k → bitN (mget 0 tab j) 0 = false) (hm : ruleMatches s (mget 0 tab k) w = true) :
    let r := mget 0 tab k
    let x := tryRules s tab (w.map some ++ rest) (List.range 64)
    (classAllowed r w = false → x = (ruleLogged s k w 1, 0))
      ∧ (classAllowed r w = true → resources s r w = false → x = (ruleLogged s k w 3, 0))
      ∧ (∀ cs, classAllowed r w = true → resources s r w = true → rewrite r w = some cs →
        x = (dispatchGroup (ruleLogged s k w 0) k w cs, w.length)) := by
  obtain ⟨js, ks, hrange, hjs, hks⟩ := range_around hk honly
  obtain ⟨hclass, hres, happly⟩ := tryRules_matched hm rest ks
  have hx : tryRules s tab (w.map some ++ rest) (List.range 64) = tryRules s tab (w.map some ++ rest) (k :: ks) := by
    rw [hrange, tryRules_append_invalid hjs]
  dsimp only
  rw [hx]
  exact ⟨fun h => (hclass h).trans (tryRules_none hks ..), fun h h' => (hres h h').trans (tryRules_none hks ..), happly⟩

/-- What a match says of the entries (R204). -/
theorem of_ruleMatches {s : State} {r : BitVec 256} {w : List Cmd} (h : ruleMatches s r w = true) :
    bitN r 0 = true ∧ w.length = fieldN r 1 2 + 2
      ∧ (∀ p c, w[p]? = some c → (c.op.code ^^^ fieldN r (16 + 32 * p) 7) &&& fieldN r (23 + 32 * p) 7 = 0
        ∧ (c.mods ^^^ fieldN r (30 + 32 * p) 9) &&& fieldN r (39 + 32 * p) 9 = 0)
      ∧ (∀ k < 3, fieldN r (144 + 12 * k) 2 = 1 → ∀ c d, w[fieldN r (146 + 12 * k) 2]? = some c → w[fieldN r (151 + 12 * k) 2]? = some d →
        c.operand (fieldN r (148 + 12 * k) 3) = d.operand (fieldN r (153 + 12 * k) 3))
      ∧ (bitN r 14 = true → ∀ c ∈ w, bitN c.perm 2 = true) := by
  obtain ⟨hv, hlen, hpos, hcon, -, hgrp⟩ := ruleMatches_iff.1 h
  refine ⟨hv, hlen, fun p c hp => ?_, fun k hk ht c d h1 h2 => conHolds_equal (hcon k hk) ht h1 h2, hgrp⟩
  exact (posMatches_iff p c).1 (hpos (c, p) (List.mem_zipIdx_iff_getElem?.2 hp))

/-- What a replacement is: its template with the opcode, MOD, operand values and computed field of the rule (R205). -/
theorem replacement_fields {r : BitVec 256} {k : Nat} {w : List Cmd} {p : Nat} {c t : Cmd} (h : replacement r k w = some (p, c))
    (ht : w[p]? = some t) :
    let g (lo n : Nat) : Nat := fieldN r (180 + 38 * k + lo) n
    let from' (j : Nat) : Word := movedFrom r w (180 + 38 * k + (19 + 4 * j))
    p = g 0 2 ∧ c.op.code = g 2 7 ∧ c.mods = t.mods ^^^ g 9 9 ∧ c.owner = t.owner ∧ c.dom = t.dom ∧ c.snap = t.snap
      ∧ (g 35 3 ≠ 5 → c.b = from' 1) ∧ c.a = from' 0 ∧ (g 35 3 ≠ 1 → c.c = from' 2 ∧ c.c2 = from' 3)
      ∧ (g 35 3 ∉ [2, 3, 4] → c.imm = t.imm)
      ∧ (g 35 3 = 1 → ∀ y z l, w = y :: z :: l → lword c.c c.c2 = lCompose y.lw z.lw % 2 ^ 128)
      ∧ (g 35 3 = 2 → ∀ y z l, w = y :: z :: l → bitsN c.imm 14 8 = bitsN z.imm 14 8)
      ∧ (g 35 3 = 3 → bitsN c.imm 14 8 = 0)
      ∧ (g 35 3 = 4 → (t.imm % 16 = 0 → c.imm % 16 = 6) ∧ (t.imm % 16 = 1 → c.imm % 16 = 7))
      ∧ (g 35 3 = 5 → c.b = BitVec.ofNat 64 (t.k * t.fmt.width / 8)) := by
  obtain ⟨hp, op, hop, rfl⟩ := replacement_some h ht
  obtain ⟨k1, k2, k3, k4, k5, k6⟩ := applyGen_keeps w t (templated r k w t op) (fieldN r (180 + 38 * k + 35) 3)
  dsimp only
  refine ⟨hp, (congrArg EngOp.code k1).trans hop, k2, k3, k4, k5, fun hg => applyGen_b w t _ hg, k6, fun hg => applyGen_c w t _ hg,
    fun hg => applyGen_imm w t _ hg, fun hg y z l hw => ?_, fun hg y z l hw => ?_, fun hg => ?_, fun hg => ?_, fun hg => ?_⟩
  · rw [hg, hw]
    exact applyGen_compose ..
  · rw [hg, hw]
    exact applyGen_bias ..
  · rw [hg]
    exact applyGen_noBias ..
  · rw [hg]
    exact applyGen_fuse w t (templated r k w t op)
  · rw [hg]
    rfl

/-- Settles O51: the issue by the table of engine commands, the window by the rule that is tried, the group by its commands' entry, and the commit by the report of each original. -/
theorem engineIssues : Obligations.EngineIssues := by
  unfold Obligations.EngineIssues
  refine ⟨fun s f sc sp2 tr ovw sat rnd q d l a b c x n k adj op e he h => ?_,
    fun s tab w rest k => ⟨fun hv => tryRules_none (fun j hj => hv j (List.mem_range.1 hj)) .., fun hk honly _ hm => tryRules_single rest hk honly hm⟩,
    fun s r w => ⟨of_ruleMatches, classAllowed_iff, fun cs h c hc => mem_rewrite h hc, fun k p c t h ht => replacement_fields h ht⟩,
    fun s t k w cs => dispatchGroup_entered, fun s g c k n v => commit_fills⟩
  obtain ⟨htrap, henter⟩ := engine_issues s f sc sp2 tr ovw sat rnd q d l a b c x n k adj op e he h
  refine ⟨htrap, fun hg => ⟨?_, engIssue_records e.1 s d e.2.2⟩⟩
  rw [← taken_nextId e.1 s, ← taken_cur e.1 s]
  exact henter hg

end Sys2Proof
end

section
/-! Comparison, selection, reduction, single lanes, quantisation and masks (R174, R175, R360, R424 to R426, R434, R435). -/

namespace Sys2Proof

open Machine

/-! What a vector instruction reads of its spoke, once its sources are read. -/

theorem k_taken (i : Instr) (s : State) : (curSp (taken i s)).k = (curSp s).k := by
  obtain ⟨g, v, w, e⟩ := curSp_taken i s
  rw [e]

@[simp] theorem vsrc_taken (i : Instr) (s : State) (a : VSrc) : vsrc (taken i s) a = (curSp s).v[a.reg].val := v_taken i s a.reg

@[simp] theorem active_taken (i : Instr) (s : State) (km : Fin 4) (j : Nat) :
    active (curSp (taken i s)) km j = (curSp s).k[km].getLsbD j := by
  rw [active, k_taken, bitN_eq_getLsbD]

/-- The flags of the lanes are gathered over the active lanes in ascending order (R419). -/
theorem laneFlags_taken (i : Instr) (s : State) (km : Fin 4) (f : Fin 32 → Lane × BitVec 5) :
    laneFlags (curSp (taken i s)) km f = (activeLanes s km).foldl (fun g j => g ||| (f j).2) 0 := by
  simp only [laneFlags, activeLanes, active_taken, List.foldl_filter]

/-- Only what a change makes of the issuing spoke counts. -/
theorem modCur_congr {s : State} {f g : Spoke → Spoke} (h : f (curSp s) = g (curSp s)) : modCur s f = modCur s g :=
  congrArg (setCur s) h

/-- An instruction whose meaning ends in a change of its own spoke completes with any change that agrees with it there. -/
theorem completes_as {i : Instr} {s : State} (h : Ready i s) {body : State → Ending} {f g : Spoke → Spoke}
    (hx : exec i s = .next (issue i s body)) (hb : body (taken i s) = doneP (taken i s) f)
    (hfg : f (curSp (taken i s)) = g (curSp (taken i s)))
    (hg : ∀ p, (g p).park = p.park ∧ (g p).divs = p.divs ∧ (g p).outst = p.outst) : CompletesWith i s g := by
  refine completes_doneP h hx ?_ hg
  rw [hb, doneP, modCur_congr hfg]
  rfl

/-- Such an instruction that writes a general register and flags. -/
theorem completes_wrG {i : Instr} {s : State} (h : Ready i s) {body : State → Ending} {r : Fin 32} {x : Word} {fl : BitVec 5}
    (hx : exec i s = .next (issue i s body)) (hb : body (taken i s) = doneP (taken i s) fun p => (p.wrG r x).orFlags fl) :
    CompletesWith i s fun p => (p.wrG r x).orFlags fl :=
  completes_doneP h hx hb fun p => wrG_calm r x p

/-- Such an instruction that writes a mask register. -/
theorem completes_doneK {i : Instr} {s : State} (h : Ready i s) {body : State → Ending} {d : Fin 4} {x : Lane}
    (hx : exec i s = .next (issue i s body)) (hb : body (taken i s) = doneK (taken i s) d x) :
    CompletesWith i s fun q => { q with k := q.k.set d x } :=
  completes_doneP h hx hb fun _ => ⟨rfl, rfl, rfl⟩

theorem getLsbD_maskOf (f : Fin 32 → Bool) (j : Fin 32) : (maskOf f).getLsbD j.val = f j := by
  rw [maskOf, BitVec.getLsbD_ofNat, testBit_sum_bits]
  simp

/-- A reduction of the tree over the register with its identity in the inactive lanes (R174). -/
theorem reduceV_taken (i : Instr) (s : State) (km : Fin 4) (x : Vector Lane 32) (z : Lane) (node : Lane → Lane → Lane × BitVec 5) :
    reduceV (curSp (taken i s)) km x z node =
      (let r := treeSum node 5 ((List.finRange 32).map fun j => if (curSp s).k[km].getLsbD j.val then x[j] else z); (r.1.headD 0, r.2)) := by
  simp only [reduceV, active_taken]

theorem laneN_toNat (l : BitVec 5) : laneN l.toNat = l.toFin := Fin.ext (Nat.mod_eq_of_lt l.isLt)

/-- Settles O41, instruction by instruction: what each body makes of the spoke is what the statement says of the registers before the issue. -/
theorem maskAndWholeResults : Obligations.MaskAndWholeResults := by
  unfold Obligations.MaskAndWholeResults
  intro s c km d r kd ka kb a b g lane f p x y on pad
  refine ⟨fun h => ?_, fun h => ?_, fun e he h => ?_, fun h => ?_, fun h => ?_, fun h => ?_, fun e he h => ?_, fun h => ?_⟩
  · let m : Lane := maskOf fun j => if on j then (cmpF32 c x[j] y[j]).1 else p.k[kd].getLsbD j.val
    refine ⟨m, getLsbD_maskOf _, completes_as h rfl rfl ?_ fun q => ⟨rfl, rfl, rfl⟩⟩
    dsimp only
    simp only [laneFlags_taken, active_taken, vsrc_taken, bitN_eq_getLsbD, k_taken]
    rfl
  · refine completes_as h rfl rfl ?_ fun q => ⟨rfl, rfl, rfl⟩
    simp only [vsrc_taken, bitN_eq_getLsbD, k_taken]
    rfl
  · simp only [List.mem_cons, List.not_mem_nil, or_false] at he
    rcases he with rfl | rfl
    · exact completes_wrG h rfl (by simp only [reduceV_taken, vsrc_taken]; rfl)
    · exact completes_wrG h rfl (by simp only [reduceV_taken, vsrc_taken]; rfl)
  · exact writes_doneG h rfl (by simp only [vsrc_taken, laneN_toNat]; rfl)
  · exact completes_as h rfl rfl (by simp only [vsrc_taken, src_taken, laneN_toNat]; rfl) fun q => ⟨rfl, rfl, rfl⟩
  · exact completes_as h rfl rfl (by simp only [vsrc_taken, active_taken]; rfl) fun q => ⟨rfl, rfl, rfl⟩
  · simp only [List.mem_cons, List.not_mem_nil, or_false] at he
    rcases he with rfl | rfl | rfl
    · exact completes_doneK h rfl (by simp only [k_taken]; rfl)
    · exact completes_doneK h rfl (by simp only [k_taken]; rfl)
    · exact completes_doneK h rfl (by simp only [k_taken]; rfl)
  · exact writes_doneG h rfl (by simp only [k_taken, popCount_eq_countP]; rfl)

end Sys2Proof
end

section
/-! The magnitudes of a binary format, its exponents going on beyond the largest, and the layouts of the formats of the device (R161, R162, R168). -/

namespace Sys2Proof

open Machine

/-- The significand of a magnitude code, the hidden bit with it. -/
def Machine.BinFmt.sig (b : BinFmt) (c : ℕ) : ℕ := c - (c / 2 ^ b.f - 1) * 2 ^ b.f

/-- The exponent of the last place of a magnitude code. -/
def Machine.BinFmt.place (b : BinFmt) (c : ℕ) : ℤ := ((c / 2 ^ b.f - 1 : ℕ) : ℤ) + b.emin - b.f

/-- The value of a magnitude code, whether or not the format gives the code to a finite value. -/
def Machine.BinFmt.grid (b : BinFmt) (c : ℕ) : ℚ := (b.sig c : ℚ) * 2 ^ b.place c

theorem zpow_two_pos (k : ℤ) : (0 : ℚ) < 2 ^ k := zpow_pos two_pos k

theorem sig_place_add {b : BinFmt} {k n : ℕ} (hn : n < 2 * 2 ^ b.f) (hk : k = 0 ∨ 2 ^ b.f ≤ n) :
    b.sig (k * 2 ^ b.f + n) = n ∧ b.place (k * 2 ^ b.f + n) = k + b.emin - b.f := by
  have hpos : 0 < 2 ^ b.f := Nat.two_pow_pos _
  have hdiv : (k * 2 ^ b.f + n) / 2 ^ b.f = k + n / 2 ^ b.f := by
    rw [Nat.add_comm, Nat.add_mul_div_right _ _ hpos, Nat.add_comm]
  have hone : n / 2 ^ b.f < 2 := (Nat.div_lt_iff_lt_mul hpos).2 hn
  have hstep : k + n / 2 ^ b.f - 1 = k := by
    rcases hk with rfl | hk
    · omega
    · have := (Nat.one_le_div_iff hpos).2 hk
      omega
  rw [BinFmt.sig, BinFmt.place, hdiv, hstep]
  exact ⟨by omega, rfl⟩

/-- A code that counts `n` steps of the place that stands `k` above the least. -/
theorem grid_add {b : BinFmt} {k n : ℕ} (hn : n ≤ 2 * 2 ^ b.f) (hk : k = 0 ∨ 2 ^ b.f ≤ n) :
    b.grid (k * 2 ^ b.f + n) = (n : ℚ) * 2 ^ ((k : ℤ) + b.emin - b.f) := by
  rcases hn.lt_or_eq with hlt | rfl
  · obtain ⟨hs, hp⟩ := sig_place_add hlt hk
    rw [BinFmt.grid, hs, hp]
  · have hcode : k * 2 ^ b.f + 2 * 2 ^ b.f = (k + 1) * 2 ^ b.f + 2 ^ b.f := by ring
    obtain ⟨hs, hp⟩ := sig_place_add (b := b) (k := k + 1) (n := 2 ^ b.f) (by have := Nat.two_pow_pos b.f; omega) (.inr le_rfl)
    rw [hcode, BinFmt.grid, hs, hp, Nat.cast_succ, add_right_comm _ (1 : ℤ), add_sub_right_comm, zpow_add_one₀ two_ne_zero]
    push_cast
    ring

/-- Every code counts steps of its place. -/
theorem exists_steps (b : BinFmt) (c : ℕ) : ∃ k n, c = k * 2 ^ b.f + n ∧ n < 2 * 2 ^ b.f ∧ (k = 0 ∨ 2 ^ b.f ≤ n) := by
  have hpos : 0 < 2 ^ b.f := Nat.two_pow_pos _
  have hmod := Nat.mod_lt c hpos
  have hdiv := Nat.div_add_mod' c (2 ^ b.f)
  cases hq : c / 2 ^ b.f with
  | zero => exact ⟨0, c, by omega, by rw [hq] at hdiv; omega, .inl rfl⟩
  | succ k =>
    rw [hq, Nat.succ_mul] at hdiv
    exact ⟨k, 2 ^ b.f + c % 2 ^ b.f, by omega, by omega, .inr (by omega)⟩

/-- From a code to the next is one step of its place. -/
theorem grid_succ (b : BinFmt) (c : ℕ) : b.grid (c + 1) = b.grid c + 2 ^ b.place c := by
  obtain ⟨k, n, rfl, hn, hk⟩ := exists_steps b c
  rw [add_assoc, grid_add (n := n + 1) (by omega) (by omega), grid_add hn.le hk, (sig_place_add hn hk).2]
  push_cast
  ring

theorem grid_strictMono (b : BinFmt) : StrictMono b.grid :=
  strictMono_nat_of_lt_succ fun c => by
    rw [grid_succ]
    exact lt_add_of_pos_right _ (zpow_two_pos _)

@[simp] theorem grid_zero (b : BinFmt) : b.grid 0 = 0 := by
  have h := grid_add (b := b) (k := 0) (n := 0) (Nat.zero_le _) (.inl rfl)
  simpa using h

/-- What the rules of a binary format need of its layout: its place among the formats, the codes of R161, R162 and R168, and which of them are finite. -/
structure Layout (f : Fmt) (b : BinFmt) (nan inf top : ℕ) : Prop where
  round : ∀ rnd sat x, Fmt.round f rnd sat x = b.round rnd sat x
  dec : ∀ c < 2 ^ (b.f + b.eb + 1), Fmt.dec f c = b.dec c
  width : f.width = b.f + b.eb + 1
  maxCode : b.maxCode = top
  nanCode : b.nanCode = nan
  infCode : (if b.style = .ieee then b.infCode else b.maxCode) = inf
  frac : 1 ≤ b.f
  normal : 2 ^ b.f < top
  inBinade : top % 2 ^ b.f ≠ 0
  below : top < 2 ^ (b.f + b.eb)
  infBelow : inf < 2 ^ (b.f + b.eb)
  style : b.style = .fp4 ↔ f = .fp4
  special : ∀ c < 2 ^ (b.f + b.eb), (b.style = .ieee ∧ c / 2 ^ b.f % 2 ^ b.eb = 2 ^ b.eb - 1)
    ∨ (b.style = .e4m3 ∧ c / 2 ^ b.f % 2 ^ b.eb = 15 ∧ c % 2 ^ b.f = 7) ↔ top < c
  ieee : b.style = .ieee → inf = top + 1 ∧ ∀ c < 2 ^ (b.f + b.eb), top < c → (c % 2 ^ b.f = 0 ↔ c = inf)

theorem layout {e : Fmt × BinFmt × ℕ × ℕ × ℕ} (he : e ∈ floatFormats) : Layout e.1 e.2.1 e.2.2.1 e.2.2.2.1 e.2.2.2.2 := by
  simp only [floatFormats, List.mem_cons, List.not_mem_nil, or_false] at he
  have hdec {f : Fmt} {b : BinFmt} (hw : f.width = b.f + b.eb + 1) (h : ∀ c, Fmt.dec f c = b.dec (c % 2 ^ f.width)) (c : ℕ)
      (hc : c < 2 ^ (b.f + b.eb + 1)) : Fmt.dec f c = b.dec c := by rw [h, hw, Nat.mod_eq_of_lt hc]
  rcases he with rfl | rfl | rfl | rfl | rfl | rfl
  all_goals
    refine ⟨fun _ _ _ => rfl, hdec rfl fun _ => rfl, rfl, by decide, by decide, by decide, by decide, by decide, by decide, by decide, by decide,
      by decide, fun c hc => ?_, fun hs => ?_⟩
    · simp at hc ⊢
      omega
  · cases hs
  · cases hs
  all_goals
    refine ⟨rfl, fun c hc ht => ?_⟩
    simp at hc ht ⊢
    omega

end Sys2Proof
end

section
/-! Rounding between two neighbours, and the rounding of the model at a place (R74, R168). -/

namespace Sys2Proof

open Machine

/-- The neighbour that a magnitude `x` from `a`, the value of `lo`, up to `b`, the value of the code behind it, rounds to: the nearest, or the lower, or the upper. -/
def picks (way : Option Bool) (a x b : ℚ) (lo : ℕ) : ℕ :=
  match way with
  | none => if x + x < a + b ∨ (x + x = a + b ∧ lo % 2 = 0) then lo else lo + 1
  | some false => lo
  | some true => if x = a then lo else lo + 1

theorem picks_eq_or (way : Option Bool) (a x b : ℚ) (lo : ℕ) : picks way a x b lo = lo ∨ picks way a x b lo = lo + 1 := by
  match way with
  | none => exact ite_eq_or_eq ..
  | some false => exact .inl rfl
  | some true => exact ite_eq_or_eq ..

theorem picks_exact {way : Option Bool} {a b : ℚ} (h : a < b) (lo : ℕ) : picks way a a b lo = lo := by
  match way with
  | none => exact if_pos (.inl (by linarith))
  | some false => rfl
  | some true => exact if_pos rfl

/-- An even shift of the codes shifts what is picked. -/
theorem picks_add {way : Option Bool} {a x b : ℚ} {lo k : ℕ} (hk : k % 2 = 0) : picks way a x b (k + lo) = k + picks way a x b lo := by
  have hpar : (k + lo) % 2 = lo % 2 := by omega
  match way with
  | none => simp only [picks, hpar]; split <;> rfl
  | some false => rfl
  | some true => simp only [picks]; split <;> rfl

/-- Rounding to the nearest: a code that is picked, and the comparison that picks it. -/
theorem picks_none {a x b : ℚ} {lo c : ℕ} (hc : c = picks none a x b lo) :
    (c = lo ∧ (x + x < a + b ∨ (x + x = a + b ∧ c % 2 = 0))) ∨ (c = lo + 1 ∧ (a + b < x + x ∨ (x + x = a + b ∧ c % 2 = 0))) := by
  rw [picks] at hc
  split at hc
  next h => exact .inl ⟨hc, hc ▸ h⟩
  next h =>
    refine .inr ⟨hc, ?_⟩
    rcases lt_trichotomy (x + x) (a + b) with hx | hx | hx
    · exact absurd (.inl hx) h
    · have hodd : lo % 2 ≠ 0 := fun e => h (.inr ⟨hx, e⟩)
      exact .inr ⟨hx, by omega⟩
    · exact .inl hx

/-- The code that rounding to the nearest picks is as near as any other, and even where another is as near. -/
theorem picks_nearest {M : ℕ → ℚ} {x : ℚ} {lo c d : ℕ} (hlo : M lo ≤ x) (hhi : x < M (lo + 1)) (hd : d < lo → M d < M lo)
    (hd' : lo + 1 < d → M (lo + 1) < M d) (hc : c = picks none (M lo) x (M (lo + 1)) lo) :
    |M c - x| < |M d - x| ∨ (|M c - x| = |M d - x| ∧ (c % 2 = 0 ∨ d = c)) := by
  have hlow (h : M d ≤ M lo) : |M d - x| = x - M d := by rw [abs_of_nonpos (by linarith), neg_sub]
  have hhigh (h : M (lo + 1) ≤ M d) : |M d - x| = M d - x := abs_of_pos (by linarith)
  have hl : |M lo - x| = x - M lo := by rw [abs_of_nonpos (by linarith), neg_sub]
  have hh : |M (lo + 1) - x| = M (lo + 1) - x := abs_of_pos (by linarith)
  have hcase : d < lo ∨ d = lo ∨ d = lo + 1 ∨ lo + 1 < d := by omega
  rcases picks_none hc with ⟨rfl, hx⟩ | ⟨rfl, hx⟩
  · have hx' : x + x ≤ M c + M (c + 1) := hx.elim le_of_lt fun h => h.1.le
    rw [hl]
    rcases hcase with h | rfl | rfl | h
    · rw [hlow (hd h).le]
      exact .inl (by linarith [hd h])
    · exact .inr ⟨hl.symm, .inr rfl⟩
    · rw [hh]
      exact hx.imp (fun h => by linarith) fun h => ⟨by linarith [h.1], .inl h.2⟩
    · rw [hhigh (hd' h).le]
      exact .inl (by linarith [hd' h])
  · have hx' : M lo + M (lo + 1) ≤ x + x := hx.elim le_of_lt fun h => h.1.ge
    rw [hh]
    rcases hcase with h | rfl | rfl | h
    · rw [hlow (hd h).le]
      exact .inl (by linarith [hd h])
    · rw [hl]
      exact hx.imp (fun h => by linarith) fun h => ⟨by linarith [h.1], .inl h.2⟩
    · exact .inr ⟨hh.symm, .inr rfl⟩
    · rw [hhigh (hd' h).le]
      exact .inl (by linarith [hd' h])

/-- What is picked between two neighbours of an ascending row of values is what R74 says, among all of them. -/
theorem picks_rounds {M : ℕ → ℚ} (hM : StrictMono M) (way : Option Bool) {x : ℚ} {lo : ℕ} (hlo : M lo ≤ x) (hhi : x < M (lo + 1)) :
    let c := picks way (M lo) x (M (lo + 1)) lo
    match way with
    | none => ∀ d, |M c - x| < |M d - x| ∨ (|M c - x| = |M d - x| ∧ (c % 2 = 0 ∨ d = c))
    | some false => M c ≤ x ∧ ∀ d, M d ≤ x → d ≤ c
    | some true => x ≤ M c ∧ ∀ d, x ≤ M d → c ≤ d := by
  match way with
  | none => exact fun d => picks_nearest hlo hhi (fun h => hM h) (fun h => hM h) rfl
  | some false => exact ⟨hlo, fun d hd => Nat.lt_succ_iff.1 (hM.lt_iff_lt.1 (hd.trans_lt hhi))⟩
  | some true =>
    dsimp only [picks]
    split
    next hx => exact ⟨hx.le, fun d hd => hM.le_iff_le.1 (hx ▸ hd)⟩
    next hx => exact ⟨hhi.le, fun d hd => hM.lt_iff_lt.1 ((lt_of_le_of_ne hlo (Ne.symm hx)).trans_le hd)⟩

/-! Rounding at a place. -/

theorem two_zpow_sub {a b : ℤ} (h : b ≤ a) : (2 : ℚ) ^ a = ((2 ^ (a - b).toNat : ℕ) : ℚ) * 2 ^ b := by
  have hk : ((a - b).toNat : ℤ) = a - b := Int.toNat_of_nonneg (by omega)
  rw [Nat.cast_pow, Nat.cast_ofNat, ← zpow_natCast, hk, ← zpow_add₀ two_ne_zero, sub_add_cancel]

/-- Whether a magnitude q + r / s with a remainder goes up to q + 1 (R74). -/
def goesUp (rnd : Rnd) (neg : Bool) (q r s : ℕ) : Bool :=
  match rnd with
  | .rne => decide (2 * r > s) || (decide (2 * r = s) && q % 2 == 1)
  | .rtz => false
  | .rdn => neg
  | .rup => !neg

theorem roundAt_eq (rnd : Rnd) (neg : Bool) (m : ℕ) (e u : ℤ) :
    roundAt rnd neg m e u = if e ≥ u then (m * 2 ^ (e - u).toNat, false)
      else (let s := 2 ^ (u - e).toNat
        if m % s = 0 then (m / s, false) else (if goesUp rnd neg (m / s) (m % s) s then m / s + 1 else m / s, true)) := by
  cases rnd <;> rfl

/-- Where a remainder is left, the model takes the neighbour that R74 names. -/
theorem goesUp_picks (rnd : Rnd) (neg : Bool) {q r s : ℕ} (hr : r ≠ 0) {w : ℚ} (hw : 0 < w) :
    (if goesUp rnd neg q r s then q + 1 else q)
      = picks (away rnd neg) (q * (s * w)) ((s * q + r : ℕ) * w) ((q + 1 : ℕ) * (s * w)) q := by
  have hne : ((s * q + r : ℕ) : ℚ) * w ≠ q * (s * w) := by
    have : (0 : ℚ) < r * w := mul_pos (by exact_mod_cast Nat.pos_of_ne_zero hr) hw
    push_cast
    intro h
    linarith
  have hup : (if goesUp rnd neg q r s then q + 1 else q) = picks (some (goesUp rnd neg q r s)) (q * (s * w)) ((s * q + r : ℕ) * w) ((q + 1 : ℕ) * (s * w)) q := by
    cases goesUp rnd neg q r s with
    | true => exact (if_neg hne).symm
    | false => rfl
  cases rnd with
  | rne =>
    have hx : ((s * q + r : ℕ) : ℚ) * w + (s * q + r : ℕ) * w = (2 * (s * q) + 2 * r : ℕ) * w := by push_cast; ring
    have hab : (q : ℚ) * (s * w) + (q + 1 : ℕ) * (s * w) = (2 * (s * q) + s : ℕ) * w := by push_cast; ring
    have hlt : ((2 * (s * q) + 2 * r : ℕ) : ℚ) * w < (2 * (s * q) + s : ℕ) * w ↔ 2 * r < s := by
      rw [mul_lt_mul_iff_left₀ hw, Nat.cast_lt, Nat.add_lt_add_iff_left]
    have heq : ((2 * (s * q) + 2 * r : ℕ) : ℚ) * w = (2 * (s * q) + s : ℕ) * w ↔ 2 * r = s := by
      rw [mul_left_inj' hw.ne', Nat.cast_inj, Nat.add_left_cancel_iff]
    simp only [picks, away, goesUp, hx, hab, hlt, heq, Bool.or_eq_true, Bool.and_eq_true, decide_eq_true_eq, beq_iff_eq]
    split <;> split <;> omega
  | rtz => exact hup
  | rdn => exact hup
  | rup => exact hup

/-- The rounding of m × 2^e to a multiple of 2^u lies between two neighbouring multiples, and is exact at the lower one. -/
theorem roundAt_spec (rnd : Rnd) (neg : Bool) (m : ℕ) (e u : ℤ) :
    ∃ lo : ℕ, (lo : ℚ) * 2 ^ u ≤ m * 2 ^ e ∧ (m : ℚ) * 2 ^ e < ((lo + 1 : ℕ) : ℚ) * 2 ^ u
      ∧ (roundAt rnd neg m e u).1 = picks (away rnd neg) (lo * 2 ^ u) (m * 2 ^ e) ((lo + 1 : ℕ) * 2 ^ u) lo
      ∧ ((roundAt rnd neg m e u).2 = true ↔ (lo : ℚ) * 2 ^ u ≠ m * 2 ^ e) := by
  have hstep (lo : ℕ) : (lo : ℚ) * 2 ^ u < ((lo + 1 : ℕ) : ℚ) * 2 ^ u :=
    mul_lt_mul_of_pos_right (by exact_mod_cast Nat.lt_succ_self lo) (zpow_two_pos u)
  by_cases h : e ≥ u
  · have hval : ((m * 2 ^ (e - u).toNat : ℕ) : ℚ) * 2 ^ u = m * 2 ^ e := by
      rw [two_zpow_sub h, Nat.cast_mul, mul_assoc]
    refine ⟨m * 2 ^ (e - u).toNat, hval.le, hval ▸ hstep _, ?_, ?_⟩
    · rw [← hval, picks_exact (hstep _), roundAt_eq, if_pos h]
    · rw [roundAt_eq, if_pos h]
      simpa using hval
  · have hu : (2 : ℚ) ^ u = (2 ^ (u - e).toNat : ℕ) * 2 ^ e := two_zpow_sub (by omega)
    have hspos : 0 < 2 ^ (u - e).toNat := Nat.two_pow_pos _
    rw [roundAt_eq, if_neg h, hu]
    generalize 2 ^ (u - e).toNat = s at hspos
    have hw : (0 : ℚ) < 2 ^ e := zpow_two_pos e
    have hdiv : s * (m / s) + m % s = m := Nat.div_add_mod m s
    have hmod : m % s < s := Nat.mod_lt _ hspos
    have hlo : ((m / s : ℕ) : ℚ) * (s * 2 ^ e) = ((s * (m / s) : ℕ) : ℚ) * 2 ^ e := by push_cast; ring
    have hhi : ((m / s + 1 : ℕ) : ℚ) * (s * 2 ^ e) = ((s * (m / s) + s : ℕ) : ℚ) * 2 ^ e := by push_cast; ring
    have hlt : (m : ℚ) * 2 ^ e < ((m / s + 1 : ℕ) : ℚ) * (s * 2 ^ e) := by
      rw [hhi]
      exact mul_lt_mul_of_pos_right (by exact_mod_cast (by omega : m < s * (m / s) + s)) hw
    have hexact : ((m / s : ℕ) : ℚ) * (s * 2 ^ e) = m * 2 ^ e ↔ m % s = 0 := by
      rw [hlo, mul_left_inj' hw.ne', Nat.cast_inj]
      omega
    refine ⟨m / s, ?_, hlt, ?_, ?_⟩
    · rw [hlo]
      exact mul_le_mul_of_nonneg_right (by exact_mod_cast (by omega : s * (m / s) ≤ m)) hw.le
    · dsimp only
      split
      next h0 => rw [← hexact.2 h0] at hlt ⊢; exact (picks_exact hlt _).symm
      next h0 =>
        dsimp only
        rw [goesUp_picks rnd neg h0 hw, hdiv]
    · dsimp only
      rw [ne_eq, hexact]
      split <;> simp [*]

end Sys2Proof
end

section
/-! What the codes of a binary format stand for (R161, R162). -/

namespace Sys2Proof

open Machine

@[simp] theorem val_fin (neg : Bool) (m : ℕ) (e : ℤ) : (Num.fin neg m e).val = (if neg then -1 else 1) * ((m : ℚ) * 2 ^ e) := mul_assoc ..

section
variable {b : BinFmt} {c : ℕ} (s : Bool)

theorem code_sign (hc : c < 2 ^ (b.f + b.eb)) : (2 ^ (b.f + b.eb) * s.toNat + c) / b.signBit % 2 = s.toNat := by
  rw [BinFmt.signBit, Nat.mul_add_div (Nat.two_pow_pos _), Nat.div_eq_of_lt hc]
  cases s <;> rfl

theorem code_exponent (hc : c < 2 ^ (b.f + b.eb)) : (2 ^ (b.f + b.eb) * s.toNat + c) / 2 ^ b.f % 2 ^ b.eb = c / 2 ^ b.f := by
  have hlt : c / 2 ^ b.f < 2 ^ b.eb := by
    rw [Nat.div_lt_iff_lt_mul (Nat.two_pow_pos _), ← pow_add, Nat.add_comm]
    exact hc
  rw [pow_add, mul_assoc, Nat.mul_add_div (Nat.two_pow_pos _), Nat.mul_add_mod, Nat.mod_eq_of_lt hlt]

theorem code_fraction (b : BinFmt) (c : ℕ) : (2 ^ (b.f + b.eb) * s.toNat + c) % 2 ^ b.f = c % 2 ^ b.f := by
  rw [pow_add, mul_assoc, Nat.mul_add_mod]

end

section
variable {f : Fmt} {b : BinFmt} {nan inf top : ℕ} (L : Layout f b nan inf top) {c : ℕ} (hc : c < 2 ^ (b.f + b.eb)) (s : Bool)
include L hc

/-- A finite code: its sign, its significand and its place. -/
theorem dec_finite (ht : c ≤ top) : b.dec (2 ^ (b.f + b.eb) * s.toNat + c) = .fin s (b.sig c) (b.place c) := by
  have hs : (s.toNat == 1) = s := by cases s <;> rfl
  have hspec := (L.special c hc).not.2 (Nat.not_lt.2 ht)
  have hlt : c / 2 ^ b.f % 2 ^ b.eb = c / 2 ^ b.f := by
    have h := code_exponent false hc
    simpa using h
  rw [hlt, not_or] at hspec
  rw [BinFmt.dec, code_sign s hc, code_exponent s hc, code_fraction s b c, hs, if_neg hspec.1, if_neg hspec.2]
  have hdiv := Nat.div_add_mod' c (2 ^ b.f)
  cases hq : c / 2 ^ b.f with
  | zero =>
    rw [if_pos rfl, BinFmt.sig, BinFmt.place, hq]
    rw [hq] at hdiv
    simp at hdiv
    simp [hdiv]
  | succ k =>
    rw [if_neg (by simp), BinFmt.sig, BinFmt.place, hq, BinFmt.emin]
    rw [hq, Nat.succ_mul] at hdiv
    congr 1
    · simp
      omega
    · simp
      omega

/-- A code above the largest finite one: an infinity or a NaN. -/
theorem dec_special (ht : top < c) : b.dec (2 ^ (b.f + b.eb) * s.toNat + c) =
    if b.style = .ieee ∧ c % 2 ^ b.f = 0 then .inf s else .nan (b.style == .ieee && !c.testBit (b.f - 1)) := by
  have hs : (s.toNat == 1) = s := by cases s <;> rfl
  have hspec := (L.special c hc).2 ht
  have hlt : c / 2 ^ b.f % 2 ^ b.eb = c / 2 ^ b.f := by
    have h := code_exponent false hc
    simpa using h
  rw [hlt] at hspec
  rw [BinFmt.dec, code_sign s hc, code_exponent s hc, code_fraction s b c, hs]
  rcases hspec with ⟨hst, he⟩ | hst
  · have hbit : c.testBit (b.f - 1) = !decide (c % 2 ^ b.f < 2 ^ (b.f - 1)) := by
      rw [← Nat.sub_add_cancel L.frac, Nat.add_sub_cancel, Nat.testBit_eq_decide_div_mod_eq, pow_succ, Nat.mod_mul, ← decide_not, decide_eq_decide]
      have h1 := Nat.mod_lt c (Nat.two_pow_pos (b.f - 1))
      rcases Nat.mod_two_eq_zero_or_one (c / 2 ^ (b.f - 1)) with h | h <;> rw [h] <;> simp [h1]
    rw [if_pos ⟨hst, he⟩, hbit, hst]
    simp
  · have hne : b.style ≠ .ieee := by rw [hst.1]; decide
    have hb : (b.style == .ieee) = false := beq_false_of_ne hne
    rw [if_neg fun h => hne h.1, if_pos hst, if_neg fun h => hne h.1, hb, Bool.false_and]

end

/-- The magnitude of a finite code is its place in the row of magnitudes. -/
theorem mag_eq_grid {f : Fmt} {b : BinFmt} {nan inf top : ℕ} (L : Layout f b nan inf top) {c : ℕ} (ht : c ≤ top) : b.mag c = b.grid c := by
  have h := dec_finite L (ht.trans_lt L.below) false ht
  rw [Bool.toNat_false, mul_zero, zero_add] at h
  rw [BinFmt.mag, h]
  simp [BinFmt.grid]

/-- A code, as its sign and its magnitude. -/
theorem code_split {b : BinFmt} {c : ℕ} (hc : c < 2 ^ (b.f + b.eb + 1)) : c = 2 ^ (b.f + b.eb) * (c.testBit (b.f + b.eb)).toNat + c % 2 ^ (b.f + b.eb) := by
  have hone : c / 2 ^ (b.f + b.eb) < 2 := by
    rw [Nat.div_lt_iff_lt_mul (Nat.two_pow_pos _), ← pow_succ']
    exact hc
  rw [Nat.toNat_testBit, Nat.mod_eq_of_lt hone, Nat.div_add_mod]

end Sys2Proof
end

section
/-! The rounding of the model to a binary format is that of R168; it rounds alike any two magnitudes that stand alike to the multiples of a power of two far enough below them. -/

namespace Sys2Proof

open Machine

/-! Magnitudes that no multiple of a power of two tells apart. -/

/-- Two magnitudes stand alike to every multiple of 2^v. -/
def Alike (v : ℤ) (x z : ℚ) : Prop := ∀ n : ℤ, ((n : ℚ) * 2 ^ v ≤ x ↔ (n : ℚ) * 2 ^ v ≤ z) ∧ (x ≤ (n : ℚ) * 2 ^ v ↔ z ≤ (n : ℚ) * 2 ^ v)

theorem Alike.refl (v : ℤ) (x : ℚ) : Alike v x x := fun _ => ⟨Iff.rfl, Iff.rfl⟩

theorem Alike.mono {v u : ℤ} {x z : ℚ} (h : Alike v x z) (hv : v ≤ u) : Alike u x z := fun n => by
  have hn : (n : ℚ) * 2 ^ u = ((n * (2 ^ (u - v).toNat : ℕ) : ℤ) : ℚ) * 2 ^ v := by
    rw [two_zpow_sub hv]
    push_cast
    ring
  rw [hn]
  exact h _

section
variable {v : ℤ} {x z : ℚ} (h : Alike v x z) {t : ℚ} (n : ℤ) (ht : (n : ℚ) * 2 ^ v = t)
include h ht

theorem Alike.le_iff : t ≤ x ↔ t ≤ z := ht ▸ (h n).1

theorem Alike.ge_iff : x ≤ t ↔ z ≤ t := ht ▸ (h n).2

theorem Alike.lt_iff : x < t ↔ z < t := by rw [← not_le, ← not_le, h.le_iff n ht]

theorem Alike.eq_iff : x = t ↔ z = t := by rw [le_antisymm_iff, le_antisymm_iff, h.le_iff n ht, h.ge_iff n ht]

end

/-- Two such magnitudes are picked the same neighbour among the multiples of a greater power. -/
theorem Alike.picks {v u : ℤ} {x z : ℚ} (h : Alike v x z) (hv : v < u) (way : Option Bool) (n lo : ℕ) :
    picks way (n * 2 ^ u) x ((n + 1 : ℕ) * 2 ^ u) lo = picks way (n * 2 ^ u) z ((n + 1 : ℕ) * 2 ^ u) lo := by
  have hu : (2 : ℚ) ^ u = 2 * 2 ^ (u - 1) := by
    rw [mul_comm, ← zpow_add_one₀ two_ne_zero, sub_add_cancel]
  have hmid : ((2 * n + 1 : ℤ) : ℚ) * 2 ^ (u - 1) = (n * 2 ^ u + (n + 1 : ℕ) * 2 ^ u) / 2 := by
    rw [hu]
    push_cast
    ring
  have h1 := h.mono (by omega : v ≤ u - 1)
  have hlt (y : ℚ) : y + y < n * 2 ^ u + (n + 1 : ℕ) * 2 ^ u ↔ y < (n * 2 ^ u + (n + 1 : ℕ) * 2 ^ u) / 2 := by
    constructor <;> intro _ <;> linarith
  have heq (y : ℚ) : y + y = n * 2 ^ u + (n + 1 : ℕ) * 2 ^ u ↔ y = (n * 2 ^ u + (n + 1 : ℕ) * 2 ^ u) / 2 := by
    constructor <;> intro _ <;> linarith
  match way with
  | none => simp only [Sys2Proof.picks, hlt, heq, h1.lt_iff _ hmid, h1.eq_iff _ hmid]
  | some false => rfl
  | some true => simp only [Sys2Proof.picks, (h.mono hv.le).eq_iff (t := n * 2 ^ u) n (by rw [Int.cast_natCast])]

/-! The exponent of a magnitude. -/

theorem expOf_spec {m : ℕ} (hm : m ≠ 0) (e : ℤ) : (2 : ℚ) ^ expOf m e ≤ m * 2 ^ e ∧ (m : ℚ) * 2 ^ e < 2 ^ (expOf m e + 1) := by
  have hsplit (k : ℕ) : (2 : ℚ) ^ ((k : ℤ) + e) = ((2 ^ k : ℕ) : ℚ) * 2 ^ e := by
    rw [zpow_add₀ two_ne_zero, zpow_natCast]
    push_cast
    rfl
  have hw := zpow_two_pos e
  rw [expOf, add_right_comm, hsplit, ← Nat.cast_succ, hsplit, mul_le_mul_iff_left₀ hw, mul_lt_mul_iff_left₀ hw, Nat.cast_le, Nat.cast_lt]
  exact ⟨Nat.log2_self_le hm, Nat.lt_log2_self⟩

/-- The rounding of a magnitude to a binary format lies between two neighbouring codes. -/
theorem round_bracket {b : BinFmt} (hf : 1 ≤ b.f) (rnd : Rnd) (neg : Bool) {m : ℕ} (hm : m ≠ 0) (e : ℤ) {x : ℚ}
    (hx : Alike (expOf m e - b.f - 2) x (m * 2 ^ e)) :
    let q := max (expOf m e) b.emin
    let r := roundAt rnd neg m e (q - b.f)
    ∃ lo, b.grid lo ≤ x ∧ x < b.grid (lo + 1)
      ∧ (q - b.emin).toNat * 2 ^ b.f + r.1 = picks (away rnd neg) (b.grid lo) x (b.grid (lo + 1)) lo ∧ (r.2 = true ↔ b.grid lo ≠ x) := by
  intro q r
  obtain ⟨n, hle, hlt, hpick, hinx⟩ := roundAt_spec rnd neg m e (q - b.f)
  obtain ⟨hexp, hexp'⟩ := expOf_spec hm e
  have hq : ((q - b.emin).toNat : ℤ) = q - b.emin := Int.toNat_of_nonneg (by omega)
  have hu : ((q - b.emin).toNat : ℤ) + b.emin - b.f = q - b.f := by omega
  have hsplit : (2 : ℚ) ^ q = ((2 ^ b.f : ℕ) : ℚ) * 2 ^ (q - b.f) := by
    rw [two_zpow_sub (by omega : q - b.f ≤ q)]
    congr 3
    omega
  have hw := zpow_two_pos (q - b.f)
  have hn : n < 2 * 2 ^ b.f := by
    have h : (m : ℚ) * 2 ^ e < 2 ^ (q + 1) := hexp'.trans_le (zpow_le_zpow_right₀ one_le_two (by omega))
    rw [zpow_add_one₀ two_ne_zero, hsplit, mul_right_comm] at h
    have := lt_of_mul_lt_mul_right (hle.trans_lt h) hw.le
    rw [mul_comm] at this
    exact_mod_cast this
  have hk : (q - b.emin).toNat = 0 ∨ 2 ^ b.f ≤ n := by
    rcases le_or_gt (expOf m e) b.emin with h | h
    · exact .inl (by omega)
    · have hqe : q = expOf m e := max_eq_left h.le
      have h : (2 : ℚ) ^ q ≤ m * 2 ^ e := hqe ▸ hexp
      rw [hsplit] at h
      have := lt_of_mul_lt_mul_right (h.trans_lt hlt) hw.le
      exact .inr (Nat.lt_succ_iff.1 (by exact_mod_cast this))
  have hlo := grid_add (b := b) hn.le hk
  have hhi := grid_add (b := b) (k := (q - b.emin).toNat) (n := n + 1) (by omega) (by omega)
  rw [hu] at hlo hhi
  rw [← add_assoc] at hhi
  have hev : (q - b.emin).toNat * 2 ^ b.f % 2 = 0 := by
    rw [← Nat.sub_add_cancel hf, pow_succ, ← mul_assoc]
    exact Nat.mul_mod_left ..
  have hx' := hx.mono (by omega : expOf m e - b.f - 2 ≤ q - b.f)
  refine ⟨(q - b.emin).toNat * 2 ^ b.f + n, ?_, ?_, ?_, ?_⟩
  · rw [hlo]
    exact (hx'.le_iff n (by simp)).2 hle
  · rw [hhi]
    exact (hx'.lt_iff ((n + 1 : ℕ) : ℤ) (by simp)).2 hlt
  · rw [hlo, hhi, picks_add hev, hx.picks (by omega), ← hpick]
  · rw [hlo, hinx, not_iff_not, eq_comm, eq_comm (b := x)]
    exact (hx'.eq_iff n (by simp)).symm

end Sys2Proof
end

section
/-! Overflow and underflow, and the result of a rounding (R168). -/

namespace Sys2Proof

open Machine

/-- What is picked between `lo` and the code behind it lies beyond `top` where `lo` does, or where `lo` is `top` and is left. -/
theorem lt_picks_iff (way : Option Bool) (a x b : ℚ) (lo top : ℕ) :
    top < picks way a x b lo ↔ top < lo ∨ (lo = top ∧ picks way a x b lo = lo + 1) := by
  have := picks_eq_or way a x b lo
  omega

/-- The upper neighbour is picked to the nearest. -/
theorem picks_none_succ_iff {a x b : ℚ} {lo : ℕ} : picks none a x b lo = lo + 1 ↔ (a + b) / 2 < x ∨ ((a + b) / 2 = x ∧ lo % 2 = 1) := by
  constructor
  · intro h
    rcases picks_none h.symm with ⟨h, -⟩ | ⟨-, h⟩
    · omega
    · exact h.imp (fun h => by linarith) fun h => ⟨by linarith [h.1], by omega⟩
  · intro h
    rw [picks, if_neg]
    rintro (hx | ⟨hx, hp⟩) <;> rcases h with h | ⟨h, hp'⟩
    · linarith
    · linarith
    · linarith
    · omega

/-- The upper neighbour is picked away from zero. -/
theorem picks_up_succ_iff {a x b : ℚ} {lo : ℕ} : picks (some true) a x b lo = lo + 1 ↔ x ≠ a := by
  rw [picks]
  split
  next h => exact iff_of_false (Nat.succ_ne_self lo).symm (not_not.2 h)
  next h => exact iff_of_true rfl h

section
variable {f : Fmt} {b : BinFmt} {nan inf top : ℕ} (L : Layout f b nan inf top) (rnd : Rnd) (neg : Bool) {x : ℚ} {lo : ℕ}
include L

/-- One step above the largest finite code. -/
theorem grid_top_succ : b.grid (top + 1) = b.mag top + (b.mag top - b.mag (top - 1)) := by
  have hpos : 0 < top := (Nat.zero_le _).trans_lt L.normal
  have hplace : b.place (top - 1) = b.place top := by
    have hdiv : (top - 1) / 2 ^ b.f = top / 2 ^ b.f := by
      have h1 := Nat.div_add_mod' top (2 ^ b.f)
      have h2 := L.inBinade
      have h3 := Nat.mod_lt top (Nat.two_pow_pos b.f)
      exact Nat.div_eq_of_lt_le (by omega) (by rw [Nat.succ_mul]; omega)
    rw [BinFmt.place, hdiv, BinFmt.place]
  have h := grid_succ b (top - 1)
  rw [Nat.sub_add_cancel hpos, hplace] at h
  rw [grid_succ, mag_eq_grid L le_rfl, mag_eq_grid L (Nat.sub_le ..), h]
  ring

/-- A magnitude overflows where the code that it rounds to lies beyond the largest finite one. -/
theorem overflows_iff (hlo : b.grid lo ≤ x) (hhi : x < b.grid (lo + 1)) :
    b.Overflows top rnd neg x ↔ top < picks (away rnd neg) (b.grid lo) x (b.grid (lo + 1)) lo := by
  have hM := grid_strictMono b
  have hsucc := grid_top_succ L
  have hstep : b.grid top < b.grid (top + 1) := hM (Nat.lt_succ_self _)
  have hout (h : top < lo) : b.grid (top + 1) ≤ x := (hM.monotone h).trans hlo
  have hin (h : lo < top) : x < b.grid top := hhi.trans_le (hM.monotone h)
  rw [lt_picks_iff]
  unfold BinFmt.Overflows
  dsimp only
  generalize b.mag top - b.mag (top - 1) = ulp at *
  rw [mag_eq_grid L le_rfl] at *
  have hmid : b.grid top + ulp / 2 = (b.grid top + b.grid (top + 1)) / 2 := by rw [hsucc]; ring
  rcases lt_trichotomy lo top with h | rfl | h
  · refine iff_of_false ?_ (by omega)
    have := hin h
    match away rnd neg with
    | none => rintro (h | ⟨h, -⟩) <;> linarith
    | some false => dsimp only; linarith
    | some true => dsimp only; linarith
  · rw [or_iff_right (lt_irrefl _), and_iff_right rfl]
    match away rnd neg with
    | none => rw [picks_none_succ_iff, ← hmid]
    | some false => exact iff_of_false (by dsimp only; linarith) (by simp [picks])
    | some true =>
      rw [picks_up_succ_iff]
      exact ⟨ne_of_gt, fun h => lt_of_le_of_ne hlo h.symm⟩
  · refine iff_of_true ?_ (.inl h)
    have := hout h
    match away rnd neg with
    | none => exact .inl (by linarith)
    | some false => dsimp only; linarith
    | some true => dsimp only; linarith

end

/-- The least normal, and the place below it, in steps of that place. -/
theorem least_normal (b : BinFmt) : (2 : ℚ) ^ b.emin = (2 * 2 ^ b.f : ℕ) * 2 ^ (b.emin - 1 - b.f)
    ∧ (2 : ℚ) ^ b.emin / 2 ^ (b.f + 1) = 2 ^ (b.emin - 1 - b.f) := by
  have h : (2 : ℚ) ^ b.emin = 2 ^ (b.f + 1) * 2 ^ (b.emin - 1 - b.f) := by
    rw [← zpow_natCast, ← zpow_add₀ two_ne_zero]
    congr 1
    push_cast
    ring
  refine ⟨?_, ?_⟩
  · rw [h, pow_succ']
    push_cast
    rfl
  · rw [h, mul_div_cancel_left₀ _ (by positivity)]

section
variable (b : BinFmt) (hn : b.mag (2 ^ b.f) = 2 ^ b.emin) (rnd : Rnd) (neg : Bool) {m : ℕ} (hm : m ≠ 0) (e : ℤ)
include hn hm

/-- A magnitude below the least normal is not tiny where it rounds to it. -/
theorem tinyAfter_iff : tinyAfter b rnd neg m e = true ↔ b.Tiny rnd neg (m * 2 ^ e) := by
  obtain ⟨hexp, hexp'⟩ := expOf_spec hm e
  obtain ⟨hleast, hulp⟩ := least_normal b
  have hlt : (m : ℚ) * 2 ^ e < 2 ^ b.emin ↔ expOf m e < b.emin := by
    refine ⟨fun h => (zpow_lt_zpow_iff_right₀ one_lt_two).1 (hexp.trans_lt h), fun h => hexp'.trans_le ?_⟩
    exact zpow_le_zpow_right₀ one_le_two (by omega)
  unfold tinyAfter BinFmt.Tiny
  dsimp only
  rw [hn, hlt, hulp, Bool.and_eq_true, decide_eq_true_eq]
  refine and_congr_right fun hq => ?_
  have hw := zpow_two_pos (b.emin - 1 - b.f)
  have hP : 1 ≤ 2 ^ b.f := Nat.one_le_two_pow
  rw [hleast]
  generalize hp : 2 * 2 ^ b.f = p at hleast
  have hbelow (h : (m : ℚ) * 2 ^ e ≤ ((p : ℚ) - 1) * 2 ^ (b.emin - 1 - b.f)) : match away rnd neg with
      | none => (m : ℚ) * 2 ^ e < p * 2 ^ (b.emin - 1 - b.f) - 2 ^ (b.emin - 1 - b.f) / 2
      | some false => True
      | some true => (m : ℚ) * 2 ^ e ≤ p * 2 ^ (b.emin - 1 - b.f) - 2 ^ (b.emin - 1 - b.f) := by
    match away rnd neg with
    | none => dsimp only; linarith
    | some false => trivial
    | some true => dsimp only; linarith
  rcases (by omega : expOf m e < b.emin - 1 ∨ expOf m e = b.emin - 1) with h1 | h1
  · refine iff_of_true (by simp [h1.ne]) (hbelow (hexp'.le.trans ?_))
    have hhalf : (2 : ℚ) ^ (b.emin - 1) = (2 ^ b.f : ℕ) * 2 ^ (b.emin - 1 - b.f) := by
      rw [two_zpow_sub (by omega : b.emin - 1 - b.f ≤ b.emin - 1), sub_sub_cancel, Int.toNat_natCast]
    calc (2 : ℚ) ^ (expOf m e + 1) ≤ 2 ^ (b.emin - 1) := zpow_le_zpow_right₀ one_le_two (by omega)
      _ = (2 ^ b.f : ℕ) * 2 ^ (b.emin - 1 - b.f) := hhalf
      _ ≤ ((p : ℚ) - 1) * 2 ^ (b.emin - 1 - b.f) := mul_le_mul_of_nonneg_right ?_ hw.le
    rw [le_sub_iff_add_le]
    exact_mod_cast (by omega : 2 ^ b.f + 1 ≤ p)
  · rw [h1] at hexp' ⊢
    obtain ⟨n, hle, hlt', hpick, -⟩ := roundAt_spec rnd neg m e (b.emin - 1 - b.f)
    rw [sub_add_cancel, hleast] at hexp'
    have hnp : n < p := by exact_mod_cast lt_of_mul_lt_mul_right (hle.trans_lt hexp') hw.le
    have hcode : (!(decide (b.emin - 1 = b.emin - 1) && (roundAt rnd neg m e (b.emin - 1 - b.f)).1 == 2 ^ (b.f + 1))) = true
        ↔ ¬ (roundAt rnd neg m e (b.emin - 1 - b.f)).1 = p := by
      rw [pow_succ', hp]
      simp
    rw [hcode, hpick]
    rcases (by omega : n + 1 < p ∨ n + 1 = p) with h2 | rfl
    · refine iff_of_true ?_ (hbelow (hlt'.le.trans (mul_le_mul_of_nonneg_right ?_ hw.le)))
      · have := picks_eq_or (away rnd neg) (n * 2 ^ (b.emin - 1 - b.f)) (m * 2 ^ e) ((n + 1 : ℕ) * 2 ^ (b.emin - 1 - b.f)) n
        omega
      · rw [le_sub_iff_add_le]
        exact_mod_cast h2
    · have hodd : n % 2 = 1 := by omega
      have hsum : ((n + 1 : ℕ) : ℚ) * 2 ^ (b.emin - 1 - b.f) = n * 2 ^ (b.emin - 1 - b.f) + 2 ^ (b.emin - 1 - b.f) := by push_cast; ring
      match away rnd neg with
      | none =>
        rw [picks_none_succ_iff, and_iff_left hodd, ← le_iff_lt_or_eq, not_le, hsum]
        constructor <;> intro _ <;> linarith
      | some false => simp [picks]
      | some true =>
        rw [picks_up_succ_iff, not_not, hsum, add_sub_cancel_right]
        exact ⟨le_of_eq, fun h => le_antisymm h hle⟩

/-- Two magnitudes that stand alike are tiny alike. -/
theorem Alike.tiny {x : ℚ} (hx : Alike (expOf m e - b.f - 2) x (m * 2 ^ e)) : b.Tiny rnd neg x ↔ b.Tiny rnd neg (m * 2 ^ e) := by
  obtain ⟨hexp, -⟩ := expOf_spec hm e
  obtain ⟨hleast, hulp⟩ := least_normal b
  unfold BinFmt.Tiny
  dsimp only
  rw [hn, hulp]
  rcases le_or_gt b.emin (expOf m e) with h | h
  · have hz : (2 : ℚ) ^ b.emin ≤ 2 ^ expOf m e := zpow_le_zpow_right₀ one_le_two h
    have hx' : (2 : ℚ) ^ expOf m e ≤ x := ((hx.mono (by omega : _ ≤ expOf m e)).le_iff 1 (by simp)).2 hexp
    exact iff_of_false (fun k => absurd (hz.trans hx') (not_le.2 k.1)) fun k => absurd (hz.trans hexp) (not_le.2 k.1)
  · have hlt : x < 2 ^ b.emin ↔ (m : ℚ) * 2 ^ e < 2 ^ b.emin := (hx.mono (by omega : _ ≤ b.emin)).lt_iff 1 (by simp)
    rw [hlt]
    refine and_congr_right fun _ => ?_
    match away rnd neg with
    | none =>
      refine (hx.mono (by omega : _ ≤ b.emin - 1 - b.f - 1)).lt_iff (2 * (2 * 2 ^ b.f : ℕ) - 1) ?_
      rw [hleast, ← sub_add_cancel (b.emin - 1 - b.f) 1, zpow_add_one₀ two_ne_zero, add_sub_cancel_right]
      push_cast
      ring
    | some false => rfl
    | some true =>
      refine (hx.mono (by omega : _ ≤ b.emin - 1 - b.f)).ge_iff ((2 * 2 ^ b.f : ℕ) - 1) ?_
      rw [hleast]
      push_cast
      ring

end

/-- What an overflow gives (R168). -/
theorem overflow_eq (b : BinFmt) (rnd : Rnd) (sat neg : Bool) : overflow b rnd sat neg =
    if b.style = .ieee ∧ away rnd neg ≠ some false then if sat then (b.maxCode, fOvf ||| fInx ||| fSat) else (b.infCode, fOvf ||| fInx)
    else (b.maxCode, fOvf ||| fInx) := by
  have hway : overflow b rnd sat neg = let toInf := b.style == .ieee && decide (away rnd neg ≠ some false)
      if toInf && !sat then (b.infCode, fOvf ||| fInx) else (b.maxCode, fOvf ||| fInx ||| fIf toInf fSat) := by
    cases rnd <;> cases neg <;> rfl
  rw [hway]
  by_cases h : b.style = .ieee <;> by_cases h' : away rnd neg = some false <;> cases sat <;> simp [h, h', fIf]

theorem round_fin (b : BinFmt) (rnd : Rnd) (sat neg : Bool) {m : ℕ} (hm : m ≠ 0) (e : ℤ) : b.round rnd sat (.fin neg m e) =
    let q := max (expOf m e) b.emin
    let r := roundAt rnd neg m e (q - b.f)
    let code := (q - b.emin).toNat * 2 ^ b.f + r.1
    let o := overflow b rnd sat neg
    if code > b.maxCode then (b.signBit * neg.toNat + o.1, o.2)
    else (b.signBit * neg.toNat + code, fIf r.2 fInx ||| fIf (r.2 && tinyAfter b rnd neg m e) fUnf) := if_neg hm

/-- The flags of a rounding that does not overflow. -/
theorem flags_inexact (i t : Bool) : (fIf i fInx ||| fIf (i && t) fUnf) &&& ~~~(fInx ||| fUnf) = 0
    ∧ ((fIf i fInx ||| fIf (i && t) fUnf) &&& fInx ≠ 0 ↔ i = true) ∧ ((fIf i fInx ||| fIf (i && t) fUnf) &&& fUnf ≠ 0 ↔ i = true ∧ t = true) := by
  cases i <;> cases t <;> decide

section
variable {f : Fmt} {b : BinFmt} {nan inf top : ℕ} (L : Layout f b nan inf top)
include L

theorem mag_least_normal : b.mag (2 ^ b.f) = 2 ^ b.emin := by
  have h := grid_add (b := b) (k := 0) (n := 2 ^ b.f) (by omega) (.inl rfl)
  rw [zero_mul, zero_add] at h
  rw [mag_eq_grid L L.normal.le, h, Nat.cast_zero, zero_add, two_zpow_sub (by omega : b.emin - b.f ≤ b.emin), sub_sub_cancel, Int.toNat_natCast]

/-- What is picked among the codes of a format is what R74 and R168 say of its finite values. -/
theorem rounds_of_picks (rnd : Rnd) (neg : Bool) {x : ℚ} {lo : ℕ} (hlo : b.grid lo ≤ x) (hhi : x < b.grid (lo + 1))
    (hc : picks (away rnd neg) (b.grid lo) x (b.grid (lo + 1)) lo ≤ top) :
    b.Rounds top rnd neg x (picks (away rnd neg) (b.grid lo) x (b.grid (lo + 1)) lo) := by
  have h := picks_rounds (grid_strictMono b) (away rnd neg) hlo hhi
  unfold BinFmt.Rounds NearestEven
  dsimp only at h
  rw [mag_eq_grid L hc]
  generalize picks (away rnd neg) (b.grid lo) x (b.grid (lo + 1)) lo = c at *
  generalize away rnd neg = way at *
  match way with
  | none => exact fun d _ hd => by rw [mag_eq_grid L hd]; exact h d
  | some false => exact ⟨h.1, fun d hd hx => h.2 d (mag_eq_grid L hd ▸ hx)⟩
  | some true => exact ⟨h.1, fun d hd hx => h.2 d (mag_eq_grid L hd ▸ hx)⟩

/-- The model rounds to a binary format as R168 says, a magnitude as any other that stands alike to it. -/
theorem round_result (rnd : Rnd) (sat neg : Bool) {m : ℕ} (hm : m ≠ 0) (e : ℤ) {x : ℚ}
    (hx : Alike (expOf m e - b.f - 2) x (m * 2 ^ e)) : b.Result inf top rnd sat neg x (b.round rnd sat (.fin neg m e)) := by
  obtain ⟨lo, hlo, hhi, hpick, hinx⟩ := round_bracket L.frac rnd neg hm e hx
  have htiny := (tinyAfter_iff b (mag_least_normal L) rnd neg hm e).trans (hx.tiny b (mag_least_normal L) rnd neg hm e).symm
  have hover := overflows_iff L rnd neg hlo hhi
  rw [round_fin b rnd sat neg hm e]
  dsimp only at hpick hinx ⊢
  rw [hpick, L.maxCode, overflow_eq, L.maxCode]
  generalize (roundAt rnd neg m e (max (expOf m e) b.emin - b.f)).2 = inx at *
  generalize hc : picks (away rnd neg) (b.grid lo) x (b.grid (lo + 1)) lo = c at *
  refine ⟨fun ho => ?_, fun ho => ?_⟩
  · rw [if_pos (hover.1 ho)]
    refine ⟨fun hi hs => ?_, fun hi hs => ?_, fun hi => ?_⟩
    · rw [if_pos hi, hs, ← L.infCode, if_pos hi.1]
      rfl
    · rw [if_pos hi, hs]
      rfl
    · rw [if_neg hi]
      rfl
  · have hle : c ≤ top := Nat.not_lt.1 (hover.not.1 ho)
    have hexact : b.mag c ≠ x ↔ b.grid lo ≠ x := by
      rw [mag_eq_grid L hle, not_iff_not]
      constructor
      · intro h
        rcases picks_eq_or (away rnd neg) (b.grid lo) x (b.grid (lo + 1)) lo with h' | h'
        · rwa [← h', hc]
        · rw [hc] at h'
          rw [h'] at h
          exact absurd h hhi.ne'
      · intro h
        rw [← hc, ← h, picks_exact (grid_strictMono b (Nat.lt_succ_self lo))]
    obtain ⟨hother, hI, hU⟩ := flags_inexact inx (tinyAfter b rnd neg m e)
    rw [if_neg (hover.not.1 ho)]
    refine ⟨c, hle, ?_, rfl, hother, ?_, ?_⟩
    · rw [← hc] at hle ⊢
      exact rounds_of_picks L rnd neg hlo hhi hle
    · rw [hI, hinx, hexact]
    · rw [hU, hinx, hexact, htiny]

end

end Sys2Proof
end

section
/-! The first clauses of the number rules: what the codes stand for, and rounding to the binary formats (R161, R162, R168). -/

namespace Sys2Proof

open Machine

/-- A finite code, as the sign, the exponent field and the fraction field of R161 and R162 give it. -/
theorem grid_fields (b : BinFmt) (c : ℕ) : b.grid c = if c / 2 ^ b.f = 0 then 2 ^ (1 - (b.bias : ℤ)) * ((c % 2 ^ b.f : ℕ) / 2 ^ b.f : ℚ)
    else 2 ^ ((c / 2 ^ b.f : ℕ) - (b.bias : ℤ)) * (1 + (c % 2 ^ b.f : ℕ) / 2 ^ b.f : ℚ) := by
  have hdiv := Nat.div_add_mod' c (2 ^ b.f)
  have hne : (2 : ℚ) ^ b.f ≠ 0 := by positivity
  split
  next h =>
    have hc : c % 2 ^ b.f = c := by rw [h] at hdiv; omega
    have hs : b.sig c = c := by rw [BinFmt.sig, h]; omega
    have hp : b.place c = 1 - b.bias - b.f := by rw [BinFmt.place, h, BinFmt.emin]; simp
    rw [BinFmt.grid, hs, hp, hc, zpow_sub₀ two_ne_zero _ (b.f : ℤ), zpow_natCast]
    ring
  next h =>
    obtain ⟨k, hk⟩ := Nat.exists_eq_succ_of_ne_zero h
    rw [hk, Nat.succ_mul] at hdiv
    have hs : b.sig c = 2 ^ b.f + c % 2 ^ b.f := by
      rw [BinFmt.sig, hk, Nat.succ_sub_one]
      omega
    have hp : b.place c = ((k + 1 : ℕ) : ℤ) - b.bias - b.f := by
      rw [BinFmt.place, hk, BinFmt.emin, Nat.succ_sub_one]
      push_cast
      ring
    rw [BinFmt.grid, hs, hp, hk, zpow_sub₀ two_ne_zero _ (b.f : ℤ), zpow_natCast]
    push_cast
    field_simp

/-- What a code of a binary format stands for (R161, R162). -/
theorem codes_stand_for : ∀ e ∈ floatFormats, ∀ c < 2 ^ (e.2.1.f + e.2.1.eb + 1),
    let b := e.2.1
    let s : ℚ := if c.testBit (b.f + b.eb) then -1 else 1
    let x : Nat := c / 2 ^ b.f % 2 ^ b.eb
    let f : Nat := c % 2 ^ b.f
    let v := Fmt.dec e.1 c
    (x = 0 → v.val = s * 2 ^ (1 - (b.bias : Int)) * (f / 2 ^ b.f) ∧ v.isNan = false)
    ∧ (0 < x → c % 2 ^ (b.f + b.eb) ≤ e.2.2.2.2 → v.val = s * 2 ^ ((x : Int) - b.bias) * (1 + f / 2 ^ b.f) ∧ v.isNan = false)
    ∧ (e.2.2.2.2 < c % 2 ^ (b.f + b.eb) → v = if b.style = .ieee ∧ f = 0 then .inf (c.testBit (b.f + b.eb))
        else .nan (b.style == .ieee && !c.testBit (b.f - 1))) := by
  intro e he c hc b s x f v
  have L := layout he
  have hlt : c % 2 ^ (b.f + b.eb) < 2 ^ (b.f + b.eb) := Nat.mod_lt _ (Nat.two_pow_pos _)
  have hsplit := code_split hc
  have hbit : (c % 2 ^ (b.f + b.eb)).testBit (b.f - 1) = c.testBit (b.f - 1) := by
    have hfrac : 1 ≤ b.f := L.frac
    rw [Nat.testBit_mod_two_pow, decide_eq_true (by omega : b.f - 1 < b.f + b.eb), Bool.true_and]
  have hv : v = b.dec (2 ^ (b.f + b.eb) * (c.testBit (b.f + b.eb)).toNat + c % 2 ^ (b.f + b.eb)) := by
    rw [← hsplit]
    exact L.dec c hc
  have hx : x = c % 2 ^ (b.f + b.eb) / 2 ^ b.f := by
    rw [← code_exponent (c.testBit (b.f + b.eb)) hlt, ← hsplit]
  have hf : f = c % 2 ^ (b.f + b.eb) % 2 ^ b.f := by
    rw [← code_fraction (c.testBit (b.f + b.eb)) b, ← hsplit]
  generalize c % 2 ^ (b.f + b.eb) = d at *
  have hval (ht : d ≤ e.2.2.2.2) : v.val = s * b.grid d ∧ v.isNan = false := by
    rw [hv, dec_finite L hlt _ ht]
    exact ⟨val_fin .., rfl⟩
  refine ⟨fun h0 => ?_, fun h0 ht => ?_, fun ht => ?_⟩
  · rw [hx] at h0
    have hd : d < 2 ^ b.f := (Nat.div_eq_zero_iff_lt (Nat.two_pow_pos _)).1 h0
    obtain ⟨h1, h2⟩ := hval (hd.trans L.normal).le
    rw [h1, grid_fields, if_pos h0, hf, mul_assoc]
    exact ⟨rfl, h2⟩
  · rw [hx] at h0
    obtain ⟨h1, h2⟩ := hval ht
    rw [h1, grid_fields, if_neg h0.ne', hx, hf, mul_assoc]
    exact ⟨rfl, h2⟩
  · rw [hv, dec_special L hlt _ ht, hf, hbit]

/-- Rounding to a binary format (R168). -/
theorem round_binary : ∀ e ∈ floatFormats, ∀ (rnd : Rnd) (sat neg : Bool) (m : Nat) (k : Int),
    let b := e.2.1
    let sign := 2 ^ (b.f + b.eb) * neg.toNat
    (m ≠ 0 → b.Result e.2.2.2.1 e.2.2.2.2 rnd sat neg (Machine.Num.fin false m k).val (Fmt.round e.1 rnd sat (.fin neg m k)))
    ∧ Fmt.round e.1 rnd sat (.fin neg 0 k) = (sign, 0)
    ∧ Fmt.round e.1 rnd sat (.inf neg) = (sign + e.2.2.2.1, if b.style = .ieee then 0 else fOvf)
    ∧ ∀ g, Fmt.round e.1 rnd sat (.nan g) = (e.2.2.1, if g = true ∨ e.1 = .fp4 then fInv else 0) := by
  intro e he rnd sat neg m k b sign
  have L := layout he
  refine ⟨fun hm => ?_, ?_, ?_, fun g => ?_⟩
  · rw [L.round, val_fin, if_neg Bool.false_ne_true, one_mul]
    exact round_result L rnd sat neg hm k (Alike.refl _ _)
  · rw [L.round]
    rfl
  · rw [L.round, ← L.infCode]
    by_cases h : b.style = .ieee
    · simp [BinFmt.round, BinFmt.signBit, fIf, h, sign, b]
    · simp [BinFmt.round, BinFmt.signBit, fIf, h, sign, b]
  · rw [L.round, ← L.nanCode]
    simp only [← L.style]
    simp [BinFmt.round, fIf]

end Sys2Proof
end

section
/-! Rounding to the integer formats, and the integer elements of MDRAIN (R169, R189). -/

namespace Sys2Proof

open Machine

/-- A whole number is a nearest one to a value, and even where another is as near. -/
def NearestInt (x : ℚ) (v : ℤ) : Prop := ∀ w : ℤ, |(v : ℚ) - x| < |(w : ℚ) - x| ∨ (|(v : ℚ) - x| = |(w : ℚ) - x| ∧ (v % 2 = 0 ∨ w = v))

/-- A whole number is what a value of a sign rounds to (R74). -/
def IntRounds (rnd : Rnd) (neg : Bool) (x : ℚ) (v : ℤ) : Prop :=
  match away rnd neg with
  | none => NearestInt x v
  | some up => v = if up = neg then ⌊x⌋ else ⌈x⌉

theorem NearestInt.neg {x : ℚ} {v : ℤ} (h : NearestInt x v) : NearestInt (-x) (-v) := fun w => by
  have hflip (u : ℤ) : |((-u : ℤ) : ℚ) - -x| = |(u : ℚ) - x| := by
    rw [Int.cast_neg, neg_sub_neg, abs_sub_comm]
  have hw := h (-w)
  rw [← hflip (-w), neg_neg, ← hflip v] at hw
  exact hw.imp_right fun k => ⟨k.1, k.2.imp (fun e => by omega) fun e => by omega⟩

/-- The nearest whole number to a magnitude is as near as any whole number, negative ones too. -/
theorem picks_nearestInt {z : ℚ} {n : ℕ} (hle : (n : ℚ) ≤ z) (hlt : z < (n + 1 : ℕ)) : NearestInt z (picks none n z (n + 1 : ℕ) n : ℕ) := fun w => by
  have hnat (d : ℕ) := picks_nearest (M := fun k => (k : ℚ)) (d := d) hle hlt (fun h => by exact_mod_cast h) (fun h => by exact_mod_cast h) rfl
  generalize picks none n z (n + 1 : ℕ) n = c at *
  cases w with
  | ofNat d =>
    refine (hnat d).imp id fun h => ⟨h.1, h.2.imp (fun e => by omega) fun e => ?_⟩
    rw [e]
    rfl
  | negSucc d =>
    left
    have h0 : |(c : ℚ) - z| ≤ |((0 : ℕ) : ℚ) - z| := (hnat 0).elim le_of_lt fun h => h.1.le
    have hz : 0 ≤ z := (Nat.cast_nonneg n).trans hle
    have hd : (0 : ℚ) < (d + 1 : ℕ) := by positivity
    refine h0.trans_lt ?_
    rw [Nat.cast_zero, zero_sub, abs_neg, abs_of_nonneg hz, Int.cast_negSucc, abs_of_neg (by linarith)]
    linarith

/-- The rounding of a signed value to a whole number, with its sign, and whether it is exact. -/
theorem roundAt_int (rnd : Rnd) (neg : Bool) (m : ℕ) (e : ℤ) :
    let r := roundAt rnd neg m e 0
    let v : ℤ := if neg then -(r.1 : ℤ) else r.1
    let x := (Num.fin neg m e).val
    IntRounds rnd neg x v ∧ (r.2 = true ↔ (v : ℚ) ≠ x) := by
  intro r v x
  obtain ⟨n, hle, hlt, hpick, hinx⟩ := roundAt_spec rnd neg m e 0
  simp only [zpow_zero, mul_one] at hle hlt hpick hinx
  have hx : x = (if neg then -1 else 1) * ((m : ℚ) * 2 ^ e) := val_fin ..
  clear_value x
  generalize (m : ℚ) * 2 ^ e = z at *
  have hexact : r.2 = true ↔ (r.1 : ℚ) ≠ z := by
    rw [hinx, hpick, not_iff_not]
    constructor
    · intro h
      rw [← h, picks_exact (h ▸ hlt)]
    · intro h
      rcases picks_eq_or (away rnd neg) n z (n + 1 : ℕ) n with h' | h'
      · rwa [h'] at h
      · rw [h'] at h
        exact absurd h hlt.ne'
  have hfloor : ⌊z⌋ = (n : ℤ) := Int.floor_eq_iff.2 ⟨by exact_mod_cast hle, by exact_mod_cast hlt⟩
  have hceil : ((picks (some true) n z (n + 1 : ℕ) n : ℕ) : ℤ) = ⌈z⌉ := by
    rw [picks]
    split
    next h => rw [h, Int.ceil_natCast]
    next h =>
      refine (Int.ceil_eq_iff.2 ⟨?_, by exact_mod_cast hlt.le⟩).symm
      push_cast
      rw [add_sub_cancel_right]
      exact lt_of_le_of_ne hle (Ne.symm h)
  cases neg with
  | false =>
    have hv : v = (r.1 : ℤ) := rfl
    rw [if_neg Bool.false_ne_true, one_mul] at hx
    rw [hexact, hv, hx, Int.cast_natCast]
    refine ⟨?_, Iff.rfl⟩
    unfold IntRounds
    rw [hpick]
    match away rnd false with
    | none => exact picks_nearestInt hle hlt
    | some false => exact hfloor.symm
    | some true => exact hceil
  | true =>
    have hv : v = -(r.1 : ℤ) := rfl
    rw [if_pos rfl, neg_one_mul] at hx
    rw [hexact, hv, hx]
    refine ⟨?_, by push_cast; exact (neg_inj.not).symm⟩
    unfold IntRounds
    rw [hpick, Int.floor_neg, Int.ceil_neg]
    match away rnd true with
    | none => exact (picks_nearestInt hle hlt).neg
    | some false => exact congrArg Neg.neg hfloor.symm
    | some true => exact congrArg Neg.neg hceil

/-- The least value of an integer format of n bits. -/
def intLo (signed : Bool) (n : ℕ) : ℤ := if signed then -(2 ^ (n - 1) : ℕ) else 0

/-- The greatest value of an integer format of n bits. -/
def intHi (signed : Bool) (n : ℕ) : ℤ := if signed then (2 ^ (n - 1) : ℕ) - 1 else (2 ^ n : ℕ) - 1

/-- A value rounded to a whole number, and clamped to the format (R169). -/
theorem roundInt_spec (signed : Bool) (n : ℕ) (rnd : Rnd) (neg : Bool) (m : ℕ) (k : ℤ) :
    let x := (Num.fin neg m k).val
    let code (v : ℤ) : ℕ := (v % (2 ^ n : ℕ)).toNat
    (∃ v : ℤ, IntRounds rnd neg x v ∧ roundInt signed n rnd (.fin neg m k) = if v < intLo signed n then (code (intLo signed n), fInv ||| fInx)
      else if intHi signed n < v then (code (intHi signed n), fInv ||| fInx) else (code v, if (v : ℚ) = x then 0 else fInx))
    ∧ roundInt signed n rnd (.inf neg) = (code (if neg then intLo signed n else intHi signed n), fInv)
    ∧ ∀ g, roundInt signed n rnd (.nan g) = (0, fInv) := by
  intro x code
  obtain ⟨hv, hinx⟩ := roundAt_int rnd neg m k
  refine ⟨⟨_, hv, ?_⟩, rfl, fun _ => rfl⟩
  have hflag : fIf (roundAt rnd neg m k 0).2 fInx = if ((if neg then -((roundAt rnd neg m k 0).1 : ℤ) else (roundAt rnd neg m k 0).1 : ℤ) : ℚ) = x
      then 0 else fInx := by
    rw [fIf]
    split
    next h => rw [if_neg (hinx.1 h)]
    next h => rw [if_pos (not_not.1 (hinx.not.1 h))]
  rw [← hflag]
  rfl

/-- Rounding to the integer formats (R169). -/
theorem round_integer : ∀ e ∈ [(Fmt.i8, -(128 : Int), (127 : Int), 8), (.u8, 0, 255, 8), (.i16, -32768, 32767, 16), (.i32, -2147483648, 2147483647, 32)],
    ∀ (rnd : Rnd) (sat neg : Bool) (m : Nat) (k : Int),
    let x := (Machine.Num.fin neg m k).val
    let code (v : Int) : Nat := (v % 2 ^ e.2.2.2).toNat
    (∃ v : Int, (match away rnd neg with
        | none => ∀ w : Int, |(v : ℚ) - x| < |(w : ℚ) - x| ∨ (|(v : ℚ) - x| = |(w : ℚ) - x| ∧ (v % 2 = 0 ∨ w = v))
        | some up => v = if up = neg then ⌊x⌋ else ⌈x⌉)
      ∧ Fmt.round e.1 rnd sat (.fin neg m k) = if v < e.2.1 then (code e.2.1, fInv ||| fInx) else if e.2.2.1 < v then (code e.2.2.1, fInv ||| fInx)
          else (code v, if (v : ℚ) = x then 0 else fInx))
    ∧ Fmt.round e.1 rnd sat (.inf neg) = (code (if neg then e.2.1 else e.2.2.1), fInv)
    ∧ ∀ g, Fmt.round e.1 rnd sat (.nan g) = (0, fInv) := by
  intro e he rnd sat neg m k
  simp only [List.mem_cons, List.not_mem_nil, or_false] at he
  rcases he with rfl | rfl | rfl | rfl
  · exact roundInt_spec true 8 rnd neg m k
  · exact roundInt_spec false 8 rnd neg m k
  · exact roundInt_spec true 16 rnd neg m k
  · exact roundInt_spec true 32 rnd neg m k

/-! MDRAIN. -/

/-- The value of a whole number of steps of a place, as the model holds it. -/
theorem val_signed (t adj : ℤ) : (Num.fin (decide (t < 0)) t.natAbs adj).val = (t : ℚ) * 2 ^ adj := by
  have habs : ((t.natAbs : ℕ) : ℚ) = |(t : ℚ)| := by rw [Nat.cast_natAbs, Int.cast_abs]
  rw [val_fin, habs, ← mul_assoc]
  congr 1
  by_cases h : t < 0
  · rw [if_pos (decide_eq_true h), abs_of_neg (by exact_mod_cast h)]
    ring
  · rw [if_neg (by simpa using h), abs_of_nonneg (by exact_mod_cast not_lt.1 h), one_mul]

/-- An integer accumulator under its exponent adjustment, rounded to a whole number; and whether that is inexact. -/
def wholeOf (rnd : Rnd) (adj t : ℤ) : ℤ × Bool :=
  let r := roundAt rnd (decide (t < 0)) t.natAbs adj 0
  (if t < 0 then -(r.1 : ℤ) else r.1, r.2)

theorem wholeOf_spec (rnd : Rnd) (adj t : ℤ) :
    let x : ℚ := t * 2 ^ adj
    IntRounds rnd (decide (x < 0)) x (wholeOf rnd adj t).1 ∧ ((wholeOf rnd adj t).2 = true ↔ ((wholeOf rnd adj t).1 : ℚ) ≠ x) := by
  intro x
  have hsign : decide (x < 0) = decide (t < 0) := by
    have h := mul_lt_mul_iff_left₀ (b := (t : ℚ)) (c := 0) (zpow_two_pos adj)
    rw [zero_mul] at h
    rw [decide_eq_decide, h, Int.cast_lt_zero]
  have h := roundAt_int rnd (decide (t < 0)) t.natAbs adj
  rw [val_signed] at h
  simp only [decide_eq_true_eq] at h
  rw [hsign]
  exact h

/-- The clamp of a drained element, and its flags (R189). -/
theorem drain_clamp (sat : Bool) {y : ℤ × Bool} {x : ℚ} {h n : ℤ} (hy : y.2 = true ↔ (y.1 : ℚ) ≠ x) (hp : 0 < h) (hn : h - 1 < n) :
    (let off := decide (y.1 < -h) || decide (y.1 > h - 1)
      let z := if sat && off then (if y.1 < 0 then -h else h - 1) else y.1
      ((z % n).toNat, fIf (y.2 || off) fInx ||| fIf (sat && off) fSat))
    = if sat = true ∧ y.1 < -h then ((-h % n).toNat, fInx ||| fSat) else if sat = true ∧ h - 1 < y.1 then ((h - 1).toNat, fInx ||| fSat)
      else ((y.1 % n).toNat, if (y.1 : ℚ) = x ∧ -h ≤ y.1 ∧ y.1 ≤ h - 1 then 0 else fInx) := by
  have hmod : (h - 1) % n = h - 1 := Int.emod_eq_of_lt (by omega) hn
  obtain ⟨v, inx⟩ := y
  have hexact : (v : ℚ) = x ↔ inx = false := by rw [← Bool.not_eq_true, hy, not_not]
  rcases lt_or_ge v (-h) with h1 | h1
  · have h2 : v < 0 := by omega
    cases sat <;> simp [h1, h2, not_le.2 h1, fIf]
  · rcases lt_or_ge (h - 1) v with h2 | h2
    · have h3 : ¬ v < 0 := by omega
      cases sat <;> simp [not_lt.2 h1, h2, h3, not_le.2 h2, fIf, hmod]
    · cases sat <;> cases inx <;> simp [hexact, not_lt.2 h1, h1, h2, not_lt.2 h2, fIf]

theorem scale_val (x : Machine.Num) (k : ℤ) : (x.scale k).val = x.val * 2 ^ k := by
  cases x with
  | nan g => exact (zero_mul _).symm
  | inf n => exact (zero_mul _).symm
  | fin n m e =>
    show (Num.fin n m (e + k)).val = _
    rw [val_fin, val_fin, zpow_add₀ two_ne_zero, ← mul_assoc, ← mul_assoc, ← mul_assoc]

/-- An element of MDRAIN: a value rounded to a format, or a whole number clamped with SAT or taken modulo the width (R189). -/
theorem drain_element : ∀ (f : Fmt) (rnd : Rnd) (sat : Bool) (adj : Int) (a : Lane),
    let x : ℚ := (a.toInt : ℚ) * 2 ^ adj
    let w := f.width
    let h : Int := (2 ^ (w - 1) : Nat)
    (f ≠ .i8 → f ≠ .i32 → drainElem f rnd sat adj a = Fmt.round f rnd sat ((f32 a).scale adj)
      ∧ ((laneFin a = true → ((f32 a).scale adj).val = laneVal a * 2 ^ adj)))
    ∧ (f = .i8 ∨ f = .i32 → ∃ y : Int, (match away rnd (decide (x < 0)) with
        | none => ∀ v : Int, |(y : ℚ) - x| < |(v : ℚ) - x| ∨ (|(y : ℚ) - x| = |(v : ℚ) - x| ∧ (y % 2 = 0 ∨ v = y))
        | some up => y = if up = decide (x < 0) then ⌊x⌋ else ⌈x⌉)
      ∧ drainElem f rnd sat adj a =
        if sat = true ∧ y < -h then ((-h % 2 ^ w).toNat, fInx ||| fSat) else if sat = true ∧ h - 1 < y then ((h - 1).toNat, fInx ||| fSat)
        else ((y % 2 ^ w).toNat, if (y : ℚ) = x ∧ -h ≤ y ∧ y ≤ h - 1 then 0 else fInx)) := by
  intro f rnd sat adj a x w h
  refine ⟨fun h1 h2 => ⟨if_neg (not_or.2 ⟨h1, h2⟩), fun _ => scale_val ..⟩, fun hf => ?_⟩
  obtain ⟨hy, hinx⟩ := wholeOf_spec rnd adj a.toInt
  have hw : h - 1 < 2 ^ w := by
    have : 2 ^ (w - 1) ≤ 2 ^ w := Nat.pow_le_pow_right two_pos (Nat.sub_le ..)
    have : ((2 ^ (w - 1) : ℕ) : ℤ) ≤ 2 ^ w := by exact_mod_cast this
    omega
  refine ⟨(wholeOf rnd adj a.toInt).1, hy, (if_pos hf).trans (Eq.trans ?_ (drain_clamp sat hinx (by positivity : 0 < h) hw))⟩
  rw [Nat.cast_pow]
  rfl

end Sys2Proof
end

section
/-! The tapered formats: their values, and rounding to them (R164, R168). -/

namespace Sys2Proof

open Machine

/-- The value of a nonzero tapered magnitude code of w bits. -/
def tap (w c : ℕ) : ℚ := ((tapMag c w).1 : ℚ) * 2 ^ (tapMag c w).2

theorem tap_pos (w c : ℕ) : 0 < tap w c :=
  mul_pos (Nat.cast_pos.2 (Nat.add_pos_left (Nat.two_pow_pos _) _)) (zpow_two_pos _)

/-- The values of the tapered magnitudes of w bits ascend with their codes. -/
def TapAscends (w : ℕ) : Prop := ∀ c d, 1 ≤ c → c < d → d < 2 ^ w → tap w c < tap w d

/-- The comparison of the model is that of the values. -/
theorem magCmp_eq (m : ℕ) (e : ℤ) (m' : ℕ) (e' : ℤ) : magCmp m e m' e' = compare ((m : ℚ) * 2 ^ e) (m' * 2 ^ e') := by
  have hval (n : ℕ) {k : ℤ} (hk : min e e' ≤ k) : (n : ℚ) * 2 ^ k = ((n * 2 ^ (k - min e e').toNat : ℕ) : ℚ) * 2 ^ min e e' := by
    rw [two_zpow_sub hk, Nat.cast_mul, mul_assoc]
  have hw := zpow_two_pos (min e e')
  rw [hval m (min_le_left ..), hval m' (min_le_right ..)]
  unfold magCmp
  dsimp only
  generalize m * 2 ^ (e - min e e').toNat = a
  generalize m' * 2 ^ (e' - min e e').toNat = b
  rcases lt_trichotomy a b with h | h | h
  · rw [compare_lt_iff_lt.2 h, compare_lt_iff_lt.2 (mul_lt_mul_of_pos_right (Nat.cast_lt.2 h) hw)]
  · rw [compare_eq_iff_eq.2 h, compare_eq_iff_eq.2 (by rw [h])]
  · rw [compare_gt_iff_gt.2 h, compare_gt_iff_gt.2 (mul_lt_mul_of_pos_right (Nat.cast_lt.2 h) hw)]

theorem tapAscends_of_step {w : ℕ} (h : ∀ c < 2 ^ w - 1, 1 ≤ c → magCmp (tapMag c w).1 (tapMag c w).2 (tapMag (c + 1) w).1 (tapMag (c + 1) w).2 = .lt) :
    TapAscends w := by
  have hstep (c : ℕ) (hc : 1 ≤ c) (ht : c < 2 ^ w - 1) : tap w c < tap w (c + 1) := by
    have := h c ht hc
    rwa [magCmp_eq, compare_lt_iff_lt] at this
  intro c d hc hcd hd
  induction d, hcd using Nat.le_induction with
  | base => exact hstep c hc (by omega)
  | succ d hcd ih => exact (ih (by omega)).trans (hstep d (by omega) (by omega))

theorem tapAscends_five : TapAscends 5 := tapAscends_of_step (by decide +kernel)

theorem tapAscends_seven : TapAscends 7 := tapAscends_of_step (by decide +kernel)

theorem le_tapFind (w m : ℕ) (e : ℤ) (n c : ℕ) : c ≤ tapFind w m e n c := by
  induction n generalizing c with
  | zero => exact le_rfl
  | succ n ih =>
    rw [tapFind]
    split
    · exact (Nat.le_succ c).trans (ih _)
    · exact le_rfl

/-- The search finds the least code whose value is at least a magnitude. -/
theorem tapFind_spec {w m : ℕ} {e : ℤ} {n c d : ℕ} (hcd : c ≤ d) (hd : d ≤ c + n) (hx : (m : ℚ) * 2 ^ e ≤ tap w d) :
    tapFind w m e n c ≤ d ∧ (m : ℚ) * 2 ^ e ≤ tap w (tapFind w m e n c) ∧ (c < tapFind w m e n c → tap w (tapFind w m e n c - 1) < m * 2 ^ e) := by
  induction n generalizing c with
  | zero =>
    obtain rfl : c = d := by omega
    exact ⟨le_rfl, hx, fun h => absurd h (lt_irrefl _)⟩
  | succ n ih =>
    rw [tapFind]
    split
    next h =>
      rw [magCmp_eq, compare_lt_iff_lt] at h
      have hne : c ≠ d := fun he => absurd (he ▸ h) (not_lt.2 hx)
      obtain ⟨h2, h3, h4⟩ := ih (c := c + 1) (by omega) (by omega)
      refine ⟨h2, h3, fun _ => ?_⟩
      rcases (le_tapFind w m e n (c + 1)).eq_or_lt with he | hlt
      · rw [← he, Nat.add_sub_cancel]
        exact h
      · exact h4 hlt
    next h =>
      rw [magCmp_eq, compare_lt_iff_lt, not_lt] at h
      exact ⟨hcd, h, fun h => absurd h (lt_irrefl _)⟩

/-- The choice of the model between a code and the one below it is that of the nearest. -/
theorem tie_picks (y a b : ℚ) {c : ℕ} (hc : 1 ≤ c) :
    (match compare (y + y) (a + b) with | .lt => c - 1 | .gt => c | .eq => if c % 2 = 0 then c else c - 1) = picks none a y b (c - 1) := by
  rw [picks, Nat.sub_add_cancel hc]
  rcases lt_trichotomy (y + y) (a + b) with h | h | h
  · rw [compare_lt_iff_lt.2 h]
    exact (if_pos (.inl h)).symm
  · rw [compare_eq_iff_eq.2 h]
    show (if c % 2 = 0 then c else c - 1) = _
    split
    next hp => exact (if_neg (fun k => k.elim (fun k => k.ne h) fun k => by omega)).symm
    next hp => exact (if_pos (.inr ⟨h, by omega⟩)).symm
  · rw [compare_gt_iff_gt.2 h]
    exact (if_neg (fun k => k.elim (fun k => lt_asymm k h) fun k => h.ne' k.1)).symm

/-- The sum of two values as the model forms it. -/
theorem tap_sum (w c d : ℕ) :
    let k := min (tapMag c w).2 (tapMag d w).2
    (((tapMag c w).1 * 2 ^ ((tapMag c w).2 - k).toNat + (tapMag d w).1 * 2 ^ ((tapMag d w).2 - k).toNat : ℕ) : ℚ) * 2 ^ k = tap w c + tap w d := by
  intro k
  rw [tap, tap, two_zpow_sub (min_le_left _ _ : k ≤ (tapMag c w).2), two_zpow_sub (min_le_right _ _ : k ≤ (tapMag d w).2)]
  push_cast
  ring

/-- The rounding to a tapered magnitude, over the rational numbers. -/
theorem tapRound_eq (w m : ℕ) (e : ℤ) :
    let top := 2 ^ w - 1
    let x : ℚ := m * 2 ^ e
    let c := tapFind w m e (2 ^ w) 1
    tapRound w m e = if tap w top < x then (top, fOvf ||| fInx) else if x < tap w 1 then (1, fUnf ||| fInx)
      else if tap w c = x then (c, 0) else (picks none (tap w (c - 1)) x (tap w c) (c - 1), fInx) := by
  intro top x c
  have hdouble : (m : ℚ) * 2 ^ (e + 1) = x + x := by
    rw [zpow_add_one₀ two_ne_zero]
    ring
  rw [← tie_picks x (tap w (c - 1)) (tap w c) (le_tapFind ..)]
  unfold tapRound
  simp only [magCmp_eq, tap_sum, hdouble, compare_lt_iff_lt, compare_eq_iff_eq]
  rfl

/-- Rounding to a tapered magnitude: the nearest, of two the even one, and never beyond the least and the greatest (R168). -/
theorem tapRound_spec {w : ℕ} (hw : TapAscends w) (h1 : 1 < 2 ^ w) (m : ℕ) (e : ℤ) :
    let top := 2 ^ w - 1
    let x : ℚ := m * 2 ^ e
    (tap w top < x → tapRound w m e = (top, fOvf ||| fInx)) ∧ (x < tap w 1 → tapRound w m e = (1, fUnf ||| fInx))
      ∧ (tap w 1 ≤ x → x ≤ tap w top → ∃ c, 1 ≤ c ∧ c ≤ top ∧ NearestEven (tap w) 1 top x c
        ∧ tapRound w m e = (c, if tap w c = x then 0 else fInx)) := by
  intro top x
  have hone : tap w 1 ≤ tap w top := by
    rcases (by omega : 1 = top ∨ 1 < top) with h | h
    · rw [← h]
    · exact (hw 1 top le_rfl h (by omega)).le
  refine ⟨fun h => ?_, fun h => ?_, fun hlo hhi => ?_⟩
  · rw [tapRound_eq, if_pos h]
  · rw [tapRound_eq, if_neg (not_lt.2 (h.le.trans hone)), if_pos h]
  · obtain ⟨hct, hle, hlt⟩ := tapFind_spec (w := w) (m := m) (e := e) (n := 2 ^ w) (c := 1) (d := top) (by omega) (by omega) hhi
    have hc := le_tapFind w m e (2 ^ w) 1
    have heq := tapRound_eq w m e
    dsimp only at heq
    rw [if_neg (not_lt.2 hhi), if_neg (not_lt.2 hlo)] at heq
    generalize tapFind w m e (2 ^ w) 1 = c at *
    by_cases hx : tap w c = x
    · refine ⟨c, hc, hct, fun d hd hdt => ?_, by rw [heq, if_pos hx, if_pos hx]⟩
      rw [hx, sub_self, abs_zero]
      rcases eq_or_ne d c with rfl | hne
      · exact .inr ⟨by rw [hx, sub_self, abs_zero], .inr rfl⟩
      · refine .inl (abs_pos.2 (sub_ne_zero.2 ?_))
        rw [← hx]
        rcases hne.lt_or_gt with h | h
        · exact (hw d c hd h (by omega)).ne
        · exact (hw c d hc h (by omega)).ne'
    · have hc1 : 1 < c := by
        rcases hc.eq_or_lt with rfl | h
        · exact absurd (le_antisymm hlo hle) hx
        · exact h
      obtain ⟨lo, rfl⟩ : ∃ lo, c = lo + 1 := ⟨c - 1, by omega⟩
      rw [Nat.add_sub_cancel] at hlt heq
      have hxlt : x < tap w (lo + 1) := lt_of_le_of_ne hle (Ne.symm hx)
      have hor := picks_eq_or none (tap w lo) x (tap w (lo + 1)) lo
      refine ⟨picks none (tap w lo) x (tap w (lo + 1)) lo, by omega, by omega, fun d hd hdt => ?_, ?_⟩
      · exact picks_nearest (hlt hc1).le hxlt (fun h => hw d lo hd h (by omega)) (fun h => hw (lo + 1) d (by omega) h (by omega)) rfl
      · rw [heq, if_neg hx, if_neg]
        rcases hor with h | h <;> rw [h]
        exacts [(hlt hc1).ne, hx]

theorem decTap_val {w c : ℕ} (h1 : 1 ≤ c) (h2 : c < 2 ^ w) : (decTap c (w + 1)).val = tap w c := by
  have hn : (c / 2 ^ w % 2 == 1) = false := by rw [Nat.div_eq_of_lt h2]; rfl
  have hm : c % 2 ^ w = c := Nat.mod_eq_of_lt h2
  unfold decTap
  rw [Nat.add_sub_cancel, hn, hm, if_neg (by omega), val_fin]
  exact one_mul _

/-- The tapered formats: what their codes stand for (R164). -/
theorem tapered_codes : (List.range 32).map (fun c => (Fmt.dec .tap6 c).val) =
      [0, 1 / 256, 1 / 64, 1 / 32, 1 / 16, 3 / 32, 1 / 8, 3 / 16, 1 / 4, 5 / 16, 3 / 8, 7 / 16, 1 / 2, 5 / 8, 3 / 4, 7 / 8,
       1, 5 / 4, 3 / 2, 7 / 4, 2, 5 / 2, 3, 7 / 2, 4, 6, 8, 12, 16, 32, 64, 256]
    ∧ [1, 2, 3, 4, 7, 8, 15, 16, 31, 32, 63, 64, 95, 96, 111, 112, 119, 120, 123, 124, 125, 126, 127].map (fun c => (Fmt.dec .tap8 c).val) =
      [1 / 4096, 1 / 1024, 1 / 512, 1 / 256, 3 / 256, 1 / 64, 7 / 128, 1 / 16, 15 / 64, 1 / 4, 31 / 32, 1, 31 / 8, 4, 15, 16, 56, 64, 192, 256, 512,
       1024, 4096] := by
  constructor
  · decide +kernel
  · decide +kernel

/-- The rounding to a tapered format of w + 1 bits (R168). -/
theorem roundTap_spec {w : ℕ} (hw : TapAscends w) (h1 : 1 < 2 ^ w) {mag : ℕ → ℚ} (hmag : ∀ c, 1 ≤ c → c < 2 ^ w → mag c = tap w c)
    (neg : Bool) (m : ℕ) (k : ℤ) :
    let top := 2 ^ w - 1
    let sign := 2 ^ w * neg.toNat
    let x := (Machine.Num.fin false m k).val
    let r := roundTap (w + 1) (.fin neg m k)
    (mag top < x → r = (sign + top, fOvf ||| fInx)) ∧ (m ≠ 0 → x < mag 1 → r = (sign + 1, fUnf ||| fInx)) ∧ (m = 0 → r = (0, 0))
    ∧ (mag 1 ≤ x → x ≤ mag top → ∃ c, 1 ≤ c ∧ c ≤ top ∧ NearestEven mag 1 top x c ∧ r = (sign + c, if mag c = x then 0 else fInx)) := by
  intro top sign x r
  have hx : x = m * 2 ^ k := (val_fin ..).trans (one_mul _)
  rw [hmag 1 le_rfl h1, hmag top (by omega) (by omega), hx]
  obtain ⟨hover, hunder, hin⟩ := tapRound_spec hw h1 m k
  have hr (hm : m ≠ 0) : r = (sign + (tapRound w m k).1, (tapRound w m k).2) := if_neg hm
  have hne {t : ℚ} (ht : 0 < t) (h : t ≤ m * 2 ^ k) : m ≠ 0 := by
    rintro rfl
    rw [Nat.cast_zero, zero_mul] at h
    linarith
  refine ⟨fun h => ?_, fun hm h => ?_, fun hm => if_pos hm, fun hlo hhi => ?_⟩
  · rw [hr (hne (tap_pos w top) h.le), hover h]
  · rw [hr hm, hunder h]
  · obtain ⟨c, hc1, hct, hnear, heq⟩ := hin hlo hhi
    refine ⟨c, hc1, hct, fun d hd hdt => ?_, ?_⟩
    · rw [hmag c hc1 (by omega), hmag d hd (by omega)]
      exact hnear d hd hdt
    · rw [hr (hne (tap_pos w 1) hlo), heq, hmag c hc1 (by omega)]

/-- Rounding to the tapered formats (R168). -/
theorem round_tapered : ∀ e ∈ [(Fmt.tap6, 6), (.tap8, 8)], ∀ (rnd : Rnd) (sat neg : Bool) (m : Nat) (k : Int),
    let mag (c : Nat) : ℚ := (Fmt.dec e.1 c).val
    let top := 2 ^ (e.2 - 1) - 1
    let sign := 2 ^ (e.2 - 1) * neg.toNat
    let x := (Machine.Num.fin false m k).val
    let r := Fmt.round e.1 rnd sat (.fin neg m k)
    (mag top < x → r = (sign + top, fOvf ||| fInx)) ∧ (m ≠ 0 → x < mag 1 → r = (sign + 1, fUnf ||| fInx)) ∧ (m = 0 → r = (0, 0))
    ∧ (mag 1 ≤ x → x ≤ mag top → ∃ c, 1 ≤ c ∧ c ≤ top ∧ NearestEven mag 1 top x c ∧ r = (sign + c, if mag c = x then 0 else fInx))
    ∧ Fmt.round e.1 rnd sat (.inf neg) = (sign + top, fOvf) ∧ ∀ g, Fmt.round e.1 rnd sat (.nan g) = (2 ^ (e.2 - 1), fInv) := by
  intro e he rnd sat neg m k
  have h6 (c : ℕ) (h1 : 1 ≤ c) (h2 : c < 2 ^ 5) : (Fmt.dec .tap6 c).val = tap 5 c := by
    rw [← decTap_val h1 h2, ← Nat.mod_eq_of_lt (h2.trans (by decide) : c < 64)]
    simp [Fmt.dec]
  have h8 (c : ℕ) (h1 : 1 ≤ c) (h2 : c < 2 ^ 7) : (Fmt.dec .tap8 c).val = tap 7 c := by
    rw [← decTap_val h1 h2, ← Nat.mod_eq_of_lt (h2.trans (by decide) : c < 256)]
    simp [Fmt.dec]
  simp only [List.mem_cons, List.not_mem_nil, or_false] at he
  rcases he with rfl | rfl
  · obtain ⟨h1, h2, h3, h4⟩ := roundTap_spec tapAscends_five (by decide) h6 neg m k
    exact ⟨h1, h2, h3, h4, rfl, fun _ => rfl⟩
  · obtain ⟨h1, h2, h3, h4⟩ := roundTap_spec tapAscends_seven (by decide) h8 neg m k
    exact ⟨h1, h2, h3, h4, rfl, fun _ => rfl⟩

end Sys2Proof
end

section
/-! Exact sums and products of values, and their rounding (R168, R421). -/

namespace Sys2Proof

open Machine

/-! Signs and magnitudes. -/

theorem val_eq_zero_iff (n : Bool) (m : ℕ) (e : ℤ) : (Machine.Num.fin n m e).val = 0 ↔ m = 0 := by
  have hw := (zpow_two_pos e).ne'
  rw [val_fin, mul_eq_zero, mul_eq_zero, or_iff_left hw, Nat.cast_eq_zero, or_iff_right]
  cases n <;> simp

/-- A value that is not zero has its sign, and its magnitude is m × 2^e. -/
theorem sign_val {n : Bool} {m : ℕ} {e : ℤ} (hm : m ≠ 0) :
    decide ((Machine.Num.fin n m e).val < 0) = n ∧ |(Machine.Num.fin n m e).val| = m * 2 ^ e := by
  have hpos : (0 : ℚ) < m * 2 ^ e := mul_pos (by exact_mod_cast Nat.pos_of_ne_zero hm) (zpow_two_pos e)
  rw [val_fin]
  cases n
  · rw [if_neg Bool.false_ne_true, one_mul, abs_of_pos hpos]
    exact ⟨decide_eq_false hpos.not_gt, rfl⟩
  · rw [if_pos rfl, neg_one_mul, abs_neg, abs_of_pos hpos]
    exact ⟨decide_eq_true (neg_lt_zero.2 hpos), rfl⟩

theorem val_mul (n n' : Bool) (m m' : ℕ) (e e' : ℤ) :
    (Machine.Num.fin (xor n n') (m * m') (e + e')).val = (Machine.Num.fin n m e).val * (Machine.Num.fin n' m' e').val := by
  simp only [val_fin, zpow_add₀ (two_ne_zero (α := ℚ)), Nat.cast_mul]
  cases n <;> cases n' <;> simp <;> ring

/-- A finite value as a signed count of steps of a place. -/
def steps (k : ℤ) (n : Bool) (m : ℕ) (e : ℤ) : ℤ := (if n then -1 else 1) * ((m * 2 ^ (e - k).toNat : ℕ) : ℤ)

theorem steps_val {k e : ℤ} (hk : k ≤ e) (n : Bool) (m : ℕ) : (steps k n m e : ℚ) * 2 ^ k = (Machine.Num.fin n m e).val := by
  rw [val_fin, two_zpow_sub hk, steps]
  cases n <;> push_cast <;> simp <;> ring

theorem finAdd_eq (rnd : Rnd) (n : Bool) (m : ℕ) (e : ℤ) (n' : Bool) (m' : ℕ) (e' : ℤ) : finAdd rnd n m e n' m' e' =
    let k := min e e'
    let v := steps k n m e + steps k n' m' e'
    if v = 0 then if n = n' ∧ m = 0 ∧ m' = 0 then .fin n 0 0 else .fin (rnd == .rdn) 0 0
    else .fin (decide (v < 0)) v.natAbs k := by
  have hsg (n : Bool) (x : ℕ) : (if n then -(x : ℤ) else x) = (if n then -1 else 1) * (x : ℤ) := by cases n <;> simp
  unfold finAdd steps
  simp only [hsg]

/-- The exact sum of two finite values: its value, and the sign of a zero (R421). -/
theorem finAdd_spec (rnd : Rnd) (n : Bool) (m : ℕ) (e : ℤ) (n' : Bool) (m' : ℕ) (e' : ℤ) :
    let v := (Machine.Num.fin n m e).val + (Machine.Num.fin n' m' e').val
    (v = 0 → finAdd rnd n m e n' m' e' = .fin (if n = n' then n else rnd == .rdn) 0 0)
      ∧ (v ≠ 0 → ∃ s k d, finAdd rnd n m e n' m' e' = .fin s k d ∧ (Machine.Num.fin s k d).val = v) := by
  intro v
  have hv : ((steps (min e e') n m e + steps (min e e') n' m' e' : ℤ) : ℚ) * 2 ^ min e e' = v := by
    rw [Int.cast_add, add_mul, steps_val (min_le_left ..), steps_val (min_le_right ..)]
  have hzero : v = 0 ↔ steps (min e e') n m e + steps (min e e') n' m' e' = 0 := by
    rw [← hv, mul_eq_zero, or_iff_left (zpow_two_pos _).ne', Int.cast_eq_zero]
  rw [finAdd_eq]
  dsimp only
  refine ⟨fun h => ?_, fun h => ?_⟩
  · rw [if_pos (hzero.1 h)]
    by_cases hn : n = n'
    · subst hn
      have hm : m = 0 ∧ m' = 0 := by
        have hp (m : ℕ) (e : ℤ) : (0 : ℚ) ≤ m * 2 ^ e := mul_nonneg (Nat.cast_nonneg m) (zpow_two_pos e).le
        have hs : (if n then (-1 : ℚ) else 1) ≠ 0 := by cases n <;> simp
        have hsum : (m : ℚ) * 2 ^ e + m' * 2 ^ e' = 0 := by
          simpa only [v, val_fin, ← mul_add, mul_eq_zero, hs, false_or] using h
        obtain ⟨h1, h2⟩ := (add_eq_zero_iff_of_nonneg (hp m e) (hp m' e')).1 hsum
        exact ⟨(val_eq_zero_iff false m e).1 (by rw [val_fin, h1, mul_zero]), (val_eq_zero_iff false m' e').1 (by rw [val_fin, h2, mul_zero])⟩
      rw [if_pos ⟨rfl, hm⟩, if_pos rfl]
    · rw [if_neg fun h => hn h.1, if_neg hn]
  · rw [if_neg (hzero.not.1 h)]
    exact ⟨_, _, _, rfl, (val_signed ..).trans hv⟩

section
variable {f : Fmt} {b : BinFmt} {nan inf top : ℕ} (L : Layout f b nan inf top) (rnd : Rnd) (sat : Bool)
include L

/-- A finite value that is not zero rounds as R168 says. -/
theorem round_val {n : Bool} {m : ℕ} {e : ℤ} (h : (Machine.Num.fin n m e).val ≠ 0) :
    let v := (Machine.Num.fin n m e).val
    b.Result inf top rnd sat (decide (v < 0)) |v| (b.round rnd sat (.fin n m e)) := by
  intro v
  have hm : m ≠ 0 := fun h0 => h ((val_eq_zero_iff n m e).2 h0)
  obtain ⟨hs, ha⟩ := sign_val (n := n) (e := e) hm
  rw [hs, ha]
  exact round_result L rnd sat n hm e (Alike.refl _ _)

/-- A result is a code of the format. -/
theorem result_lt {sat neg : Bool} {x : ℚ} {r : ℕ × BitVec 5} (h : b.Result inf top rnd sat neg x r) : r.1 < 2 ^ (b.f + b.eb + 1) := by
  have hsign : 2 ^ (b.f + b.eb) * neg.toNat ≤ 2 ^ (b.f + b.eb) := by
    cases neg
    · exact Nat.zero_le _
    · exact le_of_eq (mul_one _)
  have h1 := L.below
  have h2 := L.infBelow
  rw [pow_succ]
  by_cases ho : b.Overflows top rnd neg x
  · obtain ⟨hi, hs, ht⟩ := h.1 ho
    by_cases hinf : b.style = .ieee ∧ away rnd neg ≠ some false
    · cases sat
      · rw [hi hinf rfl]
        dsimp only
        omega
      · rw [hs hinf rfl]
        dsimp only
        omega
    · rw [ht hinf]
      dsimp only
      omega
  · obtain ⟨c, hc, -, hr, -⟩ := h.2 ho
    omega

end

end Sys2Proof
end

section
/-! The lanes of FP32: what they stand for, and the operations of R421, R422 and R425 on them. -/

namespace Sys2Proof

open Machine

/-- FP32. -/
def b32 : BinFmt := ⟨23, 8, 127, .ieee⟩

theorem layout32 : Layout .f32 b32 0x7FC00000 0x7F800000 0x7F7FFFFF :=
  layout (e := (.f32, b32, 0x7FC00000, 0x7F800000, 0x7F7FFFFF)) (by simp [floatFormats, b32])

/-- The magnitude bits of a lane. -/
def laneMag (a : Lane) : ℕ := a.toNat % 2 ^ 31

/-- The sign of a lane. -/
def laneNeg (a : Lane) : Bool := a.getLsbD 31

/-- The lane of a sign and a magnitude code. -/
def mkLane (s : Bool) (c : ℕ) : Lane := BitVec.ofNat 32 (2 ^ 31 * s.toNat + c)

theorem laneMag_lt (a : Lane) : laneMag a < 2 ^ 31 := Nat.mod_lt _ (by decide)

theorem lane_split (a : Lane) : a.toNat = 2 ^ 31 * (laneNeg a).toNat + laneMag a := code_split (b := b32) a.isLt

theorem mkLane_toNat (s : Bool) {c : ℕ} (hc : c < 2 ^ 31) : (mkLane s c).toNat = 2 ^ 31 * s.toNat + c := by
  have := Bool.toNat_le s
  rw [mkLane, BitVec.toNat_ofNat, Nat.mod_eq_of_lt (by omega)]

theorem mkLane_self (a : Lane) : mkLane (laneNeg a) (laneMag a) = a :=
  BitVec.eq_of_toNat_eq (by rw [mkLane_toNat _ (laneMag_lt a), lane_split a])

theorem lane_ext {a b : Lane} (hs : laneNeg a = laneNeg b) (hm : laneMag a = laneMag b) : a = b := by
  rw [← mkLane_self a, ← mkLane_self b, hs, hm]

theorem f32_eq (a : Lane) : f32 a = b32.dec (2 ^ 31 * (laneNeg a).toNat + laneMag a) := by
  rw [← lane_split]
  exact layout32.dec a.toNat a.isLt

/-! Finite lanes, infinities and NaN (R161). -/

theorem f32_fin {a : Lane} (h : laneFin a = true) : f32 a = .fin (laneNeg a) (b32.sig (laneMag a)) (b32.place (laneMag a)) := by
  have hm : laneMag a < 0x7F800000 := of_decide_eq_true h
  rw [f32_eq]
  exact dec_finite layout32 (laneMag_lt a) (laneNeg a) (by omega)

theorem f32_inf {a : Lane} (h : laneInf a = true) : f32 a = .inf (laneNeg a) := by
  have hm : laneMag a = 0x7F800000 := of_decide_eq_true h
  rw [f32_eq, hm]
  exact dec_special layout32 (c := 0x7F800000) (by decide) (laneNeg a) (by decide)

theorem f32_nan {a : Lane} (h : laneNan a = true) : f32 a = .nan (laneSig a) := by
  have hm : 0x7F800000 < laneMag a := of_decide_eq_true h
  have hfrac : ¬ (b32.style = .ieee ∧ laneMag a % 2 ^ b32.f = 0) := fun k =>
    absurd (((layout32.ieee rfl).2 (laneMag a) (laneMag_lt a) (by omega)).1 k.2) hm.ne'
  have hbit : (laneMag a).testBit 22 = a.getLsbD 22 := by
    rw [laneMag, Nat.testBit_mod_two_pow, decide_eq_true (by decide : 22 < 31), Bool.true_and]
    rfl
  have hdec := dec_special layout32 (laneMag_lt a) (laneNeg a) (by omega)
  rw [if_neg hfrac] at hdec
  rw [f32_eq, laneSig, h, ← hbit]
  exact hdec

theorem laneVal_fin {a : Lane} (h : laneFin a = true) : laneVal a = (if laneNeg a then -1 else 1) * b32.grid (laneMag a) := by
  rw [laneVal, f32_fin h, val_fin, BinFmt.grid]

/-- A lane is finite, infinite or NaN. -/
theorem lane_kinds (a : Lane) : laneFin a = true ∨ laneInf a = true ∨ laneNan a = true := by
  have h := lt_trichotomy (laneMag a) 0x7F800000
  exact h.imp decide_eq_true fun h => h.imp decide_eq_true decide_eq_true

end Sys2Proof
end

section
/-! Rounding to a lane, and the exact operations on lanes (R421). -/

namespace Sys2Proof

open Machine

theorem isNan_f32 (a : Lane) : (f32 a).isNan = laneNan a := by
  rcases lane_kinds a with h | h | h
  · rw [f32_fin h]
    have hm : laneMag a < 0x7F800000 := of_decide_eq_true h
    exact (decide_eq_false (by change ¬ 0x7F800000 < laneMag a; omega)).symm
  · rw [f32_inf h]
    have hm : laneMag a = 0x7F800000 := of_decide_eq_true h
    exact (decide_eq_false (by change ¬ 0x7F800000 < laneMag a; omega)).symm
  · rw [f32_nan h, h]
    rfl

theorem sig_f32 (a : Lane) : (f32 a).sig = laneSig a := by
  cases hn : laneNan a with
  | true => rw [f32_nan hn]; rfl
  | false =>
    have h := isNan_f32 a
    rw [hn] at h
    rw [laneSig, hn]
    cases hx : f32 a with
    | nan g => rw [hx] at h; cases h
    | inf n => rfl
    | fin n m e => rfl

theorem laneFin_not_nan {a : Lane} (h : laneFin a = true) : laneNan a = false := by rw [← isNan_f32, f32_fin h]; rfl

theorem laneInf_not_nan {a : Lane} (h : laneInf a = true) : laneNan a = false := by rw [← isNan_f32, f32_inf h]; rfl

theorem laneSig_of_not_nan {a : Lane} (h : laneNan a = false) : laneSig a = false := by rw [laneSig, h]; rfl

theorem laneMag_and (a : Lane) : (a &&& 0x7FFFFFFF).toNat = laneMag a := by
  rw [BitVec.toNat_and]
  exact Nat.and_two_pow_sub_one_eq_mod a.toNat 31

theorem mag_zero_iff (a : Lane) : a &&& 0x7FFFFFFF = 0 ↔ laneMag a = 0 := by
  rw [← laneMag_and]
  exact BitVec.toNat_inj.symm

theorem signOf_eq (a : Lane) : signOf a = mkLane (laneNeg a) 0 := by
  refine BitVec.eq_of_toNat_eq ?_
  rw [signOf, BitVec.toNat_and, mkLane_toNat _ (by decide), Nat.add_zero, Nat.mul_comm]
  exact Nat.and_two_pow a.toNat 31

theorem sig_eq_zero_iff (b : BinFmt) (c : ℕ) : b.sig c = 0 ↔ c = 0 := by
  have hg : b.grid c = 0 ↔ b.sig c = 0 := by
    rw [BinFmt.grid, mul_eq_zero, or_iff_left (zpow_two_pos _).ne', Nat.cast_eq_zero]
  rw [← hg, ← grid_zero b]
  exact (grid_strictMono b).injective.eq_iff

/-! Rounding to a lane. -/

theorem toF32_zero (rnd : Rnd) (sat n : Bool) (e : ℤ) : toF32 rnd sat (.fin n 0 e) = (mkLane n 0, 0) := by cases n <;> rfl

theorem toF32_inf (rnd : Rnd) (sat n : Bool) : toF32 rnd sat (.inf n) = (mkLane n 0x7F800000, 0) := by cases n <;> rfl

theorem toF32_nan (rnd : Rnd) (sat g : Bool) : toF32 rnd sat (.nan g) = (0x7FC00000, if g then fInv else 0) := by cases g <;> rfl

/-- A result of FP32 as the lane that holds it. -/
theorem toF32_result {rnd : Rnd} {sat neg : Bool} {q : ℚ} {x : Machine.Num} (h : b32.Result 0x7F800000 0x7F7FFFFF rnd sat neg q (b32.round rnd sat x)) :
    b32.Result 0x7F800000 0x7F7FFFFF rnd sat neg q ((toF32 rnd sat x).1.toNat, (toF32 rnd sat x).2) := by
  have hnat : (toF32 rnd sat x).1.toNat = (b32.round rnd sat x).1 := Nat.mod_eq_of_lt (result_lt layout32 rnd h)
  rw [hnat]
  exact h

/-- A finite value rounds to a lane as R168 says. -/
theorem laneRounds_fin (rnd : Rnd) (sat n : Bool) (m : ℕ) (e : ℤ) :
    LaneRounds rnd sat (Machine.Num.fin n m e).val (mkLane n 0) (toF32 rnd sat (.fin n m e)) := by
  refine ⟨fun h => ?_, fun h => ?_⟩
  · rw [(val_eq_zero_iff n m e).1 h]
    exact toF32_zero ..
  · exact toF32_result (round_val layout32 rnd sat h)

/-- An exact sum rounds to a lane as R168 and R421 say. -/
theorem laneRounds_finAdd (rnd : Rnd) (sat n : Bool) (m : ℕ) (e : ℤ) (n' : Bool) (m' : ℕ) (e' : ℤ) :
    LaneRounds rnd sat ((Machine.Num.fin n m e).val + (Machine.Num.fin n' m' e').val) (mkLane (if n = n' then n else rnd == .rdn) 0)
      (toF32 rnd sat (finAdd rnd n m e n' m' e')) := by
  obtain ⟨hzero, hne⟩ := finAdd_spec rnd n m e n' m' e'
  refine ⟨fun h => ?_, fun h => ?_⟩
  · rw [hzero h]
    exact toF32_zero ..
  · obtain ⟨s, k, d, heq, hval⟩ := hne h
    have hs := (laneRounds_fin rnd sat s k d).2
    rw [hval] at hs
    rw [heq]
    exact hs h

end Sys2Proof
end

section
/-! The FP32 operations of a lane (R421, R422, R425). -/

namespace Sys2Proof

open Machine

/-! Operations on finite lanes round the exact value once. -/

theorem zero_or_flags (f : BitVec 5) : 0 ||| f = f := BitVec.zero_or ..

theorem toF32With_zero (rnd : Rnd) (sat : Bool) (x : Machine.Num) : toF32With rnd sat (x, 0) = toF32 rnd sat x :=
  Prod.ext rfl (zero_or_flags _)

theorem mkLane_zero_inj {s t : Bool} : mkLane s 0 = mkLane t 0 ↔ s = t := by cases s <;> cases t <;> decide

theorem sign_eq_iff {a b : Lane} : signOf a = signOf b ↔ laneNeg a = laneNeg b := by
  rw [signOf_eq, signOf_eq, mkLane_zero_inj]

theorem sumZero_eq (rnd : Rnd) (a b : Lane) : sumZero rnd a b = mkLane (if laneNeg a = laneNeg b then laneNeg a else rnd == .rdn) 0 := by
  rw [sumZero]
  by_cases h : laneNeg a = laneNeg b
  · rw [if_pos (sign_eq_iff.2 h), if_pos h, signOf_eq]
  · rw [if_neg (sign_eq_iff.not.2 h), if_neg h]
    cases rnd <;> rfl

theorem signOf_xor (a b : Lane) : signOf a ^^^ signOf b = mkLane (xor (laneNeg a) (laneNeg b)) 0 := by
  rw [signOf_eq, signOf_eq]
  cases laneNeg a <;> cases laneNeg b <;> rfl

theorem laneNeg_mk (s : Bool) {c : ℕ} (hc : c < 2 ^ 31) : laneNeg (mkLane s c) = s := by
  have h := lane_split (mkLane s c)
  rw [mkLane_toNat s hc] at h
  have hm := laneMag_lt (mkLane s c)
  cases s <;> cases hn : laneNeg (mkLane _ c) <;> rw [hn] at h
  · simp only [Bool.toNat_true, Bool.toNat_false] at h
    omega
  · simp only [Bool.toNat_true, Bool.toNat_false] at h
    omega

theorem numAdd_fin (rnd : Rnd) (n : Bool) (m : ℕ) (e : ℤ) (n' : Bool) (m' : ℕ) (e' : ℤ) :
    numAdd rnd (.fin n m e) (.fin n' m' e') = (finAdd rnd n m e n' m' e', 0) := rfl

theorem numMul_fin (n : Bool) (m : ℕ) (e : ℤ) (n' : Bool) (m' : ℕ) (e' : ℤ) :
    numMul (.fin n m e) (.fin n' m' e') = (.fin (xor n n') (m * m') (e + e'), 0) := rfl

theorem add_rounds (rnd : Rnd) (sat : Bool) {a b : Lane} (ha : laneFin a = true) (hb : laneFin b = true) :
    LaneRounds rnd sat (laneVal a + laneVal b) (sumZero rnd a b) (addF32 rnd sat a b) := by
  rw [sumZero_eq, laneVal, laneVal, addF32, f32_fin ha, f32_fin hb, numAdd_fin, toF32With_zero]
  exact laneRounds_finAdd ..

theorem mul_rounds (rnd : Rnd) (sat : Bool) {a b : Lane} (ha : laneFin a = true) (hb : laneFin b = true) :
    LaneRounds rnd sat (laneVal a * laneVal b) (signOf a ^^^ signOf b) (mulF32 rnd sat a b) := by
  rw [signOf_xor, laneVal, laneVal, mulF32, f32_fin ha, f32_fin hb, ← val_mul, numMul_fin, toF32With_zero]
  exact laneRounds_fin ..

/-- VFMA on a product that is known. -/
theorem fma_of_mul {rnd : Rnd} {sat : Bool} {a b c : Lane} {p : Machine.Num} {g : BitVec 5} (h : numMul (f32 a) (f32 b) = (p, g)) :
    fmaF32 rnd sat a b c = toF32With rnd sat ((numAdd rnd p (f32 c)).1, g ||| (numAdd rnd p (f32 c)).2) := by
  rw [fmaF32, h]

theorem fma_fin {rnd : Rnd} {sat : Bool} {a b c : Lane} {n : Bool} {m : ℕ} {e : ℤ} (h : numMul (f32 a) (f32 b) = (.fin n m e, 0))
    (hc : laneFin c = true) :
    fmaF32 rnd sat a b c = toF32 rnd sat (finAdd rnd n m e (laneNeg c) (b32.sig (laneMag c)) (b32.place (laneMag c))) := by
  rw [fma_of_mul h, f32_fin hc, numAdd_fin, ← toF32With_zero, zero_or_flags]

theorem fma_rounds (rnd : Rnd) (sat : Bool) {a b c : Lane} (ha : laneFin a = true) (hb : laneFin b = true) (hc : laneFin c = true) :
    LaneRounds rnd sat (laneVal a * laneVal b + laneVal c) (sumZero rnd (signOf a ^^^ signOf b) c) (fmaF32 rnd sat a b c) := by
  have hmul := numMul_fin (laneNeg a) (b32.sig (laneMag a)) (b32.place (laneMag a)) (laneNeg b) (b32.sig (laneMag b)) (b32.place (laneMag b))
  rw [← f32_fin ha, ← f32_fin hb] at hmul
  rw [fma_fin hmul hc, sumZero_eq, signOf_xor, laneNeg_mk _ (by decide), laneVal, laneVal, laneVal, f32_fin ha, f32_fin hb, f32_fin hc, ← val_mul]
  exact laneRounds_finAdd ..

theorem laneNeg_flip (a : Lane) : laneNeg (a ^^^ 0x80000000) = !laneNeg a := by
  rw [laneNeg, BitVec.getLsbD_xor]
  exact Bool.xor_true _

theorem laneMag_flip (a : Lane) : laneMag (a ^^^ 0x80000000) = laneMag a := by
  rw [laneMag, BitVec.toNat_xor, Nat.xor_mod_two_pow]
  exact Nat.xor_zero _

/-- The flipped sign bit negates. -/
theorem f32_flip (a : Lane) : f32 (a ^^^ 0x80000000) = (f32 a).negate := by
  have hfin : laneFin (a ^^^ 0x80000000) = laneFin a := congrArg (fun m => decide (m < 0x7F800000)) (laneMag_flip a)
  have hinf : laneInf (a ^^^ 0x80000000) = laneInf a := congrArg (fun m => decide (m = 0x7F800000)) (laneMag_flip a)
  have hnan : laneNan (a ^^^ 0x80000000) = laneNan a := congrArg (fun m => decide (0x7F800000 < m)) (laneMag_flip a)
  rcases lane_kinds a with h | h | h
  · rw [f32_fin h, f32_fin (hfin.trans h), laneNeg_flip, laneMag_flip]
    rfl
  · rw [f32_inf h, f32_inf (hinf.trans h), laneNeg_flip]
    rfl
  · have hsig : laneSig (a ^^^ 0x80000000) = laneSig a := by
      rw [laneSig, laneSig, hnan, BitVec.getLsbD_xor]
      simp
    rw [f32_nan h, f32_nan (hnan.trans h), hsig]
    rfl

theorem sub_eq_add (rnd : Rnd) (sat : Bool) (a b : Lane) : subF32 rnd sat a b = addF32 rnd sat a (b ^^^ 0x80000000) := by
  rw [subF32, addF32, f32_flip]

/-! NaN and infinities. -/

section
variable (rnd : Rnd) (sat : Bool) {a b c : Lane}

theorem numAdd_nan {x y : Machine.Num} (h : x.isNan = true ∨ y.isNan = true) : numAdd rnd x y = (.nan false, fIf (x.sig || y.sig) fInv) :=
  if_pos (Bool.or_eq_true_iff.2 h)

theorem numMul_nan {x y : Machine.Num} (h : x.isNan = true ∨ y.isNan = true) : numMul x y = (.nan false, fIf (x.sig || y.sig) fInv) :=
  if_pos (Bool.or_eq_true_iff.2 h)

theorem toF32With_nan (g : BitVec 5) : toF32With rnd sat (.nan false, g) = (0x7FC00000, g) := by
  rw [toF32With, toF32_nan]
  exact Prod.ext rfl (BitVec.or_zero ..)

theorem toF32With_inf (n : Bool) : toF32With rnd sat (.inf n, 0) = (mkLane n 0x7F800000, 0) := by
  rw [toF32With_zero, toF32_inf]

theorem nan_rows (h : laneNan a = true ∨ laneNan b = true) :
    addF32 rnd sat a b = (0x7FC00000, fIf (laneSig a || laneSig b) fInv) ∧ mulF32 rnd sat a b = (0x7FC00000, fIf (laneSig a || laneSig b) fInv)
      ∧ minF32 a b = (0x7FC00000, fIf (laneSig a || laneSig b) fInv) ∧ maxF32 a b = (0x7FC00000, fIf (laneSig a || laneSig b) fInv) := by
  rw [← isNan_f32, ← isNan_f32] at h
  rw [← sig_f32, ← sig_f32]
  refine ⟨?_, ?_, if_pos (Bool.or_eq_true_iff.2 h), if_pos (Bool.or_eq_true_iff.2 h)⟩
  · rw [addF32, numAdd_nan rnd h, toF32With_nan]
  · rw [mulF32, numMul_nan h, toF32With_nan]

/-- A product does not depend on the order of its factors. -/
theorem numMul_comm (x y : Machine.Num) : numMul x y = numMul y x := by
  by_cases h : x.isNan = true ∨ y.isNan = true
  · rw [numMul_nan h, numMul_nan h.symm, Bool.or_comm]
  · cases x with
    | nan g => exact absurd (.inl rfl) h
    | inf n =>
      cases y with
      | nan g => exact absurd (.inr rfl) h
      | inf n' => simp [numMul, Machine.Num.isNan, Bool.xor_comm]
      | fin n' m e => simp [numMul, Machine.Num.isNan, Bool.xor_comm]
    | fin n m e =>
      cases y with
      | nan g => exact absurd (.inr rfl) h
      | inf n' => simp [numMul, Machine.Num.isNan, Bool.xor_comm]
      | fin n' m' e' => rw [numMul_fin, numMul_fin, Bool.xor_comm, Nat.mul_comm, Int.add_comm]

theorem lane_inf_self (h : laneInf a = true) : mkLane (laneNeg a) 0x7F800000 = a := by
  have hm : laneMag a = 0x7F800000 := of_decide_eq_true h
  rw [← hm, mkLane_self]

theorem fin_or_inf (h : laneNan a = false) : laneFin a = true ∨ laneInf a = true :=
  (lane_kinds a).imp_right fun k => k.resolve_right (Bool.eq_false_iff.1 h)

theorem laneInf_of_fin (h : laneFin a = true) : laneInf a = false :=
  decide_eq_false (ne_of_lt (of_decide_eq_true h : laneMag a < 0x7F800000))

theorem numAdd_inf (n n' : Bool) : numAdd rnd (.inf n) (.inf n') = if n = n' then (.inf n, 0) else (.nan false, fInv) := rfl

theorem add_inf_left (ha : laneInf a = true) (hb : laneNan b = false) :
    addF32 rnd sat a b = if laneInf b = true ∧ signOf a ≠ signOf b then (0x7FC00000, fInv) else (a, 0) := by
  have hself := (toF32With_inf rnd sat (laneNeg a)).trans (congrArg (·, 0) (lane_inf_self ha))
  rw [addF32, f32_inf ha]
  rcases fin_or_inf hb with h | h
  · rw [f32_fin h, laneInf_of_fin h, if_neg (fun k => Bool.false_ne_true k.1)]
    exact hself
  · rw [f32_inf h, numAdd_inf]
    by_cases hs : laneNeg a = laneNeg b
    · rw [if_pos hs, if_neg fun k => k.2 (sign_eq_iff.2 hs)]
      exact hself
    · rw [if_neg hs, if_pos ⟨h, fun k => hs (sign_eq_iff.1 k)⟩, toF32With_nan]

theorem add_inf_right (ha : laneFin a = true) (hb : laneInf b = true) : addF32 rnd sat a b = (b, 0) := by
  rw [addF32, f32_fin ha, f32_inf hb]
  exact (toF32With_inf ..).trans (congrArg (·, 0) (lane_inf_self hb))

theorem numMul_inf_fin (n n' : Bool) (m : ℕ) (e : ℤ) :
    numMul (.inf n) (.fin n' m e) = if m = 0 then (.nan false, fInv) else (.inf (xor n n'), 0) := rfl

theorem numMul_inf_inf (n n' : Bool) : numMul (.inf n) (.inf n') = (.inf (xor n n'), 0) := rfl

/-- The product with an infinity (R421). -/
theorem numMul_inf (ha : laneInf a = true) (hb : laneNan b = false) : numMul (f32 a) (f32 b) =
    if b &&& 0x7FFFFFFF = 0 then (.nan false, fInv) else (.inf (xor (laneNeg a) (laneNeg b)), 0) := by
  rw [f32_inf ha]
  rcases fin_or_inf hb with h | h
  · have hz : b &&& 0x7FFFFFFF = 0 ↔ b32.sig (laneMag b) = 0 := by rw [mag_zero_iff, sig_eq_zero_iff]
    rw [f32_fin h, numMul_inf_fin]
    exact if_congr hz.symm rfl rfl
  · have hz : ¬ b &&& 0x7FFFFFFF = 0 := by
      have hm : laneMag b = 0x7F800000 := of_decide_eq_true h
      rw [mag_zero_iff]
      omega
    rw [f32_inf h, if_neg hz, numMul_inf_inf]

theorem mkLane_inf (s : Bool) : mkLane s 0 ||| 0x7F800000 = mkLane s 0x7F800000 := by cases s <;> rfl

theorem mulF32_inf (ha : laneInf a = true) (hb : laneNan b = false) : mulF32 rnd sat a b =
    if b &&& 0x7FFFFFFF = 0 then (0x7FC00000, fInv) else ((signOf a ^^^ signOf b) ||| 0x7F800000, 0) := by
  rw [mulF32, numMul_inf ha hb, signOf_xor, mkLane_inf]
  split
  · exact toF32With_nan ..
  · exact toF32With_inf ..

theorem mulF32_comm (a b : Lane) : mulF32 rnd sat b a = mulF32 rnd sat a b := by rw [mulF32, numMul_comm, mulF32]

end

end Sys2Proof
end

section
/-! VFMA with NaN and infinities; VMIN, VMAX and VCMP (R421, R422, R425). -/

namespace Sys2Proof

open Machine

theorem fIf_or (x y : Bool) (f : BitVec 5) : fIf x f ||| fIf y f = fIf (x || y) f := by
  cases x <;> cases y <;> simp [fIf]

/-- Whether a product is one of an infinity with a zero (R421). -/
def zeroInf (a b : Lane) : Bool := (laneInf a && b &&& 0x7FFFFFFF == 0) || (laneInf b && a &&& 0x7FFFFFFF == 0)

theorem not_zero_of_nan {a : Lane} (h : laneNan a = true) : ¬ a &&& 0x7FFFFFFF = 0 := by
  have hm : 0x7F800000 < laneMag a := of_decide_eq_true h
  rw [mag_zero_iff]
  omega

theorem zeroInf_comm (a b : Lane) : zeroInf a b = zeroInf b a := Bool.or_comm ..

theorem zeroInf_of_fin {a b : Lane} (ha : laneFin a = true) (hb : laneFin b = true) : zeroInf a b = false := by
  rw [zeroInf, laneInf_of_fin ha, laneInf_of_fin hb]
  rfl

theorem zeroInf_of_inf {a b : Lane} (ha : laneInf a = true) : zeroInf a b = decide (b &&& 0x7FFFFFFF = 0) := by
  have hz : (a &&& 0x7FFFFFFF == 0) = false := by
    have hm : laneMag a = 0x7F800000 := of_decide_eq_true ha
    rw [beq_eq_false_iff_ne, ne_eq, mag_zero_iff]
    omega
  rw [zeroInf, ha, hz, Bool.true_and, Bool.and_false, Bool.or_false]
  rfl

theorem zeroInf_of_nan {a b : Lane} (ha : laneNan a = true) : zeroInf a b = false := by
  have hz : (a &&& 0x7FFFFFFF == 0) = false := beq_eq_false_iff_ne.2 (not_zero_of_nan ha)
  have hi : laneInf a = false := by
    cases h : laneInf a with
    | true => rw [laneInf_not_nan h] at ha; cases ha
    | false => rfl
  rw [zeroInf, hz, hi, Bool.and_false]
  rfl

/-- What the product of two lanes is: a NaN, an infinity or a finite value. -/
theorem numMul_kinds (a b : Lane) :
    ((laneNan a = true ∨ laneNan b = true ∨ zeroInf a b = true)
      ∧ numMul (f32 a) (f32 b) = (.nan false, fIf (laneSig a || laneSig b || zeroInf a b) fInv))
    ∨ (laneNan a = false ∧ laneNan b = false ∧ zeroInf a b = false ∧ (laneInf a = true ∨ laneInf b = true)
      ∧ numMul (f32 a) (f32 b) = (.inf (xor (laneNeg a) (laneNeg b)), 0))
    ∨ (laneFin a = true ∧ laneFin b = true ∧ ∃ n m e, numMul (f32 a) (f32 b) = (.fin n m e, 0)) := by
  have hinf {a b : Lane} (ha : laneInf a = true) (hb : laneNan b = false) :
      (zeroInf a b = true ∧ numMul (f32 a) (f32 b) = (.nan false, fIf (laneSig a || laneSig b || zeroInf a b) fInv))
      ∨ (zeroInf a b = false ∧ numMul (f32 a) (f32 b) = (.inf (xor (laneNeg a) (laneNeg b)), 0)) := by
    rw [numMul_inf ha hb, zeroInf_of_inf ha]
    by_cases hz : b &&& 0x7FFFFFFF = 0
    · exact .inl ⟨decide_eq_true hz, by rw [if_pos hz, decide_eq_true hz, Bool.or_true]; rfl⟩
    · exact .inr ⟨decide_eq_false hz, if_neg hz⟩
  by_cases hn : laneNan a = true ∨ laneNan b = true
  · have hz : zeroInf a b = false := hn.elim zeroInf_of_nan fun h => (zeroInf_comm a b).trans (zeroInf_of_nan h)
    refine .inl ⟨hn.imp_right .inl, ?_⟩
    rw [hz, Bool.or_false, ← sig_f32, ← sig_f32]
    rw [← isNan_f32, ← isNan_f32] at hn
    exact numMul_nan hn
  · obtain ⟨ha, hb⟩ := not_or.1 hn
    rw [Bool.not_eq_true] at ha hb
    rcases fin_or_inf ha with h | h
    · rcases fin_or_inf hb with h' | h'
      · exact .inr (.inr ⟨h, h', _, _, _, by rw [f32_fin h, f32_fin h', numMul_fin]⟩)
      · rw [zeroInf_comm, numMul_comm, Bool.or_comm (laneSig a), Bool.xor_comm]
        exact (hinf h' ha).imp (fun k => ⟨.inr (.inr k.1), k.2⟩) fun k => .inl ⟨ha, hb, k.1, .inr h', k.2⟩
    · exact (hinf h hb).imp (fun k => ⟨.inr (.inr k.1), k.2⟩) fun k => .inl ⟨ha, hb, k.1, .inl h, k.2⟩

section
variable (rnd : Rnd) (sat : Bool) {a b c : Lane}

/-- VFMA on a product that is a NaN, or with a NaN added. -/
theorem fma_nan_of {p : Machine.Num} {g : BitVec 5} (hp : numMul (f32 a) (f32 b) = (p, g)) (h : p.isNan = true ∨ laneNan c = true) (hs : p.sig = false) :
    fmaF32 rnd sat a b c = (0x7FC00000, g ||| fIf (laneSig c) fInv) := by
  rw [← isNan_f32] at h
  rw [fma_of_mul hp, numAdd_nan rnd h, toF32With_nan, hs, sig_f32, Bool.false_or]

/-- VFMA with a NaN, from outside or from a product of an infinity and a zero. -/
theorem fma_nan (h : laneNan a = true ∨ laneNan b = true ∨ zeroInf a b = true ∨ laneNan c = true) :
    fmaF32 rnd sat a b c = (0x7FC00000, fIf (laneSig a || laneSig b || laneSig c || zeroInf a b) fInv) := by
  have hflags (x y z w : Bool) : fIf (x || y || w) fInv ||| fIf z fInv = fIf (x || y || z || w) fInv := by
    rw [fIf_or, Bool.or_right_comm]
  have hquiet {x : Lane} (hx : laneNan x = false) : laneSig x = false := laneSig_of_not_nan hx
  rcases numMul_kinds a b with ⟨-, hp⟩ | ⟨ha, hb, hz, -, hp⟩ | ⟨ha, hb, n, m, e, hp⟩
  · rw [fma_nan_of rnd sat hp (.inl rfl) rfl, hflags]
  · have hc : laneNan c = true := by simpa [ha, hb, hz] using h
    rw [fma_nan_of rnd sat hp (.inr hc) rfl, hquiet ha, hquiet hb, hz, Bool.or_false, zero_or_flags]
    rfl
  · have hz := zeroInf_of_fin ha hb
    have hc : laneNan c = true := by simpa [laneFin_not_nan ha, laneFin_not_nan hb, hz] using h
    rw [fma_nan_of rnd sat hp (.inr hc) rfl, hquiet (laneFin_not_nan ha), hquiet (laneFin_not_nan hb), hz, Bool.or_false, zero_or_flags]
    rfl

/-- VFMA with an infinity and no NaN. -/
theorem fma_inf (ha : laneNan a = false) (hb : laneNan b = false) (hc : laneNan c = false) (h : laneInf a = true ∨ laneInf b = true ∨ laneInf c = true) :
    let s := signOf a ^^^ signOf b
    fmaF32 rnd sat a b c =
      if (laneInf a = true ∧ b &&& 0x7FFFFFFF = 0) ∨ (laneInf b = true ∧ a &&& 0x7FFFFFFF = 0) then (0x7FC00000, fInv)
      else if laneInf a = true ∨ laneInf b = true then
        if laneInf c = true ∧ signOf c ≠ s then (0x7FC00000, fInv) else (s ||| 0x7F800000, 0)
      else (c, 0) := by
  intro s
  have hz : ((laneInf a = true ∧ b &&& 0x7FFFFFFF = 0) ∨ (laneInf b = true ∧ a &&& 0x7FFFFFFF = 0)) ↔ zeroInf a b = true := by
    simp [zeroInf]
  rw [if_congr hz rfl rfl]
  rcases numMul_kinds a b with ⟨h', hp⟩ | ⟨-, -, hz', hi, hp⟩ | ⟨ha', hb', n, m, e, hp⟩
  · have hz' : zeroInf a b = true := by simpa [ha, hb] using h'
    rw [if_pos hz', fma_nan rnd sat (.inr (.inr (.inl hz'))), hz', Bool.or_true]
    rfl
  · have hs : s = mkLane (xor (laneNeg a) (laneNeg b)) 0 := signOf_xor a b
    rw [if_neg (Bool.eq_false_iff.1 hz'), if_pos hi, fma_of_mul hp, hs, mkLane_inf, zero_or_flags]
    rcases fin_or_inf hc with h | h
    · rw [f32_fin h, laneInf_of_fin h, if_neg fun k => Bool.false_ne_true k.1]
      exact toF32With_inf ..
    · rw [f32_inf h, numAdd_inf, signOf_eq]
      by_cases hn : xor (laneNeg a) (laneNeg b) = laneNeg c
      · rw [if_pos hn, if_neg fun k => k.2 (mkLane_zero_inj.2 hn.symm), toF32With_inf]
      · rw [if_neg hn, if_pos ⟨h, fun k => hn (mkLane_zero_inj.1 k).symm⟩, toF32With_nan]
  · have hno : ¬ (laneInf a = true ∨ laneInf b = true) := by simp [laneInf_of_fin ha', laneInf_of_fin hb']
    have hci : laneInf c = true := by simpa [laneInf_of_fin ha', laneInf_of_fin hb'] using h
    rw [if_neg (by rw [zeroInf_of_fin ha' hb']; exact Bool.false_ne_true), if_neg hno, fma_of_mul hp, f32_inf hci, zero_or_flags]
    exact (toF32With_inf ..).trans (congrArg (·, 0) (lane_inf_self hci))

end

end Sys2Proof
end

section
/-! The order of signed codes, and of their values (R421, R422, R425, R239). -/

namespace Sys2Proof

open Machine

/-- A signed code as a whole number, the two zeros equal. -/
def ordCode (s : Bool) (c : ℕ) : ℤ := if s then -(c : ℤ) else c

/-- A signed code as a whole number, −0 below +0. -/
def keyCode (s : Bool) (c : ℕ) : ℤ := if s then -(c : ℤ) - 1 else c

theorem signed_lt_iff (b : BinFmt) (s t : Bool) (c d : ℕ) :
    (if s then -1 else 1) * b.grid c < (if t then -1 else 1) * b.grid d ↔ ordCode s c < ordCode t d := by
  have hM := grid_strictMono b
  have hpos (c : ℕ) : 0 ≤ b.grid c := (grid_zero b).symm.le.trans (hM.monotone (Nat.zero_le c))
  have hzero (c : ℕ) : 0 < b.grid c ↔ 0 < c := by rw [← grid_zero b, hM.lt_iff_lt]
  cases s <;> cases t <;> simp only [ordCode, Bool.false_eq_true, if_true, if_false, one_mul, neg_one_mul]
  · rw [hM.lt_iff_lt, Nat.cast_lt]
  · exact iff_of_false (by linarith [hpos c, hpos d]) (by omega)
  · constructor
    · intro h
      by_contra hn
      obtain ⟨rfl, rfl⟩ : c = 0 ∧ d = 0 := by omega
      simp at h
    · intro h
      rcases Nat.eq_zero_or_pos c with rfl | hc
      · have := (hzero d).2 (by omega)
        simpa using this
      · linarith [(hzero c).2 hc, hpos d]
  · rw [neg_lt_neg_iff, hM.lt_iff_lt]
    omega

theorem signed_eq_iff (b : BinFmt) (s t : Bool) (c d : ℕ) :
    (if s then -1 else 1) * b.grid c = (if t then -1 else 1) * b.grid d ↔ ordCode s c = ordCode t d := by
  have heq (x y : ℚ) : x = y ↔ ¬ x < y ∧ ¬ y < x := ⟨fun h => ⟨h.not_lt, h.not_gt⟩, fun h => le_antisymm (not_lt.1 h.2) (not_lt.1 h.1)⟩
  rw [heq, signed_lt_iff, signed_lt_iff]
  omega

theorem keyCode_lt {s t : Bool} {c d : ℕ} (h : ordCode s c < ordCode t d) : keyCode s c < keyCode t d := by
  cases s <;> cases t <;> simp only [ordCode, keyCode, Bool.false_eq_true, if_true, if_false] at h ⊢ <;> omega

/-- Equal values of unlike signs are the two zeros. -/
theorem ordCode_eq {s t : Bool} {c d : ℕ} (h : ordCode s c = ordCode t d) : (s = t ∧ c = d) ∨ (s ≠ t ∧ c = 0 ∧ d = 0) := by
  cases s <;> cases t <;> simp only [ordCode, Bool.false_eq_true, if_true, if_false] at h
  · exact .inl ⟨rfl, by omega⟩
  · exact .inr ⟨Bool.noConfusion, by omega, by omega⟩
  · exact .inr ⟨Bool.noConfusion, by omega, by omega⟩
  · exact .inl ⟨rfl, by omega⟩

/-! The order of lanes. -/

theorem bitN_sign (a : Lane) : bitN a 31 = laneNeg a := bitN_eq_getLsbD a 31

theorem keyF32_eq (a : Lane) : keyF32 a = keyCode (laneNeg a) (laneMag a) := by
  rw [keyF32, keyCode, bitN_sign]
  rfl

theorem ordF32_eq (a : Lane) : ordF32 a = ordCode (laneNeg a) (laneMag a) := by
  rw [ordF32, ordCode, bitN_sign]
  rfl

section
variable {a b : Lane} (ha : laneFin a = true) (hb : laneFin b = true)
include ha hb

theorem laneVal_lt_iff : laneVal a < laneVal b ↔ ordF32 a < ordF32 b := by
  rw [laneVal_fin ha, laneVal_fin hb, signed_lt_iff, ordF32_eq, ordF32_eq]

theorem laneVal_eq_iff : laneVal a = laneVal b ↔ ordF32 a = ordF32 b := by
  rw [laneVal_fin ha, laneVal_fin hb, signed_eq_iff, ordF32_eq, ordF32_eq]

theorem fin_not_nan : ¬ ((f32 a).isNan || (f32 b).isNan) = true := by
  rw [isNan_f32, isNan_f32, laneFin_not_nan ha, laneFin_not_nan hb]
  exact Bool.false_ne_true

theorem minF32_fin : minF32 a b = (if keyF32 b < keyF32 a then b else a, 0) := if_neg (fin_not_nan ha hb)

theorem maxF32_fin : maxF32 a b = (if keyF32 a < keyF32 b then b else a, 0) := if_neg (fin_not_nan ha hb)

/-- Of two lanes of unlike values the lesser and the greater, in either order of the operands (R421). -/
theorem minmax_lt (h : laneVal a < laneVal b) : minF32 a b = (a, 0) ∧ minF32 b a = (a, 0) ∧ maxF32 a b = (b, 0) ∧ maxF32 b a = (b, 0) := by
  rw [laneVal_lt_iff ha hb, ordF32_eq, ordF32_eq] at h
  have hk : keyF32 a < keyF32 b := by
    rw [keyF32_eq, keyF32_eq]
    exact keyCode_lt h
  rw [minF32_fin ha hb, minF32_fin hb ha, maxF32_fin ha hb, maxF32_fin hb ha]
  simp [hk, hk.not_gt]

/-- Of two lanes of one value the lesser is −0 where one of them is, and the greater +0 (R422). -/
theorem minmax_eq (h : laneVal a = laneVal b) : minF32 a b = (a ||| signOf b, 0) ∧ maxF32 a b = (a &&& (b ||| 0x7FFFFFFF), 0) := by
  rw [laneVal_eq_iff ha hb, ordF32_eq, ordF32_eq] at h
  rw [minF32_fin ha hb, maxF32_fin ha hb]
  rcases ordCode_eq h with ⟨hs, hm⟩ | ⟨hs, hc, hd⟩
  · obtain rfl := lane_ext hs hm
    have habsorb (x m : Lane) : x ||| (x &&& m) = x ∧ x &&& (x ||| m) = x := by
      constructor <;> ext i hi <;> simp +contextual
    rw [if_neg (lt_irrefl _), signOf, (habsorb a _).1, (habsorb a _).2]
    exact ⟨rfl, rfl⟩
  · rw [← mkLane_self a, ← mkLane_self b, hc, hd]
    revert hs
    cases laneNeg a <;> cases laneNeg b <;> decide

theorem cmp_fin (k : VCond) : (cmpF32 k a b).1 = match k with
    | .eq => decide (laneVal a = laneVal b) | .ne => decide (laneVal a ≠ laneVal b)
    | .lt => decide (laneVal a < laneVal b) | .le => decide (laneVal a ≤ laneVal b) := by
  have hn : ((f32 a).isNan || (f32 b).isNan) = false := Bool.eq_false_iff.2 (fin_not_nan ha hb)
  have hle : laneVal a ≤ laneVal b ↔ ordF32 a ≤ ordF32 b := by rw [← not_lt, ← not_lt, laneVal_lt_iff hb ha]
  unfold cmpF32
  rw [hn]
  cases k <;> simp [laneVal_eq_iff ha hb, laneVal_lt_iff ha hb, hle] <;> rfl

end

theorem cmp_nan {a b : Lane} (h : laneNan a = true ∨ laneNan b = true) (k : VCond) :
    cmpF32 k a b = (k == .ne, if laneSig a || laneSig b then fInv else 0) := by
  have hn : ((f32 a).isNan || (f32 b).isNan) = true := by rw [isNan_f32, isNan_f32, Bool.or_eq_true_iff]; exact h
  unfold cmpF32
  rw [hn, sig_f32, sig_f32]
  cases k <;> rfl

/-- The FP32 operations of a lane (R421, R422, R425). -/
theorem lane_operations : ∀ (rnd : Rnd) (sat : Bool) (a b c : Lane),
    let inv (z : Bool) : BitVec 5 := if z then fInv else 0
    (laneFin a = true → laneFin b = true → LaneRounds rnd sat (laneVal a + laneVal b) (sumZero rnd a b) (addF32 rnd sat a b)
      ∧ LaneRounds rnd sat (laneVal a * laneVal b) (signOf a ^^^ signOf b) (mulF32 rnd sat a b))
    ∧ (laneFin a = true → laneFin b = true → laneFin c = true → LaneRounds rnd sat (laneVal a * laneVal b + laneVal c)
        (sumZero rnd (signOf a ^^^ signOf b) c) (fmaF32 rnd sat a b c))
    ∧ subF32 rnd sat a b = addF32 rnd sat a (b ^^^ 0x80000000)
    ∧ (laneNan a = true ∨ laneNan b = true → addF32 rnd sat a b = (0x7FC00000, inv (laneSig a || laneSig b))
      ∧ mulF32 rnd sat a b = (0x7FC00000, inv (laneSig a || laneSig b)) ∧ minF32 a b = (0x7FC00000, inv (laneSig a || laneSig b))
      ∧ maxF32 a b = (0x7FC00000, inv (laneSig a || laneSig b)))
    ∧ (laneInf a = true → laneNan b = false →
      (addF32 rnd sat a b = if laneInf b = true ∧ signOf a ≠ signOf b then (0x7FC00000, fInv) else (a, 0))
      ∧ (mulF32 rnd sat a b = if b &&& 0x7FFFFFFF = 0 then (0x7FC00000, fInv) else ((signOf a ^^^ signOf b) ||| 0x7F800000, 0))
      ∧ mulF32 rnd sat b a = mulF32 rnd sat a b)
    ∧ (laneFin a = true → laneInf b = true → addF32 rnd sat a b = (b, 0))
    ∧ (laneNan a = true ∨ laneNan b = true ∨ laneNan c = true → (fmaF32 rnd sat a b c).1 = 0x7FC00000
      ∧ ((fmaF32 rnd sat a b c).2 = inv (laneSig a || laneSig b || laneSig c || (laneInf a && b &&& 0x7FFFFFFF == 0) || (laneInf b && a &&& 0x7FFFFFFF == 0))))
    ∧ (laneNan a = false → laneNan b = false → laneNan c = false → laneInf a = true ∨ laneInf b = true ∨ laneInf c = true →
      let s := signOf a ^^^ signOf b
      fmaF32 rnd sat a b c =
        if (laneInf a = true ∧ b &&& 0x7FFFFFFF = 0) ∨ (laneInf b = true ∧ a &&& 0x7FFFFFFF = 0) then (0x7FC00000, fInv)
        else if laneInf a = true ∨ laneInf b = true then
          if laneInf c = true ∧ signOf c ≠ s then (0x7FC00000, fInv) else (s ||| 0x7F800000, 0)
        else (c, 0))
    ∧ (laneFin a = true → laneFin b = true →
      (laneVal a < laneVal b → minF32 a b = (a, 0) ∧ minF32 b a = (a, 0) ∧ maxF32 a b = (b, 0) ∧ maxF32 b a = (b, 0))
      ∧ (laneVal a = laneVal b → minF32 a b = (a ||| signOf b, 0) ∧ maxF32 a b = (a &&& (b ||| 0x7FFFFFFF), 0))
      ∧ ((cmpF32 .lt a b).1 = true ↔ laneVal a < laneVal b) ∧ ((cmpF32 .le a b).1 = true ↔ laneVal a ≤ laneVal b)
      ∧ ((cmpF32 .eq a b).1 = true ↔ laneVal a = laneVal b) ∧ ((cmpF32 .ne a b).1 = true ↔ laneVal a ≠ laneVal b))
    ∧ (laneNan a = true ∨ laneNan b = true → ∀ k, cmpF32 k a b = (k == .ne, inv (laneSig a || laneSig b))) := by
  intro rnd sat a b c inv
  refine ⟨fun ha hb => ⟨add_rounds rnd sat ha hb, mul_rounds rnd sat ha hb⟩, fun ha hb hc => fma_rounds rnd sat ha hb hc, sub_eq_add rnd sat a b,
    nan_rows rnd sat, fun ha hb => ⟨add_inf_left rnd sat ha hb, mulF32_inf rnd sat ha hb, mulF32_comm rnd sat a b⟩, add_inf_right rnd sat, fun h => ?_,
    fma_inf rnd sat, fun ha hb => ⟨minmax_lt ha hb, minmax_eq ha hb, ?_, ?_, ?_, ?_⟩, cmp_nan⟩
  · rw [fma_nan rnd sat (h.imp_right fun h => h.imp_right .inr), zeroInf, ← Bool.or_assoc]
    exact ⟨rfl, rfl⟩
  · rw [cmp_fin ha hb]; exact decide_eq_true_iff
  · rw [cmp_fin ha hb]; exact decide_eq_true_iff
  · rw [cmp_fin ha hb]; exact decide_eq_true_iff
  · rw [cmp_fin ha hb]; exact decide_eq_true_iff

end Sys2Proof
end

section
/-! Exact roundings, and magnitudes with a last bit that stands for the rest (R429). -/

namespace Sys2Proof

open Machine

/-- The code behind which a magnitude of the row lies. -/
theorem bracket_unique {b : BinFmt} {lo c : ℕ} (h1 : b.grid lo ≤ b.grid c) (h2 : b.grid c < b.grid (lo + 1)) : lo = c := by
  have hM := grid_strictMono b
  exact le_antisymm (hM.le_iff_le.1 h1) (Nat.lt_succ_iff.1 (hM.lt_iff_lt.1 h2))

/-- A magnitude that a code of the format has rounds to it, with no flag. -/
theorem round_exact {f : Fmt} {b : BinFmt} {nan inf top : ℕ} (L : Layout f b nan inf top) (rnd : Rnd) (sat neg : Bool) {m : ℕ} (hm : m ≠ 0) {e : ℤ}
    {c : ℕ} (hc : c ≤ top) (h : (m : ℚ) * 2 ^ e = b.grid c) : b.round rnd sat (.fin neg m e) = (2 ^ (b.f + b.eb) * neg.toNat + c, 0) := by
  obtain ⟨lo, hlo, hhi, hpick, hinx⟩ := round_bracket L.frac rnd neg hm e (Alike.refl _ _)
  rw [h] at hlo hhi hpick hinx
  obtain rfl := bracket_unique hlo hhi
  have hr : (roundAt rnd neg m e (max (expOf m e) b.emin - b.f)).2 = false := Bool.eq_false_iff.2 fun k => hinx.1 k rfl
  rw [picks_exact hhi] at hpick
  rw [round_fin b rnd sat neg hm e]
  dsimp only
  rw [hpick, hr, L.maxCode, if_neg (Nat.not_lt.2 hc), Bool.false_and]
  rfl

/-- A power of two in the range of a format is the magnitude of a code. -/
theorem two_zpow_eq_grid (b : BinFmt) {k : ℤ} (h : b.emin - b.f ≤ k) : ∃ c, (2 : ℚ) ^ k = b.grid c := by
  rcases le_or_gt b.emin k with hk | hk
  · refine ⟨(k - b.emin).toNat * 2 ^ b.f + 2 ^ b.f, ?_⟩
    rw [grid_add (by omega) (.inr le_rfl), two_zpow_sub (by omega : k - b.f ≤ k), Int.toNat_of_nonneg (by omega), sub_sub_cancel, Int.toNat_natCast,
      sub_add_cancel]
  · refine ⟨0 * 2 ^ b.f + 2 ^ (k - (b.emin - b.f)).toNat, ?_⟩
    have hle : 2 ^ (k - (b.emin - b.f)).toNat ≤ 2 ^ b.f := Nat.pow_le_pow_right two_pos (by omega)
    rw [grid_add (by omega) (.inl rfl), two_zpow_sub h, Nat.cast_zero, zero_add]

/-- A magnitude and a whole number of steps below it, with a bit for the rest, stand alike to the multiples of the step (R429). -/
theorem alike_sticky {g : ℤ} {t : ℚ} {q : ℕ} {s : Bool} (h : if s then (q : ℚ) < t ∧ t < q + 1 else t = q) :
    Alike (g + 1) (t * 2 ^ (g + 1)) ((q * 2 + s.toNat : ℕ) * 2 ^ g) := by
  have hw := zpow_two_pos (g + 1)
  have hz : ((q * 2 + s.toNat : ℕ) : ℚ) * 2 ^ g = (q + s.toNat / 2) * 2 ^ (g + 1) := by
    rw [zpow_add_one₀ two_ne_zero]
    push_cast
    ring
  intro n
  rw [hz, mul_le_mul_iff_left₀ hw, mul_le_mul_iff_left₀ hw, mul_le_mul_iff_left₀ hw, mul_le_mul_iff_left₀ hw]
  cases s with
  | false =>
    have ht : t = q := h
    simp [ht]
  | true =>
    obtain ⟨h1, h2⟩ : (q : ℚ) < t ∧ t < q + 1 := h
    have hn : n ≤ (q : ℤ) ∨ (q : ℤ) + 1 ≤ n := by omega
    rw [Bool.toNat_true, Nat.cast_one]
    rcases hn with hn | hn
    · have hn' : (n : ℚ) ≤ q := by exact_mod_cast hn
      exact ⟨iff_of_true (by linarith) (by linarith), iff_of_false (by linarith) (by linarith)⟩
    · have hn' : (q : ℚ) + 1 ≤ n := by exact_mod_cast hn
      exact ⟨iff_of_false (by linarith) (by linarith), iff_of_true (by linarith) (by linarith)⟩

end Sys2Proof
end

section
/-! VRCP, VRSQ and VEXP2 of a lane (R429). -/

namespace Sys2Proof

open Machine

/-- A finite lane that is not zero, as the model holds it. -/
theorem lane_nonzero {a : Lane} (ha : laneFin a = true) (hx : |laneVal a| ≠ 0) :
    b32.sig (laneMag a) ≠ 0 ∧ |laneVal a| = (b32.sig (laneMag a) : ℚ) * 2 ^ b32.place (laneMag a) := by
  rw [laneVal, f32_fin ha, abs_ne_zero, ne_eq, val_eq_zero_iff] at hx
  rw [laneVal, f32_fin ha]
  exact ⟨hx, (sign_val hx).2⟩

theorem lane_zero {a : Lane} (ha : laneFin a = true) (hx : |laneVal a| = 0) : b32.sig (laneMag a) = 0 := by
  rwa [laneVal, f32_fin ha, abs_eq_zero, val_eq_zero_iff] at hx

theorem sig32_lt (c : ℕ) : b32.sig c < 2 ^ 24 := by
  obtain ⟨k, n, rfl, hn, hk⟩ := exists_steps b32 c
  rw [(sig_place_add hn hk).1]
  exact hn

theorem place32_ge (c : ℕ) : -149 ≤ b32.place c := by
  have h : b32.place c = ((c / 2 ^ 23 - 1 : ℕ) : ℤ) + (-126) - 23 := rfl
  omega

theorem rcp_fin {a : Lane} {n : Bool} {m : ℕ} {e : ℤ} (h : f32 a = .fin n m e) :
    rcpF32 a = toF32 .rne false (if m = 0 then .inf n else rcpNum n m e) := by rw [rcpF32, h]

theorem rcpNum_eq (n : Bool) (m : ℕ) (e : ℤ) : rcpNum n m e =
    let k := Nat.log2 m + 64
    .fin n (2 ^ k / m * 2 + (decide (2 ^ k % m ≠ 0)).toNat) (-e - (k : ℕ) - 1) := rfl

/-- The quotient that stands for a reciprocal stands alike to it. -/
theorem alike_rcp {m : ℕ} (hm : m ≠ 0) (e : ℤ) (k : ℕ) :
    Alike (-e - k - 1 + 1) (1 / (m * 2 ^ e)) ((2 ^ k / m * 2 + (decide (2 ^ k % m ≠ 0)).toNat : ℕ) * 2 ^ (-e - k - 1)) := by
  have hmq : (0 : ℚ) < m := by exact_mod_cast Nat.pos_of_ne_zero hm
  have hval : (1 : ℚ) / (m * 2 ^ e) = ((2 ^ k : ℕ) / m : ℚ) * 2 ^ (-e - k - 1 + 1) := by
    rw [sub_add_cancel, sub_eq_add_neg, zpow_add₀ two_ne_zero, zpow_neg, zpow_neg, zpow_natCast]
    push_cast
    field_simp
  have hdiv : ((2 ^ k : ℕ) : ℚ) = m * (2 ^ k / m : ℕ) + (2 ^ k % m : ℕ) := by exact_mod_cast (Nat.div_add_mod (2 ^ k) m).symm
  have hmod : ((2 ^ k % m : ℕ) : ℚ) < m := by exact_mod_cast Nat.mod_lt _ (Nat.pos_of_ne_zero hm)
  rw [hval]
  refine alike_sticky ?_
  by_cases h : 2 ^ k % m = 0
  · rw [h, Nat.cast_zero, add_zero] at hdiv
    rw [if_neg (by simp [h]), hdiv, mul_div_cancel_left₀ _ hmq.ne']
  · have hpos : (0 : ℚ) < (2 ^ k % m : ℕ) := by exact_mod_cast Nat.pos_of_ne_zero h
    rw [if_pos (decide_eq_true h), lt_div_iff₀ hmq, div_lt_iff₀ hmq]
    constructor <;> linarith

/-- The reciprocal of a lane is rounded once from the exact value. -/
theorem rcp_rounds {a : Lane} (ha : laneFin a = true) (hx : |laneVal a| ≠ 0) :
    b32.Result 0x7F800000 0x7F7FFFFF .rne false (laneNeg a) (1 / |laneVal a|) ((rcpF32 a).1.toNat, (rcpF32 a).2) := by
  obtain ⟨hm, hval⟩ := lane_nonzero ha hx
  rw [rcp_fin (f32_fin ha), if_neg hm, hval, rcpNum_eq]
  generalize b32.sig (laneMag a) = m at hm ⊢
  generalize b32.place (laneMag a) = e
  have hquot : 2 ^ 63 ≤ 2 ^ (Nat.log2 m + 64) / m := by
    rw [Nat.le_div_iff_mul_le (Nat.pos_of_ne_zero hm)]
    calc 2 ^ 63 * m ≤ 2 ^ 63 * 2 ^ (Nat.log2 m + 1) := Nat.mul_le_mul_left _ Nat.lt_log2_self.le
      _ = 2 ^ (Nat.log2 m + 64) := by rw [← pow_add]; congr 1; omega
  have halike := alike_rcp hm e (Nat.log2 m + 64)
  have hlarge : 2 ^ 26 ≤ 2 ^ (Nat.log2 m + 64) / m * 2 + (decide (2 ^ (Nat.log2 m + 64) % m ≠ 0)).toNat := by omega
  dsimp only
  generalize 2 ^ (Nat.log2 m + 64) / m * 2 + (decide (2 ^ (Nat.log2 m + 64) % m ≠ 0)).toNat = n at *
  have hlog : 26 ≤ Nat.log2 n := (Nat.le_log2 (by omega)).2 hlarge
  have hf : (b32.f : ℤ) = 23 := rfl
  exact toF32_result (round_result layout32 .rne false _ (by omega) _ (halike.mono (by rw [expOf, hf]; omega)))

/-! VEXP2. -/

theorem exp2_fin {a : Lane} {n : Bool} {m : ℕ} {e : ℤ} (h : f32 a = .fin n m e) : exp2F32 a = toF32 .rne false (exp2Num n m e) := by
  rw [exp2F32, h]

theorem exp2Num_zero (n : Bool) (e : ℤ) : exp2Num n 0 e = .fin false 1 0 := if_pos rfl

/-- Two to a whole power is that power, exactly. -/
theorem exp2Num_int {n : Bool} {m : ℕ} {e k : ℤ} (hm : m ≠ 0) (he : -240 ≤ e) (hexp : expOf m e < 8) (hk : (Machine.Num.fin n m e).val = k) :
    exp2Num n m e = .fin false 1 k := by
  have hscale : ((if n then -((m * 2 ^ (e + 240).toNat : ℕ) : ℤ) else (m * 2 ^ (e + 240).toNat : ℕ)) : ℤ) = k * (2 ^ 240 : ℕ) := by
    have hpow : (2 : ℚ) ^ (e + 240).toNat = 2 ^ e * 2 ^ 240 := by
      rw [← zpow_natCast, Int.toNat_of_nonneg (by omega), zpow_add₀ two_ne_zero]
      rfl
    refine Int.cast_injective (α := ℚ) ?_
    push_cast
    rw [hpow, ← hk, val_fin]
    cases n
    · rw [if_neg Bool.false_ne_true, if_neg Bool.false_ne_true]
      ring
    · rw [if_pos rfl, if_pos rfl]
      ring
  unfold exp2Num
  rw [if_neg hm, if_neg (not_le.2 hexp)]
  dsimp only
  have hone : ((2 ^ 240 : ℕ) : ℤ) ≠ 0 := by positivity
  rw [hscale, Int.mul_emod_left, Int.mul_ediv_cancel _ hone]
  exact if_pos rfl

/-- The codes of the powers of two of FP32. -/
theorem grid32_pow (j : ℕ) : b32.grid ((j + 1) * 2 ^ 23) = 2 ^ ((j : ℤ) - 126) := by
  have h := grid_add (b := b32) (k := j) (n := 2 ^ 23) (by decide) (.inr le_rfl)
  have he : (j : ℤ) + b32.emin - b32.f = j - 126 - 23 := rfl
  rw [he] at h
  rw [Nat.succ_mul]
  refine h.trans ?_
  rw [two_zpow_sub (by omega : (j : ℤ) - 126 - 23 ≤ j - 126), sub_sub_cancel]
  rfl

theorem laneVal_mk {c : ℕ} (hc : c < 0x7F800000) : laneVal (mkLane false c) = b32.grid c := by
  have hn := mkLane_toNat false (by omega : c < 2 ^ 31)
  have hmag : laneMag (mkLane false c) = c := by
    rw [laneMag, hn, Bool.toNat_false, Nat.mul_zero, Nat.zero_add, Nat.mod_eq_of_lt (by omega)]
  have hfin : laneFin (mkLane false c) = true := decide_eq_true (by change laneMag _ < _; rw [hmag]; exact hc)
  rw [laneVal_fin hfin, hmag, laneNeg_mk false (by omega), if_neg Bool.false_ne_true, one_mul]

/-- A power of two that FP32 holds. -/
theorem toF32_pow {k : ℤ} (h1 : -149 ≤ k) (h2 : k ≤ 127) : laneVal (toF32 .rne false (.fin false 1 k)).1 = 2 ^ k ∧ (toF32 .rne false (.fin false 1 k)).2 = 0 := by
  obtain ⟨c, hc⟩ := two_zpow_eq_grid b32 (k := k) h1
  have hle : c ≤ (253 + 1) * 2 ^ 23 := by
    rw [← (grid_strictMono b32).le_iff_le, grid32_pow, ← hc]
    exact zpow_le_zpow_right₀ one_le_two (by norm_num; omega)
  have hround := round_exact layout32 .rne false false one_ne_zero (e := k) (c := c) (by omega) (by rw [Nat.cast_one, one_mul, hc])
  have hlane : toF32 .rne false (.fin false 1 k) = (mkLane false c, 0) := by
    show (BitVec.ofNat 32 (b32.round .rne false (.fin false 1 k)).1, (b32.round .rne false (.fin false 1 k)).2) = _
    rw [hround]
    rfl
  rw [hlane, laneVal_mk (by omega), hc]
  exact ⟨rfl, rfl⟩

theorem exp2_int {a : Lane} (ha : laneFin a = true) {k : ℤ} (hk : laneVal a = k) (h1 : -149 ≤ k) (h2 : k ≤ 127) :
    laneVal (exp2F32 a).1 = 2 ^ k ∧ (exp2F32 a).2 = 0 := by
  have hfin := f32_fin ha
  rw [exp2_fin hfin]
  rw [laneVal, hfin] at hk
  by_cases hm : b32.sig (laneMag a) = 0
  · have hz : (k : ℚ) = 0 := hk.symm.trans ((val_eq_zero_iff _ _ _).2 hm)
    obtain rfl : k = 0 := by exact_mod_cast hz
    rw [hm, exp2Num_zero]
    exact toF32_pow h1 h2
  · have hexp : expOf (b32.sig (laneMag a)) (b32.place (laneMag a)) < 8 := by
      have habs := (sign_val (n := laneNeg a) (e := b32.place (laneMag a)) hm).2
      have hle := (expOf_spec hm (b32.place (laneMag a))).1
      rw [← habs, hk] at hle
      have hbound : |(k : ℚ)| < 2 ^ (8 : ℤ) := by
        have : |k| ≤ 149 := abs_le.2 ⟨h1, by omega⟩
        have hc : |(k : ℚ)| ≤ 149 := by exact_mod_cast this
        exact hc.trans_lt (by norm_num)
      exact (zpow_lt_zpow_iff_right₀ one_lt_two).1 (hle.trans_lt hbound)
    rw [exp2Num_int hm (by have := place32_ge (laneMag a); omega) hexp hk]
    exact toF32_pow h1 h2

end Sys2Proof
end

section
/-! VRSQ of a lane (R429): a whole root and a bit for the rest stand to every multiple of the root's step as the exact reciprocal root does. -/

namespace Sys2Proof

open Machine

/-- The bits of a root found from the greatest down. -/
theorem isqrt_spec (x : ℕ) : ∀ n r, r * r ≤ x → x < (r + 2 ^ n) * (r + 2 ^ n) → isqrt x n r * isqrt x n r ≤ x ∧ x < (isqrt x n r + 1) * (isqrt x n r + 1)
  | 0, _, h, h' => ⟨h, h'⟩
  | n + 1, r, h, h' => by
    rw [isqrt]
    split
    next ht =>
      refine isqrt_spec x n _ ht ?_
      rwa [Nat.add_assoc, ← Nat.two_mul, ← Nat.pow_succ']
    next ht => exact isqrt_spec x n _ h (Nat.lt_of_not_le ht)

/-- A magnitude is an odd or even number times an even power of two, and the model takes the whole root of 2^128 over that number. -/
theorem rsqNum_spec {m : ℕ} (hm : m ≠ 0) (hlt : m < 2 ^ 24) (e : ℤ) : ∃ (M r : ℕ) (h : ℤ), M ≠ 0 ∧ M < 2 ^ 25 ∧ 2 * h ≤ e ∧ e ≤ 2 * h + 1
    ∧ (m : ℚ) * 2 ^ e = M * (2 ^ h) ^ 2 ∧ r * r * M ≤ 2 ^ 128 ∧ 2 ^ 128 < (r + 1) * (r + 1) * M
    ∧ rsqNum m e = .fin false (r * 2 + (decide (r * r * M ≠ 2 ^ 128)).toNat) (-h - (64 : ℕ) - 1) := by
  have hroot {M : ℕ} (hM : M ≠ 0) :
      isqrt (2 ^ 128 / M) 66 0 * isqrt (2 ^ 128 / M) 66 0 * M ≤ 2 ^ 128
        ∧ 2 ^ 128 < (isqrt (2 ^ 128 / M) 66 0 + 1) * (isqrt (2 ^ 128 / M) 66 0 + 1) * M := by
    have hpos := Nat.pos_of_ne_zero hM
    have hbig : 2 ^ 128 / M < (0 + 2 ^ 66) * (0 + 2 ^ 66) := (Nat.div_le_self _ _).trans_lt (by norm_num)
    obtain ⟨h1, h2⟩ := isqrt_spec (2 ^ 128 / M) 66 0 (Nat.zero_le _) hbig
    exact ⟨(Nat.le_div_iff_mul_le hpos).1 h1, (Nat.div_lt_iff_lt_mul hpos).1 h2⟩
  by_cases he : e % 2 = 0
  · refine ⟨m, isqrt (2 ^ 128 / m) 66 0, e / 2, hm, by omega, by omega, by omega, ?_, (hroot hm).1, (hroot hm).2, ?_⟩
    · rw [← zpow_natCast, ← zpow_mul, Nat.cast_ofNat, Int.ediv_mul_cancel (Int.dvd_of_emod_eq_zero he)]
    · unfold rsqNum
      rw [if_pos he, if_pos he]
  · have hm2 : 2 * m ≠ 0 := by omega
    refine ⟨2 * m, isqrt (2 ^ 128 / (2 * m)) 66 0, (e - 1) / 2, hm2, by omega, by omega, by omega, ?_, (hroot hm2).1, (hroot hm2).2, ?_⟩
    · have hpow : (2 : ℚ) ^ e = 2 * 2 ^ (e - 1) := by rw [mul_comm, ← zpow_add_one₀ two_ne_zero, sub_add_cancel]
      rw [← zpow_natCast, ← zpow_mul, Nat.cast_ofNat, Int.ediv_mul_cancel (by omega), hpow]
      push_cast
      ring
    · unfold rsqNum
      rw [if_neg he, if_neg he]

section
variable {M r : ℕ} (hM : M ≠ 0) (hle : r * r * M ≤ 2 ^ 128) (hlt : 2 ^ 128 < (r + 1) * (r + 1) * M) (j : ℕ)
include hM hle hlt

theorem root_lt_iff : j * j * M < 2 ^ 128 ↔ 2 * j < r * 2 + (decide (r * r * M ≠ 2 ^ 128)).toNat := by
  rcases lt_trichotomy j r with h | rfl | h
  · exact iff_of_true ((Nat.mul_lt_mul_of_pos_right (Nat.mul_self_lt_mul_self h) (Nat.pos_of_ne_zero hM)).trans_le hle) (by omega)
  · by_cases hd : j * j * M = 2 ^ 128
    · rw [hd, decide_eq_false (not_not.2 rfl), Bool.toNat_false]
      exact iff_of_false (lt_irrefl _) (by omega)
    · rw [decide_eq_true hd, Bool.toNat_true]
      exact iff_of_true (hle.lt_of_ne hd) (by omega)
  · have hj : (r + 1) * (r + 1) * M ≤ j * j * M := Nat.mul_le_mul_right _ (Nat.mul_self_le_mul_self h)
    exact iff_of_false (by omega) (by have := Bool.toNat_le (decide (r * r * M ≠ 2 ^ 128)); omega)

omit hM in
theorem root_gt_iff : 2 ^ 128 < j * j * M ↔ r * 2 + (decide (r * r * M ≠ 2 ^ 128)).toNat < 2 * j := by
  rcases le_or_gt j r with h | h
  · have hj : j * j * M ≤ r * r * M := Nat.mul_le_mul_right _ (Nat.mul_self_le_mul_self h)
    exact iff_of_false (by omega) (by omega)
  · have hj : (r + 1) * (r + 1) * M ≤ j * j * M := Nat.mul_le_mul_right _ (Nat.mul_self_le_mul_self h)
    exact iff_of_true (by omega) (by have := Bool.toNat_le (decide (r * r * M ≠ 2 ^ 128)); omega)

/-- The root is at least 2^51 and at most 2^64. -/
theorem root_range (hM25 : M < 2 ^ 25) : 2 ^ 51 ≤ r ∧ r ≤ 2 ^ 64 := by
  constructor
  · by_contra h
    have : (r + 1) * (r + 1) * M ≤ 2 ^ 51 * 2 ^ 51 * 2 ^ 25 := Nat.mul_le_mul (Nat.mul_self_le_mul_self (by omega)) hM25.le
    omega
  · by_contra h
    have : (2 ^ 64 + 1) * (2 ^ 64 + 1) * 1 ≤ r * r * M := Nat.mul_le_mul (Nat.mul_self_le_mul_self (by omega)) (Nat.pos_of_ne_zero hM)
    omega

end

/-- Codes near a magnitude are even multiples of a step far below it. -/
theorem grid32_step {c : ℕ} {E : ℤ} (h : E ≤ b32.place c) : ∃ n : ℕ, b32.grid c = ((2 * n : ℕ) : ℚ) * 2 ^ (E - 1) := by
  refine ⟨b32.sig c * 2 ^ (b32.place c - E).toNat, ?_⟩
  have hw : (2 : ℚ) ^ E = 2 * 2 ^ (E - 1) := by rw [mul_comm, ← zpow_add_one₀ two_ne_zero, sub_add_cancel]
  rw [BinFmt.grid, two_zpow_sub h, hw]
  push_cast
  ring

theorem grid32_lt (c : ℕ) : b32.grid c < 2 ^ (24 + b32.place c) := by
  rw [BinFmt.grid, zpow_add₀ two_ne_zero]
  exact mul_lt_mul_of_pos_right (by exact_mod_cast sig32_lt c) (zpow_two_pos _)

/-- The place falls by at most one from a code to the one before. -/
theorem place32_pred (c : ℕ) : b32.place (c + 1) ≤ b32.place c + 1 := by
  have h (c : ℕ) : b32.place c = ((c / 2 ^ 23 - 1 : ℕ) : ℤ) + (-126) - 23 := rfl
  have hdiv : (c + 1) / 2 ^ 23 ≤ c / 2 ^ 23 + 1 := by omega
  rw [h, h]
  omega

/-- What is nearest lies no further than half way to its neighbours. -/
theorem half_way {lo c : ℚ} {x : ℚ} (h : lo < c) : |c - x| ≤ |lo - x| ↔ (lo + c) / 2 ≤ x := by
  have hfactor : (lo - x) ^ 2 - (c - x) ^ 2 = (c - lo) * (2 * x - (lo + c)) := by ring
  rw [← sq_le_sq, ← sub_nonneg, hfactor, mul_nonneg_iff_of_pos_left (sub_pos.2 h)]
  constructor <;> intro _ <;> linarith

theorem half_way' {c hi : ℚ} {x : ℚ} (h : c < hi) : |c - x| ≤ |hi - x| ↔ x ≤ (c + hi) / 2 := by
  have hfactor : (hi - x) ^ 2 - (c - x) ^ 2 = (hi - c) * (c + hi - 2 * x) := by ring
  rw [← sq_le_sq, ← sub_nonneg, hfactor, mul_nonneg_iff_of_pos_left (sub_pos.2 h)]
  constructor <;> intro _ <;> linarith

section
variable {M r : ℕ} {h : ℤ} (hM : M ≠ 0) (hle : r * r * M ≤ 2 ^ 128) (hlt : 2 ^ 128 < (r + 1) * (r + 1) * M)

/-- The whole root and its last bit, as the model holds them. -/
def rootMag (M r : ℕ) (h : ℤ) : ℚ := ((r * 2 + (decide (r * r * M ≠ 2 ^ 128)).toNat : ℕ) : ℚ) * 2 ^ (-h - (64 : ℕ) - 1)

theorem root_step_sq (j M : ℕ) (h : ℤ) : ((j : ℚ) * 2 ^ (-h - (64 : ℕ))) ^ 2 * (M * (2 ^ h) ^ 2) = (j * j * M : ℕ) / (2 ^ 128 : ℕ) := by
  rw [sub_eq_add_neg, zpow_add₀ two_ne_zero, zpow_neg, zpow_neg, zpow_natCast]
  have := (zpow_two_pos h).ne'
  push_cast
  field_simp
  ring

theorem rootMag_step (M r : ℕ) (h : ℤ) : rootMag M r h = ((r * 2 + (decide (r * r * M ≠ 2 ^ 128)).toNat : ℕ) : ℚ) / 2 * 2 ^ (-h - (64 : ℕ)) := by
  have hw : (2 : ℚ) ^ (-h - (64 : ℕ)) = 2 ^ (-h - (64 : ℕ) - 1) * 2 := by rw [← zpow_add_one₀ two_ne_zero, sub_add_cancel]
  rw [rootMag, hw]
  ring

include hM hle hlt

/-- A multiple of the root's step stands to the model's root as its square stands to the reciprocal. -/
theorem rootMag_compare (j : ℕ) :
    (((j : ℚ) * 2 ^ (-h - (64 : ℕ))) ^ 2 * (M * (2 ^ h) ^ 2) < 1 ↔ (j : ℚ) * 2 ^ (-h - (64 : ℕ)) < rootMag M r h)
      ∧ (1 < ((j : ℚ) * 2 ^ (-h - (64 : ℕ))) ^ 2 * (M * (2 ^ h) ^ 2) ↔ rootMag M r h < (j : ℚ) * 2 ^ (-h - (64 : ℕ))) := by
  have hone : (0 : ℚ) < (2 ^ 128 : ℕ) := by norm_num
  have hw := zpow_two_pos (-h - (64 : ℕ))
  rw [root_step_sq, rootMag_step, mul_lt_mul_iff_left₀ hw, mul_lt_mul_iff_left₀ hw, div_lt_one hone, one_lt_div hone, Nat.cast_lt, Nat.cast_lt,
    root_lt_iff hM hle hlt, root_gt_iff hle hlt, lt_div_iff₀ two_pos, div_lt_iff₀ two_pos]
  rw [← Nat.cast_two (R := ℚ), ← Nat.cast_mul, Nat.cast_lt, Nat.cast_lt, Nat.mul_comm j 2]
  exact ⟨Iff.rfl, Iff.rfl⟩

/-- The root of a lane's magnitude is in the middle of the range of FP32. -/
theorem rootMag_range (hM25 : M < 2 ^ 25) (hh : -75 ≤ h) (hh' : h ≤ 52) :
    (2 : ℚ) ^ (51 - h - (64 : ℕ)) ≤ rootMag M r h ∧ (2 : ℚ) ^ (-65 : ℤ) ≤ rootMag M r h ∧ rootMag M r h < 2 ^ (77 : ℤ) := by
  obtain ⟨h1, h2⟩ := root_range hM hle hlt hM25
  have hw := zpow_two_pos (-h - (64 : ℕ))
  have hbit := Bool.toNat_le (decide (r * r * M ≠ 2 ^ 128))
  have hlow : (2 : ℚ) ^ (51 - h - (64 : ℕ)) ≤ rootMag M r h := by
    have hr : ((2 ^ 51 : ℕ) : ℚ) ≤ ((r * 2 + (decide (r * r * M ≠ 2 ^ 128)).toNat : ℕ) : ℚ) / 2 := by
      rw [le_div_iff₀ two_pos]
      exact_mod_cast (by omega : 2 ^ 51 * 2 ≤ r * 2 + (decide (r * r * M ≠ 2 ^ 128)).toNat)
    rw [rootMag_step, two_zpow_sub (by omega : -h - (64 : ℕ) ≤ 51 - h - (64 : ℕ))]
    refine mul_le_mul_of_nonneg_right (le_trans (le_of_eq ?_) hr) hw.le
    congr 2
    omega
  refine ⟨hlow, (zpow_le_zpow_right₀ one_le_two (by omega)).trans hlow, ?_⟩
  calc rootMag M r h < (2 ^ 65 : ℕ) * 2 ^ (-h - (64 : ℕ)) := by
        rw [rootMag_step]
        refine mul_lt_mul_of_pos_right ?_ hw
        rw [div_lt_iff₀ two_pos]
        exact_mod_cast (by omega : r * 2 + (decide (r * r * M ≠ 2 ^ 128)).toNat < 2 ^ 65 * 2)
    _ = (2 : ℚ) ^ (65 + (-h - (64 : ℕ))) := by
        rw [zpow_add₀ two_ne_zero]
        norm_num
    _ ≤ 2 ^ (77 : ℤ) := zpow_le_zpow_right₀ one_le_two (by omega)

end

/-- Half way between two codes that are even multiples of the root's step the model's root never lies. -/
theorem rootMag_not_half {M r : ℕ} {h : ℤ} (hlow : (2 : ℚ) ^ (-65 : ℤ) ≤ rootMag M r h) {c n n' : ℕ}
    (hc : b32.grid c = ((2 * n : ℕ) : ℚ) * 2 ^ (-h - (64 : ℕ))) (hc' : b32.grid (c + 1) = ((2 * n' : ℕ) : ℚ) * 2 ^ (-h - (64 : ℕ))) :
    (b32.grid c + b32.grid (c + 1)) / 2 ≠ rootMag M r h := by
  by_cases hd : r * r * M = 2 ^ 128
  · obtain ⟨i, -, hi⟩ := (Nat.dvd_prime_pow Nat.prime_two).1 (⟨r * M, by rw [← hd, Nat.mul_assoc]⟩ : r ∣ 2 ^ 128)
    have hmag : rootMag M r h = 2 ^ ((i : ℤ) + (-h - (64 : ℕ))) := by
      rw [rootMag_step, hd, decide_eq_false (not_not.2 rfl), Bool.toNat_false, Nat.add_zero, hi, zpow_add₀ two_ne_zero, zpow_natCast]
      push_cast
      ring
    rw [hmag, zpow_le_zpow_iff_right₀ one_lt_two] at hlow
    obtain ⟨j, hj⟩ := two_zpow_eq_grid b32 (k := (i : ℤ) + (-h - (64 : ℕ))) (by have : b32.emin - b32.f = -149 := rfl; omega)
    have hmono := grid_strictMono b32
    rw [hmag, hj]
    intro hmid
    have h0 := hmono (Nat.lt_succ_self c)
    have h1 : c < j := hmono.lt_iff_lt.1 (by linarith)
    have h2 : j < c + 1 := hmono.lt_iff_lt.1 (by linarith)
    omega
  · rw [hc, hc', rootMag_step, decide_eq_true hd, Bool.toNat_true, ← add_mul, mul_div_right_comm]
    intro hmid
    have hcast := mul_right_cancel₀ (zpow_two_pos (-h - (64 : ℕ))).ne' hmid
    have : 2 * n + 2 * n' = r * 2 + 1 := by
      have h2 : ((2 * n + 2 * n' : ℕ) : ℚ) = (r * 2 + 1 : ℕ) := by
        rw [Nat.cast_add]
        linarith
      exact_mod_cast h2
    omega

theorem only_inx_zero {f : BitVec 5} (h : f &&& ~~~(fInx ||| fUnf) = 0) (hu : f &&& fUnf = 0) (hi : f &&& fInx = 0) : f = 0 := by
  revert f
  decide

theorem only_inx_one {f : BitVec 5} (h : f &&& ~~~(fInx ||| fUnf) = 0) (hu : f &&& fUnf = 0) (hi : f &&& fInx ≠ 0) : f = fInx := by
  revert f
  decide

theorem rsq_fin {a : Lane} {n : Bool} {m : ℕ} {e : ℤ} (h : f32 a = .fin n m e) (hm : m ≠ 0) (hn : n = false) :
    rsqF32 a = toF32 .rne false (rsqNum m e) := by
  rw [rsqF32, h, hn]
  dsimp only
  rw [if_neg hm, if_neg Bool.false_ne_true]

theorem place32_le {a : Lane} (ha : laneFin a = true) : b32.place (laneMag a) ≤ 104 := by
  have h : b32.place (laneMag a) = ((laneMag a / 2 ^ 23 - 1 : ℕ) : ℤ) + (-126) - 23 := rfl
  have hlt : laneMag a < 0x7F800000 := of_decide_eq_true ha
  omega

/-- The nearest of the finite codes of FP32 lies no further than half way to its neighbours. -/
theorem nearest_between {x : ℚ} {c : ℕ} (hc : c ≤ 0x7F7FFFFF) (h : NearestEven b32.mag 0 0x7F7FFFFF x c) :
    (0 < c → (b32.grid (c - 1) + b32.grid c) / 2 ≤ x) ∧ (c < 0x7F7FFFFF → x ≤ (b32.grid c + b32.grid (c + 1)) / 2) := by
  have hle (d : ℕ) (hd : d ≤ 0x7F7FFFFF) : |b32.grid c - x| ≤ |b32.grid d - x| := by
    rw [← mag_eq_grid layout32 hc, ← mag_eq_grid layout32 hd]
    exact (h d (Nat.zero_le _) hd).elim le_of_lt fun h => h.1.le
  have hmono := grid_strictMono b32
  exact ⟨fun h0 => (half_way (hmono (by omega))).1 (hle (c - 1) (by omega)), fun h1 => (half_way' (hmono (Nat.lt_succ_self c))).1 (hle (c + 1) h1)⟩

/-- A magnitude in the middle of the range of FP32 rounds to a code with codes on both sides. -/
theorem mid_range_rounds {x : ℚ} {r : ℕ × BitVec 5} (hlow : (2 : ℚ) ^ (-65 : ℤ) ≤ x) (hhigh : x < 2 ^ (77 : ℤ))
    (hr : b32.Result 0x7F800000 0x7F7FFFFF .rne false false x r) :
    0 < r.1 ∧ r.1 < 0x7F7FFFFF ∧ (b32.grid (r.1 - 1) + b32.grid r.1) / 2 ≤ x ∧ x ≤ (b32.grid r.1 + b32.grid (r.1 + 1)) / 2
      ∧ r.2 = if b32.grid r.1 = x then 0 else fInx := by
  have hmono := grid_strictMono b32
  have htop : (2 : ℚ) ^ (77 : ℤ) ≤ b32.grid 0x7F7FFFFE := (grid32_pow 203).symm.le.trans (hmono.monotone (by norm_num))
  have hstep := hmono (by norm_num : 0x7F7FFFFE < 0x7F7FFFFF)
  have hulp : b32.mag 0x7F7FFFFF - b32.mag (0x7F7FFFFF - 1) = b32.grid 0x7F7FFFFF - b32.grid 0x7F7FFFFE := by
    rw [mag_eq_grid layout32 le_rfl, mag_eq_grid layout32 (by norm_num)]
  have hleast : (2 : ℚ) ^ (-65 : ℤ) ≥ b32.grid (2 ^ 23) := by
    have h := grid32_pow 0
    rw [Nat.zero_add, Nat.one_mul] at h
    rw [h]
    exact zpow_le_zpow_right₀ one_le_two (by norm_num)
  have hone : b32.grid 1 < b32.grid (2 ^ 23) := hmono (by norm_num)
  have hzero : b32.grid 0 < b32.grid 1 := hmono (by norm_num)
  obtain ⟨c, hc, hround, hcode, hflags, hinx, hunf⟩ := hr.2 (by
    rintro (h | ⟨h, -⟩) <;> rw [hulp, mag_eq_grid layout32 le_rfl] at h <;> linarith)
  have htiny : ¬ b32.Tiny .rne false x := by
    rintro ⟨h, -⟩
    rw [mag_eq_grid layout32 (by decide)] at h
    exact absurd (hleast.le.trans hlow) (not_le.2 h)
  obtain rfl : r.1 = c := hcode.trans (by rw [Bool.toNat_false, Nat.mul_zero, Nat.zero_add])
  obtain ⟨hbelow, habove⟩ := nearest_between hc hround
  have hpos : 0 < r.1 := by
    by_contra h0
    have hz : r.1 = 0 := by omega
    have := habove (by omega)
    rw [hz] at this
    linarith
  have hlt : r.1 < 0x7F7FFFFF := by
    refine lt_of_le_of_ne hc fun heq => ?_
    have := hbelow hpos
    rw [heq] at this
    have hstep' : b32.grid (0x7F7FFFFF - 1) = b32.grid 0x7F7FFFFE := rfl
    rw [hstep'] at this
    linarith
  refine ⟨hpos, hlt, hbelow hpos, habove hlt, ?_⟩
  rw [mag_eq_grid layout32 hc] at hinx hunf
  have hno : r.2 &&& fUnf = 0 := not_not.1 fun h => htiny (hunf.1 h).2
  split
  next h => exact only_inx_zero hflags hno (not_not.1 fun k => hinx.1 k h)
  next h => exact only_inx_one hflags hno (hinx.2 h)

/-- The reciprocal root of a positive lane is the code nearest to it, which no finite lane misses by half a step (R429). -/
theorem rsq_rounds {a : Lane} (ha : laneFin a = true) (hx : |laneVal a| ≠ 0) (hpos : laneNeg a = false) :
    let c := (rsqF32 a).1.toNat
    0 < c ∧ c < 0x7F800000 ∧ ((b32.mag (c - 1) + b32.mag c) / 2) ^ 2 * |laneVal a| < 1 ∧ 1 < ((b32.mag c + b32.mag (c + 1)) / 2) ^ 2 * |laneVal a|
      ∧ (rsqF32 a).2 = if b32.mag c ^ 2 * |laneVal a| = 1 then 0 else fInx := by
  obtain ⟨hm, hval⟩ := lane_nonzero ha hx
  have hplace := place32_ge (laneMag a)
  have hplace' := place32_le ha
  obtain ⟨M, r, h, hM, hM25, hh, hh', hx, hle, hlt, hrsq⟩ := rsqNum_spec hm (sig32_lt _) (b32.place (laneMag a))
  obtain ⟨hgap, hlow, hhigh⟩ := rootMag_range (h := h) hM hle hlt hM25 (by omega) (by omega)
  have hn : r * 2 + (decide (r * r * M ≠ 2 ^ 128)).toNat ≠ 0 := by have := (root_range hM hle hlt hM25).1; omega
  have hres := toF32_result (round_result layout32 .rne false false hn (-h - (64 : ℕ) - 1) (Alike.refl _ _))
  rw [← rootMag, ← hrsq, ← rsq_fin (f32_fin ha) hm hpos] at hres
  obtain ⟨h0, htop, hbelow, habove, hflags⟩ := mid_range_rounds hlow hhigh hres
  rw [hval, hx]
  dsimp only at *
  generalize (rsqF32 a).1.toNat = c at *
  obtain ⟨p, rfl⟩ : ∃ p, c = p + 1 := ⟨c - 1, by omega⟩
  rw [Nat.add_sub_cancel] at hbelow ⊢
  have hnear : 51 - h - (64 : ℕ) < 24 + b32.place (p + 1 + 1) := by
    rw [← zpow_lt_zpow_iff_right₀ (one_lt_two (α := ℚ))]
    have := grid_strictMono b32 (Nat.lt_succ_self (p + 1))
    exact (hgap.trans (habove.trans (by linarith))).trans_lt (grid32_lt (p + 1 + 1))
  have hp := place32_pred p
  have hp' := place32_pred (p + 1)
  obtain ⟨n0, hn0⟩ := grid32_step (c := p) (E := -h - (64 : ℕ) + 1) (by omega)
  obtain ⟨n1, hn1⟩ := grid32_step (c := p + 1) (E := -h - (64 : ℕ) + 1) (by omega)
  obtain ⟨n2, hn2⟩ := grid32_step (c := p + 1 + 1) (E := -h - (64 : ℕ) + 1) (by omega)
  rw [add_sub_cancel_right] at hn0 hn1 hn2
  have hhalf (i j : ℕ) : (((2 * i : ℕ) : ℚ) * 2 ^ (-h - (64 : ℕ)) + ((2 * j : ℕ) : ℚ) * 2 ^ (-h - (64 : ℕ))) / 2 = ((i + j : ℕ) : ℚ) * 2 ^ (-h - (64 : ℕ)) := by
    push_cast
    ring
  have hbelow' := lt_of_le_of_ne hbelow (rootMag_not_half hlow hn0 hn1)
  have habove' := lt_of_le_of_ne habove (rootMag_not_half hlow hn1 hn2).symm
  rw [mag_eq_grid layout32 (by omega : p ≤ 0x7F7FFFFF), mag_eq_grid layout32 (by omega : p + 1 ≤ 0x7F7FFFFF),
    mag_eq_grid layout32 (by omega : p + 1 + 1 ≤ 0x7F7FFFFF)]
  refine ⟨h0, by omega, ?_, ?_, ?_⟩
  · rw [hn0, hn1, hhalf] at hbelow' ⊢
    exact (rootMag_compare hM hle hlt _).1.2 hbelow'
  · rw [hn1, hn2, hhalf] at habove' ⊢
    exact (rootMag_compare hM hle hlt _).2.2 habove'
  · obtain ⟨hcmp, hcmp'⟩ := rootMag_compare hM hle hlt (h := h) (2 * n1)
    rw [hflags, hn1]
    refine if_congr ?_ rfl rfl
    rw [le_antisymm_iff, le_antisymm_iff (b := (1 : ℚ)), ← not_lt, ← not_lt, ← not_lt, ← not_lt, hcmp, hcmp']

end Sys2Proof
end

section
/-! The lane-wise functions of R429 with their rows for zeros, infinities and NaN; the pairwise tree of a reduction (R174). -/

namespace Sys2Proof

open Machine

theorem signOf_or_inf (a : Lane) : signOf a ||| 0x7F800000 = mkLane (laneNeg a) 0x7F800000 := by
  rw [signOf_eq]
  cases laneNeg a <;> rfl

/-- What the functions give at a zero. -/
theorem zero_rows {a : Lane} (ha : laneFin a = true) (hx : |laneVal a| = 0) :
    rcpF32 a = (signOf a ||| 0x7F800000, 0) ∧ rsqF32 a = (signOf a ||| 0x7F800000, 0) ∧ exp2F32 a = (0x3F800000, 0) := by
  have hfin := f32_fin ha
  rw [lane_zero ha hx] at hfin
  refine ⟨?_, ?_, ?_⟩
  · rw [rcp_fin hfin, if_pos rfl, toF32_inf, signOf_or_inf]
  · rw [rsqF32, hfin, signOf_or_inf]
    exact toF32_inf ..
  · rw [exp2_fin hfin, exp2Num_zero]
    rfl

/-- What the functions give at an infinity. -/
theorem inf_rows {a : Lane} (ha : laneInf a = true) :
    rcpF32 a = (signOf a, 0) ∧ rsqF32 a = (if laneNeg a then (0x7FC00000, fInv) else (0, 0))
      ∧ exp2F32 a = (if laneNeg a then 0 else 0x7F800000, 0) := by
  rw [rcpF32, rsqF32, exp2F32, f32_inf ha, signOf_eq]
  cases laneNeg a <;> exact ⟨rfl, rfl, rfl⟩

/-- What the functions give at a NaN. -/
theorem function_nan_rows {a : Lane} (ha : laneNan a = true) : ∀ f ∈ [rcpF32, rsqF32, exp2F32], f a = (0x7FC00000, if laneSig a then fInv else 0) := by
  have hnan := f32_nan ha
  intro f hf
  rcases List.mem_cons.1 hf with rfl | hf
  · rw [rcpF32, hnan]
    rfl
  · rcases List.mem_cons.1 hf with rfl | hf
    · rw [rsqF32, hnan]
      rfl
    · obtain rfl := List.mem_singleton.1 hf
      rw [exp2F32, hnan]
      rfl

theorem rsq_negative {a : Lane} (ha : laneFin a = true) (hx : |laneVal a| ≠ 0) (hn : laneNeg a = true) : rsqF32 a = (0x7FC00000, fInv) := by
  rw [rsqF32, f32_fin ha, hn]
  dsimp only
  rw [if_neg (lane_nonzero ha hx).1, if_pos rfl]
  rfl

/-- The reciprocal, reciprocal root and power of two of a lane (R429). -/
theorem lane_functions : ∀ a : Lane,
    let x := |laneVal a|
    let b : BinFmt := ⟨23, 8, 127, .ieee⟩
    (laneFin a = true → x ≠ 0 → b.Result 0x7F800000 0x7F7FFFFF .rne false (a.getLsbD 31) (1 / x) ((rcpF32 a).1.toNat, (rcpF32 a).2))
    ∧ (laneFin a = true → x = 0 → rcpF32 a = (signOf a ||| 0x7F800000, 0) ∧ rsqF32 a = (signOf a ||| 0x7F800000, 0) ∧ exp2F32 a = (0x3F800000, 0))
    ∧ (laneInf a = true → rcpF32 a = (signOf a, 0) ∧ rsqF32 a = (if a.getLsbD 31 then (0x7FC00000, fInv) else (0, 0))
      ∧ exp2F32 a = (if a.getLsbD 31 then 0 else 0x7F800000, 0))
    ∧ (laneNan a = true → ∀ f ∈ [rcpF32, rsqF32, exp2F32], f a = (0x7FC00000, if laneSig a then fInv else 0))
    ∧ (laneFin a = true → x ≠ 0 → a.getLsbD 31 = true → rsqF32 a = (0x7FC00000, fInv))
    ∧ (laneFin a = true → x ≠ 0 → a.getLsbD 31 = false →
      let c := (rsqF32 a).1.toNat
      0 < c ∧ c < 0x7F800000 ∧ ((b.mag (c - 1) + b.mag c) / 2) ^ 2 * x < 1 ∧ 1 < ((b.mag c + b.mag (c + 1)) / 2) ^ 2 * x
        ∧ (rsqF32 a).2 = if b.mag c ^ 2 * x = 1 then 0 else fInx)
    ∧ (∀ k : Int, laneFin a = true → laneVal a = k → -149 ≤ k → k ≤ 127 → laneVal (exp2F32 a).1 = 2 ^ k ∧ (exp2F32 a).2 = 0) := by
  intro a x b
  exact ⟨fun ha hx => rcp_rounds ha hx, zero_rows, inf_rows, function_nan_rows, rsq_negative, rsq_rounds, fun k ha => exp2_int ha⟩

/-! The pairwise tree. -/

theorem flags_or_zero (f : BitVec 5) : f ||| 0 = f := BitVec.or_zero ..

/-- A level joins the levels of two parts where the first has an even number of lanes. -/
theorem treeLevel_append (node : Lane → Lane → Lane × BitVec 5) (r : List Lane) : ∀ l : List Lane, l.length % 2 = 0 →
    treeLevel node (l ++ r) = ((treeLevel node l).1 ++ (treeLevel node r).1, (treeLevel node l).2 ||| (treeLevel node r).2)
  | [], _ => Prod.ext rfl (zero_or_flags _).symm
  | [_], h => by cases h
  | a :: b :: l, h => by
    have ih := treeLevel_append node r l (by simp only [List.length_cons] at h; omega)
    show (_ :: (treeLevel node (l ++ r)).1, _ ||| (treeLevel node (l ++ r)).2) = (_ :: (_ ++ _), (_ ||| _) ||| _)
    rw [ih, BitVec.or_assoc]

theorem treeLevel_length (node : Lane → Lane → Lane × BitVec 5) : ∀ l : List Lane, l.length % 2 = 0 → (treeLevel node l).1.length = l.length / 2
  | [], _ => rfl
  | [_], h => by cases h
  | a :: b :: l, h => by
    simp only [List.length_cons] at h
    have ih := treeLevel_length node l (by omega)
    show (treeLevel node l).1.length + 1 = (l.length + 1 + 1) / 2
    omega

/-- A tree of one level more over two halves joins their trees at its root. -/
theorem treeSum_halves (node : Lane → Lane → Lane × BitVec 5) : ∀ (n : ℕ) (l r : List Lane) (x y : Lane), l.length = 2 ^ n → r.length = 2 ^ n →
    (treeSum node n l).1 = [x] → (treeSum node n r).1 = [y] →
      treeSum node (n + 1) (l ++ r) = ([(node x y).1], (treeSum node n l).2 ||| (treeSum node n r).2 ||| (node x y).2)
  | 0, l, r, x, y, _, _, hx, hy => by
    obtain rfl : l = [x] := hx
    obtain rfl : r = [y] := hy
    show ([(node x y).1], ((node x y).2 ||| 0) ||| 0) = ([(node x y).1], (0 ||| 0) ||| (node x y).2)
    rw [zero_or_flags, zero_or_flags, flags_or_zero, flags_or_zero]
  | n + 1, l, r, x, y, hl, hr, hx, hy => by
    have heven (l : List Lane) (h : l.length = 2 ^ (n + 1)) : l.length % 2 = 0 ∧ (treeLevel node l).1.length = 2 ^ n := by
      have hpow : 2 ^ (n + 1) = 2 * 2 ^ n := Nat.pow_succ'
      exact ⟨by omega, by rw [treeLevel_length node l (by omega)]; omega⟩
    have ih := treeSum_halves node n _ _ x y (heven l hl).2 (heven r hr).2 hx hy
    rw [treeSum, treeLevel_append node r l (heven l hl).1]
    dsimp only
    rw [ih, treeSum, treeSum]
    dsimp only
    congr 1
    ac_rfl

end Sys2Proof
end

section
/-! The quantised block (R175). -/

namespace Sys2Proof

open Machine

/-! What a value rounds to, to the nearest. -/

theorem abs_fin (n : Bool) (m : ℕ) (e : ℤ) : |(Machine.Num.fin n m e).val| = m * 2 ^ e := by
  have h : (0 : ℚ) ≤ m * 2 ^ e := mul_nonneg (Nat.cast_nonneg _) (zpow_two_pos e).le
  rw [val_fin]
  cases n
  · rw [if_neg Bool.false_ne_true, one_mul, abs_of_nonneg h]
  · rw [if_pos rfl, neg_one_mul, abs_neg, abs_of_nonneg h]

section
variable {f : Fmt} {b : BinFmt} {nan inf top : ℕ} (L : Layout f b nan inf top)
include L

theorem ulp_top_pos : 0 < b.mag top - b.mag (top - 1) := by
  have h := (Nat.two_pow_pos b.f).trans L.normal
  rw [mag_eq_grid L le_rfl, mag_eq_grid L (Nat.sub_le ..), sub_pos]
  exact grid_strictMono b (Nat.sub_lt h Nat.one_pos)

/-- A finite value that rounds to the nearest overflows above the largest code, or takes a nearest code. -/
theorem round_nearest (neg : Bool) (m : ℕ) (k : ℤ) :
    let r := Fmt.round f .rne false (.fin neg m k)
    (b.mag top < m * 2 ^ k ∧ r = (2 ^ (b.f + b.eb) * neg.toNat + inf, fOvf ||| fInx))
      ∨ ∃ c ≤ top, NearestEven b.mag 0 top (m * 2 ^ k) c ∧ r.1 = 2 ^ (b.f + b.eb) * neg.toNat + c ∧ r.2 &&& ~~~(fInx ||| fUnf) = 0
        ∧ (r.2 &&& fInx ≠ 0 ↔ b.mag c ≠ m * 2 ^ k) := by
  intro r
  by_cases hm : m = 0
  · have hr : r = (2 ^ (b.f + b.eb) * neg.toNat, 0) := by
      show Fmt.round f .rne false (.fin neg m k) = _
      rw [hm, L.round]
      rfl
    have hz : b.mag 0 = 0 := by rw [mag_eq_grid L (Nat.zero_le _), grid_zero]
    right
    rw [hm, Nat.cast_zero, zero_mul, hr]
    refine ⟨0, Nat.zero_le _, fun d _ _ => ?_, rfl, by exact BitVec.zero_and, ?_⟩
    · rw [hz, sub_self, abs_zero]
      exact (abs_nonneg _).lt_or_eq.imp_right fun h => ⟨h, .inl rfl⟩
    · rw [hz]
      exact iff_of_false (fun h => h BitVec.zero_and) (fun h => h rfl)
  · have hres := round_result L .rne false neg hm k (Alike.refl _ _)
    rw [← L.round] at hres
    by_cases hover : b.Overflows top .rne neg (m * 2 ^ k)
    · have hulp := ulp_top_pos L
      have hbig : b.mag top < m * 2 ^ k := by rcases hover with h | ⟨h, -⟩ <;> linarith
      refine .inl ⟨hbig, ?_⟩
      obtain ⟨hinf, -, htop⟩ := hres.1 hover
      by_cases hs : b.style = .ieee
      · exact hinf ⟨hs, nofun⟩ rfl
      · have hit := L.infCode
        rw [if_neg hs, L.maxCode] at hit
        rw [← hit]
        exact htop fun h => hs h.1
    · obtain ⟨c, hc, hround, hcode, hflags, hinx, -⟩ := hres.2 hover
      exact .inr ⟨c, hc, hround, hcode, hflags, hinx⟩

/-- Above the largest code the largest is the nearest. -/
theorem nearest_top {x : ℚ} {c : ℕ} (hc : c ≤ top) (h : NearestEven b.mag 0 top x c) (hx : b.mag top < x) : c = top := by
  have hmono := grid_strictMono b
  have hd := h top (Nat.zero_le _) le_rfl
  rw [mag_eq_grid L hc, mag_eq_grid L le_rfl] at hd
  rw [mag_eq_grid L le_rfl] at hx
  have hle := hmono.monotone hc
  have hdist : x - b.grid c ≤ x - b.grid top := by
    rw [← abs_of_nonneg (by linarith : 0 ≤ x - b.grid c), ← abs_of_nonneg (by linarith : 0 ≤ x - b.grid top), abs_sub_comm x, abs_sub_comm x]
    exact hd.elim le_of_lt fun h => h.1.le
  exact le_antisymm hc (hmono.le_iff_le.1 (by linarith))

/-- An element of a block under its scale. -/
theorem quantElem_spec (hbin : Fmt.bin f = some b) (scale : ℕ) (n : Bool) (m : ℕ) (k : ℤ) :
    let y : ℚ := m * 2 ^ (k + (127 - (scale : ℤ)))
    let r := quantElem f scale (.fin n m k)
    ∃ c ≤ top, r.1 = 2 ^ (b.f + b.eb) * n.toNat + c ∧ (b.mag top < y → c = top) ∧ (y ≤ b.mag top → b.Rounds top .rne n y c)
      ∧ (r.2 &&& fInx ≠ 0 ↔ b.mag c ≠ y) ∧ (r.2 &&& fSat ≠ 0 ↔ b.mag top < y) ∧ r.2 &&& (fOvf ||| fInv) = 0 := by
  intro y r
  have hdec := dec_finite L L.below false le_rfl
  rw [Bool.toNat_false, mul_zero, zero_add] at hdec
  have hbig : (magCmp m (k + (127 - (scale : ℤ))) (b.sig top) (b.place top) == .gt) = decide (b.mag top < y) := by
    rw [magCmp_eq, mag_eq_grid L le_rfl]
    exact Bool.eq_iff_iff.2 (beq_iff_eq.trans (compare_gt_iff_gt.trans decide_eq_true_iff.symm))
  have hr : r = (let q := Fmt.round f .rne false (.fin n m (k + (127 - (scale : ℤ))))
      (if b.style = .ieee ∧ q.1 % b.signBit = b.infCode then q.1 - 1 else q.1, (q.2 &&& ~~~fOvf) ||| fIf (decide (b.mag top < y)) fSat)) := by
    show quantElem f scale (.fin n m k) = _
    unfold quantElem
    rw [hbin]
    dsimp only [Num.scale]
    rw [L.maxCode, L.dec top (L.below.trans (Nat.pow_lt_pow_right one_lt_two (Nat.lt_succ_self _))), hdec]
    dsimp only
    rw [hbig]
  rw [hr]
  have hmod {c : ℕ} (hc : c < 2 ^ (b.f + b.eb)) : (2 ^ (b.f + b.eb) * n.toNat + c) % b.signBit = c := by
    rw [BinFmt.signBit, Nat.mul_add_mod, Nat.mod_eq_of_lt hc]
  have hflag {g : BitVec 5} (hg : g &&& ~~~(fInx ||| fUnf) = 0 ∨ g = fOvf ||| fInx) (t : Bool) :
      (((g &&& ~~~fOvf) ||| fIf t fSat) &&& fInx ≠ 0 ↔ g &&& fInx ≠ 0) ∧ (((g &&& ~~~fOvf) ||| fIf t fSat) &&& fSat ≠ 0 ↔ t = true)
        ∧ ((g &&& ~~~fOvf) ||| fIf t fSat) &&& (fOvf ||| fInv) = 0 := by
    revert g t
    decide
  rcases round_nearest L n m (k + (127 - (scale : ℤ))) with ⟨hbig, hq⟩ | ⟨c, hc, hround, hcode, hflags, hinx⟩
  · obtain ⟨h1, h2, h3⟩ := hflag (.inr rfl) (decide (b.mag top < y))
    rw [hq]
    refine ⟨top, le_rfl, ?_, fun _ => rfl, fun h => absurd hbig (not_lt.2 h), h1.trans (iff_of_true (by decide) hbig.ne), h2.trans decide_eq_true_iff, h3⟩
    dsimp only
    rw [hmod L.infBelow]
    by_cases hs : b.style = .ieee
    · have hi := L.infCode
      rw [if_pos hs] at hi
      rw [if_pos ⟨hs, hi.symm⟩, (L.ieee hs).1]
      rfl
    · have hi := L.infCode
      rw [if_neg hs, L.maxCode] at hi
      rw [if_neg fun h => hs h.1, hi]
  · obtain ⟨h1, h2, h3⟩ := hflag (.inl hflags) (decide (b.mag top < y))
    refine ⟨c, hc, ?_, nearest_top L hc hround, fun _ => hround, h1.trans hinx, h2.trans decide_eq_true_iff, h3⟩
    dsimp only
    rw [hcode, hmod (hc.trans_lt L.below), if_neg]
    rintro ⟨hs, h⟩
    have hi := L.infCode
    rw [if_pos hs, (L.ieee hs).1] at hi
    omega

end

/-! The greatest exponent of a block. -/

theorem maxExp_none : ∀ {xs : List Machine.Num}, maxExp xs = none → ∀ x ∈ xs, numExp x = none
  | [], _, _, h => absurd h List.not_mem_nil
  | y :: r, h, x, hx => by
    rw [maxExp] at h
    cases hy : numExp y with
    | some a => cases hr : maxExp r <;> rw [hy, hr] at h <;> cases h
    | none =>
      rw [hy] at h
      rcases List.mem_cons.1 hx with rfl | hx
      · exact hy
      · exact maxExp_none h x hx

theorem maxExp_some : ∀ {xs : List Machine.Num} {a : ℤ}, maxExp xs = some a →
    (∃ x ∈ xs, numExp x = some a) ∧ ∀ x ∈ xs, ∀ c, numExp x = some c → c ≤ a
  | [], _, h => by cases h
  | y :: r, a, h => by
    rw [maxExp] at h
    cases hy : numExp y with
    | none =>
      rw [hy] at h
      obtain ⟨⟨x, hx, ha⟩, hle⟩ := maxExp_some h
      refine ⟨⟨x, List.mem_cons_of_mem _ hx, ha⟩, List.forall_mem_cons.2 ⟨fun c hc => ?_, hle⟩⟩
      rw [hy] at hc
      cases hc
    | some c =>
      cases hr : maxExp r with
      | none =>
        rw [hy, hr] at h
        cases h
        refine ⟨⟨y, List.mem_cons_self, hy⟩, List.forall_mem_cons.2 ⟨fun d hd => ?_, fun x hx d hd => ?_⟩⟩
        · rw [hy] at hd
          cases hd
          exact le_rfl
        · rw [maxExp_none hr x hx] at hd
          cases hd
      | some d =>
        rw [hy, hr] at h
        cases h
        obtain ⟨⟨x, hx, ha⟩, hle⟩ := maxExp_some hr
        refine ⟨?_, List.forall_mem_cons.2 ⟨fun g hg => ?_, fun z hz g hg => (hle z hz g hg).trans (le_max_right ..)⟩⟩
        · rcases le_total c d with h | h
          · exact ⟨x, List.mem_cons_of_mem _ hx, by rw [max_eq_right h, ha]⟩
          · exact ⟨y, List.mem_cons_self, by rw [max_eq_left h, hy]⟩
        · rw [hy] at hg
          cases hg
          exact le_max_left ..

theorem numExp_fin {n : Bool} {m : ℕ} {e : ℤ} (hm : m ≠ 0) : numExp (.fin n m e) = some (expOf m e) := if_neg hm

/-- The exponent of a value brackets its magnitude. -/
theorem numExp_val {x : Machine.Num} {c : ℤ} (h : numExp x = some c) : (2 : ℚ) ^ c ≤ |x.val| ∧ |x.val| < 2 ^ (c + 1) := by
  cases x with
  | nan g => cases h
  | inf n => cases h
  | fin n m e =>
    by_cases hm : m = 0
    · rw [numExp, if_pos hm] at h
      cases h
    · rw [numExp_fin hm] at h
      cases h
      rw [abs_fin]
      exact expOf_spec hm e

theorem exists_numExp {x : Machine.Num} (h : x.val ≠ 0) : ∃ c, numExp x = some c := by
  cases x with
  | nan g => exact absurd rfl h
  | inf n => exact absurd rfl h
  | fin n m e => exact ⟨_, numExp_fin ((val_eq_zero_iff n m e).not.1 h)⟩

/-- The greatest exponent is that of the greatest magnitude. -/
theorem maxExp_eq {xs : List Machine.Num} {p : ℤ} (h : ∃ x ∈ xs, (2 : ℚ) ^ p ≤ |x.val|) (h' : ∀ x ∈ xs, |x.val| < 2 ^ (p + 1)) : maxExp xs = some p := by
  obtain ⟨x, hx, hp⟩ := h
  obtain ⟨c, hc⟩ := exists_numExp (abs_pos.1 ((zpow_two_pos p).trans_le hp))
  cases hm : maxExp xs with
  | none => rw [maxExp_none hm x hx] at hc; cases hc
  | some a =>
    obtain ⟨⟨y, hy, ha⟩, hle⟩ := maxExp_some hm
    have h1 := (zpow_lt_zpow_iff_right₀ (one_lt_two (α := ℚ))).1 ((numExp_val ha).1.trans_lt (h' y hy))
    have h2 := (zpow_lt_zpow_iff_right₀ (one_lt_two (α := ℚ))).1 (hp.trans_lt (numExp_val hc).2)
    have h3 := hle x hx c hc
    congr 1
    omega

/-! The flags of a block. -/

theorem foldl_flags_clear {α : Type} (g : α → BitVec 5) (mask : BitVec 5) : ∀ (l : List α) (z : BitVec 5),
    (l.foldl (fun a q => a ||| g q) z) &&& mask = 0 ↔ z &&& mask = 0 ∧ ∀ q ∈ l, g q &&& mask = 0
  | [], z => by simp
  | q :: l, z => by
    have hor : (z ||| g q) &&& mask = 0 ↔ z &&& mask = 0 ∧ g q &&& mask = 0 := by
      have hsplit : (z ||| g q) &&& mask = (z &&& mask) ||| (g q &&& mask) := by
        ext i
        simp [Bool.and_or_distrib_right]
      rw [hsplit]
      exact BitVec.or_eq_zero_iff
    rw [List.foldl_cons, foldl_flags_clear g mask l, hor, List.forall_mem_cons, and_assoc]

theorem foldl_flags_set {α : Type} (g : α → BitVec 5) (mask : BitVec 5) (l : List α) :
    (l.foldl (fun a q => a ||| g q) 0) &&& mask ≠ 0 ↔ ∃ q ∈ l, g q &&& mask ≠ 0 := by
  rw [ne_eq, foldl_flags_clear, not_and, not_forall]
  exact ⟨fun h => by simpa using h BitVec.zero_and, fun ⟨q, hq, h⟩ _ => ⟨q, fun k => h (k hq)⟩⟩

theorem mem_zip_map {α β : Type} (g : α → β) (l : List α) (z : α × β) : z ∈ l.zip (l.map g) ↔ ∃ x ∈ l, z = (x, g x) := by
  have h : l.zip (l.map g) = l.map fun x => (x, g x) := by
    conv_lhs => rw [← List.map_id l, List.map_map, List.zip_map']
    rfl
  rw [h, List.mem_map]
  exact exists_congr fun x => and_congr_right fun _ => eq_comm

/-! The block as a whole. -/

theorem quantBlock_special (f : Fmt) {xs : List Machine.Num} (h : ∃ x ∈ xs, ¬ ∃ n m k, x = .fin n m k) :
    quantBlock f xs = (0xFF, xs.map fun _ => 0, fInv) := by
  obtain ⟨x, hx, hn⟩ := h
  refine if_pos (List.any_eq_true.2 ⟨x, hx, ?_⟩)
  cases x with
  | fin n m k => exact absurd ⟨n, m, k, rfl⟩ hn
  | inf n => rfl
  | nan g => rfl

theorem quantBlock_zero (f : Fmt) {xs : List Machine.Num} (h : ∀ x ∈ xs, ∃ n k, x = .fin n 0 k) :
    quantBlock f xs = (0x7F, xs.map fun x => (Fmt.round f .rne false x).1, 0) := by
  have hnone : maxExp xs = none := by
    cases hm : maxExp xs with
    | none => rfl
    | some a =>
      obtain ⟨⟨x, hx, ha⟩, -⟩ := maxExp_some hm
      obtain ⟨n, k, rfl⟩ := h x hx
      cases ha
  refine (if_neg fun hany => ?_).trans (by rw [hnone])
  obtain ⟨x, hx, hs⟩ := List.any_eq_true.1 hany
  obtain ⟨n, k, rfl⟩ := h x hx
  cases hs

theorem quantBlock_scaled (f : Fmt) {xs : List Machine.Num} (h : ∀ x ∈ xs, ∃ n m k, x = .fin n m k) {p : ℤ} (hp : maxExp xs = some p) :
    quantBlock f xs = (let s := (min (max (127 + p - qEmax f) 0) 254).toNat
      (s, xs.map (fun x => (quantElem f s x).1), xs.foldl (fun a x => a ||| (quantElem f s x).2) 0)) := by
  refine (if_neg fun hany => ?_).trans ?_
  · obtain ⟨x, hx, hs⟩ := List.any_eq_true.1 hany
    obtain ⟨n, m, k, rfl⟩ := h x hx
    cases hs
  · rw [hp]
    dsimp only
    rw [List.map_map, List.foldl_map]
    rfl

/-- The scale, codes and flags of a quantised block (R175, R434). -/
theorem quantised_block : ∀ e ∈ floatFormats.zip [(2 : Int), 8, 15], ∀ xs : List Machine.Num,
    let b := e.1.2.1
    let top := e.1.2.2.2.2
    let q := quantBlock e.1.1 xs
    let finite (x : Machine.Num) : Prop := ∃ n m k, x = .fin n m k
    ((∃ x ∈ xs, ¬ finite x) → q = (0xFF, xs.map fun _ => 0, fInv))
    ∧ ((∀ x ∈ xs, ∃ n k, x = .fin n 0 k) → q.1 = 0x7F ∧ q.2.2 = 0)
    ∧ ∀ p : Int, (∀ x ∈ xs, finite x) → (∃ x ∈ xs, 2 ^ p ≤ |x.val|) → (∀ x ∈ xs, |x.val| < 2 ^ (p + 1)) →
      let scale : Int := max (min (127 + p - e.2) 254) 0
      let y (x : Machine.Num) : ℚ := |x.val| * 2 ^ (127 - scale)
      (q.1 : Int) = scale ∧ q.2.1.length = xs.length ∧ q.2.2 &&& (fOvf ||| fInv) = 0
      ∧ (q.2.2 &&& fSat ≠ 0 ↔ ∃ x ∈ xs, b.mag top < y x)
      ∧ (∀ z ∈ xs.zip q.2.1, ∃ n m k c, z.1 = .fin n m k ∧ c ≤ top ∧ z.2 = 2 ^ (b.f + b.eb) * n.toNat + c
        ∧ (b.mag top < y z.1 → c = top) ∧ (y z.1 ≤ b.mag top → b.Rounds top .rne n (y z.1) c)
        ∧ (b.mag c ≠ y z.1 → q.2.2 &&& fInx ≠ 0))
      ∧ (q.2.2 &&& fInx ≠ 0 → ∃ z ∈ xs.zip q.2.1, b.mag (z.2 % 2 ^ (b.f + b.eb)) ≠ y z.1) := by
  intro e he xs b top q finite
  have L := layout (List.of_mem_zip (a := e.1) (b := e.2) he).1
  obtain ⟨hbin, hmax⟩ : Fmt.bin e.1.1 = some b ∧ qEmax e.1.1 = e.2 := by
    simp only [floatFormats, List.zip_cons_cons, List.zip_nil_right, List.mem_cons, List.not_mem_nil, or_false] at he
    rcases he with rfl | rfl | rfl <;> exact ⟨rfl, rfl⟩
  refine ⟨quantBlock_special _, fun h => ?_, fun p hfin hex hall => ?_⟩
  · show (quantBlock e.1.1 xs).1 = _ ∧ (quantBlock e.1.1 xs).2.2 = 0
    rw [quantBlock_zero _ h]
    exact ⟨rfl, rfl⟩
  · intro scale y
    have hscale : (((min (max (127 + p - e.2) 0) 254).toNat : ℕ) : ℤ) = scale := by
      show _ = max (min (127 + p - e.2) 254) 0
      omega
    have hq : q = (let s := (min (max (127 + p - e.2) 0) 254).toNat
        (s, xs.map (fun x => (quantElem e.1.1 s x).1), xs.foldl (fun a x => a ||| (quantElem e.1.1 s x).2) 0)) := by
      rw [← hmax]
      exact quantBlock_scaled _ hfin (maxExp_eq hex hall)
    rw [hq]
    dsimp only
    generalize (min (max (127 + p - e.2) 0) 254).toNat = s at hscale
    have helem : ∀ x ∈ xs, ∃ n m k c, x = .fin n m k ∧ c ≤ top ∧ (quantElem e.1.1 s x).1 = 2 ^ (b.f + b.eb) * n.toNat + c
        ∧ (b.mag top < y x → c = top) ∧ (y x ≤ b.mag top → b.Rounds top .rne n (y x) c)
        ∧ ((quantElem e.1.1 s x).2 &&& fInx ≠ 0 ↔ b.mag c ≠ y x) ∧ ((quantElem e.1.1 s x).2 &&& fSat ≠ 0 ↔ b.mag top < y x)
        ∧ (quantElem e.1.1 s x).2 &&& (fOvf ||| fInv) = 0 := by
      intro x hx
      obtain ⟨n, m, k, rfl⟩ := hfin x hx
      have hy : y (.fin n m k) = m * 2 ^ (k + (127 - (s : ℤ))) := by
        show |(Machine.Num.fin n m k).val| * 2 ^ (127 - scale) = _
        rw [abs_fin, ← hscale, mul_assoc, zpow_add₀ two_ne_zero]
      obtain ⟨c, hc⟩ := quantElem_spec L hbin s n m k
      rw [hy]
      exact ⟨n, m, k, c, rfl, hc⟩
    refine ⟨hscale, List.length_map .., ?_, ?_, fun z hz => ?_, fun h => ?_⟩
    · rw [foldl_flags_clear]
      refine ⟨rfl, fun x hx => ?_⟩
      obtain ⟨n, m, k, c, -, -, -, -, -, -, -, hclear⟩ := helem x hx
      exact hclear
    · rw [foldl_flags_set]
      refine exists_congr fun x => and_congr_right fun hx => ?_
      obtain ⟨n, m, k, c, -, -, -, -, -, -, hsat, -⟩ := helem x hx
      exact hsat
    · obtain ⟨x, hx, rfl⟩ := (mem_zip_map _ _ _).1 hz
      obtain ⟨n, m, k, c, rfl, hc, hcode, htop, hround, hinx, -⟩ := helem x hx
      exact ⟨n, m, k, c, rfl, hc, hcode, htop, hround, fun h => (foldl_flags_set ..).2 ⟨_, hx, hinx.2 h⟩⟩
    · obtain ⟨x, hx, hinx'⟩ := (foldl_flags_set ..).1 h
      obtain ⟨n, m, k, c, -, hc, hcode, -, -, hinx, -⟩ := helem x hx
      refine ⟨_, (mem_zip_map _ _ _).2 ⟨x, hx, rfl⟩, ?_⟩
      dsimp only
      rw [hcode, Nat.mul_add_mod, Nat.mod_eq_of_lt (hc.trans_lt L.below)]
      exact hinx.1 hinx'

end Sys2Proof
end

section
/-! The exact sum of the products of a block (R172). -/

namespace Sys2Proof

open Machine

/-! The sum of finite values. -/

theorem foldl_min_le {α : Type} (g : α → ℤ) : ∀ (l : List α) (k : ℤ), l.foldl (fun k p => min k (g p)) k ≤ k ∧ ∀ p ∈ l, l.foldl (fun k p => min k (g p)) k ≤ g p
  | [], _ => ⟨le_rfl, nofun⟩
  | p :: l, k => by
    obtain ⟨h, hl⟩ := foldl_min_le g l (min k (g p))
    exact ⟨h.trans (min_le_left ..), List.forall_mem_cons.2 ⟨h.trans (min_le_right ..), hl⟩⟩

/-- A finite value from its fields. -/
def finOf (t : Bool × ℕ × ℤ) : Machine.Num := .fin t.1 t.2.1 t.2.2

theorem finSum_map (ts : List (Bool × ℕ × ℤ)) : finSum (ts.map finOf) =
    let lo := ts.foldl (fun k p => min k p.2.2) 0
    let v := (ts.map fun p => steps lo p.1 p.2.1 p.2.2).sum
    if v = 0 then .fin (ts.all (·.1)) 0 0 else .fin (decide (v < 0)) v.natAbs lo := by
  unfold finSum
  rw [List.filterMap_map]
  have hparts (g : Machine.Num → Option (Bool × ℕ × ℤ)) (hg : ∀ t, g (finOf t) = some t) : ts.filterMap (g ∘ finOf) = ts :=
    (congrArg (List.filterMap · ts) (funext hg)).trans List.filterMap_some
  rw [hparts _ fun _ => rfl]
  rfl

/-- The exact sum of finite values: its value, and the sign of a zero. -/
theorem finSum_spec {xs : List Machine.Num} (h : ∀ x ∈ xs, ∃ n m e, x = .fin n m e) :
    ((xs.map Machine.Num.val).sum ≠ 0 → (∃ n m e, finSum xs = .fin n m e) ∧ (finSum xs).val = (xs.map Machine.Num.val).sum)
      ∧ ((xs.map Machine.Num.val).sum = 0 → finSum xs = .fin (xs.all negOf) 0 0) := by
  obtain ⟨ts, rfl⟩ : xs ∈ Set.range (List.map finOf) := by
    rw [Set.range_list_map]
    intro x hx
    obtain ⟨n, m, e, rfl⟩ := h x hx
    exact ⟨(n, m, e), rfl⟩
  rw [finSum_map, List.map_map, List.all_map]
  dsimp only
  have hlo := (foldl_min_le (fun t : Bool × ℕ × ℤ => t.2.2) ts 0).2
  generalize ts.foldl (fun k p => min k p.2.2) 0 = lo at hlo
  have hsum : (((ts.map fun p => steps lo p.1 p.2.1 p.2.2).sum : ℤ) : ℚ) * 2 ^ lo = (ts.map (Machine.Num.val ∘ finOf)).sum := by
    rw [Int.cast_list_sum, ← List.sum_map_mul_right, List.map_map]
    exact congrArg List.sum (List.map_congr_left fun t ht => steps_val (hlo t ht) t.1 t.2.1)
  have hzero : (ts.map fun p => steps lo p.1 p.2.1 p.2.2).sum = 0 ↔ (ts.map (Machine.Num.val ∘ finOf)).sum = 0 := by
    rw [← hsum, mul_eq_zero, or_iff_left (zpow_two_pos lo).ne', Int.cast_eq_zero]
  refine ⟨fun h => ?_, fun h => if_pos (hzero.2 h)⟩
  rw [if_neg (hzero.not.2 h)]
  exact ⟨⟨_, _, _, rfl⟩, (val_signed ..).trans hsum⟩

/-! The product of a pair of values: a NaN, an infinity or a finite value. -/

/-- A pair with a NaN. -/
def NanPair (p : Machine.Num × Machine.Num) : Prop := p.1.isNan = true ∨ p.2.isNan = true

/-- An infinity and a zero. -/
def ZeroInfPair (p : Machine.Num × Machine.Num) : Prop := ∃ g h e k, p = (.inf g, .fin h 0 e) ∨ p = (.fin h 0 k, .inf g)

/-- A pair whose product is an infinity of a sign. -/
def InfPair (neg : Bool) (p : Machine.Num × Machine.Num) : Prop :=
  ¬ NanPair p ∧ ¬ ZeroInfPair p ∧ ((∃ g, p.1 = .inf g ∨ p.2 = .inf g) ∧ (negOf p.1 != negOf p.2) = neg)

/-- The product of a pair. -/
def pairMul (p : Machine.Num × Machine.Num) : Machine.Num × BitVec 5 := numMul p.1 p.2

/-- What the product of a pair is. -/
theorem pair_kinds (p : Machine.Num × Machine.Num) :
    ((NanPair p ∧ ¬ ZeroInfPair p) ∧ ∃ s, pairMul p = (.nan false, fIf s fInv)) ∨ (ZeroInfPair p ∧ pairMul p = (.nan false, fInv))
      ∨ (∃ neg, InfPair neg p ∧ pairMul p = (.inf neg, 0))
      ∨ ∃ g m e g' m' e', p = (.fin g m e, .fin g' m' e') ∧ pairMul p = (.fin (xor g g') (m * m') (e + e'), 0) := by
  obtain ⟨x, y⟩ := p
  by_cases hn : NanPair (x, y)
  · refine .inl ⟨⟨hn, ?_⟩, _, numMul_nan hn⟩
    rintro ⟨g, h, e, k, hp | hp⟩ <;> cases hp <;> rcases hn with hn | hn <;> cases hn
  · right
    cases x with
    | nan g => exact absurd (.inl rfl) hn
    | inf n =>
      cases y with
      | nan g => exact absurd (.inr rfl) hn
      | inf n' =>
        refine .inr (.inl ⟨xor n n', ⟨hn, ?_, ⟨n, .inl rfl⟩, rfl⟩, rfl⟩)
        rintro ⟨g, h, e, k, hp | hp⟩ <;> cases hp
      | fin n' m e =>
        by_cases hm : m = 0
        · subst hm
          exact .inl ⟨⟨n, n', e, e, .inl rfl⟩, rfl⟩
        · refine .inr (.inl ⟨xor n n', ⟨hn, ?_, ⟨n, .inl rfl⟩, rfl⟩, if_neg hm⟩)
          rintro ⟨g, h, e, k, hp | hp⟩ <;> cases hp
          exact hm rfl
    | fin n m e =>
      cases y with
      | nan g => exact absurd (.inr rfl) hn
      | inf n' =>
        by_cases hm : m = 0
        · subst hm
          exact .inl ⟨⟨n', n, e, e, .inr rfl⟩, rfl⟩
        · refine .inr (.inl ⟨xor n n', ⟨hn, ?_, ⟨n', .inr rfl⟩, rfl⟩, if_neg hm⟩)
          rintro ⟨g, h, e, k, hp | hp⟩ <;> cases hp
          exact hm rfl
      | fin n' m' e' => exact .inr (.inr ⟨n, m, e, n', m', e', rfl, numMul_fin ..⟩)

theorem not_infPair_fin {neg g g' : Bool} {m m' : ℕ} {e e' : ℤ} : ¬ InfPair neg (.fin g m e, .fin g' m' e') := by
  rintro ⟨-, -, ⟨g, h | h⟩, -⟩ <;> cases h

theorem not_zeroInf_fin {g g' : Bool} {m m' : ℕ} {e e' : ℤ} : ¬ ZeroInfPair (.fin g m e, .fin g' m' e') := by
  rintro ⟨_, _, _, _, h | h⟩ <;> cases h

theorem not_nanPair_fin {g g' : Bool} {m m' : ℕ} {e e' : ℤ} : ¬ NanPair (.fin g m e, .fin g' m' e') := by
  rintro (h | h) <;> cases h

theorem pairMul_nan_iff (p : Machine.Num × Machine.Num) : (pairMul p).1.isNan = true ↔ NanPair p ∨ ZeroInfPair p := by
  rcases pair_kinds p with ⟨h, s, hp⟩ | ⟨h, hp⟩ | ⟨neg, ⟨h1, h2, -⟩, hp⟩ | ⟨g, m, e, g', m', e', rfl, hp⟩ <;> rw [hp]
  · exact iff_of_true rfl (.inl h.1)
  · exact iff_of_true rfl (.inr h)
  · exact iff_of_false nofun (not_or.2 ⟨h1, h2⟩)
  · exact iff_of_false nofun (not_or.2 ⟨not_nanPair_fin, not_zeroInf_fin⟩)

theorem pairMul_inf_iff (neg : Bool) (p : Machine.Num × Machine.Num) : (pairMul p).1 = .inf neg ↔ InfPair neg p := by
  rcases pair_kinds p with ⟨h, s, hp⟩ | ⟨h, hp⟩ | ⟨neg', h, hp⟩ | ⟨g, m, e, g', m', e', rfl, hp⟩ <;> rw [hp]
  · exact iff_of_false nofun fun k => k.1 h.1
  · exact iff_of_false nofun fun k => k.2.1 h
  · constructor
    · rintro ⟨⟩
      exact h
    · rintro ⟨-, -, -, hs⟩
      rw [← h.2.2.2, hs]
  · exact iff_of_false nofun not_infPair_fin

theorem pairMul_flags (p : Machine.Num × Machine.Num) : (pairMul p).2 &&& ~~~fInv = 0 ∧ (ZeroInfPair p → (pairMul p).2 = fInv)
    ∧ (¬ NanPair p → ¬ ZeroInfPair p → (pairMul p).2 = 0) := by
  rcases pair_kinds p with ⟨h, s, hp⟩ | ⟨h, hp⟩ | ⟨neg, ⟨h1, h2, -⟩, hp⟩ | ⟨g, m, e, g', m', e', rfl, hp⟩ <;> rw [hp]
  · exact ⟨by cases s <;> rfl, fun k => absurd k h.2, fun k => absurd h.1 k⟩
  · exact ⟨rfl, fun _ => rfl, fun _ k => absurd h k⟩
  · exact ⟨BitVec.zero_and, fun k => absurd k h2, fun _ _ => rfl⟩
  · exact ⟨BitVec.zero_and, fun k => absurd k not_zeroInf_fin, fun _ _ => rfl⟩

/-! The block. -/

/-- The flags of the products of a block. -/
def pairFlags (ps : List (Machine.Num × Machine.Num)) : BitVec 5 := ps.foldl (fun f p => f ||| (pairMul p).2) 0

theorem pairFlags_zero {ps : List (Machine.Num × Machine.Num)} (h : ∀ p ∈ ps, (pairMul p).2 = 0) : pairFlags ps = 0 := by
  have hall (f : BitVec 5) : f = 0 ↔ f &&& 31 = 0 := by revert f; decide
  rw [hall, pairFlags, foldl_flags_clear]
  exact ⟨by decide, fun p hp => by rw [h p hp]; decide⟩

theorem pairFlags_inv {ps : List (Machine.Num × Machine.Num)} (h : ∃ p ∈ ps, ZeroInfPair p) : pairFlags ps = fInv := by
  have hinv (f : BitVec 5) : f &&& ~~~fInv = 0 → f &&& fInv ≠ 0 → f = fInv := by revert f; decide
  obtain ⟨p, hp, hz⟩ := h
  refine hinv _ ((foldl_flags_clear ..).2 ⟨by decide, fun p _ => (pairMul_flags p).1⟩) ((foldl_flags_set ..).2 ⟨p, hp, ?_⟩)
  rw [(pairMul_flags p).2.1 hz]
  decide

theorem pairFlags_or_inv (ps : List (Machine.Num × Machine.Num)) : pairFlags ps ||| fInv = fInv := by
  have hinv (f : BitVec 5) : f &&& ~~~fInv = 0 → f ||| fInv = fInv := by revert f; decide
  exact hinv _ ((foldl_flags_clear ..).2 ⟨by decide, fun p _ => (pairMul_flags p).1⟩)

/-- The sum of the products of a list of pairs, as R172 says it. -/
def pairSum (ps : List (Machine.Num × Machine.Num)) : Machine.Num × BitVec 5 :=
  let pos := ps.any fun p => (pairMul p).1 == .inf false
  let neg := ps.any fun p => (pairMul p).1 == .inf true
  if pos && neg then (.nan false, pairFlags ps ||| fInv)
  else if ps.any fun p => (pairMul p).1.isNan then (.nan false, pairFlags ps)
  else if pos then (.inf false, pairFlags ps)
  else if neg then (.inf true, pairFlags ps)
  else (finSum (ps.map fun p => (pairMul p).1), pairFlags ps)

theorem blockSum_eq (fa fw : Fmt) (as ws : List ℕ) : blockSum fa fw as ws = pairSum ((as.zip ws).map fun p => (Fmt.dec fa p.1, Fmt.dec fw p.2)) := by
  unfold blockSum pairSum pairFlags
  simp only [List.any_map, List.map_map, List.foldl_map]
  rfl

theorem any_inf {ps : List (Machine.Num × Machine.Num)} {neg : Bool} : (ps.any fun p => (pairMul p).1 == .inf neg) = true ↔ ∃ p ∈ ps, InfPair neg p := by
  rw [List.any_eq_true]
  exact exists_congr fun p => and_congr_right fun _ => beq_iff_eq.trans (pairMul_inf_iff neg p)

theorem any_nan {ps : List (Machine.Num × Machine.Num)} : (ps.any fun p => (pairMul p).1.isNan) = true ↔ ∃ p ∈ ps, NanPair p ∨ ZeroInfPair p := by
  rw [List.any_eq_true]
  exact exists_congr fun p => and_congr_right fun _ => pairMul_nan_iff p

section
variable {ps : List (Machine.Num × Machine.Num)}

theorem pairSum_nan (h : ∃ p ∈ ps, NanPair p ∨ ZeroInfPair p) : (pairSum ps).1.isNan = true := by
  unfold pairSum
  dsimp only
  split
  · rfl
  · rw [if_pos (any_nan.2 h)]
    rfl

theorem pairSum_zeroInf (h : ∃ p ∈ ps, ZeroInfPair p) : (pairSum ps).2 = fInv := by
  unfold pairSum
  dsimp only
  split
  · exact pairFlags_or_inv ps
  · rw [if_pos (any_nan.2 (h.imp fun p h => ⟨h.1, .inr h.2⟩))]
    exact pairFlags_inv h

theorem pairSum_opposed (h : ∃ p ∈ ps, InfPair true p) (h' : ∃ p ∈ ps, InfPair false p) : pairSum ps = (.nan false, fInv) := by
  refine (if_pos ?_).trans (by rw [pairFlags_or_inv])
  rw [any_inf.2 h, any_inf.2 h']
  rfl

theorem pairSum_inf {neg : Bool} (h : ∃ p ∈ ps, InfPair neg p) (h' : ∀ p ∈ ps, ¬ NanPair p ∧ ¬ ZeroInfPair p ∧ ¬ InfPair (!neg) p) :
    pairSum ps = (.inf neg, 0) := by
  have hinf := any_inf.2 h
  have hother : (ps.any fun p => (pairMul p).1 == .inf !neg) = false :=
    Bool.eq_false_iff.2 fun k => let ⟨p, hp, hi⟩ := any_inf.1 k; (h' p hp).2.2 hi
  have hnan : (ps.any fun p => (pairMul p).1.isNan) = false :=
    Bool.eq_false_iff.2 fun k => let ⟨p, hp, hi⟩ := any_nan.1 k; hi.elim (h' p hp).1 (h' p hp).2.1
  have hflags : pairFlags ps = 0 := pairFlags_zero fun p hp => (pairMul_flags p).2.2 (h' p hp).1 (h' p hp).2.1
  unfold pairSum
  dsimp only
  rw [hnan, hflags]
  cases neg
  · rw [hinf, Bool.not_false] at *
    rw [hother]
    rfl
  · rw [hinf, Bool.not_true] at *
    rw [hother]
    rfl

theorem pairSum_finite (h : ∀ p ∈ ps, ∃ g m e g' m' e', p = (.fin g m e, .fin g' m' e')) : (pairSum ps).2 = 0
    ∧ (dot ps ≠ 0 → (∃ g m e, (pairSum ps).1 = .fin g m e) ∧ (pairSum ps).1.val = dot ps)
    ∧ (dot ps = 0 → (pairSum ps).1 = .fin (ps.all fun p => negOf p.1 != negOf p.2) 0 0) := by
  have hmul : ∀ p ∈ ps, (∃ n m e, (pairMul p).1 = .fin n m e) ∧ (pairMul p).2 = 0 ∧ (pairMul p).1.val = p.1.val * p.2.val
      ∧ negOf (pairMul p).1 = (negOf p.1 != negOf p.2) := by
    intro p hp
    obtain ⟨g, m, e, g', m', e', rfl⟩ := h p hp
    exact ⟨⟨_, _, _, rfl⟩, rfl, val_mul .., rfl⟩
  have hinf (neg : Bool) : (ps.any fun p => (pairMul p).1 == .inf neg) = false := by
    refine Bool.eq_false_iff.2 fun k => ?_
    obtain ⟨p, hp, hi⟩ := any_inf.1 k
    obtain ⟨g, m, e, g', m', e', rfl⟩ := h p hp
    exact not_infPair_fin hi
  have hnan : (ps.any fun p => (pairMul p).1.isNan) = false := by
    refine Bool.eq_false_iff.2 fun k => ?_
    obtain ⟨p, hp, hi⟩ := any_nan.1 k
    obtain ⟨g, m, e, g', m', e', rfl⟩ := h p hp
    exact hi.elim not_nanPair_fin not_zeroInf_fin
  have heq : pairSum ps = (finSum (ps.map fun p => (pairMul p).1), 0) := by
    unfold pairSum
    dsimp only
    rw [hinf, hinf, hnan, pairFlags_zero fun p hp => (hmul p hp).2.1]
    rfl
  have hval : ((ps.map fun p => (pairMul p).1).map Machine.Num.val).sum = dot ps := by
    rw [List.map_map]
    exact congrArg List.sum (List.map_congr_left fun p hp => (hmul p hp).2.2.1)
  have hsign : (ps.map fun p => (pairMul p).1).all negOf = ps.all fun p => negOf p.1 != negOf p.2 := by
    rw [List.all_map]
    refine Bool.eq_iff_iff.2 ?_
    rw [List.all_eq_true, List.all_eq_true]
    exact forall₂_congr fun p hp => by rw [Function.comp, (hmul p hp).2.2.2]
  have hspec := finSum_spec (xs := ps.map fun p => (pairMul p).1) (List.forall_mem_map.2 fun p hp => (hmul p hp).1)
  rw [hval, hsign] at hspec
  rw [heq]
  exact ⟨rfl, hspec⟩

end

/-- The exact sum of the products of a block (R172). -/
theorem block_sum : ∀ (fa fw : Fmt) (as ws : List Nat), as ≠ [] → ws ≠ [] →
    let ps := (as.zip ws).map fun p => (Fmt.dec fa p.1, Fmt.dec fw p.2)
    let nan (p : Machine.Num × Machine.Num) : Prop := p.1.isNan = true ∨ p.2.isNan = true
    let zi (p : Machine.Num × Machine.Num) : Prop := (∃ g h e k, p = (.inf g, .fin h 0 e) ∨ p = (.fin h 0 k, .inf g))
    let inf (neg : Bool) (p : Machine.Num × Machine.Num) : Prop := ¬ nan p ∧ ¬ zi p ∧ ((∃ g, p.1 = .inf g ∨ p.2 = .inf g) ∧ (negOf p.1 != negOf p.2) = neg)
    let r := blockSum fa fw as ws
    ((∀ p ∈ ps, ∃ g m e g' m' e', p = (.fin g m e, .fin g' m' e')) → r.2 = 0
      ∧ (dot ps ≠ 0 → (∃ g m e, r.1 = .fin g m e) ∧ r.1.val = dot ps)
      ∧ (dot ps = 0 → r.1 = .fin (ps.all fun p => negOf p.1 != negOf p.2) 0 0))
    ∧ ((∃ p ∈ ps, nan p ∨ zi p) → r.1.isNan = true)
    ∧ ((∃ p ∈ ps, zi p) → r.2 = fInv)
    ∧ ((∃ p ∈ ps, inf true p) → (∃ p ∈ ps, inf false p) → r.1.isNan = true ∧ r.2 = fInv)
    ∧ ∀ neg, (∃ p ∈ ps, inf neg p) → (∀ p ∈ ps, ¬ nan p ∧ ¬ zi p ∧ ¬ inf (!neg) p) → r = (.inf neg, 0) := by
  intro fa fw as ws _ _ ps nan zi inf r
  have hr : r = pairSum ps := blockSum_eq fa fw as ws
  rw [hr]
  exact ⟨pairSum_finite, pairSum_nan, pairSum_zeroInf, fun h h' => by rw [pairSum_opposed h h']; exact ⟨rfl, rfl⟩, fun neg => pairSum_inf⟩

end Sys2Proof
end

section
/-! A block added to an accumulator, and the blocks of a column (R163, R172, R173). -/

namespace Sys2Proof

open Machine

theorem blockAdd_some (sat : Bool) (x : Machine.Num) (fl : BitVec 5) (k : ℤ) (acc : Lane) :
    blockAdd sat (x, fl) (some k) acc = (let r := toF32 .rne sat (x.scale k); let y := addF32 .rne sat acc r.1; (y.1, fl ||| r.2 ||| y.2)) := rfl

/-- A finite sum is rounded to FP32 and then added. -/
theorem block_add_finite : ∀ (sat g : Bool) (m : Nat) (e k : Int) (fl : BitVec 5) (acc : Lane), ∃ r,
    LaneRounds .rne sat ((Machine.Num.fin g m e).val * 2 ^ k) (if g then 0x80000000 else 0) r
    ∧ blockAdd sat (.fin g m e, fl) (some k) acc = ((addF32 .rne sat acc r.1).1, fl ||| r.2 ||| (addF32 .rne sat acc r.1).2) := by
  intro sat g m e k fl acc
  have h := laneRounds_fin .rne sat g m (e + k)
  have hval : (Machine.Num.fin g m (e + k)).val = (Machine.Num.fin g m e).val * 2 ^ k := scale_val (.fin g m e) k
  have hzero : mkLane g 0 = if g then 0x80000000 else 0 := by cases g <;> rfl
  rw [hval, hzero] at h
  exact ⟨_, h, blockAdd_some sat (.fin g m e) fl k acc⟩

theorem laneNan_nan : laneNan 0x7FC00000 = true := rfl

/-- An infinite sum, a NaN, and a NaN scale. -/
theorem block_add_special : ∀ (sat g : Bool) (k : Int) (fl : BitVec 5) (acc : Lane),
    blockAdd sat (.inf g, fl) (some k) acc = ((addF32 .rne sat acc (if g then 0xFF800000 else 0x7F800000)).1,
      fl ||| (addF32 .rne sat acc (if g then 0xFF800000 else 0x7F800000)).2)
    ∧ (∀ z : Machine.Num, z.isNan = true → ((blockAdd sat (z, fl) (some k) acc).1 = 0x7FC00000))
    ∧ ∀ z, (blockAdd sat (z, fl) none acc).1 = 0x7FC00000 ∧ fInv &&& ~~~(blockAdd sat (z, fl) none acc).2 = 0 := by
  have hnan (sat : Bool) (acc : Lane) : (addF32 .rne sat acc 0x7FC00000).1 = 0x7FC00000 := by rw [(nan_rows .rne sat (.inr laneNan_nan)).1]
  intro sat g k fl acc
  refine ⟨?_, fun z hz => ?_, fun z => ⟨hnan sat acc, ?_⟩⟩
  · have hlane : mkLane g 0x7F800000 = if g then 0xFF800000 else 0x7F800000 := by cases g <;> rfl
    rw [blockAdd_some, ← hlane]
    have hround : toF32 .rne sat (Num.scale k (.inf g)) = (mkLane g 0x7F800000, 0) := toF32_inf ..
    rw [hround]
    dsimp only
    rw [flags_or_zero]
  · cases z with
    | fin n m e => cases hz
    | inf n => cases hz
    | nan s =>
      rw [blockAdd_some]
      show (addF32 .rne sat acc (toF32 .rne sat (.nan s)).1).1 = _
      rw [toF32_nan]
      exact hnan sat acc
  · have hkeep (f g : BitVec 5) : fInv &&& ~~~(f ||| fInv ||| g) = 0 := by
      revert f g
      decide
    exact hkeep fl _

theorem scale_exponent : ∀ (a b : Nat) (bias : Int), scaleExp a b bias = if a = 255 ∨ b = 255 then none else some ((a : Int) + bias + b - 254) := by
  intro a b bias
  rw [scaleExp]

/-- An INT8 code as an integer. -/
theorem intOf_byte {x : ℕ} (h : x < 256) : intOf true 8 x = if x < 128 then (x : ℤ) else x - 256 := by
  unfold intOf
  dsimp only
  have hmod : x % 2 ^ 8 = x := Nat.mod_eq_of_lt h
  rw [hmod, Bool.true_and]
  by_cases hx : x < 128
  · rw [if_neg (by simpa using hx), if_pos hx]
  · rw [if_pos (by simpa using hx), if_neg hx]
    rfl

/-- The clamp of an INT32 accumulator. -/
theorem clamp_int32 (x : ℤ) :
    (let y := if x < -(2 ^ 31) then -(2 ^ 31) else if x > 2 ^ 31 - 1 then 2 ^ 31 - 1 else x; (BitVec.ofInt 32 y, fIf (decide (y ≠ x)) fSat)) =
      if x < -(2 ^ 31) then ((0x80000000 : Lane), fSat) else if 2 ^ 31 - 1 < x then (0x7FFFFFFF, fSat) else (BitVec.ofInt 32 x, 0) := by
  by_cases h : x < -(2 ^ 31)
  · rw [if_pos h, if_pos h]
    dsimp only
    rw [decide_eq_true (by omega)]
    rfl
  · rw [if_neg h, if_neg h]
    by_cases h' : 2 ^ 31 - 1 < x
    · rw [if_pos h', if_pos h']
      dsimp only
      rw [decide_eq_true (by omega)]
      rfl
    · rw [if_neg h', if_neg h']
      dsimp only
      rw [decide_eq_false (not_not.2 rfl)]
      rfl

/-- A block of INT8 added to an INT32 accumulator, wrapped or clamped (R172, R173). -/
theorem block_add_int : ∀ (sat : Bool) (as ws : List Nat) (acc : Lane), (∀ x ∈ as ++ ws, x < 256) →
    let sgn (x : Nat) : Int := if x < 128 then x else x - 256
    let x : Int := acc.toInt + ((as.zip ws).map fun p => sgn p.1 * sgn p.2).sum
    blockAddInt sat as ws acc = if sat = false then (BitVec.ofInt 32 x, 0) else if x < -(2 ^ 31) then (0x80000000, fSat)
      else if 2 ^ 31 - 1 < x then (0x7FFFFFFF, fSat) else (BitVec.ofInt 32 x, 0) := by
  intro sat as ws acc hall sgn x
  have hsum : ((as.zip ws).map fun p => intOf true 8 p.1 * intOf true 8 p.2) = (as.zip ws).map fun p => sgn p.1 * sgn p.2 := by
    refine List.map_congr_left fun p hp => ?_
    obtain ⟨h1, h2⟩ := List.of_mem_zip (a := p.1) (b := p.2) hp
    rw [intOf_byte (hall _ (List.mem_append_left _ h1)), intOf_byte (hall _ (List.mem_append_right _ h2))]
  unfold blockAddInt
  rw [hsum]
  cases sat with
  | false => rfl
  | true => exact clamp_int32 x

/-! The blocks of a column. -/

/-- Block `i` of a column, added to an accumulator with its flags (R172). -/
def matStep (c : Cmd) (fw : Fmt) (as sas ws sws : List ℕ) (x : Lane × BitVec 5) (i : ℕ) : Lane × BitVec 5 :=
  let b := fw.blk
  let y := if c.fmt = .i8 then blockAddInt c.mod6 (slice as (b * i) b) (slice ws (b * i) b) x.1
    else blockAdd c.mod6 (blockSum c.fmt fw (slice as (b * i) b) (slice ws (b * i) b))
      (if c.sc then scaleExp (sas.getD i 0) (sws.getD i 0) ((BitVec.ofNat 8 (bitsN c.imm 14 8)).toInt) else some 0) x.1
  (y.1, x.2 ||| y.2)

theorem matAcc_eq (c : Cmd) (fw : Fmt) (as sas ws sws : List ℕ) (acc : Lane) :
    matAcc c fw as sas ws sws acc = (List.range (ws.length / fw.blk)).foldl (matStep c fw as sas ws sws) (acc, 0) := rfl

theorem blk_pos (f : Fmt) : 0 < f.blk := by
  rw [Fmt.blk]
  split <;> decide

/-- A slice that lies in the entries taken. -/
theorem slice_take {xs : List ℕ} {n lo k : ℕ} (h : lo + k ≤ n) : slice (xs.take n) lo k = slice xs lo k := by
  rw [slice, slice, List.drop_take, List.take_take, min_eq_left (by omega)]

theorem matStep_take (c : Cmd) (fw : Fmt) (as sas ws sws : List ℕ) {n i : ℕ} (h : i < n) (x : Lane × BitVec 5) :
    matStep c fw as sas (ws.take (fw.blk * n)) sws x i = matStep c fw as sas ws sws x i := by
  have hin : fw.blk * i + fw.blk ≤ fw.blk * n := by
    rw [← Nat.mul_succ]
    exact Nat.mul_le_mul_left _ h
  unfold matStep
  dsimp only
  rw [slice_take hin]

/-- A column goes through its blocks in order (R172). -/
theorem column_blocks : ∀ (c : Cmd) (fw : Fmt) (as sas ws sws : List Nat) (acc : Lane) (n : Nat), ws.length = fw.blk * (n + 1) →
    let y := matAcc c fw as sas (ws.take (fw.blk * n)) sws acc
    let a := (as.drop (fw.blk * n)).take fw.blk
    let w := ws.drop (fw.blk * n)
    let z := if c.fmt = .i8 then blockAddInt c.mod6 a w y.1 else blockAdd c.mod6 (blockSum c.fmt fw a w)
      (if c.sc then scaleExp (sas.getD n 0) (sws.getD n 0) ((BitVec.ofNat 8 (bitsN c.imm 14 8)).toInt) else some 0) y.1
    matAcc c fw as sas [] sws acc = (acc, 0) ∧ matAcc c fw as sas ws sws acc = (z.1, y.2 ||| z.2) := by
  intro c fw as sas ws sws acc n hlen y a w z
  have hb := blk_pos fw
  have hn : ws.length / fw.blk = n + 1 := by rw [hlen, Nat.mul_div_cancel_left _ hb]
  have hy : y = (List.range n).foldl (matStep c fw as sas ws sws) (acc, 0) := by
    show matAcc c fw as sas (ws.take (fw.blk * n)) sws acc = _
    rw [matAcc_eq, List.length_take, hlen, min_eq_left (Nat.mul_le_mul_left _ (Nat.le_succ n)), Nat.mul_div_cancel_left _ hb]
    exact List.foldl_ext _ _ _ fun x i hi => matStep_take c fw as sas ws sws (List.mem_range.1 hi) x
  have hw : slice ws (fw.blk * n) fw.blk = w := List.take_of_length_le (by
    rw [List.length_drop, hlen, Nat.mul_succ]
    omega)
  refine ⟨?_, ?_⟩
  · rw [matAcc_eq, List.length_nil, Nat.zero_div]
    rfl
  · rw [matAcc_eq, hn, List.range_succ, List.foldl_append, ← hy]
    show matStep c fw as sas ws sws y n = _
    unfold matStep
    dsimp only
    rw [hw]
    rfl

end Sys2Proof
end

section
/-! The pair that SPCMP keeps of a group (R191). -/

namespace Sys2Proof

open Machine

/-- The rank of a value by magnitude: finite values, above them infinities, above these NaN. -/
def rankOf : Machine.Num → WithTop (WithTop ℚ)
  | .fin n m e => ((|(Machine.Num.fin n m e).val| : ℚ) : WithTop ℚ)
  | .inf _ => ((⊤ : WithTop ℚ) : WithTop (WithTop ℚ))
  | .nan _ => ⊤

theorem below_iff_rank (a b : Machine.Num) : Below a b ↔ rankOf a < rankOf b := by
  cases b with
  | nan g =>
    cases a with
    | nan g' => exact iff_of_false (fun h => Bool.noConfusion h.1) (lt_irrefl _)
    | inf n => exact iff_of_true ⟨rfl, .inl rfl⟩ (WithTop.coe_lt_top _)
    | fin n m e => exact iff_of_true ⟨rfl, .inl rfl⟩ (WithTop.coe_lt_top _)
  | inf n =>
    cases a with
    | nan g' => exact iff_of_false (fun h => Bool.noConfusion h.1) not_top_lt
    | inf n' =>
      refine iff_of_false ?_ (lt_irrefl _)
      rintro ⟨-, h | ⟨_, _, _, _, _, h⟩ | ⟨_, _, _, _, _, _, h, -⟩⟩ <;> cases h
    | fin n' m e => exact iff_of_true ⟨rfl, .inr (.inl ⟨n, rfl, n', m, e, rfl⟩)⟩ (WithTop.coe_lt_coe.2 (WithTop.coe_lt_top _))
  | fin n m e =>
    cases a with
    | nan g' => exact iff_of_false (fun h => Bool.noConfusion h.1) not_top_lt
    | inf n' =>
      refine iff_of_false ?_ fun h => not_top_lt (WithTop.coe_lt_coe.1 h)
      rintro ⟨-, h | ⟨_, h, -⟩ | ⟨_, _, _, _, _, _, h, -⟩⟩ <;> cases h
    | fin n' m' e' =>
      rw [rankOf, rankOf, WithTop.coe_lt_coe, WithTop.coe_lt_coe]
      refine ⟨?_, fun h => ⟨rfl, .inr (.inr ⟨n', m', e', n, m, e, rfl, rfl, h⟩)⟩⟩
      rintro ⟨-, h | ⟨_, h, -⟩ | ⟨_, _, _, _, _, _, h, h', hlt⟩⟩
      · cases h
      · cases h
      · exact hlt

theorem ranksBelow_iff (a b : Machine.Num) : ranksBelow a b = true ↔ rankOf a < rankOf b := by
  cases b with
  | nan g =>
    cases a with
    | nan g' => exact iff_of_false Bool.false_ne_true (lt_irrefl _)
    | inf n => exact iff_of_true rfl (WithTop.coe_lt_top _)
    | fin n m e => exact iff_of_true rfl (WithTop.coe_lt_top _)
  | inf n =>
    cases a with
    | nan g' => exact iff_of_false Bool.false_ne_true not_top_lt
    | inf n' => exact iff_of_false Bool.false_ne_true (lt_irrefl _)
    | fin n' m e => exact iff_of_true rfl (WithTop.coe_lt_coe.2 (WithTop.coe_lt_top _))
  | fin n m e =>
    cases a with
    | nan g' => exact iff_of_false Bool.false_ne_true not_top_lt
    | inf n' => exact iff_of_false Bool.false_ne_true fun h => not_top_lt (WithTop.coe_lt_coe.1 h)
    | fin n' m' e' =>
      rw [rankOf, rankOf, WithTop.coe_lt_coe, WithTop.coe_lt_coe, abs_fin, abs_fin, ← compare_lt_iff_lt, ← magCmp_eq]
      exact beq_iff_eq

/-- Whether an index of a group stands behind another: by its rank, or of one rank by its place. -/
def behind (xs : List Machine.Num) (i j : ℕ) : Bool :=
  let a := xs.getD i (.nan false)
  let b := xs.getD j (.nan false)
  ranksBelow a b || (decide (j < i) && !ranksBelow b a)

/-- The two least of four that fewer than two others stand before. -/
def firstTwo (f : ℕ → ℕ → Bool) : ℕ × ℕ :=
  let ks := (List.range 4).filter fun i => decide (((List.range 4).filter (f i)).length < 2)
  (ks.getD 0 0, ks.getD 1 0)

theorem kept_eq {xs : List Machine.Num} (h : xs.length = 4) : kept xs = firstTwo (behind xs) := by
  unfold kept
  rw [h]
  rfl

/-- An order of four from who of each two stands behind. -/
def order4 (b01 b02 b03 b12 b13 b23 : Bool) (i j : ℕ) : Bool :=
  match i, j with
  | 0, 1 => b01 | 0, 2 => b02 | 0, 3 => b03 | 1, 2 => b12 | 1, 3 => b13 | 2, 3 => b23
  | 1, 0 => !b01 | 2, 0 => !b02 | 3, 0 => !b03 | 2, 1 => !b12 | 3, 1 => !b13 | 3, 2 => !b23
  | _, _ => false

/-- Whether three stand in no circle. -/
def noCircle (bij bjk bik : Bool) : Bool := !(bij && bjk && !bik) && !(!bij && !bjk && bik)

theorem firstTwo_order : ∀ b01 b02 b03 b12 b13 b23 : Bool, noCircle b01 b12 b02 → noCircle b01 b13 b03 → noCircle b02 b23 b03 → noCircle b12 b23 b13 →
    let p := firstTwo (order4 b01 b02 b03 b12 b13 b23)
    p.1 < p.2 ∧ p.2 < 4 ∧ ∀ n ∈ [p.1, p.2], ∀ m < 4, m ≠ p.1 → m ≠ p.2 → order4 b01 b02 b03 b12 b13 b23 m n = true := by
  decide

theorem firstTwo_congr {f g : ℕ → ℕ → Bool} (h : ∀ i < 4, ∀ j < 4, f i j = g i j) : firstTwo f = firstTwo g := by
  have hinner : ∀ i ∈ List.range 4, (List.range 4).filter (f i) = (List.range 4).filter (g i) := fun i hi =>
    List.filter_congr fun j hj => h i (List.mem_range.1 hi) j (List.mem_range.1 hj)
  have houter : ((List.range 4).filter fun i => decide (((List.range 4).filter (f i)).length < 2))
      = (List.range 4).filter fun i => decide (((List.range 4).filter (g i)).length < 2) :=
    List.filter_congr fun i hi => by rw [hinner i hi]
  unfold firstTwo
  rw [houter]

theorem behind_iff (xs : List Machine.Num) (i j : ℕ) : behind xs i j = true ↔
    rankOf (xs.getD i (.nan false)) < rankOf (xs.getD j (.nan false))
      ∨ (j < i ∧ ¬ rankOf (xs.getD j (.nan false)) < rankOf (xs.getD i (.nan false))) := by
  rw [← ranksBelow_iff, ← ranksBelow_iff]
  simp [behind]

theorem behind_of_lt (xs : List Machine.Num) {i j : ℕ} (h : i < j) :
    behind xs i j = decide (rankOf (xs.getD i (.nan false)) < rankOf (xs.getD j (.nan false))) := by
  rw [Bool.eq_iff_iff, behind_iff, decide_eq_true_iff, or_iff_left fun k => absurd k.1 h.not_gt]

/-- Of two indices the one stands behind where the other does not. -/
theorem behind_flip (xs : List Machine.Num) {i j : ℕ} (h : i < j) : behind xs j i = !behind xs i j := by
  rw [behind_of_lt xs h, ← decide_not, Bool.eq_iff_iff, behind_iff, decide_eq_true_iff]
  exact ⟨fun k => k.elim lt_asymm And.right, fun k => .inr ⟨h, k⟩⟩

theorem behind_self (xs : List Machine.Num) (i : ℕ) : behind xs i i = false := by
  rw [← Bool.not_eq_true, behind_iff]
  simp

theorem behind_noCircle (xs : List Machine.Num) {i j k : ℕ} (hij : i < j) (hjk : j < k) : noCircle (behind xs i j) (behind xs j k) (behind xs i k) := by
  rw [behind_of_lt xs hij, behind_of_lt xs hjk, behind_of_lt xs (hij.trans hjk)]
  generalize rankOf (xs.getD i (.nan false)) = a
  generalize rankOf (xs.getD j (.nan false)) = b
  generalize rankOf (xs.getD k (.nan false)) = c
  by_cases h1 : a < b
  · by_cases h2 : b < c
    · simp [noCircle, h1, h2, h1.trans h2]
    · simp [noCircle, h1, h2]
  · by_cases h2 : b < c
    · simp [noCircle, h1, h2]
    · simp [noCircle, h1, h2, (not_lt.1 h2).trans (not_lt.1 h1)]

theorem behind_order (xs : List Machine.Num) {i j : ℕ} (hi : i < 4) (hj : j < 4) : behind xs i j =
    order4 (behind xs 0 1) (behind xs 0 2) (behind xs 0 3) (behind xs 1 2) (behind xs 1 3) (behind xs 2 3) i j := by
  rcases lt_trichotomy i j with h | rfl | h
  · interval_cases j <;> interval_cases i <;> rfl
  · rw [behind_self]
    interval_cases i <;> rfl
  · rw [behind_flip xs h]
    interval_cases i <;> interval_cases j <;> rfl

/-- SPCMP keeps the two of a group that no other stands before (R191). -/
theorem kept_pair : ∀ xs : List Machine.Num, xs.length = 4 →
    let p := kept xs
    let x (i : Nat) := xs.getD i (.fin false 0 0)
    p.1 < p.2 ∧ p.2 < 4 ∧ ∀ n ∈ [p.1, p.2], ∀ m < 4, m ≠ p.1 → m ≠ p.2 → Below (x m) (x n) ∨ (¬ Below (x n) (x m) ∧ n < m) := by
  intro xs hlen p x
  have hp : p = firstTwo (order4 (behind xs 0 1) (behind xs 0 2) (behind xs 0 3) (behind xs 1 2) (behind xs 1 3) (behind xs 2 3)) := by
    show kept xs = _
    rw [kept_eq hlen]
    exact firstTwo_congr fun i hi j hj => behind_order xs hi hj
  obtain ⟨hlt, h4, hrest⟩ := firstTwo_order _ _ _ _ _ _ (behind_noCircle xs (by decide : 0 < 1) (by decide : 1 < 2))
    (behind_noCircle xs (by decide : 0 < 1) (by decide : 1 < 3)) (behind_noCircle xs (by decide : 0 < 2) (by decide : 2 < 3))
    (behind_noCircle xs (by decide : 1 < 2) (by decide : 2 < 3))
  rw [← hp] at hlt h4 hrest
  refine ⟨hlt, h4, fun n hn m hm h1 h2 => ?_⟩
  have hn4 : n < 4 := by
    rcases List.mem_pair.1 hn with rfl | rfl
    · exact hlt.trans h4
    · exact h4
  have hget {i : ℕ} (hi : i < 4) : xs.getD i (.nan false) = x i := by
    have hi' : i < xs.length := hlen ▸ hi
    show _ = xs.getD i _
    rw [List.getD_eq_getElem _ _ hi', List.getD_eq_getElem _ _ hi']
  have h := hrest n hn m hm h1 h2
  rw [← behind_order xs hm hn4, behind_iff, hget hm, hget hn4] at h
  rw [below_iff_rank, below_iff_rank]
  exact h.imp_right And.symm

end Sys2Proof
end

section
/-! The numbers of the machine (O40). -/

namespace Sys2Proof

/-- Settles O40: what codes stand for, rounding to the formats, the operations of lanes, reductions, quantised blocks, sums of blocks, drained elements and kept pairs. -/
theorem numberRules : Obligations.NumberRules := by
  unfold Obligations.NumberRules
  exact ⟨codes_stand_for, round_binary, tapered_codes, round_tapered, round_integer, lane_operations, lane_functions, fun _ _ => rfl, treeSum_halves,
    quantised_block, block_sum, block_add_finite, block_add_special, scale_exponent, block_add_int, column_blocks, drain_element, kept_pair⟩

end Sys2Proof
end

section
/-! Collectives complete; leases are given, refused and expire (R237 to R240, R282, R285). -/

namespace Sys2Proof

open Machine

/-! A collective that is next on its lease. -/

theorem engPut_fail : ∀ (x : State × Cmd) (ls : List Loc) (bs : List Byte), (engPut x ls bs).2.fail = x.2.fail
  | _, [], _ => rfl
  | _, _ :: _, [] => rfl
  | x, l :: ls, b :: bs => by
    rw [engPut, engPut_fail _ ls bs]
    dsimp only
    split <;> rfl

/-- Writing an operand fails no command. -/
theorem engWrite_fail {s : State} {c : Cmd} {o : Opnd} {a : ℤ} {bs : List Byte} {x : State × Cmd} (h : engWrite s c o a bs = .ok x) :
    x.2.fail = c.fail := by
  unfold engWrite at h
  cases hl : engLocs s c o a bs.length with
  | error e => rw [hl] at h; cases h
  | ok ls =>
    rw [hl] at h
    cases h
    exact engPut_fail ..

section
variable {s : State} {id : ℕ} {c : Cmd} (peers : List (ℕ × List Byte)) (hget : getCmd s id = some c) (hnext : collNext s c = true)
include hget hnext

/-- What completes a collective, by its lease, its own failure and its peers. -/
theorem collComplete_eq : exec (.collComplete id .ok peers) s =
    if leaseCurrent s c.vf (c.desc.getD 0 0) = false then .next (collFail s c .lease 0 0)
    else if c.fail.isSome ∨ (c.done = 0 ∧ collCut s c) then .next (collFail s c .segment ((c.fail.map (·.2.1)).getD 0) ((c.fail.map (·.2.2)).getD 0))
    else .next (collGo s c .ok peers) := by
  show execCollComplete id .ok peers s = _
  have hfilter : (getCmd s id).filter (collNext s ·) = some c := by rw [hget, Option.filter_some, if_pos hnext]
  unfold execCollComplete
  rw [hfilter]
  dsimp only
  simp only [Bool.not_eq_true']
  rfl

theorem collComplete_lease (h : leaseCurrent s c.vf (c.desc.getD 0 0) = false) : exec (.collComplete id .ok peers) s = .next (collFail s c .lease 0 0) := by
  rw [collComplete_eq peers hget hnext, if_pos h]

theorem collComplete_failed (h : leaseCurrent s c.vf (c.desc.getD 0 0) = true) {f : FaultCode} {va : Word} {acc : ℕ} (hf : c.fail = some (f, va, acc)) :
    exec (.collComplete id .ok peers) s = .next (collFail s c .segment va acc) := by
  rw [collComplete_eq peers hget hnext, if_neg (by rw [h]; nofun), hf, if_pos (.inl rfl)]
  rfl

theorem collComplete_cut (h : leaseCurrent s c.vf (c.desc.getD 0 0) = true) (hf : c.fail = none) (hd : c.done = 0) (hc : collCut s c = true) :
    exec (.collComplete id .ok peers) s = .next (collFail s c .segment 0 0) := by
  rw [collComplete_eq peers hget hnext, if_neg (by rw [h]; nofun), hf, if_pos (.inr ⟨hd, hc⟩)]
  rfl

theorem collComplete_done (h : leaseCurrent s c.vf (c.desc.getD 0 0) = true) (hf : c.fail = none) (hd : c.done = 0) (hc : collCut s c = false)
    {own : List Byte} (hown : engRead s c (collSrc c) (collSrc c).lo (collSrc c).len = .ok own) {srcs : List (List Byte)}
    (hsrcs : collSrcs c own peers = some srcs) {x : State × Cmd} (hx : engWrite s c (collDst c) (collDst c).lo (collResult c srcs).1 = .ok x) :
    let y := { x.2 with flags := (collResult c srcs).2, done := 1, st := .running }
    outCut x.1 y = none → exec (.collComplete id .ok peers) s = .next (finish x.1 y 0 none) := by
  intro y hcut
  have hrun : collRun s c peers = some (x.1, y) := by
    unfold collRun
    rw [hown]
    dsimp only
    rw [hsrcs]
    dsimp only
    rw [hx]
  have hlate : lateFail x.1 y = none := by
    have hyf : y.fail = none := (engWrite_fail hx).trans hf
    rw [lateFail, hyf, hcut]
    rfl
  have hgo : collGo s c .ok peers = finish x.1 y 0 none := by
    show (if c.done = 1 then collDone s c else match collRun s c peers with | none => s | some x => collDone x.1 x.2) = _
    rw [if_neg (by rw [hd]; decide), hrun]
    show collDone x.1 y = _
    rw [collDone, hlate]
  rw [collComplete_eq peers hget hnext, if_neg (by rw [h]; nofun), hf, if_neg, hgo]
  rintro (k | ⟨-, k⟩)
  · cases k
  · rw [hc] at k
    cases k

end

/-! Leases. -/

/-- The engine that a request receives: the lowest free one where its VF may hold one more. -/
def leaseGiven (s : State) (r : LeaseReq) : Option ℕ :=
  if leasesOf s r.vf < leaseMax s r.vf then (List.range 16).find? fun e => (getEngine s e).lease.isNone else none

theorem leaseAnswer_refused {s : State} {r : LeaseReq} {rest : List LeaseReq} (h : s.leaseReqs = r :: rest) (hg : leaseGiven s r = none) :
    exec .leaseAnswer s = .next (fillPend { s with leaseReqs := rest } r.owner r.reg (.lease r.id) 0x8000000000000016) := by
  show execLeaseAnswer s = _
  unfold leaseGiven at hg
  unfold execLeaseAnswer
  rw [h]
  dsimp only
  by_cases hm : leasesOf s r.vf < leaseMax s r.vf
  · rw [if_pos hm] at hg
    rw [if_neg (not_le.2 hm), hg]
  · rw [if_pos (not_lt.1 hm)]

theorem leaseAnswer_given {s : State} {r : LeaseReq} {rest : List LeaseReq} {e : ℕ} (h : s.leaseReqs = r :: rest) (hg : leaseGiven s r = some e) :
    exec .leaseAnswer s =
      .next (fillPend { s with leaseReqs := rest, engines := mset s.engines e ⟨(getEngine s e).gen + 1, some (r.vf, s.refTimer + r.time), false⟩ }
        r.owner r.reg (.lease r.id) (handleOf e ((getEngine s e).gen + 1))) := by
  show execLeaseAnswer s = _
  unfold leaseGiven at hg
  unfold execLeaseAnswer
  rw [h]
  dsimp only
  by_cases hm : leasesOf s r.vf < leaseMax s r.vf
  · rw [if_pos hm] at hg
    rw [if_neg (not_le.2 hm), hg]
  · rw [if_neg hm] at hg
    cases hg

/-- A register of a spoke that waits for a value receives it, and no engine or request changes. -/
theorem fillPend_spoke {s : State} {c n v : ℕ} {r : Fin 32} {w : Pend} (hr : r ≠ 0) (hp : (getSp s c n v).pendG r = w) (x : Word) :
    (getSp (fillPend s (.spoke c n v) r w x) c n v).g[r] = ⟨x, true, .no⟩ ∧ (fillPend s (.spoke c n v) r w x).engines = s.engines
      ∧ (fillPend s (.spoke c n v) r w x).leaseReqs = s.leaseReqs := by
  unfold fillPend modOwner
  dsimp only
  rw [getSp_modSp, modSp_engines, modSp_leaseReqs, if_pos ⟨hr, hp⟩]
  exact ⟨(g_wrG ..).trans (if_pos ⟨rfl, hr⟩), rfl, rfl⟩

/-- A request for a lease is answered (R237, R282). -/
theorem lease_answered {s : State} {r : LeaseReq} {rest : List LeaseReq} {c n v : ℕ} (h : s.leaseReqs = r :: rest) (ho : r.owner = .spoke c n v)
    (hr : r.reg ≠ 0) (hp : (getSp s c n v).pendG r.reg = .lease r.id) :
    let free := (List.range 16).find? fun e => (getEngine s e).lease.isNone
    let given := if leasesOf s r.vf < leaseMax s r.vf then free else none
    ∃ t, exec .leaseAnswer s = .next t ∧ t.leaseReqs = rest ∧ match given with
      | none => (getSp t c n v).g[r.reg] = ⟨0x8000000000000016, true, .no⟩ ∧ t.engines = s.engines
      | some e => (getSp t c n v).g[r.reg] = ⟨BitVec.ofNat 64 (e + ((getEngine s e).gen + 1).toNat * 2 ^ 16), true, .no⟩
          ∧ getEngine t e = ⟨(getEngine s e).gen + 1, some (r.vf, s.refTimer + r.time), false⟩ ∧ ∀ k, k ≠ e → getEngine t k = getEngine s k := by
  intro free given
  have hfill (es : List (ℕ × Engine)) (x : Word) := fillPend_spoke (s := { s with leaseReqs := rest, engines := es }) hr hp x
  rcases Option.eq_none_or_eq_some given with hg | ⟨e, hg⟩
  · obtain ⟨hreg, he, hl⟩ := hfill s.engines 0x8000000000000016
    rw [hg, leaseAnswer_refused h hg, ho]
    exact ⟨_, rfl, hl, hreg, he⟩
  · obtain ⟨hreg, he, hl⟩ := hfill (mset s.engines e ⟨(getEngine s e).gen + 1, some (r.vf, s.refTimer + r.time), false⟩) (handleOf e ((getEngine s e).gen + 1))
    rw [hg, leaseAnswer_given h hg, ho]
    refine ⟨_, rfl, hl, hreg, ?_, fun k hk => ?_⟩
    · rw [getEngine, he]
      exact mget_mset_same ..
    · rw [getEngine, he]
      exact mget_mset_ne _ _ _ hk.symm

/-- A lease that reaches its end is over, and its engine is free with its generation (R237). -/
theorem lease_expires {s : State} {e v w : ℕ} (h : (getEngine s e).lease = some (v, w)) :
    ∃ t, exec (.leaseExpiry e) s = .next t ∧ getEngine t e = ⟨(getEngine s e).gen, none, false⟩ := by
  have hend (s : State) (h : (getEngine s e).lease = some (v, w)) : getEngine (endLease s e) e = ⟨(getEngine s e).gen, none, false⟩ := by
    unfold endLease
    rw [h]
    exact mget_mset_same ..
  refine ⟨endLease { s with refTimer := max s.refTimer w } e, ?_, hend _ h⟩
  show execLeaseExpiry e s = _
  unfold execLeaseExpiry
  rw [h]

end Sys2Proof
end

section
/-! The reduction of an element over the ranks (R168, R239). -/

namespace Sys2Proof

open Machine

/-- The ranks are gone through in order. -/
theorem reduce_in_order : ∀ (f : Fmt) (red x y : Nat) (xs : List Nat), redAll f red [x] = (x, 0)
    ∧ (xs ≠ [] → redAll f red (xs ++ [y]) = ((redOp f red (redAll f red xs).1 y).1, (redAll f red xs).2 ||| (redOp f red (redAll f red xs).1 y).2)) := by
  intro f red x y xs
  refine ⟨rfl, fun h => ?_⟩
  cases xs with
  | nil => exact absurd rfl h
  | cons z zs => exact List.foldl_concat ..

theorem intOf_toNat (x : BitVec 32) : intOf true 32 x.toNat = x.toInt := by
  have hx := x.isLt
  unfold intOf
  dsimp only
  rw [BitVec.toInt_eq_toNat_cond, Nat.mod_eq_of_lt hx, Bool.true_and]
  by_cases h : 2 * x.toNat < 2 ^ 32
  · rw [if_pos h, if_neg (by simp; omega)]
  · rw [if_neg h, if_pos (by simp; omega)]

/-- A reduction of INT32 (R239). -/
theorem reduce_int32 : ∀ (red : Nat) (x y : BitVec 32), redOp .i32 red x.toNat y.toNat = ((if red = 0 then x + y
    else if red = 1 then if x.slt y then y else x else if x.slt y then x else y).toNat, 0) := by
  intro red x y
  have hslt : x.slt y = true ↔ intOf true 32 x.toNat < intOf true 32 y.toNat := by
    rw [intOf_toNat, intOf_toNat]
    exact BitVec.slt_iff_toInt_lt
  unfold redOp
  dsimp only
  rw [if_pos rfl]
  congr 1
  by_cases h0 : red = 0
  · rw [if_pos h0, if_pos h0, BitVec.toNat_add]
  · rw [if_neg h0, if_neg h0]
    by_cases h1 : red = 1
    · rw [if_pos h1, if_pos h1, apply_ite BitVec.toNat]
      exact if_congr hslt.symm rfl rfl
    · rw [if_neg h1, if_neg h1, apply_ite BitVec.toNat]
      by_cases hlt : x.slt y = true
      · rw [if_pos hlt, if_neg (hslt.1 hlt).not_gt]
      · rw [if_neg hlt]
        split
        · rfl
        next h =>
          have heq := le_antisymm (not_lt.1 h) (not_lt.1 (hslt.not.1 hlt))
          rw [intOf_toNat, intOf_toNat] at heq
          rw [BitVec.eq_of_toInt_eq heq]

/-! Floating formats with infinities. -/

section
variable {f : Fmt} {b : BinFmt} {nan inf top : ℕ} (L : Layout f b nan inf top) (hs : b.style = .ieee)
include L hs

theorem ieee_top_lt {c : ℕ} : top < c ↔ inf ≤ c := by
  have h := (L.ieee hs).1
  omega

/-- What a code of a format with infinities is. -/
theorem ieee_kinds {x : ℕ} (hx : x < 2 ^ f.width) :
    let neg := x.testBit (b.f + b.eb)
    let c := x % 2 ^ (b.f + b.eb)
    x = 2 ^ (b.f + b.eb) * neg.toNat + c ∧ ((c ≤ top ∧ Fmt.dec f x = .fin neg (b.sig c) (b.place c))
      ∨ (c = inf ∧ Fmt.dec f x = .inf neg) ∨ (inf < c ∧ (Fmt.dec f x).isNan = true)) := by
  intro neg c
  rw [L.width] at hx
  have hsplit := code_split hx
  have hc : c < 2 ^ (b.f + b.eb) := Nat.mod_lt _ (Nat.two_pow_pos _)
  have hdec : Fmt.dec f x = b.dec (2 ^ (b.f + b.eb) * neg.toNat + c) := (L.dec x hx).trans (congrArg b.dec hsplit)
  refine ⟨hsplit, ?_⟩
  rcases le_or_gt c top with ht | ht
  · exact .inl ⟨ht, hdec.trans (dec_finite L hc neg ht)⟩
  · obtain ⟨htop, hfrac⟩ := L.ieee hs
    have hspec := hdec.trans (dec_special L hc neg ht)
    by_cases hi : c = inf
    · exact .inr (.inl ⟨hi, hspec.trans (if_pos ⟨hs, (hfrac c hc ht).2 hi⟩)⟩)
    · refine .inr (.inr ⟨by omega, ?_⟩)
      rw [hspec, if_neg fun k => hi ((hfrac c hc ht).1 k.2)]
      rfl

theorem round_inf_ieee (n : Bool) : Fmt.round f .rne false (.inf n) = (2 ^ (b.f + b.eb) * n.toNat + inf, 0) := by
  have hi := L.infCode
  rw [if_pos hs] at hi
  rw [L.round, ← hi]
  simp [BinFmt.round, BinFmt.signBit, hs, fIf]

theorem round_nan_ieee : Fmt.round f .rne false (.nan false) = (nan, 0) := by
  rw [L.round, ← L.nanCode]
  simp [BinFmt.round, hs, fIf]

end

theorem keyOf_eq (n c : ℕ) : keyOf (n + 1) c = keyCode (c.testBit n) (c % 2 ^ n) := by
  rw [keyOf, keyCode, Nat.add_sub_cancel, Nat.testBit_eq_decide_div_mod_eq, bitsN, pow_one]
  by_cases h : c / 2 ^ n % 2 = 1
  · rw [if_pos h, if_pos (decide_eq_true h)]
  · rw [if_neg h, if_neg (by simpa using h)]

theorem keyCode_inj {s t : Bool} {c d : ℕ} (h : keyCode s c = keyCode t d) : s = t ∧ c = d := by
  cases s <;> cases t <;> simp only [keyCode, Bool.false_eq_true, if_true, if_false] at h
  · exact ⟨rfl, by omega⟩
  · omega
  · omega
  · exact ⟨rfl, by omega⟩

section
variable {f : Fmt} (hf : f ≠ .i32) (x y : ℕ)
include hf

theorem redOp_sum : redOp f 0 x y =
    ((Fmt.round f .rne false (numAdd .rne (Fmt.dec f x) (Fmt.dec f y)).1).1,
      (numAdd .rne (Fmt.dec f x) (Fmt.dec f y)).2 ||| (Fmt.round f .rne false (numAdd .rne (Fmt.dec f x) (Fmt.dec f y)).1).2) := by
  unfold redOp
  dsimp only
  rw [if_neg hf, if_pos rfl]

variable {x y}

theorem redOp_nan {red : ℕ} (hr : red ≠ 0) (h : (Fmt.dec f x).isNan = true ∨ (Fmt.dec f y).isNan = true) :
    redOp f red x y = ((Fmt.round f .rne false (.nan false)).1, fIf ((Fmt.dec f x).sig || (Fmt.dec f y).sig) fInv) := by
  unfold redOp
  dsimp only
  rw [if_neg hf, if_neg hr, if_pos (Bool.or_eq_true_iff.2 h)]

theorem redOp_max (hx : (Fmt.dec f x).isNan = false) (hy : (Fmt.dec f y).isNan = false) :
    redOp f 1 x y = (if keyOf f.width x < keyOf f.width y then y else x, 0) := by
  unfold redOp
  dsimp only
  rw [if_neg hf, if_neg (by decide), hx, hy]
  rfl

theorem redOp_min (hx : (Fmt.dec f x).isNan = false) (hy : (Fmt.dec f y).isNan = false) :
    redOp f 2 x y = (if keyOf f.width y < keyOf f.width x then y else x, 0) := by
  unfold redOp
  dsimp only
  rw [if_neg hf, if_neg (by decide), hx, hy]
  rfl

end

section
variable {f : Fmt} {b : BinFmt} {nan inf top : ℕ} (L : Layout f b nan inf top) (hs : b.style = .ieee) {x : ℕ} (hx : x < 2 ^ f.width)
include L hs hx

/-- The code of an infinity. -/
theorem code_of_inf {g : Bool} (h : Fmt.dec f x = .inf g) : x.testBit (b.f + b.eb) = g ∧ x % 2 ^ (b.f + b.eb) = inf := by
  rcases (ieee_kinds L hs hx).2 with ⟨-, hk⟩ | ⟨hc, hk⟩ | ⟨-, hk⟩
  · rw [h] at hk
    cases hk
  · rw [h] at hk
    cases hk
    exact ⟨rfl, hc⟩
  · rw [h] at hk
    cases hk

theorem inf_code {g : Bool} (h : Fmt.dec f x = .inf g) : Fmt.round f .rne false (.inf g) = (x, 0) := by
  obtain ⟨hg, hc⟩ := code_of_inf L hs hx h
  rw [round_inf_ieee L hs, ← hg, ← hc, ← (ieee_kinds L hs hx).1]

/-- The code of a finite value. -/
theorem code_of_fin {n : Bool} {m : ℕ} {e : ℤ} (h : Fmt.dec f x = .fin n m e) :
    x.testBit (b.f + b.eb) = n ∧ (Fmt.dec f x).val = (if n then -1 else 1) * b.grid (x % 2 ^ (b.f + b.eb)) := by
  rcases (ieee_kinds L hs hx).2 with ⟨-, hk⟩ | ⟨-, hk⟩ | ⟨-, hk⟩
  · rw [hk, val_fin]
    rw [h] at hk
    cases hk
    exact ⟨rfl, rfl⟩
  · rw [h] at hk
    cases hk
  · rw [h] at hk
    cases hk

theorem mag_le_inf (h : (Fmt.dec f x).isNan = false) : x % 2 ^ (b.f + b.eb) ≤ inf := by
  have htop := (L.ieee hs).1
  rcases (ieee_kinds L hs hx).2 with ⟨hc, -⟩ | ⟨hc, -⟩ | ⟨-, hk⟩
  · omega
  · omega
  · rw [h] at hk
    cases hk

omit hs hx in
theorem key_code (x : ℕ) : keyOf f.width x = keyCode (x.testBit (b.f + b.eb)) (x % 2 ^ (b.f + b.eb)) := by
  rw [L.width]
  exact keyOf_eq _ x

variable {y : ℕ} (hy : y < 2 ^ f.width)
include hy

/-- Codes of one place in the order are one. -/
theorem key_inj (h : keyOf f.width x = keyOf f.width y) : x = y := by
  rw [key_code L, key_code L] at h
  obtain ⟨h1, h2⟩ := keyCode_inj h
  rw [(ieee_kinds L hs hx).1, (ieee_kinds L hs hy).1, h1, h2]

variable (hf : f ≠ .i32)
include hf

omit hy in
/-- The sum with an infinity on the left. -/
theorem sum_inf_left {g : Bool} (ha : Fmt.dec f x = .inf g) (hb : (Fmt.dec f y).isNan = false) :
    redOp f 0 x y = if Fmt.dec f y = .inf (!g) then (nan, fInv) else (x, 0) := by
  rw [redOp_sum hf, ha]
  cases hy : Fmt.dec f y with
  | nan s => rw [hy] at hb; cases hb
  | fin n m e =>
    rw [if_neg nofun]
    show ((Fmt.round f .rne false (.inf g)).1, 0 ||| (Fmt.round f .rne false (.inf g)).2) = _
    rw [inf_code L hs hx ha, zero_or_flags]
  | inf g' =>
    rw [numAdd_inf]
    by_cases h : g = g'
    · rw [if_pos h, if_neg (by rw [h]; cases g' <;> simp), inf_code L hs hx ha, zero_or_flags]
    · rw [if_neg h, if_pos (by rw [Bool.eq_not_iff.2 (Ne.symm h)]), round_nan_ieee L hs]
      exact Prod.ext rfl (flags_or_zero _)

omit hx in
theorem sum_inf_right {g : Bool} (hb : Fmt.dec f y = .inf g) {n : Bool} {m : ℕ} {k : ℤ} (ha : Fmt.dec f x = .fin n m k) : redOp f 0 x y = (y, 0) := by
  rw [redOp_sum hf, ha, hb]
  show ((Fmt.round f .rne false (.inf g)).1, 0 ||| (Fmt.round f .rne false (.inf g)).2) = _
  rw [inf_code L hs hy hb, zero_or_flags]

/-- The greater and the lesser of an infinity and another code. -/
theorem extreme_inf {g : Bool} (ha : Fmt.dec f x = .inf g) (hb : (Fmt.dec f y).isNan = false) :
    redOp f 1 x y = (if g then y else x, 0) ∧ redOp f 2 x y = (if g then x else y, 0) := by
  have hxn : (Fmt.dec f x).isNan = false := by rw [ha]; rfl
  obtain ⟨hg, hc⟩ := code_of_inf L hs hx ha
  have hle := mag_le_inf L hs hy hb
  have hkey : if g then keyOf f.width x ≤ keyOf f.width y else keyOf f.width y ≤ keyOf f.width x := by
    rw [key_code L, key_code L, hg, hc]
    generalize y % 2 ^ (b.f + b.eb) = d at hle
    cases g <;> cases y.testBit (b.f + b.eb) <;> simp [keyCode] <;> omega
  rw [redOp_max hf hxn hb, redOp_min hf hxn hb]
  cases g with
  | false =>
    have hkey : keyOf f.width y ≤ keyOf f.width x := hkey
    rw [if_neg (not_lt.2 hkey)]
    refine ⟨rfl, ?_⟩
    split
    · rfl
    next h => rw [key_inj L hs hx hy (le_antisymm (not_lt.1 h) hkey)]; rfl
  | true =>
    have hkey : keyOf f.width x ≤ keyOf f.width y := hkey
    rw [if_neg (not_lt.2 hkey)]
    refine ⟨?_, rfl⟩
    split
    · rfl
    next h => rw [key_inj L hs hx hy (le_antisymm hkey (not_lt.1 h))]; rfl

variable {n n' : Bool} {m m' : ℕ} {k k' : ℤ} (ha : Fmt.dec f x = .fin n m k) (hb : Fmt.dec f y = .fin n' m' k')
include ha hb

omit L hs hx hy in
/-- Of two finite codes the greater, and the lesser, in either order of the operands. -/
theorem extreme_of_key_lt (h : keyOf f.width x < keyOf f.width y) :
    redOp f 1 x y = (y, 0) ∧ redOp f 1 y x = (y, 0) ∧ redOp f 2 x y = (x, 0) ∧ redOp f 2 y x = (x, 0) := by
  have hxn : (Fmt.dec f x).isNan = false := by rw [ha]; rfl
  have hyn : (Fmt.dec f y).isNan = false := by rw [hb]; rfl
  rw [redOp_max hf hxn hyn, redOp_max hf hyn hxn, redOp_min hf hxn hyn, redOp_min hf hyn hxn, if_pos h, if_neg h.not_gt, if_pos h, if_neg h.not_gt]
  exact ⟨rfl, rfl, rfl, rfl⟩

omit hf in
theorem key_lt_of_val (h : (Fmt.dec f x).val < (Fmt.dec f y).val) : keyOf f.width x < keyOf f.width y := by
  obtain ⟨hn, hv⟩ := code_of_fin L hs hx ha
  obtain ⟨hn', hv'⟩ := code_of_fin L hs hy hb
  rw [hv, hv', signed_lt_iff] at h
  rw [key_code L, key_code L, hn, hn']
  exact keyCode_lt h

omit hf in
/-- −0 is below +0. -/
theorem key_lt_of_zero (hn : n = false) (hn' : n' = true) : keyOf f.width y < keyOf f.width x := by
  rw [key_code L, key_code L, (code_of_fin L hs hx ha).1, (code_of_fin L hs hy hb).1, hn, hn']
  simp only [keyCode, Bool.false_eq_true, if_true, if_false]
  omega

omit hs hx hy in
/-- The sum of two finite codes. -/
theorem sum_finite :
    let v := (Fmt.dec f x).val + (Fmt.dec f y).val
    (v = 0 → redOp f 0 x y = (if n = true ∧ n' = true then 2 ^ (f.width - 1) else 0, 0))
      ∧ (v ≠ 0 → b.Result inf top .rne false (decide (v < 0)) |v| (redOp f 0 x y)) := by
  intro v
  have hv : v = (Machine.Num.fin n m k).val + (Machine.Num.fin n' m' k').val := by rw [← ha, ← hb]
  obtain ⟨hzero, hne⟩ := finAdd_spec .rne n m k n' m' k'
  rw [redOp_sum hf, ha, hb, numAdd_fin]
  dsimp only
  refine ⟨fun h => ?_, fun h => ?_⟩
  · rw [hzero (hv ▸ h), L.round, L.width, Nat.add_sub_cancel]
    have hround (t : Bool) : b.round .rne false (.fin t 0 0) = (2 ^ (b.f + b.eb) * t.toNat, 0) := rfl
    rw [hround]
    cases n <;> cases n' <;> simp
  · obtain ⟨s, t, d, heq, hval⟩ := hne (hv ▸ h)
    have hres := round_val L .rne false (n := s) (m := t) (e := d) (by rw [hval, ← hv]; exact h)
    rw [hval, ← hv] at hres
    rw [heq, zero_or_flags, L.round]
    exact hres

end

/-- A reduction of a floating format with infinities (R168, R239). -/
theorem reduce_ieee : ∀ e ∈ floatFormats, e.2.1.style = .ieee → ∀ x < 2 ^ e.1.width, ∀ y < 2 ^ e.1.width,
    let a := Fmt.dec e.1 x
    let b := Fmt.dec e.1 y
    let inv (z : Bool) : BitVec 5 := if z then fInv else 0
    let sum := redOp e.1 0 x y
    (a.isNan = true ∨ b.isNan = true → ∀ red < 3, redOp e.1 red x y = (e.2.2.1, inv (a.sig || b.sig)))
    ∧ (∀ g, a = .inf g → b.isNan = false → sum = if b = .inf (!g) then (e.2.2.1, fInv) else (x, 0))
    ∧ (∀ g, b = .inf g → (∃ h m k, a = .fin h m k) → sum = (y, 0))
    ∧ ((∃ h m k h' m' k', a = .fin h m k ∧ b = .fin h' m' k') →
      let v := a.val + b.val
      (v = 0 → sum = (if negOf a = true ∧ negOf b = true then 2 ^ (e.1.width - 1) else 0, 0))
      ∧ (v ≠ 0 → e.2.1.Result e.2.2.2.1 e.2.2.2.2 .rne false (decide (v < 0)) |v| sum)
      ∧ (a.val < b.val → redOp e.1 1 x y = (y, 0) ∧ redOp e.1 1 y x = (y, 0) ∧ redOp e.1 2 x y = (x, 0) ∧ redOp e.1 2 y x = (x, 0))
      ∧ (negOf a = false → negOf b = true → v = 0 → a.val = 0 → redOp e.1 1 x y = (x, 0) ∧ redOp e.1 2 x y = (y, 0)))
    ∧ (a.isNan = false → b.isNan = false → redOp e.1 1 x x = (x, 0) ∧ redOp e.1 2 x x = (x, 0)
      ∧ (∀ g, a = .inf g → redOp e.1 1 x y = (if g then y else x, 0) ∧ redOp e.1 2 x y = (if g then x else y, 0))) := by
  intro e he hs x hx y hy a b inv sum
  have L := layout he
  have hf : e.1 ≠ .i32 := by
    simp only [floatFormats, List.mem_cons, List.not_mem_nil, or_false] at he
    rcases he with rfl | rfl | rfl | rfl | rfl | rfl <;> decide
  refine ⟨fun hn red hr => ?_, fun g ha hb => sum_inf_left L hs hx hf ha hb, fun g hb ⟨h, m, k, ha⟩ => sum_inf_right L hs hy hf hb ha, ?_,
    fun ha hb => ⟨?_, ?_, fun g hg => extreme_inf L hs hx hy hf hg hb⟩⟩
  · by_cases h0 : red = 0
    · rw [h0, redOp_sum hf, numAdd_nan .rne hn, round_nan_ieee L hs]
      exact Prod.ext rfl (flags_or_zero _)
    · rw [redOp_nan hf h0 hn, round_nan_ieee L hs]
      rfl
  · rintro ⟨n, m, k, n', m', k', ha, hb⟩ v
    obtain ⟨hz, hnz⟩ := sum_finite L hf ha hb
    have hna : negOf a = n := by rw [ha]; rfl
    have hnb : negOf b = n' := by rw [hb]; rfl
    rw [hna, hnb]
    refine ⟨hz, hnz, fun h => extreme_of_key_lt hf ha hb (key_lt_of_val L hs hx hy ha hb h), fun hn hn' _ _ => ?_⟩
    obtain ⟨-, hmax, -, hmin⟩ := extreme_of_key_lt hf hb ha (key_lt_of_zero L hs hx hy ha hb hn hn')
    exact ⟨hmax, hmin⟩
  · rw [redOp_max hf ha ha, ite_self]
  · rw [redOp_min hf ha ha, ite_self]

end Sys2Proof
end

section
/-! The bytes of a collective's result (R238, R239). -/

namespace Sys2Proof

open Machine

/-! Bytes as numbers. -/

theorem natOfBytes_cons (b : Byte) (bs : List Byte) : natOfBytes (b :: bs) = b.toNat + 256 * natOfBytes bs := rfl

theorem natOfBytes_drop : ∀ (n : ℕ) (bs : List Byte), natOfBytes (bs.drop n) = natOfBytes bs / 256 ^ n
  | 0, bs => by rw [pow_zero, Nat.div_one]; rfl
  | n + 1, [] => (Nat.zero_div _).symm
  | n + 1, b :: bs => by
    have hb : b.toNat < 256 := b.isLt
    rw [List.drop_succ_cons, natOfBytes_drop n bs, natOfBytes_cons, Nat.pow_succ', ← Nat.div_div_eq_div_mul, Nat.add_mul_div_left _ _ (by decide),
      Nat.div_eq_of_lt hb, Nat.zero_add]

theorem natOfBytes_take : ∀ (n : ℕ) (bs : List Byte), natOfBytes (bs.take n) = natOfBytes bs % 256 ^ n
  | 0, bs => by rw [pow_zero, Nat.mod_one]; rfl
  | n + 1, [] => (Nat.zero_mod _).symm
  | n + 1, b :: bs => by
    have hb : b.toNat < 256 := b.isLt
    rw [List.take_succ_cons, natOfBytes_cons, natOfBytes_take n bs, natOfBytes_cons, Nat.pow_succ', Nat.mod_mul, Nat.add_mul_mod_self_left,
      Nat.mod_eq_of_lt hb, Nat.add_mul_div_left _ _ (by decide), Nat.div_eq_of_lt hb, Nat.zero_add]

theorem natOfBytes_slice (bs : List Byte) (i k : ℕ) : natOfBytes ((bs.drop i).take k) = natOfBytes bs / 256 ^ i % 256 ^ k := by
  rw [natOfBytes_take, natOfBytes_drop]

theorem natOfBytes_bytesLE : ∀ n x : ℕ, natOfBytes (bytesLE n x) = x % 256 ^ n
  | 0, x => by rw [pow_zero, Nat.mod_one]; rfl
  | n + 1, x => by
    rw [bytesLE, natOfBytes_cons, natOfBytes_bytesLE n, BitVec.toNat_ofNat, pow_succ' 256 n]
    exact Nat.mod_mul.symm

theorem length_bytesLE : ∀ n x : ℕ, (bytesLE n x).length = n
  | 0, _ => rfl
  | n + 1, _ => congrArg (· + 1) (length_bytesLE n _)

/-! Elements of rows of whole bytes. -/

section
variable {w k : ℕ} (hw : w = 8 * k)
include hw

theorem two_pow_width : 2 ^ w = 256 ^ k := by rw [hw, Nat.pow_mul]

theorem two_pow_place (e : ℕ) : 2 ^ (w * e) = 256 ^ (e * k) := by rw [Nat.pow_mul, two_pow_width hw, ← Nat.pow_mul, Nat.mul_comm]

theorem elems_get {n e : ℕ} (he : e < n) (bs : List Byte) : (elems w n bs).getD e 0 = natOfBytes ((bs.drop (e * k)).take k) := by
  have hlen : e < (elems w n bs).length := by rwa [elems, List.length_map, List.length_range]
  rw [List.getD_eq_getElem _ _ hlen, natOfBytes_slice, ← two_pow_place hw, ← two_pow_width hw]
  simp [elems, bitsN]

omit hw in
/-- Entry `e` of a packed row. -/
theorem packed_get : ∀ (xs : List ℕ) (e : ℕ), e < xs.length →
    (xs.foldr (fun x acc => x % 2 ^ w + 2 ^ w * acc) 0) / 2 ^ (w * e) % 2 ^ w = xs.getD e 0 % 2 ^ w
  | x :: xs, 0, _ => by
    rw [Nat.mul_zero, pow_zero, Nat.div_one, List.foldr_cons, Nat.add_mul_mod_self_left, Nat.mod_mod]
    rfl
  | x :: xs, e + 1, h => by
    have hpos := Nat.two_pow_pos w
    rw [Nat.mul_succ, Nat.add_comm, pow_add, ← Nat.div_div_eq_div_mul, List.foldr_cons, Nat.add_mul_div_left _ _ hpos,
      Nat.div_eq_of_lt (Nat.mod_lt _ hpos), Nat.zero_add, packed_get xs e (Nat.lt_of_succ_lt_succ h)]
    rfl

theorem length_packRow (xs : List ℕ) : (packRow w xs).length = xs.length * k := by
  rw [packRow, length_bytesLE, hw, Nat.mul_left_comm, Nat.mul_div_cancel_left _ (by decide)]

theorem packRow_get {xs : List ℕ} {e : ℕ} (he : e < xs.length) (hx : xs.getD e 0 < 2 ^ w) :
    natOfBytes (((packRow w xs).drop (e * k)).take k) = xs.getD e 0 := by
  have hbytes : xs.length * w / 8 = xs.length * k := by rw [hw, Nat.mul_left_comm, Nat.mul_div_cancel_left _ (by decide)]
  have hfit : e * k + k ≤ xs.length * k := by
    rw [← Nat.succ_mul]
    exact Nat.mul_le_mul_right _ he
  have hpow : 256 ^ (xs.length * k) = 256 ^ (e * k) * (256 ^ k * 256 ^ (xs.length * k - (e * k + k))) := by
    rw [← pow_add, ← pow_add]
    congr 1
    omega
  rw [natOfBytes_slice, packRow, natOfBytes_bytesLE, hbytes, hpow, Nat.mod_mul_right_div_self, Nat.mod_mul_right_mod, ← two_pow_place hw,
    ← two_pow_width hw, packed_get xs e he, Nat.mod_eq_of_lt hx]

end

/-! Results of a reduction are codes of the format. -/

theorem round_lt_float {e : Fmt × BinFmt × ℕ × ℕ × ℕ} (he : e ∈ floatFormats) (rnd : Rnd) (sat : Bool) (x : Machine.Num) :
    (Fmt.round e.1 rnd sat x).1 < 2 ^ e.1.width := by
  have L := layout he
  have hsign (n : Bool) : 2 ^ (e.2.1.f + e.2.1.eb) * n.toNat ≤ 2 ^ (e.2.1.f + e.2.1.eb) := by
    cases n
    · exact Nat.zero_le _
    · exact le_of_eq (mul_one _)
  have hpos := Nat.two_pow_pos (e.2.1.f + e.2.1.eb)
  cases x with
  | nan g =>
    rw [(round_binary e he rnd sat false 0 0).2.2.2 g]
    change e.2.2.1 < 2 ^ e.1.width
    simp only [floatFormats, List.mem_cons, List.not_mem_nil, or_false] at he
    rcases he with rfl | rfl | rfl | rfl | rfl | rfl <;> decide
  | inf n =>
    have hinf := L.infBelow
    have hn := hsign n
    rw [(round_binary e he rnd sat n 0 0).2.2.1, L.width, pow_succ]
    dsimp only
    omega
  | fin n m k =>
    rw [L.width]
    by_cases hm : m = 0
    · have hn := hsign n
      rw [hm, (round_binary e he rnd sat n 0 k).2.1, pow_succ]
      dsimp only
      omega
    · exact result_lt L rnd ((round_binary e he rnd sat n m k).1 hm)

theorem round_lt_tapered {e : Fmt × ℕ} (he : e ∈ [(Fmt.tap6, 6), (.tap8, 8)]) (rnd : Rnd) (sat : Bool) (x : Machine.Num) :
    (Fmt.round e.1 rnd sat x).1 < 2 ^ e.2 := by
  have hw : 2 ^ e.2 = 2 ^ (e.2 - 1) + 2 ^ (e.2 - 1) ∧ 1 < 2 ^ (e.2 - 1) := by
    simp only [List.mem_cons, List.not_mem_nil, or_false] at he
    rcases he with rfl | rfl <;> decide
  obtain ⟨hw, hone⟩ := hw
  have hcode {n : Bool} {c : ℕ} (hc : c ≤ 2 ^ (e.2 - 1) - 1) : 2 ^ (e.2 - 1) * n.toNat + c < 2 ^ e.2 := by
    have hn : 2 ^ (e.2 - 1) * n.toNat ≤ 2 ^ (e.2 - 1) := by
      cases n
      · exact Nat.zero_le _
      · exact le_of_eq (mul_one _)
    omega
  cases x with
  | nan g =>
    rw [(round_tapered e he rnd sat false 0 0).2.2.2.2.2 g]
    dsimp only
    omega
  | inf n =>
    rw [(round_tapered e he rnd sat n 0 0).2.2.2.2.1]
    exact hcode le_rfl
  | fin n m k =>
    obtain ⟨hhigh, hlow, hzero, hmid, -⟩ := round_tapered e he rnd sat n m k
    by_cases hm : m = 0
    · rw [hzero hm]
      exact Nat.two_pow_pos _
    · rcases lt_or_ge (Machine.Num.fin false m k).val (Fmt.dec e.1 1).val with h | h
      · rw [hlow hm h]
        exact hcode (by omega)
      · rcases le_or_gt (Machine.Num.fin false m k).val (Fmt.dec e.1 (2 ^ (e.2 - 1) - 1)).val with h' | h'
        · obtain ⟨c, -, hc, -, hr⟩ := hmid h h'
          rw [hr]
          exact hcode hc
        · rw [hhigh h']
          exact hcode le_rfl

theorem roundInt_lt (signed : Bool) (n : ℕ) (rnd : Rnd) (x : Machine.Num) : (roundInt signed n rnd x).1 < 2 ^ n := by
  have hcode (v : ℤ) : (v % (2 ^ n : ℕ)).toNat < 2 ^ n := by
    have hpos : (0 : ℤ) < (2 ^ n : ℕ) := by exact_mod_cast Nat.two_pow_pos n
    have h1 := Int.emod_lt_of_pos v hpos
    have h2 := Int.emod_nonneg v hpos.ne'
    omega
  cases x with
  | nan g => exact Nat.two_pow_pos n
  | inf neg => exact hcode _
  | fin neg m e =>
    have hite (p : Prop) [Decidable p] {u v : ℕ × BitVec 5} (hu : u.1 < 2 ^ n) (hv : v.1 < 2 ^ n) : (if p then u else v).1 < 2 ^ n := by
      split
      · exact hu
      · exact hv
    exact hite _ (hcode _) (hite _ (hcode _) (hcode _))

/-- What a value rounds to is a code of the format. -/
theorem round_lt (f : Fmt) (rnd : Rnd) (sat : Bool) (x : Machine.Num) : (Fmt.round f rnd sat x).1 < 2 ^ f.width := by
  cases f with
  | tap6 => exact round_lt_tapered (e := (.tap6, 6)) (by simp) rnd sat x
  | tap8 => exact round_lt_tapered (e := (.tap8, 8)) (by simp) rnd sat x
  | i8 => exact roundInt_lt ..
  | i16 => exact roundInt_lt ..
  | i32 => exact roundInt_lt ..
  | u8 => exact roundInt_lt ..
  | fp4 => exact round_lt_float (e := (.fp4, ⟨1, 2, 1, .fp4⟩, 0, 7, 7)) (by simp [floatFormats]) rnd sat x
  | e4m3 => exact round_lt_float (e := (.e4m3, ⟨3, 4, 7, .e4m3⟩, 0x7F, 0x7E, 0x7E)) (by simp [floatFormats]) rnd sat x
  | e5m2 => exact round_lt_float (e := (.e5m2, ⟨2, 5, 15, .ieee⟩, 0x7E, 0x7C, 0x7B)) (by simp [floatFormats]) rnd sat x
  | bf16 => exact round_lt_float (e := (.bf16, ⟨7, 8, 127, .ieee⟩, 0x7FC0, 0x7F80, 0x7F7F)) (by simp [floatFormats]) rnd sat x
  | f16 => exact round_lt_float (e := (.f16, ⟨10, 5, 15, .ieee⟩, 0x7E00, 0x7C00, 0x7BFF)) (by simp [floatFormats]) rnd sat x
  | f32 => exact round_lt_float (e := (.f32, b32, 0x7FC00000, 0x7F800000, 0x7F7FFFFF)) (by simp [floatFormats, b32]) rnd sat x

theorem redOp_lt (f : Fmt) (red : ℕ) {x y : ℕ} (hx : x < 2 ^ f.width) (hy : y < 2 ^ f.width) : (redOp f red x y).1 < 2 ^ f.width := by
  have hpick (p : Prop) [Decidable p] {u v : ℕ} (hu : u < 2 ^ f.width) (hv : v < 2 ^ f.width) : (if p then u else v) < 2 ^ f.width := by
    split
    · exact hu
    · exact hv
  unfold redOp
  dsimp only
  split
  next h =>
    subst h
    exact hpick _ (Nat.mod_lt _ (Nat.two_pow_pos 32)) (hpick _ (hpick _ hy hx) (hpick _ hy hx))
  next =>
    split
    · exact round_lt ..
    · split
      · exact round_lt ..
      · exact hpick _ (hpick _ hy hx) (hpick _ hy hx)

theorem redAll_lt (f : Fmt) (red : ℕ) {xs : List ℕ} (h : xs ≠ []) (hx : ∀ x ∈ xs, x < 2 ^ f.width) : (redAll f red xs).1 < 2 ^ f.width := by
  induction xs using List.reverseRecOn with
  | nil => exact absurd rfl h
  | append_singleton xs y ih =>
    have hy := hx y (List.mem_append_right _ List.mem_cons_self)
    by_cases hxs : xs = []
    · rw [hxs]
      exact hy
    · rw [(reduce_in_order f red 0 y xs).2 hxs]
      exact redOp_lt f red (ih hxs fun x hm => hx x (List.mem_append_left _ hm)) hy

/-! The bytes written. -/

/-- Entry `e` of a source, of `k` bytes. -/
def srcElem (k : ℕ) (bs : List Byte) (e : ℕ) : ℕ := natOfBytes ((bs.drop (e * k)).take k)

/-- A block of a reduction: as many elements as it counts, each reduced over the ranks. -/
theorem redBlock_get {f : Fmt} {k : ℕ} (hw : f.width = 8 * k) (red b n : ℕ) {srcs : List (List Byte)} (hne : srcs ≠ []) :
    (redBlock f red b n srcs).1.length = n * k
      ∧ ∀ e < n, srcElem k (redBlock f red b n srcs).1 e = (redAll f red (srcs.map fun s => srcElem k s (b * n + e))).1 := by
  have hdiv : f.width / 8 = k := by rw [hw, Nat.mul_div_cancel_left _ (by decide)]
  have hlt (e : ℕ) : (redAll f red (srcs.map fun s => srcElem k s (b * n + e))).1 < 2 ^ f.width := by
    refine redAll_lt f red (by simpa using hne) (List.forall_mem_map.2 fun s _ => ?_)
    rw [srcElem, natOfBytes_take, two_pow_width hw]
    exact Nat.mod_lt _ (Nat.pow_pos (by decide))
  have hrow {e : ℕ} (he : e < n) (s : List Byte) : (elems f.width n ((s.drop (b * n * k)).take (n * k))).getD e 0 = srcElem k s (b * n + e) := by
    have hfit : e * k + k ≤ n * k := by
      rw [← Nat.succ_mul]
      exact Nat.mul_le_mul_right _ he
    rw [elems_get hw he, srcElem, List.drop_take, List.take_take, List.drop_drop, min_eq_left (by omega), Nat.add_mul]
  have hbytes : (redBlock f red b n srcs).1 =
      packRow f.width ((List.range n).map fun e => (redAll f red (srcs.map fun s => srcElem k s (b * n + e))).1) := by
    unfold redBlock
    dsimp only
    rw [hdiv, List.map_map]
    congr 1
    refine List.map_congr_left fun e he => ?_
    dsimp only [Function.comp]
    rw [List.map_map]
    congr 2
    exact List.map_congr_left fun s _ => hrow (List.mem_range.1 he) s
  have hget {e : ℕ} (he : e < n) : ((List.range n).map fun e => (redAll f red (srcs.map fun s => srcElem k s (b * n + e))).1).getD e 0
      = (redAll f red (srcs.map fun s => srcElem k s (b * n + e))).1 := by
    rw [List.getD_eq_getElem _ _ (by simpa using he)]
    simp
  rw [hbytes]
  refine ⟨?_, fun e he => ?_⟩
  · rw [length_packRow hw, List.length_map, List.length_range]
  · rw [srcElem, packRow_get hw (by simpa using he) (by rw [hget he]; exact hlt e), hget he]

/-- A slice of blocks of one length that lies in one of them. -/
theorem flatMap_slice {α β : Type} (g : α → List β) {m : ℕ} (hg : ∀ a, (g a).length = m) {j k : ℕ} (hjk : j + k ≤ m) :
    ∀ (l : List α) (b : ℕ) (hb : b < l.length), ((l.flatMap g).drop (b * m + j)).take k = ((g l[b]).drop j).take k
  | a :: l, 0, _ => by
    rw [List.flatMap_cons, Nat.zero_mul, Nat.zero_add, List.drop_append_of_le_length (by rw [hg]; omega),
      List.take_append_of_le_length (by rw [List.length_drop, hg]; omega)]
    rfl
  | a :: l, b + 1, hb => by
    have hsplit : (b + 1) * m + j = (g a).length + (b * m + j) := by
      rw [hg]
      ring
    rw [List.flatMap_cons, hsplit, List.drop_length_add_append, flatMap_slice g hg hjk l b (Nat.lt_of_succ_lt_succ hb)]
    rfl

/-- What a collective writes (R238, R239). -/
theorem collective_result : ∀ (c : Cmd) (srcs : List (List Byte)), srcs.length = c.nrank →
    let w := c.collFmt.width
    let r := collResult c srcs
    let red (e : Nat) : Nat × BitVec 5 := redAll c.collFmt c.red (srcs.map fun b => natOfBytes ((b.drop (e * (w / 8))).take (w / 8)))
    let element (e : Nat) : Nat := natOfBytes ((r.1.drop (e * (w / 8))).take (w / 8))
    (c.cop = 1 → r = (srcs.flatten, 0)) ∧ (c.cop = 3 → r = (srcs.getD c.root [], 0))
    ∧ (w % 8 = 0 → srcs ≠ [] → (∀ b ∈ srcs, b.length = c.nrank * (c.count * (w / 8))) →
      (c.cop = 0 → ∀ e < c.count, element e = (red (c.rank * c.count + e)).1)
      ∧ (c.cop = 2 → ∀ e < c.nrank * c.count, element e = (red e).1)) := by
  intro c srcs _ w r red element
  refine ⟨fun h => ?_, fun h => ?_, fun hw hne _ => ?_⟩
  · show collResult c srcs = _
    rw [collResult, h]
    rfl
  · show collResult c srcs = _
    rw [collResult, h]
    rfl
  · have hw8 : c.collFmt.width = 8 * (w / 8) := (Nat.mul_div_cancel' (Nat.dvd_of_mod_eq_zero hw)).symm
    have hblock (b : ℕ) := redBlock_get hw8 c.red b c.count hne
    refine ⟨fun h e he => ?_, fun h e he => ?_⟩
    · have hr : r = redBlock c.collFmt c.red c.rank c.count srcs := if_pos h
      show srcElem (w / 8) r.1 e = _
      rw [hr, (hblock c.rank).2 e he]
      rfl
    · have hr : r.1 = ((List.range c.nrank).map fun b => redBlock c.collFmt c.red b c.count srcs).flatMap (·.1) := by
        show (collResult c srcs).1 = _
        rw [collResult, h]
        rfl
      have hcount : 0 < c.count := Nat.pos_of_ne_zero fun h0 => by rw [h0, Nat.mul_zero] at he; exact Nat.not_lt_zero _ he
      have hb : e / c.count < c.nrank := (Nat.div_lt_iff_lt_mul hcount).2 he
      have hi := Nat.mod_lt e hcount
      have hfit : e % c.count * (w / 8) + w / 8 ≤ c.count * (w / 8) := by
        rw [← Nat.succ_mul]
        exact Nat.mul_le_mul_right _ hi
      have hplace : e * (w / 8) = e / c.count * (c.count * (w / 8)) + e % c.count * (w / 8) := by
        rw [← Nat.mul_assoc, ← Nat.add_mul, Nat.div_add_mod']
      have hslice := flatMap_slice (fun b => (redBlock c.collFmt c.red b c.count srcs).1) (fun b => (hblock b).1) hfit (List.range c.nrank) (e / c.count)
        (by rwa [List.length_range])
      have hel := (hblock (e / c.count)).2 _ hi
      rw [Nat.div_add_mod'] at hel
      show natOfBytes ((r.1.drop (e * (w / 8))).take (w / 8)) = _
      rw [hr, List.flatMap_map, hplace, hslice, List.getElem_range]
      exact hel

end Sys2Proof
end

section
/-! Collectives and leases (O55). -/

namespace Sys2Proof

/-- Settles O55: collectives complete or end in error, leases are answered and expire, and reductions go through the ranks in order. -/
theorem collectiveEvents : Obligations.CollectiveEvents := by
  unfold Obligations.CollectiveEvents
  refine ⟨fun s id peers c own srcs x hget hnext => ⟨collComplete_lease peers hget hnext, fun f va acc h => collComplete_failed peers hget hnext h,
    collComplete_cut peers hget hnext, fun h hf hd hc hown hsrcs => collComplete_done peers hget hnext h hf hd hc hown hsrcs⟩,
    fun s r rest c n v => lease_answered, fun s e v w => lease_expires, reduce_in_order, reduce_int32, reduce_ieee, collective_result⟩

end Sys2Proof
end
